-- ==== Sys2Proof/Word.lean ====
section
/-!
DEFINITION. The machine word of the MN7208: x and f registers, control registers and addresses are 64 bits wide
(07 R151, R152).
-/

namespace Sys2Proof

/-- A register value. -/
abbrev Word := BitVec 64

/-- A byte of memory or scratchpad. -/
abbrev Byte := BitVec 8

end Sys2Proof
end

