-- ==== Sys2Proof/Config.lean ====
section
/-!
DEFINITION. What the spec leaves open and the model leaves free: constants without a body, which nothing can evaluate.
Each is applied to the model's counter `State.seq`, or to the operand its rule says it depends on. The log entry that
declares each is named beside it.
-/

namespace Sys2Proof.Config

/-- Whether a read inside a lookahead window returns the new value (02 R41), by the counter and the operand position
(log entry 4). -/
opaque laNew : Nat → Nat → Bool

/-- Whether a TLB, or a walk cache, still holds the entry that would serve a look-up (04 R91, R94), by the counter and the place:
0 the core's own TLB, 1 the die's or the L2 TLB, 2 to 4 the walk cache's level (log entry 4). -/
opaque tlbKeep : Nat → Nat → Bool

/-- Which entry of a full set or table makes room (04 R91, 05 R99), by the counter (log entry 4). -/
opaque victim : Nat → Nat

/-- Whether a thread sent to a full S-die has waited long enough to go to another (15 R335), by the counter (log entry 4). -/
opaque binWait : Nat → Bool

/-- How many of a thread's last instructions were still in flight when the clocks of its rail quadrant stopped (19 R429), by the counter
and the thread's number (log entry 9). -/
opaque inFlight : Nat → Nat → Nat

/-- Whether a fetch is served by an older copy of the block in the instruction cache (18 R422), by the counter (log
entry 4). -/
opaque fetchOld : Nat → Bool

/-- Nanoseconds that pass in a step (07 R160), by the counter (log entry 6). -/
opaque timeStep : Nat → Nat

/-- Latency of an access of a thread or an engine in clocks (00 R4), by the counter: what a capture unit samples (19 R432; log entry
6). -/
opaque latency : Nat → Nat

/-- Where the search for a free entry of a table starts (15 R325, 17 R372), by the counter (log entry 4). -/
opaque freeStart : Nat → Nat

/-- How far fsinp, fcosp, fexp2 and flog2 land from the correctly rounded result, in units of the last place, before the
bound of 11 R237 and R238 is applied; by the function (0 to 3) and the operand's bits (log entry 7). -/
opaque approx : Nat → BitVec 32 → Int

/-- The bytes a die writes to the spill area for an entry of its mark table, of which 17 R375 gives no layout, by the counter and the
byte (log entry 49). -/
opaque spillImage : Nat → Nat → BitVec 8

/-- A tile's current over a window as the balance sensor measures it (16 R349), by the counter and the tile (log
entry 8). -/
opaque current : Nat → Nat → Nat

/-- Whether a firmware manifest's signature verifies and its images hash to their names (number 0), and whether the image of a unit
verifies as it is loaded, by the counter and the unit's number (19 R435; log entry 9). -/
opaque verified : Nat → Nat → Bool

/-- The version of the manifest a package powers on with (19 R435, R436), by the counter (log entry 9). -/
opaque manifest : Nat → Nat

/-- What a link port is wired to, by package and port (20 R445): bit 0 whether it is, bits [4:1] the package, bits [7:5] the port
(log entry 5). -/
opaque wiring : Nat → Nat → BitVec 8

/-- The port mask of the domain configuration, by package and destination (20 R445; log entry 5). -/
opaque route : Nat → Nat → BitVec 8

/-- Whether a unit passes its step of the power-on order (19 R436), by the counter and the unit's number (log entry 9). -/
opaque bringUp : Nat → Nat → Bool

/-- Whether the save of a rail quadrant that is shut completes in time (19 R428, R430), by the counter (log entry 9). -/
opaque quadSaved : Nat → Bool

/-- What an atomic operation that is performed late and draws an error response leaves in its register, by the counter (log entry
99). -/
opaque spoiled : Nat → BitVec 64

/-- The locator of an error-log entry for which the spec gives none (codes 17 and 18 of 19 R433), by the counter (log
entry 4). -/
opaque locator : Nat → BitVec 64

/-- An egress or ingress timestamp's offset from the package's TIME, in nanoseconds, before the bound of 20 R443
(log entry 6). -/
opaque stampOff : Nat → Nat

end Sys2Proof.Config
end

