-- ==== Sys2Proof/Syntax.lean ====
section
/-!
DEFINITION. The instructions and device steps of the MN7208, one constructor of `Instr` for each row of the
opcode table. A constructor of an encoded row holds every field of its layout (02 R34 to R38): the guard as its
four bits, registers as five, predicates as three, immediates at their own width, sub-fields as enumerations.
A constructor of a row without an encoding (a step of an engine, of a dispatcher, of firmware or of the outside
world) names the unit the step happens at.
-/

namespace Sys2Proof

/-- Relations of `cmp` (03 R61, 08 R181). -/
inductive CmpOp where | eq | ne | lt | ge | lo | hs
deriving DecidableEq, Repr

/-- Sizes of an integer load (03 R60, R69). -/
inductive LdSize where | s8 | z8 | s16 | z16 | s32 | z32 | d64
deriving DecidableEq, Repr

/-- Sizes of an integer store (03 R60, R69). -/
inductive StSize where | b8 | b16 | b32 | b64
deriving DecidableEq, Repr

/-- Operations of `amo` (03 R69, 09 R201). -/
inductive AmoOp where | add | and | or | xor | min | max | minn | maxn | swap
deriving DecidableEq, Repr

/-- Operations of `red` (03 R69, 09 R203). -/
inductive RedOp where | add | and | or | xor | min | max | fadd
deriving DecidableEq, Repr

/-- Ordering codes of a memory access (03 R70). -/
inductive Order where | plain | acq | rel | acqRel
deriving DecidableEq, Repr

/-- Scopes (02 R48). -/
inductive Scope where | thread | wg | cl | die | pkg | sys
deriving DecidableEq, Repr

/-- The scopes a cache-walker command or `tlb.inv` may name (04 R95, 05 R117). -/
inductive WScope where | die | pkg | sys
deriving DecidableEq, Repr

/-- Float types (03 R67). -/
inductive FType where | f64 | f32 | f32x2 | bf16x4 | f16x4 | f16 | a8x8
deriving DecidableEq, Repr

/-- Rounding sub-field (03 R67): four fixed modes, or the mode of FRM. -/
inductive RM where | rne | rtz | rup | rdn | frm
deriving DecidableEq, Repr

/-- Relations of `fcmp` (03 R67). -/
inductive FcmpOp where | eq | ne | lt | le | un
deriving DecidableEq, Repr

/-- Operations of `lred` (03 R68). -/
inductive LredOp where | add | min | max | minn | maxn | and | or | xor | fadd | fmin | fmax
deriving DecidableEq, Repr

/-- Classes of outstanding counters (06 R147). -/
inductive CntClass where | copy | matrix | walker | remote
deriving DecidableEq, Repr

/-- Element formats of `mmul` (12 R258). -/
inductive MFmt where | bf16 | f16 | a8 | i8
deriving DecidableEq, Repr

/-- Kinds of `tlb.inv` (04 R95). -/
inductive TlbKind where | va | rng | asid | all | vag
deriving DecidableEq, Repr

/-- A-slot functions of a pair word (03 R71). -/
inductive AOp where
  | nop | add | sub | and | or | xor | andn | sll | srl | sra | min | max | minn | maxn | lea4 | lea8
  | cmp (c : CmpOp) | pand | por | pxor | pnot | mul
deriving DecidableEq, Repr

/-- D-slot functions of a pair word (03 R71). -/
inductive DOp where
  | nop | faddS | fsubS | fmulS | fmaS | faddD | fmulD | fmaD | faddB | fmulB | fmaB | fmaH
  | fminS | fmaxS | fabsS | fnegS | fmvX | fmvF | fdot2 | fmaP
deriving DecidableEq, Repr

/-- A unit with a service word (19 R434). Dies are named by package × 16 + DIE_ID, cores by die × 64 + CORE_ID, courses
by die × 8 + COURSE_ID; stacks, LPDDR-6 controllers and link ports by package and number. -/
inductive UnitId where
  | core (k : Nat) | course (k : Nat) | quadrant (die q : Nat) | stack (pkg n : Nat) | controller (pkg n : Nat)
  | port (pkg n : Nat) | copyEngine (core : Nat) | matrixEngine (core : Nat) | walker (die : Nat) | die (d : Nat)
deriving DecidableEq, Repr

/-- One constructor per row of the opcode table. -/
inductive Instr where

  /-- `ADD`: Adds two x registers, wrapping modulo 2^64, in the R layout. (R171) -/
  | add (g : BitVec 4) (d a b : BitVec 5)
  /-- `SUB`: Subtracts x[b] from x[a], wrapping modulo 2^64. (R171) -/
  | sub (g : BitVec 4) (d a b : BitVec 5)
  /-- `AND`: Bitwise AND of two x registers. (R171) -/
  | and (g : BitVec 4) (d a b : BitVec 5)
  /-- `OR`: Bitwise OR of two x registers. (R171) -/
  | or (g : BitVec 4) (d a b : BitVec 5)
  /-- `XOR`: Bitwise XOR of two x registers. (R171) -/
  | xor (g : BitVec 4) (d a b : BitVec 5)
  /-- `ANDN`: x[a] AND NOT x[b]. (R171) -/
  | andn (g : BitVec 4) (d a b : BitVec 5)
  /-- `ORN`: x[a] OR NOT x[b]. (R171) -/
  | orn (g : BitVec 4) (d a b : BitVec 5)
  /-- `XNOR`: NOT (x[a] XOR x[b]). (R171) -/
  | xnor (g : BitVec 4) (d a b : BitVec 5)
  /-- `SLL`: Logical left shift by x[b][5:0]. (R171) -/
  | sll (g : BitVec 4) (d a b : BitVec 5)
  /-- `SRL`: Logical right shift by x[b][5:0]. (R171) -/
  | srl (g : BitVec 4) (d a b : BitVec 5)
  /-- `SRA`: Arithmetic right shift by x[b][5:0]. (R171) -/
  | sra (g : BitVec 4) (d a b : BitVec 5)
  /-- `ROL`: Rotate left by x[b][5:0]. (R171) -/
  | rol (g : BitVec 4) (d a b : BitVec 5)
  /-- `ROR`: Rotate right by x[b][5:0]. (R171) -/
  | ror (g : BitVec 4) (d a b : BitVec 5)
  /-- `MIN`: Signed minimum of two x registers. (R171) -/
  | min (g : BitVec 4) (d a b : BitVec 5)
  /-- `MAX`: Signed maximum of two x registers. (R171) -/
  | max (g : BitVec 4) (d a b : BitVec 5)
  /-- `MINN`: Unsigned minimum of two x registers. (R171) -/
  | minn (g : BitVec 4) (d a b : BitVec 5)
  /-- `MAXN`: Unsigned maximum of two x registers. (R171) -/
  | maxn (g : BitVec 4) (d a b : BitVec 5)
  /-- `LEA`: Computes x[a] + (x[b] << s) for s = 0 to 3, without checking the address. (R171) -/
  | lea (k : BitVec 2) (g : BitVec 4) (d a b : BitVec 5)
  /-- `MUL`: Low 64 bits of the product. (R176) -/
  | mul (g : BitVec 4) (d a b : BitVec 5)
  /-- `MULH`: High 64 bits of the signed 128-bit product. (R176) -/
  | mulh (g : BitVec 4) (d a b : BitVec 5)
  /-- `MULHN`: High 64 bits of the unsigned 128-bit product. (R176) -/
  | mulhn (g : BitVec 4) (d a b : BitVec 5)
  /-- `CLZ`: Counts leading zero bits. (R177) -/
  | clz (g : BitVec 4) (d a : BitVec 5)
  /-- `CTZ`: Counts trailing zero bits. (R177) -/
  | ctz (g : BitVec 4) (d a : BitVec 5)
  /-- `POPC`: Counts set bits. (R177) -/
  | popc (g : BitVec 4) (d a : BitVec 5)
  /-- `BREV`: Reverses the bit order. (R177) -/
  | brev (g : BitVec 4) (d a : BitVec 5)
  /-- `BSWAP`: Reverses the byte order. (R177) -/
  | bswap (g : BitVec 4) (d a : BitVec 5)
  /-- `CMP`: Compares two x registers under the relation eq, ne, lt, ge, lo or hs and writes a predicate. (R181) -/
  | cmp (c : CmpOp) (g : BitVec 4) (d : BitVec 3) (a b : BitVec 5)
  /-- `SEL`: Selects x[a] or x[b] by predicate pN. (R182) -/
  | sel (g : BitVec 4) (d a b : BitVec 5) (p : BitVec 3)
  /-- `PAND`: Predicate AND. (R183) -/
  | pand (g : BitVec 4) (d a b : BitVec 3)
  /-- `POR`: Predicate OR. (R183) -/
  | por (g : BitVec 4) (d a b : BitVec 3)
  /-- `PXOR`: Predicate XOR. (R183) -/
  | pxor (g : BitVec 4) (d a b : BitVec 3)
  /-- `PNOT`: Predicate NOT. (R183) -/
  | pnot (g : BitVec 4) (d a : BitVec 3)
  /-- `PGET`: Copies the predicate image into an x register. (R183) -/
  | pget (g : BitVec 4) (d : BitVec 5)
  /-- `PSET`: Writes p0 to p6 together from x[a]. (R183) -/
  | pset (g : BitVec 4) (a : BitVec 5)
  /-- `ADD_X`: X encoding of add, with reuse bits. (R184) -/
  | addX (g : BitVec 4) (d a b : BitVec 5) (ru : BitVec 3)
  /-- `SUB_X`: X encoding of sub. (R184) -/
  | subX (g : BitVec 4) (d a b : BitVec 5) (ru : BitVec 3)
  /-- `AND_X`: X encoding of and. (R184) -/
  | andX (g : BitVec 4) (d a b : BitVec 5) (ru : BitVec 3)
  /-- `OR_X`: X encoding of or. (R184) -/
  | orX (g : BitVec 4) (d a b : BitVec 5) (ru : BitVec 3)
  /-- `XOR_X`: X encoding of xor. (R184) -/
  | xorX (g : BitVec 4) (d a b : BitVec 5) (ru : BitVec 3)
  /-- `ANDN_X`: X encoding of andn. (R184) -/
  | andnX (g : BitVec 4) (d a b : BitVec 5) (ru : BitVec 3)
  /-- `ORN_X`: X encoding of orn. (R184) -/
  | ornX (g : BitVec 4) (d a b : BitVec 5) (ru : BitVec 3)
  /-- `XNOR_X`: X encoding of xnor. (R184) -/
  | xnorX (g : BitVec 4) (d a b : BitVec 5) (ru : BitVec 3)
  /-- `SLL_X`: X encoding of sll. (R184) -/
  | sllX (g : BitVec 4) (d a b : BitVec 5) (ru : BitVec 3)
  /-- `SRL_X`: X encoding of srl. (R184) -/
  | srlX (g : BitVec 4) (d a b : BitVec 5) (ru : BitVec 3)
  /-- `SRA_X`: X encoding of sra. (R184) -/
  | sraX (g : BitVec 4) (d a b : BitVec 5) (ru : BitVec 3)
  /-- `ROL_X`: X encoding of rol. (R184) -/
  | rolX (g : BitVec 4) (d a b : BitVec 5) (ru : BitVec 3)
  /-- `ROR_X`: X encoding of ror. (R184) -/
  | rorX (g : BitVec 4) (d a b : BitVec 5) (ru : BitVec 3)
  /-- `MIN_X`: X encoding of min. (R184) -/
  | minX (g : BitVec 4) (d a b : BitVec 5) (ru : BitVec 3)
  /-- `MAX_X`: X encoding of max. (R184) -/
  | maxX (g : BitVec 4) (d a b : BitVec 5) (ru : BitVec 3)
  /-- `MINN_X`: X encoding of minn. (R184) -/
  | minnX (g : BitVec 4) (d a b : BitVec 5) (ru : BitVec 3)
  /-- `MAXN_X`: X encoding of maxn. (R184) -/
  | maxnX (g : BitVec 4) (d a b : BitVec 5) (ru : BitVec 3)
  /-- `LEA_X`: X encoding of lea. (R184) -/
  | leaX (k : BitVec 2) (g : BitVec 4) (d a b : BitVec 5) (ru : BitVec 3)
  /-- `MUL_X`: X encoding of mul. (R184) -/
  | mulX (g : BitVec 4) (d a b : BitVec 5) (ru : BitVec 3)
  /-- `MULH_X`: X encoding of mulh. (R184) -/
  | mulhX (g : BitVec 4) (d a b : BitVec 5) (ru : BitVec 3)
  /-- `MULHN_X`: X encoding of mulhn. (R184) -/
  | mulhnX (g : BitVec 4) (d a b : BitVec 5) (ru : BitVec 3)
  /-- `CLZ_X`: X encoding of clz. (R184) -/
  | clzX (g : BitVec 4) (d a : BitVec 5) (ru : BitVec 3)
  /-- `CTZ_X`: X encoding of ctz. (R184) -/
  | ctzX (g : BitVec 4) (d a : BitVec 5) (ru : BitVec 3)
  /-- `POPC_X`: X encoding of popc. (R184) -/
  | popcX (g : BitVec 4) (d a : BitVec 5) (ru : BitVec 3)
  /-- `BREV_X`: X encoding of brev. (R184) -/
  | brevX (g : BitVec 4) (d a : BitVec 5) (ru : BitVec 3)
  /-- `BSWAP_X`: X encoding of bswap. (R184) -/
  | bswapX (g : BitVec 4) (d a : BitVec 5) (ru : BitVec 3)
  /-- `CMP_X`: X encoding of cmp. (R184) -/
  | cmpX (c : CmpOp) (g : BitVec 4) (d : BitVec 3) (a b : BitVec 5) (ru : BitVec 3)
  /-- `SEL_X`: X encoding of sel, with N in FN8[2:0]. (R184) -/
  | selX (g : BitVec 4) (d a b : BitVec 5) (p ru : BitVec 3)
  /-- `PAND_X`: X encoding of pand. (R184) -/
  | pandX (g : BitVec 4) (d a b ru : BitVec 3)
  /-- `POR_X`: X encoding of por. (R184) -/
  | porX (g : BitVec 4) (d a b ru : BitVec 3)
  /-- `PXOR_X`: X encoding of pxor. (R184) -/
  | pxorX (g : BitVec 4) (d a b ru : BitVec 3)
  /-- `PNOT_X`: X encoding of pnot. (R184) -/
  | pnotX (g : BitVec 4) (d a ru : BitVec 3)
  /-- `PGET_X`: X encoding of pget. (R184) -/
  | pgetX (g : BitVec 4) (d : BitVec 5) (ru : BitVec 3)
  /-- `PSET_X`: X encoding of pset. (R184) -/
  | psetX (g : BitVec 4) (a : BitVec 5) (ru : BitVec 3)
  /-- `ADDI`: Adds a sign-extended 12-bit immediate; unguarded. (R172) -/
  | addi (d a : BitVec 5) (imm : BitVec 12)
  /-- `ANDI`: ANDs a sign-extended 12-bit immediate. (R172) -/
  | andi (d a : BitVec 5) (imm : BitVec 12)
  /-- `ORI`: ORs a sign-extended 12-bit immediate. (R172) -/
  | ori (d a : BitVec 5) (imm : BitVec 12)
  /-- `XORI`: XORs a sign-extended 12-bit immediate. (R172) -/
  | xori (d a : BitVec 5) (imm : BitVec 12)
  /-- `SLLI`: Logical left shift by an immediate amount. (R172) -/
  | slli (d a : BitVec 5) (sh : BitVec 6)
  /-- `SRLI`: Logical right shift by an immediate amount. (R172) -/
  | srli (d a : BitVec 5) (sh : BitVec 6)
  /-- `SRAI`: Arithmetic right shift by an immediate amount. (R172) -/
  | srai (d a : BitVec 5) (sh : BitVec 6)
  /-- `LIH`: Loads sext(IMM20) << 12. (R173) -/
  | lih (d : BitVec 5) (imm : BitVec 20)
  /-- `LPC`: Loads PC + (sext(IMM20) << 12). (R173) -/
  | lpc (d : BitVec 5) (imm : BitVec 20)
  /-- `LI`: Loads a sign-extended 32-bit immediate. (R175) -/
  | li (g : BitVec 4) (d : BitVec 5) (imm : BitVec 32)
  /-- `LI_Z`: Loads a zero-extended 32-bit immediate. (R175) -/
  | liZ (g : BitVec 4) (d : BitVec 5) (imm : BitVec 32)
  /-- `LI_HI`: Loads IMM32 into the upper half, keeping the low half of x[a]. (R175) -/
  | liHi (g : BitVec 4) (d a : BitVec 5) (imm : BitVec 32)
  /-- `DIV`: Signed long-latency division with fixed results for zero and overflow. (R179) -/
  | div (g : BitVec 4) (d a b : BitVec 5) (la : BitVec 4) (ru : BitVec 3)
  /-- `DIVN`: Unsigned long-latency division. (R179) -/
  | divn (g : BitVec 4) (d a b : BitVec 5) (la : BitVec 4) (ru : BitVec 3)
  /-- `REM`: Signed long-latency remainder. (R179) -/
  | rem (g : BitVec 4) (d a b : BitVec 5) (la : BitVec 4) (ru : BitVec 3)
  /-- `REMN`: Unsigned long-latency remainder. (R179) -/
  | remn (g : BitVec 4) (d a b : BitVec 5) (la : BitVec 4) (ru : BitVec 3)
  /-- `BFEXT`: Extracts a sign-extended bit field. (R180) -/
  | bfext (g : BitVec 4) (d a : BitVec 5) (pos len : BitVec 6) (ru : BitVec 3)
  /-- `BFEXT_N`: Extracts a zero-extended bit field. (R180) -/
  | bfextN (g : BitVec 4) (d a : BitVec 5) (pos len : BitVec 6) (ru : BitVec 3)
  /-- `BFINS`: Inserts low bits of x[a] into a field of x[d]. (R180) -/
  | bfins (g : BitVec 4) (d a : BitVec 5) (pos len : BitVec 6) (ru : BitVec 3)
  /-- `LD`: M-layout load from memory, sign- or zero-extended by size. (R190) -/
  | ld (z : LdSize) (g : BitVec 4) (d a : BitVec 5) (off : BitVec 7) (la : BitVec 4)
  /-- `LD_X`: X-layout load with unscaled 17-bit offset, ordering and scope. (R190) -/
  | ldX (z : LdSize) (g : BitVec 4) (d a : BitVec 5) (off : BitVec 17) (o : Order) (s : Scope) (la : BitVec 4) (ru : BitVec 3)
  /-- `ST`: M-layout store to memory. (R190) -/
  | st (z : StSize) (g : BitVec 4) (d a : BitVec 5) (off : BitVec 7) (la : BitVec 4)
  /-- `ST_X`: X-layout store, with ordering and scope. (R190) -/
  | stX (z : StSize) (g : BitVec 4) (d a : BitVec 5) (off : BitVec 17) (o : Order) (s : Scope) (la : BitVec 4) (ru : BitVec 3)
  /-- `LDF_F32`: M-layout FP32 load into an f register, or from the scratchpad window. (R190) -/
  | ldfF32 (g : BitVec 4) (d a : BitVec 5) (off : BitVec 7) (la : BitVec 4)
  /-- `LDF_64`: M-layout 64-bit load into an f register. (R190) -/
  | ldf64 (g : BitVec 4) (d a : BitVec 5) (off : BitVec 7) (la : BitVec 4)
  /-- `LDF_X`: X-layout ldf. (R190) -/
  | ldfX (dbl : Bool) (g : BitVec 4) (d a : BitVec 5) (off : BitVec 17) (o : Order) (s : Scope) (la : BitVec 4) (ru : BitVec 3)
  /-- `STF_F32`: M-layout FP32 store from an f register. (R190) -/
  | stfF32 (g : BitVec 4) (d a : BitVec 5) (off : BitVec 7) (la : BitVec 4)
  /-- `STF_64`: M-layout 64-bit store from an f register. (R190) -/
  | stf64 (g : BitVec 4) (d a : BitVec 5) (off : BitVec 7) (la : BitVec 4)
  /-- `STF_X`: X-layout stf. (R190) -/
  | stfX (dbl : Bool) (g : BitVec 4) (d a : BitVec 5) (off : BitVec 17) (o : Order) (s : Scope) (la : BitVec 4) (ru : BitVec 3)
  /-- `LDS`: M-layout scratchpad load at an allocation offset. (R192) -/
  | lds (z : LdSize) (g : BitVec 4) (d a : BitVec 5) (off : BitVec 7) (la : BitVec 4)
  /-- `LDS_X`: X-layout scratchpad load. (R192) -/
  | ldsX (z : LdSize) (g : BitVec 4) (d a : BitVec 5) (off : BitVec 17) (o : Order) (s : Scope) (la : BitVec 4) (ru : BitVec 3)
  /-- `STS`: M-layout scratchpad store; faults on barrier granules. (R192) -/
  | sts (z : StSize) (g : BitVec 4) (d a : BitVec 5) (off : BitVec 7) (la : BitVec 4)
  /-- `STS_X`: X-layout scratchpad store. (R192) -/
  | stsX (z : StSize) (g : BitVec 4) (d a : BitVec 5) (off : BitVec 17) (o : Order) (s : Scope) (la : BitVec 4) (ru : BitVec 3)
  /-- `LDX`: Indexed load adding the scaled x[b]. (R189) -/
  | ldx (z : LdSize) (g : BitVec 4) (d a b : BitVec 5) (off : BitVec 17) (o : Order) (s : Scope) (la : BitVec 4) (ru : BitVec 3)
  /-- `STX`: Indexed store adding the scaled x[b]. (R189) -/
  | stx (z : StSize) (g : BitVec 4) (d a b : BitVec 5) (off : BitVec 17) (o : Order) (s : Scope) (la : BitVec 4) (ru : BitVec 3)
  /-- `LDNC`: Load that allocates no cache line. (R199) -/
  | ldnc (z : LdSize) (g : BitVec 4) (d a : BitVec 5) (off : BitVec 17) (o : Order) (s : Scope) (la : BitVec 4) (ru : BitVec 3)
  /-- `AMO`: Indivisible read-modify-write returning the old value. (R201) -/
  | amo (op : AmoOp) (wide : Bool) (g : BitVec 4) (d a b : BitVec 5) (off : BitVec 17) (o : Order) (s : Scope) (la : BitVec 4) (ru : BitVec 3)
  /-- `CAS`: Compare-and-swap returning the old value. (R202) -/
  | cas (wide : Bool) (g : BitVec 4) (d a b : BitVec 5) (off : BitVec 17) (o : Order) (s : Scope) (la : BitVec 4) (ru : BitVec 3)
  /-- `RED`: Memory reduction without a returned value. (R203) -/
  | red (op : RedOp) (wide : Bool) (g : BitVec 4) (a b : BitVec 5) (off : BitVec 17) (o : Order) (s : Scope) (la : BitVec 4) (ru : BitVec 3)
  /-- `PFC`: Prefetch of a sector; never faults. (R200) -/
  | pfc (g : BitVec 4) (a : BitVec 5) (off : BitVec 17) (la : BitVec 4) (ru : BitVec 3)
  /-- `WMON`: Reads a word and, if it equals x[b], arms the monitor and sleeps. (R206) -/
  | wmon (g : BitVec 4) (d a b : BitVec 5) (off : BitVec 17) (o : Order) (s : Scope) (la : BitVec 4) (ru : BitVec 3)
  /-- `WMON_WAKE`: A write to the sector, or the sector leaving the cache, wakes a wmon, which reads the word again. (R207) -/
  | wmonWake (t : Nat)
  /-- `WMON_TIMEOUT`: The 65,536-clock count of a waiting wmon expires and it reads the word again. (R207) -/
  | wmonTimeout (t : Nat)
  /-- `FENCE`: Waits until earlier accesses are performed at scope and orders later ones. (R208) -/
  | fence (s : Scope)
  /-- `FENCE_SC`: Fence that also takes part in the single total order. (R208) -/
  | fenceSc (s : Scope)
  /-- `FADD`: Floating addition, rounded once. (R230) -/
  | fadd (ty : FType) (g : BitVec 4) (d a b : BitVec 5) (rm : RM) (ru : BitVec 3)
  /-- `FSUB`: Floating subtraction. (R230) -/
  | fsub (ty : FType) (g : BitVec 4) (d a b : BitVec 5) (rm : RM) (ru : BitVec 3)
  /-- `FMUL`: Floating multiplication. (R230) -/
  | fmul (ty : FType) (g : BitVec 4) (d a b : BitVec 5) (rm : RM) (ru : BitVec 3)
  /-- `FMA`: Fused a × b + c. (R230) -/
  | fma (ty : FType) (g : BitVec 4) (d a b c : BitVec 5) (rm : RM) (ru : BitVec 3)
  /-- `FMS`: Fused a × b − c. (R230) -/
  | fms (ty : FType) (g : BitVec 4) (d a b c : BitVec 5) (rm : RM) (ru : BitVec 3)
  /-- `FNMA`: Fused c − a × b. (R230) -/
  | fnma (ty : FType) (g : BitVec 4) (d a b c : BitVec 5) (rm : RM) (ru : BitVec 3)
  /-- `FDIV`: Long-latency floating division. (R230) -/
  | fdiv (ty : FType) (g : BitVec 4) (d a b : BitVec 5) (rm : RM) (la : BitVec 4) (ru : BitVec 3)
  /-- `FSQRT`: Long-latency square root. (R230) -/
  | fsqrt (ty : FType) (g : BitVec 4) (d a : BitVec 5) (rm : RM) (la : BitVec 4) (ru : BitVec 3)
  /-- `FRCP`: Correctly rounded reciprocal. (R230) -/
  | frcp (ty : FType) (g : BitVec 4) (d a : BitVec 5) (rm : RM) (la : BitVec 4) (ru : BitVec 3)
  /-- `FRSQRT`: Correctly rounded reciprocal square root. (R230) -/
  | frsqrt (ty : FType) (g : BitVec 4) (d a : BitVec 5) (rm : RM) (la : BitVec 4) (ru : BitVec 3)
  /-- `FMIN`: Smaller operand, NaN-aware. (R231) -/
  | fmin (ty : FType) (g : BitVec 4) (d a b : BitVec 5) (ru : BitVec 3)
  /-- `FMAX`: Larger operand, NaN-aware. (R231) -/
  | fmax (ty : FType) (g : BitVec 4) (d a b : BitVec 5) (ru : BitVec 3)
  /-- `FABS`: Clears the sign bit. (R232) -/
  | fabs (ty : FType) (g : BitVec 4) (d a : BitVec 5) (ru : BitVec 3)
  /-- `FNEG`: Inverts the sign bit. (R232) -/
  | fneg (ty : FType) (g : BitVec 4) (d a : BitVec 5) (ru : BitVec 3)
  /-- `FCPSGN`: Copies the sign of b onto a. (R232) -/
  | fcpsgn (ty : FType) (g : BitVec 4) (d a b : BitVec 5) (ru : BitVec 3)
  /-- `FCMP`: Floating compare writing a predicate. (R234) -/
  | fcmp (c : FcmpOp) (ty : FType) (g : BitVec 4) (d : BitVec 3) (a b : BitVec 5) (ru : BitVec 3)
  /-- `FCLASS`: One-hot classification into an x register. (R235) -/
  | fclass (ty : FType) (g : BitVec 4) (d a : BitVec 5) (ru : BitVec 3)
  /-- `FROUND`: Rounds to an integral value of the same format. (R233) -/
  | fround (ty : FType) (g : BitVec 4) (d a : BitVec 5) (rm : RM) (ru : BitVec 3)
  /-- `FEXP2`: Approximates 2^a within one ulp. (R238) -/
  | fexp2 (ty : FType) (g : BitVec 4) (d a : BitVec 5) (la : BitVec 4) (ru : BitVec 3)
  /-- `FLOG2`: Approximates log2(a) within one ulp. (R238) -/
  | flog2 (ty : FType) (g : BitVec 4) (d a : BitVec 5) (la : BitVec 4) (ru : BitVec 3)
  /-- `FSINP`: Approximates sin(2πa) within two ulp. (R237) -/
  | fsinp (ty : FType) (g : BitVec 4) (d a : BitVec 5) (la : BitVec 4) (ru : BitVec 3)
  /-- `FCOSP`: Approximates cos(2πa) within two ulp. (R237) -/
  | fcosp (ty : FType) (g : BitVec 4) (d a : BitVec 5) (la : BitVec 4) (ru : BitVec 3)
  /-- `FRDX`: Reduces radians to turns in [−0.5, 0.5], correctly rounded. (R236) -/
  | frdx (ty : FType) (g : BitVec 4) (d a : BitVec 5) (rm : RM) (la : BitVec 4) (ru : BitVec 3)
  /-- `FDOT2`: Packed dot product of pairs into FP32 with one rounding. (R240) -/
  | fdot2 (ty : FType) (g : BitVec 4) (d a b c : BitVec 5) (rm : RM) (ru : BitVec 3)
  /-- `FCVT`: Converts between float element formats with placement and overflow policy. (R241) -/
  | fcvt (ty src : FType) (g : BitVec 4) (d a b : BitVec 5) (ovp : BitVec 2) (rm : RM) (ru : BitVec 3)
  /-- `FCVT_X`: Float to 64-bit integer conversion. (R243) -/
  | fcvtX (ty : FType) (sgn : Bool) (g : BitVec 4) (d a : BitVec 5) (rm : RM) (ru : BitVec 3)
  /-- `XCVT_F`: 64-bit integer to float conversion. (R243) -/
  | xcvtF (ty : FType) (sgn : Bool) (g : BitVec 4) (d a : BitVec 5) (rm : RM) (ru : BitVec 3)
  /-- `FMV_X`: Copies f bits to an x register. (R244) -/
  | fmvX (ty : FType) (g : BitVec 4) (d a : BitVec 5) (ru : BitVec 3)
  /-- `FMV_F`: Copies x bits to an f register. (R244) -/
  | fmvF (ty : FType) (g : BitVec 4) (d a : BitVec 5) (ru : BitVec 3)
  /-- `LXCH`: Exchanges a register with one named partner lane, waiting for it. (R251) -/
  | lxch (isF : Bool) (g : BitVec 4) (d a b : BitVec 5) (pc ru : BitVec 3)
  /-- `LSEL`: Takes the register of the lowest present lane of the set. (R251) -/
  | lsel (isF : Bool) (g : BitVec 4) (d a b : BitVec 5) (pc ru : BitVec 3)
  /-- `LVOTE`: Gathers the predicates of the set into a mask. (R251) -/
  | lvote (g : BitVec 4) (d : BitVec 5) (a : BitVec 3) (b : BitVec 5) (pc ru : BitVec 3)
  /-- `LRED`: Reduces a register over the set in ascending LANE_ID. (R251) -/
  | lred (op : LredOp) (g : BitVec 4) (d a b : BitVec 5) (pc ru : BitVec 3)
  /-- `LANE_WAIT_CYCLE`: The device resolves as absent the unmatched partners of a lane-wait cycle. (R250) -/
  | laneWaitCycle (w : Nat)
  /-- `PAIR_WORD`: Executes an A-slot integer and a D-slot float operation under one guard. (R45) -/
  | pairWord (g : BitVec 4) (aop : AOp) (ad aa ab : BitVec 5) (aru : BitVec 2) (dop : DOp) (dd da db dc : BitVec 5)
  /-- `BR`: Guarded PC-relative branch. (R303) -/
  | br (g : BitVec 4) (off : BitVec 21)
  /-- `CALL`: J-layout call linking in x1. (R303) -/
  | call (g : BitVec 4) (off : BitVec 21)
  /-- `CALL_L`: L-layout call with 32-bit word offset. (R303) -/
  | callL (g : BitVec 4) (imm : BitVec 32)
  /-- `JMP`: L-layout jump. (R303) -/
  | jmp (g : BitVec 4) (imm : BitVec 32)
  /-- `JR`: Indirect jump to x[a]. (R303) -/
  | jr (g : BitVec 4) (a : BitVec 5)
  /-- `CALLR`: Indirect call linking in x[d]. (R303) -/
  | callr (g : BitVec 4) (d a : BitVec 5)
  /-- `RET`: Transfers to x1. (R303) -/
  | ret (g : BitVec 4)
  /-- `LOOP`: Activates a hardware-loop level or skips the body. (R307) -/
  | loop (a : BitVec 5) (len : BitVec 12)
  /-- `LOOPX`: Ends the innermost active loop level early. (R310) -/
  | loopx (g : BitVec 4)
  /-- `NOP`: No operation. (R312) -/
  | nop (g : BitVec 4)
  /-- `SPAWN`: Reads a spawn record, creates a level entry and hands out threads. (R329) -/
  | spawn (g : BitVec 4) (d a b : BitVec 5)
  /-- `MIGRATE`: Drains, leaves the workgroup and moves the thread to a place. (R335) -/
  | migrate (g : BitVec 4) (d a : BitVec 5)
  /-- `YIELD`: Ends lookahead windows and gives up issue for a bound. (R333) -/
  | yield (g : BitVec 4)
  /-- `EXIT`: Drains, resolves and drops marks, leaves barriers and ends the thread. (R332) -/
  | exit (g : BitVec 4)
  /-- `DONE_WAIT`: Seals a level and waits until it is DONE or CANCELLED. (R330) -/
  | doneWait (g : BitVec 4) (d a : BitVec 5)
  /-- `CANCEL`: Cancels a level and everything below it. (R331) -/
  | cancel (g : BitVec 4) (d a : BitVec 5)
  /-- `HB_ARR`: Arrives at a named hardware barrier. (R339) -/
  | hbArr (g : BitVec 4) (a : BitVec 5)
  /-- `HB_WAIT`: Waits for the current phase of a named barrier. (R339) -/
  | hbWait (g : BitVec 4) (a : BitVec 5)
  /-- `HB_SYNC`: Arrives and then waits at a named barrier. (R339) -/
  | hbSync (g : BitVec 4) (a : BitVec 5)
  /-- `RINV`: Allocates a mark and dispatches or forwards an invocation. (R389) -/
  | rinv (g : BitVec 4) (d a b : BitVec 5)
  /-- `MKWAIT`: Waits until a mark is final and returns its status. (R390) -/
  | mkwait (g : BitVec 4) (d a : BitVec 5)
  /-- `MKGET`: Waits and returns a result word, the status or ORIGIN. (R390) -/
  | mkget (g : BitVec 4) (d a b : BitVec 5)
  /-- `MKGET_T`: As mkget, trapping MARK_BROKEN on a stale or broken mark. (R390) -/
  | mkgetT (g : BitVec 4) (d a b : BitVec 5)
  /-- `MKTEST`: Tests without waiting whether a mark is final. (R390) -/
  | mktest (g : BitVec 4) (d : BitVec 3) (a : BitVec 5)
  /-- `MKRET`: Resolves the thread's own mark with x10 to x17. (R391) -/
  | mkret (g : BitVec 4)
  /-- `MKDROP`: Clears HELD of a mark held by the thread. (R392) -/
  | mkdrop (g : BitVec 4) (a : BitVec 5)
  /-- `SYS`: System call: SYSCALL on an L-core, migration to an L-core from an S-core in user mode. (R405) -/
  | sys (g : BitVec 4)
  /-- `TRET`: Returns from a trap to EPC in the previous mode. (R408) -/
  | tret (g : BitVec 4)
  /-- `BRK`: Raises BREAKPOINT. (R407) -/
  | brk (g : BitVec 4)
  /-- `WFI`: System-mode wait for an interrupt or wake condition. (R409) -/
  | wfi (g : BitVec 4)
  /-- `WFI_TIMEOUT`: The 65,536-clock count of an S-core wfi expires and execution continues. (R409) -/
  | wfiTimeout (t : Nat)
  /-- `CSRR`: Reads a CSR. (R406) -/
  | csrr (d : BitVec 5) (n : BitVec 12)
  /-- `CSRW`: Writes a CSR under its field rules. (R406) -/
  | csrw (a : BitVec 5) (n : BitVec 12)
  /-- `CSRS`: Sets CSR bits indivisibly. (R406) -/
  | csrs (a : BitVec 5) (n : BitVec 12)
  /-- `CSRC`: Clears CSR bits indivisibly. (R406) -/
  | csrc (a : BitVec 5) (n : BitVec 12)
  /-- `INTERRUPT`: A pending enabled L-core source raises INTERRUPT at a boundary. (R410) -/
  | interrupt (t : Nat)
  /-- `SIGNAL`: A signal posted to an S-core thread raises SIGNAL at its next boundary. (R337) -/
  | signal (t : Nat)
  /-- `REGISTER_WRITEBACK`: A long-latency instruction's result takes effect in its destination. (R41) -/
  | registerWriteback (t k : Nat)
  /-- `CPY_IN`: Copies rows from memory into scratchpad. (R142) -/
  | cpyIn (g : BitVec 4) (d a b c : BitVec 5) (ss : BitVec 13) (la : BitVec 4) (ru : BitVec 3)
  /-- `CPY_MC`: Multicasts rows from memory into course-group receivers. (R144) -/
  | cpyMc (g : BitVec 4) (d a b c : BitVec 5) (dmask : BitVec 4) (ss : BitVec 13) (la : BitVec 4) (ru : BitVec 3)
  /-- `CPY_GAT`: Gathers mask-selected rows into packed scratchpad. (R142) -/
  | cpyGat (g : BitVec 4) (d a b c : BitVec 5) (mo : BitVec 16) (la : BitVec 4) (ru : BitVec 3)
  /-- `CPY_OUT`: Copies rows from scratchpad to memory at a scope. (R142) -/
  | cpyOut (s : Scope) (g : BitVec 4) (d a b c : BitVec 5) (ss : BitVec 13) (la : BitVec 4) (ru : BitVec 3)
  /-- `CPY_SCT`: Scatters packed scratchpad rows to mask-selected memory rows. (R142) -/
  | cpySct (s : Scope) (g : BitVec 4) (d a b c : BitVec 5) (mo : BitVec 16) (la : BitVec 4) (ru : BitVec 3)
  /-- `COPY_ACCEPT`: A copy waiting for counter or queue room is accepted and counted. (R142) -/
  | copyAccept (t : Nat)
  /-- `COPY_CHUNK_LAND`: An inbound chunk is written in scratchpad and counted against its barrier. (R143) -/
  | copyChunkLand (c : Nat)
  /-- `COPY_CHUNK_READ`: An outbound chunk is read from scratchpad, counted in OUT_BYTES and written to memory. (R143) -/
  | copyChunkRead (c : Nat)
  /-- `COPY_COMPLETE`: A copy completes and decrements the copy counter in acceptance order. (R147) -/
  | copyComplete (c : Nat)
  /-- `BAR_INIT`: Initialises a barrier object and sets its tag. (R138) -/
  | barInit (g : BitVec 4) (d a b c : BitVec 5) (la : BitVec 4) (ru : BitVec 3)
  /-- `BAR_ARR`: Arrives at a barrier object. (R138) -/
  | barArr (g : BitVec 4) (d a : BitVec 5) (la : BitVec 4) (ru : BitVec 3)
  /-- `BAR_EXP`: Arms inbound or outbound bytes, optionally arriving. (R138) -/
  | barExp (arr out : Bool) (g : BitVec 4) (d a b : BitVec 5) (la : BitVec 4) (ru : BitVec 3)
  /-- `BAR_WAIT`: Waits for the next phase completion or for OUT_BYTES to reach 0. (R138) -/
  | barWait (out : Bool) (g : BitVec 4) (d a b : BitVec 5) (la : BitVec 4) (ru : BitVec 3)
  /-- `BAR_TEST`: Tests phase completion or OUT_BYTES without waiting. (R138) -/
  | barTest (out : Bool) (g : BitVec 4) (d a b : BitVec 5) (la : BitVec 4) (ru : BitVec 3)
  /-- `BAR_INVAL`: Clears VALID and the tag and releases waiters with −6. (R138) -/
  | barInval (g : BitVec 4) (d a : BitVec 5) (la : BitVec 4) (ru : BitVec 3)
  /-- `WCNT`: Waits until a class counter is at most n and reports poisoned completions. (R148) -/
  | wcnt (k : CntClass) (n : BitVec 6)
  /-- `MCFG`: Checks and accepts a new tile shape. (R257) -/
  | mcfg (g : BitVec 4) (d : BitVec 5) (rows cols : BitVec 2) (la : BitVec 4) (ru : BitVec 3)
  /-- `MCFG_APPLY`: After earlier commands drain, zeroes the store, writes TCFG and the status. (R257) -/
  | mcfgApply (c : Nat)
  /-- `MCLAIM`: Claims operand slots at once or fails. (R264) -/
  | mclaim (g : BitVec 4) (d a b : BitVec 5) (pc : BitVec 3) (la : BitVec 4) (ru : BitVec 3)
  /-- `MCLAIM_W`: Joins the claim queue to claim operand slots. (R264) -/
  | mclaimW (g : BitVec 4) (d a b : BitVec 5) (pc : BitVec 3) (la : BitVec 4) (ru : BitVec 3)
  /-- `MCLAIM_W_GRANT`: A waiting claim at the head of the queue is granted when slots are free. (R264) -/
  | mclaimWGrant (c : Nat)
  /-- `CLAIM_DEADLOCK`: The core detects an ungrantable claim with all holders waiting and traps the youngest. (R266) -/
  | claimDeadlock (c : Nat)
  /-- `MREL`: Releases operand slots after earlier commands complete. (R265) -/
  | mrel (g : BitVec 4) (d a b : BitVec 5) (la : BitVec 4) (ru : BitVec 3)
  /-- `MLOAD`: Fills a slot from a row-major A panel. (R267) -/
  | mload (e8 : Bool) (g : BitVec 4) (d a b c : BitVec 5) (la : BitVec 4) (ru : BitVec 3)
  /-- `MLOAD_T`: Fills a slot from a row-major B panel, transposed. (R267) -/
  | mloadT (e8 : Bool) (g : BitVec 4) (d a b c : BitVec 5) (la : BitVec 4) (ru : BitVec 3)
  /-- `MGATH`: Builds a dense B slot from compressed sparse rows. (R268) -/
  | mgath (e8 : Bool) (g : BitVec 4) (d a b : BitVec 5) (la : BitVec 4) (ru : BitVec 3)
  /-- `MMUL`: Performs the valid entries of a parameter block as K-step products. (R270) -/
  | mmul (f : MFmt) (g : BitVec 4) (d a : BitVec 5) (la : BitVec 4) (ru : BitVec 3)
  /-- `MSACC`: Adds a scaled partial tile into a destination tile. (R271) -/
  | msacc (i32 z : Bool) (g : BitVec 4) (d a b c : BitVec 5) (la : BitVec 4) (ru : BitVec 3)
  /-- `MSTORE`: Converts a tile into scratchpad, optionally counting a barrier. (R272) -/
  | mstore (fmt : BitVec 3) (ovp : BitVec 2) (rm : BitVec 3) (z : Bool) (g : BitVec 4) (d a b : BitVec 5) (la : BitVec 4) (ru : BitVec 3)
  /-- `MZERO`: Zeroes local accumulator tiles. (R274) -/
  | mzero (g : BitVec 4) (d a b : BitVec 5) (la : BitVec 4) (ru : BitVec 3)
  /-- `MSTAT`: Reads MSTAT after earlier commands and clears selected flags. (R275) -/
  | mstat (g : BitVec 4) (d a : BitVec 5) (la : BitVec 4) (ru : BitVec 3)
  /-- `MACLD`: Loads a tile from scratchpad FP32 words. (R273) -/
  | macld (g : BitVec 4) (d a b : BitVec 5) (la : BitVec 4) (ru : BitVec 3)
  /-- `MATRIX_PERFORM`: The engine performs an accepted command and completes it in acceptance order. (R261) -/
  | matrixPerform (c : Nat)
  /-- `ENGINE_PREEMPT`: A higher-ranked command pre-empts the running engine command at its yield point. (R417) -/
  | enginePreempt (c : Nat) (isM : Bool)
  /-- `CW_FLUSH`: Walks a range writing dirty copies home at a scope. (R117) -/
  | cwFlush (s : WScope) (bar : Bool) (g : BitVec 4) (d a b c : BitVec 5) (la : BitVec 4) (ru : BitVec 3)
  /-- `CW_INVAL`: Walks a range writing back and removing every copy. (R117) -/
  | cwInval (s : WScope) (bar : Bool) (g : BitVec 4) (d a b c : BitVec 5) (la : BitVec 4) (ru : BitVec 3)
  /-- `CW_WALK_COMPLETE`: A cache-walker command finishes, arrives at its barrier and writes its status. (R118) -/
  | cwWalkComplete (k : Nat)
  /-- `PG_MIG`: Claims a migration descriptor to move a physical range. (R120) -/
  | pgMig (g : BitVec 4) (d a b c : BitVec 5) (la : BitVec 4) (ru : BitVec 3)
  /-- `PG_MIG_LINE`: The migration engine moves one 256-byte line and advances BOUND. (R120) -/
  | pgMigLine (k : Nat)
  /-- `PG_MIG_REL`: Purges the old range and frees a FORWARD descriptor. (R120) -/
  | pgMigRel (g : BitVec 4) (d a : BitVec 5) (la : BitVec 4) (ru : BitVec 3)
  /-- `PG_SPLIT`: Replaces a 2 MiB leaf with 512 grouped leaves. (R122) -/
  | pgSplit (g : BitVec 4) (d a b c : BitVec 5) (la : BitVec 4) (ru : BitVec 3)
  /-- `PG_SPLIT_COMPLETE`: After invalidation and purge the split unlocks and writes its status. (R122) -/
  | pgSplitComplete (k : Nat)
  /-- `PG_COLL`: Collapses an RDUP leaf or group to COH. (R123) -/
  | pgColl (lvl : BitVec 2) (g : BitVec 4) (d a b : BitVec 5) (la : BitVec 4) (ru : BitVec 3)
  /-- `PG_COLL_COMPLETE`: After invalidation and domain-wide purge the collapse writes its status. (R123) -/
  | pgCollComplete (k : Nat)
  /-- `TLB_INV`: Starts invalidation of translations at a scope. (R95) -/
  | tlbInv (k : TlbKind) (s : WScope) (g : BitVec 4) (d a b c : BitVec 5) (la : BitVec 4) (ru : BitVec 3)
  /-- `TLB_INV_COMPLETE`: Invalidation is complete in scope; status written and counter decremented. (R96) -/
  | tlbInvComplete (k : Nat)
  /-- `GETS`: Shared-read request to the home. (R104) -/
  | getS (ag pa : Nat)
  /-- `GETX`: Exclusive request to the home, invalidating sharers. (R104) -/
  | getX (ag pa : Nat)
  /-- `UPGRADE`: Upgrade of an S copy to M. (R104) -/
  | upgrade (ag pa : Nat)
  /-- `GETU`: Request for update-only state for a red. (R104) -/
  | getU (ag pa : Nat) (op : RedOp) (wide : Bool)
  /-- `ATHOME`: Atomic performed at the home slab after combine or recall. (R104) -/
  | atHome (ag pa : Nat)
  /-- `PUTM`: Eviction of a modified sector. (R104) -/
  | putM (ag pa : Nat)
  /-- `PUTO`: Eviction of an owned sector. (R104) -/
  | putO (ag pa : Nat)
  /-- `PUTE`: Eviction of an exclusive clean sector. (R104) -/
  | putE (ag pa : Nat)
  /-- `PUTU`: Hand-in of a U partial at eviction. (R104) -/
  | putU (ag pa : Nat)
  /-- `PRIV_EVICT_REPORT`: An owner reports eviction of a PRIV sector and clears ownership. (R109) -/
  | privEvictReport (ag pa : Nat)
  /-- `SLAB_EVICT`: A slab evicts a line, recalling tracked copies and writing dirty data. (R100) -/
  | slabEvict (die pa : Nat)
  /-- `MIGRATE_SEND`: After draining and room at the destination, the thread state is sent. (R335) -/
  | migrateSend (t : Nat)
  /-- `THREAD_ARRIVAL`: A migrating or invoked thread arrives at an S-die and enters a bin. (R336) -/
  | threadArrival (k : Nat)
  /-- `BIN_TIMER`: A bin's TIMER expires and it releases a partial workgroup. (R322) -/
  | binTimer (die b : Nat)
  /-- `KEYSTONE_BLOCK_REQUEST`: A participant asks the keystone for a block, checkpointed before hand-out. (R327) -/
  | keystoneBlockRequest (l die : Nat)
  /-- `KEYSTONE_ELECTION`: On a participant's failure the survivors elect a keystone and re-hand blocks. (R327) -/
  | keystoneElection (l : Nat)
  /-- `WORKGROUP_PLACE`: The launcher places a released workgroup when a core has its resources. (R323) -/
  | workgroupPlace (w : Nat)
  /-- `ARRIVAL_QUEUE_WRITE`: An L-die writes an arrival entry and advances ARQ_HEAD when room allows. (R345) -/
  | arrivalQueueWrite (die : Nat)
  /-- `EXIT_QUEUE_WRITE`: A die writes an exit entry when room allows, then frees the slot and decrements the launch. (R344) -/
  | exitQueueWrite (t : Nat)
  /-- `RINV_ENQUEUE`: A stalled invocation joins its mark's queue when buffer room frees. (R380) -/
  | rinvEnqueue (k : Nat)
  /-- `MARK_RESOLVE`: A producer's resolution reaches the origin entry, releasing readers and dispatching the queue. (R381) -/
  | markResolve (k : Nat)
  /-- `MARK_BREAK`: A break reaches a mark entry and discards its queue with UPSTREAM. (R373) -/
  | markBreak (k : Nat)
  /-- `PRQ_CMD_ISSUE`: Write of 1 to PRQ_CMD issues a pre-emption request. (R412) -/
  | prqCmdIssue (die : Nat)
  /-- `WORKGROUP_STOPPED`: Every thread and engine command reaches its yield point; save or flush proceeds. (R413) -/
  | workgroupStopped (w : Nat)
  /-- `SAVE_COMMIT`: The save header is committed and the core's resources freed. (R416) -/
  | saveCommit (w : Nat)
  /-- `DRAIN_DEADLINE`: A drain not ended by B − Ls switches to save. (R416) -/
  | drainDeadline (w : Nat)
  /-- `RESTORE_START`: A saved workgroup begins restore when a matching core has room. (R416) -/
  | restoreStart (w : Nat)
  /-- `RESTORE_COMPLETE`: A restore completes and the workgroup runs again. (R416) -/
  | restoreComplete (w : Nat)
  /-- `GOVERNOR_SAMPLE`: At each 64-clock window end the governor samples balance and sets targets. (R351) -/
  | governorSample (k : Nat)
  /-- `SYNTHETIC_GROUT_SLOT`: An idle slice issues a synthetic grout slot while a request is open. (R353) -/
  | syntheticGroutSlot (c : Nat)
  /-- `SHUNT_TRIP`: A tile mismatch over 12% for 120 ns puts the course in floor-only mode. (R356) -/
  | shuntTrip (k : Nat)
  /-- `COURSE_PWR_NT_REQ`: Firmware requests near-threshold mode. (R427) -/
  | coursePwrNtReq (k : Nat)
  /-- `COURSE_PWR_BYP_REQ`: Firmware requests degraded mode bypassing one tile. (R427) -/
  | coursePwrBypReq (k tile : Nat)
  /-- `COURSE_PWR_OFF_REQ`: Firmware requests the course offline. (R427) -/
  | coursePwrOffReq (k : Nat)
  /-- `COURSE_MODE_CHANGE`: A requested mode takes effect at the second window boundary. (R427) -/
  | courseModeChange (k : Nat)
  /-- `QUADRANT_OVERCURRENT`: Current above QLIM for 100 ns stops, saves and shuts a rail quadrant. (R428) -/
  | quadrantOvercurrent (die q : Nat)
  /-- `QSTAT_CLEAR_OFF`: Firmware clears QSTAT.OFF to return the quadrant to service. (R428) -/
  | qstatClearOff (die q : Nat)
  /-- `MON_SNAP`: Copies a capture unit to its shadow set and resets it. (R431) -/
  | monSnap (die u : Nat)
  /-- `MON_SAMPLE`: A capture unit takes a sample into MIN, MAX, COUNT and a bin. (R431) -/
  | monSample (die u v : Nat)
  /-- `UNIT_DRAIN`: Firmware moves a unit to DRAINING and its workgroups are saved elsewhere. (R434) -/
  | unitDrain (u : UnitId)
  /-- `UNIT_OFFLINE`: An emptied DRAINING unit becomes OFFLINE. (R434) -/
  | unitOffline (u : UnitId)
  /-- `UNIT_ONLINE`: An OFFLINE unit returns to ONLINE. (R434) -/
  | unitOnline (u : UnitId)
  /-- `UNIT_RETIRE`: A unit is retired for good. (R434) -/
  | unitRetire (u : UnitId)
  /-- `FIRMWARE_UPDATE`: A signed manifest is verified and units are swapped one at a time. (R435) -/
  | firmwareUpdate (pkg v : Nat)
  /-- `POWER_ON`: The boot ROM verifies the manifest and brings the device up in order. (R436) -/
  | powerOn (pkg : Nat)
  /-- `FRAME_RECEIVE`: A non-RoCEv2 frame is classified and written to a receive ring. (R437) -/
  | frameReceive (pkg port : Nat) (bytes : List Nat)
  /-- `FRAME_TRANSMIT`: The port sends the transmit entry at HEAD and writes its timestamp. (R439) -/
  | frameTransmit (pkg port r : Nat)
  /-- `ROCE_SEND`: A SEND payload is written to the queue pair's receive ring. (R441) -/
  | roceSend (pkg port qp : Nat) (bytes : List Nat)
  /-- `ROCE_SEND_IMM`: A SEND with immediate is delivered. (R441) -/
  | roceSendImm (pkg port qp : Nat) (bytes : List Nat)
  /-- `ROCE_RDMA_WRITE`: An RDMA WRITE packet writes translated region memory. (R442) -/
  | roceRdmaWrite (pkg port qp region va : Nat) (bytes : List Nat)
  /-- `ROCE_RDMA_WRITE_IMM`: An RDMA WRITE with immediate is performed. (R442) -/
  | roceRdmaWriteImm (pkg port qp region va : Nat) (bytes : List Nat)
  /-- `ROCE_RDMA_READ`: An RDMA READ request reads translated region memory. (R442) -/
  | roceRdmaRead (pkg port qp region va n : Nat)
  /-- `ROCE_READ_RESPONSE`: An RDMA READ response writes its payload to region memory. (R442) -/
  | roceReadResponse (pkg port qp region va : Nat) (bytes : List Nat)
  /-- `ROCE_ATOMIC`: An atomic request is answered with an invalid-request NAK. (R441) -/
  | roceAtomic (pkg port qp : Nat)
  /-- `TIME_STEP`: A step write applies a positive step or adds to the slew. (R444) -/
  | timeStep (pkg v : Nat)
  /-- `FLIT_RECEIVE`: A Shuak Link flit is received; a CRC failure is replayed. (R446) -/
  | flitReceive (pkg port : Nat) (ok : Bool)
  /-- `LINK_PORT_DOWN`: Replays failing for 1 µs take a port down and out of every mask. (R446) -/
  | linkPortDown (pkg port : Nat)
  /-- `LINK_TIMEOUT`: A remote access unanswered for 1.9 µs gets a LINK_TIMEOUT response. (R418) -/
  | linkTimeout (t : Nat)
  /-- `UCIE_RETRAIN_FAIL`: A die whose UCIe link cannot retrain goes offline with code 18. (R447) -/
  | ucieRetrainFail (die : Nat)
  /-- `IDW_CMD_REPLACE`: IDW_CMD 1 replaces an ASID's identifier window. (R342) -/
  | idwCmdReplace (die : Nat)
  /-- `IDW_CMD_READ`: IDW_CMD 2 copies an ASID's window into IDW_BASE and IDW_REMAIN. (R342) -/
  | idwCmdRead (die : Nat)
  /-- `IDW_TABLE_WRITE`: Sets or clears EN and the window table base. (R342) -/
  | idwTableWrite (die v : Nat)
  /-- `MIG_PROF_WRITE`: Writes the migration profile, clamping fields. (R343) -/
  | migProfWrite (die v : Nat)
  /-- `EXQ_CTL_WRITE`: Enables or sizes the exit queue; re-enabling resumes waiting endings. (R344) -/
  | exqCtlWrite (die v : Nat)
  /-- `ARQ_CTL_WRITE`: Enables or sizes the arrival queue; re-enabling resumes held arrivals. (R345) -/
  | arqCtlWrite (die v : Nat)
  /-- `RING_CTL_WRITE`: Enables or sizes an Ethernet ring. (R439) -/
  | ringCtlWrite (pkg r v : Nat)
  /-- `SOFT_SET`: Sets software interrupt bits of IRQ_PEND. (R410) -/
  | softSet (t v : Nat)
  /-- `SOFT_CLR`: Clears software interrupt bits of IRQ_PEND. (R410) -/
  | softClr (t v : Nat)
  /-- `GOV_CTL_WRITE`: Writes governor limits, clamped, effective at the next window. (R358) -/
  | govCtlWrite (k v : Nat)
  /-- `BOOST_MAX_WRITE`: Sets the course boost clock, clamped, from the next window. (R425) -/
  | boostMaxWrite (k v : Nat)
  /-- `CONTROL_REGISTER_WRITE`: Write to any control-space register that has no row of its own. (R76) -/
  | controlRegisterWrite (pa n v : Nat)
  /-- `SILENT_EVICTION`: A cache drops a clean S copy, or an untracked RSH or RDUP copy, by its own replacement policy without telling the home. (R104) -/
  | silentEviction (ag pa : Nat)
  /-- `TIMECMP_REACHED`: TIME reaches TIMECMP, so source 0 pends and an L-core wfi wakes even while IRQ_HOLD is set. (R410) -/
  | timecmpReached (t : Nat)
  /-- `ETHERNET_LINK_CHANGE`: An Ethernet port's link comes up or goes down, changing PORT_STAT.LINK_UP. (R437) -/
  | ethernetLinkChange (pkg port : Nat) (up : Bool)
  /-- `UCIE_FLIT_RETRY`: A UCIe flit error is retried, and ERR_CE of both dies is incremented. (R447) -/
  | ucieFlitRetry (die other : Nat)
deriving DecidableEq, Repr

end Sys2Proof
end

