-- ==== Sys2Proof/WellFormed.lean ====
section
/-!
DEFINITION. Which terms of `Instr` are instructions: the guard is not the reserved one (02 R39), a sub-field holds a
value its entry allows (03 R58 to R72), and a field that a form does not use is 0 (02 R46). Steps without an
encoding are always well formed.
-/

namespace Sys2Proof

/-- The guard field 0b1111 is reserved (02 R39). -/
def guardOk (g : BitVec 4) : Bool := g != 15

/-- Ordering codes a load may carry (03 R70). -/
def Order.onLoad : Order → Bool
  | .plain | .acq => true
  | .rel | .acqRel => false

/-- Ordering codes a store or `red` may carry (03 R70). -/
def Order.onStore : Order → Bool
  | .plain | .rel => true
  | .acq | .acqRel => false

/-- A plain load or store carries no scope (03 R70). -/
def plainScopeOk (o : Order) (s : Scope) : Bool := o != .plain || s == .thread

/-- Element formats of a float type (10 R211, R214). -/
inductive Elem where | f64 | f32 | f16 | bf16 | a8
deriving DecidableEq, Repr

/-- Element format of each type code (11 R227, 07 R152). -/
def FType.elem : FType → Elem
  | .f64 => .f64
  | .f32 | .f32x2 => .f32
  | .bf16x4 => .bf16
  | .f16x4 | .f16 => .f16
  | .a8x8 => .a8

/-- Number of elements of each layout (07 R152). -/
def FType.count : FType → Nat
  | .f64 | .f32 | .f16 => 1
  | .f32x2 => 2
  | .bf16x4 | .f16x4 => 4
  | .a8x8 => 8

/-- Scalar types: codes 0, 1 and 5 (11 R241). -/
def FType.scalar : FType → Bool
  | .f64 | .f32 | .f16 => true
  | _ => false

/-- Types 0 to 5 (03 R67). -/
def FType.arith : FType → Bool
  | .a8x8 => false
  | _ => true

/-- Types 1 and 2 (03 R67). -/
def FType.approx : FType → Bool
  | .f32 | .f32x2 => true
  | _ => false

/-- Types 3 and 4 (03 R67). -/
def FType.dot : FType → Bool
  | .bf16x4 | .f16x4 => true
  | _ => false

/-- Types 0 and 1 (03 R67). -/
def FType.move : FType → Bool
  | .f64 | .f32 => true
  | _ => false

/-- Conversions that R221 marks P: they can overflow and carry an overflow policy. -/
def convPolicy : Elem → Elem → Bool
  | .f64, .f64 => false
  | .f64, _ => true
  | .f32, .f64 | .f32, .f32 => false
  | .f32, _ => true
  | .f16, .a8 => true
  | .f16, _ => false
  | .bf16, .f16 | .bf16, .a8 => true
  | .bf16, _ => false
  | .a8, _ => false

/-- Sub-field values of `fcvt` that the encoding reserves (11 R241, 10 R217). -/
def fcvtReserved (dst src : FType) (rm : RM) : Bool :=
  dst.scalar != src.scalar || (dst == .a8x8 && rm != .rne)

/-- Field rules of `fcvt`: the policy only where R221 has one, B as R242 uses it. -/
def fcvtFields (dst src : FType) (b : BitVec 5) (ovp : BitVec 2) : Bool :=
  (ovp == 0 || convPolicy src.elem dst.elem) &&
  (if dst.count = src.count then b == 0
   else if dst.count < src.count then decide (b.toNat < src.count / dst.count)
   else true)

/-- The control registers of the CSR map, by number (07 R160). -/
def csrListed (n : BitVec 12) : Bool :=
  let k := n.toNat
  decide ((1 ≤ k ∧ k ≤ 3) ∨ (0x400 ≤ k ∧ k ≤ 0x408) ∨ (0x800 ≤ k ∧ k ≤ 0x808) ∨
    (0x810 ≤ k ∧ k ≤ 0x815) ∨ (0xC00 ≤ k ∧ k ≤ 0xC0D))

/-- A number whose class is not read-only (07 R157). -/
def csrWritable (n : BitVec 12) : Bool := csrListed n && decide (n.toNat < 0xC00)

/-- A register field that names a predicate holds 0 to 7 (02 R46). -/
def predField (r : BitVec 5) : Bool := decide (r.toNat < 8)

/-- Field rules of the A slot (02 R45, R46; 03 R71). -/
def AOp.fieldsOk (o : AOp) (d a b : BitVec 5) : Bool :=
  match o with
  | .nop => d == 0 && a == 0 && b == 0
  | .cmp _ => predField d
  | .pand | .por | .pxor => predField d && predField a && predField b
  | .pnot => predField d && predField a && b == 0
  | _ => true

/-- Whether the A slot writes an x register. -/
def AOp.writesX : AOp → Bool
  | .nop | .cmp _ | .pand | .por | .pxor | .pnot => false
  | _ => true

/-- Field rules of the D slot (03 R71). -/
def DOp.fieldsOk (o : DOp) (d a b c : BitVec 5) : Bool :=
  match o with
  | .nop => d == 0 && a == 0 && b == 0 && c == 0
  | .fmaS | .fmaD | .fmaB | .fmaH | .fmaP | .fdot2 => true
  | .fabsS | .fnegS | .fmvX | .fmvF => b == 0 && c == 0
  | _ => c == 0

/-- Both slots name the same destination register: only `fmv.x` gives the D slot an x destination (02 R45, 03 R71). -/
def pairShares (o : AOp) (ad : BitVec 5) (p : DOp) (dd : BitVec 5) : Bool :=
  o.writesX && p == .fmvX && ad == dd

/-- The fields a kind of `tlb.inv` uses; the others are 0 (04 R95). -/
def TlbKind.fieldsOk (k : TlbKind) (a b c : BitVec 5) : Bool :=
  match k with
  | .va => c == 0
  | .rng => true
  | .asid => a == 0 && c == 0
  | .all => a == 0 && b == 0 && c == 0
  | .vag => b == 0 && c == 0

/-- Well-formedness of an instruction. -/
def Instr.wf : Instr → Bool
  | .add g _ _ _ => guardOk g
  | .sub g _ _ _ => guardOk g
  | .and g _ _ _ => guardOk g
  | .or g _ _ _ => guardOk g
  | .xor g _ _ _ => guardOk g
  | .andn g _ _ _ => guardOk g
  | .orn g _ _ _ => guardOk g
  | .xnor g _ _ _ => guardOk g
  | .sll g _ _ _ => guardOk g
  | .srl g _ _ _ => guardOk g
  | .sra g _ _ _ => guardOk g
  | .rol g _ _ _ => guardOk g
  | .ror g _ _ _ => guardOk g
  | .min g _ _ _ => guardOk g
  | .max g _ _ _ => guardOk g
  | .minn g _ _ _ => guardOk g
  | .maxn g _ _ _ => guardOk g
  | .lea _ g _ _ _ => guardOk g
  | .mul g _ _ _ => guardOk g
  | .mulh g _ _ _ => guardOk g
  | .mulhn g _ _ _ => guardOk g
  | .clz g _ _ => guardOk g
  | .ctz g _ _ => guardOk g
  | .popc g _ _ => guardOk g
  | .brev g _ _ => guardOk g
  | .bswap g _ _ => guardOk g
  | .cmp _ g _ _ _ => guardOk g
  | .sel g _ _ _ _ => guardOk g
  | .pand g _ _ _ => guardOk g
  | .por g _ _ _ => guardOk g
  | .pxor g _ _ _ => guardOk g
  | .pnot g _ _ => guardOk g
  | .pget g _ => guardOk g
  | .pset g _ => guardOk g
  | .addX g _ _ _ _ => guardOk g
  | .subX g _ _ _ _ => guardOk g
  | .andX g _ _ _ _ => guardOk g
  | .orX g _ _ _ _ => guardOk g
  | .xorX g _ _ _ _ => guardOk g
  | .andnX g _ _ _ _ => guardOk g
  | .ornX g _ _ _ _ => guardOk g
  | .xnorX g _ _ _ _ => guardOk g
  | .sllX g _ _ _ _ => guardOk g
  | .srlX g _ _ _ _ => guardOk g
  | .sraX g _ _ _ _ => guardOk g
  | .rolX g _ _ _ _ => guardOk g
  | .rorX g _ _ _ _ => guardOk g
  | .minX g _ _ _ _ => guardOk g
  | .maxX g _ _ _ _ => guardOk g
  | .minnX g _ _ _ _ => guardOk g
  | .maxnX g _ _ _ _ => guardOk g
  | .leaX _ g _ _ _ _ => guardOk g
  | .mulX g _ _ _ _ => guardOk g
  | .mulhX g _ _ _ _ => guardOk g
  | .mulhnX g _ _ _ _ => guardOk g
  | .clzX g _ _ _ => guardOk g
  | .ctzX g _ _ _ => guardOk g
  | .popcX g _ _ _ => guardOk g
  | .brevX g _ _ _ => guardOk g
  | .bswapX g _ _ _ => guardOk g
  | .cmpX _ g _ _ _ _ => guardOk g
  | .selX g _ _ _ _ _ => guardOk g
  | .pandX g _ _ _ _ => guardOk g
  | .porX g _ _ _ _ => guardOk g
  | .pxorX g _ _ _ _ => guardOk g
  | .pnotX g _ _ _ => guardOk g
  | .pgetX g _ _ => guardOk g
  | .psetX g _ _ => guardOk g
  | .addi _ _ _ => true
  | .andi _ _ _ => true
  | .ori _ _ _ => true
  | .xori _ _ _ => true
  | .slli _ _ _ => true
  | .srli _ _ _ => true
  | .srai _ _ _ => true
  | .lih _ _ => true
  | .lpc _ _ => true
  | .li g _ _ => guardOk g
  | .liZ g _ _ => guardOk g
  | .liHi g _ _ _ => guardOk g
  | .div g _ _ _ _ _ => guardOk g
  | .divn g _ _ _ _ _ => guardOk g
  | .rem g _ _ _ _ _ => guardOk g
  | .remn g _ _ _ _ _ => guardOk g
  | .bfext g _ _ _ _ _ => guardOk g
  | .bfextN g _ _ _ _ _ => guardOk g
  | .bfins g _ _ _ _ _ => guardOk g
  | .ld _ g _ _ _ _ => guardOk g
  | .ldX _ g _ _ _ o s _ _ => guardOk g && o.onLoad && plainScopeOk o s
  | .st _ g _ _ _ _ => guardOk g
  | .stX _ g _ _ _ o s _ _ => guardOk g && o.onStore && plainScopeOk o s
  | .ldfF32 g _ _ _ _ => guardOk g
  | .ldf64 g _ _ _ _ => guardOk g
  | .ldfX _ g _ _ _ o s _ _ => guardOk g && o.onLoad && plainScopeOk o s
  | .stfF32 g _ _ _ _ => guardOk g
  | .stf64 g _ _ _ _ => guardOk g
  | .stfX _ g _ _ _ o s _ _ => guardOk g && o.onStore && plainScopeOk o s
  | .lds _ g _ _ _ _ => guardOk g
  | .ldsX _ g _ _ _ o s _ _ => guardOk g && o.onLoad && plainScopeOk o s
  | .sts _ g _ _ _ _ => guardOk g
  | .stsX _ g _ _ _ o s _ _ => guardOk g && o.onStore && plainScopeOk o s
  | .ldx _ g _ _ _ _ o s _ _ => guardOk g && o.onLoad && plainScopeOk o s
  | .stx _ g _ _ _ _ o s _ _ => guardOk g && o.onStore && plainScopeOk o s
  | .ldnc _ g _ _ _ o s _ _ => guardOk g && o.onLoad && plainScopeOk o s
  | .amo _ _ g _ _ _ _ _ _ _ _ => guardOk g
  | .cas _ g _ _ _ _ _ _ _ _ => guardOk g
  | .red _ _ g _ _ _ o _ _ _ => guardOk g && o.onStore
  | .pfc g _ _ _ _ => guardOk g
  | .wmon g _ _ _ _ o _ _ _ => guardOk g && o.onLoad
  | .wmonWake _ => true
  | .wmonTimeout _ => true
  | .fence _ => true
  | .fenceSc _ => true
  | .fadd ty g _ _ _ _ _ => guardOk g && ty.arith
  | .fsub ty g _ _ _ _ _ => guardOk g && ty.arith
  | .fmul ty g _ _ _ _ _ => guardOk g && ty.arith
  | .fma ty g _ _ _ _ _ _ => guardOk g && ty.arith
  | .fms ty g _ _ _ _ _ _ => guardOk g && ty.arith
  | .fnma ty g _ _ _ _ _ _ => guardOk g && ty.arith
  | .fdiv ty g _ _ _ _ _ _ => guardOk g && ty.scalar
  | .fsqrt ty g _ _ _ _ _ => guardOk g && ty.scalar
  | .frcp ty g _ _ _ _ _ => guardOk g && ty.approx
  | .frsqrt ty g _ _ _ _ _ => guardOk g && ty.approx
  | .fmin ty g _ _ _ _ => guardOk g && ty.arith
  | .fmax ty g _ _ _ _ => guardOk g && ty.arith
  | .fabs ty g _ _ _ => guardOk g && ty.arith
  | .fneg ty g _ _ _ => guardOk g && ty.arith
  | .fcpsgn ty g _ _ _ _ => guardOk g && ty.arith
  | .fcmp _ ty g _ _ _ _ => guardOk g && ty.scalar
  | .fclass ty g _ _ _ => guardOk g && ty.scalar
  | .fround ty g _ _ _ _ => guardOk g && ty.scalar
  | .fexp2 ty g _ _ _ _ => guardOk g && ty.approx
  | .flog2 ty g _ _ _ _ => guardOk g && ty.approx
  | .fsinp ty g _ _ _ _ => guardOk g && ty.approx
  | .fcosp ty g _ _ _ _ => guardOk g && ty.approx
  | .frdx ty g _ _ _ _ _ => guardOk g && ty.approx
  | .fdot2 ty g _ _ _ _ _ _ => guardOk g && ty.dot
  | .fcvt ty src g _ _ b ovp rm _ => guardOk g && !fcvtReserved ty src rm && fcvtFields ty src b ovp
  | .fcvtX ty _ g _ _ _ _ => guardOk g && ty.scalar
  | .xcvtF ty _ g _ _ _ _ => guardOk g && ty.scalar
  | .fmvX ty g _ _ _ => guardOk g && ty.move
  | .fmvF ty g _ _ _ => guardOk g && ty.move
  | .lxch _ g _ _ _ _ _ => guardOk g
  | .lsel _ g _ _ _ _ _ => guardOk g
  | .lvote g _ _ _ _ _ => guardOk g
  | .lred _ g _ _ _ _ _ => guardOk g
  | .laneWaitCycle _ => true
  | .pairWord g aop ad aa ab _ dop dd da db dc => guardOk g && aop.fieldsOk ad aa ab && dop.fieldsOk dd da db dc && !pairShares aop ad dop dd
  | .br g _ => guardOk g
  | .call g _ => guardOk g
  | .callL g _ => guardOk g
  | .jmp g _ => guardOk g
  | .jr g _ => guardOk g
  | .callr g _ _ => guardOk g
  | .ret g => guardOk g
  | .loop _ _ => true
  | .loopx g => guardOk g
  | .nop g => guardOk g
  | .spawn g _ _ _ => guardOk g
  | .migrate g _ _ => guardOk g
  | .yield g => guardOk g
  | .exit g => guardOk g
  | .doneWait g _ _ => guardOk g
  | .cancel g _ _ => guardOk g
  | .hbArr g _ => guardOk g
  | .hbWait g _ => guardOk g
  | .hbSync g _ => guardOk g
  | .rinv g _ _ _ => guardOk g
  | .mkwait g _ _ => guardOk g
  | .mkget g _ _ _ => guardOk g
  | .mkgetT g _ _ _ => guardOk g
  | .mktest g _ _ => guardOk g
  | .mkret g => guardOk g
  | .mkdrop g _ => guardOk g
  | .sys g => guardOk g
  | .tret g => guardOk g
  | .brk g => guardOk g
  | .wfi g => guardOk g
  | .wfiTimeout _ => true
  | .csrr _ n => csrListed n
  | .csrw _ n => csrWritable n
  | .csrs _ n => csrWritable n
  | .csrc _ n => csrWritable n
  | .interrupt _ => true
  | .signal _ => true
  | .registerWriteback _ _ => true
  | .cpyIn g _ _ _ _ _ _ _ => guardOk g
  | .cpyMc g _ _ _ _ _ _ _ _ => guardOk g
  | .cpyGat g _ _ _ _ _ _ _ => guardOk g
  | .cpyOut _ g _ _ _ _ _ _ _ => guardOk g
  | .cpySct _ g _ _ _ _ _ _ _ => guardOk g
  | .copyAccept _ => true
  | .copyChunkLand _ => true
  | .copyChunkRead _ => true
  | .copyComplete _ => true
  | .barInit g _ _ _ _ _ _ => guardOk g
  | .barArr g _ _ _ _ => guardOk g
  | .barExp arr out g _ _ _ _ _ => guardOk g && !(arr && out)
  | .barWait out g _ _ b _ _ => guardOk g && (!out || b == 0)
  | .barTest out g _ _ b _ _ => guardOk g && (!out || b == 0)
  | .barInval g _ _ _ _ => guardOk g
  | .wcnt _ _ => true
  | .mcfg g _ _ _ _ _ => guardOk g
  | .mcfgApply _ => true
  | .mclaim g _ _ _ _ _ _ => guardOk g
  | .mclaimW g _ _ _ _ _ _ => guardOk g
  | .mclaimWGrant _ => true
  | .claimDeadlock _ => true
  | .mrel g _ _ _ _ _ => guardOk g
  | .mload _ g _ _ _ _ _ _ => guardOk g
  | .mloadT _ g _ _ _ _ _ _ => guardOk g
  | .mgath _ g _ _ _ _ _ => guardOk g
  | .mmul _ g _ _ _ _ => guardOk g
  | .msacc _ _ g _ _ _ _ _ _ => guardOk g
  | .mstore _ _ _ _ g _ _ _ _ _ => guardOk g
  | .mzero g _ _ _ _ _ => guardOk g
  | .mstat g _ _ _ _ => guardOk g
  | .macld g _ _ _ _ _ => guardOk g
  | .matrixPerform _ => true
  | .enginePreempt _ _ => true
  | .cwFlush _ bar g _ _ b _ _ _ => guardOk g && (bar || b == 0)
  | .cwInval _ bar g _ _ b _ _ _ => guardOk g && (bar || b == 0)
  | .cwWalkComplete _ => true
  | .pgMig g _ _ _ _ _ _ => guardOk g
  | .pgMigLine _ => true
  | .pgMigRel g _ _ _ _ => guardOk g
  | .pgSplit g _ _ _ _ _ _ => guardOk g
  | .pgSplitComplete _ => true
  | .pgColl lvl g _ _ _ _ _ => guardOk g && lvl != 0
  | .pgCollComplete _ => true
  | .tlbInv k _ g _ a b c _ _ => guardOk g && k.fieldsOk a b c
  | .tlbInvComplete _ => true
  | .getS _ _ => true
  | .getX _ _ => true
  | .upgrade _ _ => true
  | .getU _ _ _ _ => true
  | .atHome _ _ => true
  | .putM _ _ => true
  | .putO _ _ => true
  | .putE _ _ => true
  | .putU _ _ => true
  | .privEvictReport _ _ => true
  | .slabEvict _ _ => true
  | .migrateSend _ => true
  | .threadArrival _ => true
  | .binTimer _ _ => true
  | .keystoneBlockRequest _ _ => true
  | .keystoneElection _ => true
  | .workgroupPlace _ => true
  | .arrivalQueueWrite _ => true
  | .exitQueueWrite _ => true
  | .rinvEnqueue _ => true
  | .markResolve _ => true
  | .markBreak _ => true
  | .prqCmdIssue _ => true
  | .workgroupStopped _ => true
  | .saveCommit _ => true
  | .drainDeadline _ => true
  | .restoreStart _ => true
  | .restoreComplete _ => true
  | .governorSample _ => true
  | .syntheticGroutSlot _ => true
  | .shuntTrip _ => true
  | .coursePwrNtReq _ => true
  | .coursePwrBypReq _ _ => true
  | .coursePwrOffReq _ => true
  | .courseModeChange _ => true
  | .quadrantOvercurrent _ _ => true
  | .qstatClearOff _ _ => true
  | .monSnap _ _ => true
  | .monSample _ _ _ => true
  | .unitDrain _ => true
  | .unitOffline _ => true
  | .unitOnline _ => true
  | .unitRetire _ => true
  | .firmwareUpdate _ _ => true
  | .powerOn _ => true
  | .frameReceive _ _ _ => true
  | .frameTransmit _ _ _ => true
  | .roceSend _ _ _ _ => true
  | .roceSendImm _ _ _ _ => true
  | .roceRdmaWrite _ _ _ _ _ _ => true
  | .roceRdmaWriteImm _ _ _ _ _ _ => true
  | .roceRdmaRead _ _ _ _ _ _ => true
  | .roceReadResponse _ _ _ _ _ _ => true
  | .roceAtomic _ _ _ => true
  | .timeStep _ _ => true
  | .flitReceive _ _ _ => true
  | .linkPortDown _ _ => true
  | .linkTimeout _ => true
  | .ucieRetrainFail _ => true
  | .idwCmdReplace _ => true
  | .idwCmdRead _ => true
  | .idwTableWrite _ _ => true
  | .migProfWrite _ _ => true
  | .exqCtlWrite _ _ => true
  | .arqCtlWrite _ _ => true
  | .ringCtlWrite _ _ _ => true
  | .softSet _ _ => true
  | .softClr _ _ => true
  | .govCtlWrite _ _ => true
  | .boostMaxWrite _ _ => true
  | .controlRegisterWrite _ _ _ => true
  | .silentEviction _ _ => true
  | .timecmpReached _ => true
  | .ethernetLinkChange _ _ _ => true
  | .ucieFlitRetry _ _ => true

end Sys2Proof
end

