-- ==== Sys2Proof/Decode.lean ====
section
/-!
DEFINITION. From parcels to instructions and back: the layouts of 02 R34 to R38, the tables of 03 R60 to R72, the
order of the decode checks of 02 R49 (steps 2 to 5), and the encoder written from the same tables.
-/

namespace Sys2Proof

/-! ### Bit fields -/

/-- The field of `len` bits of `w` whose lowest bit is bit `lo`. -/
def fld (w lo len : Nat) : Nat := w / 2 ^ lo % 2 ^ len

/-- The field as a bit vector. -/
def bfld (w lo len : Nat) : BitVec len := BitVec.ofNat len (w / 2 ^ lo)

/-! ### Codes of the sub-fields (02 R48; 03 R60 to R72) -/

/-- Code of `CmpOp`. -/
def CmpOp.code : CmpOp → Nat
  | .eq => 0
  | .ne => 1
  | .lt => 2
  | .ge => 3
  | .lo => 4
  | .hs => 5

/-- The `CmpOp` of a code; none for a value its table does not list. -/
def CmpOp.ofCode : Nat → Option CmpOp
  | 0 => some .eq
  | 1 => some .ne
  | 2 => some .lt
  | 3 => some .ge
  | 4 => some .lo
  | 5 => some .hs
  | _ => none

/-- Code of `LdSize`. -/
def LdSize.code : LdSize → Nat
  | .s8 => 0
  | .z8 => 1
  | .s16 => 2
  | .z16 => 3
  | .s32 => 4
  | .z32 => 5
  | .d64 => 6

/-- The `LdSize` of a code; none for a value its table does not list. -/
def LdSize.ofCode : Nat → Option LdSize
  | 0 => some .s8
  | 1 => some .z8
  | 2 => some .s16
  | 3 => some .z16
  | 4 => some .s32
  | 5 => some .z32
  | 6 => some .d64
  | _ => none

/-- Code of `StSize`. -/
def StSize.code : StSize → Nat
  | .b8 => 0
  | .b16 => 1
  | .b32 => 2
  | .b64 => 3

/-- The `StSize` of a code; none for a value its table does not list. -/
def StSize.ofCode : Nat → Option StSize
  | 0 => some .b8
  | 1 => some .b16
  | 2 => some .b32
  | 3 => some .b64
  | _ => none

/-- Code of `AmoOp`. -/
def AmoOp.code : AmoOp → Nat
  | .add => 0
  | .and => 1
  | .or => 2
  | .xor => 3
  | .min => 4
  | .max => 5
  | .minn => 6
  | .maxn => 7
  | .swap => 8

/-- The `AmoOp` of a code; none for a value its table does not list. -/
def AmoOp.ofCode : Nat → Option AmoOp
  | 0 => some .add
  | 1 => some .and
  | 2 => some .or
  | 3 => some .xor
  | 4 => some .min
  | 5 => some .max
  | 6 => some .minn
  | 7 => some .maxn
  | 8 => some .swap
  | _ => none

/-- Code of `RedOp`. -/
def RedOp.code : RedOp → Nat
  | .add => 0
  | .and => 1
  | .or => 2
  | .xor => 3
  | .min => 4
  | .max => 5
  | .fadd => 6

/-- The `RedOp` of a code; none for a value its table does not list. -/
def RedOp.ofCode : Nat → Option RedOp
  | 0 => some .add
  | 1 => some .and
  | 2 => some .or
  | 3 => some .xor
  | 4 => some .min
  | 5 => some .max
  | 6 => some .fadd
  | _ => none

/-- Code of `Order`. -/
def Order.code : Order → Nat
  | .plain => 0
  | .acq => 1
  | .rel => 2
  | .acqRel => 3

/-- The `Order` of a code; none for a value its table does not list. -/
def Order.ofCode : Nat → Option Order
  | 0 => some .plain
  | 1 => some .acq
  | 2 => some .rel
  | 3 => some .acqRel
  | _ => none

/-- Code of `Scope`. -/
def Scope.code : Scope → Nat
  | .thread => 0
  | .wg => 1
  | .cl => 2
  | .die => 3
  | .pkg => 4
  | .sys => 5

/-- The `Scope` of a code; none for a value its table does not list. -/
def Scope.ofCode : Nat → Option Scope
  | 0 => some .thread
  | 1 => some .wg
  | 2 => some .cl
  | 3 => some .die
  | 4 => some .pkg
  | 5 => some .sys
  | _ => none

/-- Code of `WScope`. -/
def WScope.code : WScope → Nat
  | .die => 3
  | .pkg => 4
  | .sys => 5

/-- The `WScope` of a code; none for a value its table does not list. -/
def WScope.ofCode : Nat → Option WScope
  | 3 => some .die
  | 4 => some .pkg
  | 5 => some .sys
  | _ => none

/-- Code of `FType`. -/
def FType.code : FType → Nat
  | .f64 => 0
  | .f32 => 1
  | .f32x2 => 2
  | .bf16x4 => 3
  | .f16x4 => 4
  | .f16 => 5
  | .a8x8 => 6

/-- The `FType` of a code; none for a value its table does not list. -/
def FType.ofCode : Nat → Option FType
  | 0 => some .f64
  | 1 => some .f32
  | 2 => some .f32x2
  | 3 => some .bf16x4
  | 4 => some .f16x4
  | 5 => some .f16
  | 6 => some .a8x8
  | _ => none

/-- Code of `RM`. -/
def RM.code : RM → Nat
  | .rne => 0
  | .rtz => 1
  | .rup => 2
  | .rdn => 3
  | .frm => 4

/-- The `RM` of a code; none for a value its table does not list. -/
def RM.ofCode : Nat → Option RM
  | 0 => some .rne
  | 1 => some .rtz
  | 2 => some .rup
  | 3 => some .rdn
  | 4 => some .frm
  | _ => none

/-- Code of `FcmpOp`. -/
def FcmpOp.code : FcmpOp → Nat
  | .eq => 0
  | .ne => 1
  | .lt => 2
  | .le => 3
  | .un => 4

/-- The `FcmpOp` of a code; none for a value its table does not list. -/
def FcmpOp.ofCode : Nat → Option FcmpOp
  | 0 => some .eq
  | 1 => some .ne
  | 2 => some .lt
  | 3 => some .le
  | 4 => some .un
  | _ => none

/-- Code of `LredOp`. -/
def LredOp.code : LredOp → Nat
  | .add => 0
  | .min => 1
  | .max => 2
  | .minn => 3
  | .maxn => 4
  | .and => 5
  | .or => 6
  | .xor => 7
  | .fadd => 8
  | .fmin => 9
  | .fmax => 10

/-- The `LredOp` of a code; none for a value its table does not list. -/
def LredOp.ofCode : Nat → Option LredOp
  | 0 => some .add
  | 1 => some .min
  | 2 => some .max
  | 3 => some .minn
  | 4 => some .maxn
  | 5 => some .and
  | 6 => some .or
  | 7 => some .xor
  | 8 => some .fadd
  | 9 => some .fmin
  | 10 => some .fmax
  | _ => none

/-- Code of `CntClass`. -/
def CntClass.code : CntClass → Nat
  | .copy => 0
  | .matrix => 1
  | .walker => 2
  | .remote => 3

/-- The `CntClass` of a code; none for a value its table does not list. -/
def CntClass.ofCode : Nat → Option CntClass
  | 0 => some .copy
  | 1 => some .matrix
  | 2 => some .walker
  | 3 => some .remote
  | _ => none

/-- Code of `MFmt`. -/
def MFmt.code : MFmt → Nat
  | .bf16 => 0
  | .f16 => 1
  | .a8 => 2
  | .i8 => 3

/-- The `MFmt` of a code; none for a value its table does not list. -/
def MFmt.ofCode : Nat → Option MFmt
  | 0 => some .bf16
  | 1 => some .f16
  | 2 => some .a8
  | 3 => some .i8
  | _ => none

/-- Code of `TlbKind`. -/
def TlbKind.code : TlbKind → Nat
  | .va => 0
  | .rng => 1
  | .asid => 2
  | .all => 3
  | .vag => 4

/-- The `TlbKind` of a code; none for a value its table does not list. -/
def TlbKind.ofCode : Nat → Option TlbKind
  | 0 => some .va
  | 1 => some .rng
  | 2 => some .asid
  | 3 => some .all
  | 4 => some .vag
  | _ => none

/-- Code of `AOp`. -/
def AOp.code : AOp → Nat
  | .nop => 0
  | .add => 1
  | .sub => 2
  | .and => 3
  | .or => 4
  | .xor => 5
  | .andn => 6
  | .sll => 7
  | .srl => 8
  | .sra => 9
  | .min => 10
  | .max => 11
  | .minn => 12
  | .maxn => 13
  | .lea4 => 14
  | .lea8 => 15
  | .cmp .eq => 16
  | .cmp .ne => 17
  | .cmp .lt => 18
  | .cmp .ge => 19
  | .cmp .lo => 20
  | .cmp .hs => 21
  | .pand => 24
  | .por => 25
  | .pxor => 26
  | .pnot => 27
  | .mul => 28

/-- The `AOp` of a code; none for a value its table does not list. -/
def AOp.ofCode : Nat → Option AOp
  | 0 => some .nop
  | 1 => some .add
  | 2 => some .sub
  | 3 => some .and
  | 4 => some .or
  | 5 => some .xor
  | 6 => some .andn
  | 7 => some .sll
  | 8 => some .srl
  | 9 => some .sra
  | 10 => some .min
  | 11 => some .max
  | 12 => some .minn
  | 13 => some .maxn
  | 14 => some .lea4
  | 15 => some .lea8
  | 16 => some (.cmp .eq)
  | 17 => some (.cmp .ne)
  | 18 => some (.cmp .lt)
  | 19 => some (.cmp .ge)
  | 20 => some (.cmp .lo)
  | 21 => some (.cmp .hs)
  | 24 => some .pand
  | 25 => some .por
  | 26 => some .pxor
  | 27 => some .pnot
  | 28 => some .mul
  | _ => none

/-- Code of `DOp`. -/
def DOp.code : DOp → Nat
  | .nop => 0
  | .faddS => 1
  | .fsubS => 2
  | .fmulS => 3
  | .fmaS => 4
  | .faddD => 5
  | .fmulD => 6
  | .fmaD => 7
  | .faddB => 8
  | .fmulB => 9
  | .fmaB => 10
  | .fmaH => 11
  | .fminS => 12
  | .fmaxS => 13
  | .fabsS => 14
  | .fnegS => 15
  | .fmvX => 16
  | .fmvF => 17
  | .fdot2 => 18
  | .fmaP => 19

/-- The `DOp` of a code; none for a value its table does not list. -/
def DOp.ofCode : Nat → Option DOp
  | 0 => some .nop
  | 1 => some .faddS
  | 2 => some .fsubS
  | 3 => some .fmulS
  | 4 => some .fmaS
  | 5 => some .faddD
  | 6 => some .fmulD
  | 7 => some .fmaD
  | 8 => some .faddB
  | 9 => some .fmulB
  | 10 => some .fmaB
  | 11 => some .fmaH
  | 12 => some .fminS
  | 13 => some .fmaxS
  | 14 => some .fabsS
  | 15 => some .fnegS
  | 16 => some .fmvX
  | 17 => some .fmvF
  | 18 => some .fdot2
  | 19 => some .fmaP
  | _ => none

/-! ### Layouts -/

/-- R layout (02 R35). -/
structure LayR where
  op : Nat
  g : BitVec 4
  d : BitVec 5
  a : BitVec 5
  b : BitVec 5
  fn : Nat
deriving DecidableEq, Repr

/-- M layout (02 R35). -/
structure LayM where
  op : Nat
  g : BitVec 4
  d : BitVec 5
  a : BitVec 5
  off : BitVec 7
  la : BitVec 4
deriving DecidableEq, Repr

/-- I layout (02 R35). -/
structure LayI where
  op : Nat
  d : BitVec 5
  a : BitVec 5
  imm : BitVec 12
  fn : Nat
deriving DecidableEq, Repr

/-- U layout (02 R35). -/
structure LayU where
  op : Nat
  d : BitVec 5
  imm : BitVec 20
deriving DecidableEq, Repr

/-- J layout (02 R35). -/
structure LayJ where
  op : Nat
  g : BitVec 4
  off : BitVec 21
deriving DecidableEq, Repr

/-- X and E layouts, bit [31] being spare (02 R36, R37). -/
structure LayX where
  op : Nat
  g : BitVec 4
  d : BitVec 5
  a : BitVec 5
  b : BitVec 5
  c : BitVec 5
  spare : Nat
  la : BitVec 4
  ru : BitVec 3
  fn : Nat
  imm : BitVec 17
deriving DecidableEq, Repr

/-- L layout (02 R37). -/
structure LayL where
  op : Nat
  g : BitVec 4
  d : BitVec 5
  a : BitVec 5
  fn : Nat
  imm : BitVec 32
deriving DecidableEq, Repr

/-- P layout, bits [36:34] and [63] being spare (02 R38). -/
structure LayP where
  op : Nat
  g : BitVec 4
  afn : Nat
  ad : BitVec 5
  aa : BitVec 5
  ab : BitVec 5
  aru : BitVec 2
  spare : Nat
  dfn : Nat
  dd : BitVec 5
  da : BitVec 5
  db : BitVec 5
  dc : BitVec 5
  top : Nat
deriving DecidableEq, Repr

/-- The parcel of an R-layout instruction. -/
def LayR.pack (r : LayR) : Nat :=
  r.op * 2 ^ 1 + r.g.toNat * 2 ^ 7 + r.d.toNat * 2 ^ 11 + r.a.toNat * 2 ^ 16 + r.b.toNat * 2 ^ 21 + r.fn * 2 ^ 26

/-- The fields of an R-layout parcel. -/
def LayR.unpack (w : Nat) : LayR :=
  ⟨fld w 1 6, bfld w 7 4, bfld w 11 5, bfld w 16 5, bfld w 21 5, fld w 26 6⟩

/-- The parcel of an M-layout instruction. -/
def LayM.pack (r : LayM) : Nat :=
  r.op * 2 ^ 1 + r.g.toNat * 2 ^ 7 + r.d.toNat * 2 ^ 11 + r.a.toNat * 2 ^ 16 + r.off.toNat * 2 ^ 21 + r.la.toNat * 2 ^ 28

/-- The fields of an M-layout parcel. -/
def LayM.unpack (w : Nat) : LayM :=
  ⟨fld w 1 6, bfld w 7 4, bfld w 11 5, bfld w 16 5, bfld w 21 7, bfld w 28 4⟩

/-- The parcel of an I-layout instruction. -/
def LayI.pack (r : LayI) : Nat :=
  r.op * 2 ^ 1 + r.d.toNat * 2 ^ 7 + r.a.toNat * 2 ^ 12 + r.imm.toNat * 2 ^ 17 + r.fn * 2 ^ 29

/-- The fields of an I-layout parcel. -/
def LayI.unpack (w : Nat) : LayI :=
  ⟨fld w 1 6, bfld w 7 5, bfld w 12 5, bfld w 17 12, fld w 29 3⟩

/-- The parcel of a U-layout instruction. -/
def LayU.pack (r : LayU) : Nat := r.op * 2 ^ 1 + r.d.toNat * 2 ^ 7 + r.imm.toNat * 2 ^ 12

/-- The fields of a U-layout parcel. -/
def LayU.unpack (w : Nat) : LayU := ⟨fld w 1 6, bfld w 7 5, bfld w 12 20⟩

/-- The parcel of a J-layout instruction. -/
def LayJ.pack (r : LayJ) : Nat := r.op * 2 ^ 1 + r.g.toNat * 2 ^ 7 + r.off.toNat * 2 ^ 11

/-- The fields of a J-layout parcel. -/
def LayJ.unpack (w : Nat) : LayJ := ⟨fld w 1 6, bfld w 7 4, bfld w 11 21⟩

/-- The two parcels of an X-layout or E-layout instruction, the first in the low half. -/
def LayX.pack (r : LayX) : Nat :=
  1 + r.op * 2 ^ 1 + r.g.toNat * 2 ^ 7 + r.d.toNat * 2 ^ 11 + r.a.toNat * 2 ^ 16 + r.b.toNat * 2 ^ 21 +
  r.c.toNat * 2 ^ 26 + r.spare * 2 ^ 31 + r.la.toNat * 2 ^ 32 + r.ru.toNat * 2 ^ 36 + r.fn * 2 ^ 39 + r.imm.toNat * 2 ^ 47

/-- The fields of an X-layout or E-layout instruction. -/
def LayX.unpack (w : Nat) : LayX :=
  ⟨fld w 1 6, bfld w 7 4, bfld w 11 5, bfld w 16 5, bfld w 21 5, bfld w 26 5, fld w 31 1, bfld w 32 4, bfld w 36 3,
    fld w 39 8, bfld w 47 17⟩

/-- The two parcels of an L-layout instruction. -/
def LayL.pack (r : LayL) : Nat :=
  1 + r.op * 2 ^ 1 + r.g.toNat * 2 ^ 7 + r.d.toNat * 2 ^ 11 + r.a.toNat * 2 ^ 16 + r.fn * 2 ^ 21 + r.imm.toNat * 2 ^ 32

/-- The fields of an L-layout instruction. -/
def LayL.unpack (w : Nat) : LayL :=
  ⟨fld w 1 6, bfld w 7 4, bfld w 11 5, bfld w 16 5, fld w 21 11, bfld w 32 32⟩

/-- The two parcels of a pair word. -/
def LayP.pack (r : LayP) : Nat :=
  1 + r.op * 2 ^ 1 + r.g.toNat * 2 ^ 7 + r.afn * 2 ^ 11 + r.ad.toNat * 2 ^ 17 + r.aa.toNat * 2 ^ 22 +
  r.ab.toNat * 2 ^ 27 + r.aru.toNat * 2 ^ 32 + r.spare * 2 ^ 34 + r.dfn * 2 ^ 37 + r.dd.toNat * 2 ^ 43 +
  r.da.toNat * 2 ^ 48 + r.db.toNat * 2 ^ 53 + r.dc.toNat * 2 ^ 58 + r.top * 2 ^ 63

/-- The fields of a pair word. -/
def LayP.unpack (w : Nat) : LayP :=
  ⟨fld w 1 6, bfld w 7 4, fld w 11 6, bfld w 17 5, bfld w 22 5, bfld w 27 5, bfld w 32 2, fld w 34 3, fld w 37 6,
    bfld w 43 5, bfld w 48 5, bfld w 53 5, bfld w 58 5, fld w 63 1⟩

/-! ### Decoding -/

/-- Why a word is no instruction: the causes of 03 R58. -/
inductive Ill where
  | reserved | unassigned | form
deriving DecidableEq, Repr

/-- What decoding answers. -/
inductive Dec where
  | ok (i : Instr)
  | ill (k : Ill)
deriving DecidableEq, Repr

/-- A check of step 5 of R49: a field that must be 0, or in range. -/
def Dec.need (c : Bool) (k : Dec) : Dec := if c then k else .ill .form

/-- A check of step 4 of R49: a value the tables list. -/
def Dec.listed (c : Bool) (k : Dec) : Dec := if c then k else .ill .reserved

/-- Step 4 of R49 for a sub-field with a table of codes. -/
def Dec.sub {α : Type} (o : Option α) (k : α → Dec) : Dec :=
  match o with
  | some v => k v
  | none => .ill .reserved

/-- Step 3 of R49: the reserved guard. -/
def Dec.guarded (g : BitVec 4) (k : Dec) : Dec := if guardOk g then k else .ill .reserved

/-- A value outside the tables: all ones is unassigned, any other is reserved (03 R59). -/
def Dec.noFn (fn ones : Nat) : Dec := if fn = ones then .ill .unassigned else .ill .reserved

/-- A predicate register field. -/
def lo3 (r : BitVec 5) : BitVec 3 := r.setWidth 3

/-- A predicate in a five-bit register field. -/
def up5 (p : BitVec 3) : BitVec 5 := p.setWidth 5

/-- OP 0x01 of the R layout: integer ALU (03 R61). -/
def decR1 (r : LayR) : Dec :=
  match r.fn with
  | 0x00 => .ok (.add r.g r.d r.a r.b)
  | 0x01 => .ok (.sub r.g r.d r.a r.b)
  | 0x02 => .ok (.and r.g r.d r.a r.b)
  | 0x03 => .ok (.or r.g r.d r.a r.b)
  | 0x04 => .ok (.xor r.g r.d r.a r.b)
  | 0x05 => .ok (.andn r.g r.d r.a r.b)
  | 0x06 => .ok (.orn r.g r.d r.a r.b)
  | 0x07 => .ok (.xnor r.g r.d r.a r.b)
  | 0x08 => .ok (.sll r.g r.d r.a r.b)
  | 0x09 => .ok (.srl r.g r.d r.a r.b)
  | 0x0A => .ok (.sra r.g r.d r.a r.b)
  | 0x0B => .ok (.rol r.g r.d r.a r.b)
  | 0x0C => .ok (.ror r.g r.d r.a r.b)
  | 0x0D => .ok (.min r.g r.d r.a r.b)
  | 0x0E => .ok (.max r.g r.d r.a r.b)
  | 0x0F => .ok (.minn r.g r.d r.a r.b)
  | 0x10 => .ok (.maxn r.g r.d r.a r.b)
  | 0x14 => .ok (.lea 0 r.g r.d r.a r.b)
  | 0x15 => .ok (.lea 1 r.g r.d r.a r.b)
  | 0x16 => .ok (.lea 2 r.g r.d r.a r.b)
  | 0x17 => .ok (.lea 3 r.g r.d r.a r.b)
  | f => .noFn f 0x3F

/-- OP 0x02 of the R layout: multiply and bit operations (03 R61). -/
def decR2 (r : LayR) : Dec :=
  match r.fn with
  | 0x00 => .ok (.mul r.g r.d r.a r.b)
  | 0x01 => .ok (.mulh r.g r.d r.a r.b)
  | 0x02 => .ok (.mulhn r.g r.d r.a r.b)
  | 0x08 => .need (r.b == 0) (.ok (.clz r.g r.d r.a))
  | 0x09 => .need (r.b == 0) (.ok (.ctz r.g r.d r.a))
  | 0x0A => .need (r.b == 0) (.ok (.popc r.g r.d r.a))
  | 0x0B => .need (r.b == 0) (.ok (.brev r.g r.d r.a))
  | 0x0C => .need (r.b == 0) (.ok (.bswap r.g r.d r.a))
  | f => .noFn f 0x3F

/-- OP 0x03 of the R layout: compare, select and predicate (03 R61). -/
def decR3 (r : LayR) : Dec :=
  match r.fn with
  | 0x00 => .need (predField r.d) (.ok (.cmp .eq r.g (lo3 r.d) r.a r.b))
  | 0x01 => .need (predField r.d) (.ok (.cmp .ne r.g (lo3 r.d) r.a r.b))
  | 0x02 => .need (predField r.d) (.ok (.cmp .lt r.g (lo3 r.d) r.a r.b))
  | 0x03 => .need (predField r.d) (.ok (.cmp .ge r.g (lo3 r.d) r.a r.b))
  | 0x04 => .need (predField r.d) (.ok (.cmp .lo r.g (lo3 r.d) r.a r.b))
  | 0x05 => .need (predField r.d) (.ok (.cmp .hs r.g (lo3 r.d) r.a r.b))
  | 0x08 => .ok (.sel r.g r.d r.a r.b 0)
  | 0x09 => .ok (.sel r.g r.d r.a r.b 1)
  | 0x0A => .ok (.sel r.g r.d r.a r.b 2)
  | 0x0B => .ok (.sel r.g r.d r.a r.b 3)
  | 0x0C => .ok (.sel r.g r.d r.a r.b 4)
  | 0x0D => .ok (.sel r.g r.d r.a r.b 5)
  | 0x0E => .ok (.sel r.g r.d r.a r.b 6)
  | 0x0F => .ok (.sel r.g r.d r.a r.b 7)
  | 0x10 => .need (predField r.d && predField r.a && predField r.b) (.ok (.pand r.g (lo3 r.d) (lo3 r.a) (lo3 r.b)))
  | 0x11 => .need (predField r.d && predField r.a && predField r.b) (.ok (.por r.g (lo3 r.d) (lo3 r.a) (lo3 r.b)))
  | 0x12 => .need (predField r.d && predField r.a && predField r.b) (.ok (.pxor r.g (lo3 r.d) (lo3 r.a) (lo3 r.b)))
  | 0x13 => .need (predField r.d && predField r.a && r.b == 0) (.ok (.pnot r.g (lo3 r.d) (lo3 r.a)))
  | 0x14 => .need (r.a == 0 && r.b == 0) (.ok (.pget r.g r.d))
  | 0x15 => .need (r.d == 0 && r.b == 0) (.ok (.pset r.g r.a))
  | f => .noFn f 0x3F

/-- OP 0x09: indirect control (03 R63). -/
def decR9 (r : LayR) : Dec :=
  match r.fn with
  | 0x00 => .need (r.d == 0 && r.a == 0 && r.b == 0) (.ok (.nop r.g))
  | 0x01 => .need (r.d == 0 && r.b == 0) (.ok (.jr r.g r.a))
  | 0x02 => .need (r.b == 0) (.ok (.callr r.g r.d r.a))
  | 0x03 => .need (r.d == 0 && r.a == 0 && r.b == 0) (.ok (.ret r.g))
  | 0x04 => .need (r.d == 0 && r.a == 0 && r.b == 0) (.ok (.loopx r.g))
  | f => .noFn f 0x3F

/-- OP 0x0C: system (03 R63). -/
def decR12 (r : LayR) : Dec :=
  match r.fn with
  | 0x00 => .need (r.d == 0 && r.a == 0 && r.b == 0) (.ok (.sys r.g))
  | 0x01 => .need (r.d == 0 && r.a == 0 && r.b == 0) (.ok (.tret r.g))
  | 0x02 => .need (r.d == 0 && r.a == 0 && r.b == 0) (.ok (.brk r.g))
  | 0x03 => .need (r.d == 0 && r.a == 0 && r.b == 0) (.ok (.wfi r.g))
  | f => .noFn f 0x3F

/-- OP 0x0D: threads (03 R63). -/
def decR13 (r : LayR) : Dec :=
  match r.fn with
  | 0x00 => .ok (.spawn r.g r.d r.a r.b)
  | 0x01 => .need (r.b == 0) (.ok (.migrate r.g r.d r.a))
  | 0x02 => .need (r.d == 0 && r.a == 0 && r.b == 0) (.ok (.yield r.g))
  | 0x03 => .need (r.d == 0 && r.a == 0 && r.b == 0) (.ok (.exit r.g))
  | 0x04 => .need (r.b == 0) (.ok (.doneWait r.g r.d r.a))
  | 0x05 => .need (r.b == 0) (.ok (.cancel r.g r.d r.a))
  | 0x08 => .need (r.d == 0 && r.b == 0) (.ok (.hbArr r.g r.a))
  | 0x09 => .need (r.d == 0 && r.b == 0) (.ok (.hbWait r.g r.a))
  | 0x0A => .need (r.d == 0 && r.b == 0) (.ok (.hbSync r.g r.a))
  | f => .noFn f 0x3F

/-- OP 0x0E: marks (03 R63). -/
def decR14 (r : LayR) : Dec :=
  match r.fn with
  | 0x00 => .ok (.rinv r.g r.d r.a r.b)
  | 0x01 => .need (r.b == 0) (.ok (.mkwait r.g r.d r.a))
  | 0x02 => .ok (.mkget r.g r.d r.a r.b)
  | 0x03 => .ok (.mkgetT r.g r.d r.a r.b)
  | 0x04 => .need (predField r.d && r.b == 0) (.ok (.mktest r.g (lo3 r.d) r.a))
  | 0x05 => .need (r.d == 0 && r.a == 0 && r.b == 0) (.ok (.mkret r.g))
  | 0x06 => .need (r.d == 0 && r.b == 0) (.ok (.mkdrop r.g r.a))
  | f => .noFn f 0x3F

/-- OP 0x04: immediate arithmetic (03 R62). -/
def decI4 (r : LayI) : Dec :=
  match r.fn with
  | 0x00 => .ok (.addi r.d r.a r.imm)
  | 0x01 => .ok (.andi r.d r.a r.imm)
  | 0x02 => .ok (.ori r.d r.a r.imm)
  | 0x03 => .ok (.xori r.d r.a r.imm)
  | 0x04 => .need (decide (r.imm.toNat < 64)) (.ok (.slli r.d r.a (r.imm.setWidth 6)))
  | 0x05 => .need (decide (r.imm.toNat < 64)) (.ok (.srli r.d r.a (r.imm.setWidth 6)))
  | 0x06 => .need (decide (r.imm.toNat < 64)) (.ok (.srai r.d r.a (r.imm.setWidth 6)))
  | f => .noFn f 0x7

/-- OP 0x01 of the X layout: divide and bit fields (03 R64). -/
def decX1 (r : LayX) : Dec :=
  match r.fn with
  | 0x00 => .need (r.c == 0 && r.imm == 0 && r.spare == 0) (.ok (.div r.g r.d r.a r.b r.la r.ru))
  | 0x01 => .need (r.c == 0 && r.imm == 0 && r.spare == 0) (.ok (.divn r.g r.d r.a r.b r.la r.ru))
  | 0x02 => .need (r.c == 0 && r.imm == 0 && r.spare == 0) (.ok (.rem r.g r.d r.a r.b r.la r.ru))
  | 0x03 => .need (r.c == 0 && r.imm == 0 && r.spare == 0) (.ok (.remn r.g r.d r.a r.b r.la r.ru))
  | 0x04 => .need (r.b == 0 && r.c == 0 && r.la == 0 && r.spare == 0 && decide (r.imm.toNat < 4096)) (.ok (.bfext r.g r.d r.a (BitVec.ofNat 6 r.imm.toNat) (BitVec.ofNat 6 (r.imm.toNat / 64)) r.ru))
  | 0x05 => .need (r.b == 0 && r.c == 0 && r.la == 0 && r.spare == 0 && decide (r.imm.toNat < 4096)) (.ok (.bfextN r.g r.d r.a (BitVec.ofNat 6 r.imm.toNat) (BitVec.ofNat 6 (r.imm.toNat / 64)) r.ru))
  | 0x06 => .need (r.b == 0 && r.c == 0 && r.la == 0 && r.spare == 0 && decide (r.imm.toNat < 4096)) (.ok (.bfins r.g r.d r.a (BitVec.ofNat 6 r.imm.toNat) (BitVec.ofNat 6 (r.imm.toNat / 64)) r.ru))
  | f => .noFn f 0xFF

/-- OP 0x02 of the X layout: the X encodings of the R-layout integer forms (03 R65). -/
def decX2 (r : LayX) : Dec :=
  match r.fn with
  | 0x00 => .need (r.c == 0 && r.la == 0 && r.imm == 0 && r.spare == 0) (.ok (.addX r.g r.d r.a r.b r.ru))
  | 0x01 => .need (r.c == 0 && r.la == 0 && r.imm == 0 && r.spare == 0) (.ok (.subX r.g r.d r.a r.b r.ru))
  | 0x02 => .need (r.c == 0 && r.la == 0 && r.imm == 0 && r.spare == 0) (.ok (.andX r.g r.d r.a r.b r.ru))
  | 0x03 => .need (r.c == 0 && r.la == 0 && r.imm == 0 && r.spare == 0) (.ok (.orX r.g r.d r.a r.b r.ru))
  | 0x04 => .need (r.c == 0 && r.la == 0 && r.imm == 0 && r.spare == 0) (.ok (.xorX r.g r.d r.a r.b r.ru))
  | 0x05 => .need (r.c == 0 && r.la == 0 && r.imm == 0 && r.spare == 0) (.ok (.andnX r.g r.d r.a r.b r.ru))
  | 0x06 => .need (r.c == 0 && r.la == 0 && r.imm == 0 && r.spare == 0) (.ok (.ornX r.g r.d r.a r.b r.ru))
  | 0x07 => .need (r.c == 0 && r.la == 0 && r.imm == 0 && r.spare == 0) (.ok (.xnorX r.g r.d r.a r.b r.ru))
  | 0x08 => .need (r.c == 0 && r.la == 0 && r.imm == 0 && r.spare == 0) (.ok (.sllX r.g r.d r.a r.b r.ru))
  | 0x09 => .need (r.c == 0 && r.la == 0 && r.imm == 0 && r.spare == 0) (.ok (.srlX r.g r.d r.a r.b r.ru))
  | 0x0A => .need (r.c == 0 && r.la == 0 && r.imm == 0 && r.spare == 0) (.ok (.sraX r.g r.d r.a r.b r.ru))
  | 0x0B => .need (r.c == 0 && r.la == 0 && r.imm == 0 && r.spare == 0) (.ok (.rolX r.g r.d r.a r.b r.ru))
  | 0x0C => .need (r.c == 0 && r.la == 0 && r.imm == 0 && r.spare == 0) (.ok (.rorX r.g r.d r.a r.b r.ru))
  | 0x0D => .need (r.c == 0 && r.la == 0 && r.imm == 0 && r.spare == 0) (.ok (.minX r.g r.d r.a r.b r.ru))
  | 0x0E => .need (r.c == 0 && r.la == 0 && r.imm == 0 && r.spare == 0) (.ok (.maxX r.g r.d r.a r.b r.ru))
  | 0x0F => .need (r.c == 0 && r.la == 0 && r.imm == 0 && r.spare == 0) (.ok (.minnX r.g r.d r.a r.b r.ru))
  | 0x10 => .need (r.c == 0 && r.la == 0 && r.imm == 0 && r.spare == 0) (.ok (.maxnX r.g r.d r.a r.b r.ru))
  | 0x14 => .need (r.c == 0 && r.la == 0 && r.imm == 0 && r.spare == 0) (.ok (.leaX 0 r.g r.d r.a r.b r.ru))
  | 0x15 => .need (r.c == 0 && r.la == 0 && r.imm == 0 && r.spare == 0) (.ok (.leaX 1 r.g r.d r.a r.b r.ru))
  | 0x16 => .need (r.c == 0 && r.la == 0 && r.imm == 0 && r.spare == 0) (.ok (.leaX 2 r.g r.d r.a r.b r.ru))
  | 0x17 => .need (r.c == 0 && r.la == 0 && r.imm == 0 && r.spare == 0) (.ok (.leaX 3 r.g r.d r.a r.b r.ru))
  | 0x40 => .need (r.c == 0 && r.la == 0 && r.imm == 0 && r.spare == 0) (.ok (.mulX r.g r.d r.a r.b r.ru))
  | 0x41 => .need (r.c == 0 && r.la == 0 && r.imm == 0 && r.spare == 0) (.ok (.mulhX r.g r.d r.a r.b r.ru))
  | 0x42 => .need (r.c == 0 && r.la == 0 && r.imm == 0 && r.spare == 0) (.ok (.mulhnX r.g r.d r.a r.b r.ru))
  | 0x48 => .need (r.b == 0 && r.c == 0 && r.la == 0 && r.imm == 0 && r.spare == 0) (.ok (.clzX r.g r.d r.a r.ru))
  | 0x49 => .need (r.b == 0 && r.c == 0 && r.la == 0 && r.imm == 0 && r.spare == 0) (.ok (.ctzX r.g r.d r.a r.ru))
  | 0x4A => .need (r.b == 0 && r.c == 0 && r.la == 0 && r.imm == 0 && r.spare == 0) (.ok (.popcX r.g r.d r.a r.ru))
  | 0x4B => .need (r.b == 0 && r.c == 0 && r.la == 0 && r.imm == 0 && r.spare == 0) (.ok (.brevX r.g r.d r.a r.ru))
  | 0x4C => .need (r.b == 0 && r.c == 0 && r.la == 0 && r.imm == 0 && r.spare == 0) (.ok (.bswapX r.g r.d r.a r.ru))
  | 0x80 => .need (predField r.d && r.c == 0 && r.la == 0 && r.imm == 0 && r.spare == 0) (.ok (.cmpX .eq r.g (lo3 r.d) r.a r.b r.ru))
  | 0x81 => .need (predField r.d && r.c == 0 && r.la == 0 && r.imm == 0 && r.spare == 0) (.ok (.cmpX .ne r.g (lo3 r.d) r.a r.b r.ru))
  | 0x82 => .need (predField r.d && r.c == 0 && r.la == 0 && r.imm == 0 && r.spare == 0) (.ok (.cmpX .lt r.g (lo3 r.d) r.a r.b r.ru))
  | 0x83 => .need (predField r.d && r.c == 0 && r.la == 0 && r.imm == 0 && r.spare == 0) (.ok (.cmpX .ge r.g (lo3 r.d) r.a r.b r.ru))
  | 0x84 => .need (predField r.d && r.c == 0 && r.la == 0 && r.imm == 0 && r.spare == 0) (.ok (.cmpX .lo r.g (lo3 r.d) r.a r.b r.ru))
  | 0x85 => .need (predField r.d && r.c == 0 && r.la == 0 && r.imm == 0 && r.spare == 0) (.ok (.cmpX .hs r.g (lo3 r.d) r.a r.b r.ru))
  | 0x88 => .need (r.c == 0 && r.la == 0 && r.imm == 0 && r.spare == 0) (.ok (.selX r.g r.d r.a r.b 0 r.ru))
  | 0x89 => .need (r.c == 0 && r.la == 0 && r.imm == 0 && r.spare == 0) (.ok (.selX r.g r.d r.a r.b 1 r.ru))
  | 0x8A => .need (r.c == 0 && r.la == 0 && r.imm == 0 && r.spare == 0) (.ok (.selX r.g r.d r.a r.b 2 r.ru))
  | 0x8B => .need (r.c == 0 && r.la == 0 && r.imm == 0 && r.spare == 0) (.ok (.selX r.g r.d r.a r.b 3 r.ru))
  | 0x8C => .need (r.c == 0 && r.la == 0 && r.imm == 0 && r.spare == 0) (.ok (.selX r.g r.d r.a r.b 4 r.ru))
  | 0x8D => .need (r.c == 0 && r.la == 0 && r.imm == 0 && r.spare == 0) (.ok (.selX r.g r.d r.a r.b 5 r.ru))
  | 0x8E => .need (r.c == 0 && r.la == 0 && r.imm == 0 && r.spare == 0) (.ok (.selX r.g r.d r.a r.b 6 r.ru))
  | 0x8F => .need (r.c == 0 && r.la == 0 && r.imm == 0 && r.spare == 0) (.ok (.selX r.g r.d r.a r.b 7 r.ru))
  | 0x90 => .need (predField r.d && predField r.a && predField r.b && r.c == 0 && r.la == 0 && r.imm == 0 && r.spare == 0) (.ok (.pandX r.g (lo3 r.d) (lo3 r.a) (lo3 r.b) r.ru))
  | 0x91 => .need (predField r.d && predField r.a && predField r.b && r.c == 0 && r.la == 0 && r.imm == 0 && r.spare == 0) (.ok (.porX r.g (lo3 r.d) (lo3 r.a) (lo3 r.b) r.ru))
  | 0x92 => .need (predField r.d && predField r.a && predField r.b && r.c == 0 && r.la == 0 && r.imm == 0 && r.spare == 0) (.ok (.pxorX r.g (lo3 r.d) (lo3 r.a) (lo3 r.b) r.ru))
  | 0x93 => .need (predField r.d && predField r.a && r.b == 0 && r.c == 0 && r.la == 0 && r.imm == 0 && r.spare == 0) (.ok (.pnotX r.g (lo3 r.d) (lo3 r.a) r.ru))
  | 0x94 => .need (r.a == 0 && r.b == 0 && r.c == 0 && r.la == 0 && r.imm == 0 && r.spare == 0) (.ok (.pgetX r.g r.d r.ru))
  | 0x95 => .need (r.d == 0 && r.b == 0 && r.c == 0 && r.la == 0 && r.imm == 0 && r.spare == 0) (.ok (.psetX r.g r.a r.ru))
  | f => .noFn f 0xFF

/-- OP 0x03 of the L layout (03 R64). -/
def decL3 (r : LayL) : Dec :=
  match r.fn with
  | 0x00 => .need (r.a == 0) (.ok (.li r.g r.d r.imm))
  | 0x01 => .need (r.a == 0) (.ok (.liZ r.g r.d r.imm))
  | 0x02 => .ok (.liHi r.g r.d r.a r.imm)
  | 0x10 => .need (r.d == 0 && r.a == 0) (.ok (.jmp r.g r.imm))
  | 0x11 => .need (r.d == 0 && r.a == 0) (.ok (.callL r.g r.imm))
  | f => .noFn f 0x7FF

/-- OP 0x05: lane operations (03 R68). -/
def decX5 (r : LayX) : Dec :=
  match r.fn with
  | 0x00 => .need (predField r.c && r.la == 0 && r.imm == 0 && r.spare == 0) (.ok (.lxch false r.g r.d r.a r.b (lo3 r.c) r.ru))
  | 0x01 => .need (predField r.c && r.la == 0 && r.imm == 0 && r.spare == 0) (.ok (.lxch true r.g r.d r.a r.b (lo3 r.c) r.ru))
  | 0x10 => .need (predField r.c && r.la == 0 && r.imm == 0 && r.spare == 0) (.ok (.lsel false r.g r.d r.a r.b (lo3 r.c) r.ru))
  | 0x11 => .need (predField r.c && r.la == 0 && r.imm == 0 && r.spare == 0) (.ok (.lsel true r.g r.d r.a r.b (lo3 r.c) r.ru))
  | 0x20 => .need (predField r.a && predField r.c && r.la == 0 && r.imm == 0 && r.spare == 0) (.ok (.lvote r.g r.d (lo3 r.a) r.b (lo3 r.c) r.ru))
  | 0x30 => .need (predField r.c && r.la == 0 && r.imm == 0 && r.spare == 0) (.ok (.lred .add r.g r.d r.a r.b (lo3 r.c) r.ru))
  | 0x31 => .need (predField r.c && r.la == 0 && r.imm == 0 && r.spare == 0) (.ok (.lred .min r.g r.d r.a r.b (lo3 r.c) r.ru))
  | 0x32 => .need (predField r.c && r.la == 0 && r.imm == 0 && r.spare == 0) (.ok (.lred .max r.g r.d r.a r.b (lo3 r.c) r.ru))
  | 0x33 => .need (predField r.c && r.la == 0 && r.imm == 0 && r.spare == 0) (.ok (.lred .minn r.g r.d r.a r.b (lo3 r.c) r.ru))
  | 0x34 => .need (predField r.c && r.la == 0 && r.imm == 0 && r.spare == 0) (.ok (.lred .maxn r.g r.d r.a r.b (lo3 r.c) r.ru))
  | 0x35 => .need (predField r.c && r.la == 0 && r.imm == 0 && r.spare == 0) (.ok (.lred .and r.g r.d r.a r.b (lo3 r.c) r.ru))
  | 0x36 => .need (predField r.c && r.la == 0 && r.imm == 0 && r.spare == 0) (.ok (.lred .or r.g r.d r.a r.b (lo3 r.c) r.ru))
  | 0x37 => .need (predField r.c && r.la == 0 && r.imm == 0 && r.spare == 0) (.ok (.lred .xor r.g r.d r.a r.b (lo3 r.c) r.ru))
  | 0x38 => .need (predField r.c && r.la == 0 && r.imm == 0 && r.spare == 0) (.ok (.lred .fadd r.g r.d r.a r.b (lo3 r.c) r.ru))
  | 0x39 => .need (predField r.c && r.la == 0 && r.imm == 0 && r.spare == 0) (.ok (.lred .fmin r.g r.d r.a r.b (lo3 r.c) r.ru))
  | 0x3A => .need (predField r.c && r.la == 0 && r.imm == 0 && r.spare == 0) (.ok (.lred .fmax r.g r.d r.a r.b (lo3 r.c) r.ru))
  | f => .noFn f 0xFF

/-- U and J layouts (03 R60). -/
def decU (r : LayU) : Dec := if r.op = 5 then .ok (.lih r.d r.imm) else .ok (.lpc r.d r.imm)

/-- Branches of the J layout (03 R60). -/
def decJ (r : LayJ) : Dec := if r.op = 7 then .ok (.br r.g r.off) else .ok (.call r.g r.off)

/-- OP 0x0A: `loop` (03 R62). -/
def decI10 (r : LayI) : Dec :=
  if r.fn = 0 then .need (r.d == 0) (.ok (.loop r.a r.imm)) else .noFn r.fn 7

/-- OP 0x0B: control-register access; an unlisted number, or a write to a read-only one, is reserved (03 R62, 07 R158). -/
def decI11 (r : LayI) : Dec :=
  match r.fn with
  | 0 => .listed (csrListed r.imm) (.need (r.a == 0) (.ok (.csrr r.d r.imm)))
  | 1 => .listed (csrWritable r.imm) (.need (r.d == 0) (.ok (.csrw r.a r.imm)))
  | 2 => .listed (csrWritable r.imm) (.need (r.d == 0) (.ok (.csrs r.a r.imm)))
  | 3 => .listed (csrWritable r.imm) (.need (r.d == 0) (.ok (.csrc r.a r.imm)))
  | f => .noFn f 7

/-- OP 0x0F: `wcnt` and the fences (03 R62). -/
def decI15 (r : LayI) : Dec :=
  match r.fn with
  | 0 => .sub (CntClass.ofCode (r.imm.toNat % 4)) fun k =>
      .need (r.d == 0 && r.a == 0 && decide (r.imm.toNat < 256)) (.ok (.wcnt k (BitVec.ofNat 6 (r.imm.toNat / 4))))
  | 1 => .sub (Scope.ofCode (r.imm.toNat % 8)) fun s =>
      .need (r.d == 0 && r.a == 0 && decide (r.imm.toNat < 8)) (.ok (.fence s))
  | 2 => .sub (Scope.ofCode (r.imm.toNat % 8)) fun s =>
      .need (r.d == 0 && r.a == 0 && decide (r.imm.toNat < 8)) (.ok (.fenceSc s))
  | f => .noFn f 7

/-- M layout: the operation is the OP alone (03 R60). -/
def decM (r : LayM) : Dec :=
  match r.op with
  | 0x10 => .ok (.ld .s8 r.g r.d r.a r.off r.la)
  | 0x11 => .ok (.ld .z8 r.g r.d r.a r.off r.la)
  | 0x12 => .ok (.ld .s16 r.g r.d r.a r.off r.la)
  | 0x13 => .ok (.ld .z16 r.g r.d r.a r.off r.la)
  | 0x14 => .ok (.ld .s32 r.g r.d r.a r.off r.la)
  | 0x15 => .ok (.ld .z32 r.g r.d r.a r.off r.la)
  | 0x16 => .ok (.ld .d64 r.g r.d r.a r.off r.la)
  | 0x17 => .ok (.ldfF32 r.g r.d r.a r.off r.la)
  | 0x18 => .ok (.st .b8 r.g r.d r.a r.off r.la)
  | 0x19 => .ok (.st .b16 r.g r.d r.a r.off r.la)
  | 0x1A => .ok (.st .b32 r.g r.d r.a r.off r.la)
  | 0x1B => .ok (.st .b64 r.g r.d r.a r.off r.la)
  | 0x1C => .ok (.ldf64 r.g r.d r.a r.off r.la)
  | 0x1D => .ok (.stfF32 r.g r.d r.a r.off r.la)
  | 0x1E => .ok (.stf64 r.g r.d r.a r.off r.la)
  | 0x20 => .ok (.lds .s8 r.g r.d r.a r.off r.la)
  | 0x21 => .ok (.lds .z8 r.g r.d r.a r.off r.la)
  | 0x22 => .ok (.lds .s16 r.g r.d r.a r.off r.la)
  | 0x23 => .ok (.lds .z16 r.g r.d r.a r.off r.la)
  | 0x24 => .ok (.lds .s32 r.g r.d r.a r.off r.la)
  | 0x25 => .ok (.lds .z32 r.g r.d r.a r.off r.la)
  | 0x26 => .ok (.lds .d64 r.g r.d r.a r.off r.la)
  | 0x28 => .ok (.sts .b8 r.g r.d r.a r.off r.la)
  | 0x29 => .ok (.sts .b16 r.g r.d r.a r.off r.la)
  | 0x2A => .ok (.sts .b32 r.g r.d r.a r.off r.la)
  | 0x2B => .ok (.sts .b64 r.g r.d r.a r.off r.la)
  | _ => .ill .reserved

/-- The order and scope fields of a memory access and the fields its form leaves unused (03 R69, R70). -/
def decAcc (r : LayX) (okOrd : Order → Bool) (anyScope useB useD : Bool) (k : Order → Scope → Instr) : Dec :=
  .sub (Order.ofCode (r.c.toNat / 8)) fun o =>
  .sub (Scope.ofCode (r.c.toNat % 8)) fun s =>
  .listed (okOrd o) (.need ((anyScope || plainScopeOk o s) && (useB || r.b == 0) && (useD || r.d == 0) && r.spare == 0)
    (.ok (k o s)))

/-- OP 0x06: memory (03 R69, R70). R69 does not list `cas` among the forms whose field B may be other than 0, while 09 R188 and R202 read the
comparand from it: every B is a `cas` (DESIGN CHOICE, log entry 114). -/
def decX6 (r : LayX) : Dec :=
  match r.fn / 16 with
  | 0 => .sub (LdSize.ofCode (r.fn % 16)) fun z =>
      decAcc r Order.onLoad false false true fun o s => .ldX z r.g r.d r.a r.imm o s r.la r.ru
  | 1 => .sub (StSize.ofCode (r.fn % 16)) fun z =>
      decAcc r Order.onStore false false true fun o s => .stX z r.g r.d r.a r.imm o s r.la r.ru
  | 2 =>
    match r.fn % 16 with
    | 0 => decAcc r Order.onLoad false false true fun o s => .ldfX false r.g r.d r.a r.imm o s r.la r.ru
    | 1 => decAcc r Order.onLoad false false true fun o s => .ldfX true r.g r.d r.a r.imm o s r.la r.ru
    | 2 => decAcc r Order.onStore false false true fun o s => .stfX false r.g r.d r.a r.imm o s r.la r.ru
    | 3 => decAcc r Order.onStore false false true fun o s => .stfX true r.g r.d r.a r.imm o s r.la r.ru
    | _ => .ill .reserved
  | 3 => .sub (LdSize.ofCode (r.fn % 16)) fun z =>
      decAcc r Order.onLoad false false true fun o s => .ldsX z r.g r.d r.a r.imm o s r.la r.ru
  | 4 => .sub (StSize.ofCode (r.fn % 16)) fun z =>
      decAcc r Order.onStore false false true fun o s => .stsX z r.g r.d r.a r.imm o s r.la r.ru
  | 5 => .sub (LdSize.ofCode (r.fn % 16)) fun z =>
      decAcc r Order.onLoad false true true fun o s => .ldx z r.g r.d r.a r.b r.imm o s r.la r.ru
  | 6 => .sub (StSize.ofCode (r.fn % 16)) fun z =>
      decAcc r Order.onStore false true true fun o s => .stx z r.g r.d r.a r.b r.imm o s r.la r.ru
  | 7 => .sub (LdSize.ofCode (r.fn % 16)) fun z =>
      decAcc r Order.onLoad false false true fun o s => .ldnc z r.g r.d r.a r.imm o s r.la r.ru
  | 8 => .sub (AmoOp.ofCode (r.fn % 16)) fun p =>
      decAcc r (fun _ => true) true true true fun o s => .amo p true r.g r.d r.a r.b r.imm o s r.la r.ru
  | 9 => .sub (AmoOp.ofCode (r.fn % 16)) fun p =>
      decAcc r (fun _ => true) true true true fun o s => .amo p false r.g r.d r.a r.b r.imm o s r.la r.ru
  | 10 =>
    match r.fn % 16 with
    | 0 => decAcc r (fun _ => true) true true true fun o s => .cas false r.g r.d r.a r.b r.imm o s r.la r.ru
    | 1 => decAcc r (fun _ => true) true true true fun o s => .cas true r.g r.d r.a r.b r.imm o s r.la r.ru
    | _ => .ill .reserved
  | 11 => .sub (RedOp.ofCode (r.fn % 16)) fun p =>
      decAcc r Order.onStore true true false fun o s => .red p true r.g r.a r.b r.imm o s r.la r.ru
  | 12 => .sub (RedOp.ofCode (r.fn % 16)) fun p =>
      decAcc r Order.onStore true true false fun o s => .red p false r.g r.a r.b r.imm o s r.la r.ru
  | 13 =>
    match r.fn % 16 with
    | 0 => decAcc r (· == .plain) false false false fun _ _ => .pfc r.g r.a r.imm r.la r.ru
    | 1 => decAcc r Order.onLoad true true true fun o s => .wmon r.g r.d r.a r.b r.imm o s r.la r.ru
    | _ => .ill .reserved
  | _ => .noFn r.fn 0xFF

/-- The type, the rounding sub-field and the unused fields of a float operation (03 R67, 11 R227 to R229). -/
def decF (r : LayX) (okTy : FType → Bool) (rounds useB useC ll signed : Bool) (k : FType → RM → Instr) : Dec :=
  .sub (FType.ofCode (r.fn % 8)) fun ty =>
  .listed (okTy ty) (.sub (RM.ofCode (r.imm.toNat % 8)) fun rm =>
    .need ((rounds || rm == .rne) && (useB || r.b == 0) && (useC || r.c == 0) && (ll || r.la == 0) && r.spare == 0 &&
        (if signed then r.imm.toNat / 8 % 4 == 0 && decide (r.imm.toNat < 64) else decide (r.imm.toNat < 8)))
      (.ok (k ty rm)))

/-- `fcmp` (03 R67). -/
def decFcmp (r : LayX) : Dec :=
  .sub (FType.ofCode (r.fn % 8)) fun ty =>
  .listed ty.scalar (.sub (RM.ofCode (r.imm.toNat % 8)) fun rm =>
    .sub (FcmpOp.ofCode (r.imm.toNat / 32 % 8)) fun c =>
    .need (rm == .rne && predField r.d && r.c == 0 && r.la == 0 && r.spare == 0 && r.imm.toNat / 8 % 4 == 0 &&
        decide (r.imm.toNat < 256))
      (.ok (.fcmp c ty r.g (lo3 r.d) r.a r.b r.ru)))

/-- `fcvt` (03 R67, 11 R241, R242). -/
def decFcvt (r : LayX) : Dec :=
  .sub (FType.ofCode (r.fn % 8)) fun ty =>
  .sub (RM.ofCode (r.imm.toNat % 8)) fun rm =>
  .sub (FType.ofCode (r.imm.toNat / 32 % 8)) fun src =>
  .listed (!fcvtReserved ty src rm)
    (.need (fcvtFields ty src r.b (BitVec.ofNat 2 (r.imm.toNat / 8)) && r.c == 0 && r.la == 0 && r.spare == 0 &&
        decide (r.imm.toNat < 256))
      (.ok (.fcvt ty src r.g r.d r.a r.b (BitVec.ofNat 2 (r.imm.toNat / 8)) rm r.ru)))

/-- A slot function of a pair word: all ones is unassigned, any other value outside the table reserved (03 R59, R71).
The A slot is looked at first (DEDUCED: 02 R49 does not order the two; log entry 12). -/
def slotFn {α : Type} (o : Option α) (fn : Nat) (k : α → Dec) : Dec :=
  match o with
  | some v => k v
  | none => .noFn fn 0x3F

/-- OP 0x08: pair words (02 R38, R45; 03 R71). -/
def decP (r : LayP) : Dec :=
  slotFn (AOp.ofCode r.afn) r.afn fun aop => slotFn (DOp.ofCode r.dfn) r.dfn fun dop =>
    .need (r.spare == 0 && r.top == 0 && aop.fieldsOk r.ad r.aa r.ab && dop.fieldsOk r.dd r.da r.db r.dc &&
        !pairShares aop r.ad dop r.dd)
      (.ok (.pairWord r.g aop r.ad r.aa r.ab r.aru dop r.dd r.da r.db r.dc))

/-- OP 0x04: float (03 R67). -/
def decX4 (r : LayX) : Dec :=
  match r.fn / 8 with
  | 0 => decF r FType.arith true true false false false fun ty rm => .fadd ty r.g r.d r.a r.b rm r.ru
  | 1 => decF r FType.arith true true false false false fun ty rm => .fsub ty r.g r.d r.a r.b rm r.ru
  | 2 => decF r FType.arith true true false false false fun ty rm => .fmul ty r.g r.d r.a r.b rm r.ru
  | 3 => decF r FType.arith true true true false false fun ty rm => .fma ty r.g r.d r.a r.b r.c rm r.ru
  | 4 => decF r FType.arith true true true false false fun ty rm => .fms ty r.g r.d r.a r.b r.c rm r.ru
  | 5 => decF r FType.arith true true true false false fun ty rm => .fnma ty r.g r.d r.a r.b r.c rm r.ru
  | 6 => decF r FType.scalar true true false true false fun ty rm => .fdiv ty r.g r.d r.a r.b rm r.la r.ru
  | 7 => decF r FType.scalar true false false true false fun ty rm => .fsqrt ty r.g r.d r.a rm r.la r.ru
  | 8 => decF r FType.approx true false false true false fun ty rm => .frcp ty r.g r.d r.a rm r.la r.ru
  | 9 => decF r FType.approx true false false true false fun ty rm => .frsqrt ty r.g r.d r.a rm r.la r.ru
  | 10 => decF r FType.arith false true false false false fun ty _ => .fmin ty r.g r.d r.a r.b r.ru
  | 11 => decF r FType.arith false true false false false fun ty _ => .fmax ty r.g r.d r.a r.b r.ru
  | 12 => decF r FType.arith false false false false false fun ty _ => .fabs ty r.g r.d r.a r.ru
  | 13 => decF r FType.arith false false false false false fun ty _ => .fneg ty r.g r.d r.a r.ru
  | 14 => decF r FType.arith false true false false false fun ty _ => .fcpsgn ty r.g r.d r.a r.b r.ru
  | 15 => decFcmp r
  | 16 => decF r FType.scalar false false false false false fun ty _ => .fclass ty r.g r.d r.a r.ru
  | 17 => decF r FType.scalar true false false false false fun ty rm => .fround ty r.g r.d r.a rm r.ru
  | 18 => decF r FType.approx false false false true false fun ty _ => .fexp2 ty r.g r.d r.a r.la r.ru
  | 19 => decF r FType.approx false false false true false fun ty _ => .flog2 ty r.g r.d r.a r.la r.ru
  | 20 => decF r FType.approx false false false true false fun ty _ => .fsinp ty r.g r.d r.a r.la r.ru
  | 21 => decF r FType.approx false false false true false fun ty _ => .fcosp ty r.g r.d r.a r.la r.ru
  | 22 => decF r FType.approx true false false true false fun ty rm => .frdx ty r.g r.d r.a rm r.la r.ru
  | 23 => decF r FType.dot true true true false false fun ty rm => .fdot2 ty r.g r.d r.a r.b r.c rm r.ru
  | 24 => decFcvt r
  | 25 => decF r FType.scalar true false false false true fun ty rm => .fcvtX ty (r.imm.toNat / 32 % 2 == 1) r.g r.d r.a rm r.ru
  | 26 => decF r FType.scalar true false false false true fun ty rm => .xcvtF ty (r.imm.toNat / 32 % 2 == 1) r.g r.d r.a rm r.ru
  | 27 => decF r FType.move false false false false false fun ty _ => .fmvX ty r.g r.d r.a r.ru
  | 28 => decF r FType.move false false false false false fun ty _ => .fmvF ty r.g r.d r.a r.ru
  | _ => .noFn r.fn 0xFF

/-- OP 0x09: copy and barrier objects (03 R72, 06 R136, R140). -/
def decE9 (r : LayX) : Dec :=
  match r.fn with
  | 0x00 => .need (r.spare == 0 && r.imm.toNat % 16 == 0)
      (.ok (.cpyIn r.g r.d r.a r.b r.c (BitVec.ofNat 13 (r.imm.toNat / 16)) r.la r.ru))
  | 0x01 => .need (r.spare == 0)
      (.ok (.cpyMc r.g r.d r.a r.b r.c (BitVec.ofNat 4 r.imm.toNat) (BitVec.ofNat 13 (r.imm.toNat / 16)) r.la r.ru))
  | 0x02 => .need (r.spare == 0 && decide (r.imm.toNat < 65536))
      (.ok (.cpyGat r.g r.d r.a r.b r.c (BitVec.ofNat 16 r.imm.toNat) r.la r.ru))
  | 0x08 => .need (r.spare == 0 && r.imm.toNat % 16 == 0)
      (.ok (.cpyOut .thread r.g r.d r.a r.b r.c (BitVec.ofNat 13 (r.imm.toNat / 16)) r.la r.ru))
  | 0x09 => .need (r.spare == 0 && r.imm.toNat % 16 == 0)
      (.ok (.cpyOut .wg r.g r.d r.a r.b r.c (BitVec.ofNat 13 (r.imm.toNat / 16)) r.la r.ru))
  | 0x0A => .need (r.spare == 0 && r.imm.toNat % 16 == 0)
      (.ok (.cpyOut .cl r.g r.d r.a r.b r.c (BitVec.ofNat 13 (r.imm.toNat / 16)) r.la r.ru))
  | 0x0B => .need (r.spare == 0 && r.imm.toNat % 16 == 0)
      (.ok (.cpyOut .die r.g r.d r.a r.b r.c (BitVec.ofNat 13 (r.imm.toNat / 16)) r.la r.ru))
  | 0x0C => .need (r.spare == 0 && r.imm.toNat % 16 == 0)
      (.ok (.cpyOut .pkg r.g r.d r.a r.b r.c (BitVec.ofNat 13 (r.imm.toNat / 16)) r.la r.ru))
  | 0x0D => .need (r.spare == 0 && r.imm.toNat % 16 == 0)
      (.ok (.cpyOut .sys r.g r.d r.a r.b r.c (BitVec.ofNat 13 (r.imm.toNat / 16)) r.la r.ru))
  | 0x10 => .need (r.spare == 0 && decide (r.imm.toNat < 65536))
      (.ok (.cpySct .thread r.g r.d r.a r.b r.c (BitVec.ofNat 16 r.imm.toNat) r.la r.ru))
  | 0x11 => .need (r.spare == 0 && decide (r.imm.toNat < 65536))
      (.ok (.cpySct .wg r.g r.d r.a r.b r.c (BitVec.ofNat 16 r.imm.toNat) r.la r.ru))
  | 0x12 => .need (r.spare == 0 && decide (r.imm.toNat < 65536))
      (.ok (.cpySct .cl r.g r.d r.a r.b r.c (BitVec.ofNat 16 r.imm.toNat) r.la r.ru))
  | 0x13 => .need (r.spare == 0 && decide (r.imm.toNat < 65536))
      (.ok (.cpySct .die r.g r.d r.a r.b r.c (BitVec.ofNat 16 r.imm.toNat) r.la r.ru))
  | 0x14 => .need (r.spare == 0 && decide (r.imm.toNat < 65536))
      (.ok (.cpySct .pkg r.g r.d r.a r.b r.c (BitVec.ofNat 16 r.imm.toNat) r.la r.ru))
  | 0x15 => .need (r.spare == 0 && decide (r.imm.toNat < 65536))
      (.ok (.cpySct .sys r.g r.d r.a r.b r.c (BitVec.ofNat 16 r.imm.toNat) r.la r.ru))
  | 0x20 => .need (r.spare == 0 && r.imm == 0)
      (.ok (.barInit r.g r.d r.a r.b r.c r.la r.ru))
  | 0x21 => .need (r.spare == 0 && r.b == 0 && r.c == 0 && r.imm == 0)
      (.ok (.barArr r.g r.d r.a r.la r.ru))
  | 0x22 => .listed (!(r.imm.toNat % 4 == 3)) (.need (r.spare == 0 && r.c == 0 && decide (r.imm.toNat < 4))
      (.ok (.barExp (r.imm.toNat % 2 == 1) (r.imm.toNat / 2 % 2 == 1) r.g r.d r.a r.b r.la r.ru)))
  | 0x23 => .need (r.spare == 0 && r.c == 0 && decide (r.imm.toNat < 2) && (!(r.imm.toNat % 2 == 1) || r.b == 0))
      (.ok (.barWait (r.imm.toNat % 2 == 1) r.g r.d r.a r.b r.la r.ru))
  | 0x24 => .need (r.spare == 0 && r.c == 0 && decide (r.imm.toNat < 2) && (!(r.imm.toNat % 2 == 1) || r.b == 0))
      (.ok (.barTest (r.imm.toNat % 2 == 1) r.g r.d r.a r.b r.la r.ru))
  | 0x25 => .need (r.spare == 0 && r.b == 0 && r.c == 0 && r.imm == 0)
      (.ok (.barInval r.g r.d r.a r.la r.ru))
  | f => .noFn f 0xFF

/-- OP 0x0A: matrix (03 R72, 12 R258). -/
def decE10 (r : LayX) : Dec :=
  match r.fn with
  | 0x00 => .need (r.spare == 0 && r.a == 0 && r.b == 0 && r.c == 0 && decide (r.imm.toNat < 16))
      (.ok (.mcfg r.g r.d (BitVec.ofNat 2 r.imm.toNat) (BitVec.ofNat 2 (r.imm.toNat / 4)) r.la r.ru))
  | 0x01 => .need (r.spare == 0 && predField r.c && r.imm == 0)
      (.ok (.mclaim r.g r.d r.a r.b (lo3 r.c) r.la r.ru))
  | 0x02 => .need (r.spare == 0 && predField r.c && r.imm == 0)
      (.ok (.mclaimW r.g r.d r.a r.b (lo3 r.c) r.la r.ru))
  | 0x03 => .need (r.spare == 0 && r.c == 0 && r.imm == 0)
      (.ok (.mrel r.g r.d r.a r.b r.la r.ru))
  | 0x04 => .need (r.spare == 0 && decide (r.imm.toNat < 2))
      (.ok (.mload (r.imm.toNat % 2 == 1) r.g r.d r.a r.b r.c r.la r.ru))
  | 0x05 => .need (r.spare == 0 && decide (r.imm.toNat < 2))
      (.ok (.mloadT (r.imm.toNat % 2 == 1) r.g r.d r.a r.b r.c r.la r.ru))
  | 0x06 => .need (r.spare == 0 && r.c == 0 && decide (r.imm.toNat < 2))
      (.ok (.mgath (r.imm.toNat % 2 == 1) r.g r.d r.a r.b r.la r.ru))
  | 0x10 => .need (r.spare == 0 && r.b == 0 && r.c == 0 && r.imm == 0)
      (.ok (.mmul .bf16 r.g r.d r.a r.la r.ru))
  | 0x11 => .need (r.spare == 0 && r.b == 0 && r.c == 0 && r.imm == 0)
      (.ok (.mmul .f16 r.g r.d r.a r.la r.ru))
  | 0x12 => .need (r.spare == 0 && r.b == 0 && r.c == 0 && r.imm == 0)
      (.ok (.mmul .a8 r.g r.d r.a r.la r.ru))
  | 0x13 => .need (r.spare == 0 && r.b == 0 && r.c == 0 && r.imm == 0)
      (.ok (.mmul .i8 r.g r.d r.a r.la r.ru))
  | 0x14 => .need (r.spare == 0 && decide (r.imm.toNat < 4))
      (.ok (.msacc (r.imm.toNat % 2 == 1) (r.imm.toNat / 2 % 2 == 1) r.g r.d r.a r.b r.c r.la r.ru))
  | 0x18 => .need (r.spare == 0 && r.c == 0 && decide (r.imm.toNat < 512))
      (.ok (.mstore (BitVec.ofNat 3 r.imm.toNat) (BitVec.ofNat 2 (r.imm.toNat / 8)) (BitVec.ofNat 3 (r.imm.toNat / 32)) (r.imm.toNat / 256 % 2 == 1) r.g r.d r.a r.b r.la r.ru))
  | 0x19 => .need (r.spare == 0 && r.c == 0 && r.imm == 0)
      (.ok (.mzero r.g r.d r.a r.b r.la r.ru))
  | 0x1A => .need (r.spare == 0 && r.b == 0 && r.c == 0 && r.imm == 0)
      (.ok (.mstat r.g r.d r.a r.la r.ru))
  | 0x1B => .need (r.spare == 0 && r.c == 0 && r.imm == 0)
      (.ok (.macld r.g r.d r.a r.b r.la r.ru))
  | f => .noFn f 0xFF

/-- OP 0x0B: coherence and memory management (03 R72). -/
def decE11 (r : LayX) : Dec :=
  match r.fn with
  | 0x00 => .sub (WScope.ofCode (r.imm.toNat % 8)) fun s => .need (r.spare == 0 && decide (r.imm.toNat < 16) && (r.imm.toNat / 8 % 2 == 1 || r.b == 0))
      (.ok (.cwFlush s (r.imm.toNat / 8 % 2 == 1) r.g r.d r.a r.b r.c r.la r.ru))
  | 0x01 => .sub (WScope.ofCode (r.imm.toNat % 8)) fun s => .need (r.spare == 0 && decide (r.imm.toNat < 16) && (r.imm.toNat / 8 % 2 == 1 || r.b == 0))
      (.ok (.cwInval s (r.imm.toNat / 8 % 2 == 1) r.g r.d r.a r.b r.c r.la r.ru))
  | 0x08 => if r.imm.toNat % 2 = 0 then .need (r.spare == 0 && r.imm == 0) (.ok (.pgMig r.g r.d r.a r.b r.c r.la r.ru))
    else .need (r.spare == 0 && r.b == 0 && r.c == 0 && r.imm == 1) (.ok (.pgMigRel r.g r.d r.a r.la r.ru))
  | 0x09 => .need (r.spare == 0 && r.imm == 0)
      (.ok (.pgSplit r.g r.d r.a r.b r.c r.la r.ru))
  | 0x0A => .listed (!(r.imm.toNat % 4 == 0)) (.need (r.spare == 0 && r.c == 0 && decide (r.imm.toNat < 4))
      (.ok (.pgColl (BitVec.ofNat 2 r.imm.toNat) r.g r.d r.a r.b r.la r.ru)))
  | 0x10 => .sub (WScope.ofCode (r.imm.toNat % 8)) fun s => .sub (TlbKind.ofCode (r.imm.toNat / 8 % 8)) fun k => .need (r.spare == 0 && decide (r.imm.toNat < 64) && k.fieldsOk r.a r.b r.c)
      (.ok (.tlbInv k s r.g r.d r.a r.b r.c r.la r.ru))
  | f => .noFn f 0xFF

/-- Decoding of a 32-bit instruction whose OP is assigned (03 R60). -/
def decode32 (w : Nat) : Dec :=
  match fld w 1 6 with
  | 0x01 => .guarded (LayR.unpack w).g (decR1 (LayR.unpack w))
  | 0x02 => .guarded (LayR.unpack w).g (decR2 (LayR.unpack w))
  | 0x03 => .guarded (LayR.unpack w).g (decR3 (LayR.unpack w))
  | 0x04 => decI4 (LayI.unpack w)
  | 0x05 | 0x06 => decU (LayU.unpack w)
  | 0x07 | 0x08 => .guarded (LayJ.unpack w).g (decJ (LayJ.unpack w))
  | 0x09 => .guarded (LayR.unpack w).g (decR9 (LayR.unpack w))
  | 0x0A => decI10 (LayI.unpack w)
  | 0x0B => decI11 (LayI.unpack w)
  | 0x0C => .guarded (LayR.unpack w).g (decR12 (LayR.unpack w))
  | 0x0D => .guarded (LayR.unpack w).g (decR13 (LayR.unpack w))
  | 0x0E => .guarded (LayR.unpack w).g (decR14 (LayR.unpack w))
  | 0x0F => decI15 (LayI.unpack w)
  | _ => .guarded (LayM.unpack w).g (decM (LayM.unpack w))

/-- Decoding of a 64-bit instruction whose OP is assigned (03 R64). -/
def decode64 (w : Nat) : Dec :=
  match fld w 1 6 with
  | 0x01 => .guarded (LayX.unpack w).g (decX1 (LayX.unpack w))
  | 0x02 => .guarded (LayX.unpack w).g (decX2 (LayX.unpack w))
  | 0x03 => .guarded (LayL.unpack w).g (decL3 (LayL.unpack w))
  | 0x04 => .guarded (LayX.unpack w).g (decX4 (LayX.unpack w))
  | 0x05 => .guarded (LayX.unpack w).g (decX5 (LayX.unpack w))
  | 0x06 => .guarded (LayX.unpack w).g (decX6 (LayX.unpack w))
  | 0x08 => .guarded (LayP.unpack w).g (decP (LayP.unpack w))
  | 0x09 => .guarded (LayX.unpack w).g (decE9 (LayX.unpack w))
  | 0x0A => .guarded (LayX.unpack w).g (decE10 (LayX.unpack w))
  | 0x0B => .guarded (LayX.unpack w).g (decE11 (LayX.unpack w))
  | _ => .ill .reserved

/-- Steps 2 to 5 of R49 on two parcels, the first in bits [31:0]. `odd` says that the address is 4 modulo 8. The
unassigned OP values come before length and alignment (02 R49, 03 R59). -/
def decode (odd : Bool) (w : Nat) : Dec :=
  if fld w 1 6 = 0 ∨ fld w 1 6 = 0x3F then .ill .unassigned
  else if w % 2 = 0 then decode32 (w % 2 ^ 32)
  else if odd then .ill .form
  else decode64 (w % 2 ^ 64)

/-- Length in bytes, from bit 0 of the first parcel (02 R30). -/
def parcelLen (w : Nat) : Nat := if w % 2 = 0 then 4 else 8

/-! ### Encoding -/

/-- Length in bytes and parcels of an instruction, the first parcel in bits [31:0]; (0, 0) for a step without an
encoding. -/
def encode : Instr → Nat × Nat
  | .add g d a b => (4, LayR.pack ⟨1, g, d, a, b, 0⟩)
  | .sub g d a b => (4, LayR.pack ⟨1, g, d, a, b, 1⟩)
  | .and g d a b => (4, LayR.pack ⟨1, g, d, a, b, 2⟩)
  | .or g d a b => (4, LayR.pack ⟨1, g, d, a, b, 3⟩)
  | .xor g d a b => (4, LayR.pack ⟨1, g, d, a, b, 4⟩)
  | .andn g d a b => (4, LayR.pack ⟨1, g, d, a, b, 5⟩)
  | .orn g d a b => (4, LayR.pack ⟨1, g, d, a, b, 6⟩)
  | .xnor g d a b => (4, LayR.pack ⟨1, g, d, a, b, 7⟩)
  | .sll g d a b => (4, LayR.pack ⟨1, g, d, a, b, 8⟩)
  | .srl g d a b => (4, LayR.pack ⟨1, g, d, a, b, 9⟩)
  | .sra g d a b => (4, LayR.pack ⟨1, g, d, a, b, 10⟩)
  | .rol g d a b => (4, LayR.pack ⟨1, g, d, a, b, 11⟩)
  | .ror g d a b => (4, LayR.pack ⟨1, g, d, a, b, 12⟩)
  | .min g d a b => (4, LayR.pack ⟨1, g, d, a, b, 13⟩)
  | .max g d a b => (4, LayR.pack ⟨1, g, d, a, b, 14⟩)
  | .minn g d a b => (4, LayR.pack ⟨1, g, d, a, b, 15⟩)
  | .maxn g d a b => (4, LayR.pack ⟨1, g, d, a, b, 16⟩)
  | .lea k g d a b => (4, LayR.pack ⟨1, g, d, a, b, 20 + k.toNat⟩)
  | .mul g d a b => (4, LayR.pack ⟨2, g, d, a, b, 0⟩)
  | .mulh g d a b => (4, LayR.pack ⟨2, g, d, a, b, 1⟩)
  | .mulhn g d a b => (4, LayR.pack ⟨2, g, d, a, b, 2⟩)
  | .clz g d a => (4, LayR.pack ⟨2, g, d, a, 0, 8⟩)
  | .ctz g d a => (4, LayR.pack ⟨2, g, d, a, 0, 9⟩)
  | .popc g d a => (4, LayR.pack ⟨2, g, d, a, 0, 10⟩)
  | .brev g d a => (4, LayR.pack ⟨2, g, d, a, 0, 11⟩)
  | .bswap g d a => (4, LayR.pack ⟨2, g, d, a, 0, 12⟩)
  | .cmp c g d a b => (4, LayR.pack ⟨3, g, up5 d, a, b, c.code⟩)
  | .sel g d a b p => (4, LayR.pack ⟨3, g, d, a, b, 8 + p.toNat⟩)
  | .pand g d a b => (4, LayR.pack ⟨3, g, up5 d, up5 a, up5 b, 16⟩)
  | .por g d a b => (4, LayR.pack ⟨3, g, up5 d, up5 a, up5 b, 17⟩)
  | .pxor g d a b => (4, LayR.pack ⟨3, g, up5 d, up5 a, up5 b, 18⟩)
  | .pnot g d a => (4, LayR.pack ⟨3, g, up5 d, up5 a, 0, 19⟩)
  | .pget g d => (4, LayR.pack ⟨3, g, d, 0, 0, 20⟩)
  | .pset g a => (4, LayR.pack ⟨3, g, 0, a, 0, 21⟩)
  | .addX g d a b ru => (8, LayX.pack ⟨2, g, d, a, b, 0, 0, 0, ru, 0, 0⟩)
  | .subX g d a b ru => (8, LayX.pack ⟨2, g, d, a, b, 0, 0, 0, ru, 1, 0⟩)
  | .andX g d a b ru => (8, LayX.pack ⟨2, g, d, a, b, 0, 0, 0, ru, 2, 0⟩)
  | .orX g d a b ru => (8, LayX.pack ⟨2, g, d, a, b, 0, 0, 0, ru, 3, 0⟩)
  | .xorX g d a b ru => (8, LayX.pack ⟨2, g, d, a, b, 0, 0, 0, ru, 4, 0⟩)
  | .andnX g d a b ru => (8, LayX.pack ⟨2, g, d, a, b, 0, 0, 0, ru, 5, 0⟩)
  | .ornX g d a b ru => (8, LayX.pack ⟨2, g, d, a, b, 0, 0, 0, ru, 6, 0⟩)
  | .xnorX g d a b ru => (8, LayX.pack ⟨2, g, d, a, b, 0, 0, 0, ru, 7, 0⟩)
  | .sllX g d a b ru => (8, LayX.pack ⟨2, g, d, a, b, 0, 0, 0, ru, 8, 0⟩)
  | .srlX g d a b ru => (8, LayX.pack ⟨2, g, d, a, b, 0, 0, 0, ru, 9, 0⟩)
  | .sraX g d a b ru => (8, LayX.pack ⟨2, g, d, a, b, 0, 0, 0, ru, 10, 0⟩)
  | .rolX g d a b ru => (8, LayX.pack ⟨2, g, d, a, b, 0, 0, 0, ru, 11, 0⟩)
  | .rorX g d a b ru => (8, LayX.pack ⟨2, g, d, a, b, 0, 0, 0, ru, 12, 0⟩)
  | .minX g d a b ru => (8, LayX.pack ⟨2, g, d, a, b, 0, 0, 0, ru, 13, 0⟩)
  | .maxX g d a b ru => (8, LayX.pack ⟨2, g, d, a, b, 0, 0, 0, ru, 14, 0⟩)
  | .minnX g d a b ru => (8, LayX.pack ⟨2, g, d, a, b, 0, 0, 0, ru, 15, 0⟩)
  | .maxnX g d a b ru => (8, LayX.pack ⟨2, g, d, a, b, 0, 0, 0, ru, 16, 0⟩)
  | .leaX k g d a b ru => (8, LayX.pack ⟨2, g, d, a, b, 0, 0, 0, ru, 20 + k.toNat, 0⟩)
  | .mulX g d a b ru => (8, LayX.pack ⟨2, g, d, a, b, 0, 0, 0, ru, 64, 0⟩)
  | .mulhX g d a b ru => (8, LayX.pack ⟨2, g, d, a, b, 0, 0, 0, ru, 65, 0⟩)
  | .mulhnX g d a b ru => (8, LayX.pack ⟨2, g, d, a, b, 0, 0, 0, ru, 66, 0⟩)
  | .clzX g d a ru => (8, LayX.pack ⟨2, g, d, a, 0, 0, 0, 0, ru, 72, 0⟩)
  | .ctzX g d a ru => (8, LayX.pack ⟨2, g, d, a, 0, 0, 0, 0, ru, 73, 0⟩)
  | .popcX g d a ru => (8, LayX.pack ⟨2, g, d, a, 0, 0, 0, 0, ru, 74, 0⟩)
  | .brevX g d a ru => (8, LayX.pack ⟨2, g, d, a, 0, 0, 0, 0, ru, 75, 0⟩)
  | .bswapX g d a ru => (8, LayX.pack ⟨2, g, d, a, 0, 0, 0, 0, ru, 76, 0⟩)
  | .cmpX c g d a b ru => (8, LayX.pack ⟨2, g, up5 d, a, b, 0, 0, 0, ru, 128 + c.code, 0⟩)
  | .selX g d a b p ru => (8, LayX.pack ⟨2, g, d, a, b, 0, 0, 0, ru, 136 + p.toNat, 0⟩)
  | .pandX g d a b ru => (8, LayX.pack ⟨2, g, up5 d, up5 a, up5 b, 0, 0, 0, ru, 144, 0⟩)
  | .porX g d a b ru => (8, LayX.pack ⟨2, g, up5 d, up5 a, up5 b, 0, 0, 0, ru, 145, 0⟩)
  | .pxorX g d a b ru => (8, LayX.pack ⟨2, g, up5 d, up5 a, up5 b, 0, 0, 0, ru, 146, 0⟩)
  | .pnotX g d a ru => (8, LayX.pack ⟨2, g, up5 d, up5 a, 0, 0, 0, 0, ru, 147, 0⟩)
  | .pgetX g d ru => (8, LayX.pack ⟨2, g, d, 0, 0, 0, 0, 0, ru, 148, 0⟩)
  | .psetX g a ru => (8, LayX.pack ⟨2, g, 0, a, 0, 0, 0, 0, ru, 149, 0⟩)
  | .addi d a imm => (4, LayI.pack ⟨4, d, a, imm, 0⟩)
  | .andi d a imm => (4, LayI.pack ⟨4, d, a, imm, 1⟩)
  | .ori d a imm => (4, LayI.pack ⟨4, d, a, imm, 2⟩)
  | .xori d a imm => (4, LayI.pack ⟨4, d, a, imm, 3⟩)
  | .slli d a sh => (4, LayI.pack ⟨4, d, a, sh.setWidth 12, 4⟩)
  | .srli d a sh => (4, LayI.pack ⟨4, d, a, sh.setWidth 12, 5⟩)
  | .srai d a sh => (4, LayI.pack ⟨4, d, a, sh.setWidth 12, 6⟩)
  | .lih d imm => (4, LayU.pack ⟨5, d, imm⟩)
  | .lpc d imm => (4, LayU.pack ⟨6, d, imm⟩)
  | .li g d imm => (8, LayL.pack ⟨3, g, d, 0, 0, imm⟩)
  | .liZ g d imm => (8, LayL.pack ⟨3, g, d, 0, 1, imm⟩)
  | .liHi g d a imm => (8, LayL.pack ⟨3, g, d, a, 2, imm⟩)
  | .div g d a b la ru => (8, LayX.pack ⟨1, g, d, a, b, 0, 0, la, ru, 0, 0⟩)
  | .divn g d a b la ru => (8, LayX.pack ⟨1, g, d, a, b, 0, 0, la, ru, 1, 0⟩)
  | .rem g d a b la ru => (8, LayX.pack ⟨1, g, d, a, b, 0, 0, la, ru, 2, 0⟩)
  | .remn g d a b la ru => (8, LayX.pack ⟨1, g, d, a, b, 0, 0, la, ru, 3, 0⟩)
  | .bfext g d a pos len ru => (8, LayX.pack ⟨1, g, d, a, 0, 0, 0, 0, ru, 4, BitVec.ofNat 17 (pos.toNat + len.toNat * 64)⟩)
  | .bfextN g d a pos len ru => (8, LayX.pack ⟨1, g, d, a, 0, 0, 0, 0, ru, 5, BitVec.ofNat 17 (pos.toNat + len.toNat * 64)⟩)
  | .bfins g d a pos len ru => (8, LayX.pack ⟨1, g, d, a, 0, 0, 0, 0, ru, 6, BitVec.ofNat 17 (pos.toNat + len.toNat * 64)⟩)
  | .ld z g d a off la => (4, LayM.pack ⟨z.code + 0x10, g, d, a, off, la⟩)
  | .ldX z g d a off o s la ru => (8, LayX.pack ⟨6, g, d, a, 0, BitVec.ofNat 5 (s.code + o.code * 8), 0, la, ru, z.code, off⟩)
  | .st z g d a off la => (4, LayM.pack ⟨z.code + 0x18, g, d, a, off, la⟩)
  | .stX z g d a off o s la ru => (8, LayX.pack ⟨6, g, d, a, 0, BitVec.ofNat 5 (s.code + o.code * 8), 0, la, ru, 0x10 + z.code, off⟩)
  | .ldfF32 g d a off la => (4, LayM.pack ⟨0x17, g, d, a, off, la⟩)
  | .ldf64 g d a off la => (4, LayM.pack ⟨0x1C, g, d, a, off, la⟩)
  | .ldfX dbl g d a off o s la ru => (8, LayX.pack ⟨6, g, d, a, 0, BitVec.ofNat 5 (s.code + o.code * 8), 0, la, ru, 0x20 + dbl.toNat, off⟩)
  | .stfF32 g d a off la => (4, LayM.pack ⟨0x1D, g, d, a, off, la⟩)
  | .stf64 g d a off la => (4, LayM.pack ⟨0x1E, g, d, a, off, la⟩)
  | .stfX dbl g d a off o s la ru => (8, LayX.pack ⟨6, g, d, a, 0, BitVec.ofNat 5 (s.code + o.code * 8), 0, la, ru, 0x22 + dbl.toNat, off⟩)
  | .lds z g d a off la => (4, LayM.pack ⟨z.code + 0x20, g, d, a, off, la⟩)
  | .ldsX z g d a off o s la ru => (8, LayX.pack ⟨6, g, d, a, 0, BitVec.ofNat 5 (s.code + o.code * 8), 0, la, ru, 0x30 + z.code, off⟩)
  | .sts z g d a off la => (4, LayM.pack ⟨z.code + 0x28, g, d, a, off, la⟩)
  | .stsX z g d a off o s la ru => (8, LayX.pack ⟨6, g, d, a, 0, BitVec.ofNat 5 (s.code + o.code * 8), 0, la, ru, 0x40 + z.code, off⟩)
  | .ldx z g d a b off o s la ru => (8, LayX.pack ⟨6, g, d, a, b, BitVec.ofNat 5 (s.code + o.code * 8), 0, la, ru, 0x50 + z.code, off⟩)
  | .stx z g d a b off o s la ru => (8, LayX.pack ⟨6, g, d, a, b, BitVec.ofNat 5 (s.code + o.code * 8), 0, la, ru, 0x60 + z.code, off⟩)
  | .ldnc z g d a off o s la ru => (8, LayX.pack ⟨6, g, d, a, 0, BitVec.ofNat 5 (s.code + o.code * 8), 0, la, ru, 0x70 + z.code, off⟩)
  | .amo op wide g d a b off o s la ru => (8, LayX.pack ⟨6, g, d, a, b, BitVec.ofNat 5 (s.code + o.code * 8), 0, la, ru, (if wide then 0x80 else 0x90) + op.code, off⟩)
  | .cas wide g d a b off o s la ru => (8, LayX.pack ⟨6, g, d, a, b, BitVec.ofNat 5 (s.code + o.code * 8), 0, la, ru, 0xA0 + wide.toNat, off⟩)
  | .red op wide g a b off o s la ru => (8, LayX.pack ⟨6, g, 0, a, b, BitVec.ofNat 5 (s.code + o.code * 8), 0, la, ru, (if wide then 0xB0 else 0xC0) + op.code, off⟩)
  | .pfc g a off la ru => (8, LayX.pack ⟨6, g, 0, a, 0, 0, 0, la, ru, 0xD0, off⟩)
  | .wmon g d a b off o s la ru => (8, LayX.pack ⟨6, g, d, a, b, BitVec.ofNat 5 (s.code + o.code * 8), 0, la, ru, 0xD1, off⟩)
  | .wmonWake _ => (0, 0)
  | .wmonTimeout _ => (0, 0)
  | .fence s => (4, LayI.pack ⟨15, 0, 0, BitVec.ofNat 12 s.code, 1⟩)
  | .fenceSc s => (4, LayI.pack ⟨15, 0, 0, BitVec.ofNat 12 s.code, 2⟩)
  | .fadd ty g d a b rm ru => (8, LayX.pack ⟨4, g, d, a, b, 0, 0, 0, ru, 0 + ty.code, BitVec.ofNat 17 (rm.code)⟩)
  | .fsub ty g d a b rm ru => (8, LayX.pack ⟨4, g, d, a, b, 0, 0, 0, ru, 8 + ty.code, BitVec.ofNat 17 (rm.code)⟩)
  | .fmul ty g d a b rm ru => (8, LayX.pack ⟨4, g, d, a, b, 0, 0, 0, ru, 16 + ty.code, BitVec.ofNat 17 (rm.code)⟩)
  | .fma ty g d a b c rm ru => (8, LayX.pack ⟨4, g, d, a, b, c, 0, 0, ru, 24 + ty.code, BitVec.ofNat 17 (rm.code)⟩)
  | .fms ty g d a b c rm ru => (8, LayX.pack ⟨4, g, d, a, b, c, 0, 0, ru, 32 + ty.code, BitVec.ofNat 17 (rm.code)⟩)
  | .fnma ty g d a b c rm ru => (8, LayX.pack ⟨4, g, d, a, b, c, 0, 0, ru, 40 + ty.code, BitVec.ofNat 17 (rm.code)⟩)
  | .fdiv ty g d a b rm la ru => (8, LayX.pack ⟨4, g, d, a, b, 0, 0, la, ru, 48 + ty.code, BitVec.ofNat 17 (rm.code)⟩)
  | .fsqrt ty g d a rm la ru => (8, LayX.pack ⟨4, g, d, a, 0, 0, 0, la, ru, 56 + ty.code, BitVec.ofNat 17 (rm.code)⟩)
  | .frcp ty g d a rm la ru => (8, LayX.pack ⟨4, g, d, a, 0, 0, 0, la, ru, 64 + ty.code, BitVec.ofNat 17 (rm.code)⟩)
  | .frsqrt ty g d a rm la ru => (8, LayX.pack ⟨4, g, d, a, 0, 0, 0, la, ru, 72 + ty.code, BitVec.ofNat 17 (rm.code)⟩)
  | .fmin ty g d a b ru => (8, LayX.pack ⟨4, g, d, a, b, 0, 0, 0, ru, 80 + ty.code, 0⟩)
  | .fmax ty g d a b ru => (8, LayX.pack ⟨4, g, d, a, b, 0, 0, 0, ru, 88 + ty.code, 0⟩)
  | .fabs ty g d a ru => (8, LayX.pack ⟨4, g, d, a, 0, 0, 0, 0, ru, 96 + ty.code, 0⟩)
  | .fneg ty g d a ru => (8, LayX.pack ⟨4, g, d, a, 0, 0, 0, 0, ru, 104 + ty.code, 0⟩)
  | .fcpsgn ty g d a b ru => (8, LayX.pack ⟨4, g, d, a, b, 0, 0, 0, ru, 112 + ty.code, 0⟩)
  | .fcmp c ty g d a b ru => (8, LayX.pack ⟨4, g, up5 d, a, b, 0, 0, 0, ru, 120 + ty.code, BitVec.ofNat 17 (c.code * 32)⟩)
  | .fclass ty g d a ru => (8, LayX.pack ⟨4, g, d, a, 0, 0, 0, 0, ru, 128 + ty.code, 0⟩)
  | .fround ty g d a rm ru => (8, LayX.pack ⟨4, g, d, a, 0, 0, 0, 0, ru, 136 + ty.code, BitVec.ofNat 17 (rm.code)⟩)
  | .fexp2 ty g d a la ru => (8, LayX.pack ⟨4, g, d, a, 0, 0, 0, la, ru, 144 + ty.code, 0⟩)
  | .flog2 ty g d a la ru => (8, LayX.pack ⟨4, g, d, a, 0, 0, 0, la, ru, 152 + ty.code, 0⟩)
  | .fsinp ty g d a la ru => (8, LayX.pack ⟨4, g, d, a, 0, 0, 0, la, ru, 160 + ty.code, 0⟩)
  | .fcosp ty g d a la ru => (8, LayX.pack ⟨4, g, d, a, 0, 0, 0, la, ru, 168 + ty.code, 0⟩)
  | .frdx ty g d a rm la ru => (8, LayX.pack ⟨4, g, d, a, 0, 0, 0, la, ru, 176 + ty.code, BitVec.ofNat 17 (rm.code)⟩)
  | .fdot2 ty g d a b c rm ru => (8, LayX.pack ⟨4, g, d, a, b, c, 0, 0, ru, 184 + ty.code, BitVec.ofNat 17 (rm.code)⟩)
  | .fcvt ty src g d a b ovp rm ru => (8, LayX.pack ⟨4, g, d, a, b, 0, 0, 0, ru, 192 + ty.code, BitVec.ofNat 17 (rm.code + ovp.toNat * 8 + src.code * 32)⟩)
  | .fcvtX ty sgn g d a rm ru => (8, LayX.pack ⟨4, g, d, a, 0, 0, 0, 0, ru, 200 + ty.code, BitVec.ofNat 17 (rm.code + sgn.toNat * 32)⟩)
  | .xcvtF ty sgn g d a rm ru => (8, LayX.pack ⟨4, g, d, a, 0, 0, 0, 0, ru, 208 + ty.code, BitVec.ofNat 17 (rm.code + sgn.toNat * 32)⟩)
  | .fmvX ty g d a ru => (8, LayX.pack ⟨4, g, d, a, 0, 0, 0, 0, ru, 216 + ty.code, 0⟩)
  | .fmvF ty g d a ru => (8, LayX.pack ⟨4, g, d, a, 0, 0, 0, 0, ru, 224 + ty.code, 0⟩)
  | .lxch isF g d a b pc ru => (8, LayX.pack ⟨5, g, d, a, b, up5 pc, 0, 0, ru, 0x00 + isF.toNat, 0⟩)
  | .lsel isF g d a b pc ru => (8, LayX.pack ⟨5, g, d, a, b, up5 pc, 0, 0, ru, 0x10 + isF.toNat, 0⟩)
  | .lvote g d a b pc ru => (8, LayX.pack ⟨5, g, d, up5 a, b, up5 pc, 0, 0, ru, 0x20, 0⟩)
  | .lred op g d a b pc ru => (8, LayX.pack ⟨5, g, d, a, b, up5 pc, 0, 0, ru, 0x30 + op.code, 0⟩)
  | .laneWaitCycle _ => (0, 0)
  | .pairWord g aop ad aa ab aru dop dd da db dc => (8, LayP.pack ⟨8, g, aop.code, ad, aa, ab, aru, 0, dop.code, dd, da, db, dc, 0⟩)
  | .br g off => (4, LayJ.pack ⟨7, g, off⟩)
  | .call g off => (4, LayJ.pack ⟨8, g, off⟩)
  | .callL g imm => (8, LayL.pack ⟨3, g, 0, 0, 17, imm⟩)
  | .jmp g imm => (8, LayL.pack ⟨3, g, 0, 0, 16, imm⟩)
  | .jr g a => (4, LayR.pack ⟨9, g, 0, a, 0, 1⟩)
  | .callr g d a => (4, LayR.pack ⟨9, g, d, a, 0, 2⟩)
  | .ret g => (4, LayR.pack ⟨9, g, 0, 0, 0, 3⟩)
  | .loop a len => (4, LayI.pack ⟨10, 0, a, len, 0⟩)
  | .loopx g => (4, LayR.pack ⟨9, g, 0, 0, 0, 4⟩)
  | .nop g => (4, LayR.pack ⟨9, g, 0, 0, 0, 0⟩)
  | .spawn g d a b => (4, LayR.pack ⟨13, g, d, a, b, 0⟩)
  | .migrate g d a => (4, LayR.pack ⟨13, g, d, a, 0, 1⟩)
  | .yield g => (4, LayR.pack ⟨13, g, 0, 0, 0, 2⟩)
  | .exit g => (4, LayR.pack ⟨13, g, 0, 0, 0, 3⟩)
  | .doneWait g d a => (4, LayR.pack ⟨13, g, d, a, 0, 4⟩)
  | .cancel g d a => (4, LayR.pack ⟨13, g, d, a, 0, 5⟩)
  | .hbArr g a => (4, LayR.pack ⟨13, g, 0, a, 0, 8⟩)
  | .hbWait g a => (4, LayR.pack ⟨13, g, 0, a, 0, 9⟩)
  | .hbSync g a => (4, LayR.pack ⟨13, g, 0, a, 0, 10⟩)
  | .rinv g d a b => (4, LayR.pack ⟨14, g, d, a, b, 0⟩)
  | .mkwait g d a => (4, LayR.pack ⟨14, g, d, a, 0, 1⟩)
  | .mkget g d a b => (4, LayR.pack ⟨14, g, d, a, b, 2⟩)
  | .mkgetT g d a b => (4, LayR.pack ⟨14, g, d, a, b, 3⟩)
  | .mktest g d a => (4, LayR.pack ⟨14, g, up5 d, a, 0, 4⟩)
  | .mkret g => (4, LayR.pack ⟨14, g, 0, 0, 0, 5⟩)
  | .mkdrop g a => (4, LayR.pack ⟨14, g, 0, a, 0, 6⟩)
  | .sys g => (4, LayR.pack ⟨12, g, 0, 0, 0, 0⟩)
  | .tret g => (4, LayR.pack ⟨12, g, 0, 0, 0, 1⟩)
  | .brk g => (4, LayR.pack ⟨12, g, 0, 0, 0, 2⟩)
  | .wfi g => (4, LayR.pack ⟨12, g, 0, 0, 0, 3⟩)
  | .wfiTimeout _ => (0, 0)
  | .csrr d n => (4, LayI.pack ⟨11, d, 0, n, 0⟩)
  | .csrw a n => (4, LayI.pack ⟨11, 0, a, n, 1⟩)
  | .csrs a n => (4, LayI.pack ⟨11, 0, a, n, 2⟩)
  | .csrc a n => (4, LayI.pack ⟨11, 0, a, n, 3⟩)
  | .interrupt _ => (0, 0)
  | .signal _ => (0, 0)
  | .registerWriteback _ _ => (0, 0)
  | .cpyIn g d a b c ss la ru => (8, LayX.pack ⟨9, g, d, a, b, c, 0, la, ru, 0x00, BitVec.ofNat 17 (ss.toNat * 16)⟩)
  | .cpyMc g d a b c dmask ss la ru => (8, LayX.pack ⟨9, g, d, a, b, c, 0, la, ru, 0x01, BitVec.ofNat 17 (dmask.toNat + ss.toNat * 16)⟩)
  | .cpyGat g d a b c mo la ru => (8, LayX.pack ⟨9, g, d, a, b, c, 0, la, ru, 0x02, BitVec.ofNat 17 (mo.toNat)⟩)
  | .cpyOut s g d a b c ss la ru => (8, LayX.pack ⟨9, g, d, a, b, c, 0, la, ru, 0x08 + s.code, BitVec.ofNat 17 (ss.toNat * 16)⟩)
  | .cpySct s g d a b c mo la ru => (8, LayX.pack ⟨9, g, d, a, b, c, 0, la, ru, 0x10 + s.code, BitVec.ofNat 17 (mo.toNat)⟩)
  | .copyAccept _ => (0, 0)
  | .copyChunkLand _ => (0, 0)
  | .copyChunkRead _ => (0, 0)
  | .copyComplete _ => (0, 0)
  | .barInit g d a b c la ru => (8, LayX.pack ⟨9, g, d, a, b, c, 0, la, ru, 0x20, 0⟩)
  | .barArr g d a la ru => (8, LayX.pack ⟨9, g, d, a, 0, 0, 0, la, ru, 0x21, 0⟩)
  | .barExp arr out g d a b la ru => (8, LayX.pack ⟨9, g, d, a, b, 0, 0, la, ru, 0x22, BitVec.ofNat 17 (arr.toNat + out.toNat * 2)⟩)
  | .barWait out g d a b la ru => (8, LayX.pack ⟨9, g, d, a, b, 0, 0, la, ru, 0x23, BitVec.ofNat 17 (out.toNat)⟩)
  | .barTest out g d a b la ru => (8, LayX.pack ⟨9, g, d, a, b, 0, 0, la, ru, 0x24, BitVec.ofNat 17 (out.toNat)⟩)
  | .barInval g d a la ru => (8, LayX.pack ⟨9, g, d, a, 0, 0, 0, la, ru, 0x25, 0⟩)
  | .wcnt k n => (4, LayI.pack ⟨15, 0, 0, BitVec.ofNat 12 (k.code + n.toNat * 4), 0⟩)
  | .mcfg g d rows cols la ru => (8, LayX.pack ⟨10, g, d, 0, 0, 0, 0, la, ru, 0x00, BitVec.ofNat 17 (rows.toNat + cols.toNat * 4)⟩)
  | .mcfgApply _ => (0, 0)
  | .mclaim g d a b pc la ru => (8, LayX.pack ⟨10, g, d, a, b, up5 pc, 0, la, ru, 0x01, 0⟩)
  | .mclaimW g d a b pc la ru => (8, LayX.pack ⟨10, g, d, a, b, up5 pc, 0, la, ru, 0x02, 0⟩)
  | .mclaimWGrant _ => (0, 0)
  | .claimDeadlock _ => (0, 0)
  | .mrel g d a b la ru => (8, LayX.pack ⟨10, g, d, a, b, 0, 0, la, ru, 0x03, 0⟩)
  | .mload e8 g d a b c la ru => (8, LayX.pack ⟨10, g, d, a, b, c, 0, la, ru, 0x04, BitVec.ofNat 17 (e8.toNat)⟩)
  | .mloadT e8 g d a b c la ru => (8, LayX.pack ⟨10, g, d, a, b, c, 0, la, ru, 0x05, BitVec.ofNat 17 (e8.toNat)⟩)
  | .mgath e8 g d a b la ru => (8, LayX.pack ⟨10, g, d, a, b, 0, 0, la, ru, 0x06, BitVec.ofNat 17 (e8.toNat)⟩)
  | .mmul f g d a la ru => (8, LayX.pack ⟨10, g, d, a, 0, 0, 0, la, ru, 0x10 + f.code, 0⟩)
  | .msacc i32 z g d a b c la ru => (8, LayX.pack ⟨10, g, d, a, b, c, 0, la, ru, 0x14, BitVec.ofNat 17 (i32.toNat + z.toNat * 2)⟩)
  | .mstore fmt ovp rm z g d a b la ru => (8, LayX.pack ⟨10, g, d, a, b, 0, 0, la, ru, 0x18, BitVec.ofNat 17 (fmt.toNat + ovp.toNat * 8 + rm.toNat * 32 + z.toNat * 256)⟩)
  | .mzero g d a b la ru => (8, LayX.pack ⟨10, g, d, a, b, 0, 0, la, ru, 0x19, 0⟩)
  | .mstat g d a la ru => (8, LayX.pack ⟨10, g, d, a, 0, 0, 0, la, ru, 0x1A, 0⟩)
  | .macld g d a b la ru => (8, LayX.pack ⟨10, g, d, a, b, 0, 0, la, ru, 0x1B, 0⟩)
  | .matrixPerform _ => (0, 0)
  | .enginePreempt _ _ => (0, 0)
  | .cwFlush s bar g d a b c la ru => (8, LayX.pack ⟨11, g, d, a, b, c, 0, la, ru, 0x0, BitVec.ofNat 17 (s.code + bar.toNat * 8)⟩)
  | .cwInval s bar g d a b c la ru => (8, LayX.pack ⟨11, g, d, a, b, c, 0, la, ru, 0x1, BitVec.ofNat 17 (s.code + bar.toNat * 8)⟩)
  | .cwWalkComplete _ => (0, 0)
  | .pgMig g d a b c la ru => (8, LayX.pack ⟨11, g, d, a, b, c, 0, la, ru, 0x08, 0⟩)
  | .pgMigLine _ => (0, 0)
  | .pgMigRel g d a la ru => (8, LayX.pack ⟨11, g, d, a, 0, 0, 0, la, ru, 0x08, 1⟩)
  | .pgSplit g d a b c la ru => (8, LayX.pack ⟨11, g, d, a, b, c, 0, la, ru, 0x09, 0⟩)
  | .pgSplitComplete _ => (0, 0)
  | .pgColl lvl g d a b la ru => (8, LayX.pack ⟨11, g, d, a, b, 0, 0, la, ru, 0x0A, BitVec.ofNat 17 (lvl.toNat)⟩)
  | .pgCollComplete _ => (0, 0)
  | .tlbInv k s g d a b c la ru => (8, LayX.pack ⟨11, g, d, a, b, c, 0, la, ru, 0x10, BitVec.ofNat 17 (s.code + k.code * 8)⟩)
  | .tlbInvComplete _ => (0, 0)
  | .getS _ _ => (0, 0)
  | .getX _ _ => (0, 0)
  | .upgrade _ _ => (0, 0)
  | .getU _ _ _ _ => (0, 0)
  | .atHome _ _ => (0, 0)
  | .putM _ _ => (0, 0)
  | .putO _ _ => (0, 0)
  | .putE _ _ => (0, 0)
  | .putU _ _ => (0, 0)
  | .privEvictReport _ _ => (0, 0)
  | .slabEvict _ _ => (0, 0)
  | .migrateSend _ => (0, 0)
  | .threadArrival _ => (0, 0)
  | .binTimer _ _ => (0, 0)
  | .keystoneBlockRequest _ _ => (0, 0)
  | .keystoneElection _ => (0, 0)
  | .workgroupPlace _ => (0, 0)
  | .arrivalQueueWrite _ => (0, 0)
  | .exitQueueWrite _ => (0, 0)
  | .rinvEnqueue _ => (0, 0)
  | .markResolve _ => (0, 0)
  | .markBreak _ => (0, 0)
  | .prqCmdIssue _ => (0, 0)
  | .workgroupStopped _ => (0, 0)
  | .saveCommit _ => (0, 0)
  | .drainDeadline _ => (0, 0)
  | .restoreStart _ => (0, 0)
  | .restoreComplete _ => (0, 0)
  | .governorSample _ => (0, 0)
  | .syntheticGroutSlot _ => (0, 0)
  | .shuntTrip _ => (0, 0)
  | .coursePwrNtReq _ => (0, 0)
  | .coursePwrBypReq _ _ => (0, 0)
  | .coursePwrOffReq _ => (0, 0)
  | .courseModeChange _ => (0, 0)
  | .quadrantOvercurrent _ _ => (0, 0)
  | .qstatClearOff _ _ => (0, 0)
  | .monSnap _ _ => (0, 0)
  | .monSample _ _ _ => (0, 0)
  | .unitDrain _ => (0, 0)
  | .unitOffline _ => (0, 0)
  | .unitOnline _ => (0, 0)
  | .unitRetire _ => (0, 0)
  | .firmwareUpdate _ _ => (0, 0)
  | .powerOn _ => (0, 0)
  | .frameReceive _ _ _ => (0, 0)
  | .frameTransmit _ _ _ => (0, 0)
  | .roceSend _ _ _ _ => (0, 0)
  | .roceSendImm _ _ _ _ => (0, 0)
  | .roceRdmaWrite _ _ _ _ _ _ => (0, 0)
  | .roceRdmaWriteImm _ _ _ _ _ _ => (0, 0)
  | .roceRdmaRead _ _ _ _ _ _ => (0, 0)
  | .roceReadResponse _ _ _ _ _ _ => (0, 0)
  | .roceAtomic _ _ _ => (0, 0)
  | .timeStep _ _ => (0, 0)
  | .flitReceive _ _ _ => (0, 0)
  | .linkPortDown _ _ => (0, 0)
  | .linkTimeout _ => (0, 0)
  | .ucieRetrainFail _ => (0, 0)
  | .idwCmdReplace _ => (0, 0)
  | .idwCmdRead _ => (0, 0)
  | .idwTableWrite _ _ => (0, 0)
  | .migProfWrite _ _ => (0, 0)
  | .exqCtlWrite _ _ => (0, 0)
  | .arqCtlWrite _ _ => (0, 0)
  | .ringCtlWrite _ _ _ => (0, 0)
  | .softSet _ _ => (0, 0)
  | .softClr _ _ => (0, 0)
  | .govCtlWrite _ _ => (0, 0)
  | .boostMaxWrite _ _ => (0, 0)
  | .controlRegisterWrite _ _ _ => (0, 0)
  | .silentEviction _ _ => (0, 0)
  | .timecmpReached _ => (0, 0)
  | .ethernetLinkChange _ _ _ => (0, 0)
  | .ucieFlitRetry _ _ => (0, 0)

/-- The parcels of an instruction as the words it is stored as, first parcel first. -/
def encodeParcels (i : Instr) : List (BitVec 32) :=
  match encode i with
  | (4, w) => [BitVec.ofNat 32 w]
  | (8, w) => [BitVec.ofNat 32 w, BitVec.ofNat 32 (w / 2 ^ 32)]
  | _ => []

/-- The instruction whose bits are `w`, numbered as the opcode table numbers them. -/
def decodeTableWord (_nbits w : Nat) : Option Instr :=
  match decode false w with
  | .ok i => some i
  | .ill _ => none

end Sys2Proof
end

