-- ==== Sys2Proof/Machine/Store.lean ====
section
/-!
DEFINITION. Finite tables keyed by numbers, and sparse memories. A table is a list of key and value pairs whose keys
rise; a sparse memory is a table that lists no cell equal to 0, which is what an unlisted cell reads as (log
entry 1), so that equal memories are equal lists.
-/

namespace Sys2Proof.Machine

/-! ### Tables -/

/-- The value of a key, if the table has one. -/
def tget {α : Type} : List (Nat × α) → Nat → Option α
  | [], _ => none
  | (k, v) :: t, a => if k = a then some v else tget t a

/-- The table with the key set to a value, at its place in the order. -/
def tset {α : Type} : List (Nat × α) → Nat → α → List (Nat × α)
  | [], a, x => [(a, x)]
  | (k, v) :: t, a, x =>
    if k = a then (a, x) :: t
    else if a < k then (a, x) :: (k, v) :: t
    else (k, v) :: tset t a x

/-- The table without a key. -/
def tdel {α : Type} : List (Nat × α) → Nat → List (Nat × α)
  | [], _ => []
  | (k, v) :: t, a => if k = a then tdel t a else (k, v) :: tdel t a

/-- The table with a key's value changed; a missing key starts from a given value. -/
def tmod {α : Type} (m : List (Nat × α)) (a : Nat) (d : α) (f : α → α) : List (Nat × α) :=
  tset m a (f ((tget m a).getD d))

/-- Every key is above a bound, and the keys rise. -/
def tsorted {α : Type} : List (Nat × α) → Bool
  | [] => true
  | [_] => true
  | (a, _) :: (b, y) :: t => decide (a < b) && tsorted ((b, y) :: t)

/-! ### Sparse memories -/

/-- A sparse memory of cells of `w` bits. -/
abbrev Store (w : Nat) := List (Nat × BitVec w)

/-- A read of one cell: an unlisted cell reads 0. -/
def Store.read {w : Nat} (m : Store w) (a : Nat) : BitVec w := (tget m a).getD 0

/-- A write of one cell: 0 is written by listing nothing. -/
def Store.write {w : Nat} (m : Store w) (a : Nat) (v : BitVec w) : Store w :=
  if v = 0 then tdel m a else tset m a v

/-- The canonical form: addresses strictly rising, no cell listed as 0. -/
def Store.wf {w : Nat} (m : Store w) : Bool := tsorted m && m.all fun c => c.2 != 0

/-- The listed cells of a run of values. -/
def runCells {w : Nat} : Nat → List (BitVec w) → Store w
  | _, [] => []
  | a, v :: t => if v = 0 then runCells (a + 1) t else (a, v) :: runCells (a + 1) t

/-- A run of cells replaced by as many values. -/
def Store.setRun {w : Nat} (m : Store w) (a : Nat) (vs : List (BitVec w)) : Store w :=
  m.filter (fun c => decide (c.1 < a)) ++ (runCells a vs ++ m.filter fun c => decide (a + vs.length ≤ c.1))

/-- The memory of bytes that addresses reach. -/
abbrev Memory := Store 8
/-- The canonical form of the memory. -/
abbrev Memory.wf (m : Memory) : Bool := Store.wf m

/-- A run of cells cleared. -/
def Store.clear {w : Nat} (m : Store w) (a n : Nat) : Store w := m.filter fun c => decide (c.1 < a ∨ a + n ≤ c.1)

/-- The values of a run of cells. -/
def Store.run {w : Nat} (m : Store w) (a n : Nat) : List (BitVec w) :=
  let r : Store w := m.filter fun c => decide (a ≤ c.1 ∧ c.1 < a + n)
  (List.range n).map fun i => r.read (a + i)

/-- The `n` little-endian bytes of a number. -/
def bytesOf : Nat → Nat → List Byte
  | 0, _ => []
  | n + 1, v => BitVec.ofNat 8 v :: bytesOf n (v / 256)

/-- The little-endian number of bytes. -/
def natOf : List Byte → Nat
  | [] => 0
  | b :: t => b.toNat + 256 * natOf t

/-- A little-endian read of `n` bytes. -/
def Store.readN (m : Store 8) (a n : Nat) : Nat := natOf (m.run a n)

/-- A little-endian write of the low `n` bytes of a number. -/
def Store.writeN (m : Store 8) (a n v : Nat) : Store 8 := m.setRun a (bytesOf n v)

end Sys2Proof.Machine
end

