-- ==== Sys2Proof/Machine/Thread.lean ====
section
/-!
DEFINITION. What one thread holds (07 R150 to R166, 18 R393 and R415), and beside it what the machine keeps about
a thread between its instructions: results on their way (02 R41), outstanding operations (06 R147), the wait it is
in (14 R298), and where it runs.
-/

namespace Sys2Proof.Machine

/-- One hardware-loop level (07 R154); it is active while `count` is not 0. -/
structure Loop where
  start : Word
  last : Word
  count : BitVec 32
deriving DecidableEq, Repr

/-- A level that is not active. -/
def Loop.none : Loop := ⟨0, 0, 0⟩

/-- The ROLE register (07 R161). -/
structure Role where
  kind : BitVec 2
  copy : Bool
  xregs : BitVec 2
  fregs : BitVec 2
deriving DecidableEq, Repr

/-- Role general with copy rights and full budgets, 0xDC (07 R162, R164). -/
def Role.full : Role := ⟨0, true, 3, 3⟩

/-- The CAUSE register (18 R393). -/
structure Cause where
  code : BitVec 8
  pos : BitVec 6
  self : Bool
deriving DecidableEq, Repr

/-- A register that a long-latency result goes to. -/
inductive Dest where
  | x (r : BitVec 5)
  | f (r : BitVec 5)
deriving DecidableEq, Repr

/-- A result on its way to its destination (02 R40, R41): the value once it is known, the instructions of the window
still to come, and the command that produces a value not known yet. -/
structure Pend where
  dest : Dest
  val : Option Word
  left : Nat
  cmd : Nat
deriving DecidableEq, Repr

/-- How an operation failed, as `wcnt` reports it (06 R148). `err` is the pair of ERRLOG_ADDR and ERRLOG_CAUSE. -/
structure Report where
  code : BitVec 8
  tval : Word
  err : Option (Word × Word)
deriving DecidableEq, Repr

/-- An accepted operation of an outstanding class, in acceptance order (06 R147). `done` once it has finished. -/
structure OutOp where
  cls : CntClass
  id : Nat
  done : Bool
  poison : Option Report
deriving DecidableEq, Repr

/-- The latest arrival of a thread at a lane operation (11 R249): its address, whether its guard was true, the value
it shows to partners, and the lanes that have matched it. -/
structure Arrival where
  addr : Word
  here : Bool
  val : Word
  seen : List Nat
deriving DecidableEq, Repr

/-- A lane operation in progress (11 R249): the instruction, lanes still unmatched, lanes matched with their values, and whether some
named partner was absent; the arrival before this one comes back if a trap ends the wait. -/
structure LaneWait where
  instr : Instr
  addr : Word
  want : List Nat
  got : List (Nat × Word)
  absent : Bool
  prev : Option Arrival
  met : List Nat
deriving DecidableEq, Repr

/-- What a thread waits for. -/
inductive Wait where
  | code                                   -- a fetch whose walk reads a locked table line (05 R124)
  | walk                                   -- an access whose walk does (05 R124)
  | reg (rs : List Dest)                   -- registers whose values are on their way (02 R41)
  | lane                                   -- a lane operation (11 R249)
  | wmon (ea : Word) (pa : Nat) (rsh : Bool) -- `wmon` on an address, through a mapping of region RSH or not (09 R206, R207)
  | bar (wg off : Nat)                     -- `bar.wait` (06 R138)
  | barOut (wg off : Nat)                  -- `bar.wait.o` (06 R138)
  | claim (d : BitVec 5) (pc : BitVec 3) (la : BitVec 4)  -- `mclaim.w` (12 R264)
  | hbar (cl : Bool) (idx : Nat)           -- a named barrier (15 R339)
  | level (die idx gen : Nat)              -- `done.wait` (15 R330)
  | mark (die idx gen : Nat)               -- `mkwait`, `mkget`, `mkget.t` (17 R390)
  | markRoom (die : Nat)                   -- `rinv`: room in a mark's queue (17 R380)
  | count (k : CntClass) (n : Nat)         -- `wcnt` (06 R148)
  | accept (i : Instr)                     -- room for a command: its class counter or the engine's queue (06 R142, 12 R260)
  | drain                                  -- outstanding classes 0 to 2 (15 R332, R335)
  | idWindow                               -- an identifier window (17 R379)
  | exitQueue                              -- the die's exit queue (15 R344)
  | send                                   -- `migrate`: drained, to be sent (15 R335)
  | cancel (die idx gen : Nat)             -- `cancel` until what it ends has stopped (15 R331)
  | wfi                                    -- `wfi` (18 R409)
  | yield (others : List Nat)              -- `yield` until these threads have issued (15 R333)
deriving DecidableEq, Repr

/-- Where a thread is. -/
inductive Place where
  | ctx (pkg c : Nat)                      -- context `c` of 18 R410
  | slot (core slice lane slot : Nat)      -- a thread slot of an S-core (14 R298)
  | bin (die b : Nat)                      -- a bin of an S-die (15 R321)
  | queue (die : Nat)                      -- the arrival queue of an S-die
  | flight                                 -- between two dies
  | saved                                  -- in a save area (18 R414)
deriving DecidableEq, Repr

/-- A pending deferred store error (05 R116): TVAL of the report. -/
abbrev Deferred := Option Word

/-- A migration in progress (15 R334, R335): the place, the register that takes the status, where the thread resumes
and what kind of arrival it makes (15 R345). -/
structure Move where
  place : Word
  dst : BitVec 5
  resume : Word
  kind : Nat
deriving DecidableEq, Repr

/-- How a thread is ending (15 R332, R331; 18 R403). -/
inductive Ending where | normal | fatal | cancelled
deriving DecidableEq, Repr

/-- What the device knows of a spawned or invoked thread while no S-core holds it (15 R332, R336; 17 R384): it finds the
thread again by its THREAD_ID. `stops` names the levels whose cancel has reached the thread (15 R331), `die` is the L-die it came to and
`tok` the BOOST_TOK it brought (19 R425). -/
structure Away where
  spawned : Bool
  mark : Option Nat
  resolved : Bool
  link : Word
  index : Nat
  cancelled : Bool
  stops : List Word
  die : Nat
  tok : Word
deriving DecidableEq, Repr

/-- Of a thread that the device does not know. -/
def Away.init : Away := ⟨false, none, false, 0, 0, false, [], 0, 0⟩

/-- The registers of a thread before an instruction whose accesses may be in flight when clocks stop (19 R429). -/
structure Back where
  pc : Word
  x : Vector Word 32
  f : Vector Word 32
  p : Vector Bool 7
  lp0 : Loop
  lp1 : Loop
  fflags : BitVec 5
  pend : List Pend
deriving DecidableEq, Repr

/-- A trap entry that a member of a gang still owes: CODE, its position, FAULT_MASK and the entry's number (18 R398). -/
structure Beside where
  code : BitVec 8
  pos : Nat
  mask : Word
  kin : Nat
deriving DecidableEq, Repr

/-- A thread. `kin` names the members of one trap entry until one of them returns (18 R399); `issue`, `gpos` and `word` are the issue
and the gang position at which it began the instruction it is at, and its parcels (18 R398); `back` is where it stood before each of its last
instructions that make accesses, newest first, none else having come after (19 R429). -/
structure Thread where
  -- 07 R150 to R154
  pc : Word
  x : Vector Word 32
  f : Vector Word 32
  p : Vector Bool 7
  lp0 : Loop
  lp1 : Loop
  -- control registers held per thread (07 R160)
  frm : BitVec 2
  fflags : BitVec 5
  force : Bool
  role : Role
  errAddr : Word
  errCause : Word
  boostTok : Word
  mode : Bool
  pmode : Bool
  sclass : BitVec 2
  cause : Cause
  epc : Word
  tval : Word
  faultMask : Word
  asid : BitVec 16
  ptBase : Word
  tid : Word
  launch : Word
  bk : Vector Word 8
  -- kept in the context record (18 R415): the restart bit, as the address of the `hb.sync` that has arrived (15 R339)
  restart : Option Word
  arrival : Option Arrival
  -- where it runs
  place : Place
  wg : Nat
  lane : Nat
  -- outstanding operations and errors to report (06 R147; 05 R116; 07 R473)
  ops : List OutOp
  remote : List (Nat × Bool)
  reports : List (CntClass × Report)
  deferred : Deferred
  -- between instructions
  pend : List Pend
  wait : Option Wait
  rel : Option Word
  laneWait : Option LaneWait
  move : Option Move
  entered : Bool
  atTvec : Bool
  noBk : Bool
  ilk : Bool
  flush : Bool
  signalled : Bool
  cancelled : Bool
  stops : List Word
  ending : Option Ending
  left : Bool
  lastIssue : Nat
  since : Nat
  kin : Nat
  issue : Nat
  gpos : Nat
  word : Nat
  beside : Option Beside
  back : List Back
  -- how it came to be
  mark : Option Nat
  resolved : Bool
  link : Word
  spawned : Bool
  kobj : Bool
  index : Nat
deriving DecidableEq, Repr

/-- A thread as creation leaves it (07 R160, R166). One that has never issued has waited longest: the spec does not say how long it
has waited (DESIGN CHOICE, log entry 89). -/
def Thread.init : Thread :=
  { pc := 0, x := Vector.replicate 32 0, f := Vector.replicate 32 0, p := Vector.replicate 7 false, lp0 := Loop.none,
    lp1 := Loop.none, frm := 0, fflags := 0, force := false, role := Role.full, errAddr := 0, errCause := 0,
    boostTok := 0, mode := false, pmode := false, sclass := 2, cause := ⟨0, 0, false⟩, epc := 0, tval := 0,
    faultMask := 0, asid := 0, ptBase := 0, tid := 0, launch := 0, bk := Vector.replicate 8 0, restart := none,
    arrival := none, place := .flight, wg := 0, lane := 0, ops := [], remote := [], reports := [], deferred := none,
    pend := [], wait := none, rel := none, laneWait := none, move := none, entered := false, atTvec := false,
    noBk := false, ilk := false, flush := false, signalled := false, cancelled := false, stops := [], ending := none, left := false, lastIssue := 0, since := 0, kin := 0, issue := 0, gpos := 0, word := 0, beside := none, back := [], mark := none,
    resolved := false, link := 0, spawned := false, kobj := false, index := 0 }

end Sys2Proof.Machine
end

