-- ==== Sys2Proof/Machine/Units.lean ====
section
/-!
DEFINITION. The units of the device: workgroups and the resources they hold, engines and their commands, S-cores,
courses, dies with their tables and rings, packages with their ports and links. A die is named by
package × 16 + DIE_ID, a core by die × 64 + CORE_ID, a course by die × 8 + COURSE_ID.
-/

namespace Sys2Proof.Machine

/-! ### Named numbers -/

/-- Package of a die. -/
def pkgOfDie (d : Nat) : Nat := d / 16
/-- DIE_ID of a die. -/
def dieId (d : Nat) : Nat := d % 16
/-- Die of a core. -/
def dieOfCore (c : Nat) : Nat := c / 64
/-- CORE_ID of a core (01 R14). -/
def coreId (c : Nat) : Nat := c % 64
/-- Course of an S-core (01 R14). -/
def courseOfCore (c : Nat) : Nat := c / 64 * 8 + c % 64 / 4
/-- Tile position of an S-core (01 R14). -/
def tileOfCore (c : Nat) : Nat := c % 64 % 4
/-- Core of a course and a tile. -/
def coreOfTile (k t : Nat) : Nat := k / 8 * 64 + k % 8 * 4 + t
/-- Die of a course. -/
def dieOfCourse (k : Nat) : Nat := k / 8
/-- An S-die (01 R11). -/
def isSDie (d : Nat) : Bool := decide (2 ≤ dieId d ∧ dieId d < 10)
/-- Package-wide S-core index (01 R14). -/
def score (c : Nat) : Nat := (dieId (dieOfCore c) - 2) * 32 + coreId c

/-! ### Workgroups -/

/-- A named hardware barrier (15 R338): phases, members, members still to arrive, and the members that have. -/
structure HBar where
  gen : Nat
  expected : Nat
  pend : Nat
  arrived : List Nat
deriving DecidableEq, Repr

/-- Life of a workgroup: waiting for placement (15 R323), running, and the states of a pre-emption (18 R416). -/
inductive WState where
  | released | run | drain | stop | save | saved | restore | flush | ended
deriving DecidableEq, Repr

/-- Methods of a pre-emption (18 R411). -/
inductive Method where | drain | save | flush
deriving DecidableEq, Repr

/-- Kinds of copy command (06 R140). -/
inductive CopyKind where | cin | mc | gat | out | sct
deriving DecidableEq, Repr

/-- An accepted copy command and its progress: the row and the byte of the row it stands at, the rows packed (06 R143),
what it has to report (06 R145), the tiles whose receiver it has found gone (22 R462), and the bytes it has moved further on: row, position and
number (R146). -/
structure CopyCmd where
  id : Nat
  t : Nat
  wg : Nat
  kind : CopyKind
  maddr : Nat
  soff : Nat
  boff : Nat
  rowBytes : Nat
  rows : Nat
  mstride : Nat
  ss : Nat
  dmask : Nat
  mask : List Bool
  asid : BitVec 16
  ptBase : Word
  mode : Bool
  row : Nat
  pos : Nat
  packed : Nat
  poison : Option Report
  lost : List Nat
  moved : List (Nat × Nat × Nat)
deriving DecidableEq, Repr

/-- One valid entry of an `mmul` parameter block (12 R269). -/
structure MulEntry where
  acc : Nat
  aslot : Nat
  bslot : Nat
  ksteps : Nat
  klast : Nat
  zero : Bool
deriving DecidableEq, Repr

/-- What an accepted matrix command does (12 R257, R265 to R275). -/
inductive MatOp where
  | cfg (new : Nat)
  | rel (f n : Nat)
  | load (transposed e8 : Bool) (soff slot lines stride : Nat)
  | gath (e8 : Bool) (rowptr colidx values k0 c0 slot : Nat)
  | mul (fmt : MFmt) (es : List MulEntry)
  | sacc (i32 z : Bool) (rs cs dst part : Nat)
  | store (fmt ovp rm : Nat) (z : Bool) (soff boff tile stride : Nat)
  | zero (f n : Nat)
  | stat (clear : Nat)
  | ld (soff tile stride : Nat)
deriving DecidableEq, Repr

/-- A shape change. -/
def MatOp.isCfg : MatOp → Bool
  | .cfg _ => true
  | _ => false

/-- A command whose result comes after its issue (12 R257, R275). -/
def MatOp.owes : MatOp → Bool
  | .cfg _ | .stat _ => true
  | _ => false

/-- An accepted matrix command and its progress (12 R277): the line, row or entry it stands at; for `mmul` the K-step, for `mgath` the
array element, the end of its K-row and the elements read; and what it has to report. -/
structure MatCmd where
  id : Nat
  t : Nat
  wg : Nat
  op : MatOp
  row : Nat := 0
  pos : Nat := 0
  stop : Nat := 0
  read : Nat := 0
  poison : Option Report := none
deriving DecidableEq, Repr

/-- A queue in which no shape change stands, so that workgroups' commands may pass each other. -/
def noCfg (q : List MatCmd) : Bool := q.all fun m => !m.op.isCfg

/-- No command of a workgroup is a shape change or stands behind one. -/
def clearOfCfg (w : Nat) : List MatCmd → Bool
  | [] => true
  | m :: t => if m.op.isCfg then (m :: t).all (·.wg != w) else clearOfCfg w t

/-- A workgroup. -/
structure WG where
  -- identity (15 R322, R323)
  core : Nat
  die : Nat
  level : Option (Nat × Nat)
  wgId : Nat
  size : Nat
  asid : BitVec 16
  entry : Word
  group : Nat
  order : Nat
  -- what its record or profile asks for (15 R317)
  spPages : Nat
  grant : Nat
  hbarN : Nat
  hbcl : Nat
  tcfg : Option Nat
  regs : Nat
  curclass : Nat
  sclass : BitVec 2
  share : Nat
  deadline : Nat
  restartable : Bool
  course : Bool
  wantCourse : Option Nat
  wantCore : Option Nat
  -- its place
  spBase : Nat
  slots : List (Nat × Nat)
  -- scratchpad and barrier tags (06 R126 to R130)
  spad : Store 8
  tags : List Nat
  -- matrix resources (12 R254, R255)
  held : List Nat
  slotMem : Store 8
  tileMem : Store 32
  mflags : BitVec 6
  -- named barriers (15 R338)
  hbars : List (Nat × HBar)
  -- scheduling (16 R361, R362)
  vt : Nat
  -- pre-emption (18 R411 to R416)
  st : WState
  method : Method
  bound : Nat
  fromPrq : Bool
  asked : Nat
  copies : List CopyCmd
  mats : List MatCmd
  -- history (16 R365)
  energy : Nat
  lanes : Nat
  born : Nat
  freed : Nat
deriving DecidableEq, Repr

/-- A workgroup with nothing. -/
def WG.init : WG :=
  { core := 0, die := 0, level := none, wgId := 0, size := 0, asid := 0, entry := 0, group := 0, order := 0, spPages := 0,
    grant := 0, hbarN := 0, hbcl := 0, tcfg := none, regs := 0, curclass := 1, sclass := 2, share := 0, deadline := 0,
    restartable := false, course := false, wantCourse := none, wantCore := none, spBase := 0, slots := [], spad := [], tags := [], held := [], slotMem := [],
    tileMem := [], mflags := 0, hbars := [], vt := 0, st := .released, method := .save, bound := 0, fromPrq := false, asked := 0,
    copies := [], mats := [], energy := 0, lanes := 0, born := 0, freed := 0 }

/-- A workgroup that uses its core's matrix engine: it has accumulator tiles or holds operand slots (12 R254, R255). -/
def WG.usesMat (g : WG) : Bool := g.grant != 0 || !g.held.isEmpty

/-- A workgroup that has a place on a core. -/
def WG.placed (g : WG) : Bool :=
  match g.st with
  | .released | .flush | .ended => false
  | _ => true

/-- A course group (06 R129): its members, its cluster barriers, and for the tile of a member that has ended its core and
its SP_BASE.BASE then (06 R133). -/
structure Group where
  members : List Nat
  hbars : List (Nat × HBar)
  gone : List (Nat × Nat × Nat)
deriving DecidableEq, Repr

/-! ### Cores and courses -/

/-- A waiting claim of `mclaim.w` (12 R264). -/
structure Claim where
  t : Nat
  wg : Nat
  f : Nat
  n : Nat
deriving DecidableEq, Repr

/-- A core: TVEC, the clock count at its reset, and on an S-core the tile shape, the queues of its engines, and whether the last part its
matrix engine performed was of an `mmul` or `msacc` (12 R279). -/
structure Core where
  tvec : Word
  cycle : Word
  tcfg : BitVec 4
  copyQ : List CopyCmd
  matQ : List MatCmd
  claims : List Claim
  filled : Bool
deriving DecidableEq, Repr

/-- A core at reset (07 R160, 12 R256). -/
def Core.init : Core := { tvec := 0, cycle := 0, tcfg := 0xA, copyQ := [], matQ := [], claims := [], filled := false }

/-- Modes of a course (16 R347). -/
inductive CMode where | normal | degraded | offline | nearThreshold
deriving DecidableEq, Repr

/-- A course and its governor (16 R346 to R360, 19 R425, R427). The lists hold one number for each tile; `served` names the
core, slice and workgroup of every issue of the window and `claims` the floor claims from its clock 56 on (16 R364);
`synNow` counts the synthetic slots of the clock it is at; `cycles` counts its clocks since reset and `phase` is the part of a clock that
has passed (16 R348, 07 R160). -/
structure Course where
  mode : CMode
  bypass : Nat
  imbLimit : Nat
  groutBudget : Nat
  synEn : Bool
  rationEn : Bool
  govNext : Option Word
  boostMax : Nat
  boostNext : Option Nat
  boosted : Bool
  pwr : BitVec 5
  pwrWait : Option Nat
  stretch : Nat
  overN : Nat
  underN : Nat
  ration : List Nat
  floorOnly : Bool
  shunts : Nat
  imb : Word
  energy : List Nat
  want : List Nat
  grout : List Nat
  syn : List Nat
  synNow : List Nat
  groutCnt : Word
  groutUseful : Word
  throttle : Word
  clock : Nat
  served : List (Nat × Nat × Nat)
  claims : Option (List (Nat × Nat × Nat))
  cycles : Nat
  phase : Nat
deriving DecidableEq, Repr

/-- A course at reset (16 R349, R358, R360; 19 R425 gives no reset value of BOOST_MAX: log entry 2). -/
def Course.init : Course :=
  { mode := .normal, bypass := 0, imbLimit := 102, groutBudget := 512, synEn := true, rationEn := true, govNext := none,
    boostMax := 1900, boostNext := none, boosted := false, pwr := 0, pwrWait := none, stretch := 0, overN := 0, underN := 0,
    ration := [0, 0, 0, 0], floorOnly := false, shunts := 0, imb := 0, energy := [0, 0, 0, 0], want := [0, 0, 0, 0],
    grout := [0, 0, 0, 0], syn := [0, 0, 0, 0], synNow := [0, 0, 0, 0], groutCnt := 0, groutUseful := 0, throttle := 0, clock := 0, served := [],
    claims := none, cycles := 0, phase := 0 }

/-! ### Dies -/

/-- A spawn record's fields (15 R317). `fixed` is bytes 12 to 47 as one number, which bins compare (15 R321). -/
structure SpawnRec where
  entry : Word
  count : Nat
  wgsize : Nat
  timer : Nat
  curclass : Nat
  sclass : Nat
  restartable : Bool
  coursegrp : Bool
  span : Bool
  level : Nat
  tcfg : Nat
  tcfgv : Bool
  tiles : Nat
  hbar : Nat
  hbcl : Nat
  sppages : Nat
  share : Nat
  roles : List (Nat × Nat × Nat)
  deadline : Nat
  args : List Word
  fixed : Nat
deriving DecidableEq, Repr

/-- A block of thread indices handed to a die (15 R327). -/
structure Block where
  die : Nat
  first : Nat
  n : Nat
deriving DecidableEq, Repr

/-- A launch being handed out (15 R327): the keystone, NEXT, the outstanding blocks, the dies of the two checkpoint copies, the blocks of
failed dies that are to be handed out again, and the tokens of their threads by index (19 R425). -/
structure Launch where
  record : SpawnRec
  tidBase : Word
  ptBase : Word
  keystone : Nat
  next : Nat
  blocks : List Block
  copyA : Nat
  copyB : Nat
  wgNext : Nat
  redo : List Block
  kept : List (Nat × Nat)
deriving DecidableEq, Repr

/-- States of a level (15 R325). -/
inductive LState where | open | sealed | done | cancelled
deriving DecidableEq, Repr

/-- An entry of a completion table (15 R325). `result` is 0, −5 or −6 as a word; `told` once its end has been counted by its
parent. -/
structure Level where
  asid : BitVec 16
  kind : Nat
  st : LState
  count : Nat
  result : Word
  parent : Word
  launch : Option Launch
  told : Bool
deriving DecidableEq, Repr

/-- States of a mark's entry (17 R373). -/
inductive MState where | pending | forwarded | resolved | broken
deriving DecidableEq, Repr

/-- An invocation: the fields of its record, the issuer's context, package and die (17 R378, R379; 15 R474), and the tokens it brings
when it is dispatched again (19 R425). -/
structure Inv where
  entry : Word
  sclass : Nat
  restartable : Bool
  deadline : Nat
  args : List Word
  asid : BitVec 16
  ptBase : Word
  place : Word
  pkg : Nat
  die : Nat
  word0 : Option Word
  tok : Option Nat
  seq : Nat
  started : Bool
deriving DecidableEq, Repr

/-- An entry of a mark table (17 R370). `queue` holds the marks of the invocations that wait on this one, oldest first. -/
structure Mark where
  st : MState
  asid : BitVec 16
  holder : Word
  held : Bool
  link : Word
  site : Nat
  cause : Word
  origin : Word
  result : List Word
  queue : List Word
  inv : Option Inv
  spilled : Bool
  lastRead : Nat
deriving DecidableEq, Repr

/-- A ring in memory with its registers (15 R344, R345; 20 R439). -/
structure Ring where
  base : Nat
  en : Bool
  log2n : Nat
  head : BitVec 32
  tail : BitVec 32
deriving DecidableEq, Repr

/-- A ring at reset. -/
def Ring.init : Ring := ⟨0, false, 0, 0, 0⟩

/-- A bin (15 R321): its key, the launch when records differ, its fill and timer (a fill of 0 stands for the die's migration
profile, 15 R343), and its threads, oldest first. -/
structure Bin where
  asid : BitVec 16
  entry : Word
  sclass : BitVec 2
  fixed : Nat
  launch : Option (Nat × Nat)
  fill : Nat
  timer : Nat
  threads : List Nat
deriving DecidableEq, Repr

/-- The migration profile (15 R343). -/
structure Profile where
  fill : Nat
  timer : Nat
  sppages : Nat
  tiles : Nat
  hbar : Nat
deriving DecidableEq, Repr

/-- The pre-emption request block (18 R412). -/
structure Prq where
  launch : Word
  wg : Word
  loc : Word
  bound : Nat
  state : Nat
  method : Nat
  latency : Nat
deriving DecidableEq, Repr

/-- An entry of a die's error log (19 R433). -/
structure ErrEntry where
  addr : Word
  code : Nat
  cause : Nat
  tid : Word
  time : Word
deriving DecidableEq, Repr

/-- An entry of the history table (16 R365, 18 R411). -/
structure Hist where
  asid : BitVec 16
  entry : Word
  cls : Nat
  life : Nat
  runs : Nat
deriving DecidableEq, Repr

/-- A capture unit (19 R431); `shadow` is MIN, MAX, COUNT and the bins as the last SNAP left them. -/
structure Mon where
  ctl : Word
  lo : Word
  min : Word
  max : Word
  count : Word
  bins : List (Nat × Word)
  shadow : Word × Word × Word × List (Nat × Word)
deriving DecidableEq, Repr

/-- A capture unit at reset (19 R431). -/
def Mon.init : Mon :=
  ⟨0, 0, 0x7FFFFFFFFFFFFFFF, 0x8000000000000000, 0, [], (0x7FFFFFFFFFFFFFFF, 0x8000000000000000, 0, [])⟩

/-- A rail quadrant (19 R428). -/
structure Quadrant where
  qlim : BitVec 16
  off : Bool
  saved : Bool
  count : BitVec 32
deriving DecidableEq, Repr

/-- A die. `savePool` is the size of its save pool in bytes (18 R414). -/
structure Die where
  bins : List (Nat × Bin)
  arrivals : List Nat
  levels : List (Nat × Level)
  levelGen : List (Nat × Nat)
  marks : List (Nat × Mark)
  markGen : List (Nat × Nat)
  mkspill : Word
  idwEn : Bool
  idwTable : Nat
  idwAsid : BitVec 16
  idwBase : Word
  idwRemain : BitVec 32
  profile : Profile
  exq : Ring
  arq : Ring
  held : List Nat
  prq : Prq
  errs : List (Nat × ErrEntry)
  errHead : BitVec 32
  errTail : BitVec 32
  errLost : Word
  errCe : Word
  fetchCtl : Word
  bktBase : Word
  perThread : Word
  hist : List Hist
  mons : List (Nat × Mon)
  quads : List (Nat × Quadrant)
  savePool : Nat
deriving DecidableEq, Repr

/-- A die at reset (15 R342 to R345, 18 R412, 19 R433, 21 R461). The spec gives the save pool no size: 8 GiB (DESIGN CHOICE, log
entry 83). -/
def Die.init : Die :=
  { bins := [], arrivals := [], levels := [], levelGen := [], marks := [], markGen := [], mkspill := 0, idwEn := false,
    idwTable := 0, idwAsid := 0, idwBase := 0, idwRemain := 0, profile := ⟨4, 0, 0, 0, 0⟩, exq := Ring.init, arq := Ring.init,
    held := [], prq := ⟨0, 0, 0, 0, 0, 0, 0⟩, errs := [], errHead := 0, errTail := 0, errLost := 0, errCe := 0, fetchCtl := 1,
    bktBase := 0, perThread := 0, hist := [], mons := [], quads := [], savePool := 2 ^ 33 }

/-! ### L-core contexts and packages -/

/-- The control block of an L-core context (18 R410): the thread it runs, if it runs one; `seen` counts, for each Ethernet
port, the completions whose interrupt the context has taken. -/
structure Ctx where
  thread : Option Nat
  irqSoft : BitVec 16
  seen : List Nat
  irqEn : Word
  hold : Bool
  timecmp : Word
  tid : Word
  launch : Word
  tok : Word
deriving DecidableEq, Repr

/-- A context at reset (18 R410). -/
def Ctx.init : Ctx := ⟨none, 0, [], 0, false, 0xFFFFFFFFFFFFFFFF, 0, 0, 0⟩

/-- States of a migration descriptor (05 R119). -/
inductive DState where | moving | forward
deriving DecidableEq, Repr

/-- A migration descriptor that is not FREE (05 R119). -/
structure Desc where
  st : DState
  src : Nat
  dst : Nat
  len : Nat
  bound : Nat
deriving DecidableEq, Repr

/-- A classifier entry of an Ethernet port (20 R437). -/
structure Cls where
  etype : BitVec 16
  vlan : BitVec 12
  vmatch : Bool
  valid : Bool
  ring : BitVec 6
deriving DecidableEq, Repr

/-- A memory region of a port (20 R441). -/
structure Region where
  asid : BitVec 16
  ptBase : Word
  lo : Nat
  len : Nat
  r : Bool
  w : Bool
deriving DecidableEq, Repr

/-- A queue pair (20 R441, R442): its receive and completion rings, the next packet sequence number and its path MTU. -/
structure Qp where
  rx : Nat
  cq : Nat
  psn : Nat
  mtu : Nat
deriving DecidableEq, Repr

/-- An Ethernet port (20 R437 to R442). The answers
a port has given a peer are listed with the queue pair and 0 for data or an acknowledgement, 1 for a remote-access NAK, 2 for an
invalid-request NAK; `stamps` holds each ring's last timestamp, receive rings from 0 and transmit rings from 64. -/
structure Port where
  en : Bool
  up : Bool
  drop : BitVec 32
  irqMask : Word
  cls : List (Nat × Cls)
  rx : List (Nat × Ring)
  tx : List (Nat × Ring)
  qps : List (Nat × Qp)
  regions : List (Nat × Region)
  sent : List (List Byte)
  replies : List (Nat × Nat × List Byte)
  irqs : Nat
  stamps : List (Nat × Nat)
deriving DecidableEq, Repr

/-- A port at reset (20 R437). -/
def Port.init : Port := ⟨false, false, 0, 0, [], [], [], [], [], [], [], 0, []⟩

/-- A link port (20 R445, R446): UP, PEER, PEER_PORT and REPLAYS. -/
structure Link where
  up : Bool
  peer : Nat
  peerPort : Nat
  replays : BitVec 32
deriving DecidableEq, Repr

/-- A package. `staged` is the firmware version being swapped in and `swapped` the units that run it (19 R435); `trim` and `owed` are
the parts of a nanosecond by which TIME_FREQ and TIME_SLEW have moved TIME (20 R444), `cycles` its L-clocks since power-on and
`phase` the fifths of one that have passed (01 R20). -/
structure Pkg where
  stepping : BitVec 16
  time : Word
  freq : Word
  slew : Nat
  trim : Int
  owed : Nat
  cycles : Nat
  phase : Nat
  remote : List (Nat × List (Nat × Bool))
  pool : Nat
  ports : List (Nat × Port)
  links : List (Nat × Link)
  routes : List (Nat × Nat)
  descs : List (Nat × Desc)
  version : Nat
  rollback : Nat
  staged : Option Nat
  swapped : List UnitId
deriving DecidableEq, Repr

/-- A package after power-on (21 R458; time and link values: log entry 2). -/
def Pkg.init : Pkg :=
  { stepping := 0x0101, time := 0, freq := 0, slew := 0, trim := 0, owed := 0, cycles := 0, phase := 0, remote := [], pool := 0, ports := [], links := [], routes := [],
    descs := [], version := 0, rollback := 0, staged := none, swapped := [] }

/-! ### Memory system -/

/-- States of a directory record (05 R103). A sector in I without presence bits has no record. -/
inductive DirSt where | i | s | ex | o | u | p
deriving DecidableEq, Repr

/-- A directory record of a 64-byte sector (05 R103). -/
structure Dir where
  st : DirSt
  owner : Nat
  dies : BitVec 10
  pkgs : BitVec 16
  uop : Option (RedOp × Bool)
deriving DecidableEq, Repr

/-- States of a sector in a cache; `r` is an untracked copy (05 R110, R111). -/
inductive CacheSt where | m | e | o | s | u | r
deriving DecidableEq, Repr

/-- A sector held by a coherence agent. `data` is, of a dirty copy (M or O), the bytes its home still holds; of a sector in U
the partials, with the words that updates have reached; of an untracked copy its own bytes; of a clean copy nothing. -/
structure Copy where
  st : CacheSt
  data : BitVec 512
  words : BitVec 16
deriving DecidableEq, Repr

/-- A line of a slab (05 R99, R100, R111). Of a home line, `mask` names the dirty sectors and `data` holds beneath them what DRAM
holds; of a replica, `mask` names the sectors it has and `data` is their bytes. -/
structure SlabLine where
  replica : Bool
  mask : BitVec 4
  data : BitVec 2048
deriving DecidableEq, Repr

/-- Where a translation is held (04 R91): the instruction and the data TLB of a core, the L2 TLB of an L-core, the TLB of an
S-die. -/
inductive TlbAt where
  | code (core : Nat)
  | data (core : Nat)
  | second (core : Nat)
  | die (d : Nat)
deriving DecidableEq, Repr

/-- A translation held by a TLB (04 R91): of a page, or of a contiguity group; `issue` is the issue whose walk brought it, whose lanes all
take it (04 R92). -/
structure Tlb where
  held : TlbAt
  asid : BitVec 16
  va : Nat
  size : Nat
  leaf : Word
  pa : Nat
  issue : Nat
deriving DecidableEq, Repr

/-- A table entry of levels 0 to 2 in the walk cache of an S-die, or that a walk of an L-core has read (04 R91, R94): the addresses it serves
and the table it names. -/
structure WalkEnt where
  die : Nat
  core : Option Nat
  lvl : Nat
  asid : BitVec 16
  va : Nat
  table : Nat
deriving DecidableEq, Repr

/-- What a walker command does (05 R117, R120, R122, R123; 04 R95): a split carries the entry it read, if it could, and a
collapse the address of the leaf and the entries it read with their addresses. -/
inductive WalkOp where
  | cw (inval : Bool) (scope : WScope) (bar : Option Nat) (va len : Nat)
  | mig (pkg desc : Nat)
  | split (va leaf table : Nat) (old : Option Nat)
  | coll (va leaf : Nat) (lvl : Nat) (es : List (Nat × Nat)) (bad : Bool)
  | tlb (kind : TlbKind) (scope : WScope) (va n : Nat) (asid : BitVec 16)
deriving DecidableEq, Repr

/-- An accepted walker command: of a `cw.*` the bytes of its range it has walked and the physical address of the page it is in, whether it has
sent the recalls of its line to other packages (18 R417), and the status so far with what it has to report. -/
structure WalkCmd where
  id : Nat
  t : Nat
  wg : Nat
  die : Nat
  op : WalkOp
  asid : BitVec 16
  ptBase : Word
  mode : Bool
  pos : Nat := 0
  frame : Option Nat := none
  sent : Bool := false
  status : Word := 0
  poison : Option Report := none
deriving DecidableEq, Repr

/-- A message between dies that has not arrived. An orphan is an invocation under way whose mark was lost with its die, and carries the entry
(17 R385). -/
inductive Msg where
  | thread (die : Nat) (t : Nat)                             -- a migrating or invoked thread (15 R335, 17 R379)
  | invoke (die : Nat) (mark : Word)                         -- a dispatched invocation (17 R379)
  | enqueue (mark up : Word)                                 -- an invocation addressed to a mark (17 R380)
  | resolve (mark : Word) (die : Nat) (words : List Word)    -- a producer's resolution (17 R381)
  | broke (mark : Word) (cause origin : Word)               -- a break (17 R383)
  | cancel (mark : Word) (level : Word)                      -- a cancel of a level reaches an invocation (17 R386)
  | orphan (die : Nat) (mark : Word) (e : Mark)              -- an invocation that resolves no mark any more (17 R385)
deriving DecidableEq, Repr

/-- The region of a leaf (04 R80). -/
inductive RegionKind where | priv | rsh | coh | rdup
deriving DecidableEq, Repr

/-- Who accesses memory, and under which translation (04 R77, R89): the coherence agent, the core whose TLB serves it, the
die it logs at, the address space and the mode. -/
structure MCtx where
  ag : Nat
  core : Option Nat
  die : Nat
  asid : BitVec 16
  ptBase : Word
  mode : Bool
  who : Nat
deriving DecidableEq, Repr

/-- An ordering through an object that is no memory: the arrivals of a phase of a barrier object (06 R139), by workgroup, offset and GEN, or
of a named barrier of a workgroup (15 R339), by its index and GEN. -/
inductive Sync where
  | bar (wg off gen : Nat)
  | hbar (wg idx gen : Nat)
deriving DecidableEq, Repr

/-- An access that has been executed and is not performed (13 R284, R288): its number, who made it and where, in which issue, by which
instruction where it is no store, to scratchpad, control space or memory of a region, at which address and of how many bytes, with its operands, or for a load
with the value there as it was executed. `seen` are threads of the core that read the store already (R285), `before` those whose later
accesses come after it, with the scope of the fence that says so; `deps` are accesses that are performed before it, `rels` those that happen
before it as a release, with the release's scope, and `toks` the barrier phases whose arrivals it happens before (R289). -/
structure Held where
  id : Nat
  c : MCtx
  wg : Nat
  issue : Nat
  i : Option Instr
  spad : Bool
  ctrl : Bool
  r : RegionKind
  addr : Nat
  n : Nat
  v : Nat
  w : Nat
  va : Word
  seen : List Nat
  before : List (Nat × Option Scope)
  deps : List Nat
  rels : List (Scope × Nat)
  toks : List Sync
deriving DecidableEq, Repr

/-- Bytes of memory or scratchpad whose value a thread's loads have bound early (13 R284, R288). -/
structure View where
  who : Nat
  spad : Bool
  addr : Nat
  n : Nat
  v : Nat
deriving DecidableEq, Repr

/-- What is to happen next: a device step; one issue of the threads named, a gang (14 R299); a soft error in the data of a
sector in a slab, by die × 2^52 + the sector, `hard` if it cannot be corrected (05 R101); or in what order accesses are performed (13 R288): a thread's next plain or releasing
access stays behind, a thread binds some bytes early, a store becomes visible to a thread of its core, or an access is performed; or a copy
command of a core, by its place in the queue, moves some bytes of a row ahead of their turn (06 R146). -/
inductive Turn where
  | event (i : Instr)
  | issue (ts : List Nat)
  | soft (sec : Nat) (hard : Bool)
  | delay (k : Nat)
  | early (k : Nat) (va : Word) (n : Nat) (spad : Bool)
  | spread (i k : Nat)
  | perform (i : Nat)
  | ahead (core j row pos n : Nat)
deriving DecidableEq, Repr

/-- A gang in the middle of one issue (14 R298, R299; 18 R398): its members with their gang positions, those still to run,
the positions that have faulted, the instruction fetched for all of them, the number of its issue, whether it goes on after a
wait, and its members that have completed a lane operation, as they would wait at it (11 R249). -/
structure Gang where
  members : List (Nat × Nat)
  rest : List (Nat × Nat)
  faults : List (Nat × BitVec 8)
  pc : Word
  word : Nat
  seq : Nat
  again : Bool
  lanes : List (Nat × Thread)
deriving DecidableEq, Repr

end Sys2Proof.Machine
end

