-- ==== Sys2Proof/Machine/State.lean ====
section
/-!
DEFINITION. The state of the device, the ways an instruction can end without a next state, and the state after
power-on (19 R436).
-/

namespace Sys2Proof.Machine

/-- Why the machine stops. Each reason is safe: nothing is claimed of what would follow. -/
inductive Fault where
  /-- Raised by the common frame of the encoded instructions when `State.cur` names no thread, so that there is nobody to
  execute the instruction. `step` never asks for that. Safe. -/
  | noThread
deriving DecidableEq, Repr

/-- Why an instruction has no meaning. -/
inductive Refusal where
  /-- Raised by an arm of `exec` whose instruction has no meaning yet. Safe. -/
  | notModelled (mnemonic : String)
deriving DecidableEq, Repr

/-- The state of the device. -/
structure State where
  /-- memory by physical address (04 R74, R75): the bytes a coherent read returns once partials are combined -/
  mem : Memory
  /-- lines in the slabs (05 R99, R100, R111), by die × 2^52 + the address of the line -/
  slabs : List (Nat × SlabLine)
  /-- soft errors of slab data that no access has met, with whether they can be corrected no more (05 R101) -/
  soft : List (Nat × Bool)
  /-- poisoned 64-byte sectors (05 R101) -/
  poison : List Nat
  /-- directory records (05 R102, R103): the home's by sector, the guest directory of package p by (p + 1) × 2^52 + sector -/
  dir : List (Nat × Dir)
  /-- sectors held by coherence agents, by agent × 2^52 + sector; agents are numbered package × 512 + the number of R102 -/
  copies : List (Nat × Copy)
  /-- translations in the TLBs, and table entries in the walk caches, newest first (04 R91) -/
  tlbs : List Tlb
  walkCache : List WalkEnt
  /-- sectors in instruction caches, by core and physical address (18 R422; 21 R461) -/
  icache : List (Nat × Nat × Nat)
  /-- locked sectors of table memory (05 R124) -/
  locks : List Nat
  /-- accesses that are not performed yet, oldest first, bytes that loads have bound early, newest first, and the thread whose next access
  stays behind (13 R284, R285, R288) -/
  stores : List Held
  views : List View
  delay : Option Nat
  /-- threads by a number of the model's own -/
  threads : List (Nat × Thread)
  /-- the thread an encoded instruction acts for -/
  cur : Nat
  /-- an issue in progress -/
  gang : Option Gang
  /-- what happens next, before the device's own choice (the model's input: log entry 3) -/
  agenda : List Turn
  /-- whose turn it is: threads, or the device's own steps -/
  turn : Bool
  /-- workgroups and course groups by a number of the model's own -/
  wgs : List (Nat × WG)
  groups : List (Nat × Group)
  /-- units: cores by die × 64 + CORE_ID, courses by die × 8 + COURSE_ID, dies by package × 16 + DIE_ID, L-core contexts
  by package × 256 + the context number of 18 R410 -/
  cores : List (Nat × Core)
  courses : List (Nat × Course)
  dies : List (Nat × Die)
  ctxs : List (Nat × Ctx)
  pkgs : List (Nat × Pkg)
  /-- service words that are not ONLINE with no code: STATE and the reported code (19 R434, R435) -/
  units : List (UnitId × Nat × Nat)
  /-- accepted walker commands, oldest first -/
  walks : List WalkCmd
  /-- messages between dies that have not arrived, oldest first -/
  msgs : List Msg
  /-- spawned and invoked threads that are on no S-core, by THREAD_ID -/
  away : List (Nat × Away)
  /-- the thread whose next accesses to other packages stay unanswered (18 R418) -/
  late : Option Nat
  /-- the next number for a thread, workgroup, group or command -/
  nextId : Nat
  /-- nanoseconds that have passed since power-on -/
  clk : Nat
  /-- counter of the model: free values are taken at it (log entry 4) -/
  seq : Nat
deriving DecidableEq, Repr

/-- The boot thread: context 0 of L-core 0 on DIE_ID 0, in system mode with PT_BASE.EN = 0 (19 R436). Its entry address
is the manifest's, which the spec does not give: 0 (DESIGN CHOICE, log entry 5). -/
def bootThread : Thread := { Thread.init with mode := true, place := .ctx 0 0 }

/-- The state after power-on (19 R436) of a domain of one package (DESIGN CHOICE, log entry 5). -/
def State.reset : State :=
  { mem := [], slabs := [], soft := [], poison := [], dir := [], copies := [], tlbs := [], walkCache := [], icache := [], locks := [], stores := [], views := [], delay := none, threads := [(1, bootThread)], cur := 1,
    gang := none, agenda := [], turn := false, wgs := [], groups := [], cores := [], courses := (List.range 64).map fun k => (16 + k, Course.init), dies := [],
    ctxs := [(0, { Ctx.init with thread := some 1 })], pkgs := [(0, Pkg.init)], units := [], walks := [], msgs := [], away := [],
    late := none, nextId := 2, clk := 0, seq := 0 }

end Sys2Proof.Machine
end

