-- ==== Sys2Proof/Machine/Ops.lean ====
section
/-!
DEFINITION. The named operations every meaning is written with: units looked up and changed, registers with lookahead
(02 R40 to R43), the end of an instruction and hardware loops (14 R308, R309), taking a trap (18 R396, R397), and the
common frame of an encoded instruction (02 R39, R49; 07 R156).
-/

namespace Sys2Proof.Machine

/-! ### Units -/

/-- The thread of a number. -/
def State.thr (s : State) (k : Nat) : Thread := (tget s.threads k).getD Thread.init
/-- The state with a thread replaced. -/
def State.setThr (s : State) (k : Nat) (t : Thread) : State := { s with threads := tset s.threads k t }
/-- The state with a thread changed. -/
def State.updThr (s : State) (k : Nat) (f : Thread → Thread) : State := s.setThr k (f (s.thr k))
/-- The thread an instruction acts for. -/
def State.me (s : State) : Thread := s.thr s.cur
/-- The state with that thread changed. -/
def State.updMe (s : State) (f : Thread → Thread) : State := s.updThr s.cur f
/-- A workgroup. -/
def State.wg (s : State) (k : Nat) : WG := (tget s.wgs k).getD WG.init
/-- The state with a workgroup replaced. -/
def State.setWg (s : State) (k : Nat) (w : WG) : State := { s with wgs := tset s.wgs k w }
/-- The state with a workgroup changed. -/
def State.updWg (s : State) (k : Nat) (f : WG → WG) : State := s.setWg k (f (s.wg k))
/-- A core. -/
def State.core (s : State) (k : Nat) : Core := (tget s.cores k).getD Core.init
/-- The state with a core changed. -/
def State.updCore (s : State) (k : Nat) (f : Core → Core) : State := { s with cores := tset s.cores k (f (s.core k)) }
/-- A course that has counted its clocks since power-on, at 1.9 GHz, with nothing else to show for it (16 R348). -/
def Course.fresh (clk : Nat) : Course :=
  { Course.init with cycles := clk * 19 / 10, clock := clk * 19 / 10 % 64, phase := clk * 19 % 10 * 1600 }

/-- A course. -/
def State.course (s : State) (k : Nat) : Course := (tget s.courses k).getD (Course.fresh s.clk)
/-- The state with a course changed. -/
def State.updCourse (s : State) (k : Nat) (f : Course → Course) : State :=
  { s with courses := tset s.courses k (f (s.course k)) }
/-- A die. -/
def State.die (s : State) (k : Nat) : Die := (tget s.dies k).getD Die.init
/-- The state with a die changed. -/
def State.updDie (s : State) (k : Nat) (f : Die → Die) : State := { s with dies := tset s.dies k (f (s.die k)) }
/-- An L-core context. -/
def State.ctx (s : State) (k : Nat) : Ctx := (tget s.ctxs k).getD Ctx.init
/-- The state with a context changed. -/
def State.updCtx (s : State) (k : Nat) (f : Ctx → Ctx) : State := { s with ctxs := tset s.ctxs k (f (s.ctx k)) }
/-- A package. -/
def State.pkg (s : State) (k : Nat) : Pkg := (tget s.pkgs k).getD Pkg.init
/-- The state with a package changed. -/
def State.updPkg (s : State) (k : Nat) (f : Pkg → Pkg) : State := { s with pkgs := tset s.pkgs k (f (s.pkg k)) }
/-- Whether a package is in the domain. -/
def State.present (s : State) (p : Nat) : Bool := (tget s.pkgs p).isSome

/-- Service state of a unit: 0 ONLINE, 1 DRAINING, 2 OFFLINE, 3 RETIRED, and its reported code (19 R434, R435). -/
def State.service (s : State) (u : UnitId) : Nat × Nat := ((s.units.find? (·.1 == u)).map (·.2)).getD (0, 0)
/-- The state with a unit's service state set. -/
def State.setService (s : State) (u : UnitId) (v : Nat × Nat) : State :=
  { s with units := if v == (0, 0) then s.units.filter (·.1 != u) else (u, v) :: s.units.filter (·.1 != u) }
/-- A unit that is ONLINE. -/
def State.online (s : State) (u : UnitId) : Bool := (s.service u).1 == 0

/-! ### Where a thread runs -/

/-- The core of an L-core context (18 R410). -/
def coreOfCtx (pkg c : Nat) : Nat := (pkg * 16 + c / 2 / 36) * 64 + c / 2 % 36

/-- On an L-core (07 R161, STATUS.KIND). -/
def Thread.onL (t : Thread) : Bool :=
  match t.place with
  | .ctx _ _ => true
  | _ => false

/-- The core a thread runs on. -/
def Thread.core (t : Thread) : Nat :=
  match t.place with
  | .ctx p c => coreOfCtx p c
  | .slot c _ _ _ => c
  | _ => 0

/-- The die a thread is at. -/
def Thread.die (t : Thread) : Nat :=
  match t.place with
  | .ctx p c => dieOfCore (coreOfCtx p c)
  | .slot c _ _ _ => dieOfCore c
  | .bin d _ => d
  | .queue d => d
  | _ => 0

/-- The package a thread is in. -/
def Thread.pkg (t : Thread) : Nat := pkgOfDie t.die

/-- The coherence agent of a thread's core, package × 512 + the number of 05 R102. -/
def Thread.agent (t : Thread) : Nat :=
  if t.onL then t.pkg * 512 + (256 + dieId t.die * 36 + coreId t.core) else t.pkg * 512 + score t.core

/-- The register that describes the context a thread runs on; 0 on an S-core. -/
def Thread.ctxKey (t : Thread) : Nat :=
  match t.place with
  | .ctx p c => p * 256 + c
  | _ => 0

/-- THREAD_ID: an L-core context's CTX_TID (07 R163), or the thread's own. -/
def State.tidOf (s : State) (t : Thread) : Word := if t.onL then (s.ctx t.ctxKey).tid else t.tid

/-! ### Registers -/

/-- x0 reads 0 (02 R46). -/
def Thread.getX (t : Thread) (r : BitVec 5) : Word := if r = 0 then 0 else t.x.get r.toFin
/-- A write of an x register; x0 discards it. -/
def Thread.rawX (t : Thread) (r : BitVec 5) (v : Word) : Thread := if r = 0 then t else { t with x := t.x.set r.toFin v }
/-- An f register. -/
def Thread.getF (t : Thread) (r : BitVec 5) : Word := t.f.get r.toFin
/-- A write of an f register. -/
def Thread.rawF (t : Thread) (r : BitVec 5) (v : Word) : Thread := { t with f := t.f.set r.toFin v }
/-- A predicate; p7 reads 1 (02 R39). -/
def Thread.getP (t : Thread) (r : BitVec 3) : Bool := t.p[r.toNat]?.getD true
/-- A write of a predicate; p7 discards it. -/
def Thread.setP (t : Thread) (r : BitVec 3) (v : Bool) : Thread := { t with p := t.p.setIfInBounds r.toNat v }

/-- A register as it stands, without results on their way. -/
def Thread.get (t : Thread) : Dest → Word
  | .x r => t.getX r
  | .f r => t.getF r

/-- A write of a register that leaves results on their way alone. -/
def Thread.raw (t : Thread) (d : Dest) (v : Word) : Thread :=
  match d with
  | .x r => t.rawX r v
  | .f r => t.rawF r v

/-- A write in program order: a result on its way to the same register is discarded (02 R41). -/
def Thread.put (t : Thread) (d : Dest) (v : Word) : Thread :=
  { t with pend := t.pend.filter (·.dest != d) }.raw d v

/-- Interlocked mode (02 R43). -/
def Thread.locked (t : Thread) : Bool := t.force || t.ilk

/-- Results on their way, as another one to a register sets out: one to it whose window is open is discarded, one that readers wait for
stays (02 R41). -/
def overtaken (l : List Pend) (d : Dest) : List Pend := l.filter fun e => e.dest != d || (e.val.isNone && e.left == 0)

/-- A long-latency result whose value is known: at once with LA 0 or in interlocked mode, else after its window. -/
def Thread.post (t : Thread) (d : Dest) (la : BitVec 4) (v : Word) : Thread :=
  if t.locked || la == 0 || d == .x 0 then t.put d v
  else { t with pend := overtaken t.pend d ++ [⟨d, some v, la.toNat + 1, 0⟩] }

/-- A long-latency result that a command will produce. -/
def Thread.expect (t : Thread) (d : Dest) (la : BitVec 4) (cmd : Nat) : Thread :=
  if d == .x 0 then t
  else { t with pend := overtaken t.pend d ++ [⟨d, none, if t.locked then 1 else la.toNat + 1, cmd⟩] }

/-- One entry of the list of results on their way, as an instruction completes. -/
def Thread.tickOne (t : Thread) (e : Pend) : Thread :=
  if e.left ≤ 1 then
    match e.val with
    | some v => t.put e.dest v
    | none => { t with pend := t.pend ++ [{ e with left := 0 }] }
  else { t with pend := t.pend ++ [{ e with left := e.left - 1 }] }

/-- Every window is one instruction shorter; results whose window is over take effect (02 R40, R41). -/
def Thread.tick (t : Thread) : Thread := t.pend.foldl Thread.tickOne { t with pend := [] }

/-- Every window ends; results that are known take effect (02 R42). -/
def Thread.flushAll (t : Thread) : Thread :=
  t.pend.foldl (fun t e => Thread.tickOne t { e with left := 0 }) { t with pend := [] }

/-- A command produces its result: it takes effect at once when its window is over. -/
def Thread.produce (t : Thread) (cmd : Nat) (v : Word) : Thread :=
  t.pend.foldl (fun t e =>
    if e.cmd = cmd ∧ e.val = none then
      (if e.left = 0 then t.put e.dest v else { t with pend := t.pend ++ [{ e with val := some v }] })
    else { t with pend := t.pend ++ [e] }) { t with pend := [] }

/-- A read of a register by the instruction that executes: inside a window it returns the old or the new value, free for
each operand position (02 R41, log entry 4); in interlocked mode always the new one (02 R43). -/
def State.src (s : State) (pos : Nat) (d : Dest) : Word :=
  match (s.me.pend.filter (·.dest == d)).getLast? with
  | some ⟨_, some v, _, _⟩ => if s.me.locked || Config.laNew s.seq pos then v else s.me.get d
  | _ => s.me.get d

/-- A read of an x register. -/
def State.srcX (s : State) (pos : Nat) (r : BitVec 5) : Word := s.src pos (.x r)
/-- A read of an f register. -/
def State.srcF (s : State) (pos : Nat) (r : BitVec 5) : Word := s.src pos (.f r)

/-- A register outside its window, or any in interlocked mode, whose value is not known yet: the reader waits (02 R41,
R43). -/
def Thread.hazard (t : Thread) (rs : List Dest) : Bool :=
  t.pend.any fun e => e.val == none && (t.locked || e.left == 0) && rs.contains e.dest

/-! ### The end of an instruction -/

/-- A level that is active (07 R154). -/
def Loop.active (l : Loop) : Bool := l.count != 0

/-- One of the parcels of an instruction at `pc` of `len` bytes lies at the last word of an active level (14 R308). -/
def Loop.hit (l : Loop) (pc : Word) (len : Nat) : Bool :=
  l.active && (l.last == pc || (len == 8 && l.last == pc + 4))

/-- An inactive level for a taken transfer to a target outside the body (14 R309). -/
def Loop.leave (l : Loop) (target : Word) : Loop :=
  if l.active && (target < l.start || l.last < target) then { l with count := 0 } else l

/-- What the end of an instruction clears: its wait, its lane operation, and the marks of a transfer and of a first instruction. -/
def Thread.settle (t : Thread) : Thread :=
  { t with wait := none, rel := none, laneWait := none, entered := false, restart := if t.restart = some t.pc then none else t.restart, atTvec := false, noBk := false, flush := false }

/-- Loop-end processing of level 0 (14 R308); `next` is the instruction after. -/
def Thread.loopEnd0 (t : Thread) (next : Word) : Thread :=
  let l := { t.lp0 with count := t.lp0.count - 1 }
  if l.count != 0 then { t with lp0 := l, pc := l.start, entered := true } else { t with lp0 := l, pc := next }

/-- Loop-end processing of level 1, which takes level 0 with it when the two end together (14 R308). -/
def Thread.loopEnd1 (t : Thread) (next : Word) : Thread :=
  let l := { t.lp1 with count := t.lp1.count - 1 }
  let u := { t with lp1 := l }
  if l.count != 0 then { u with pc := l.start, entered := true }
  else if t.lp0.active && t.lp0.last == t.lp1.last then u.loopEnd0 next
  else { u with pc := next }

/-- The instruction at the program counter completes without a transfer: windows shorten, and the program counter moves
on, through the hardware loops in user mode (14 R308, R311). -/
def Thread.complete (t : Thread) (len : Nat) : Thread :=
  let u := t.tick.settle
  let next := t.pc + BitVec.ofNat 64 len
  if t.mode then { u with pc := next }
  else if t.lp1.hit t.pc len then u.loopEnd1 next
  else if t.lp0.hit t.pc len then u.loopEnd0 next
  else { u with pc := next }

/-- The instruction completes by a taken transfer: levels whose body does not hold the target end in user mode (14 R304,
R309, R311); the target is checked when it is fetched (02 R32, R33). -/
def Thread.transfer (t : Thread) (target : Word) : Thread :=
  let u := { t.tick.settle with pc := target, entered := true }
  if t.mode then u else { u with lp0 := t.lp0.leave target, lp1 := t.lp1.leave target }

/-- The current thread's instruction completes. -/
def State.finish (s : State) (len : Nat) : State := s.updMe (·.complete len)

/-- The current thread transfers. -/
def State.jump (s : State) (target : Word) : State := s.updMe (·.transfer target)

/-- The current thread writes a register and its instruction completes. -/
def State.finishX (s : State) (len : Nat) (d : BitVec 5) (v : Word) : State := s.updMe fun t => (t.put (.x d) v).complete len

/-- The current thread writes an f register and its instruction completes. -/
def State.finishF (s : State) (len : Nat) (d : BitVec 5) (v : Word) : State := s.updMe fun t => (t.put (.f d) v).complete len

/-- The current thread writes a predicate and its instruction completes. -/
def State.finishP (s : State) (len : Nat) (d : BitVec 3) (v : Bool) : State := s.updMe fun t => (t.setP d v).complete len

/-- Clocks a core has counted since its reset: those of its course, which its cores share, or L-clocks (01 R20; 07 R160). -/
def State.clocksOf (s : State) (c : Nat) : Nat :=
  (if isSDie (dieOfCore c) then (s.course (courseOfCore c)).cycles else (s.pkg (pkgOfDie (dieOfCore c))).cycles) - (s.core c).cycle.toNat

/-- Clocks a thread's core has counted. -/
def State.coreClock (s : State) (t : Thread) : Nat := s.clocksOf t.core

/-- The current thread waits at its instruction; the clock at which the wait began is kept. -/
def State.waitOn (s : State) (w : Wait) : State :=
  s.updMe fun t => { t with wait := some w, since := if t.wait == some w then t.since else s.coreClock t }

/-- Clocks of its core that a wait of 65,536 still has to run (09 R207, 18 R409). -/
def State.clocksLeft (s : State) (k : Nat) : Nat := 65536 - (s.coreClock (s.thr k) - (s.thr k).since)

/-! ### Error logs -/

/-- TIME of a package. -/
def State.timeOf (s : State) (p : Nat) : Word := (s.pkg p).time

/-- A die appends an entry to its error ring, or counts it lost when the ring is full (19 R433). -/
def State.logErr (s : State) (die : Nat) (addr : Word) (code cause : Nat) (tid : Word) : State :=
  s.updDie die fun d =>
    if d.errHead - d.errTail = 256 then { d with errLost := d.errLost + 1 }
    else { d with
      errs := tset d.errs (d.errHead.toNat % 256) ⟨addr, code, cause, tid, s.timeOf (pkgOfDie die)⟩
      errHead := d.errHead + 1 }

/-! ### Traps (18 R393 to R398) -/

/-- Parcels of an instruction as TVAL holds them (03 R58). -/
def parcels (i : Instr) : Word := BitVec.ofNat 64 (encode i).2

/-- The latest arrival of a thread whose wait at a lane operation is cut, if it waits at one: the one before (11 R252). -/
def Thread.arrivalCut (t : Thread) : Option Arrival :=
  match t.laneWait with
  | some w => w.prev
  | none => t.arrival

/-- The registers of a thread that enters the handler (18 R396). Every window ends, and the first instruction of the
handler waits for results still to come (02 R42). -/
def Thread.enter (t : Thread) (code : BitVec 8) (pos : Nat) (self : Bool) (tval mask tvec : Word) : Thread :=
  let u := t.flushAll
  { u with
    epc := t.pc, cause := ⟨code, BitVec.ofNat 6 pos, self⟩, tval := tval, faultMask := mask, pmode := t.mode, mode := true,
    pc := tvec, entered := true, atTvec := true, noBk := false, flush := true, wait := none, rel := none, laneWait := none, move := none,
    arrival := t.arrivalCut, beside := none, back := [] }

/-- A wait at a lane operation that is cut has had no effect: the arrivals it had matched can be matched again by its caller
(11 R252). -/
def State.unmeet (s : State) (k : Nat) : State :=
  let t := s.thr k
  match t.laneWait with
  | some w => { s with threads := s.threads.map fun x =>
      if x.2.wg = t.wg ∧ w.met.contains x.2.lane then
        (x.1, { x.2 with arrival := x.2.arrival.map fun a => if a.addr = w.addr then { a with seen := a.seen.erase t.lane } else a })
      else x }
  | none => s

/-- Gang position of the current thread at its instruction (18 R398); 0 outside a gang. -/
def State.gangPos (s : State) : Nat :=
  match s.gang with
  | some g => ((g.members.find? (·.1 == s.cur)).map (·.2)).getD 0
  | none => 0

/-- FAULT_MASK of a set of gang positions. -/
def maskOf (ps : List Nat) : Word := ps.foldl (fun m p => m ||| BitVec.ofNat 64 (2 ^ p)) 0

/-- Taking a trap: the one operation by which a synchronous or asynchronous cause enters the handler (18 R396). A trap of
the first instruction at TVEC, or of its fetch, ends the thread as a fatal trap does and is logged (18 R397). Inside a gang
the position is noted, for the members that raised nothing (18 R398). -/
def State.trap (s : State) (code : Nat) (tval : Word) : State :=
  let t := s.me
  if t.atTvec then
    (s.updMe fun t => { t with ending := some .fatal, wait := some .exitQueue, pend := [] }).logErr t.die tval 16 code (s.tidOf t)
  else
    let pos := s.gangPos
    let mask := match s.gang with
      | some g => maskOf (pos :: g.faults.map (·.1))
      | none => 1
    let s1 := (s.unmeet s.cur).updMe fun t => t.enter (BitVec.ofNat 8 code) pos true tval mask (s.core t.core).tvec
    let s2 := if t.onL then s1.updCtx t.ctxKey fun c => { c with hold := true } else s1
    match s.gang with
    | some g => { s2 with gang := some { g with faults := (pos, BitVec.ofNat 8 code) :: g.faults } }
    | none => s2

/-- A member of a gang that raised nothing enters beside those that did: SELF 0, TVAL 0 (18 R398). -/
def State.enterBeside (s : State) (k : Nat) (code : BitVec 8) (pos : Nat) (mask : Word) : State :=
  let t := s.thr k
  (s.unmeet k).setThr k (t.enter code pos false 0 mask (s.core t.core).tvec)

/-- An asynchronous cause is taken at a boundary of a thread that stands alone: EPC is the instruction that would come next,
which for a thread whose wait ends is the waiting one (18 R395, R396). -/
def State.asyncTrap (s : State) (k code : Nat) (tval : Word) : State :=
  let t := s.thr k
  let s1 := (s.unmeet k).updThr k fun t => t.enter (BitVec.ofNat 8 code) 0 true tval 1 (s.core t.core).tvec
  if t.onL then s1.updCtx t.ctxKey fun c => { c with hold := true } else s1

/-- Members of one trap entry may gang with others again (18 R399). -/
def State.parted (s : State) (n : Nat) : State :=
  if n = 0 then s else { s with threads := s.threads.map fun t => (t.1, if t.2.kin = n then { t.2 with kin := 0 } else t.2) }

/-- The return of `tret` (18 R408): the mode comes back, comparators skip the instruction returned to. -/
def State.trapReturn (s : State) : State :=
  let t := s.me
  let s1 := (s.parted t.kin).updMe fun t =>
    { t.tick.settle with mode := t.pmode, pc := t.epc, entered := true, noBk := true }
  if t.onL then s1.updCtx t.ctxKey fun c => { c with hold := false } else s1

/-! ### The frame of an encoded instruction -/

/-- A register budget holds a register (07 R156); on an L-core ROLE reads full budgets (07 R162). -/
def Thread.inBudget (t : Thread) : Dest → Bool
  | .x r => t.onL || decide (r.toNat < (t.role.xregs.toNat + 1) * 8)
  | .f r => t.onL || decide (r.toNat < (t.role.fregs.toNat + 1) * 8)

/-- The guard of an instruction is true (02 R39). -/
def Thread.guard (t : Thread) (g : BitVec 4) : Bool := t.getP (g.setWidth 3) != g.getLsbD 3

/-- The guard that is always true, which instructions of the I and U layouts execute under. -/
def always : BitVec 4 := 7

/-- The frame every encoded instruction runs in: engine-absent on an L-core (02 R49 check 6), the register budget (check 7)
whatever the guard, then the guard, then registers still on their way; then the effect. `eng` says that the instruction
needs an S-core, `rs` are the registers its fields name, `rd` those it reads. -/
def State.lane (s : State) (i : Instr) (g : BitVec 4) (eng : Bool) (rs rd : List Dest) (eff : State → State) :
    Host.Outcome State Fault Refusal :=
  match tget s.threads s.cur with
  | none => .fault .noThread
  | some t => .next (
      if eng && t.onL then s.trap 0x07 (parcels i)
      else if !(rs.all t.inBudget) then s.trap 0x05 (parcels i)
      else if !t.guard g then s.finish (encode i).1
      else if t.hazard rd then s.waitOn (.reg rd)
      else eff s)

/-- A check inside an effect: a cause that stops the instruction, or the rest of it. -/
def State.check (s : State) (bad : Bool) (code : Nat) (tval : Word) (k : State) : State :=
  if bad then s.trap code tval else k

/-! ### Outstanding operations (06 R147, R148) -/

/-- Operations of a class that have finished, oldest first, leave the list with what they have to report; an operation
that finished early waits for every older one of its class. -/
def popDone (k : CntClass) : Bool → List OutOp → List OutOp × List (CntClass × Report)
  | _, [] => ([], [])
  | blocked, o :: t =>
    if o.cls == k then
      if !blocked && o.done then
        let r := popDone k false t
        (r.1, (o.poison.map fun p => (k, p)).toList ++ r.2)
      else
        let r := popDone k true t
        (o :: r.1, r.2)
    else
      let r := popDone k blocked t
      (o :: r.1, r.2)

/-- A command of a class is accepted and counted. -/
def Thread.accept (t : Thread) (k : CntClass) (id : Nat) : Thread := { t with ops := t.ops ++ [⟨k, id, false, none⟩] }

/-- An operation finishes, poisoned or not. -/
def Thread.finishOp (t : Thread) (k : CntClass) (id : Nat) (p : Option Report) : Thread :=
  let ops := t.ops.map fun o => if o.id = id ∧ o.cls = k then { o with done := true, poison := p } else o
  let r := popDone k false ops
  { t with ops := r.1, reports := t.reports ++ r.2 }

/-- Marks whose issuer's counter is still to fall, oldest first, lose those resolved or broken at the front (17 R387). -/
def popRemote : List (Nat × Bool) → List (Nat × Bool)
  | [] => []
  | (m, d) :: t => if d then popRemote t else (m, d) :: t

/-- The marks of a thread's remote counter: its own on an S-core, the package's table on an L-core (07 R473). -/
def State.remoteOf (s : State) (t : Thread) : List (Nat × Bool) :=
  if t.onL then (tget (s.pkg t.pkg).remote (s.ctx t.ctxKey).tid.toNat).getD [] else t.remote

/-- An outstanding counter (07 R155). -/
def State.count (s : State) (t : Thread) (k : CntClass) : Nat :=
  match k with
  | .remote => (s.remoteOf t).length
  | _ => (t.ops.filter (·.cls == k)).length

/-- Classes 0 to 2 are at 0 (15 R332, R335). -/
def Thread.drained (t : Thread) : Bool := t.ops.isEmpty

/-- A deferred store error is taken (05 R116). -/
def State.takeDeferred (s : State) (va : Word) : State :=
  (s.updMe fun t => { t with deferred := none }).trap 0x1B va

/-- The oldest poisoned completion of a class is taken: its fault, with ERRLOG as it was (06 R148). -/
def State.takeReport (s : State) (r : CntClass × Report) : State :=
  (s.updMe fun t =>
    { t with
      reports := t.reports.erase r
      errAddr := (r.2.err.map (·.1)).getD t.errAddr
      errCause := (r.2.err.map (·.2)).getD t.errCause }).trap r.2.code.toNat r.2.tval

end Sys2Proof.Machine
end

