-- ==== Sys2Proof/Machine/Operands.lean ====
section
/-!
DEFINITION. Operand forms: the address of a memory operand in each layout (02 R35, R36; 09 R189, R190), how a loaded
value fills a register, and the ends of an instruction that most meanings share.
-/

namespace Sys2Proof

/-! ### Sizes (09 R188) -/

/-- Bytes of an integer load. -/
def LdSize.bytes : LdSize → Nat
  | .s8 | .z8 => 1
  | .s16 | .z16 => 2
  | .s32 | .z32 => 4
  | .d64 => 8

/-- Bytes of an integer store. -/
def StSize.bytes : StSize → Nat
  | .b8 => 1
  | .b16 => 2
  | .b32 => 4
  | .b64 => 8

/-- What a load writes to its register: the bytes read, as a little-endian number, sign- or zero-extended. -/
def LdSize.extend (z : LdSize) (v : Nat) : Word :=
  match z with
  | .s8 => (BitVec.ofNat 8 v).signExtend 64
  | .z8 => (BitVec.ofNat 8 v).setWidth 64
  | .s16 => (BitVec.ofNat 16 v).signExtend 64
  | .z16 => (BitVec.ofNat 16 v).setWidth 64
  | .s32 => (BitVec.ofNat 32 v).signExtend 64
  | .z32 => (BitVec.ofNat 32 v).setWidth 64
  | .d64 => BitVec.ofNat 64 v

end Sys2Proof

namespace Sys2Proof.Machine

/-- How an instruction or a device step ends. -/
abbrev Out := Host.Outcome State Fault Refusal

/-- Bytes of an instruction (02 R30). -/
def lenOf (i : Instr) : Nat := (encode i).1

/-! ### Addresses -/

/-- The M layout: the offset counts in units of the access size (02 R35). -/
def mAddr (base : Word) (off : BitVec 7) (size : Nat) : Word := base + off.signExtend 64 * BitVec.ofNat 64 size

/-- The X layout: the offset counts in bytes (02 R36). -/
def xAddr (base : Word) (off : BitVec 17) : Word := base + off.signExtend 64

/-- The indexed forms: the index counts in units of the access size (09 R189). -/
def ixAddr (base idx : Word) (off : BitVec 17) (size : Nat) : Word :=
  base + idx * BitVec.ofNat 64 size + off.signExtend 64

/-! ### Shared ends -/

/-- A long-latency result: it takes effect at once or after its window (02 R40, R41), and the instruction completes. -/
def State.finishLate (s : State) (len : Nat) (d : Dest) (la : BitVec 4) (v : Word) : State :=
  s.updMe fun t => (t.post d la v).complete len

/-- An instruction of three x registers. -/
def alu3 (i : Instr) (g : BitVec 4) (d a b : BitVec 5) (f : Word → Word → Word) (s : State) : Out :=
  s.lane i g false [.x d, .x a, .x b] [.x a, .x b] fun s => s.finishX (lenOf i) d (f (s.srcX 0 a) (s.srcX 1 b))

/-- An instruction of two x registers. -/
def alu2 (i : Instr) (g : BitVec 4) (d a : BitVec 5) (f : Word → Word) (s : State) : Out :=
  s.lane i g false [.x d, .x a] [.x a] fun s => s.finishX (lenOf i) d (f (s.srcX 0 a))

/-- An instruction that writes an x register from no register. -/
def alu1 (i : Instr) (g : BitVec 4) (d : BitVec 5) (f : Thread → Word) (s : State) : Out :=
  s.lane i g false [.x d] [] fun s => s.finishX (lenOf i) d (f s.me)

/-- An instruction of two x registers whose result may come late. -/
def late3 (i : Instr) (g : BitVec 4) (d a b : BitVec 5) (la : BitVec 4) (f : Word → Word → Word) (s : State) : Out :=
  s.lane i g false [.x d, .x a, .x b] [.x a, .x b] fun s =>
    s.finishLate (lenOf i) (.x d) la (f (s.srcX 0 a) (s.srcX 1 b))

/-- An instruction that compares two x registers into a predicate. -/
def cmp3 (i : Instr) (g : BitVec 4) (d : BitVec 3) (a b : BitVec 5) (f : Word → Word → Bool) (s : State) : Out :=
  s.lane i g false [.x a, .x b] [.x a, .x b] fun s => s.finishP (lenOf i) d (f (s.srcX 0 a) (s.srcX 1 b))

/-- An instruction on predicates. -/
def pred3 (i : Instr) (g : BitVec 4) (d a b : BitVec 3) (f : Bool → Bool → Bool) (s : State) : Out :=
  s.lane i g false [] [] fun s => s.finishP (lenOf i) d (f (s.me.getP a) (s.me.getP b))

end Sys2Proof.Machine
end

