-- ==== Sys2Proof/Machine/Flags.lean ====
section
/-!
DEFINITION. Flags: the relations a compare leaves in a predicate (08 R181), the predicate image (07 R153), and the
sticky float flags of FFLAGS (07 R161).
-/

namespace Sys2Proof

/-- The relation a `cmp` tests (08 R181). -/
def CmpOp.holds (c : CmpOp) (a b : Word) : Bool :=
  match c with
  | .eq => a == b
  | .ne => a != b
  | .lt => a.slt b
  | .ge => b.sle a
  | .lo => a.ult b
  | .hs => b.ule a

end Sys2Proof

namespace Sys2Proof.Machine

/-- Bit n of a word, as a number. -/
def bitAt (b : Bool) (n : Nat) : Nat := if b then 2 ^ n else 0

/-- The predicate image: p0 to p6, and bit 7 reads 1 (07 R153). -/
def Thread.predImage (t : Thread) : Word :=
  BitVec.ofNat 64 ((List.range 7).foldl (fun n i => n + bitAt (t.p[i]?.getD false) i) 128)

/-- `pset`: p0 to p6 from the low bits of a word (08 R183). -/
def Thread.setPreds (t : Thread) (v : Word) : Thread := { t with p := Vector.ofFn fun i => v.getLsbD i }

/-- Inexact. -/
def flagNX : BitVec 5 := 1
/-- Underflow. -/
def flagUF : BitVec 5 := 2
/-- Overflow. -/
def flagOF : BitVec 5 := 4
/-- Division by zero. -/
def flagDZ : BitVec 5 := 8
/-- Invalid. -/
def flagNV : BitVec 5 := 16

/-- Flags are sticky: an instruction adds its own (07 R161). -/
def Thread.raise (t : Thread) (f : BitVec 5) : Thread := { t with fflags := t.fflags ||| f }

end Sys2Proof.Machine
end

