-- ==== Sys2Proof/Machine/Float.lean ====
section
/-!
DEFINITION. Number formats (chapter 10): values and encodings of the binary formats and of A8 (R210, R214, R215),
rounding (R216, R217), overflow (R219, R220) and the flags (R218); and the exact arithmetic that every float operation
rounds once (R224, R230).
-/

namespace Sys2Proof

/-- Bits of an element (10 R210, R214). -/
def Elem.width : Elem → Nat
  | .f64 => 64
  | .f32 => 32
  | .f16 | .bf16 => 16
  | .a8 => 8

/-- Fraction bits of a binary format (10 R210). -/
def Elem.frac : Elem → Nat
  | .f64 => 52
  | .f32 => 23
  | .f16 => 10
  | .bf16 => 7
  | .a8 => 3

/-- Exponent bias of a binary format (10 R210). -/
def Elem.bias : Elem → Nat
  | .f64 => 1023
  | .f32 | .bf16 => 127
  | .f16 => 15
  | .a8 => 0

end Sys2Proof

namespace Sys2Proof.Machine

/-- Rounding modes (10 R216). -/
inductive Rnd where | ne | tz | up | dn
deriving DecidableEq, Repr

/-- The mode of FRM.RM (07 R161). -/
def rndOf (frm : BitVec 2) : Rnd := if frm = 0 then .ne else if frm = 1 then .tz else if frm = 2 then .up else .dn

/-- The mode an instruction rounds in (03 R67, 10 R216). -/
def rndFor (m : RM) (frm : BitVec 2) : Rnd :=
  match m with
  | .rne => .ne
  | .rtz => .tz
  | .rup => .up
  | .rdn => .dn
  | .frm => rndOf frm

/-- A value: a NaN, an infinity, or (−1)^neg × m × 2^e exactly; m = 0 is a signed zero. -/
inductive FVal where
  | nan (signalling : Bool)
  | inf (neg : Bool)
  | num (neg : Bool) (m : Nat) (e : Int)
deriving DecidableEq, Repr

/-- A result of an operation on elements: its bits and the flags it sets. -/
abbrev FRes := Nat × BitVec 5

end Sys2Proof.Machine

namespace Sys2Proof

open Sys2Proof.Machine

/-! ### Encodings -/

/-- All exponent bits set. -/
def Elem.infBits (E : Elem) : Nat := (2 * E.bias + 1) * 2 ^ E.frac

/-- The sign bit. -/
def Elem.signBit (E : Elem) : Nat := 2 ^ (E.width - 1)

/-- The default NaN (10 R210, R214). -/
def Elem.nanBits : Elem → Nat
  | .a8 => 0x80
  | E => E.infBits + 2 ^ (E.frac - 1)

/-- An A8 body's magnitude in units of 2^−24 (10 R215); body 127 would be 30, which the overflow bound of R217 uses. -/
def a8Units (b : Nat) : Nat :=
  let p := Nat.log2 b
  let f := p / 2
  let x := p - f
  let base := if p ≤ 1 then p else if p = 2 then 3 else if p = 3 then 5 else if p = 4 then 9 else if p = 5 then 13 else 21
  let e := b / 2 ^ f % 2 ^ x
  (2 ^ f + b % 2 ^ f) * 2 ^ (base + e) / 2 ^ f

/-- The value of an element (10 R210, R214). -/
def Elem.decode (E : Elem) (v : Nat) : FVal :=
  match E with
  | .a8 =>
    let b := v % 128
    let s := v / 128 % 2 == 1
    if b = 0 then (if s then .nan false else .num false 0 0)
    else if b = 127 then .inf s
    else .num s (a8Units b) (-24)
  | E =>
    let s := v / E.signBit % 2 == 1
    let mag := v % E.signBit
    let ex := mag / 2 ^ E.frac
    let fr := mag % 2 ^ E.frac
    if E.infBits ≤ mag then (if fr = 0 then .inf s else .nan (fr < 2 ^ (E.frac - 1)))
    else if ex = 0 then .num s fr (1 - E.bias - E.frac)
    else .num s (2 ^ E.frac + fr) ((ex : Int) - E.bias - E.frac)

/-- A signed infinity's bits. -/
def Elem.infOf (E : Elem) (neg : Bool) : Nat :=
  match E with
  | .a8 => if neg then 0xFF else 0x7F
  | E => E.infBits + (if neg then E.signBit else 0)

/-- The largest finite value's bits, with a sign (10 R210, R215). -/
def Elem.maxOf (E : Elem) (neg : Bool) : Nat :=
  match E with
  | .a8 => if neg then 0xFE else 0x7E
  | E => E.infBits - 1 + (if neg then E.signBit else 0)

end Sys2Proof

namespace Sys2Proof.Machine

/-! ### Rounding -/

/-- Whether a magnitude of odd or even last bit, with `r` of `2^k` parts left over and perhaps more, rounds away from
zero (10 R216). -/
def roundsUp (m : Rnd) (neg odd : Bool) (r k : Nat) (sticky : Bool) : Bool :=
  match m with
  | .ne => if k = 0 then false
           else decide (2 ^ (k - 1) < r) || (r == 2 ^ (k - 1) && (sticky || odd))
  | .tz => false
  | .up => !neg && (r != 0 || sticky)
  | .dn => neg && (r != 0 || sticky)

/-- A magnitude `m × 2^e`, a little more when `sticky`, as a count of units `2^q`, and whether it was inexact. -/
def roundAt (md : Rnd) (neg : Bool) (m : Nat) (e q : Int) (sticky : Bool) : Nat × Bool :=
  if q ≤ e then
    let n := m * 2 ^ (e - q).toNat
    (n + (if roundsUp md neg (n % 2 == 1) 0 1 sticky then 1 else 0), sticky)
  else
    let k := (q - e).toNat
    let n := m / 2 ^ k
    let r := m % 2 ^ k
    (n + (if roundsUp md neg (n % 2 == 1) r k sticky then 1 else 0), r != 0 || sticky)

/-- What an overflow delivers in a rounding mode (10 R219): infinity, or the largest finite value. -/
def overflowBits (E : Elem) (md : Rnd) (neg : Bool) : Nat :=
  match md with
  | .ne => E.infOf neg
  | .tz => E.maxOf neg
  | .up => if neg then E.maxOf neg else E.infOf neg
  | .dn => if neg then E.infOf neg else E.maxOf neg

/-- One rounding to a binary format (10 R216, R218), and whether it overflowed; without an overflow policy the bits are
those of R219. -/
def roundBin (E : Elem) (md : Rnd) (neg : Bool) (m : Nat) (e : Int) (sticky : Bool) : FRes × Bool :=
  let sg := if neg then E.signBit else 0
  if m = 0 ∧ !sticky then ((sg, 0), false)
  else
    let emin : Int := 1 - E.bias
    let top : Int := (Nat.log2 m : Int) + e
    let q : Int := max (top - E.frac) (emin - E.frac)
    let r := roundAt md neg m e q sticky
    let bits := r.1 + (q - (emin - E.frac)).toNat * 2 ^ E.frac
    if E.infBits ≤ bits then ((overflowBits E md neg, flagOF ||| flagNX), true)
    else
      let u := (roundAt md neg m e (top - E.frac) sticky).1
      let tiny := m = 0 ∨ (top < emin ∧ ¬(top = emin - 1 ∧ u = 2 ^ (E.frac + 1)))
      let fl := (if r.2 then flagNX else 0) ||| (if r.2 ∧ tiny then flagUF else 0)
      ((bits + sg, fl), false)

/-- The largest A8 body not above a magnitude of `x` half units of 2^−24 (10 R215). -/
def a8Floor (x : Nat) : Nat := ((List.range 127).filter fun b => decide (0 < b ∧ 2 * a8Units b ≤ x)).length

/-- One rounding to A8 (10 R217): to nearest, ties to the even body, and overflow from 29. -/
def roundA8 (neg : Bool) (m : Nat) (e : Int) (sticky : Bool) : FRes × Bool :=
  let h : Int := e + 25
  let x := if 0 ≤ h then m * 2 ^ h.toNat else m / 2 ^ (-h).toNat
  let st := sticky || (decide (h < 0) && m % 2 ^ (-h).toNat != 0)
  if 29 * 2 ^ 25 ≤ x then ((Elem.a8.infOf neg, flagOF ||| flagNX), true)
  else
    let b := a8Floor x
    let lo := if b = 0 then 0 else a8Units b
    let mid := lo + a8Units (b + 1)
    let r := if mid < x ∨ (x = mid ∧ (st ∨ b % 2 = 1)) then b + 1 else b
    let exact := !st && x == 2 * (if r = 0 then 0 else a8Units r)
    let fl := if exact then 0 else flagNX ||| (if x < 2 then flagUF else 0)
    ((if r = 0 then 0 else r + (if neg then 128 else 0), fl), false)

/-- One rounding of an exact magnitude to an element format. -/
def roundMag (E : Elem) (md : Rnd) (neg : Bool) (m : Nat) (e : Int) (sticky : Bool) : FRes × Bool :=
  match E with
  | .a8 => roundA8 neg m e sticky
  | E => roundBin E md neg m e sticky

/-- A value rounded to an element format; a NaN becomes the default NaN, with NV for a signalling one (10 R212). -/
def roundVal (E : Elem) (md : Rnd) (v : FVal) : FRes :=
  match v with
  | .nan sig => (E.nanBits, if sig then flagNV else 0)
  | .inf neg => (E.infOf neg, 0)
  | .num neg m e => (roundMag E md neg m e false).1

/-! ### Exact arithmetic -/

/-- Sign of a value. -/
def FVal.neg : FVal → Bool
  | .nan _ => false
  | .inf n => n
  | .num n _ _ => n

/-- A value with its sign inverted. -/
def FVal.flip : FVal → FVal
  | .nan s => .nan s
  | .inf n => .inf (!n)
  | .num n m e => .num (!n) m e

/-- The exact product; 0 × infinity is invalid and is kept as a signalling NaN (10 R218, R230). -/
def FVal.mul : FVal → FVal → FVal
  | .nan s, .nan t => .nan (s || t)
  | .nan s, _ => .nan s
  | _, .nan t => .nan t
  | .inf n, .inf k => .inf (n != k)
  | .inf n, .num k m _ => if m = 0 then .nan true else .inf (n != k)
  | .num n m _, .inf k => if m = 0 then .nan true else .inf (n != k)
  | .num n m e, .num k p f => .num (n != k) (m * p) (e + f)

/-- A value that is a NaN. -/
def FVal.isNan : FVal → Bool
  | .nan _ => true
  | _ => false

/-- A value that is a signalling NaN, or stands for an invalid product. -/
def FVal.isSig : FVal → Bool
  | .nan s => s
  | _ => false

/-- An infinity of a sign. -/
def FVal.isInf (neg : Bool) : FVal → Bool
  | .inf n => n == neg
  | _ => false

/-- The least exponent among terms. -/
def minExp (ts : List FVal) : Int :=
  ts.foldl (fun a t => match t with | .num _ _ e => min a e | _ => a) 0

/-- A finite term as a count of units 2^q, for q at most its exponent. -/
def FVal.units (q : Int) : FVal → Int
  | .num n m e => (if n then -1 else 1) * ((m * 2 ^ (e - q).toNat : Nat) : Int)
  | _ => 0

/-- The exact sum of terms (10 R216, R224): opposite infinities are invalid; a sum of zero takes the sign all terms share,
else − in RDN and + in the other modes. -/
def sumOf (md : Rnd) (ts : List FVal) : FVal :=
  let hasP := ts.any (FVal.isInf false)
  let hasN := ts.any (FVal.isInf true)
  if ts.any FVal.isNan || (hasP && hasN) then .nan (ts.any FVal.isSig || (hasP && hasN))
  else if hasP then .inf false
  else if hasN then .inf true
  else
    let q := minExp ts
    let n : Int := ts.foldl (fun a t => a + t.units q) 0
    if n = 0 then .num (ts.all FVal.neg || (md == .dn && !ts.all fun t => !t.neg)) 0 0
    else .num (n < 0) n.natAbs q

/-! ### Operations on elements -/

/-- Quotient of two finite magnitudes to well over twice the widest fraction, and whether anything is left (10 R230). -/
def quot (m p : Nat) : Nat × Bool × Int :=
  let k := Nat.log2 p + 130
  (m * 2 ^ k / p, m * 2 ^ k % p != 0, -(k : Int))

/-- `fdiv` (11 R230). -/
def fdivE (E : Elem) (md : Rnd) (a b : FVal) : FRes :=
  match a, b with
  | .nan s, .nan t => roundVal E md (.nan (s || t))
  | .nan s, _ => roundVal E md (.nan s)
  | _, .nan t => roundVal E md (.nan t)
  | .inf _, .inf _ => (E.nanBits, flagNV)
  | .inf n, .num k _ _ => (E.infOf (n != k), 0)
  | .num n _ _, .inf k => roundVal E md (.num (n != k) 0 0)
  | .num n m e, .num k p f =>
    if p = 0 then (if m = 0 then (E.nanBits, flagNV) else (E.infOf (n != k), flagDZ))
    else if m = 0 then roundVal E md (.num (n != k) 0 0)
    else
      let q := quot m p
      (roundMag E md (n != k) q.1 (e - f + q.2.2) q.2.1).1

/-- `frcp` (11 R230): a quotient of 1. -/
def frcpE (E : Elem) (md : Rnd) (a : FVal) : FRes := fdivE E md (.num false 1 0) a

/-- Integer square root, bit by bit from `2^i`. -/
def isqrtFrom : Nat → Nat → Nat → Nat
  | 0, _, r => r
  | i + 1, n, r => isqrtFrom i n (if (r + 2 ^ i) * (r + 2 ^ i) ≤ n then r + 2 ^ i else r)

/-- The largest number whose square is at most `n`. -/
def isqrt (n : Nat) : Nat := isqrtFrom (Nat.log2 n / 2 + 1) n 0

/-- `fsqrt` (11 R230). -/
def fsqrtE (E : Elem) (md : Rnd) (a : FVal) : FRes :=
  match a with
  | .nan s => roundVal E md (.nan s)
  | .inf n => if n then (E.nanBits, flagNV) else (E.infOf false, 0)
  | .num n m e =>
    if m = 0 then roundVal E md (.num n 0 0)
    else if n then (E.nanBits, flagNV)
    else
      let e2 := if e % 2 = 0 then e else e - 1
      let w := m * 2 ^ ((e - e2).toNat + 256)
      let r := isqrt w
      (roundMag E md false r (e2 / 2 - 128) (r * r != w)).1

/-- `frsqrt` (11 R230). -/
def frsqrtE (E : Elem) (md : Rnd) (a : FVal) : FRes :=
  match a with
  | .nan s => roundVal E md (.nan s)
  | .inf n => if n then (E.nanBits, flagNV) else (0, 0)
  | .num n m e =>
    if m = 0 then (E.infOf n, flagDZ)
    else if n then (E.nanBits, flagNV)
    else
      let e2 := if e % 2 = 0 then e else e - 1
      let w := m * 2 ^ (e - e2).toNat
      let k := 2 * (Nat.log2 w + 130)
      let r := isqrt (2 ^ k / w)
      (roundMag E md false r (-(e2 / 2) - (k / 2 : Nat)) (r * r * w != 2 ^ k)).1

/-- A key in numeric order; −0 is below +0 when `split`, else equal to it. -/
def orderKey (E : Elem) (split : Bool) (v : Nat) : Int :=
  if v / E.signBit % 2 = 1 then -((v % E.signBit : Nat) : Int) - (if split then 1 else 0) else (v % E.signBit : Nat)

/-- `fmin` and `fmax` (11 R231). -/
def fminmaxE (E : Elem) (wantMax : Bool) (a b : Nat) : FRes :=
  let x := E.decode a
  let y := E.decode b
  let fl := if x.isSig || y.isSig then flagNV else 0
  if x.isNan && y.isNan then (E.nanBits, fl)
  else if x.isNan then (b, fl)
  else if y.isNan then (a, fl)
  else
    let le := decide (orderKey E true a ≤ orderKey E true b)
    (if le != wantMax then a else b, fl)

/-- `fcmp` (11 R234): the relation, and the flags. -/
def fcmpE (E : Elem) (c : FcmpOp) (a b : Nat) : Bool × BitVec 5 :=
  let x := E.decode a
  let y := E.decode b
  let un := x.isNan || y.isNan
  let sig := x.isSig || y.isSig
  let ka := orderKey E false a
  let kb := orderKey E false b
  match c with
  | .eq => (!un && ka == kb, if sig then flagNV else 0)
  | .ne => (un || ka != kb, if sig then flagNV else 0)
  | .lt => (!un && decide (ka < kb), if un then flagNV else 0)
  | .le => (!un && decide (ka ≤ kb), if un then flagNV else 0)
  | .un => (un, if sig then flagNV else 0)

/-- `fclass` (11 R235): the bit that is set. -/
def fclassE (E : Elem) (v : Nat) : Nat :=
  match E.decode v with
  | .inf n => if n then 0 else 7
  | .nan s => if s then 8 else 9
  | .num n m _ =>
    if m = 0 then (if n then 3 else 4)
    else if v % E.signBit < 2 ^ E.frac then (if n then 2 else 5)
    else (if n then 1 else 6)

/-- A finite value rounded to an integer magnitude, and whether it was inexact (10 R216). -/
def toIntegral (md : Rnd) (n : Bool) (m : Nat) (e : Int) : Nat × Bool := roundAt md n m e 0 false

/-- `fround` (11 R233). -/
def froundE (E : Elem) (md : Rnd) (v : Nat) : FRes :=
  match E.decode v with
  | .nan s => roundVal E md (.nan s)
  | .inf _ => (v, 0)
  | .num n m e =>
    if m = 0 ∨ 0 ≤ e then (v, 0)
    else
      let r := toIntegral md n m e
      ((roundMag E .ne n r.1 0 false).1.1, if r.2 then flagNX else 0)

/-- `fcvt.x` (10 R223). -/
def toInt64 (E : Elem) (md : Rnd) (sgn : Bool) (v : Nat) : Word × BitVec 5 :=
  let hi : Int := if sgn then 2 ^ 63 - 1 else 2 ^ 64 - 1
  let lo : Int := if sgn then -(2 ^ 63) else 0
  match E.decode v with
  | .nan _ => (0, flagNV)
  | .inf n => (BitVec.ofInt 64 (if n then lo else hi), flagNV)
  | .num n m e =>
    let r := toIntegral md n m e
    let k : Int := if n then -(r.1 : Int) else r.1
    if hi < k then (BitVec.ofInt 64 hi, flagNV)
    else if k < lo then (BitVec.ofInt 64 lo, flagNV)
    else (BitVec.ofInt 64 k, if r.2 then flagNX else 0)

/-- `xcvt.f` (10 R223). -/
def ofInt64 (E : Elem) (md : Rnd) (sgn : Bool) (v : Word) : FRes :=
  let k : Int := if sgn then v.toInt else v.toNat
  (roundMag E md (decide (k < 0)) k.natAbs 0 false).1

/-- A conversion between element formats (10 R217, R219 to R222), and whether it overflowed under a trapping policy. -/
def fcvtE (dst src : Elem) (md : Rnd) (ovp : BitVec 2) (v : Nat) : FRes × Bool :=
  match src.decode v with
  | .nan s => ((dst.nanBits, if s then flagNV else 0), false)
  | .inf n => ((dst.infOf n, 0), false)
  | .num n m e =>
    let r := roundMag dst md n m e false
    if r.2 && convPolicy src dst then
      ((if ovp = 0 then dst.maxOf n else if ovp = 1 then dst.infOf n else dst.nanBits, flagOF ||| flagNX), ovp == 3)
    else (r.1, false)

/-- A memory or lane addition: rounded to nearest, no flags kept (09 R203, 11 R251). -/
def faddE (E : Elem) (md : Rnd) (a b : Nat) : FRes := roundVal E md (sumOf md [E.decode a, E.decode b])

end Sys2Proof.Machine
end

