-- ==== Sys2Proof/Machine/Space.lean ====
section
/-!
DEFINITION. Physical addresses: the map of a package (04 R74, R75), the slab that is a line's home (05 R99), forwarding by
migration descriptors (05 R119), and the error responses an address draws (04 R76, 05 R115, R116; 20 R447).
-/

namespace Sys2Proof.Machine

/-- PA[51:48] (04 R74). -/
def paPkg (pa : Nat) : Nat := pa / 2 ^ 48 % 16
/-- PA[47:0]. -/
def paOff (pa : Nat) : Nat := pa % 2 ^ 48
/-- The 64-byte sector of an address. -/
def secOf (pa : Nat) : Nat := pa / 64 * 64

/-- What stands at an offset of a package (04 R75). -/
inductive Area where
  | hbm (stack : Nat)
  | lpd (half : Nat)
  | hole
  | ctrl
deriving DecidableEq, Repr

/-- The map of R75. -/
def areaOf (pa : Nat) : Area :=
  let t := paOff pa / 2 ^ 40
  if t = 0 then .hbm (paOff pa / 2 ^ 36)
  else if t = 2 then .lpd 0
  else if t = 3 then .lpd 1
  else if t = 0xFF then .ctrl
  else .hole

/-- HBM4E or LPDDR-6. -/
def isMem (pa : Nat) : Bool :=
  match areaOf pa with
  | .hbm _ | .lpd _ => true
  | _ => false

/-- The hash that spreads LPDDR-6 over the slabs (05 R99). -/
def lpdHash (pa : Nat) : Nat :=
  (List.range 13).foldl (fun h i => h ^^^ (pa / 2 ^ (8 + 3 * i) % 8)) (pa / 2 ^ 47 % 2)

/-- The die whose slab is the home of an address (05 R99). -/
def slabOf (pa : Nat) : Nat :=
  match areaOf pa with
  | .hbm k => paPkg pa * 16 + 2 + k / 2
  | _ => paPkg pa * 16 + 2 + lpdHash pa

/-- Where a request for an address is performed while a migration descriptor forwards it (05 R119). -/
def State.fwdOne (s : State) (pa : Nat) : Nat :=
  match (s.pkg (paPkg pa)).descs.find? fun d => decide (d.2.src ≤ pa ∧ pa < d.2.src + d.2.len ∧ pa - d.2.src < d.2.bound) with
  | some d => d.2.dst + (pa - d.2.src)
  | none => pa

/-- Forwarding repeats at the new home; a chain is at most the 16 descriptors of a package long. -/
def State.fwd (s : State) (pa : Nat) : Nat := (List.range 16).foldl (fun a _ => s.fwdOne a) pa

/-- A unit out of service: OFFLINE or RETIRED (19 R434). -/
def State.gone (s : State) (u : UnitId) : Bool := decide (2 ≤ (s.service u).1)

/-- A stack or controller that does not answer, or whose die does not (04 R76, 20 R447): the home is that of R75's table
(log entry 22). LPDDR-6 controller n serves half n (log entry 10). -/
def State.homeGone (s : State) (pa : Nat) : Bool :=
  let p := paPkg pa
  match areaOf pa with
  | .hbm k => s.gone (.stack p k) || s.gone (.die (slabOf pa))
  | .lpd h => s.gone (.controller p h) || s.gone (.die (p * 16 + h))
  | _ => false

/-- The L-die that carries an Ethernet port: ports 0 and 1 DIE_ID 0, ports 2 and 3 DIE_ID 1 (01 R11). -/
def portDie (p n : Nat) : Nat := p * 16 + n / 2
/-- The L-die that carries a Shuak Link port (01 R11). -/
def linkDie (p n : Nat) : Nat := p * 16 + n % 8 / 4

/-- The port mask of a destination: the route table's, without ports that are out of service or whose L-die is (20 R445, R446; 01 R11). -/
def State.routeMask (s : State) (src dst : Nat) : Nat :=
  (List.range 8).foldl (fun m n =>
    if ((tget (s.pkg src).routes dst).getD 0).testBit n && !s.gone (.port src n) && !s.gone (.die (linkDie src n)) then m + 2 ^ n else m) 0

/-- Whether one package reaches another: itself, or a package whose mask is not empty (20 R446). -/
def State.reaches (s : State) (src dst : Nat) : Bool := src == dst || s.routeMask src dst != 0

/-- An access to another package that gets no answer in time (18 R418). -/
def State.lateTo (s : State) (pkg pa : Nat) : Bool := s.late == some s.cur && paPkg pa != pkg

/-- The code of the error response an access of an agent of a package draws from memory, if it draws one (05 R115);
`full` is a write of the whole sector, which replaces poisoned data (05 R101). -/
def State.memCode (s : State) (pkg pa : Nat) (full : Bool) : Option Nat :=
  if !s.present (paPkg pa) || !s.reaches pkg (paPkg pa) then some 3
  else if s.lateTo pkg pa then some 8
  else match areaOf pa with
    | .hole => some 1
    | .ctrl => some 2
    | _ => if s.homeGone pa then some 1 else if !full && s.poison.contains (secOf pa) then some 5 else none

/-- The die that holds a register of control space, by the blocks of the maps (18 R410, R421; 19 R423; 20 R437, R445, with the
ports of 01 R11). The package's own registers, of which the spec names no die, are with DIE_ID 0 (DESIGN CHOICE, log entry 22);
none in a block of an absent die. -/
def ctrlDie (pa : Nat) : Option Nat :=
  let p := paPkg pa * 16
  let o := paOff pa % 2 ^ 40
  if 0x00100000 ≤ o ∧ o < 0x00109000 then some (p + (o - 0x00100000) / 0x100 / 2 / 36)
  else if 0x02000000 ≤ o ∧ o < 0x03000000 then some (p + 2 + (o - 0x02000000) / 0x10000 / 32)
  else if 0x04000000 ≤ o ∧ o < 0x04004000 then some (p + 2 + (o - 0x04000000) / 0x100 / 8)
  else if 0x05000000 ≤ o ∧ o < 0x05A00000 then some (p + (o - 0x05000000) / 0x100000)
  else if 0x06000000 ≤ o ∧ o < 0x06040000 then some (portDie (paPkg pa) ((o - 0x06000000) / 0x10000))
  else if 0x07000000 ≤ o ∧ o < 0x07080000 then some (linkDie (paPkg pa) ((o - 0x07000000) / 0x10000))
  else if o = 0 ∨ (0x08000000 ≤ o ∧ o < 0x08000018) then some p
  else none

/-- The die that produces an error response and logs it (05 R116); `own` is the die of the issuing agent. -/
def respDie (pa code own : Nat) : Nat :=
  if code = 3 ∨ code = 8 then own
  else match areaOf pa with
    | .hbm _ | .lpd _ => slabOf pa
    | .ctrl => (ctrlDie pa).getD own
    | .hole => own

/-- The error log entry of an error response. -/
def State.logResp (s : State) (pa code own : Nat) (tid : Word) : State :=
  s.logErr (respDie pa code own) (BitVec.ofNat 64 pa) code 0 tid

end Sys2Proof.Machine
end

