-- ==== Sys2Proof/Machine/Coherence.lean ====
section
/-!
DEFINITION. The directory protocol (05 R102 to R114): which agents hold a sector and in which state, combining update-only
partials, the regions, the slabs (R99 to R101), and the reads and writes of memory that go through them. `State.mem` holds the
value a coherent read returns once partials are combined; what stands beneath or beside it (the home's bytes under a dirty copy,
DRAM's under a dirty slab line, partials, untracked copies, replicas) is kept with the copies and the slab lines.
-/

namespace Sys2Proof.Machine

/-! ### Reductions (09 R203, 05 R105) -/

/-- Bits of a reduction's word. -/
def redWidth (wide : Bool) : Nat := if wide then 64 else 32

/-- A number read as two's complement of `n` bits. -/
def asSigned (n v : Nat) : Int := (BitVec.ofNat n v).toInt

/-- One step of a reduction on words of `n` bits. -/
def redStep (op : RedOp) (wide : Bool) (a v : Nat) : Nat :=
  let n := redWidth wide
  match op with
  | .add => (a + v) % 2 ^ n
  | .and => a &&& v
  | .or => a ||| v
  | .xor => a ^^^ v
  | .min => if asSigned n a ≤ asSigned n v then a else v
  | .max => if asSigned n a ≤ asSigned n v then v else a
  | .fadd => (faddE (if wide then .f64 else .f32) .ne a v).1

/-- The identity a lane word of a partial starts at (05 R105). -/
def redIdentity (op : RedOp) (wide : Bool) : Nat :=
  let n := redWidth wide
  match op with
  | .add | .or | .xor => 0
  | .and => 2 ^ n - 1
  | .min => 2 ^ (n - 1) - 1
  | .max => 2 ^ (n - 1)
  | .fadd => 2 ^ (n - 1)

/-- A fresh partial buffer: every lane word at the identity. -/
def freshPartial (op : RedOp) (wide : Bool) : BitVec 512 :=
  BitVec.ofNat 512 ((List.range (512 / redWidth wide)).foldl
    (fun a _ => a * 2 ^ redWidth wide + redIdentity op wide) 0)

/-- A lane word of a partial buffer. -/
def partialWord (wide : Bool) (d : BitVec 512) (i : Nat) : Nat := d.toNat / 2 ^ (redWidth wide * i) % 2 ^ redWidth wide

/-- A partial buffer with one lane word replaced. -/
def setPartialWord (wide : Bool) (d : BitVec 512) (i v : Nat) : BitVec 512 :=
  BitVec.ofNat 512 (d.toNat - partialWord wide d i * 2 ^ (redWidth wide * i) + v * 2 ^ (redWidth wide * i))

/-- Memory with a partial applied to a sector, word by word (05 R106). Words that no update has reached stay as they are: for fadd
an identity of −0.0 would make the default NaN of any other NaN there (DEDUCED, log entry 81). -/
def applyPartial (op : RedOp) (wide : Bool) (sec : Nat) (d : BitVec 512) (ws : BitVec 16) (m : Store 8) : Store 8 :=
  let old := BitVec.ofNat 512 (m.readN sec 64)
  m.writeN sec 64 ((List.range (512 / redWidth wide)).foldr (fun i a =>
    let v := partialWord wide d i
    let o := partialWord wide old i
    (if ws.getLsbD i then redStep op wide o v else o) + 2 ^ redWidth wide * a) 0)

/-! ### Copies -/

/-- Key of a copy. -/
def copyKey (ag sec : Nat) : Nat := ag * 2 ^ 52 + sec
/-- Agent of a copy's key. -/
def keyAgent (k : Nat) : Nat := k / 2 ^ 52
/-- Sector of a copy's key. -/
def keySec (k : Nat) : Nat := k % 2 ^ 52

/-- The die of an agent (05 R102). -/
def agentDie (ag : Nat) : Nat :=
  let n := ag % 512
  ag / 512 * 16 + (if n < 256 then 2 + n / 32 else if n < 328 then (n - 256) / 36 else if n < 336 then (n - 328) / 2
    else n - 336)

/-- The copy an agent holds. -/
def State.copy (s : State) (ag sec : Nat) : Option Copy := tget s.copies (copyKey ag sec)

/-- State in which an agent holds a sector, if it does. -/
def State.holds (s : State) (ag sec : Nat) : Option CacheSt := (s.copy ag sec).map (·.st)

/-- A waiting `wmon` gets its wake event (09 R207). -/
def wakeIf (p : Nat → Thread → Bool) (ts : List (Nat × Thread)) : List (Nat × Thread) :=
  ts.map fun t => if p t.1 t.2 then (t.1, { t.2 with rel := some 1 }) else t

/-- Whether a thread's monitor is armed on a sector. -/
def Thread.monitors (t : Thread) (sec : Nat) : Bool :=
  match t.wait with
  | some (.wmon _ pa _) => secOf pa == sec
  | _ => false

/-- Whether a thread's monitor, armed on a sector, sees a write by an agent: through an RSH mapping only its own cache's
(09 R207, 05 R110). -/
def Thread.seesWrite (t : Thread) (ag : Nat) : Bool :=
  match t.wait with
  | some (.wmon _ _ rsh) => !rsh || t.agent == ag
  | _ => false

/-- An agent's cache loses a sector; its monitors wake (09 R207). -/
def State.dropCopy (s : State) (ag sec : Nat) : State :=
  { s with
    copies := tdel s.copies (copyKey ag sec)
    threads := wakeIf (fun _ t => t.agent == ag && t.monitors sec) s.threads }

/-- An agent's cache holds a sector. -/
def State.setCopy (s : State) (ag sec : Nat) (c : Copy) : State := { s with copies := tset s.copies (copyKey ag sec) c }

/-- A write to a sector is performed by an agent for a thread: the monitors of others wake (09 R207). -/
def State.wakeWrite (s : State) (ag sec who : Nat) : State :=
  { s with threads := wakeIf (fun k t => k != who && t.monitors sec && t.seesWrite ag) s.threads }

/-- Tracked copies of a sector, by ascending agent. -/
def State.tracked (s : State) (sec : Nat) : List (Nat × Copy) :=
  s.copies.filter fun c => keySec c.1 == sec && c.2.st != .r

/-- The bytes of a sector as memory holds them. -/
def State.sector (s : State) (sec : Nat) : BitVec 512 := BitVec.ofNat 512 (s.mem.readN sec 64)

/-- A copy whose bytes the home does not have. -/
def CacheSt.dirty : CacheSt → Bool
  | .m | .o => true
  | _ => false

/-- The dirty copy of a sector. -/
def State.dirtyCopy (s : State) (sec : Nat) : Option (Nat × Copy) := (s.tracked sec).find? (·.2.st.dirty)

/-- The bytes of a sector as its home holds them: beneath a dirty copy, those the copy remembers. -/
def State.homeSec (s : State) (sec : Nat) : BitVec 512 :=
  match s.dirtyCopy sec with
  | some c => c.2.data
  | none => s.sector sec

/-! ### Directory records (05 R102, R103) -/

/-- A record without holders. -/
def Dir.none : Dir := ⟨.i, 0, 0, 0, Option.none⟩

/-- The home's record of a sector. -/
def State.dirOf (s : State) (sec : Nat) : Dir := (tget s.dir sec).getD Dir.none

/-- Key of package p's guest record of a sector. -/
def guestKey (p sec : Nat) : Nat := (p + 1) * 2 ^ 52 + sec

/-- The guest directory's record of a sector in a package (05 R102). -/
def State.guestOf (s : State) (p sec : Nat) : Dir := (tget s.dir (guestKey p sec)).getD Dir.none

/-- The table with a record, or without it once nothing is recorded. -/
def putDir (m : List (Nat × Dir)) (k : Nat) (d : Dir) : List (Nat × Dir) :=
  if d = Dir.none then tdel m k else tset m k d

/-- An agent as the home of a sector numbers it: its own package's agents, or another package as one agent (05 R102). -/
def agNum (sec ag : Nat) : Nat := if ag / 512 = paPkg sec then ag % 512 else 352 + ag / 512

/-- The presence bit of an agent's die. -/
def dieBit (ag : Nat) : BitVec 10 := BitVec.ofNat 10 (2 ^ (agentDie ag % 16))
/-- The presence bit of a package. -/
def pkgBit (p : Nat) : BitVec 16 := BitVec.ofNat 16 (2 ^ p)

/-- A record with an agent's presence bit: its die in the home's package, else its package. -/
def Dir.share (d : Dir) (sec ag : Nat) : Dir :=
  if ag / 512 = paPkg sec then { d with dies := d.dies ||| dieBit ag } else { d with pkgs := d.pkgs ||| pkgBit (ag / 512) }

/-- The state some holders' states amount to. -/
def dirState (cs : List (Nat × Copy)) : DirSt :=
  if cs.isEmpty then .i
  else if cs.any (·.2.st == .u) then .u
  else if cs.any fun c => c.2.st == .m || c.2.st == .e then .ex
  else if cs.any (·.2.st == .o) then .o
  else .s

/-- The agent number of the owner among some holders, the only one in E or M or the one in O. -/
def dirOwner (cs : List (Nat × Copy)) : Nat :=
  ((cs.find? fun c => c.2.st == .m || c.2.st == .e || c.2.st == .o).map fun c => keyAgent c.1 % 512).getD 0

/-- Whether presence bits of silently evicted copies stay in a record. -/
def DirSt.shares : DirSt → Bool
  | .s | .o => true
  | _ => false

/-- What the guest directory of a package records of a sector whose home record is `d`: its own holders; while the home still
counts the package among the sharers, the presence bits and the state of copies that have gone silently stay (05 R102 to R104;
the spec gives the guest directory no table of its own: DEDUCED, log entry 78). -/
def guestDir (d old : Dir) (cs : List (Nat × Copy)) (p : Nat) : Dir :=
  let bits := cs.foldl (fun b c => b ||| dieBit (keyAgent c.1)) 0
  let st := dirState cs
  if d.st == .p then (if d.owner == 352 + p then ⟨.p, dirOwner cs, 0, 0, Option.none⟩ else Dir.none)
  else if st == .u then ⟨.u, 0, bits, 0, d.uop⟩
  else if st == .ex then ⟨.ex, dirOwner cs, 0, 0, Option.none⟩
  else if old.st.shares && d.pkgs.getLsbD p then ⟨if cs.isEmpty then .s else st, dirOwner cs, bits ||| old.dies, 0, Option.none⟩
  else if cs.isEmpty then Dir.none
  else ⟨st, dirOwner cs, bits, 0, Option.none⟩

/-- The home's record of a sector is replaced, and the guest records follow it. -/
def State.setHome (s : State) (sec : Nat) (d : Dir) : State :=
  let far := (s.tracked sec).filter fun c => keyAgent c.1 / 512 != paPkg sec
  let guest := fun m p =>
    putDir m (guestKey p sec)
      (guestDir d ((tget m (guestKey p sec)).getD Dir.none) (far.filter fun c => keyAgent c.1 / 512 == p) p)
  { s with dir := (List.range 16).foldl guest (putDir s.dir sec d) }

/-! ### Slab lines (05 R99, R100, R111) -/

/-- Address of the 256-byte line of an address. -/
def lineOf (pa : Nat) : Nat := pa / 256 * 256
/-- Key of a line in a die's slab. -/
def slabKey (die pa : Nat) : Nat := die * 2 ^ 52 + lineOf pa
/-- Number of a sector in its line. -/
def secIdx (sec : Nat) : Nat := sec / 64 % 4

/-- Two lines of one set: 262,144 sets, indexed by the line number (05 R99 gives no index: DESIGN CHOICE, log entry 79). -/
def sameSet (j k : Nat) : Bool := j / 2 ^ 52 == k / 2 ^ 52 && j % 2 ^ 52 / 256 % 262144 == k % 2 ^ 52 / 256 % 262144

/-- The bytes of one sector of a line. -/
def SlabLine.sector (l : SlabLine) (i : Nat) : BitVec 512 := BitVec.ofNat 512 (l.data.toNat / 2 ^ (512 * i))

/-- A line with the bytes of one sector, which its mask then names. -/
def SlabLine.put (l : SlabLine) (i : Nat) (v : BitVec 512) : SlabLine :=
  { l with
    mask := l.mask ||| BitVec.ofNat 4 (2 ^ i)
    data := BitVec.ofNat 2048 (l.data.toNat - (l.sector i).toNat * 2 ^ (512 * i) + v.toNat * 2 ^ (512 * i)) }

/-- New data reaches the home of a sector whose bytes were `old`: the slab's line is dirty there, and DRAM keeps what it has. -/
def State.homeDirty (s : State) (sec : Nat) (old : BitVec 512) : State :=
  let k := slabKey (slabOf sec) sec
  match tget s.slabs k with
  | some l => if l.mask.getLsbD (secIdx sec) then s else { s with slabs := tset s.slabs k (l.put (secIdx sec) old) }
  | none => s

/-- The slab of a package that holds its replicas of a line (05 R99, R111). -/
def replicaKey (p pa : Nat) : Nat := slabKey (p * 16 + slabOf pa % 16) pa

/-- The sector of a package's replica, as the list of errors names it: with the die whose slab holds it. -/
def replicaSec (p sec : Nat) : Nat := (p * 16 + slabOf sec % 16) * 2 ^ 52 + sec

/-- The bytes of a package's replica of a sector, if it has one. -/
def State.replica (s : State) (p sec : Nat) : Option (BitVec 512) :=
  match tget s.slabs (replicaKey p sec) with
  | some l => if l.replica && l.mask.getLsbD (secIdx sec) then some (l.sector (secIdx sec)) else none
  | none => none

/-- A package loses its replica of a sector. -/
def State.dropReplica (s : State) (p sec : Nat) : State :=
  match tget s.slabs (replicaKey p sec) with
  | some l =>
    if l.replica then
      let m := l.mask &&& ~~~BitVec.ofNat 4 (2 ^ secIdx sec)
      { s with slabs := if m = 0 then tdel s.slabs (replicaKey p sec) else tset s.slabs (replicaKey p sec) { l with mask := m },
               soft := s.soft.filter (·.1 != replicaSec p sec) }
    else s
  | none => s

/-! ### Combining and recalling (05 R104, R106) -/

/-- Order of the home's view: its own agents, then other packages (05 R102, R106; log entry 11). -/
def homeOrder (h ag : Nat) : Nat := if ag / 512 = h then ag % 512 else (352 + ag / 512) * 512 + ag % 512

/-- Insertion by the home's order. -/
def insertBy (f : Nat → Nat) (c : Nat × Copy) : List (Nat × Copy) → List (Nat × Copy)
  | [] => [c]
  | x :: t => if f c.1 ≤ f x.1 then c :: x :: t else x :: insertBy f c t

/-- The partials of a sector in ascending agent number. -/
def State.partials (s : State) (sec : Nat) : List (Nat × Copy) :=
  ((s.tracked sec).filter (·.2.st == .u)).foldl
    (fun l c => insertBy (fun k => homeOrder (paPkg sec) (keyAgent k)) c l) []

/-- A combine: every partial is applied in order and every U holder drops the sector (05 R106). -/
def State.combine (s : State) (sec : Nat) : State :=
  match (s.dirOf sec).uop with
  | none => s
  | some (op, wide) =>
    let ps := s.partials sec
    let m := ps.foldl (fun m c => applyPartial op wide sec c.2.data c.2.words m) s.mem
    (ps.foldl (fun (t : State) c => t.dropCopy (keyAgent c.1) sec) ({ s.homeDirty sec (s.sector sec) with mem := m } : State)).setHome sec Dir.none

/-- An instruction cache holds a sector, under its address or under one that is forwarded to it (05 R119; 21 R461). -/
def State.codeOf (s : State) (sec : Nat) (e : Nat × Nat × Nat) : Bool := secOf e.2.1 == sec || s.fwd (secOf e.2.1) == sec

/-- Untracked copies of a sector in a package, in caches, in instruction caches and its replica, are removed (05 R111). -/
def State.purgePkg (s : State) (sec p : Nat) : State :=
  let cs := s.copies.filter fun c => keySec c.1 == sec && c.2.st == .r && keyAgent c.1 / 512 == p
  let s1 := (cs.foldl (fun s c => s.dropCopy (keyAgent c.1) sec) s).dropReplica p sec
  { s1 with icache := s1.icache.filter fun e => !(s1.codeOf sec e && pkgOfDie (dieOfCore e.1) == p) }

/-- Untracked copies and replicas of a sector are removed in every package that `p` names, and the presence bits that stood for
them with them; a bit that stands for a tracked copy stays (05 R111). -/
def State.purgeIn (s : State) (sec : Nat) (p : Nat → Bool) : State :=
  let s1 := (List.range 16).foldl (fun s i => if p i then s.purgePkg sec i else s) s
  let d := s1.dirOf sec
  let far := (s1.tracked sec).map fun c => keyAgent c.1 / 512
  let pkgs := (List.range 16).foldl (fun b i => if p i && !far.contains i then b &&& ~~~pkgBit i else b) d.pkgs
  s1.setHome sec { d with pkgs := pkgs }

/-- A write reaches the home: where package-presence bits are set, those packages are purged, and the home package's untracked
copies with them, whatever region filled them (05 R111). -/
def State.purgeWrite (s : State) (sec : Nat) : State :=
  let bits := (s.dirOf sec).pkgs
  if bits = 0 then s else s.purgeIn sec fun p => bits.getLsbD p || p == paPkg sec

/-- Dirty data of a sector returns to its home, to whose replicas it is a write (05 R104, R111). -/
def State.giveBack (s : State) (sec : Nat) : State :=
  match s.dirtyCopy sec with
  | some c => (s.homeDirty sec c.2.data).purgeWrite sec
  | none => s

/-- A recall: partials are combined, dirty data returns, and every tracked copy is dropped; the record is in I, with the bits of
packages that hold replicas (05 R104). -/
def State.recall (s : State) (sec : Nat) : State :=
  let s1 := (s.combine sec).giveBack sec
  let s2 := (s1.tracked sec).foldl (fun s c => s.dropCopy (keyAgent c.1) sec) s1
  let bits := (s2.dirOf sec).pkgs
  let kept := (List.range 16).foldl (fun b p =>
    if bits.getLsbD p && ((s2.replica p sec).isSome || s2.copies.any fun c => keySec c.1 == sec && keyAgent c.1 / 512 == p) then b ||| pkgBit p
    else b) 0
  s2.setHome sec ⟨.i, 0, 0, kept, none⟩

/-- An error stands in a line of a slab. -/
def softIn (k : Nat) (e : Nat × Bool) : Bool := e.1 / 256 * 256 == k

/-- Soft errors in a line of a slab are met: a single-bit error is corrected and counted, another poisons the sector, also where a replica
has it (05 R101; 19 R433; DEDUCED, log entry 102). -/
def State.meetSoft (s : State) (k : Nat) : State :=
  (s.soft.filter (softIn k)).foldl (fun s e =>
    let s1 : State := { s with soft := s.soft.erase e }
    if e.2 then { s1 with poison := e.1 % 2 ^ 52 :: s1.poison.erase (e.1 % 2 ^ 52) }
    else s1.updDie (k / 2 ^ 52) fun d => { d with errCe := d.errCe + 1 }) s

/-- A package's replica of a sector is read, if it has one: its bytes, or an error. -/
def State.atReplica (s : State) (p sec : Nat) : State × Option (Except Nat (BitVec 512)) :=
  match s.replica p sec with
  | some v =>
    let s1 := if s.soft.isEmpty then s else s.meetSoft (replicaKey p sec)
    (s1, some (if s1.poison.contains sec then .error 5 else .ok v))
  | none => (s, none)

/-- A slab evicts a line (05 R100): of a home line every tracked copy is recalled and dirty data is written to DRAM, and what the home knows
of replicas stays known (DEDUCED, log entry 78). Soft errors of dirty data are met as it is read, those of clean data go with it. A replica
goes silently (05 R111). -/
def State.evictLine (s : State) (k : Nat) : State :=
  match tget s.slabs k with
  | some l =>
    let s1 := if l.replica then s else (List.range 4).foldl (fun (s : State) i => s.recall (k % 2 ^ 52 + 64 * i)) s
    let s2 := if s1.soft.isEmpty then s1
      else if !l.replica && ((tget s1.slabs k).map (·.mask)).getD 0 != 0 then s1.meetSoft k
      else { s1 with soft := s1.soft.filter fun e => !softIn k e }
    { s2 with slabs := tdel s2.slabs k }
  | none => s

/-- Whether a slab has a line, or room for it in its set of 16 ways. -/
def State.slabRoom (s : State) (k : Nat) : Bool :=
  (tget s.slabs k).isSome || decide ((s.slabs.filter fun l => sameSet l.1 k).length < 16)

/-- Room is made in the set of a line: which line goes is open (05 R99, R100; log entry 4). -/
def State.slabMake (s : State) (k : Nat) : State :=
  if s.slabRoom k then s
  else
    let ls := s.slabs.filter fun l => sameSet l.1 k
    match ls[Config.victim s.seq % ls.length]? with
    | some l => s.evictLine l.1
    | none => s

/-- A request reaches the home of an address: the slab holds the line, filled whole from DRAM on a miss (05 R100), and its soft
errors are met. -/
def State.atSlab (s : State) (pa : Nat) : State :=
  let k := slabKey (slabOf pa) pa
  let s1 := if (tget s.slabs k).isSome then s
    else
      let s0 := s.slabMake k
      { s0 with slabs := tset s0.slabs k ⟨false, 0, 0⟩ }
  if s1.soft.isEmpty then s1 else s1.meetSoft k

/-- A request of an agent of a package to the home of an address: the code of an error response, if it draws one (05 R115);
`full` is a write of the whole sector. -/
def State.reach (s : State) (pkg pa : Nat) (full : Bool) : State × Option Nat :=
  match s.memCode pkg pa full with
  | some c => (s, some c)
  | none =>
    let s1 := s.atSlab pa
    (s1, if !full && s1.poison.contains (secOf pa) then some 5 else none)

/-- The code of the error response that an access draws which a cache or a replica of a package could serve: the same as its home's, as no
result depends on a hit (05 R101, R115; 20 R447; 18 R472), but that it waits for no other package. -/
def State.hitCode (s : State) (pkg pa : Nat) (full : Bool) : Option Nat := ({ s with late := none } : State).memCode pkg pa full

/-! ### Requests on COH sectors (05 R104) -/

/-- A shared read finds the owner: M goes to O, E goes to S, and the owner supplies the data (05 R104). -/
def State.probe (s : State) (sec : Nat) : State :=
  match (s.tracked sec).find? fun c => c.2.st == .m || c.2.st == .e with
  | some c =>
    let d := s.dirOf sec
    if c.2.st == .m then (s.setCopy (keyAgent c.1) sec { c.2 with st := .o }).setHome sec { d with st := .o }
    else (s.setCopy (keyAgent c.1) sec ⟨.s, 0, 0⟩).setHome sec (({ d with st := .s, owner := 0 } : Dir).share sec (keyAgent c.1))
  | none => s

/-- GetS (05 R104): a shared read. A home in I grants E; one in S, EX or O grants S and sets the presence bit, also where the
copies it knows of have all gone silently. -/
def State.doGetS (s : State) (ag sec : Nat) : State :=
  match s.holds ag sec with
  | some .m | some .e | some .o | some .s => s
  | _ =>
    let s1 := (s.combine sec).probe sec
    let d := s1.dirOf sec
    if d.st == .i then (s1.setCopy ag sec ⟨.e, 0, 0⟩).setHome sec { d with st := .ex, owner := agNum sec ag }
    else (s1.setCopy ag sec ⟨.s, 0, 0⟩).setHome sec (d.share sec ag)

/-- GetX and Upgrade (05 R104): the agent becomes the only holder, in M. A copy in M stays, one in E becomes M without a word to the
home; else the home combines, purges, takes back the owner's data and drops every other copy. -/
def State.doGetX (s : State) (ag sec : Nat) : State :=
  match s.holds ag sec with
  | some .m => s
  | some .e => s.setCopy ag sec ⟨.m, s.sector sec, 0⟩
  | h =>
    let s1 := (s.combine sec).purgeWrite sec
    let s2 := if h == some .o then s1 else s1.giveBack sec
    let old := if h == some .o then s2.homeSec sec else s2.sector sec
    let s3 := (s2.tracked sec).foldl (fun s c => if keyAgent c.1 = ag then s else s.dropCopy (keyAgent c.1) sec) s2
    (s3.setCopy ag sec ⟨.m, old, 0⟩).setHome sec ⟨.ex, agNum sec ag, 0, 0, none⟩

/-- GetU (05 R104): the agent may update with one operation and width; replicas are purged, as its updates are writes. -/
def State.doGetU (s : State) (ag sec : Nat) (op : RedOp) (wide : Bool) : State :=
  if (s.dirOf sec).uop == some (op, wide) then
    match s.holds ag sec with
    | some .u => s
    | _ => (s.setCopy ag sec ⟨.u, freshPartial op wide, 0⟩).setHome sec ((s.dirOf sec).share sec ag)
  else
    let s1 := (s.recall sec).purgeWrite sec
    (s1.setCopy ag sec ⟨.u, freshPartial op wide, 0⟩).setHome sec ((⟨.u, 0, 0, 0, some (op, wide)⟩ : Dir).share sec ag)

/-! ### Evictions (05 R104, R109) -/

/-- Holders of a sector that are left, as a record in U. -/
def Dir.ofHolders (d : Dir) (sec : Nat) (cs : List (Nat × Copy)) : Dir :=
  if cs.isEmpty then Dir.none
  else cs.foldl (fun d c => d.share sec (keyAgent c.1)) { d with dies := 0, pkgs := 0 }

/-- PutM, PutO and PutE (05 R104): the owner gives a sector up; dirty data is written back. A home in EX goes to I, one in O to S
while presence bits stand, else to I. -/
def State.putOwned (s : State) (ag sec : Nat) : State :=
  let s1 : State := match s.copy ag sec with
    | some c => if c.st == .m then (s.homeDirty sec c.data).purgeWrite sec else if c.st == .o then s.homeDirty sec c.data else s
    | none => s
  let d := s1.dirOf sec
  let st : DirSt := if d.st == .o && (d.dies != 0 || d.pkgs != 0) then .s else .i
  (s1.dropCopy ag sec).setHome sec { d with st := st, owner := 0 }

/-- PutU (05 R104, R106): a partial is handed in and applied at the home. -/
def State.putPartial (s : State) (ag sec : Nat) : State :=
  match s.copy ag sec, (s.dirOf sec).uop with
  | some ⟨.u, d, ws⟩, some (op, wide) =>
    let s1 := ({ s.homeDirty sec (s.sector sec) with mem := applyPartial op wide sec d ws s.mem } : State).dropCopy ag sec
    s1.setHome sec ((s1.dirOf sec).ofHolders sec (s1.tracked sec))
  | _, _ => s

/-! ### Regions (05 R107 to R112) -/

/-- REGION, bits [11:10] of a leaf. -/
def regionOf (leaf : Nat) : RegionKind :=
  match leaf / 1024 % 4 with
  | 0 => .priv
  | 1 => .rsh
  | 2 => .coh
  | _ => .rdup

/-- An agent is the recorded owner of a PRIV sector (05 R109): by its number, and in another package by the guest record too. -/
def State.ownsPriv (s : State) (ag sec : Nat) : Bool :=
  let d := s.dirOf sec
  d.st == .p && d.owner == agNum sec ag && (ag / 512 == paPkg sec || (s.guestOf (ag / 512) sec).owner == ag % 512)

/-- Whether the home refuses a request with PRIV_OTHER (05 R109, R112). R112 names COH, RDUP and PRIV requests; an RSH load or fetch
of a sector that another agent holds in P is served from the home, as R110 tracks nothing (DEDUCED, log entry 80). -/
def State.privOther (s : State) (r : RegionKind) (ag sec : Nat) : Bool :=
  let d := s.dirOf sec
  match r with
  | .priv => !(d.st == .i || s.ownsPriv ag sec)
  | .rsh => false
  | .coh | .rdup => d.st == .p

/-- The first agent to request a PRIV sector becomes its owner (05 R109). -/
def State.claimPriv (s : State) (ag sec : Nat) : State :=
  if s.ownsPriv ag sec then s
  else (s.setCopy ag sec ⟨.m, s.sector sec, 0⟩).setHome sec { s.dirOf sec with st := .p, owner := agNum sec ag, dies := 0 }

/-- The owner of a PRIV sector evicts it: its data is written back and the owner cleared (05 R109). -/
def State.putPriv (s : State) (ag sec : Nat) : State :=
  if s.ownsPriv ag sec then
    let s1 := (s.giveBack sec).dropCopy ag sec
    s1.setHome sec { s1.dirOf sec with st := .i, owner := 0 }
  else s

/-- The cache of a core that is lost takes a sector with it: its updates are gone, and of dirty data the home has what it had before (the
spec does not say: DESIGN CHOICE, log entry 98). -/
def State.loseCopy (s : State) (ag sec : Nat) (c : Copy) : State :=
  let s0 : State := if c.st.dirty then { s with mem := s.mem.writeN sec 64 c.data.toNat } else s
  let s1 := s0.dropCopy ag sec
  let d := s1.dirOf sec
  let left := s1.tracked sec
  match c.st with
  | .m | .e | .o => s1.setHome sec { d with st := if left.isEmpty then .i else .s, owner := 0 }
  | .u => s1.setHome sec (d.ofHolders sec left)
  | .s | .r => s1

/-- The caches of a die that is lost. -/
def State.cachesLost (s : State) (d : Nat) : State :=
  (s.copies.filter fun c => agentDie (keyAgent c.1) == d).foldl (fun s c => s.loseCopy (keyAgent c.1) (keySec c.1) c.2)
    { s with icache := s.icache.filter fun e => dieOfCore e.1 != d }

/-- The caches of a die that goes offline in order give back what they hold. -/
def State.cachesBack (s : State) (d : Nat) : State :=
  (s.copies.filter fun c => agentDie (keyAgent c.1) == d).foldl (fun s c =>
    let ag := keyAgent c.1
    let sec := keySec c.1
    match c.2.st with
    | .m | .e | .o => if s.ownsPriv ag sec then s.putPriv ag sec else s.putOwned ag sec
    | .u => s.putPartial ag sec
    | .s | .r => s.dropCopy ag sec)
    { s with icache := s.icache.filter fun e => dieOfCore e.1 != d }

/-- Whether an agent's own copy serves a load without a request to the home. A sector in U is never read by its holder (05 R105); an
untracked copy serves RSH and RDUP mappings only. -/
def State.hitLoad (s : State) (r : RegionKind) (ag sec : Nat) : Bool :=
  match s.holds ag sec with
  | none | some .u => false
  | some st =>
    match r with
    | .priv => s.ownsPriv ag sec
    | .rsh => true
    | .coh => st != .r && (s.dirOf sec).st != .p
    | .rdup => (s.dirOf sec).st != .p

/-- Whether an agent's own copy takes a store without a request to the home: M, E, or PRIV ownership. -/
def State.hitStore (s : State) (r : RegionKind) (ag sec : Nat) : Bool :=
  match r with
  | .priv => s.ownsPriv ag sec
  | _ => (s.holds ag sec == some .m || s.holds ag sec == some .e) && (s.dirOf sec).st != .p

/-- An untracked copy is filled. -/
def State.fill (s : State) (ag sec : Nat) (v : BitVec 512) : State := s.setCopy ag sec ⟨.r, v, 0⟩

/-- A package's slab takes a replica of a sector (05 R111). -/
def State.fillReplica (s : State) (p sec : Nat) (v : BitVec 512) : State :=
  let k := replicaKey p sec
  let s1 := s.slabMake k
  { s1 with slabs := tset s1.slabs k (((tget s1.slabs k).getD ⟨true, 0, 0⟩).put (secIdx sec) v) }

/-- An RDUP request at the home finds the newest value: partials combine, and an owner is probed as for GetS (05 R108; the states
the probe leaves are those of GetS: DEDUCED, log entry 78). -/
def State.newest (s : State) (sec : Nat) : State := (s.combine sec).probe sec

/-- A load of an RSH or RDUP sector that the agent does not hold, at the home (05 R110, R111). An RSH fill takes the home's bytes,
and neither combines nor probes (05 R108), but for a partial of the agent's own (05 R105). An RDUP fill of another package goes
through its replica, and the home records the package. -/
def State.fillUntracked (s : State) (r : RegionKind) (ag sec : Nat) : State :=
  if r == .rsh then
    let s1 := if s.holds ag sec == some .u then s.combine sec else s
    s1.fill ag sec (s1.homeSec sec)
  else
    let s1 := s.newest sec
    let v := s1.sector sec
    if ag / 512 = paPkg sec then s1.fill ag sec v
    else
      let s2 := s1.setHome sec ((s1.dirOf sec).share sec ag)
      (s2.fillReplica (ag / 512) sec v).fill ag sec v

/-- The protocol work of a load at the home. -/
def State.forLoad (s : State) (r : RegionKind) (ag sec : Nat) : State :=
  match r with
  | .priv => s.claimPriv ag sec
  | .coh => s.doGetS ag sec
  | .rsh | .rdup => s.fillUntracked r ag sec

/-- The protocol work of a store, or of an atomic in the agent's cache (05 R104, R109, R114). -/
def State.forStore (s : State) (r : RegionKind) (ag sec : Nat) : State :=
  match r with
  | .priv => s.claimPriv ag sec
  | _ => s.doGetX ag sec

/-! ### Reads and writes inside one sector -/

/-- Bytes inside a sector's value. -/
def partOf (d : BitVec 512) (pa n : Nat) : Nat := d.toNat / 2 ^ (8 * (pa - secOf pa)) % 2 ^ (8 * n)

/-- Bytes an agent reads, as a little-endian number: those of its untracked copy if it holds one, else memory's. -/
def State.valueAt (s : State) (ag pa n : Nat) : Nat :=
  match s.copy ag (secOf pa) with
  | some ⟨.r, d, _⟩ => partOf d pa n
  | _ => s.mem.readN pa n

/-- Bytes of memory change, at every scope at once; a write of the whole sector ends its poison (05 R101). -/
def State.setMem (s : State) (ag pa n v who : Nat) : State :=
  let s1 := s.wakeWrite ag (secOf pa) who
  { s1 with mem := s1.mem.writeN pa n v, poison := if n = 64 then s1.poison.erase (secOf pa) else s1.poison }

/-- The same at the home itself: replicas are purged, and the slab's line is dirty. -/
def State.setHomeMem (s : State) (ag pa n v who : Nat) : State :=
  let s1 := s.purgeWrite (secOf pa)
  (s1.homeDirty (secOf pa) (s1.sector (secOf pa))).setMem ag pa n v who

/-- A request at the home, once it is reached and not refused. -/
def State.ask (s : State) (r : RegionKind) (ag pa : Nat) (full : Bool) : State × Option Nat :=
  match s.reach (ag / 512) pa full with
  | (s1, some c) => (s1, some c)
  | (s1, none) => (s1, if s1.privOther r ag (secOf pa) then some 4 else none)

/-- A load of at most a sector through a mapping of a region: the value, or the code of an error response. A copy the agent holds, or
its package's replica, serves it without the home. -/
def State.secLoad (s : State) (r : RegionKind) (ag pa n : Nat) : State × Except Nat Nat :=
  let pa := s.fwd pa
  let sec := secOf pa
  if s.hitLoad r ag sec then (s, match s.hitCode (ag / 512) pa false with
    | some c => .error c
    | none => .ok (s.valueAt ag pa n))
  else match if r == .rdup && (s.hitCode (ag / 512) pa false).isNone then s.atReplica (ag / 512) sec else (s, none) with
    | (s1, some (.ok v)) =>
      let s2 := s1.fill ag sec v
      (s2, .ok (s2.valueAt ag pa n))
    | (s1, some (.error c)) => (s1, .error c)
    | (_, none) =>
      match s.ask r ag pa false with
      | (s1, some c) => (s1, .error c)
      | (s1, none) =>
        let s2 := s1.forLoad r ag sec
        (s2, .ok (s2.valueAt ag pa n))

/-- A load that allocates nothing, claims nothing and sets no presence bit (09 R199). One of an RDUP sector of which its package has no
replica reads the home and fills none: R199 has it read the package's replica, which R111 would fill and record (DESIGN CHOICE, log entry
101). -/
def State.secLoadNc (s : State) (r : RegionKind) (ag pa n : Nat) : State × Except Nat Nat :=
  let pa := s.fwd pa
  let sec := secOf pa
  if s.hitLoad r ag sec then (s, match s.hitCode (ag / 512) pa false with
    | some c => .error c
    | none => .ok (s.valueAt ag pa n))
  else match if r == .rdup && (s.hitCode (ag / 512) pa false).isNone then s.atReplica (ag / 512) sec else (s, none) with
    | (s1, some (.ok v)) => (s1, .ok (partOf v pa n))
    | (s1, some (.error c)) => (s1, .error c)
    | (_, none) =>
      match s.ask r ag pa false with
      | (s1, some c) => (s1, .error c)
      | (s1, none) =>
        if r == .rsh then
          let s2 := if s1.holds ag sec == some .u then s1.combine sec else s1
          (s2, .ok (partOf (s2.homeSec sec) pa n))
        else
          let s2 := s1.combine sec
          (s2, .ok (s2.mem.readN pa n))

/-- A store of at most a sector for a thread: nothing, or the code of an error response. -/
def State.secStore (s : State) (r : RegionKind) (ag pa n v who : Nat) : State × Option Nat :=
  let pa := s.fwd pa
  let sec := secOf pa
  if s.hitStore r ag sec then
    match s.hitCode (ag / 512) pa (n == 64) with
    | some c => (s, some c)
    | none => ((s.forStore r ag sec).setMem ag pa n v who, none)
  else match s.ask r ag pa (n == 64) with
    | (s1, some c) => (s1, some c)
    | (s1, none) => ((s1.forStore r ag sec).setMem ag pa n v who, none)

/-- An indivisible read and write (05 R114): in the agent's cache, or with `home` at the slab, where every copy is recalled
first. -/
def State.secAtomic (s : State) (r : RegionKind) (ag pa n : Nat) (home : Bool) (f : Nat → Option Nat) (who : Nat) :
    State × Except Nat Nat :=
  let pa := s.fwd pa
  let sec := secOf pa
  let slab := home && r == .coh
  let q := if !slab && s.hitStore r ag sec then (s, s.hitCode (ag / 512) pa false) else s.ask r ag pa false
  match q.2 with
  | some c => (q.1, .error c)
  | none =>
    let s1 := if slab then q.1.recall sec else q.1.forStore r ag sec
    let old := s1.mem.readN pa n
    match f old with
    | some v => (if slab then s1.setHomeMem ag pa n v who else s1.setMem ag pa n v who, .ok old)
    | none => (s1, .ok old)

/-- A reduction combined into the partial an agent holds (05 R105). -/
def State.redPartial (s : State) (ag pa : Nat) (op : RedOp) (wide : Bool) (v who : Nat) : State :=
  let sec := secOf pa
  match s.copy ag sec with
  | some c =>
    let i := (pa - sec) / (redWidth wide / 8)
    let d := setPartialWord wide c.data i (redStep op wide (partialWord wide c.data i) v)
    (s.setCopy ag sec { c with data := d, words := c.words ||| BitVec.ofNat 16 (2 ^ i) }).wakeWrite ag sec who
  | none => s

/-- A reduction (05 R104, R105, R114): in place on a sector held in M or E or owned by PRIV, else in the partial of U, which asks
the home only where the agent does not hold it for the same operation and width. -/
def State.secRed (s : State) (r : RegionKind) (ag pa : Nat) (op : RedOp) (wide : Bool) (v who : Nat) : State × Option Nat :=
  let pa := s.fwd pa
  let sec := secOf pa
  let b := redWidth wide / 8
  let hit := s.hitStore r ag sec || (r != .priv && s.holds ag sec == some .u && (s.dirOf sec).uop == some (op, wide))
  let q := if hit then (s, s.hitCode (ag / 512) pa false) else s.ask r ag pa false
  match q.2 with
  | some c => (q.1, some c)
  | none =>
    if r == .priv || s.hitStore r ag sec then
      let s1 := q.1.forStore r ag sec
      (s1.setMem ag pa b (redStep op wide (s1.mem.readN pa b) v) who, none)
    else ((q.1.doGetU ag sec op wide).redPartial ag pa op wide v who, none)

/-! ### Accesses of the device itself at sys scope -/

/-- A coherent read by a walker, a port or a dispatcher: no copy is kept (04 R84, 20 R440). -/
def State.homeLoad (s : State) (ag pa n : Nat) : State × Except Nat Nat :=
  let pa := s.fwd pa
  match s.ask .coh ag pa false with
  | (s1, some c) => (s1, .error c)
  | (s1, none) =>
    let s2 := s1.combine (secOf pa)
    (s2, .ok (s2.mem.readN pa n))

/-- A coherent write by the device: every copy is recalled. -/
def State.homeStore (s : State) (ag pa n v : Nat) : State × Option Nat :=
  let pa := s.fwd pa
  match s.ask .coh ag pa (n == 64) with
  | (s1, some c) => (s1, some c)
  | (s1, none) => ((s1.recall (secOf pa)).setHomeMem ag pa n v 0, none)

/-! ### Runs of bytes, sector by sector -/

/-- Pieces of a run of bytes inside single sectors: address and length. -/
def pieces : Nat → Nat → Nat → List (Nat × Nat)
  | 0, _, _ => []
  | fuel + 1, a, n =>
    let k := Nat.min n (64 - a % 64)
    if k = 0 then [] else (a, k) :: pieces fuel (a + k) (n - k)

/-- The pieces of a run. -/
def piecesOf (a n : Nat) : List (Nat × Nat) := pieces (n / 64 + 2) a n

/-- A run of bytes read piece by piece; the first error response ends it, with its address. -/
def State.runLoad (ld : State → Nat → Nat → State × Except Nat Nat) (s : State) :
    List (Nat × Nat) → State × Except (Nat × Nat) (List Byte)
  | [] => (s, .ok [])
  | (a, n) :: t =>
    match ld s a n with
    | (s1, .error c) => (s1, .error (c, a))
    | (s1, .ok v) =>
      match State.runLoad ld s1 t with
      | (s2, .ok r) => (s2, .ok (bytesOf n v ++ r))
      | (s2, .error e) => (s2, .error e)

/-- A run of bytes written piece by piece; the first error response ends it, with its address. -/
def State.runStore (st : State → Nat → Nat → Nat → State × Option Nat) (s : State) :
    List (Nat × Nat) → List Byte → State × Option (Nat × Nat)
  | [], _ => (s, none)
  | (a, n) :: t, bs =>
    match st s a n (natOf (bs.take n)) with
    | (s1, some c) => (s1, some (c, a))
    | (s1, none) => State.runStore st s1 t (bs.drop n)

/-- A device read of a run of bytes. -/
def State.homeRead (s : State) (ag pa n : Nat) : State × Except (Nat × Nat) (List Byte) :=
  s.runLoad (fun s a k => s.homeLoad ag a k) (piecesOf pa n)

/-- A device write of a run of bytes. -/
def State.homeWrite (s : State) (ag pa : Nat) (bs : List Byte) : State × Option (Nat × Nat) :=
  s.runStore (fun s a k v => s.homeStore ag a k v) (piecesOf pa bs.length) bs

end Sys2Proof.Machine
end

