-- ==== Sys2Proof/Machine/Translate.lean ====
section
/-!
DEFINITION. Address translation (chapter 04): canonical addresses (R73), bare mode (R78), the four-level walk with its
checks (R79 to R84), the order of checks on an access (R85), accessed and dirty bits (R86), and translations kept by the
TLBs (R87, R91, R94; 23 R466).
-/

namespace Sys2Proof.Machine

/-- The context of a thread's own accesses. -/
def Thread.mctx (t : Thread) (who : Nat) : MCtx := ⟨t.agent, some t.core, t.die, t.asid, t.ptBase, t.mode, who⟩

/-! ### Error responses -/

/-- An access of a thread or of an engine gets an error response: the die that produces it logs it, and the thread's
ERRLOG registers take the pair (05 R116). -/
def State.respond (s : State) (c : MCtx) (pa code : Nat) : State :=
  let s1 := s.logResp pa code c.die (s.tidOf (s.thr c.who))
  if (tget s1.threads c.who).isSome then
    s1.updThr c.who fun t => { t with errAddr := BitVec.ofNat 64 pa, errCause := BitVec.ofNat 64 code }
  else s1

/-- Kinds of access (04 R85): `rmw` is `amo` and `cas`. -/
inductive XKind where | fetch | load | store | rmw
deriving DecidableEq, Repr

/-- Store-class kinds. -/
def XKind.writes : XKind → Bool
  | .store | .rmw => true
  | _ => false

/-- The not-present cause of a kind (04 R90). -/
def XKind.notPresent : XKind → Nat
  | .fetch => 0x11
  | .load => 0x12
  | _ => 0x13

/-- The protection cause of a kind (04 R90). -/
def XKind.prot : XKind → Nat
  | .fetch => 0x14
  | .load => 0x15
  | _ => 0x16

/-- A translation: the physical address and the leaf, a cause, or a wait for a locked table line (05 R124). -/
inductive XRes where
  | ok (pa leaf : Nat)
  | fault (cause : Nat)
  | wait
deriving DecidableEq, Repr

/-- Bits [63:56] all equal bit 55 (04 R73). -/
def canonical (va : Word) : Bool := va.toNat / 2 ^ 55 == 0 || va.toNat / 2 ^ 55 == 2 ^ 9 - 1

/-- Every byte of a range has a canonical address, computed exactly (04 R73). -/
def canonicalRange (va : Word) (n : Nat) : Bool := decide (-(2 ^ 55) ≤ va.toInt ∧ va.toInt + n ≤ 2 ^ 55)

/-- The scratchpad window, the last 4 MiB (09 R193). -/
def inWindow (va : Word) : Bool := decide (2 ^ 64 - 2 ^ 22 ≤ va.toNat)

/-! ### Entries (04 R79 to R83) -/

/-- A bit of an entry. -/
def entBit (e n : Nat) : Bool := e.testBit n
/-- V. -/
def entV (e : Nat) : Bool := entBit e 0
/-- LEAF. -/
def entLeaf (e : Nat) : Bool := entBit e 1
/-- CONT. -/
def entCont (e : Nat) : Bool := entBit e 9
/-- PPN. -/
def entPpn (e : Nat) : Nat := e / 2 ^ 16 % 2 ^ 40

/-- Entry index of an address at a level (04 R79). -/
def ptIndex (va lvl : Nat) : Nat :=
  match lvl with
  | 0 => va / 2 ^ 44 % 4096
  | 1 => va / 2 ^ 32 % 4096
  | 2 => va / 2 ^ 21 % 2048
  | _ => va / 2 ^ 12 % 512

/-- Page size of a leaf at a level. -/
def pageSize (lvl : Nat) : Nat := if lvl = 1 then 2 ^ 32 else if lvl = 2 then 2 ^ 21 else 2 ^ 12

/-- A table may stand in HBM4E or LPDDR-6 of a present package (04 R81). -/
def State.tableOk (s : State) (pa : Nat) : Bool := isMem pa && s.present (paPkg pa)

/-- A valid entry is well formed, apart from its group (04 R81). -/
def State.entryOk (s : State) (e lvl : Nat) : Bool :=
  let p := entPpn e
  e / 2 ^ 56 == 0 && (lvl != 0 || !entLeaf e) && (lvl != 3 || entLeaf e) &&
  (if entLeaf e then
    (lvl != 1 || p % 2 ^ 20 == 0) && (lvl != 2 || p % 2 ^ 9 == 0) && !(entBit e 3 && !entBit e 2) &&
    (!entCont e || lvl == 2 || lvl == 3)
   else
    e / 4 % 2 ^ 11 == 0 && (lvl != 0 || p % 8 == 0) && (lvl != 1 || p % 4 == 0) && s.tableOk (p * 2 ^ 12))

/-- Entries of a contiguity group at a level (04 R83). -/
def groupSize (lvl : Nat) : Nat := if lvl = 3 then 16 else 128

/-- The fields that are equal throughout a group: R, W, X, U, G, REGION and ILK. -/
def groupFields (e : Nat) : Nat := e / 4 % 32 + e / 2 ^ 10 % 8 * 32

/-- A group is valid: its entries agree and their frames follow one another (04 R83). -/
def groupOk (es : List Nat) (lvl : Nat) : Bool :=
  let e0 := es.headD 0
  let step := pageSize lvl / 4096
  (entPpn e0 % (groupSize lvl * step) == 0) &&
  es.zipIdx.all fun x =>
    entV x.1 && entLeaf x.1 && entCont x.1 && groupFields x.1 == groupFields e0 && entPpn x.1 == entPpn e0 + x.2 * step

/-! ### The walk (04 R84) -/

/-- What a walk ends with: a leaf with its level and the address of its entry, a cause, or a locked line. -/
inductive WRes where
  | leaf (e lvl at' : Nat)
  | np
  | fmt
  | err (code pa : Nat)
  | locked
deriving DecidableEq, Repr

/-- The entries of a group, read in order; the first error response ends it, as it does of any read of a walk (04 R83, R84; 05 R116). -/
def State.readGroup (s : State) (ag base : Nat) : Nat → State × Except (Nat × Nat) (List Nat)
  | 0 => (s, .ok [])
  | n + 1 =>
    match s.homeLoad ag base 8 with
    | (s1, .error x) => (s1, .error (x, base))
    | (s1, .ok e) =>
      match State.readGroup s1 ag (base + 8) n with
      | (s2, .ok t) => (s2, .ok (e :: t))
      | (s2, .error x) => (s2, .error x)

/-- Addresses that an entry of a level serves (04 R79). -/
def entSpan (lvl : Nat) : Nat := if lvl = 0 then 2 ^ 44 else if lvl = 1 then 2 ^ 32 else 2 ^ 21

/-- Where table entries are kept for a walk: in the walk cache of the S-die of the S-core it is for (04 R91), or with an L-core's own
walkers, whose walks may have read some levels earlier than others (04 R94; DEDUCED, log entry 103). -/
def MCtx.walkAt (c : MCtx) : Option (Nat × Option Nat) :=
  c.core.map fun k => (dieOfCore k, if isSDie (dieOfCore k) then none else some k)

/-- A list with a new first entry, without those it replaces; with no room left one of the others goes (04 R91; log entry 4). -/
def pushRoom {α : Type} (l : List α) (x : α) (mine same : α → Bool) (room v : Nat) : List α :=
  let l1 := l.filter fun y => !same y
  let ms := l1.zipIdx.filter fun y => mine y.1
  x :: (if ms.length < room then l1
    else match ms[v % ms.length]? with
      | some y => l1.eraseIdx y.2
      | none => l1)

/-- A table entry that a walk has read is kept: 2,048 in each S-die, and those of 4 walks in an L-core (04 R91). -/
def State.keepWalk (s : State) (c : MCtx) (va lvl table : Nat) : State :=
  match c.walkAt with
  | none => s
  | some (d, k) =>
    let x : WalkEnt := ⟨d, k, lvl, c.asid, va / entSpan lvl % 2 ^ 20, table⟩
    let mine := fun (y : WalkEnt) => y.die == d && y.core == k
    let same := fun (y : WalkEnt) => mine y && y.lvl == lvl && y.asid == x.asid && y.va == x.va
    { s with walkCache := pushRoom s.walkCache x mine same (if k.isNone then 2048 else 12) (Config.victim s.seq) }

/-- The walk from a level on; `n` is the number of levels left (04 R84). A walk that reads a locked sector waits (05 R124). -/
def State.walk (s : State) (c : MCtx) (va : Nat) : Nat → Nat → State × WRes
  | 0, _ => (s, .fmt)
  | n + 1, table =>
    let lvl := 3 - n
    let pa := table + 8 * ptIndex va lvl
    if s.locks.contains (secOf pa) then (s, .locked)
    else
      let r := s.homeLoad c.ag pa 8
      match r.2 with
      | .error x => (r.1, .err x pa)
      | .ok e =>
        if !entV e then (r.1, .np)
        else if !r.1.entryOk e lvl then (r.1, .fmt)
        else if entLeaf e then
          (if entCont e then
            let g := groupSize lvl
            let base := table + 8 * (ptIndex va lvl / g * g)
            if (List.range (g / 8)).any fun i => r.1.locks.contains (secOf (base + 64 * i)) then (r.1, .locked)
            else
              match r.1.readGroup c.ag base g with
              | (s2, .ok es) => if groupOk es lvl then (s2, .leaf e lvl pa) else (s2, .fmt)
              | (s2, .error x) => (s2, .err x.1 x.2)
           else (r.1, .leaf e lvl pa))
        else State.walk (r.1.keepWalk c va lvl (entPpn e * 2 ^ 12)) c va n (entPpn e * 2 ^ 12)

/-- PT_BASE.EN (04 R77). -/
def ptEn (b : Word) : Bool := b.getLsbD 0
/-- The level-0 table. -/
def ptTable (b : Word) : Nat := b.toNat / 2 ^ 15 % 2 ^ 37 * 2 ^ 15

/-- The deepest entry that serves a walk, if it is still held: the levels left, and the table (04 R91, R94). -/
def State.walkStart (s : State) (c : MCtx) (va : Nat) : Option (Nat × Nat) :=
  match c.walkAt with
  | none => none
  | some (d, k) =>
    [2, 1, 0].findSome? fun lvl =>
      (s.walkCache.find? fun x => x.die == d && x.core == k && x.lvl == lvl && x.asid == c.asid && x.va == va / entSpan lvl % 2 ^ 20 &&
        Config.tlbKeep s.seq (2 + lvl)).map fun x => (3 - lvl, x.table)

/-- A whole walk: from level 0, where a table base outside memory is malformed (04 R81), or from where the walk cache serves it. -/
def State.walkAll (s : State) (c : MCtx) (va : Word) : State × WRes :=
  match s.walkStart c va.toNat with
  | some (n, table) => s.walk c va.toNat n table
  | none => if !s.tableOk (ptTable c.ptBase) then (s, .fmt) else s.walk c va.toNat 4 (ptTable c.ptBase)

/-! ### Checks (04 R85) -/

/-- Checks 3 and 4 of R85 on a leaf: the cause, if one fails. -/
def permCause (k : XKind) (mode : Bool) (e : Nat) : Option Nat :=
  let u := entBit e 5
  let need := match k with
    | .fetch => entBit e 4
    | .load => entBit e 2
    | .store => entBit e 3
    | .rmw => entBit e 2 && entBit e 3
  if (!mode && !u) || (k == .fetch && mode && u) || !need then some k.prot else none

/-- The region causes of step 6 (05 R107); an access to control space ignores REGION (04 R76). -/
def regionCause (k : XKind) (e pa : Nat) : Option Nat :=
  if k.writes && areaOf pa != .ctrl then
    match regionOf e with
    | .rsh => some 0x18
    | .rdup => some 0x19
    | _ => none
  else none

/-- The A and D bits an access needs (04 R86). -/
def withAD (k : XKind) (e : Nat) : Nat := e ||| 2 ^ 7 ||| (if k.writes then 2 ^ 8 else 0)

/-- The leaf that bare mode stands for: R = W = X = 1, U = 0, REGION COH (04 R78). -/
def bareLeaf : Nat := 0x99F

/-- The physical address of a virtual one under a leaf. -/
def leafPa (e lvl : Nat) (va : Word) : Nat := entPpn e * 2 ^ 12 + va.toNat % pageSize lvl

/-! ### TLBs (04 R87, R91, R94) -/

/-- The TLBs that serve an access, in the order they are looked up: the core's own, which its engines share, then the die's on an
S-core or the L2 TLB on an L-core (04 R91). Walkers and ports have none. -/
def MCtx.tlbs (c : MCtx) (k : XKind) : List TlbAt :=
  match c.core with
  | none => []
  | some n => [if k == .fetch then .code n else .data n, if isSDie (dieOfCore n) then .die (dieOfCore n) else .second n]

/-- Entries of a TLB (04 R91). -/
def TlbAt.room : TlbAt → Nat
  | .code n => if isSDie (dieOfCore n) then 64 else 128
  | .data n => if isSDie (dieOfCore n) then 256 else 128
  | .second _ => 4096
  | .die _ => 16384

/-- The die a TLB is on. -/
def TlbAt.onDie : TlbAt → Nat
  | .code n | .data n | .second n => dieOfCore n
  | .die d => d

/-- A translation that serves an access, where it is held. -/
def Tlb.serves (x : Tlb) (c : MCtx) (va : Word) : Bool :=
  (x.asid == c.asid || entBit x.leaf.toNat 6) &&
  decide (x.va ≤ va.toNat % 2 ^ 56 ∧ va.toNat % 2 ^ 56 < x.va + x.size)

/-- A TLB keeps a translation. -/
def State.putTlb (s : State) (c : MCtx) (va : Word) (x : Tlb) : State :=
  { s with tlbs := pushRoom s.tlbs x (·.held == x.held) (fun y => y.held == x.held && y.serves c va) x.held.room (Config.victim s.seq) }

/-- The number of the issue in progress. -/
def State.issueNow (s : State) : Nat := (s.gang.map (·.seq)).getD 0

/-- Bytes that a leaf of a level translates: its page, or its contiguity group (04 R83). -/
def leafSpan (e lvl : Nat) : Nat := if entCont e then pageSize lvl * groupSize lvl else pageSize lvl

/-- The TLBs of an access keep a translation, of a whole group where the leaf is of one (04 R83, R91). -/
def State.keepTlb (s : State) (c : MCtx) (va : Word) (k : XKind) (e lvl : Nat) : State :=
  let a := va.toNat % 2 ^ 56
  let sz := leafSpan e lvl
  (c.tlbs k).foldl (fun s l =>
    s.putTlb c va ⟨l, c.asid, a / sz * sz, sz, BitVec.ofNat 64 e, leafPa e lvl va - a % sz, s.issueNow⟩) s

/-- A translation that a TLB of an access still holds (R94). The lanes of an issue on an S-core take the result of the walk that one of
them began: they begin none of their own (R92). -/
def State.findTlb (s : State) (c : MCtx) (va : Word) (k : XKind) : Option Tlb :=
  (c.tlbs k).zipIdx.findSome? fun l => s.tlbs.find? fun x =>
    x.held == l.1 && x.serves c va && ((isSDie x.held.onDie && x.issue != 0 && x.issue == s.issueNow) || Config.tlbKeep s.seq l.2)

/-- A translation from the tables: walk, checks 3 and 4, the A and D update, then the region causes. -/
def State.xlateWalk (s : State) (c : MCtx) (va : Word) (k : XKind) : State × XRes :=
  match s.walkAll c va with
  | (s1, .np) => (s1, .fault k.notPresent)
  | (s1, .fmt) => (s1, .fault 0x17)
  | (s1, .err code pa) => (s1.respond c pa code, .fault 0x1A)
  | (s1, .locked) => (s1, .wait)
  | (s1, .leaf e lvl pa) =>
    match permCause k c.mode e with
    | some x => (s1, .fault x)
    | none =>
      let e2 := withAD k e
      let s2 := if e2 = e then s1 else (s1.homeStore c.ag pa 8 e2).1
      let s3 := s2.keepTlb c va k e2 lvl
      match regionCause k e2 (leafPa e2 lvl va) with
      | some x => (s3, .fault x)
      | none => (s3, .ok (leafPa e2 lvl va) e2)

/-- Translation of an access (04 R85). A translation a TLB holds may be used as long as it stays there (R94), and the core's own TLB
takes it from the die's or the L2 TLB; one that fails a permission or region check, or lacks D for a store, is discarded and walked
again (R86, R87, R466). -/
def State.xlate (s : State) (c : MCtx) (va : Word) (k : XKind) : State × XRes :=
  if inWindow va then (s, .fault k.notPresent)
  else if !canonical va then (s, .fault 0x10)
  else if !ptEn c.ptBase then
    (if !c.mode then (s, .fault k.notPresent)
     else if va.toNat / 2 ^ 52 ≠ 0 then (s, .fault 0x10)
     else (s, .ok va.toNat bareLeaf))
  else
    match s.findTlb c va k with
    | some x =>
      let e := x.leaf.toNat
      let pa := x.pa + (va.toNat % 2 ^ 56 - x.va)
      if (permCause k c.mode e).isNone && (regionCause k e pa).isNone && (!k.writes || entBit e 8) then
        (s.putTlb c va { x with held := (c.tlbs k).headD x.held }, .ok pa e)
      else { s with tlbs := s.tlbs.erase x }.xlateWalk c va k
    | none => s.xlateWalk c va k

end Sys2Proof.Machine
end

