-- ==== Sys2Proof/Machine/Order.lean ====
section
/-!
DEFINITION. Accesses that are performed out of program order (13 R281 to R291, R297). A plain or releasing access may be performed after
accesses that follow it, and threads of its own core may read a store before others do; a load may bind its value before the accesses that
precede it. What is not performed yet, oldest first, and bytes that loads have bound early stand in the state, and the agenda says when which
goes on (log entry 99). Which accesses come before one is kept with it; what an instruction orders is in Ordering.lean.
-/

namespace Sys2Proof.Machine

/-! ### Atomic operations (09 R201, R202) -/

/-- Bits of an atomic. -/
def amoBits (wide : Bool) : Nat := if wide then 64 else 32

/-- What an `amo` writes for an old value and an operand, both of `n` bits. -/
def amoNew (op : AmoOp) (n old v : Nat) : Nat :=
  match op with
  | .add => (old + v) % 2 ^ n
  | .and => old &&& v
  | .or => old ||| v
  | .xor => old ^^^ v
  | .min => if asSigned n old ≤ asSigned n v then old else v
  | .max => if asSigned n old ≤ asSigned n v then v else old
  | .minn => Nat.min old v
  | .maxn => Nat.max old v
  | .swap => v

/-- The old value, sign-extended for every operation. -/
def amoOld (n v : Nat) : Word := BitVec.ofInt 64 (asSigned n v)

/-- A fetching atomic at cl scope or wider executes at the home slab (05 R114). -/
def atHome (sc : Scope) : Bool :=
  match sc with
  | .thread | .wg => false
  | _ => true

/-! ### What an access is -/

/-- The register a load writes, its bytes, whether it allocates nothing, and what the register then holds. -/
def loadForm : Instr → Option (Dest × Nat × Bool × (Nat → Word))
  | .ld z _ d _ _ _ | .ldX z _ d _ _ _ _ _ _ | .ldx z _ d _ _ _ _ _ _ _ | .lds z _ d _ _ _ | .ldsX z _ d _ _ _ _ _ _ => some (.x d, z.bytes, false, z.extend)
  | .ldnc z _ d _ _ _ _ _ _ => some (.x d, z.bytes, true, z.extend)
  | .ldfF32 _ d _ _ _ => some (.f d, 4, false, BitVec.ofNat 64)
  | .ldf64 _ d _ _ _ => some (.f d, 8, false, BitVec.ofNat 64)
  | .ldfX dbl _ d _ _ _ _ _ _ => some (.f d, if dbl then 8 else 4, false, BitVec.ofNat 64)
  | _ => none

/-- Kinds of access that is not performed yet. -/
inductive HeldKind where | load | store | red | rmw
deriving DecidableEq, Repr

/-- The kind of an access. -/
def Held.kind (h : Held) : HeldKind :=
  match h.i with
  | none => .store
  | some (.amo ..) | some (.cas ..) => .rmw
  | some (.red ..) => .red
  | some _ => .load

/-- A store to memory, which threads of its core may read before it is performed (13 R285). Scratchpad writes are performed for all at once
(R297), and so is what reads and writes. -/
def Held.plain (h : Held) : Bool := !h.spad && !h.ctrl && h.kind == .store

/-- The core an access was made on. -/
def Held.core (h : Held) : Nat := h.c.core.getD 0

/-- An access reaches some of `n` bytes of memory, or of the scratchpad of a workgroup. -/
def Held.meets (h : Held) (spad : Bool) (wg a n : Nat) : Bool :=
  h.spad == spad && (!spad || h.wg == wg) && decide (a < h.addr + h.n ∧ h.addr < a + n)

/-! ### Who reads a store -/

/-- A thread reads a store that is not performed: its own, or one that has become visible to it (13 R285). -/
def Held.readBy (h : Held) (k : Nat) : Bool := h.plain && (h.c.who == k || h.seen.contains k)

/-- An access that a thread's later ones may come after: its own, one it has read, or one that happens before it. -/
def Held.knownTo (h : Held) (k : Nat) : Bool := !h.ctrl && (h.c.who == k || h.seen.contains k || h.before.any (·.1 == k))

/-- Some bytes as a store leaves them. -/
def Held.over (h : Held) (a n v : Nat) : Nat :=
  (List.range n).foldl (fun v i =>
    if h.addr ≤ a + i ∧ a + i < h.addr + h.n then
      v - v / 2 ^ (8 * i) % 256 * 2 ^ (8 * i) + h.v / 2 ^ (8 * (a + i - h.addr)) % 256 * 2 ^ (8 * i)
    else v) v

/-- Bytes of memory as an access of a thread reads them: under the stores it sees, of its own those before a number. -/
def State.overlaid (s : State) (k upto a n v : Nat) : Nat :=
  s.stores.foldl (fun v h => if h.readBy k && (h.c.who != k || decide (h.id < upto)) && h.meets false 0 a n then h.over a n v else v) v

/-- Bytes of an early value. -/
def bytesAt (v b a n : Nat) : Nat := v / 2 ^ (8 * (a - b)) % 2 ^ (8 * n)

/-- A view reaches some of `n` bytes. -/
def View.meets (v : View) (spad : Bool) (a n : Nat) : Bool := v.spad == spad && decide (a < v.addr + v.n ∧ v.addr < a + n)

/-- The value of some bytes that a thread's loads have bound early. -/
def State.bound (s : State) (k : Nat) (spad : Bool) (a n : Nat) : Option Nat :=
  (s.views.find? fun v => v.who == k && v.spad == spad && decide (v.addr ≤ a ∧ a + n ≤ v.addr + v.n)).map fun v => bytesAt v.v v.addr a n

/-- A thread's early values of some bytes go. -/
def State.unbind (s : State) (k : Nat) (spad : Bool) (a n : Nat) : State :=
  { s with views := s.views.filter fun v => !(v.who == k && v.meets spad a n) }

/-! ### Performing -/

/-- An access is performed before a later one: the later one says so, one thread's accesses of control space keep their order (04 R76), and
on common bytes so do accesses of one thread, of the lanes of one issue, and writes of which some thread sees both (13 R282). -/
def Held.first (x y : Held) : Bool :=
  y.deps.contains x.id || (x.ctrl && y.ctrl && x.c.who == y.c.who) ||
  (x.meets y.spad y.wg y.addr y.n &&
    (x.c.who == y.c.who || (x.issue == y.issue && x.issue != 0) ||
      (x.kind != .load && y.kind != .load && (x.c.who :: x.seen).any (y.c.who :: y.seen).contains)))

/-- A store or `red` that got an error response: it is dropped, and ACCESS_ERROR_DEFERRED is to be raised for the first of
them (05 R116). -/
def State.failStore (s : State) (c : MCtx) (pa code : Nat) (va : Word) : State :=
  let s1 := s.respond c pa code
  if (tget s1.threads c.who).isSome then s1.updThr c.who fun t => { t with deferred := some (t.deferred.getD va) } else s1

/-- The result of an access reaches its thread. -/
def State.giveTo (s : State) (h : Held) (v : Word) : State :=
  if (tget s.threads h.c.who).isSome then s.updThr h.c.who fun t => t.produce h.id v else s

/-- A load is performed. Where it would draw an error response by now it has the value that was there as it was executed. -/
def State.performLoad (s : State) (h : Held) (nc : Bool) (f : Nat → Word) : State :=
  if h.spad then s.giveTo h (f ((s.wg h.wg).spad.readN h.addr h.n))
  else match if nc then s.secLoadNc h.r h.c.ag h.addr h.n else s.secLoad h.r h.c.ag h.addr h.n with
    | (s1, .ok v) => s1.giveTo h (f (s1.overlaid h.c.who h.id h.addr h.n v))
    | (s1, .error _) => s1.giveTo h (f h.v)

/-- A read and write is performed. Where it draws an error response by now, it is dropped as a store is, and its result is a value of no
meaning. -/
def State.performRmw (s : State) (h : Held) (home : Bool) (f : Nat → Option Nat) : State :=
  match s.secAtomic h.r h.c.ag h.addr h.n home f h.c.who with
  | (s1, .ok old) => s1.giveTo h (amoOld (8 * h.n) old)
  | (s1, .error code) => (s1.failStore h.c h.addr code h.va).giveTo h (Config.spoiled s1.seq)

/-- A store to memory or a `red` has been answered. -/
def State.stored (r : State × Option Nat) (h : Held) : State :=
  match r.2 with
  | none => r.1
  | some code => r.1.failStore h.c h.addr code h.va

/-- An access of memory or scratchpad is performed. -/
def State.performHeld (s : State) (h : Held) : State :=
  match h.i with
  | some (.amo op wide _ _ _ _ _ _ sc _ _) => s.performRmw h (atHome sc) fun old => some (amoNew op (amoBits wide) old h.v)
  | some (.cas _ _ _ _ _ _ _ sc _ _) => s.performRmw h (atHome sc) fun old => if old = h.w then some h.v else none
  | some (.red op wide ..) => State.stored (s.secRed h.r h.c.ag h.addr op wide h.v h.c.who) h
  | some i => (match loadForm i with
    | some (_, _, nc, f) => s.performLoad h nc f
    | none => s)
  | none =>
    if h.spad then
      (if (tget s.wgs h.wg).isSome then s.updWg h.wg fun g => { g with spad := g.spad.writeN h.addr h.n h.v } else s)
    else State.stored (s.secStore h.r h.c.ag h.addr h.n h.v h.c.who) h

/-- The accesses that a condition names, and all that are performed before one of them. -/
def State.upTo (s : State) (f : Held → Bool) : List Held :=
  s.stores.reverse.foldl (fun l h => if !h.ctrl && (f h || l.any h.first) then h :: l else l) []

/-- Accesses that a condition names are performed, in their order, with all that come before them. Those of control space are not among
them. -/
def State.perform (s : State) (f : Held → Bool) : State :=
  let l := s.upTo f
  l.foldl State.performHeld { s with stores := s.stores.filter fun h => !l.any (·.id == h.id) }

/-- Accesses of memory and scratchpad that are known to some threads are performed, and these threads have bound no value early. -/
def State.performFor (s : State) (ks : List Nat) : State :=
  let s1 := s.perform fun h => ks.any h.knownTo
  { s1 with views := s1.views.filter fun v => !ks.contains v.who }

/-- A store becomes visible to a thread of its core. -/
def State.spread (s : State) (i k : Nat) : State :=
  { s with stores := s.stores.zipIdx.map fun x =>
      if x.2 = i ∧ x.1.plain ∧ (s.thr k).core = x.1.core ∧ !x.1.seen.contains k then { x.1 with seen := k :: x.1.seen } else x.1 }

/-- What a thread that goes had not performed goes with it, but for its stores to control space. -/
def State.dropStores (s : State) (k : Nat) : State :=
  { s with stores := s.stores.filter (fun h => h.ctrl || h.c.who != k), views := s.views.filter (·.who != k) }

/-- An access stays behind. A thread that stores has bound nothing early there (13 R282). -/
def State.putBehind (s : State) (h : Held) : State :=
  ({ s with stores := s.stores ++ [{ h with id := s.nextId, deps := (s.stores.filter fun x => x.before.any (·.1 == h.c.who) && !h.ctrl).map (·.id) }]
            nextId := s.nextId + 1 } : State).unbind h.c.who h.spad h.addr h.n

/-! ### Where an access goes (09 R189, R193) -/

/-- The offset of a window address (09 R193). -/
def windowOff (va : Word) : Word := va - 0xFFFFFFFFFFC00000

/-- A float access goes to scratchpad where its address lies in the window (09 R193). -/
def floatReach (ea : Word) (k : XKind) : Bool × Word × XKind := if inWindow ea then (true, windowOff ea, k) else (false, ea, k)

end Sys2Proof.Machine
end

