-- ==== Sys2Proof/Machine/Tables.lean ====
section
/-!
DEFINITION. The tables of the dies: which units are online (01 R17), identifier windows (15 R315, R342), completion tables
(15 R325, R326), mark tables (17 R369 to R376), the remote counters (17 R387, 07 R473), and what one die sends another.
-/

namespace Sys2Proof.Machine

/-! ### Units that are online -/

/-- A die that is online. -/
def State.dieOn (s : State) (d : Nat) : Bool := s.present (pkgOfDie d) && s.online (.die d)
/-- A die that answers: online or draining (19 R434). -/
def State.dieUp (s : State) (d : Nat) : Bool := s.present (pkgOfDie d) && !s.gone (.die d)
/-- The online S-dies of a package, by ascending DIE_ID. -/
def State.sDies (s : State) (p : Nat) : List Nat := ((List.range 8).map (p * 16 + 2 + ·)).filter s.dieOn
/-- The online L-dies of a package. -/
def State.lDies (s : State) (p : Nat) : List Nat := ((List.range 2).map (p * 16 + ·)).filter s.dieOn
/-- The rail quadrant of a course (01 R16). -/
def quadOfCourse (k : Nat) : Nat := k % 8 / 2
/-- A quadrant that is shut (19 R428). -/
def State.quadOff (s : State) (d q : Nat) : Bool := ((tget (s.die d).quads q).map (·.off)).getD false
/-- A course that runs threads (16 R347). -/
def State.courseOn (s : State) (k : Nat) : Bool :=
  s.dieOn (dieOfCourse k) && s.online (.course k) && s.online (.quadrant (dieOfCourse k) (quadOfCourse k)) &&
  (s.course k).mode != .offline && !s.quadOff (dieOfCourse k) (quadOfCourse k)
/-- A core that runs threads; a bypassed tile does not. -/
def State.coreOn (s : State) (c : Nat) : Bool :=
  if isSDie (dieOfCore c) then
    let k := courseOfCore c
    s.courseOn k && s.online (.core c) && !((s.course k).mode == .degraded && (s.course k).bypass == tileOfCore c)
  else s.dieOn (dieOfCore c) && s.online (.core c)
/-- The S-cores of a die. -/
def coresOfDie (d : Nat) : List Nat := (List.range 32).map (d * 64 + ·)
/-- The online L-cores of a package exist. -/
def State.lCoreOn (s : State) (p : Nat) : Bool :=
  (s.lDies p).any fun d => (List.range 36).any fun c => s.coreOn (d * 64 + c)
/-- An online S-core of a package exists. -/
def State.sCoreOn (s : State) (p : Nat) : Bool := (s.sDies p).any fun d => (coresOfDie d).any s.coreOn

/-- The agent that reads and writes memory for a die's dispatcher, walker and migration engine (05 R102). -/
def dieAgent (d : Nat) : Nat := pkgOfDie d * 512 + 336 + dieId d

/-! ### Identifier windows (15 R315, R342) -/

/-- The table entry of an ASID. -/
def Die.idwEntry (d : Die) (asid : BitVec 16) : Nat := d.idwTable + 16 * asid.toNat

/-- A device access of a die ends: an error response is logged (05 R116; 19 R433). -/
def State.noteResp (s : State) (d : Nat) (r : Option (Nat × Nat)) : State :=
  match r with
  | some (c, a) => s.logResp a c d 0
  | none => s

/-- A die's own read of a word, of which an error response is logged. -/
def State.dieLoad (s : State) (d a n : Nat) : State × Option Nat :=
  match s.homeLoad (dieAgent d) a n with
  | (s1, .ok v) => (s1, some v)
  | (s1, .error c) => (s1.noteResp d (some (c, a)), none)

/-- A die's own write of a word, of which an error response is logged. -/
def State.dieStore (s : State) (d a n v : Nat) : State :=
  let w := s.homeStore (dieAgent d) a n v
  w.1.noteResp d (w.2.map fun c => (c, a))

/-- BASE and REMAIN of a window; 0 and 0 while EN is 0, or where the table gives an error response. -/
def State.readWindow (s : State) (d : Nat) (asid : BitVec 16) : State × Word × Nat :=
  if !(s.die d).idwEn then (s, 0, 0)
  else
    let a := (s.die d).idwEntry asid
    let b := s.dieLoad d a 8
    let r := b.1.dieLoad d (a + 8) 4
    match b.2, r.2 with
    | some v, some n => (r.1, BitVec.ofNat 64 v, n)
    | _, _ => (r.1, 0, 0)

/-- A window is replaced: BASE, REMAIN, and four bytes of zero. -/
def State.writeWindow (s : State) (d : Nat) (asid : BitVec 16) (base : Word) (remain : Nat) : State :=
  let a := (s.die d).idwEntry asid
  (s.dieStore d a 8 base.toNat).dieStore d (a + 8) 8 (remain % 2 ^ 32)

/-- Identifiers are taken from a window in one step, or nothing is. -/
def State.takeIds (s : State) (d : Nat) (asid : BitVec 16) (n : Nat) : State × Option Word :=
  let w := s.readWindow d asid
  if w.2.2 < n then (w.1, none)
  else (w.1.writeWindow d asid (w.2.1 + BitVec.ofNat 64 n) (w.2.2 - n), some w.2.1)

/-! ### Levels (15 R325, R326) -/

/-- The handle of a level. -/
def levelHandle (d idx kind gen : Nat) : Word :=
  BitVec.ofNat 64 (idx + dieId d * 2 ^ 12 + pkgOfDie d * 2 ^ 16 + kind * 2 ^ 20 + gen * 2 ^ 32)

/-- The die a handle names. -/
def handleDie (h : Word) : Nat := h.toNat / 2 ^ 16 % 16 * 16 + h.toNat / 2 ^ 12 % 16
/-- The entry a handle names. -/
def handleIdx (h : Word) : Nat := h.toNat % 2 ^ 12

/-- GEN of an entry of a completion table. -/
def State.levelGen (s : State) (d i : Nat) : Nat := (tget (s.die d).levelGen i).getD 0

/-- The level of a handle; a handle that is stale has none. -/
def State.levelOf (s : State) (h : Word) : Option Level :=
  match tget (s.die (handleDie h)).levels (handleIdx h) with
  | some l => if h = levelHandle (handleDie h) (handleIdx h) l.kind (s.levelGen (handleDie h) (handleIdx h)) then some l else none
  | none => none

/-- A level is replaced. -/
def State.setLevel (s : State) (h : Word) (l : Level) : State :=
  s.updDie (handleDie h) fun d => { d with levels := tset d.levels (handleIdx h) l }

/-- The results of a level as words. -/
def wFailed : Word := -6
/-- Cancelled. -/
def wCancelled : Word := -5

/-- A level that has ended: DONE, or CANCELLED with everything below it stopped. -/
def Level.final (l : Level) : Bool := l.st == .done || (l.st == .cancelled && l.count == 0)

/-- A level's counter falls by `n`, with or without a failure; a level that ends is a finished child of its parent, once. The
kinds rise from child to parent, so four levels are all there are (15 R326). -/
def State.childDone : Nat → State → Word → Nat → Bool → State
  | 0, s, _, _, _ => s
  | fuel + 1, s, h, n, failed =>
    match s.levelOf h with
    | none => s
    | some l =>
      if l.told then s
      else
        let l1 : Level := { l with count := l.count - n, result := if failed && l.st != .cancelled then wFailed else l.result }
        let l2 : Level := if l1.st == .sealed && l1.count == 0 then { l1 with st := .done } else l1
        let s1 := s.setLevel h { l2 with told := l2.final }
        if l2.final && l2.parent != 0 then State.childDone fuel s1 l2.parent 1 (l2.result == wFailed) else s1

/-- A child of a level finishes. -/
def State.finishChild (s : State) (h : Word) (failed : Bool) : State := s.childDone 4 h 1 failed

/-- A level is sealed: it is DONE at once when nothing is left below it. -/
def State.sealLevel (s : State) (h : Word) : State :=
  match s.levelOf h with
  | some l => if l.st == .open then (s.setLevel h { l with st := .sealed }).childDone 4 h 0 false else s
  | none => s

/-- Whether a thread waits on a level. -/
def Thread.waitsLevel (t : Thread) (d i gen : Nat) : Bool :=
  match t.wait with
  | some (.level a b c) => a == d && b == i && c == gen
  | some (.cancel a b c) => a == d && b == i && c == gen
  | _ => false

/-- Levels that have ended, and on which nobody waits, are freed; their GEN advances (15 R325). -/
def State.freeLevels (s : State) (d : Nat) : State :=
  (s.die d).levels.foldl (fun s e =>
    if e.2.final && !s.threads.any fun t => t.2.waitsLevel d e.1 (s.levelGen d e.1) then
      s.updDie d fun x => { x with
        levels := tdel x.levels e.1
        levelGen := tset x.levelGen e.1 (((tget x.levelGen e.1).getD 0 + 1) % 2 ^ 31) }
    else s) s

/-- Everything a cancel of a level ends has stopped: the level has ended, and no thread, arrival or invocation that it has reached is left (15
R331, 17 R386). -/
def State.cancelDone (s : State) (d i gen : Nat) : Bool :=
  let h := (tget (s.die d).levels i).map fun l => levelHandle d i l.kind gen
  match h with
  | none => true
  | some h =>
    (match s.levelOf h with
     | some l => l.final
     | none => true) &&
    !(s.threads.any fun t => t.2.stops.contains h) && !(s.away.any fun a => a.2.stops.contains h) &&
    !(s.msgs.any fun m => match m with
      | .cancel _ l => l == h
      | _ => false)

/-- A number of a table not in use, from a start on; `n` is the size, and one more try than there are entries is enough. -/
def freeIndex (used : Nat → Bool) (n : Nat) : Nat → Nat → Option Nat
  | 0, _ => none
  | fuel + 1, i => if used (i % n) then freeIndex used n fuel (i % n + 1) else some (i % n)

/-- A free entry of a die's completion table. -/
def State.freeLevel (s : State) (d : Nat) : Option Nat :=
  let m := (s.die d).levels
  if m.length ≥ 4096 then none
  else freeIndex (fun i => (tget m i).isSome) 4096 (m.length + 1) (Config.freeStart s.seq)

/-! ### Marks (17 R369 to R376) -/

/-- TAG 0x8A with bit 55 clear (17 R369). -/
def isMark (m : Word) : Bool := m.toNat / 2 ^ 55 == 0x114
/-- The mark of an entry. -/
def markWord (d i gen : Nat) : Word :=
  BitVec.ofNat 64 (0x8A * 2 ^ 56 + gen * 2 ^ 32 + pkgOfDie d * 2 ^ 28 + dieId d * 2 ^ 24 + i)
/-- The origin die of a mark. -/
def markDie (m : Word) : Nat := m.toNat / 2 ^ 28 % 16 * 16 + m.toNat / 2 ^ 24 % 16
/-- INDEX of a mark. -/
def markIdx (m : Word) : Nat := m.toNat % 2 ^ 24
/-- GEN of an entry of a mark table. -/
def State.markGen (s : State) (d i : Nat) : Nat := (tget (s.die d).markGen i).getD 0

/-- The entry of a mark, if it is not free. -/
def State.markAt (s : State) (m : Word) : Option Mark :=
  if isMark m && m == markWord (markDie m) (markIdx m) (s.markGen (markDie m) (markIdx m)) then
    tget (s.die (markDie m)).marks (markIdx m)
  else none

/-- A live mark of an address space (17 R371). -/
def State.liveMark (s : State) (m : Word) (asid : BitVec 16) : Option Mark := (s.markAt m).filter (·.asid == asid)

/-- A mark whose origin die is offline reads as LOST (17 R374). -/
def State.markLost (s : State) (m : Word) : Bool := isMark m && s.gone (.die (markDie m))

/-- An entry is replaced. -/
def State.setMark (s : State) (m : Word) (e : Mark) : State :=
  s.updDie (markDie m) fun d => { d with marks := tset d.marks (markIdx m) e }

/-- RESOLVED or BROKEN. -/
def Mark.final (e : Mark) : Bool := e.st == .resolved || e.st == .broken

/-- A dispatched invocation of the mark is discarded where it arrives: the mark is final (17 R373). Those whose mark was lost with its die
travel on as orphans (R385). -/
def Mark.discards (e : Mark) : Bool := e.final

/-- Causes of a broken mark (17 R374). -/
def cStale : Word := -1
/-- BADREC. -/
def cBadRec : Word := -2
/-- BADPLACE. -/
def cBadPlace : Word := -3
/-- FAULT. -/
def cFault : Word := -4
/-- CANCELLED. -/
def cCancelled : Word := -5
/-- PLACEFAIL. -/
def cPlaceFail : Word := -6
/-- UPSTREAM. -/
def cUpstream : Word := -7
/-- LOST. -/
def cLost : Word := -8

/-- The remote counter falls for a mark (17 R387): it is done, and the marks at the front of the list leave it. -/
def markDone (m : Nat) (l : List (Nat × Bool)) : List (Nat × Bool) :=
  popRemote (l.map fun e => if e.1 = m then (m, true) else e)

/-- The decrement for a mark reaches the count wherever it is held (07 R165, R473). -/
def State.remoteDone (s : State) (m : Word) : State :=
  { s with
    threads := s.threads.map fun t => (t.1, { t.2 with remote := markDone m.toNat t.2.remote })
    pkgs := s.pkgs.map fun p =>
      (p.1, { p.2 with remote := (p.2.remote.map fun r => (r.1, markDone m.toNat r.2)).filter fun r => !r.2.isEmpty }) }

/-- A message is sent. -/
def State.send (s : State) (m : Msg) : State := { s with msgs := s.msgs ++ [m] }

/-- ORIGIN of a mark that breaks because another broke (17 R374). -/
def upOrigin (u : Word) (e : Mark) : Word := if e.cause == cUpstream then e.origin else u

/-- A mark breaks: the count of its issuer falls, it leaves the queue it waited in, and the invocations that waited on it
are told (17 R373, R383, R387). A mark that is final stays as it is. -/
def State.breakMark (s : State) (m : Word) (cause origin : Word) : State :=
  match s.markAt m with
  | none => s
  | some e =>
    if e.final then s
    else
      let e1 := { e with st := .broken, cause := cause, origin := origin, queue := [] }
      let s1 := (s.setMark m e1).remoteDone m
      let s2 := match e.inv with
        | some v => (match s1.markAt v.place with
          | some u => s1.setMark v.place { u with queue := u.queue.filter (· != m) }
          | none => s1)
        | none => s1
      e.queue.foldl (fun s q => s.send (.broke q cUpstream (upOrigin m e1))) s2

/-- Whether a thread reads a mark and waits. -/
def Thread.waitsMark (t : Thread) (d i gen : Nat) : Bool :=
  match t.wait with
  | some (.mark a b c) => a == d && b == i && c == gen
  | _ => false

/-- Final entries that nobody holds, with an empty queue, are freed once no reader waits; GEN advances (17 R372). -/
def State.freeMarks (s : State) (d : Nat) : State :=
  (s.die d).marks.foldl (fun s e =>
    if e.2.final && !e.2.held && e.2.queue.isEmpty &&
        !s.threads.any fun t => t.2.waitsMark d e.1 (s.markGen d e.1) then
      s.updDie d fun x => { x with
        marks := tdel x.marks e.1
        markGen := tset x.markGen e.1 (((tget x.markGen e.1).getD 0 + 1) % 2 ^ 23) }
    else s) s

/-- Every table of the device frees what has ended. -/
def State.sweep (s : State) : State := s.dies.foldl (fun s d => (s.freeLevels d.1).freeMarks d.1) s

/-! ### The mark table and its spill area (17 R370, R375, R376) -/

/-- MKSPILL.EN. -/
def spillEn (v : Word) : Bool := v.getLsbD 0
/-- MKSPILL.LOG2N. -/
def spillLog (v : Word) : Nat := v.toNat / 2 % 32
/-- MKSPILL.BASE. -/
def spillBase (v : Word) : Nat := v.toNat / 2 ^ 12 % 2 ^ 40 * 2 ^ 12

/-- Entries an index may name. -/
def Die.markSpace (d : Die) : Nat := if spillEn d.mkspill then 2 ^ spillLog d.mkspill else 65536
/-- Entries held on the die. -/
def Die.marksHeld (d : Die) : Nat := (d.marks.filter fun e => !e.2.spilled).length

/-- The final entry read longest ago, with an empty queue, among those on the die. -/
def Die.spillVictim (d : Die) : Option Nat :=
  ((d.marks.filter fun e => e.2.final && e.2.queue.isEmpty && !e.2.spilled).foldl
    (fun (b : Option (Nat × Nat)) e => match b with
      | some (i, r) => if e.2.lastRead < r then some (e.1, e.2.lastRead) else some (i, r)
      | none => some (e.1, e.2.lastRead)) none).map (·.1)

/-- Address of an entry in the spill area (17 R375). -/
def State.spillAt (s : State) (d i : Nat) : Nat := spillBase (s.die d).mkspill + 128 * i

/-- An entry whose spill fails is LOST. -/
def Mark.lose (e : Mark) (m : Word) : Mark := { e with st := .broken, cause := cLost, origin := m, result := [] }

/-- An entry goes to the spill area: 128 bytes are written coherently, whose layout is open (log entry 49), so that its contents stay
in the model's table beside the mark `spilled`. An error response is logged and makes it LOST (17 R375). -/
def State.spillOut (s : State) (d i : Nat) (e : Mark) : State :=
  let m := markWord d i (s.markGen d i)
  let w := s.homeWrite (dieAgent d) (s.spillAt d i) ((List.range 128).map (Config.spillImage s.seq))
  (w.1.noteResp d w.2).setMark m { (if w.2.isSome then e.lose m else e) with spilled := true }

/-- Room for one more entry on the die, by spilling one; none when nothing can be spilled. -/
def State.makeRoom (s : State) (d : Nat) : Option State :=
  let x := s.die d
  if x.marksHeld < 65536 then some s
  else if !spillEn x.mkspill then none
  else x.spillVictim.map fun i =>
    match tget x.marks i with
    | some e => s.spillOut d i e
    | none => s

/-- A new entry: the state after making room, and its index; none raises MARK_TABLE_FULL (17 R376). -/
def State.allocMark (s : State) (d : Nat) (e : Mark) : Option (State × Word) :=
  let x := s.die d
  let n := x.markSpace
  if x.marks.length ≥ n then none
  else match s.makeRoom d with
    | none => none
    | some s1 =>
      match freeIndex (fun i => (tget (s1.die d).marks i).isSome) n (x.marks.length + 1) (Config.freeStart s.seq) with
      | none => none
      | some i => some (s1.updDie d fun x => { x with marks := tset x.marks i e }, markWord d i (s.markGen d i))

/-- The read of a spilled entry's bytes; whether it failed. -/
def State.spillIn (s : State) (d i : Nat) : State × Bool :=
  let r := s.homeRead (dieAgent d) (s.spillAt d i) 128
  match r.2 with
  | .ok _ => (r.1, false)
  | .error e => (r.1.noteResp d (some e), true)

/-- A read of an entry: a spilled one is loaded again, and is LOST where the spill area gives an error response (17 R375). -/
def State.touchMark (s : State) (m : Word) : State :=
  match s.markAt m with
  | none => s
  | some e =>
    if e.spilled then
      let r := s.spillIn (markDie m) (markIdx m)
      if r.2 then r.1.setMark m { e.lose m with spilled := false, lastRead := s.seq }
      else ((r.1.makeRoom (markDie m)).getD r.1).setMark m { e with spilled := false, lastRead := s.seq }
    else s.setMark m { e with lastRead := s.seq }

/-- HELD is cleared on every mark a thread holds (17 R372). -/
def State.dropMarks (s : State) (tid : Word) : State :=
  { s with dies := s.dies.map fun d => (d.1, { d.2 with
      marks := d.2.marks.map fun e => (e.1, if e.2.holder = tid then { e.2 with held := false } else e.2) }) }

/-! ### Where arrivals go (17 R377, R379; 15 R345, R474) -/

/-- Entries free in an L-die's arrival queue. -/
def Ring.room (r : Ring) : Nat := if r.en then 2 ^ r.log2n - (r.head - r.tail).toNat else 0

/-- The L-die whose arrival queue has more free entries, DIE_ID 0 on a tie. -/
def State.pickL (s : State) (p : Nat) : Option Nat :=
  match s.lDies p with
  | [] => none
  | [d] => some d
  | a :: b :: _ => some (if (s.die a).arq.room < (s.die b).arq.room then b else a)

/-- Threads that wait in a die's bins and arrival queue. -/
def State.waitingOn (s : State) (d : Nat) : Nat :=
  (s.threads.filter fun t => match t.2.place with
    | .bin e _ => e == d
    | .queue e => e == d
    | _ => false).length

/-- A bin without threads has no key (15 R321). -/
def State.binBusy (s : State) (d b : Nat) : Bool := s.threads.any fun t => t.2.place == .bin d b

/-- Whether a bin has a key. -/
def Bin.has (b : Bin) (asid : BitVec 16) (entry : Word) (sclass : BitVec 2) : Bool :=
  b.asid == asid && b.entry == entry && b.sclass == sclass

/-- The bin with a key. `fixed` is 1 + bytes 12 to 47 of a launch's record, and 0 for arrivals: these share any bin of the key, and
threads of launches share one only with equal records (15 R321). -/
def State.binWith (s : State) (d : Nat) (asid : BitVec 16) (entry : Word) (sclass : BitVec 2) (fixed : Nat)
    (launch : Option (Nat × Nat)) : Option Nat :=
  ((s.die d).bins.find? fun b => s.binBusy d b.1 && b.2.has asid entry sclass &&
    (fixed == 0 || b.2.fixed == 0 || b.2.fixed == fixed) && (b.2.launch == launch || b.2.launch.isNone)).map (·.1)

/-- A keyless bin. -/
def State.freeBin (s : State) (d : Nat) : Option Nat := (List.range 64).find? fun b => !s.binBusy d b

/-- The S-die an arrival that names none goes to (15 R474). -/
def State.pickS (s : State) (p sender : Nat) (asid : BitVec 16) (entry : Word) (sclass : BitVec 2) : Option Nat :=
  let ds := s.sDies p
  if ds.contains sender && (s.die sender).arrivals.isEmpty &&
      ((s.binWith sender asid entry sclass 0 none).isSome || (s.freeBin sender).isSome) then some sender
  else ds.foldl (fun (b : Option Nat) d => match b with
    | none => some d
    | some e => if s.waitingOn d < s.waitingOn e then some d else some e) none

/-! ### Resolution (17 R381) -/

/-- The die that a forwarded invocation goes to: the producer's, or where that is offline and the record allows another
dispatch, one of the same kind in its package, chosen for the sender (17 R381, R377; 15 R474). -/
def State.forwardDie (s : State) (v : Inv) (die sender : Nat) : Option Nat :=
  if s.dieOn die then some die
  else if !v.restartable then none
  else if isSDie die then s.pickS (pkgOfDie die) sender v.asid v.entry (BitVec.ofNat 2 v.sclass)
  else s.pickL (pkgOfDie die)

/-- A cancel is on its way to an invocation (17 R386). -/
def State.cancelComes (s : State) (m : Word) : Bool :=
  s.msgs.any fun x => match x with
    | .cancel q _ => q == m
    | _ => false

/-- An invocation forwarded from a resolved mark is dispatched to the die of the producer, with word 0 of the result
(17 R381); `sender` is the die of R474. One that a cancel is to reach is discarded (R386). -/
def State.forwardTo (s : State) (q : Word) (die sender : Nat) (w0 : Word) : State :=
  match s.markAt q with
  | some e =>
    if e.final then s
    else if s.cancelComes q then s.breakMark q cCancelled q
    else match e.inv.bind fun v => s.forwardDie v die sender with
      | some d =>
        (s.setMark q { e with st := .pending, site := d, inv := e.inv.map fun v => { v with word0 := some w0 } }).send
          (.invoke d q)
      | none => s.breakMark q cPlaceFail q
  | none => s

/-- A mark resolves at its entry: waiting readers go on, the count of its issuer falls, and its queue is dispatched in
order (17 R381, R387). -/
def State.resolveMark (s : State) (m : Word) (die : Nat) (ws : List Word) : State :=
  match s.markAt m with
  | none => s
  | some e =>
    if e.final then s
    else
      let s1 := (s.setMark m { e with st := .resolved, site := die, result := ws, queue := [] }).remoteDone m
      e.queue.foldl (fun s q => s.forwardTo q die (markDie m) (ws.headD 0)) s1

/-! ### Capture units (19 R431, R432) -/

/-- A capture unit. -/
def Die.mon (d : Die) (u : Nat) : Mon := (tget d.mons u).getD Mon.init

/-- A sample: MIN, MAX, COUNT, and one bin. -/
def Mon.sample (m : Mon) (v : Word) : Mon :=
  let sh := m.ctl.toNat / 2 ^ 8 % 64
  let i := (v.toInt - m.lo.toInt) / 2 ^ sh
  let b := if i < 0 then 0 else if i > 31 then 31 else i.toNat
  { m with
    min := if v.slt m.min then v else m.min, max := if m.max.slt v then v else m.max, count := m.count + 1
    bins := tset m.bins b ((tget m.bins b).getD 0 + 1) }

/-- A unit samples while EN is 1 and SOURCE is one the table lists. -/
def Mon.takes (m : Mon) : Bool := m.ctl.getLsbD 6 && decide (m.ctl.toNat % 64 < 8)

/-- FILTER lets a core or a course through: 0xFFFF lets all (19 R431). -/
def Mon.lets (m : Mon) (n : Nat) : Bool := m.ctl.toNat / 2 ^ 16 % 2 ^ 16 == 0xFFFF || m.ctl.toNat / 2 ^ 16 % 2 ^ 16 == n

/-- A capture unit changed. -/
def State.updMon (s : State) (d u : Nat) (f : Mon → Mon) : State :=
  s.updDie d fun x => { x with mons := tset x.mons u (f (x.mon u)) }

/-- The units of a die that measure a source sample a value of a core or course (19 R432). -/
def State.measure (s : State) (d src n : Nat) (v : Int) : State :=
  (List.range 16).foldl (fun s u =>
    let m := (s.die d).mon u
    if m.takes && m.ctl.toNat % 64 == src && m.lets n then s.updMon d u fun m => m.sample (BitVec.ofInt 64 v) else s) s

end Sys2Proof.Machine
end

