-- ==== Sys2Proof/Machine/Ending.lean ====
section
/-!
DEFINITION. How a thread leaves: named barriers (15 R338 to R340), boost tokens (19 R424, R425), its mark (17 R381, R391), the
exit queue (15 R332, R344), and how a workgroup ends (12 R278, 16 R365).
-/

namespace Sys2Proof.Machine

/-! ### Identity on an L-core (07 R163, R473) -/

/-- LAUNCH_ID. -/
def State.launchOf (s : State) (t : Thread) : Word := if t.onL then (s.ctx t.ctxKey).launch else t.launch
/-- BOOST_TOK. -/
def State.tokOf (s : State) (t : Thread) : Word := if t.onL then (s.ctx t.ctxKey).tok else t.boostTok

/-- What the device knows of the thread that an L-core context runs, found by the context's CTX_TID (07 R163, R473). -/
def State.identify (s : State) (k : Nat) : State :=
  let t := s.thr k
  if t.onL then
    let c := s.ctx t.ctxKey
    let a := (tget s.away c.tid.toNat).getD Away.init
    s.setThr k { t with
      tid := c.tid, launch := c.launch, boostTok := c.tok, spawned := a.spawned, mark := a.mark, resolved := a.resolved,
      link := a.link, index := a.index, kobj := true,
      cancelled := t.cancelled || a.cancelled, stops := a.stops }
  else s

/-! ### Named barriers (15 R338 to R340) -/

/-- Threads that are members of a workgroup's barriers. -/
def State.membersOf (s : State) (w : Nat) : List (Nat × Thread) := s.threads.filter fun t => t.2.wg == w && !t.2.left

/-- Members of a course group's barriers. -/
def State.groupCount (s : State) (g : Nat) : Nat :=
  (((tget s.groups g).map (·.members)).getD []).foldl (fun n w => n + (s.membersOf w).length) 0

/-- A barrier nobody has touched: every member is still to arrive. -/
def freshBar (n : Nat) : HBar := ⟨0, n, n, []⟩

/-- A wg or cl barrier of a workgroup. -/
def State.hbarOf (s : State) (w : Nat) (cl : Bool) (i : Nat) : HBar :=
  if cl then
    let g := (s.wg w).group
    (tget ((tget s.groups g).getD ⟨[], [], []⟩).hbars i).getD (freshBar (s.groupCount g))
  else (tget (s.wg w).hbars i).getD (freshBar (s.membersOf w).length)

/-- A barrier is replaced. -/
def State.setHbar (s : State) (w : Nat) (cl : Bool) (i : Nat) (b : HBar) : State :=
  if cl then
    let g := (s.wg w).group
    let r := (tget s.groups g).getD ⟨[], [], []⟩
    { s with groups := tset s.groups g { r with hbars := tset r.hbars i b } }
  else s.updWg w fun x => { x with hbars := tset x.hbars i b }

/-- The phase completes when nobody is still to arrive: GEN advances modulo 16, and waiters are released (15 R338, R339). -/
def HBar.settle (b : HBar) : HBar := if b.pend = 0 then ⟨(b.gen + 1) % 16, b.expected, b.expected, []⟩ else b

/-- An arrival. -/
def HBar.arrive (b : HBar) (k : Nat) : HBar := { b with pend := b.pend - 1, arrived := k :: b.arrived }.settle

/-- A member leaves (15 R340). -/
def HBar.remove (b : HBar) (k : Nat) : HBar :=
  if b.arrived.contains k then { b with expected := b.expected - 1, arrived := b.arrived.erase k }
  else { b with expected := b.expected - 1, pend := b.pend - 1 }.settle

/-- A member leaves every barrier of a table. -/
def removeAll (l : List (Nat × HBar)) (k : Nat) : List (Nat × HBar) := l.map fun b => (b.1, b.2.remove k)

/-- A thread is removed from every named barrier of its workgroup and course group, is absent to lane operations, and has no
arrival any more (15 R340; 11 R248, R249). -/
def State.leaveWg (s : State) (k : Nat) : State :=
  let t := s.thr k
  if t.left then s
  else
    let s1 := if (tget s.wgs t.wg).isSome then s.updWg t.wg fun w => { w with hbars := removeAll w.hbars k } else s
    let g := (s.wg t.wg).group
    let s2 := match tget s1.groups g with
      | some r => { s1 with groups := tset s1.groups g { r with hbars := removeAll r.hbars k } }
      | none => s1
    s2.updThr k fun t => { t with left := true, arrival := none }

/-! ### Boost tokens (19 R424, R425) -/

/-- TOK. -/
def tokTok (w : Word) : Nat := w.toNat % 2 ^ 32
/-- LEASE. -/
def tokLease (w : Word) : Nat := w.toNat / 2 ^ 32 % 2 ^ 7
/-- A BOOST_TOK. -/
def mkTok (tok lease : Nat) : Word := BitVec.ofNat 64 (tok % 2 ^ 32 + lease % 2 ^ 7 * 2 ^ 32)
/-- The lease returns to the tokens: pre-emption, migration and relaunch. -/
def settleTok (w : Word) : Word := mkTok (tokTok w + tokLease w) 0

/-- Tokens go into a process's bucket. -/
def State.bucketAdd (s : State) (d : Nat) (asid : BitVec 16) (n : Nat) : State :=
  if n = 0 then s
  else
    let a := (s.die d).bktBase.toNat + 8 * asid.toNat
    let r := s.dieLoad d a 8
    match r.2 with
    | some v => r.1.dieStore d a 8 ((v + n) % 2 ^ 64)
    | none => r.1

/-- A thread takes tokens from its process's bucket at creation (19 R424). -/
def State.bucketTake (s : State) (d : Nat) (asid : BitVec 16) : State × Nat :=
  let per := (s.die d).perThread.toNat
  if per = 0 then (s, 0)
  else
    let a := (s.die d).bktBase.toNat + 8 * asid.toNat
    let r := s.dieLoad d a 8
    match r.2 with
    | some v =>
      let n := Nat.min (Nat.min v per) (2 ^ 32 - 1)
      (r.1.dieStore d a 8 (v - n), n)
    | none => (r.1, 0)

/-- The settlement of a thread that ends (19 R425). -/
def State.settleEnd (s : State) (t : Thread) (e : Ending) : State :=
  let w := s.tokOf t
  match e with
  | .normal => s.bucketAdd t.die t.asid (tokTok w + tokLease w)
  | _ => (s.bucketAdd t.die t.asid (tokTok w)).updPkg t.pkg fun p => { p with pool := p.pool + tokLease w }

/-! ### The end of a thread (15 R332, R344; 18 R403) -/

/-- The result a producer delivers: x10 to x17 (17 R391). -/
def Thread.result (t : Thread) : List Word := (List.range 8).map fun i => t.getX (BitVec.ofNat 5 (10 + i))

/-- A producer's resolution reaches its mark: at once on the origin die, else as a message (17 R381). -/
def State.deliver (s : State) (t : Thread) (m : Word) (ws : List Word) : State :=
  if markDie m = t.die then s.resolveMark m t.die ws else s.send (.resolve m t.die ws)

/-- A break reaches a mark: at once on the origin die, else as a message. -/
def State.breakFrom (s : State) (die : Nat) (m cause : Word) : State :=
  if markDie m = die then s.breakMark m cause m else s.send (.broke m cause m)

/-- The mark a thread would resolve, at its end. -/
def State.endMark (s : State) (t : Thread) (e : Ending) : State :=
  match t.mark with
  | some m =>
    if t.resolved then s
    else match e with
      | .normal => s.deliver t (BitVec.ofNat 64 m) t.result
      | .fatal => s.breakFrom t.die (BitVec.ofNat 64 m) cFault
      | .cancelled => s.breakFrom t.die (BitVec.ofNat 64 m) cCancelled
  | none => s

/-- Steps 3 and 4 of R332: its mark, the marks it holds, its barriers, its tokens, of which none are left (19 R425). -/
def State.closeThread (s0 : State) (k : Nat) (e : Ending) : State :=
  let s := (s0.performFor [k]).identify k
  let t := s.thr k
  let s1 := ((s.endMark t e).dropMarks (s.tidOf t)).settleEnd t e
  (s1.leaveWg k).updThr k fun t =>
    { t with ending := some e, wait := some .exitQueue, pend := [], resolved := true, left := true, reports := [],
             deferred := none, rel := none, laneWait := none, move := none, boostTok := 0 }

/-- The 16 bytes of an exit-queue entry (15 R344). -/
def State.exitEntry (s : State) (t : Thread) : List Byte :=
  let flags := (if t.spawned then 1 else 0) + (if t.mark.isSome then 2 else 0) +
    (if t.ending == some .fatal then 4 else 0) + (if t.kobj then 8 else 0)
  bytesOf 16 ((s.tidOf t).toNat + t.asid.toNat * 2 ^ 64 + flags * 2 ^ 80)

/-- The thread's place is free, and its launch has one child less (15 R332). -/
def State.removeThread (s : State) (k : Nat) : State :=
  let t := s.thr k
  let s1 := { s.dropStores k with threads := tdel s.threads k }
  let s2 : State := if t.onL then
      (({ s1 with away := tdel s1.away t.tid.toNat } : State).updCtx t.ctxKey fun c => { c with thread := none }).updPkg t.pkg
        fun p => { p with remote := tdel p.remote t.tid.toNat }
    else s1
  let s3 := match t.place with
    | .queue d => s2.updDie d fun x => { x with arrivals := x.arrivals.erase k }
    | _ => s2
  if t.spawned then s3.finishChild t.launch (t.ending == some .fatal) else s3

/-- A die's exit queue can take an entry. -/
def Ring.canWrite (r : Ring) : Bool := r.en && (r.head - r.tail).toNat < 2 ^ r.log2n

/-- An ending thread goes on: once its operations have drained it leaves its barriers and its marks; then its exit-queue entry
is written, the head advances, and the thread goes; an error response disables the queue and is logged, and the ending waits
(15 R332, R344; 18 R403). A thread of the operating system that ends on an L-core has no entry. -/
def State.exitWrite (s : State) (k : Nat) : State :=
  let t := s.thr k
  match t.ending with
  | none => s
  | some e =>
    if !t.left && !t.drained then s
    else
      let d := t.die
      let r := (s.die d).exq
      let s0 := s.identify k
      let s1 := if t.left then s0 else s.closeThread k e
      if t.onL && !(s0.thr k).spawned && (s0.thr k).mark.isNone then s1.removeThread k
      else if !r.canWrite then (if t.left then s else s1)
      else
        let t1 := s1.thr k
        let w := s1.homeWrite (dieAgent d) (r.base + 16 * (r.head.toNat % 2 ^ r.log2n)) (s1.exitEntry t1)
        match w.2 with
        | some (c, a) => (w.1.logErr d (BitVec.ofNat 64 a) c 0 (s1.tidOf t1)).updDie d fun x => { x with exq := { x.exq with en := false } }
        | none => (w.1.updDie d fun x => { x with exq := { x.exq with head := x.exq.head + 1 } }).removeThread k

/-! ### The end of a workgroup -/

/-- Commands of a workgroup that its core's engines still hold. -/
def State.wgBusy (s : State) (w : Nat) : Bool :=
  let c := s.core (s.wg w).core
  c.copyQ.any (·.wg == w) || c.matQ.any (·.wg == w)

/-- The class recorded from the energy of each lane issued (16 R365); a workgroup that issued no lane counts as heavy (DESIGN CHOICE, log
entry 106: the quotient is of 0 by 0). -/
def energyClass (energy lanes : Nat) : Nat := if 2 * energy < 3 * lanes then 0 else if energy < 3 * lanes then 1 else 2

/-- A use of an entry of the history, at a placement: it becomes the most recently used (16 R365). -/
def histUse (h : List Hist) (asid : BitVec 16) (entry : Word) : List Hist :=
  h.filter (fun x => x.asid == asid && x.entry == entry) ++ h.filter fun x => !(x.asid == asid && x.entry == entry)

/-- A die's history with a workgroup that ended; the least recently used of 256 entries goes (16 R365, 18 R411). -/
def histAdd (h : List Hist) (asid : BitVec 16) (entry : Word) (cls life : Nat) : List Hist :=
  let old := (h.find? fun x => x.asid == asid && x.entry == entry).getD ⟨asid, entry, 0, 0, 0⟩
  (⟨asid, entry, cls, old.life + life, old.runs + 1⟩ :: h.filter fun x => !(x.asid == asid && x.entry == entry)).take 256

/-- A workgroup that is on its way out. -/
def WG.leaving (g : WG) : Bool :=
  match g.st with
  | .drain | .stop | .save => true
  | _ => false

/-- A workgroup without threads and without commands ends: it leaves its course group and the history, and a pre-emption
request for it is met (18 R416). -/
def State.retireWg (s : State) (w : Nat) : State :=
  let g := s.wg w
  let now := (s.timeOf (pkgOfDie g.die)).toNat
  let s0 := if g.leaving then s.measure g.die 5 (coreId g.core) (now - g.asked : Nat) else s
  let s1 := s0.updDie g.die fun d => { d with
    hist := if !g.placed then d.hist
      else histAdd d.hist g.asid g.entry (energyClass g.energy g.lanes) (now - g.born)
    prq := if g.fromPrq then { d.prq with state := 2, latency := now - g.asked } else d.prq }
  let s2 := match tget s1.groups g.group with
    | some r =>
      let ms := r.members.filter (· != w)
      { s1 with groups := if ms.isEmpty then tdel s1.groups g.group
          else tset s1.groups g.group { r with members := ms, gone := tset r.gone (g.wgId % 4) (g.core, g.spBase) } }
    | none => s1
  { s2 with wgs := tdel s2.wgs w }

/-- Workgroups that have ended go. -/
def State.retireWgs (s : State) : State :=
  s.wgs.foldl (fun s w => if s.threads.any (·.2.wg == w.1) || s.wgBusy w.1 then s else s.retireWg w.1) s

end Sys2Proof.Machine
end

