-- ==== Sys2Proof/Machine/Bins.lean ====
section
/-!
DEFINITION. From arrivals to running workgroups: bins (15 R321, R322), workgroups and roles (R322, R324), placement (R323;
16 R362, R363, R365, R366), blocks of a launch (R327), invoked threads (17 R379), and arrivals from other dies (15 R336).
-/

namespace Sys2Proof.Machine

/-! ### Bins -/

/-- How a thread came to a bin. -/
inductive Origin where | spawned | migrant | invoked
deriving DecidableEq, Repr

/-- A thread that moves is a migrant; one that starts from a mark is invoked; the others are spawned. -/
def Thread.origin (t : Thread) : Origin := if t.move.isSome then .migrant else if t.spawned then .spawned else .invoked

/-- The launch of a level. -/
def State.launchAt (s : State) (h : Word) : Option Launch := (s.levelOf h).bind (·.launch)

/-- The record a spawned thread comes from. -/
def State.recordOf (s : State) (t : Thread) : Option SpawnRec := (s.launchAt t.launch).map (·.record)

/-- FILL of a place operand (15 R334). -/
def placeFill (p : Word) : Nat := p.toNat / 2 ^ 16 % 2 ^ 7
/-- TIMER of a place operand. -/
def placeTimer (p : Word) : Nat := p.toNat / 2 ^ 24 % 2 ^ 16

/-- The bin a thread asks for: key, threshold and timer (15 R321, R322, R334); a threshold of 0 is the migration profile's. A bin
takes its threshold and its timer from the thread that gave it its key (DEDUCED where threads of launches and arrivals share it, log
entry 51). -/
def State.binKey (s : State) (_d : Nat) (t : Thread) : Bin :=
  match t.origin with
  | .spawned =>
    match s.recordOf t with
    | some r => ⟨t.asid, t.pc, t.sclass, 1 + r.fixed, none, r.wgsize, r.timer, []⟩
    | none => ⟨t.asid, t.pc, t.sclass, 1, none, 4, 0, []⟩
  | .migrant =>
    let p := (t.move.map (·.place)).getD 0
    ⟨t.asid, t.pc, t.sclass, 0, none, placeFill p, placeTimer p, []⟩
  | .invoked => ⟨t.asid, t.pc, t.sclass, 0, none, 0, 0, []⟩

/-- FILL of a bin: its own, or the migration profile's as it stands (15 R322, R343). -/
def State.fillOf (s : State) (d : Nat) (b : Bin) : Nat := if b.fill = 0 then (s.die d).profile.fill else b.fill
/-- TIMER of a bin. -/
def State.timerOf (s : State) (d : Nat) (b : Bin) : Nat := if b.fill = 0 then (s.die d).profile.timer else b.timer

/-- A thread joins a bin; a bin of arrivals that a launch's thread joins is from then on kept apart from other records. -/
def Bin.join (b : Bin) (fixed k : Nat) : Bin :=
  { b with threads := b.threads ++ [k], fixed := if b.fixed = 0 then fixed else b.fixed }

/-- A thread enters a bin, or the arrival queue when no bin can take it. -/
def State.enterBin (s : State) (d k : Nat) : State :=
  let key := s.binKey d (s.thr k)
  match s.binWith d key.asid key.entry key.sclass key.fixed key.launch with
  | some b =>
    (s.updDie d fun x => { x with bins := tmod x.bins b key fun e => e.join key.fixed k }).updThr k
      fun t => { t with place := .bin d b, since := (s.timeOf (pkgOfDie d)).toNat }
  | none =>
    match s.freeBin d with
    | some b =>
      (s.updDie d fun x => { x with bins := tset x.bins b { key with threads := [k] } }).updThr k
        fun t => { t with place := .bin d b, since := (s.timeOf (pkgOfDie d)).toNat }
    | none => (s.updDie d fun x => { x with arrivals := x.arrivals ++ [k] }).updThr k fun t => { t with place := .queue d }

/-- A bin has a place for a thread now. -/
def State.binRoom (s : State) (d : Nat) (t : Thread) : Bool :=
  let key := s.binKey d t
  (s.binWith d key.asid key.entry key.sclass key.fixed key.launch).isSome || (s.freeBin d).isSome

/-! ### Workgroups (15 R322, R324) -/

/-- The role of a lane: copy, matrix and epilogue take the lowest lanes in that order, general the rest (15 R324). -/
def roleOf (rs : List (Nat × Nat × Nat)) (lane : Nat) : Role :=
  let r := fun i => rs[i]?.getD (0, 3, 3)
  let n1 := (r 1).1
  let n2 := n1 + (r 2).1
  let n3 := n2 + (r 3).1
  let k := if lane < n1 then 1 else if lane < n2 then 2 else if lane < n3 then 3 else 0
  ⟨BitVec.ofNat 2 k, (k == 1) || (k == 0 && n1 == 0), BitVec.ofNat 2 (r k).2.1, BitVec.ofNat 2 (r k).2.2⟩

/-- Bytes of register file a role takes (15 R323). -/
def Role.regBytes (r : Role) : Nat := 8 * ((r.xregs.toNat + 1) * 8 + (r.fregs.toNat + 1) * 8)

/-- Whether a thread's record allows a restart from its entry (18 R411). -/
def State.restartable (s : State) (t : Thread) : Bool :=
  if t.spawned then ((s.recordOf t).map (·.restartable)).getD false
  else match t.mark with
    | some m => (((s.markAt (BitVec.ofNat 64 m)).bind (·.inv)).map (·.restartable)).getD false
    | none => false

/-- The key of a DEADLINE workgroup that no launch gave one (16 R363, 17 R379). -/
def State.arrivalDeadline (s : State) (d : Nat) (t : Thread) : Nat :=
  match t.origin, t.mark with
  | .invoked, some m => (((s.markAt (BitVec.ofNat 64 m)).bind (·.inv)).map (·.deadline)).getD 0
  | _, _ => (s.timeOf (pkgOfDie d)).toNat

/-- The course and the core that an arrival's place names on its die: KIND 3 of `migrate` a course; KIND 4 and 3 of `rinv` a course
and a core (15 R334, 17 R377). -/
def State.wants (s : State) (d : Nat) (t : Thread) : Option Nat × Option Nat :=
  if t.origin == .spawned then (none, none)
  else
    let p := (t.move.map (·.place)).getD (match t.mark with
      | some m => (((s.markAt (BitVec.ofNat 64 m)).bind (·.inv)).map (·.place)).getD 0
      | none => 0)
    let kind := p.toNat % 8
    let named := !isMark p && dieId d == p.toNat / 2 ^ 8 % 16
    (if named && kind = (if t.origin == .migrant then 3 else 4) then some (d * 8 + p.toNat / 2 ^ 12 % 8) else none,
     if named && t.origin != .migrant && kind = 3 then some (d * 64 + p.toNat / 2 ^ 16 % 64) else none)

/-- The threads of a bin that can form one workgroup: those that name no course or core, or the one that the first to name one does
(DEDUCED: 17 R379 creates an invoked thread at its place, log entry 84). -/
def State.together (s : State) (d : Nat) (ts : List Nat) : List Nat :=
  match ts.find? fun k => s.wants d (s.thr k) != (none, none) with
  | none => ts
  | some k0 => ts.filter fun k => s.wants d (s.thr k) == (none, none) || s.wants d (s.thr k) == s.wants d (s.thr k0)

/-- What a record asks for, for a workgroup of its first `n` lanes (15 R317, R324). -/
def SpawnRec.shape (r : SpawnRec) (g : WG) (n : Nat) : WG :=
  { g with
    spPages := r.sppages, grant := r.tiles, hbarN := r.hbar, hbcl := r.hbcl, curclass := r.curclass, share := r.share
    tcfg := if r.tcfgv then some r.tcfg else none
    deadline := r.deadline, course := r.coursegrp
    regs := (List.range n).foldl (fun a i => a + (roleOf r.roles i).regBytes) 0 }

/-- The role of a thread at a lane: a spawned one's by its record, an arrival's general with copy rights and full budgets (15 R324; 07 R164;
17 R379). -/
def State.roleIn (s : State) (t : Thread) (lane : Nat) : Role :=
  match t.origin, s.recordOf t with
  | .spawned, some r => roleOf r.roles lane
  | _, _ => Role.full

/-- A workgroup with what the die's migration profile and arrivals ask for beside what it asks for itself (15 R343; 16 R363; 17 R379). -/
def WG.widen (g : WG) (pr : Profile) (key : Nat) : WG :=
  { g with
    spPages := Nat.max g.spPages pr.sppages, grant := Nat.max g.grant pr.tiles
    hbarN := Nat.max g.hbarN (Nat.min pr.hbar (1024 - g.hbcl)), share := 256, deadline := key }

/-- What a workgroup of some threads asks for, before it has a place: of spawned threads what their record says, of arrivals what the
profile does. Where both share a bin it asks for the more of either, with SHARE 256 and the earliest key (the spec does not say: DESIGN
CHOICE, log entry 51). -/
def State.wgOf (s : State) (d : Nat) (ts : List Nat) : WG :=
  let us := ts.map s.thr
  let t0 := s.thr (ts.headD 0)
  let n := ts.length
  let want := ((us.map (s.wants d)).find? (· != (none, none))).getD (none, none)
  let base := { WG.init with die := d, size := n, asid := t0.asid, entry := t0.pc, sclass := t0.sclass, order := s.nextId, wgId := 0xFFFFFFFF,
                             restartable := us.all fun t => t.origin != Origin.migrant && s.restartable t,
                             wantCourse := want.1, wantCore := want.2 }
  let arr := us.filter (·.origin != .spawned)
  let keys := arr.map (s.arrivalDeadline d)
  let regs := (us.zipIdx.map fun t => (s.roleIn t.1 t.2).regBytes).foldl (· + ·) 0
  match (us.find? (·.origin == .spawned)).bind s.recordOf with
  | some r =>
    let g := r.shape base n
    if arr.isEmpty then
      match us.all (·.launch == t0.launch), s.launchAt t0.launch with
      | true, some l => { g with level := some (handleDie t0.launch, handleIdx t0.launch), wgId := l.wgNext }
      | _, _ => g
    else { g.widen (s.die d).profile (keys.foldl Nat.min g.deadline) with regs := regs }
  | none => { base.widen (s.die d).profile (keys.foldl Nat.min (keys.headD 0)) with regs := regs }

/-- Threads become the lanes of a workgroup in their order, each in its own role. -/
def State.joinWg (s : State) (w : Nat) : List Nat → Nat → State
  | [], _ => s
  | k :: t, i =>
    State.joinWg (s.updThr k fun x => { x with wg := w, lane := i, role := s.roleIn x i, left := false, arrival := none }) w t (i + 1)

/-- A launch has one workgroup more. -/
def State.countWg (s : State) (h : Word) : State :=
  match s.levelOf h with
  | some l => s.setLevel h { l with launch := l.launch.map fun x => { x with wgNext := x.wgNext + 1 } }
  | none => s

/-- The flushed workgroup that some threads are all of (18 R416). -/
def State.flushedAll (s : State) (ts : List Nat) : Option Nat :=
  let w := (s.thr (ts.headD 0)).wg
  let mine := s.threads.filter fun t => t.2.wg == w && t.2.ending.isNone
  if (s.wg w).st == .flush && mine.length == ts.length && mine.all fun t => ts.contains t.1 then some w else none

/-- A bin releases its oldest threads, at most `n`, as one workgroup, which waits for a place (15 R322). Threads of one flushed workgroup that
are released together are that workgroup again, with its place in the launch, its course group, its key and its former placement number as its
release order; others leave it (DESIGN CHOICE, log entry 87). -/
def State.releaseBin (s : State) (d b n : Nat) : State :=
  match tget (s.die d).bins b with
  | none => s
  | some e =>
    let ts := (s.together d e.threads).take n
    if ts.isEmpty then s
    else
      let g : WG := { s.wgOf d ts with freed := (s.timeOf (pkgOfDie d)).toNat }
      let s1 := s.updDie d fun x => { x with bins := tset x.bins b { e with threads := e.threads.filter fun k => !ts.contains k } }
      match s.flushedAll ts with
      | some w =>
        let o := s.wg w
        (s1.setWg w { g with level := o.level, wgId := o.wgId, group := o.group, order := o.order, deadline := o.deadline }).joinWg w ts 0
      | none =>
        let w := s.nextId
        let s2 := ({ ts.foldl State.leaveWg s1 with nextId := w + 1 }.setWg w g).joinWg w ts 0
        if g.level.isSome then s2.countWg (s.thr (ts.headD 0)).launch else s2

/-- A launch has no further threads to hand out (15 R322). -/
def State.handedOut (s : State) (h : Word) : Bool :=
  match s.launchAt h with
  | some l => decide (l.record.count ≤ l.next) && l.redo.isEmpty
  | none => false

/-- A bin of one launch only that has no further threads to hand out (15 R322, event 3). -/
def State.lastOf (s : State) (b : Bin) : Bool :=
  match b.threads with
  | [] => false
  | k :: _ => s.handedOut (s.thr k).launch && b.threads.all fun j =>
      (s.thr j).origin == .spawned && (s.thr j).launch == (s.thr k).launch

/-- Full workgroups leave a bin; with a timer of 0, or where `last` looks for event 3 when its launch has nothing more to hand out, what it
holds leaves at once (15 R322). -/
def State.fillRelease (s : State) (d b : Nat) (last : Bool) : Nat → State
  | 0 => s
  | fuel + 1 =>
    match tget (s.die d).bins b with
    | none => s
    | some e =>
      let n := s.fillOf d e
      if n ≤ (s.together d e.threads).length then State.fillRelease (s.releaseBin d b n) d b last fuel
      else if e.threads.isEmpty then s
      else if (s.timerOf d e = 0 ∧ n ≤ 64) || (last && s.lastOf e) then State.fillRelease (s.releaseBin d b n) d b last fuel
      else s

/-- Every bin of a die that a thread has entered is looked at. -/
def State.releaseFull (s : State) (d : Nat) (last : Bool) : State :=
  (s.die d).bins.foldl (fun s b => s.fillRelease d b.1 last (b.2.threads.length + 1)) s

/-- A launch that has handed out everything releases the bins that hold only its threads, on every die (15 R322, event 3). -/
def State.endRelease (s : State) (h : Word) : State :=
  if s.handedOut h then s.dies.foldl (fun s d => s.releaseFull d.1 true) s else s

/-- Threads of the arrival queue take bins in their order (15 R321); full workgroups leave meanwhile, partial ones once all have come. -/
def State.drainArrivals (s : State) (d : Nat) : Nat → State
  | 0 => s
  | fuel + 1 =>
    match (s.die d).arrivals with
    | [] => s
    | k :: t =>
      if s.binRoom d (s.thr k) then
        State.drainArrivals (((s.updDie d fun x => { x with arrivals := t }).enterBin d k).releaseFull d false) d fuel
      else s

/-! ### Placement (15 R323; 16 R365, R366) -/

/-- A workgroup that holds a core's resources. -/
def WG.resident (g : WG) : Bool :=
  match g.st with
  | .released | .flush | .saved | .ended => false
  | _ => true

/-- Workgroups on a core. -/
def State.onCore (s : State) (c : Nat) : List (Nat × WG) := s.wgs.filter fun w => w.2.core == c && w.2.resident

/-- Slot groups a core has free, by slot and slice, the order the model fills them in (log entry 13). -/
def State.freeGroups (s : State) (c : Nat) : List (Nat × Nat) :=
  let used := (s.onCore c).flatMap (·.2.slots)
  ((List.range 256).map fun i => (i % 32, i / 32)).filter fun g => !used.contains g

/-- The lowest address, in pages, at which a run of scratchpad pages is free (06 R126). -/
def State.freeSpad (s : State) (c n : Nat) : Option Nat :=
  let rs := (s.onCore c).map fun w => (w.2.spBase / 4096, w.2.spPages)
  let ok := fun a => decide (a + n ≤ 768) && rs.all fun r => r.2 == 0 || n == 0 || decide (a + n ≤ r.1 ∨ r.1 + r.2 ≤ a)
  ((0 :: rs.map fun r => r.1 + r.2).filter ok).foldl (fun (b : Option Nat) a => match b with
    | some x => some (Nat.min x a)
    | none => some a) none

/-- No matrix resource of a core is in use (12 R256). -/
def State.matrixIdle (s : State) (c : Nat) : Bool :=
  (s.core c).matQ.isEmpty && (s.onCore c).all fun w => !w.2.usesMat

/-- Bytes of a workgroup's save area (18 R414). -/
def WG.saveBytes (g : WG) : Nat :=
  256 + 1024 * g.size + (g.spPages * 4096 + g.spPages * 32) + 16384 * g.grant + 4096 * g.held.length +
  Nat.min (136 * (g.hbarN + g.hbcl)) 139264 + 20480

/-- Bytes the launcher reserves for it at placement: with the 64 operand slots of 18 R419, since how many it will hold is not known
then (DEDUCED, log entry 83). -/
def WG.reserve (g : WG) : Nat := g.saveBytes + 4096 * (64 - g.held.length)

/-- The save pool of a die has room for some workgroups beside those it keeps areas for (18 R414). -/
def State.poolFits (s : State) (gs : List WG) (d : Nat) : Bool :=
  decide ((s.wgs.filter fun w => w.2.die == d && w.2.placed).foldl (fun a w => a + w.2.reserve) 0 +
    gs.foldl (fun a g => a + g.reserve) 0 ≤ (s.die d).savePool)

/-- The state as it would be without some workgroups. -/
def State.without (s : State) (f : Nat × WG → Bool) : State := { s with wgs := s.wgs.filter fun w => !f w }

/-- A core has, for a workgroup, everything it asks for (15 R323), room in the save pool (18 R414) among it. Placement skips a core
whose copy engine is not online, and for a workgroup that uses the matrix engine one whose matrix engine is not (19 R434; DEDUCED: these
are the workgroups of an engine that drains, log entry 86). A core on which a change of the tile shape waits takes none that needs a shape (12
R257). -/
def State.fits (s : State) (g : WG) (c : Nat) : Bool :=
  let rs := s.onCore c
  let sum := fun (f : WG → Nat) => rs.foldl (fun a w => a + f w.2) 0
  s.coreOn c && s.online (.copyEngine c) && (!g.usesMat || s.online (.matrixEngine c)) &&
  (s.poolFits [g] (dieOfCore c)) && decide ((g.size + 3) / 4 ≤ (s.freeGroups c).length) && (s.freeSpad c g.spPages).isSome &&
  decide (sum (·.grant) + g.grant ≤ 32) && decide (sum (fun w => w.hbarN + w.hbcl) + g.hbarN + g.hbcl ≤ 1024) &&
  decide (sum (·.regs) + g.regs ≤ 524288) &&
  (match g.tcfg with
   | some t => ((s.core c).tcfg.toNat == t && noCfg (s.core c).matQ) || s.matrixIdle c
   | none => true) &&
  (match g.wantCourse with
   | some k => courseOfCore c == k || !s.courseOn k
   | none => true) &&
  (match g.wantCore with
   | some k => c == k || !s.coreOn k
   | none => true)

/-- The class a workgroup counts with (16 R365). -/
def State.loadClass (s : State) (g : WG) : Nat :=
  if g.curclass = 3 then
    (((s.die g.die).hist.find? fun h => h.asid == g.asid && h.entry == g.entry).map (·.cls)).getD 1
  else g.curclass

/-- Expected load of a workgroup (16 R365). -/
def State.loadOf (s : State) (g : WG) : Nat := 2 ^ s.loadClass g * g.size

/-- Expected load of a tile. -/
def State.tileLoad (s : State) (c : Nat) : Nat := (s.onCore c).foldl (fun a w => a + s.loadOf w.2) 0

/-- The order of choice: the largest tile load of the course after placement, then the sum, then the index (16 R365). -/
def State.placeCost (s : State) (g : WG) (c : Nat) : Nat × Nat × Nat :=
  let ls := (List.range 4).map fun t =>
    let x := coreOfTile (courseOfCore c) t
    s.tileLoad x + (if x = c then s.loadOf g else 0)
  (ls.foldl Nat.max 0, ls.foldl (· + ·) 0, score c)

/-- Lexicographic order. -/
def lexLt (a b : Nat × Nat × Nat) : Bool :=
  decide (a.1 < b.1) || (a.1 == b.1 && (decide (a.2.1 < b.2.1) || (a.2.1 == b.2.1 && decide (a.2.2 < b.2.2))))

/-- The least of some cores by their cost. -/
def State.best (s : State) (g : WG) (cs : List Nat) : Option Nat :=
  cs.foldl (fun (b : Option Nat) c => match b with
    | some x => if lexLt (s.placeCost g c) (s.placeCost g x) then some c else some x
    | none => some c) none

/-- The core a workgroup is placed on: of its own die, or for a restore of any die of the package, its own first. -/
def State.chooseCore (s : State) (g : WG) (d : Nat) (anyDie : Bool) : Option Nat :=
  match s.best g ((coresOfDie d).filter (s.fits g)) with
  | some c => some c
  | none => if anyDie then s.best g (((s.sDies (pkgOfDie d)).flatMap coresOfDie).filter (s.fits g)) else none

/-- Slot of a lane: the slot group of its four, and the lane of its slice (15 R323, R324). -/
def slotOfLane (gs : List (Nat × Nat)) (c lane : Nat) : Place :=
  let g := gs[lane / 4]?.getD (0, 0)
  .slot c g.1 (4 * g.1 + lane % 4) g.2

/-- Whether a migrant's place was met (15 R335). -/
def placeMet (p : Word) (c : Nat) : Bool :=
  let v := p.toNat
  if v % 8 = 2 then dieId (dieOfCore c) == v / 2 ^ 8 % 16
  else if v % 8 = 3 then dieId (dieOfCore c) == v / 2 ^ 8 % 16 && courseOfCore c % 8 == v / 2 ^ 12 % 8
  else true

/-- A thread arrives at a slot: a migrant's status is written (15 R335). -/
def Thread.arrive (t : Thread) (p : Place) (c : Nat) : Thread :=
  match t.move with
  | some m => { (t.put (.x m.dst) (if placeMet m.place c then 0 else 1)) with
      place := p, move := none, wait := none, entered := true }
  | none => { t with place := p, wait := none, entered := true }

/-- Virtual time at placement or restore (16 R362). -/
def State.startVt (s : State) (c : Nat) : Nat :=
  (((s.onCore c).filter fun w => w.2.sclass == 1 || w.2.sclass == 2).foldl (fun (b : Option Nat) w => match b with
    | some x => some (Nat.min x w.2.vt)
    | none => some w.2.vt) none).getD 0

/-- A workgroup takes its place on a core: scratchpad, tags, tiles and barriers start empty, and its threads take their
slots (15 R323, 06 R126, R128). -/
def State.placeOn (s : State) (w c g : Nat) : State :=
  let x := s.wg w
  let sp := (s.freeSpad c x.spPages).getD 0 * 4096
  let gs := (s.freeGroups c).take ((x.size + 3) / 4)
  let s1 := match x.tcfg with
    | some t => s.updCore c fun k => { k with tcfg := BitVec.ofNat 4 t }
    | none => s
  let s2 := s1.setWg w { x with
    core := c, die := dieOfCore c, group := g, order := s.nextId, spBase := sp, slots := gs, spad := [], tags := [], held := [],
    slotMem := [], tileMem := [], mflags := 0, hbars := [], vt := s.startVt c, st := .run,
    born := (s.timeOf (pkgOfDie (dieOfCore c))).toNat }
  { s2 with
    nextId := s2.nextId + 1
    threads := s2.threads.map fun t =>
      if t.2.wg = w ∧ t.2.ending.isNone then (t.1, t.2.arrive (slotOfLane gs c t.2.lane) c) else t }

/-- Whether a launch may still release workgroups: it has blocks to hand out, or threads that wait in bins. -/
def State.launchOpen (s : State) (h : Word) : Bool :=
  (s.launchAt h).isSome && (!s.handedOut h || s.threads.any fun t => t.2.spawned && t.2.launch == h &&
    match t.2.place with
    | .bin _ _ | .queue _ => (t.2.wg == 0 || (s.wg t.2.wg).st == .flush) && t.2.ending.isNone
    | _ => false)

/-- The workgroups that wait with this one for a course: those of its four, in WG_ID order, once all have been released; the last
four of a launch may have fewer (15 R323). Members of a course group that were flushed wait for one another, and for the course on which the
other members stand. -/
def State.courseMates (s : State) (g : WG) : Option (List Nat) :=
  match g.level with
  | none => some (s.wgs.filter (fun w => w.2 == g)).unzip.1
  | some lv =>
    if g.group != 0 then
      let ms := ((tget s.groups g.group).map (·.members)).getD []
      if ms.any fun m => (s.wg m).st == .flush then none else some (ms.filter fun m => (s.wg m).st == .released)
    else
      let base := g.wgId / 4 * 4
      let ms := s.wgs.filter fun w => w.2.level == some lv && w.2.st == .released && w.2.group == 0 && w.2.wgId / 4 * 4 == base
      let h := levelHandle lv.1 lv.2 0 (s.levelGen lv.1 lv.2)
      if ms.length = 4 || !s.launchOpen h then some ms.unzip.1 else none

/-- The course on which other members of a course group stand. -/
def State.groupCourse (s : State) (g : WG) (w : Nat) : Option Nat :=
  match tget s.groups g.group with
  | some r => (r.members.find? fun m => m != w && (s.wg m).resident).map fun m => courseOfCore (s.wg m).core
  | none => none

/-- A course that can take the members of a course group, each on its tile. -/
def State.fitsCourse (s : State) (ms : List Nat) (k : Nat) : Bool :=
  s.poolFits (ms.map s.wg) (dieOfCourse k) &&
  (ms.all fun m => s.fits (s.wg m) (coreOfTile k ((s.wg m).wgId % 4))) &&
  ms.all fun m => match s.groupCourse (s.wg m) m with
    | some c => c == k
    | none => true

/-- The order of choice among courses for a course group: as for one workgroup, by the loads after placement (15 R323, 16 R365). -/
def State.courseCost (s : State) (ms : List Nat) (k : Nat) : Nat × Nat × Nat :=
  let ls := (List.range 4).map fun t =>
    ms.foldl (fun a m => if (s.wg m).wgId % 4 = t then a + s.loadOf (s.wg m) else a) (s.tileLoad (coreOfTile k t))
  (ls.foldl Nat.max 0, ls.foldl (· + ·) 0, k)

/-- The course of a die that a course group goes to. -/
def State.chooseCourse (s : State) (ms : List Nat) (d : Nat) : Option Nat :=
  (((List.range 8).map (d * 8 + ·)).filter (s.fitsCourse ms)).foldl (fun (b : Option Nat) k => match b with
    | some x => if lexLt (s.courseCost ms k) (s.courseCost ms x) then some k else some x
    | none => some k) none

/-- Rank of a workgroup that waits: DEADLINE by key, then INTERACTIVE, BULK and GROUT in release order (16 R366). -/
def WG.waitRank (g : WG) : Nat × Nat × Nat := (g.sclass.toNat, if g.sclass = 0 then g.deadline else 0, g.order)

/-- A workgroup can be placed now. -/
def State.placeable (s : State) (w : Nat) : Bool :=
  let g := s.wg w
  g.st == .released &&
  (if g.course then
    match s.courseMates g with
    | some ms => (s.chooseCourse ms g.die).isSome
    | none => false
   else (s.chooseCore g g.die false).isSome)

/-- No workgroup of the same die that ranks earlier could be placed: one that fits nowhere does not hold up those after it (the rule gives the
order alone: DESIGN CHOICE, log entry 107) (16 R366). -/
def State.placeTurn (s : State) (w : Nat) : Bool :=
  s.wgs.all fun x => x.1 == w || x.2.die != (s.wg w).die || !lexLt x.2.waitRank (s.wg w).waitRank || !s.placeable x.1

/-- A course group is placed on a course, each member on its tile. -/
def State.placeGroup (s : State) (ms : List Nat) (k : Nat) : State :=
  match ms with
  | [] => s
  | m0 :: _ =>
    let old := (s.wg m0).group
    let id := if old = 0 then s.nextId else old
    let r := (tget s.groups id).getD ⟨[], [], []⟩
    let tiles := ms.map fun m => (s.wg m).wgId % 4
    let r1 : Group := { r with members := r.members.filter (fun m => !ms.contains m) ++ ms, gone := r.gone.filter fun x => !tiles.contains x.1 }
    let s1 : State := { s with nextId := s.nextId + 1, groups := tset s.groups id r1 }
    ms.foldl (fun s m => s.placeOn m (coreOfTile k ((s.wg m).wgId % 4)) id) s1

/-- The launcher places a workgroup, or a course group; the history it consulted has been used (16 R365). -/
def State.place (s : State) (w : Nat) : State :=
  let g := s.wg w
  let used := fun (s : State) => if g.curclass = 3 then s.updDie g.die fun d => { d with hist := histUse d.hist g.asid g.entry } else s
  if g.course then
    match s.courseMates g with
    | none => s
    | some ms =>
      match s.chooseCourse ms g.die with
      | none => s
      | some k => used (s.placeGroup ms k)
  else
    match s.chooseCore g g.die false with
    | some c => used (s.placeOn w c 0)
    | none => s

/-! ### Blocks of a launch (15 R327) -/

/-- A thread of a launch, as R166 and R320 leave it. -/
def Launch.thread (l : Launch) (h : Word) (asid : BitVec 16) (i tok : Nat) : Thread :=
  let r := l.record
  let regs := (List.range 6).foldl (fun (x : Vector Word 32) k => x.setIfInBounds (11 + k) (r.args[k]?.getD 0))
    ((Vector.replicate 32 0).set 10 (BitVec.ofNat 64 i))
  { Thread.init with
    pc := r.entry, x := regs, sclass := BitVec.ofNat 2 r.sclass, asid := asid, ptBase := l.ptBase,
    tid := l.tidBase + BitVec.ofNat 64 i, launch := h, link := h, spawned := true, index := i,
    boostTok := mkTok tok 0 }

/-- An index of a launch that a thread runs, or that waits to run. -/
def State.runsIndex (s : State) (h : Word) (i : Nat) : Bool :=
  s.threads.any (fun t => t.2.spawned && t.2.launch == h && t.2.index == i) ||
  s.away.any fun a => a.2.spawned && a.2.link == h && a.2.index == i

/-- The tokens of a launch's thread: those kept for an index that starts again, which are taken from the launch, else what its process's
bucket gives (19 R424, R425). -/
def State.tokensFor (s : State) (h : Word) (lv : Level) (l : Launch) (d i : Nat) : State × Nat :=
  match tget l.kept i with
  | some n => (s.setLevel h { lv with launch := some { l with kept := tdel l.kept i } }, n)
  | none => s.bucketTake d lv.asid

/-- Threads of a block enter a die's bins. Of a block that is handed out again, an index whose thread lives on elsewhere does not
start a second time (DEDUCED, log entry 85). -/
def State.spawnBlock (s : State) (h : Word) (d first : Nat) : Nat → State
  | 0 => s
  | n + 1 =>
    match s.levelOf h with
    | none => s
    | some lv =>
      match lv.launch with
      | none => s
      | some l =>
        if s.runsIndex h first then State.spawnBlock s h d (first + 1) n
        else
          let b := s.tokensFor h lv l d first
          let k := b.1.nextId
          let s1 := { b.1 with nextId := k + 1, threads := tset b.1.threads k (l.thread h lv.asid first b.2) }
          State.spawnBlock (s1.enterBin d k) h d (first + 1) n

/-- Dies that take part in a launch. -/
def State.participants (s : State) (h : Word) (l : Launch) : List Nat :=
  if l.record.span then s.sDies (pkgOfDie (handleDie h)) else [handleDie h].filter s.dieOn

/-- A block with threads that have not finished. -/
def State.blockLive (s : State) (h : Word) (b : Block) : Bool :=
  let mine := fun (i : Nat) => decide (b.first ≤ i ∧ i < b.first + b.n)
  s.threads.any (fun t => t.2.spawned && t.2.launch == h && mine t.2.index) ||
  s.away.any fun a => a.2.spawned && a.2.link == h && mine a.2.index

/-- A block waiting in a die's bins: none of its threads has a place. -/
def State.blockWaits (s : State) (h : Word) (b : Block) : Bool :=
  s.threads.any fun t => t.2.spawned && t.2.launch == h && decide (b.first ≤ t.2.index ∧ t.2.index < b.first + b.n) &&
    match t.2.place with
    | .bin _ _ | .queue _ => true
    | _ => false

/-- The next online participant after a die, for the second checkpoint copy. -/
def nextDie (ds : List Nat) (d : Nat) : Nat := ((ds.find? (d < ·)).getD (ds.headD d))

/-- The next block goes on with a course group, whose workgroups one die takes (15 R323). -/
def Launch.midGroup (l : Launch) : Bool := l.record.coursegrp && l.next / l.record.wgsize % 4 != 0

/-- The next block: one of a failed die first, else the next indices (15 R327). -/
def Launch.nextBlock (l : Launch) : Option (Nat × Nat) :=
  match l.redo with
  | b :: _ => some (b.first, b.n)
  | [] => if l.next < l.record.count then some (l.next, Nat.min l.record.wgsize (l.record.count - l.next)) else none

/-- A launch after its next block has gone out. -/
def Launch.afterBlock (l : Launch) : Launch :=
  match l.redo with
  | _ :: t => { l with redo := t }
  | [] => { l with next := l.next + Nat.min l.record.wgsize (l.record.count - l.next) }

/-- A die could place a further workgroup of a launch: none of the launch waits there for a place, and some core fits (15 R327). -/
def State.canPlaceMore (s : State) (h : Word) (d : Nat) (l : Launch) (n : Nat) : Bool :=
  !(s.wgs.any fun w => w.2.die == d && w.2.st == .released && w.2.level == some (handleDie h, handleIdx h)) &&
  (coresOfDie d).any (s.fits (l.record.shape { WG.init with die := d, size := n } n))

/-- A die has room for the threads of a block: a bin, or its arrival queue of 4,096 (15 R321). -/
def State.blockRoom (s : State) (h : Word) (d n : Nat) (l : Launch) (asid : BitVec 16) : Bool :=
  s.binRoom d (l.thread h asid 0 0) || decide ((s.die d).arrivals.length + n ≤ 4096)

/-- A die may ask for a block of a launch now: it takes part, can place a further workgroup or has fewer than two blocks waiting or
a course group to complete, and has room; blocks of one course group go to one die. -/
def State.canAsk (s : State) (h : Word) (d : Nat) : Bool :=
  match s.levelOf h with
  | none => false
  | some lv =>
    match lv.launch with
    | none => false
    | some l =>
      let mine := (l.blocks.filter fun b => b.die == d && s.blockLive h b)
      lv.st == .sealed && (s.participants h l).contains d && s.dieUp l.keystone && decide (mine.length < 256) &&
      (match l.nextBlock with
       | none => false
       | some b => s.blockRoom h d b.2 l lv.asid &&
        (if l.midGroup && l.redo.isEmpty then (l.blocks.getLast?.map (·.die)) == some d
         else decide ((mine.filter (s.blockWaits h)).length < 2) || s.canPlaceMore h d l b.2))

/-- The keystone records a block in both checkpoint copies and hands it out (15 R327). -/
def State.handBlock (s : State) (h : Word) (d : Nat) : State :=
  match s.levelOf h with
  | none => s
  | some lv =>
    match lv.launch with
    | none => s
    | some l =>
      match l.nextBlock with
      | none => s
      | some b =>
        let l1 := { l.afterBlock with
          blocks := (l.blocks.filter (s.blockLive h)) ++ [⟨d, b.1, b.2⟩]
          copyA := l.keystone, copyB := nextDie (s.participants h l) l.keystone }
        let s1 := (s.setLevel h { lv with launch := some l1 }).spawnBlock h d b.1 b.2
        (s1.releaseFull d true).endRelease h

/-! ### Invoked threads (17 R379) -/

/-- The thread of an invocation. -/
def Mark.thread (e : Mark) (v : Inv) (m tid : Word) (tok : Nat) : Thread :=
  let regs := (List.range 6).foldl (fun (x : Vector Word 32) k => x.setIfInBounds (10 + k) (v.args[k]?.getD 0))
    (Vector.replicate 32 0)
  { Thread.init with
    pc := v.entry, x := match v.word0 with
      | some w => regs.set 10 w
      | none => regs
    sclass := BitVec.ofNat 2 v.sclass, asid := v.asid, ptBase := v.ptBase, tid := tid, link := e.link,
    mark := some m.toNat, boostTok := mkTok tok 0 }

/-- The invocation of an entry becomes a thread at a die: it takes its identifier; none when the window is empty. -/
def State.invokeEntry (s : State) (d : Nat) (m : Word) (e : Mark) : Option (State × Nat) :=
  match e.inv with
  | none => none
  | some v =>
    match s.takeIds d v.asid 1 with
    | (_, none) => none
    | (s1, some tid) =>
      let b := match v.tok with
        | some n => (s1, n)
        | none => s1.bucketTake d v.asid
      let k := b.1.nextId
      some ({ b.1 with nextId := k + 1, threads := tset b.1.threads k (e.thread v m tid b.2) }, k)

/-- The invocation of a mark becomes a thread at a die. -/
def State.invokeAt (s : State) (d : Nat) (m : Word) : Option (State × Nat) :=
  match s.markAt m with
  | none => none
  | some e => (s.invokeEntry d m e).map fun r => (r.1.setMark m { e with site := d }, r.2)

/-- An invocation whose mark was lost becomes a thread at a die, with no mark to resolve any more (17 R385). -/
def State.invokeOrphan (s : State) (d : Nat) (m : Word) (e : Mark) : Option (State × Nat) :=
  (s.invokeEntry d m e).map fun r => (r.1.updThr r.2 fun t => { t with resolved := true }, r.2)

/-- The invocation of a mark has started (17 R382). -/
def State.markStarted (s : State) (m : Word) : State :=
  match s.markAt m with
  | some e => s.setMark m { e with inv := e.inv.map fun v => { v with started := true } }
  | none => s

/-! ### Arrivals -/

/-- The die a message goes to. -/
def Msg.die : Msg → Nat
  | .thread d _ => d
  | .invoke d _ => d
  | .enqueue _ up => markDie up
  | .resolve m _ _ => markDie m
  | .broke m _ _ => markDie m
  | .cancel m _ => markDie m
  | .orphan d _ _ => d

/-- A message leaves the list. -/
def State.takeMsg (s : State) (i : Nat) : State := { s with msgs := s.msgs.eraseIdx i }

/-- A message whose S-die has gone offline goes to another of the package (15 R335, 17 R377). -/
def State.reroute (s : State) (d : Nat) : Nat :=
  if s.dieOn d then d else (s.pickS (pkgOfDie d) d 0 0 0).getD d

/-- PLACE of the mark a thread is to resolve follows it (17 R384). -/
def State.placeMark (s : State) (t : Thread) (d : Nat) : State :=
  match t.mark with
  | some m => if t.resolved then s else (match s.markAt (BitVec.ofNat 64 m) with
    | some e => if e.final then s else s.setMark (BitVec.ofNat 64 m) { e with site := d }
    | none => s)
  | none => s

/-- A thread arrives at an S-die and enters a bin; one that a cancel has reached ends there (15 R336, R331). -/
def State.arriveThread (s : State) (i d k : Nat) : State :=
  let s1 := (s.takeMsg i).placeMark (s.thr k) d
  if (s.thr k).cancelled then
    (s1.updThr k fun t => { t with place := .queue d }).closeThread k .cancelled
  else (s1.enterBin d k).releaseFull d true

/-- The invocation of a mark runs, or waits to run, as a thread. -/
def State.markRuns (s : State) (m : Word) : Bool :=
  s.threads.any (fun t => t.2.mark == some m.toNat) || s.away.any fun a => a.2.mark == some m.toNat

/-- Invocations that the issuer of an entry addressed to the same mark before it, and that have not started, by their marks (17 R382). -/
def State.olderThan (s : State) (e : Mark) : List Word :=
  match e.inv with
  | none => []
  | some v =>
    if v.started || !isMark v.place then []
    else s.dies.flatMap fun d => (d.2.marks.filter fun x => x.2.holder == e.holder && !x.2.final && match x.2.inv with
      | some w => w.place == v.place && decide (w.seq < v.seq) && !w.started
      | none => false).map fun x => markWord d.1 x.1 (s.markGen d.1 x.1)

/-- An older invocation of the same issuer to the same mark has not arrived: it arrives first (17 R382). -/
def State.olderInvoke (s : State) (e : Mark) : Bool := (s.olderThan e).any fun m => !s.markRuns m

/-- An arrival at an S-die: a thread, or an invocation for which the die has an identifier. A mark that is final has no
invocation any more, and one that a cancel is to reach is discarded; an orphan's thread has none. -/
def State.arrival (s : State) (i : Nat) : Option State :=
  match s.msgs[i]? with
  | some (.thread d0 k) =>
    let d := s.reroute d0
    if isSDie d && s.dieOn d && decide ((s.die d).arrivals.length < 4096) then some (s.arriveThread i d k) else none
  | some (.invoke d0 m) =>
    let d := s.reroute d0
    if !isSDie d0 then none
    else match s.markAt m with
      | none => some (s.takeMsg i)
      | some e =>
        if e.discards then some (s.takeMsg i)
        else if s.cancelComes m then some ((s.takeMsg i).breakMark m cCancelled m)
        else if s.olderInvoke e then none
        else if !s.dieOn d || decide (4096 ≤ (s.die d).arrivals.length) then none
        else match s.invokeAt d m with
          | none => none
          | some (s1, k) => some (s1.arriveThread i d k)
  | some (.orphan d0 m e) =>
    let d := s.reroute d0
    if !isSDie d0 || !s.dieOn d || decide (4096 ≤ (s.die d).arrivals.length) then none
    else (s.invokeOrphan d m e).map fun r => r.1.arriveThread i d r.2
  | _ => none

end Sys2Proof.Machine
end

