-- ==== Sys2Proof/Machine/Preempt.lean ====
section
/-!
DEFINITION. Pre-emption of workgroups (18 R411 to R416): the choice of a method, stopping, saving, flushing and restoring,
the request block (R412), and the launcher's own requests (16 R366).
-/

namespace Sys2Proof.Machine

/-! ### Methods and costs (18 R411, R414) -/

/-- The time to the yield points, in ns: the copy bound of 18 R419 (log entry 14). -/
def yieldNs : Nat := 2200
/-- Latency of a save in ns: 320 GB/s is 320 bytes a nanosecond. -/
def WG.saveNs (g : WG) : Nat := yieldNs + g.saveBytes / 320 + 160
/-- Latency of a flush in ns. -/
def flushNs : Nat := yieldNs + 160

/-- Age of a workgroup in ns. -/
def State.ageOf (s : State) (g : WG) : Nat := (s.timeOf (pkgOfDie g.die)).toNat - g.born

/-- E: the mean lifetime in the die's history less the age; none without an entry. -/
def State.leftOf (s : State) (g : WG) : Option Nat :=
  ((s.die g.die).hist.find? fun h => h.asid == g.asid && h.entry == g.entry && h.runs != 0).map fun h =>
    h.life / h.runs - s.ageOf g

/-- No bound (18 R412). -/
def noBound : Nat := 0xFFFFFFFF

/-- Eligible methods with latency and cost, in the order that settles ties: save, drain, flush. -/
def State.methods (s : State) (g : WG) (bound : Nat) : List (Method × Nat × Nat) :=
  (.save, g.saveNs, 2 * g.saveNs) ::
  ((match s.leftOf g with
    | some e => if e + g.saveNs ≤ bound ∨ bound = noBound then [(Method.drain, e, e)] else []
    | none => []) ++
   (if g.restartable then [(Method.flush, flushNs, flushNs + s.ageOf g)] else []))

/-- The least of a list by a measure, the first of equals. -/
def leastBy {α : Type} (f : α → Nat) : List α → Option α
  | [] => none
  | a :: t => match leastBy f t with
    | some b => if f a ≤ f b then some a else some b
    | none => some a

/-- The method and its cost: the cheapest that meets the bound, else the quickest. -/
def State.chooseMethod (s : State) (g : WG) (bound : Nat) : Method × Nat :=
  let ms := s.methods g bound
  match leastBy (·.2.2) (ms.filter fun m => m.2.1 ≤ bound ∨ bound = noBound) with
  | some m => (m.1, m.2.2)
  | none => match leastBy (·.2.1) ms with
    | some m => (m.1, m.2.2)
    | none => (.save, 0)

/-- A pre-emption request is a wake event of `wmon` and of an S-core's `wfi`, also where the workgroup only drains (09 R207, 18 R409). -/
def Thread.requested (t : Thread) : Thread :=
  match t.wait with
  | some (.wmon _ _ _) | some .wfi => { t with rel := t.rel.or (some 1) }
  | _ => t

/-- A request reaches the threads of a workgroup. -/
def State.wakeRequest (s : State) (w : Nat) : State :=
  { s with threads := s.threads.map fun t => (t.1, if t.2.wg = w then t.2.requested else t.2) }

/-- A pre-emption request for a resident workgroup (18 R411, R416). -/
def State.preempt (s : State) (w bound : Nat) (prq : Bool) : State :=
  let g := s.wg w
  if g.st != .run then s
  else
    let m := (s.chooseMethod g bound).1
    (s.wakeRequest w).setWg w { g with
      st := if m == .drain then .drain else .stop, method := m, bound := bound, fromPrq := prq
      asked := (s.timeOf (pkgOfDie g.die)).toNat }

/-- A request of the request block for a resident workgroup (18 R411, R412). One that is on its way out already goes on, with the
earlier bound, and one that is being restored is pre-empted once it runs (DEDUCED, log entry 88). -/
def State.request (s : State) (w bound : Nat) : State :=
  let g := s.wg w
  if g.st == .run then s.preempt w bound true
  else
    let now := (s.timeOf (pkgOfDie g.die)).toNat
    let left := if g.st == .restore || g.bound == noBound then noBound else g.bound - (now - g.asked)
    (s.wakeRequest w).setWg w { g with bound := Nat.min left bound, fromPrq := true, asked := now }

/-- Nanoseconds until a drain's deadline, B − Ls after the request; none without a bound (18 R411, R412). -/
def State.drainLeft (s : State) (w : Nat) : Option Nat :=
  let g := s.wg w
  if g.st != .drain || g.bound == noBound then none
  else some (g.bound - g.saveNs - ((s.timeOf (pkgOfDie g.die)).toNat - g.asked))

/-- A drain that has not ended at its deadline is saved instead (18 R411). -/
def State.drainOver (s : State) (w : Nat) : State :=
  if s.drainLeft w == some 0 then s.updWg w fun g => { g with st := .stop, method := .save } else s

/-! ### Stopping (18 R413) -/

/-- The waits that a stop ends at once, with the restart bit set (18 R413). -/
def Wait.restarts : Wait → Bool
  | .wmon _ _ _ | .lane | .claim _ _ _ | .level _ _ _ | .hbar _ _ | .mark _ _ _ => true
  | _ => false

/-- A `cancel` whose effect the thread has had, and whose end it waits for. -/
def Thread.cancelling (t : Thread) : Bool :=
  match t.wait with
  | some (.cancel _ _ _) => true
  | _ => false

/-- A wait at a barrier object is over: what released the thread is its status (06 R138). -/
def Thread.served (t : Thread) : Bool :=
  t.rel.isSome && match t.wait with
    | some (.bar _ _) | some (.barOut _ _) => true
    | _ => false

/-- A thread stops at an instruction boundary: its pending writes take effect, and a wait ends so that the instruction
executes again; `wfi` is over (18 R409). A thread that is ending stays as it is, one that waits in `cancel` goes on waiting, and one whose
wait at a barrier object is over keeps its status (06 R138). -/
def Thread.stop (t : Thread) : Thread :=
  if t.ending.isSome then t
  else if t.cancelling || t.served then { t.flushAll with back := [] }
  else if t.wait == some .wfi then { (t.complete 4).flushAll with back := [] }
  else { t.flushAll with
    wait := none, rel := none, laneWait := none, move := none, arrival := t.arrivalCut, back := []
    restart := if (t.wait.map Wait.restarts).getD false then some t.pc else t.restart }

/-- Every result a thread is to get has come (02 R42). -/
def Thread.settled (t : Thread) : Bool := t.ending.isSome || t.pend.all (·.val.isSome)

/-- A thread can stop: every result it is to get has come, and no `cancel` of its own is in progress, which is not among the waits of 18
R413; one that is itself cancelled stops there (15 R331). -/
def State.threadStops (s : State) (t : Thread) : Bool :=
  t.ending.isSome || (t.settled && match t.wait with
    | some (.cancel d i gen) => t.cancelled || s.cancelDone d i gen
    | _ => true)

/-- A workgroup can stop: its threads can, and none of its commands is a change of the tile shape or waits behind one, whoever issued it,
since it is performed under the shape it was accepted for (12 R257). -/
def State.canStop (s : State) (w : Nat) : Bool :=
  (s.threads.all fun t => t.2.wg != w || s.threadStops t.2) && clearOfCfg w (s.core (s.wg w).core).matQ

/-- Commands of a workgroup leave the engines at their yield points, with what remains of them. -/
def State.parkCommands (s : State) (w : Nat) : State :=
  let c := (s.wg w).core
  let k := s.core c
  let s1 := s.updWg w fun g => { g with copies := k.copyQ.filter (·.wg == w), mats := k.matQ.filter (·.wg == w) }
  s1.updCore c fun k => { k with
    copyQ := k.copyQ.filter (·.wg != w), matQ := k.matQ.filter (·.wg != w), claims := k.claims.filter (·.wg != w)
    filled := k.filled && k.matQ.any (·.wg != w) }

/-- A request of the request block is met (18 R412). -/
def State.requestMet (s : State) (w : Nat) : State :=
  let g := s.wg w
  let n := (s.timeOf (pkgOfDie g.die)).toNat - g.asked
  let s1 := s.measure g.die 5 (coreId g.core) (n : Nat)
  if g.fromPrq then
    (s1.updDie g.die fun d => { d with prq := { d.prq with state := 2, latency := n } }).updWg w fun g => { g with fromPrq := false }
  else s1

/-- A flushed thread is as its creation left it, with its tokens (18 R416, 19 R425). -/
def State.restartThread (s : State) (t : Thread) : Thread :=
  let keep := fun (n : Thread) => { n with
    boostTok := settleTok t.boostTok, ops := t.ops.filter (·.cls == .walker), remote := t.remote, kobj := t.kobj
    signalled := t.signalled, cancelled := t.cancelled, stops := t.stops }
  if t.spawned then
    match s.launchAt t.launch with
    | some l => keep { l.thread t.launch t.asid t.index 0 with tid := t.tid }
    | none => t
  else match t.mark with
    | some m =>
      (match s.markAt (BitVec.ofNat 64 m) with
       | some e => (match e.inv with
         | some v => keep (e.thread v (BitVec.ofNat 64 m) t.tid 0)
         | none => t)
       | none => t)
    | none => t

/-- Threads of a workgroup whose arrivals at a cl barrier are undone by a flush. -/
def HBar.withdraw (b : HBar) (ks : List Nat) : HBar :=
  { b with pend := b.pend + (b.arrived.filter ks.contains).length, arrived := b.arrived.filter fun k => !ks.contains k }

/-- A course group with a member that is flushed: its place is named until it has another, and its threads' arrivals are undone. A
copy that is to land there meanwhile finds the receiver gone (DESIGN CHOICE, log entry 87). -/
def Group.flushed (r : Group) (g : WG) (ks : List Nat) : Group :=
  { r with gone := tset r.gone (g.wgId % 4) (g.core, g.spBase), hbars := r.hbars.map fun b => (b.1, b.2.withdraw ks) }

/-- A workgroup that holds nothing any more, and waits for its threads to leave their bin again (18 R416). -/
def WG.flushed (g : WG) : WG :=
  { g with st := .flush, slots := [], spad := [], tags := [], held := [], slotMem := [], tileMem := [], mflags := 0, hbars := [], copies := [],
           mats := [], fromPrq := false }

/-- A flushed thread goes back to a bin from its entry. -/
def State.restartIn (s : State) (d k : Nat) : State :=
  let t := s.thr k
  (s.setThr k { s.restartThread t with wg := t.wg, lane := t.lane }).enterBin d k

/-- A flush: the resources are released, and the threads are back in their bin from ENTRY in the order of their lanes, to leave it as its
threshold and its timer say (18 R416). A thread that a cancel has reached ends (15 R331). -/
def State.flushWg (s : State) (w : Nat) : State :=
  let g := s.wg w
  let live := s.threads.filter fun t => t.2.wg == w && t.2.ending.isNone
  let ks := ((List.range 1024).filterMap fun i => live.find? fun t => t.2.lane == i && !t.2.cancelled).map (·.1)
  let out := fun (t : Thread) => { t with place := .queue g.die, ops := t.ops.filter (·.cls == .walker) }
  let s0 := s.requestMet w
  let s1 : State := { s0 with
    threads := s0.threads.map fun t => if t.2.wg == w && (t.2.ending.isSome || t.2.cancelled) then (t.1, out t.2) else t }
  let s2 := ((live.filter (·.2.cancelled)).map (·.1)).foldl (fun s k => s.closeThread k .cancelled) s1
  let s3 : State := { s2.updWg w WG.flushed with
    groups := s2.groups.map fun r => if r.1 = g.group then (r.1, r.2.flushed g ks) else r }
  (ks.foldl (fun s k => s.restartIn g.die k) s3).releaseFull g.die true

/-- Bounds of a die's workgroups that wait for their save to start (18 R414). -/
def State.saveQueue (s : State) (d : Nat) : List (Nat × Nat) :=
  (s.wgs.filter fun w => w.2.die == d && w.2.st == .stop && w.2.method != .flush && s.canStop w.1).map fun w => (w.1, w.2.bound)

/-- Saves and restores a die performs. -/
def State.saving (s : State) (d : Nat) : Nat :=
  (s.wgs.filter fun w => w.2.die == d && (w.2.st == .save || w.2.st == .restore)).length


/-! ### Restoring (18 R416, 19 R430) -/

/-- Operand slots held by the workgroups of a core. -/
def State.slotsHeld (s : State) (c : Nat) : Nat := (s.onCore c).foldl (fun a w => a + w.2.held.length) 0

/-- A core can take one of some saved workgroups: as for a placement, their own save areas apart, and its operand slots. -/
def State.fitsSaved (s : State) (ms : List Nat) (g : WG) (c : Nat) : Bool :=
  (s.without fun x => ms.contains x.1).fits { g with wantCourse := none, wantCore := none } c &&
  decide (s.slotsHeld c + g.held.length ≤ 256)

/-- A course for the saved members of a course group, all together. -/
def State.groupPlace (s : State) (ms : List Nat) (d : Nat) : Option Nat :=
  let ds := d :: (s.sDies (pkgOfDie d)).filter (· != d)
  (ds.flatMap fun e => (List.range 8).map (e * 8 + ·)).find? fun k =>
    (s.without fun x => ms.contains x.1).poolFits (ms.map s.wg) (dieOfCourse k) &&
    ms.all fun m => s.fitsSaved ms (s.wg m) (coreOfTile k ((s.wg m).wgId % 4))

/-- Where the restore of a workgroup would put it, and the members restored with it (18 R416). -/
def State.restorePlan (s : State) (w : Nat) : Option (List (Nat × Nat)) :=
  let g := s.wg w
  if g.st != .saved then none
  else if g.group = 0 then
    let cs := (coresOfDie g.die).filter (s.fitsSaved [w] g)
    (match s.best g cs with
     | some c => some [(w, c)]
     | none => (s.best g (((s.sDies (pkgOfDie g.die)).flatMap coresOfDie).filter (s.fitsSaved [w] g))).map fun c => [(w, c)])
  else match s.groupCourse g w with
    | some k =>
      let c := coreOfTile k (g.wgId % 4)
      if s.fitsSaved [w] g c then some [(w, c)] else none
    | none =>
      let ms := (((tget s.groups g.group).map (·.members)).getD []).filter fun m => (s.wg m).st == .saved
      (s.groupPlace ms g.die).map fun k => ms.map fun m => (m, coreOfTile k ((s.wg m).wgId % 4))

/-- The die that performs a restore: that of the core it is to. -/
def planDie (l : List (Nat × Nat)) : Nat := dieOfCore ((l.head?.map (·.2)).getD 0)

/-- What waits to be saved or restored by a die, with bounds: a restore has the bound of the request that its save was for (18 R414; DEDUCED,
log entry 108). -/
def State.ioQueue (s : State) (d : Nat) : List (Nat × Nat) :=
  s.saveQueue d ++ (s.wgs.filter fun w => ((s.restorePlan w.1).map planDie) == some d).map fun w => (w.1, w.2.bound)

/-- A die has room for some more saves or restores, and none with an earlier bound waits (18 R414). -/
def State.ioTurn (s : State) (d : Nat) (ws : List Nat) (bound : Nat) : Bool :=
  decide (s.saving d + ws.length ≤ 16) && (s.ioQueue d).all fun x => ws.contains x.1 || decide (bound ≤ x.2)

/-- A save of a workgroup can start. -/
def State.saveTurn (s : State) (w : Nat) : Bool := s.ioTurn (s.wg w).die [w] (s.wg w).bound

/-- A restore can start. -/
def State.restoreTurn (s : State) (w : Nat) (l : List (Nat × Nat)) : Bool := s.ioTurn (planDie l) (l.map (·.1)) (s.wg w).bound

/-- A saved workgroup takes a core; its threads run once the restore is complete. -/
def State.restoreOn (s : State) (w c : Nat) : State :=
  let x := s.wg w
  let sp := (s.freeSpad c x.spPages).getD 0 * 4096
  let gs := (s.freeGroups c).take ((x.size + 3) / 4)
  let s1 := match x.tcfg with
    | some t => s.updCore c fun k => { k with tcfg := BitVec.ofNat 4 t }
    | none => s
  { s1.setWg w { x with
      core := c, die := dieOfCore c, order := s.nextId, spBase := sp, slots := gs, vt := s.startVt c, st := .restore } with
    nextId := s.nextId + 1 }

/-- A restore starts, where the saves and restores of the die that performs it leave room for it (18 R414). -/
def State.startRestore (s : State) (w : Nat) : State :=
  match s.restorePlan w with
  | some l => if s.restoreTurn w l then l.foldl (fun s x => s.restoreOn x.1 x.2) s else s
  | none => s

/-! ### Saving (18 R413, R416) -/

/-- A workgroup stops, its commands with what remains of them, and its save starts or its flush is made (18 R413, R416). -/
def State.halt (s : State) (w : Nat) : State :=
  let ks := (s.threads.filter fun t => t.2.wg == w).map (·.1)
  let s0 := ks.foldl State.unmeet ((s.performFor ks).parkCommands w)
  let s1 : State := { s0 with threads := s0.threads.map fun t => if t.2.wg = w then (t.1, t.2.stop) else t }
  if (s.wg w).method == .flush then s1.flushWg w
  else s1.updWg w fun g => { g with st := .save }

/-- Every thread and command of a workgroup has reached its yield point, and its save may start. -/
def State.stopped (s : State) (w : Nat) : State :=
  let g := s.wg w
  if g.st == .stop && s.canStop w && (g.method == .flush || s.saveTurn w) then s.halt w else s

/-- A workgroup in its save area: its resources are free, and leases have returned to the tokens (18 R416, 19 R425). A thread that a
cancel has reached is discarded (15 R331, step 2). -/
def State.bank (s : State) (w : Nat) : State :=
  let g := s.wg w
  let need := if g.usesMat then some (s.core g.core).tcfg.toNat else g.tcfg
  let s1 := s.updWg w fun g => { g with st := .saved, slots := [], tcfg := need }
  let s2 : State := { s1 with threads := s1.threads.map fun t =>
      if t.2.wg = w ∧ t.2.ending.isNone then
        (t.1, { t.2 with place := if t.2.cancelled then .queue g.die else .saved, boostTok := settleTok t.2.boostTok })
      else if t.2.wg = w then (t.1, { t.2 with place := .queue g.die })
      else t }
  ((s2.threads.filter fun t => t.2.wg == w && t.2.cancelled && t.2.ending.isNone).map (·.1)).foldl
    (fun s k => s.closeThread k .cancelled) s2

/-- The header is committed: the workgroup is SAVED (18 R416). -/
def State.commitSave (s : State) (w : Nat) : State := if (s.wg w).st == .save then (s.requestMet w).bank w else s

/-- No unit that holds a workgroup on its core is draining or out of service (19 R434). -/
def State.unitsStay (s : State) (g : WG) : Bool :=
  let c := g.core
  [UnitId.core c, .course (courseOfCore c), .quadrant (dieOfCore c) (quadOfCourse (courseOfCore c)), .die (dieOfCore c),
   .copyEngine c].all s.online && (!g.usesMat || s.online (.matrixEngine c))

/-- A restore is complete: threads take their slots, and the recorded commands go on (18 R416); a request that came meanwhile
pre-empts the workgroup, and so does a unit under it that drains since (19 R434). -/
def State.completeRestore (s : State) (w : Nat) : State :=
  let g := s.wg w
  if g.st != .restore then s
  else
    let s1 := s.updCore g.core fun k => { k with copyQ := k.copyQ ++ g.copies, matQ := k.matQ ++ g.mats }
    let s2 := s1.setWg w { g with st := .run, copies := [], mats := [] }
    let s3 : State := { s2 with threads := s2.threads.map fun t =>
        if t.2.wg = w ∧ t.2.ending.isNone then (t.1, { t.2 with place := slotOfLane g.slots g.core t.2.lane }) else t }
    if g.fromPrq then (s3.preempt w g.bound true).updWg w fun x => { x with asked := g.asked }
    else if s3.unitsStay g then s3
    else s3.preempt w noBound false

/-! ### The request block (18 R412) -/

/-- The workgroup a request names: by handle and WG_ID, or by the core, slice and slot of its first slot group. -/
def State.prqTarget (s : State) (d : Nat) : Option Nat :=
  let p := (s.die d).prq
  if p.launch != 0 then
    if (s.levelOf p.launch).isNone then none
    else (s.wgs.find? fun w => w.2.die == d && w.2.level == some (handleDie p.launch, handleIdx p.launch) &&
      w.2.wgId == p.wg.toNat % 2 ^ 32 && w.2.resident).map (·.1)
  else
    let v := p.loc.toNat
    (s.wgs.find? fun w => w.2.die == d && w.2.resident && coreId w.2.core == v % 32 &&
      w.2.slots.head? == some (v / 2 ^ 8 % 32, v / 2 ^ 13 % 8)).map (·.1)

/-- Codes of METHOD. -/
def Method.code : Method → Nat
  | .drain => 0
  | .save => 1
  | .flush => 2

/-- A write of 1 to PRQ_CMD. -/
def State.prqIssue (s : State) (d : Nat) : State :=
  let p := (s.die d).prq
  if p.state = 1 then s
  else match s.prqTarget d with
    | none => s.updDie d fun x => { x with prq := { p with state := 3 } }
    | some w =>
      let s1 := s.request w p.bound
      s1.updDie d fun x => { x with prq := { p with state := 1, method := (s1.wg w).method.code, latency := 0 } }

/-! ### The launcher's requests (16 R366) -/

/-- A victim for a DEADLINE workgroup: never one of equal or earlier key. -/
def WG.victimOf (v g : WG) : Bool := v.st == .run && (v.sclass != 0 || decide (g.deadline < v.deadline))

/-- The order of victims: GROUT, BULK, INTERACTIVE, then later DEADLINE; within a class by cost. -/
def State.victimRank (s : State) (v : WG) : Nat := (3 - v.sclass.toNat) * 2 ^ 64 + (s.chooseMethod v noBound).2

/-- The next workgroup to pre-empt for a DEADLINE workgroup that fits nowhere, while those already leaving would not make
room. -/
def State.nextVictim (s : State) (w : Nat) : Option Nat :=
  let g := s.wg w
  if g.sclass != 0 || g.st != .released then none
  else
    let base := s.without fun x => x.2.leaving
    if base.placeable w then none
    else
      let same := fun (a b : WG) => if g.course then courseOfCore a.core == courseOfCore b.core else a.core == b.core
      let vs := s.wgs.filter fun v => v.2.die == g.die && v.2.victimOf g &&
        (base.without fun x => same x.2 v.2 && x.2.victimOf g).placeable w
      (leastBy (fun v => s.victimRank v.2) vs).map (·.1)

end Sys2Proof.Machine
end

