-- ==== Sys2Proof/Machine/Governor.lean ====
section
/-!
DEFINITION. The governor of a course (chapter 16, R346 to R360, R471): issue energy, the balance sample, targets and grout,
rationing, stretching, the shunt monitor, boost (19 R425) and the modes of a course (16 R347, 19 R427).
-/

namespace Sys2Proof.Machine

/-! ### Issue energy (16 R350) -/

/-- Energy of a float type: FP64 costs 4, the others 2. -/
def FType.energy : FType → Nat
  | .f64 => 4
  | _ => 2

/-- Energy of the A slot of a pair word. -/
def AOp.energy : AOp → Nat
  | .nop => 0
  | _ => 1

/-- Energy of the D slot of a pair word. -/
def DOp.energy : DOp → Nat
  | .nop => 0
  | .faddD | .fmulD | .fmaD | .fmvX | .fmvF => 4
  | _ => 2

/-- Energy of an instruction for a lane whose guard is true. -/
def energyOf : Instr → Nat
  | .div .. | .divn .. | .rem .. | .remn .. => 4
  | .fdiv .. | .fsqrt .. | .frcp .. | .frsqrt .. | .fexp2 .. | .flog2 .. | .fsinp .. | .fcosp .. | .frdx .. => 4
  | .fadd ty .. | .fsub ty .. | .fmul ty .. | .fma ty .. | .fms ty .. | .fnma ty .. | .fmin ty .. | .fmax ty .. | .fabs ty ..
  | .fneg ty .. | .fcpsgn ty .. | .fcmp _ ty .. | .fclass ty .. | .fround ty .. | .fdot2 ty .. | .fcvtX ty .. | .xcvtF ty ..
  | .fmvX ty .. | .fmvF ty .. => FType.energy ty
  | .fcvt ty src .. => Nat.max (FType.energy ty) (FType.energy src)
  | .ld .. | .ldX .. | .st .. | .stX .. | .ldfF32 .. | .ldf64 .. | .ldfX .. | .stfF32 .. | .stf64 .. | .stfX .. | .lds ..
  | .ldsX .. | .sts .. | .stsX .. | .ldx .. | .stx .. | .ldnc .. | .amo .. | .cas .. | .red .. | .pfc .. | .wmon ..
  | .lxch .. | .lsel .. | .lvote .. | .lred .. => 2
  | .pairWord _ a _ _ _ _ d .. => Nat.max 1 (AOp.energy a + DOp.energy d)
  | _ => 1

/-- The guard of an instruction; the layouts without one are always executed (02 R34, R39). -/
def guardOf : Instr → BitVec 4
  | .add g .. | .sub g .. | .and g .. | .or g .. | .xor g .. | .andn g .. | .orn g .. | .xnor g .. | .sll g ..
  | .srl g .. | .sra g .. | .rol g .. | .ror g .. | .min g .. | .max g .. | .minn g .. | .maxn g .. | .lea _ g ..
  | .mul g .. | .mulh g .. | .mulhn g .. | .clz g .. | .ctz g .. | .popc g .. | .brev g .. | .bswap g .. | .cmp _ g ..
  | .sel g .. | .pand g .. | .por g .. | .pxor g .. | .pnot g .. | .pget g .. | .pset g .. | .addX g .. | .subX g ..
  | .andX g .. | .orX g .. | .xorX g .. | .andnX g .. | .ornX g .. | .xnorX g .. | .sllX g .. | .srlX g ..
  | .sraX g .. | .rolX g .. | .rorX g .. | .minX g .. | .maxX g .. | .minnX g .. | .maxnX g .. | .leaX _ g ..
  | .mulX g .. | .mulhX g .. | .mulhnX g .. | .clzX g .. | .ctzX g .. | .popcX g .. | .brevX g .. | .bswapX g ..
  | .cmpX _ g .. | .selX g .. | .pandX g .. | .porX g .. | .pxorX g .. | .pnotX g .. | .pgetX g .. | .psetX g ..
  | .li g .. | .liZ g .. | .liHi g .. | .div g .. | .divn g .. | .rem g .. | .remn g .. | .bfext g .. | .bfextN g ..
  | .bfins g .. | .ld _ g .. | .ldX _ g .. | .st _ g .. | .stX _ g .. | .ldfF32 g .. | .ldf64 g .. | .ldfX _ g ..
  | .stfF32 g .. | .stf64 g .. | .stfX _ g .. | .lds _ g .. | .ldsX _ g .. | .sts _ g .. | .stsX _ g .. | .ldx _ g ..
  | .stx _ g .. | .ldnc _ g .. | .amo _ _ g .. | .cas _ g .. | .red _ _ g .. | .pfc g .. | .wmon g .. | .fadd _ g ..
  | .fsub _ g .. | .fmul _ g .. | .fma _ g .. | .fms _ g .. | .fnma _ g .. | .fdiv _ g .. | .fsqrt _ g ..
  | .frcp _ g .. | .frsqrt _ g .. | .fmin _ g .. | .fmax _ g .. | .fabs _ g .. | .fneg _ g .. | .fcpsgn _ g ..
  | .fcmp _ _ g .. | .fclass _ g .. | .fround _ g .. | .fexp2 _ g .. | .flog2 _ g .. | .fsinp _ g .. | .fcosp _ g ..
  | .frdx _ g .. | .fdot2 _ g .. | .fcvt _ _ g .. | .fcvtX _ _ g .. | .xcvtF _ _ g .. | .fmvX _ g .. | .fmvF _ g ..
  | .lxch _ g .. | .lsel _ g .. | .lvote g .. | .lred _ g .. | .pairWord g .. | .br g .. | .call g .. | .callL g ..
  | .jmp g .. | .jr g .. | .callr g .. | .ret g | .loopx g | .nop g | .spawn g .. | .migrate g .. | .yield g | .exit g
  | .doneWait g .. | .cancel g .. | .hbArr g .. | .hbWait g .. | .hbSync g .. | .rinv g .. | .mkwait g ..
  | .mkget g .. | .mkgetT g .. | .mktest g .. | .mkret g | .mkdrop g .. | .sys g | .tret g | .brk g | .wfi g
  | .cpyIn g .. | .cpyMc g .. | .cpyGat g .. | .cpyOut _ g .. | .cpySct _ g .. | .barInit g .. | .barArr g ..
  | .barExp _ _ g .. | .barWait _ g .. | .barTest _ g .. | .barInval g .. | .mcfg g .. | .mclaim g .. | .mclaimW g ..
  | .mrel g .. | .mload _ g .. | .mloadT _ g .. | .mgath _ g .. | .mmul _ g .. | .msacc _ _ g ..
  | .mstore _ _ _ _ g .. | .mzero g .. | .mstat g .. | .macld g .. | .cwFlush _ _ g .. | .cwInval _ _ g ..
  | .pgMig g .. | .pgMigRel g .. | .pgSplit g .. | .pgColl _ g .. | .tlbInv _ _ g .. => g
  | _ => always

/-- Energy of one lane of an issue. -/
def Thread.energy (t : Thread) (i : Instr) : Nat := if t.guard (guardOf i) then energyOf i else 1

/-! ### Lists of one number for each tile -/

/-- The number of a tile. -/
def tileN (l : List Nat) (t : Nat) : Nat := l[t]?.getD 0
/-- A tile's number replaced. -/
def setTile (l : List Nat) (t v : Nat) : List Nat := l.set t v
/-- A list of four. -/
def tiles (f : Nat → Nat) : List Nat := (List.range 4).map f

/-- A tile takes part unless it is bypassed (16 R347). -/
def Course.takes (c : Course) (t : Nat) : Bool := !(c.mode == .degraded && c.bypass == t)

/-- A tile's grout request is open (16 R351). -/
def Course.open (c : Course) (t : Nat) : Bool := decide (tileN c.grout t < tileN c.want t)

/-- Issue energy of a tile, and of the workgroup that issues (16 R350, R365). -/
def State.spend (s : State) (core w eu : Nat) : State :=
  let s1 := s.updCourse (courseOfCore core) fun c => { c with energy := setTile c.energy (tileOfCore core) (tileN c.energy (tileOfCore core) + eu) }
  if (tget s1.wgs w).isSome then s1.updWg w fun g => { g with energy := g.energy + eu, lanes := g.lanes + 1 } else s1

/-- Energy of an engine of a tile (16 R350). -/
def State.spendEngine (s : State) (core eu : Nat) : State :=
  s.updCourse (courseOfCore core) fun c => { c with energy := setTile c.energy (tileOfCore core) (tileN c.energy (tileOfCore core) + eu) }

/-- A slice issue by a thread of class GROUT while its tile's request is open (16 R352, R360). -/
def State.groutIssue (s : State) (core eu : Nat) : State :=
  s.updCourse (courseOfCore core) fun c =>
    if c.open (tileOfCore core) then { c with
      grout := setTile c.grout (tileOfCore core) (tileN c.grout (tileOfCore core) + eu)
      groutCnt := c.groutCnt + 1, groutUseful := c.groutUseful + 1 }
    else c

/-- A core runs the threads and the engines it holds: nothing of it is out of service, its course is not offline and its tile not
bypassed. One that is draining runs until they have gone (16 R347; 19 R434). -/
def State.coreRuns (s : State) (c : Nat) : Bool :=
  let d := dieOfCore c
  let k := courseOfCore c
  s.dieUp d && !s.gone (.core c) &&
  (!isSDie d ||
    (!s.gone (.course k) && !s.gone (.quadrant d (quadOfCourse k)) && !s.quadOff d (quadOfCourse k) &&
     (s.course k).mode != .offline && (s.course k).takes (tileOfCore c)))

/-- A tile may issue synthetic grout slots in this window (16 R353). -/
def State.synOpen (s : State) (core : Nat) : Bool :=
  let c := s.course (courseOfCore core)
  let t := tileOfCore core
  c.open t && c.synEn && !c.floorOnly && decide (c.clock < 64) && decide (tileN c.syn t < c.groutBudget) && s.coreRuns core

/-- The clock of a window before which a tile's grout energy meets its deficit as far as it is shared out over the clocks (16 R353). -/
def Course.synClock (c : Course) (t : Nat) : Nat := tileN c.grout t * 64 / tileN c.want t

/-- A tile may issue a synthetic grout slot in this clock, one of its slices being idle (16 R353). -/
def State.synReady (s : State) (core : Nat) : Bool :=
  let c := s.course (courseOfCore core)
  s.synOpen core && decide (c.synClock (tileOfCore core) ≤ c.clock)

/-- One synthetic grout slot on a tile, of which so many slices have no eligible ready thread: each issues one in a clock (16 R353). -/
def State.synthetic (s : State) (core : Nat) (slices : Nat) : State :=
  let t := tileOfCore core
  if s.synReady core && decide (tileN (s.course (courseOfCore core)).synNow t < slices) then
    s.updCourse (courseOfCore core) fun c => { c with
      syn := setTile c.syn t (tileN c.syn t + 1), synNow := setTile c.synNow t (tileN c.synNow t + 1)
      grout := setTile c.grout t (tileN c.grout t + 8)
      energy := setTile c.energy t (tileN c.energy t + 8), groutCnt := c.groutCnt + 1 }
  else s

/-! ### The sample (16 R349, R351, R354, R355) -/

/-- IMB of a tile's current against the mean of `n` tiles whose sum is given: toward zero, saturated; 0 where the mean is 0 (R349 divides by
it: DESIGN CHOICE, log entry 109). -/
def imbOf (cur n sum : Nat) : Int :=
  if sum = 0 then 0
  else
    let v := Int.tdiv (1024 * ((n * cur : Nat) - (sum : Int))) sum
    if v > 32767 then 32767 else if v < -32767 then -32767 else v

/-- The four fields of a sample; a bypassed tile has none. -/
def State.sampleImb (s : State) (k : Nat) : List (Option Int) :=
  let c := s.course k
  let on := (List.range 4).filter c.takes
  let sum := on.foldl (fun a t => a + Config.current s.seq t) 0
  (List.range 4).map fun t => if c.takes t then some (imbOf (Config.current s.seq t) on.length sum) else none

/-- COURSE_IMB of a sample. -/
def imbWord (l : List (Option Int)) : Word :=
  (l.zipIdx.foldl (fun (w : Word) x =>
    let f : BitVec 16 := match x.1 with
      | some v => BitVec.ofInt 16 v
      | none => 0x8000
    w ||| (f.setWidth 64 <<< (16 * x.2))) 0)

/-- Ration levels after a sample (16 R354). -/
def Course.nextRation (c : Course) (l : List (Option Int)) : List Nat :=
  let top := l.foldl (fun (a : Int) x => match x with
    | some v => if a < v then v else a
    | none => a) (-32768)
  tiles fun t =>
    let r := tileN c.ration t
    match l[t]?.getD none with
    | some v => if c.rationEn && v == top && decide (2 * v > (c.imbLimit : Int)) then Nat.min (r + 1) 7 else r - 1
    | none => r - 1

/-- STRETCH, OVER and UNDER after a sample (16 R355). -/
def Course.nextStretch (c : Course) (exc : Bool) : Nat × Nat × Nat :=
  if exc then
    let o := Nat.min (c.overN + 1) 7
    (if 4 ≤ o then Nat.min (c.stretch + 1) 15 else c.stretch, o, 0)
  else if 0 < c.stretch then
    (if c.underN + 1 = 4 then (c.stretch - 1, 0, 0) else (c.stretch, 0, c.underN + 1))
  else (c.stretch, 0, c.underN)

/-- Grout deficits of the next window (16 R351); 0 on a course without workgroups (R471). -/
def Course.nextWant (c : Course) (empty : Bool) : List Nat :=
  let emax := (List.range 4).foldl (fun a t => if c.takes t then Nat.max a (tileN c.energy t) else a) 0
  let target := emax - emax * c.imbLimit / 2048
  tiles fun t => if c.takes t && !empty then target - tileN c.energy t else 0

/-- A course holds no resident workgroup. -/
def State.courseEmpty (s : State) (k : Nat) : Bool := !s.wgs.any fun w => w.2.resident && courseOfCore w.2.core == k

/-! ### The course clock (01 R20; 16 R347, R348, R355; 19 R425) -/

/-- MHz of a course before stretching; an offline course keeps its windows at the sustained clock (DEDUCED, log entry 6). -/
def Course.rate (c : Course) : Nat :=
  match c.mode with
  | .nearThreshold => 900
  | .degraded => 1140
  | .normal | .offline => if c.boosted then c.boostMax else 1900

/-- One course clock in the units of `phase`, nanoseconds × MHz × 16: stretching lengthens it (16 R355). -/
def Course.span (c : Course) : Nat := 1000 * (16 + c.stretch)

/-- Clocks a course may count before the device has something to do in its window: at clock 56 floor claims are made, at 63 those
still owed are waited for, at 64 the sample is due, and after `syn` clocks a synthetic slot is (16 R348, R353, R364). -/
def Course.room (c : Course) (owed : Bool) (syn : Option Nat) : Nat :=
  Nat.min (if c.clock < 56 then 56 - c.clock else if owed then 63 - c.clock else 64 - c.clock) (syn.getD 64)

/-- Time passes for a course. THROTTLE_CYC counts each clock of a window run stretched or in floor-only mode (16 R360); a course that
is offline counts only its window. -/
def Course.tick (c : Course) (ns : Nat) (owed : Bool) (syn : Option Nat) : Course :=
  let p := c.phase + ns * c.rate * 16
  let n := Nat.min (p / c.span) (c.room owed syn)
  let on := c.mode != .offline
  { c with
    phase := p - n * c.span, clock := c.clock + n, synNow := if n = 0 then c.synNow else tiles fun _ => 0
    cycles := c.cycles + if on then n else 0
    throttle := if on && (decide (0 < c.stretch) || c.floorOnly) then c.throttle + BitVec.ofNat 64 n else c.throttle }

/-- Nanoseconds until a course reaches the clock at which it has something to do. -/
def Course.left (c : Course) (owed : Bool) (syn : Option Nat) : Nat :=
  (c.room owed syn * c.span - c.phase + c.rate * 16 - 1) / (c.rate * 16)

/-! ### GOV_CTL (16 R358) -/

/-- A written GOV_CTL, with its fields brought into range. -/
def Course.applyCtl (c : Course) (v : Word) : Course :=
  let l := v.toNat % 2 ^ 7
  { c with
    imbLimit := if l = 0 then 1 else Nat.min l 122
    groutBudget := Nat.min (v.toNat / 2 ^ 8 % 2 ^ 12) 2048
    synEn := v.getLsbD 20, rationEn := v.getLsbD 21 }

/-- GOV_CTL as it reads: a write that has not taken effect yet reads as it will be. -/
def Course.ctlWord (c : Course) : Word :=
  let d := match c.govNext with
    | some v => c.applyCtl v
    | none => c
  BitVec.ofNat 64 (d.imbLimit + d.groutBudget * 2 ^ 8 + (if d.synEn then 2 ^ 20 else 0) + (if d.rationEn then 2 ^ 21 else 0))

/-- Codes of a mode (16 R347). -/
def CMode.code : CMode → Nat
  | .normal => 0
  | .degraded => 1
  | .offline => 2
  | .nearThreshold => 3

/-- GOV_STAT (16 R359). -/
def Course.statWord (c : Course) : Word :=
  BitVec.ofNat 64 (c.stretch + (if c.floorOnly then 2 ^ 4 else 0) + c.overN * 2 ^ 8 + c.underN * 2 ^ 11 +
    (tileN c.ration 0 * 2 ^ 16 + tileN c.ration 1 * 2 ^ 19 + tileN c.ration 2 * 2 ^ 22 + tileN c.ration 3 * 2 ^ 25) +
    c.mode.code * 2 ^ 28 + (if c.mode == .degraded then c.bypass else 0) * 2 ^ 30 + c.shunts % 2 ^ 32 * 2 ^ 32)

/-! ### Boost (19 R425) -/

/-- A thread of a course. -/
def Thread.onCourse (t : Thread) (k : Nat) : Bool :=
  match t.place with
  | .slot c _ _ _ => courseOfCore c == k
  | _ => false

/-- A lease is taken when there is none and there are tokens. -/
def takeLease (w : Word) : Word :=
  if tokLease w = 0 ∧ 0 < tokTok w then
    let n := Nat.min (tokTok w) 64
    mkTok (tokTok w - n) n
  else w

/-- A boosted window has passed. -/
def spendLease (w : Word) : Word := if 0 < tokLease w then mkTok (tokTok w) (tokLease w - 1) else w

/-- The tokens of a course's resident threads changed. -/
def State.mapTok (s : State) (k : Nat) (f : Word → Word) : State :=
  { s with threads := s.threads.map fun t => if t.2.onCourse k then (t.1, { t.2 with boostTok := f t.2.boostTok }) else t }

/-- Every tile taking part holds a thread with a lease. -/
def State.allLeased (s : State) (k : Nat) : Bool :=
  (List.range 4).all fun t => !(s.course k).takes t ||
    s.threads.any fun x => x.2.onCourse k && tileOfCore x.2.core == t && decide (0 < tokLease x.2.boostTok)

/-- Boost at a window boundary, after the governor's update. -/
def State.boostStep (s : State) (k : Nat) : State :=
  let s1 := if (s.course k).boosted then s.mapTok k spendLease else s
  let c := s1.course k
  if c.mode == .normal && c.stretch == 0 && !c.floorOnly then
    let s2 := s1.mapTok k takeLease
    s2.updCourse k fun c => { c with boosted := s2.allLeased k, boostMax := c.boostNext.getD c.boostMax, boostNext := none }
  else s1.updCourse k fun c => { c with boosted := false, boostMax := c.boostNext.getD c.boostMax, boostNext := none }

/-- IMBt of every tile goes to the capture units that measure a course (19 R432, source 2). -/
def State.measureImb (s : State) (k : Nat) (l : List (Option Int)) : State :=
  l.foldl (fun s x => match x with
    | some v => s.measure (dieOfCourse k) 2 (k % 8) v
    | none => s.measure (dieOfCourse k) 2 (k % 8) (-32768)) s

/-- The end of a window: the sample and the governor's decisions for the next one, while a die answers. Of a course that is offline
only the window ends. -/
def State.govSample (s : State) (k : Nat) : State :=
  let c := s.course k
  if !s.dieUp (dieOfCourse k) || !isSDie (dieOfCourse k) || decide (c.clock < 64) then s
  else if c.mode == .offline then
    s.updCourse k fun c => { c with clock := 0, served := [], claims := none, pwrWait := c.pwrWait.map (· - 1) }
  else
    let l := s.sampleImb k
    let exc := l.any fun x => match x with
      | some v => decide (v.natAbs > c.imbLimit)
      | none => false
    let st := if c.floorOnly && !exc then (15, 0, 0) else c.nextStretch exc
    let c1 := { c with
      imb := imbWord l, ration := c.nextRation l, stretch := st.1, overN := st.2.1, underN := st.2.2
      floorOnly := c.floorOnly && exc
      want := c.nextWant (s.courseEmpty k), energy := tiles fun _ => 0, grout := tiles fun _ => 0, syn := tiles fun _ => 0
      clock := 0, served := [], claims := none, pwrWait := c.pwrWait.map (· - 1) }
    let c2 := match c.govNext with
      | some v => { c1.applyCtl v with govNext := none }
      | none => c1
    (({ s with courses := tset s.courses k c2 } : State).boostStep k).measureImb k l

/-- The shunt monitor trips: floor-only mode, from the next clock of the window (16 R356). -/
def State.shunt (s : State) (k : Nat) : State :=
  let c := s.course k
  if c.mode == .offline || c.floorOnly then s
  else s.updCourse k fun c => { c with floorOnly := true, shunts := c.shunts + 1, boosted := false }

/-! ### Rank (16 R361; 18 R417) -/

/-- Class rank, key and placement order of a workgroup. -/
def WG.rank (g : WG) : Nat × Nat × Nat :=
  if g.sclass = 0 then (1, g.deadline, g.order)
  else if g.sclass = 3 then (3, g.order, g.order)
  else (2, g.vt, g.order)

/-- The best-ranked of some workgroups. -/
def State.bestWg (s : State) (ws : List Nat) : Option Nat :=
  ws.foldl (fun (b : Option Nat) w => match b with
    | some x => if lexLt (s.wg w).rank (s.wg x).rank then some w else some x
    | none => some w) none

/-! ### Modes (16 R347, R367; 19 R427) -/

/-- A request bit of COURSE_PWR is written by the firmware; it takes effect at the second window boundary. -/
def State.pwrRequest (s : State) (k : Nat) (v : BitVec 5) : State :=
  s.updCourse k fun c => { c with pwr := v, pwrWait := some 2 }

/-- The mode COURSE_PWR asks for: OFF_REQ before NT_REQ. -/
def pwrMode (v : BitVec 5) : CMode :=
  if v.getLsbD 4 then .offline else if v.getLsbD 0 then .nearThreshold else if v.getLsbD 1 then .degraded else .normal

/-- Stretch, OVER, UNDER and ration levels restart at 0. Floor-only mode, and the targets and grout of the window, stay as they are: R367 says
that the governor restarts and names these four (DESIGN CHOICE, log entry 110). -/
def Course.restartGov (c : Course) : Course := { c with stretch := 0, overN := 0, underN := 0, ration := tiles fun _ => 0 }

/-- A course enters a mode: near-threshold and degraded mode are entered, and near-threshold mode is left, with the governor
restarted, and nothing is boosted until the next boundary (16 R367; 19 R425, R427). -/
def Course.enter (c : Course) (m : CMode) : Course :=
  let c1 := { c with mode := m, bypass := if m == .degraded then c.pwr.toNat / 4 % 4 else c.bypass, boosted := false }
  if m == .degraded || m == .nearThreshold || c.mode == .nearThreshold then c1.restartGov else c1

/-- The mode changes as COURSE_PWR asks; the course of a quadrant that is shut stays offline (19 R428). -/
def State.modeChange (s : State) (k : Nat) : State :=
  let off := s.quadOff (dieOfCourse k) (quadOfCourse k)
  s.updCourse k fun c =>
    let m := if off then .offline else pwrMode c.pwr
    if m == c.mode && (m != .degraded || c.bypass == c.pwr.toNat / 4 % 4) then { c with pwrWait := none }
    else { c.enter m with pwrWait := none }

end Sys2Proof.Machine
end

