-- ==== Sys2Proof/Machine/Control.lean ====
section
/-!
DEFINITION. Control space (04 R75, R76; 19 R423): the registers of the device by their address, what a read returns and what
a write does (15 R342 to R345; 16 R358, R359; 18 R410, R412, R421; 19 R424 to R434; 20 R437, R439, R444, R445; 21 R458, R461).
-/

namespace Sys2Proof.Machine

/-! ### Interrupts pending (18 R410) -/

/-- A set of bits as a word. -/
def bitIf (b : Bool) (n : Nat) : Word := if b then BitVec.ofNat 64 (2 ^ n) else 0

/-- The dies of a package. -/
def diesOf (p : Nat) : List Nat := (List.range 10).map (p * 16 + ·)

/-- IRQ_PEND of a context: TIME, the Ethernet ports, the arrival queue of its die, exit queues and error logs of its
package, and the software bits. -/
def State.irqPend (s : State) (key : Nat) : Word :=
  let p := key / 256
  let c := s.ctx key
  let d := p * 16 + key % 256 / 2 / 36
  let ring := fun (r : Ring) => r.head != r.tail
  bitIf (c.timecmp.ule (s.timeOf p)) 0 |||
  (List.range 4).foldl (fun w n => w ||| bitIf (decide (c.seen[n]?.getD 0 < ((tget (s.pkg p).ports n).getD Port.init).irqs)) (n + 1)) 0 |||
  bitIf (ring (s.die d).arq) 8 |||
  bitIf ((diesOf p).any fun e => ring (s.die e).exq) 9 |||
  bitIf ((diesOf p).any fun e => (s.die e).errHead != (s.die e).errTail) 10 |||
  (c.irqSoft.setWidth 64 <<< 16)

/-- The lowest pending source that a context enables. -/
def State.irqSource (s : State) (key : Nat) : Option Nat :=
  if (s.ctx key).irqEn = 0 then none
  else
    let v := s.irqPend key &&& (s.ctx key).irqEn
    (List.range 64).find? (v.getLsbD ·)

/-! ### Threads by their place -/

/-- The thread in a slot. -/
def State.inSlot (s : State) (core lane slot : Nat) : Option Nat :=
  (s.threads.find? fun t => match t.2.place with
    | .slot c _ l sl => c == core && l == lane && sl == slot
    | _ => false).map (·.1)

/-- A comparator word of a thread as it is stored (18 R421): word 1 holds the ASID alone. -/
def bkWord (i : Nat) (v : Word) : Word := if i % 2 = 0 then v else v &&& 0xFFFF

/-- Comparator words of the thread at a place; 0 where there is none. -/
def State.bkGet (s : State) (k : Option Nat) (i : Nat) : Word :=
  match k with
  | some k => (s.thr k).bk[i]?.getD 0
  | none => 0

/-- A comparator word is written. -/
def State.bkSet (s : State) (k : Option Nat) (i : Nat) (v : Word) : State :=
  match k with
  | some k => s.updThr k fun t => { t with bk := t.bk.setIfInBounds i (bkWord i v) }
  | none => s

/-! ### Rings -/

/-- PA[51:12] of a base register. -/
def ringBase (v : Word) : Nat := v.toNat % 2 ^ 52 / 2 ^ 12 * 2 ^ 12
/-- A control register of a ring. -/
def ringCtl (r : Ring) : Word := BitVec.ofNat 64 ((if r.en then 1 else 0) + r.log2n * 2)
/-- A write of a ring's control register; a LOG2N out of range stores EN = 0. -/
def setRingCtl (r : Ring) (v : Word) (lo hi : Nat) : Ring :=
  let n := v.toNat / 2 % 32
  { r with en := v.getLsbD 0 && decide (lo ≤ n ∧ n ≤ hi), log2n := n }
/-- A write of an Ethernet ring's control register: while EN is 1 it changes only EN, which a LOG2N out of range clears (20 R439). -/
def setPortCtl (r : Ring) (v : Word) : Ring :=
  if r.en then { r with en := (setRingCtl r v 4 16).en } else setRingCtl r v 4 16

/-- The registers of a ring at its base. -/
def ringRead (r : Ring) (o : Nat) : Word :=
  match o with
  | 0 => BitVec.ofNat 64 r.base
  | 8 => ringCtl r
  | 0x10 => r.head.setWidth 64
  | _ => r.tail.setWidth 64

/-- A write of a ring's register; HEAD is read-only. -/
def ringWrite (r : Ring) (o : Nat) (v : Word) (ctl : Ring → Word → Ring) : Ring :=
  match o with
  | 0 => { r with base := ringBase v }
  | 8 => ctl r v
  | 0x10 => r
  | _ => { r with tail := v.setWidth 32 }

/-! ### Migration profile (15 R343) -/

/-- MIG_PROF as it reads. -/
def Profile.word (p : Profile) : Word :=
  BitVec.ofNat 64 (p.fill + p.timer * 2 ^ 8 + p.sppages * 2 ^ 24 + p.tiles * 2 ^ 34 + p.hbar * 2 ^ 40)

/-- A written MIG_PROF: the nearest value in range for each field, FILL rounded up to a multiple of 4. -/
def Profile.ofWord (v : Word) : Profile :=
  let n := v.toNat
  let f := Nat.min 64 (Nat.max 4 (n % 2 ^ 7))
  ⟨(f + 3) / 4 * 4, n / 2 ^ 8 % 2 ^ 16, Nat.min 768 (n / 2 ^ 24 % 2 ^ 10), Nat.min 32 (n / 2 ^ 34 % 2 ^ 6),
   Nat.min 1024 (n / 2 ^ 40 % 2 ^ 11)⟩

/-! ### Identifier windows (15 R342) -/

/-- IDW_TABLE is written. -/
def State.idwTableWrite (s : State) (d : Nat) (v : Word) : State :=
  s.updDie d fun x =>
    if x.idwEn then { x with idwEn := v.getLsbD 0 }
    else
      let b := v.toNat % 2 ^ 52 / 2 ^ 20 * 2 ^ 20
      { x with idwTable := b, idwEn := v.getLsbD 0 && isMem b && s.present (paPkg b) }

/-- IDW_CMD 1: the window of IDW_ASID is replaced; ignored while EN is 0. -/
def State.idwReplace (s : State) (d : Nat) : State :=
  let x := s.die d
  if x.idwEn then s.writeWindow d x.idwAsid x.idwBase x.idwRemain.toNat else s

/-- IDW_CMD 2: the window is copied into IDW_BASE and IDW_REMAIN; 0 and 0 while EN is 0. -/
def State.idwRead (s : State) (d : Nat) : State :=
  let w := s.readWindow d (s.die d).idwAsid
  w.1.updDie d fun x => { x with idwBase := w.2.1, idwRemain := BitVec.ofNat 32 w.2.2 }

/-! ### Capture units (19 R431, R432) -/

/-- SNAP: the registers go to the shadow set and are reset. -/
def Mon.snap (m : Mon) : Mon :=
  { m with shadow := (m.min, m.max, m.count, m.bins), min := Mon.init.min, max := Mon.init.max, count := 0, bins := [] }

/-! ### Service words (19 R434; their layout: log entry 15) -/

/-- The unit of a word of a die's unit-service block. -/
def serviceUnit (d i : Nat) : Option UnitId :=
  if i < 64 then (if i < (if isSDie d then 32 else 36) then some (.core (d * 64 + i)) else none)
  else if i < 72 then (if isSDie d then some (.course (d * 8 + (i - 64))) else none)
  else if i < 76 then (if isSDie d then some (.quadrant d (i - 72)) else none)
  else if i < 78 then (if isSDie d then some (.stack (pkgOfDie d) ((dieId d - 2) * 2 + (i - 76))) else none)
  else if i = 78 then (if isSDie d then none else some (.controller (pkgOfDie d) (dieId d)))
  else if i = 79 then some (.die d)
  else if i < 84 then (if isSDie d then none else some (.port (pkgOfDie d) (dieId d * 4 + (i - 80))))
  else if i = 88 then some (.walker d)
  else if 96 ≤ i ∧ i < 128 then (if isSDie d then some (.copyEngine (d * 64 + (i - 96))) else none)
  else if 128 ≤ i ∧ i < 160 then (if isSDie d then some (.matrixEngine (d * 64 + (i - 128))) else none)
  else none

/-- The die of a unit, and the word's number. -/
def unitWord : UnitId → Nat × Nat
  | .core k => (dieOfCore k, coreId k)
  | .course k => (dieOfCourse k, 64 + k % 8)
  | .quadrant d q => (d, 72 + q)
  | .stack p n => (p * 16 + 2 + n / 2, 76 + n % 2)
  | .controller p n => (p * 16 + n, 78)
  | .die d => (d, 79)
  | .port p n => (p * 16 + n / 4, 80 + n % 4)
  | .walker d => (d, 88)
  | .copyEngine c => (dieOfCore c, 96 + coreId c)
  | .matrixEngine c => (dieOfCore c, 128 + coreId c)

/-- The L-die whose half of the management logic manages a die (01 R12): DIE_ID 0 itself and S-dies 2 to 5, DIE_ID 1 itself and S-dies
6 to 9. -/
def managerOf (d : Nat) : Nat := pkgOfDie d * 16 + (if dieId d = 1 ∨ 6 ≤ dieId d then 1 else 0)

/-- The firmware can act on a unit: the L-die that manages its die answers (01 R12; DEDUCED, log entry 90). -/
def State.managed (s : State) (u : UnitId) : Bool := s.dieUp (managerOf (unitWord u).1)

/-- The control-space address of a unit's service word. -/
def unitAddr (u : UnitId) : Word :=
  let w := unitWord u
  BitVec.ofNat 64 (pkgOfDie w.1 * 2 ^ 48 + 0xFF0005000000 + 0x100000 * dieId w.1 + 0x30000 + 8 * w.2)

/-! ### Reads -/

/-- The registers of an L-core context's block (18 R410). -/
def State.ctxRead (s : State) (key o : Nat) : Option Word :=
  let c := s.ctx key
  match o with
  | 0x00 => some (s.irqPend key)
  | 0x08 => some c.irqEn
  | 0x10 => some (if c.hold then 1 else 0)
  | 0x18 => some c.timecmp
  | 0x20 | 0x28 => some 0
  | 0x30 => some c.tid
  | 0x38 => some c.launch
  | 0x80 => some c.tok
  | _ => if 0x40 ≤ o ∧ o < 0x80 then some (s.bkGet c.thread ((o - 0x40) / 8)) else none

/-- An entry of the error ring, as its four words (19 R433). -/
def ErrEntry.word (e : ErrEntry) (i : Nat) : Word :=
  match i with
  | 0 => e.addr
  | 1 => BitVec.ofNat 64 (e.code + e.cause * 256)
  | 2 => e.tid
  | _ => e.time

/-- The error log of a die. -/
def State.errRead (s : State) (d o : Nat) : Option Word :=
  let x := s.die d
  match o with
  | 0x00 => some (x.errHead.setWidth 64)
  | 0x08 => some (x.errTail.setWidth 64)
  | 0x10 => some x.errLost
  | 0x18 => some x.errCe
  | _ =>
    if 0x1000 ≤ o ∧ o < 0x3000 then
      some (match tget x.errs ((o - 0x1000) / 32) with
        | some e => e.word (o % 32 / 8)
        | none => 0)
    else none

/-- The capture units of a die. -/
def State.monRead (s : State) (d o : Nat) : Option Word :=
  if 0x2000 ≤ o ∧ o < 0x3000 then
    some ((tget ((s.die d).mon ((o - 0x2000) / 0x100)).shadow.2.2.2 (o % 0x100 / 8)).getD 0)
  else if o < 0x2000 then
    let m := (s.die d).mon (o / 0x200)
    let r := o % 0x200
    match r with
    | 0x00 => some m.ctl
    | 0x08 => some m.lo
    | 0x10 => some m.min
    | 0x18 => some m.max
    | 0x20 => some m.count
    | 0x28 => some m.shadow.1
    | 0x30 => some m.shadow.2.1
    | 0x38 => some m.shadow.2.2.1
    | _ => if 0x100 ≤ r then some ((tget m.bins ((r - 0x100) / 8)).getD 0) else some 0
  else none

/-- The rail quadrants of an S-die (19 R428). -/
def State.quadRead (s : State) (d o : Nat) : Option Word :=
  if o < 0x100 then
    let q := (tget (s.die d).quads (o / 0x40)).getD ⟨0, false, false, 0⟩
    match o % 0x40 with
    | 0x00 => some (q.qlim.setWidth 64)
    | 0x08 => some (BitVec.ofNat 64 ((if q.off then 1 else 0) + (if q.saved then 2 else 0) + q.count.toNat * 2 ^ 32))
    | _ => none
  else none

/-- The service words of a die. -/
def State.serviceRead (s : State) (d o : Nat) : Option Word :=
  (serviceUnit d (o / 8)).map fun u =>
    let v := s.service u
    BitVec.ofNat 64 (v.1 + v.2 % 256 * 256)

/-- The identifier block (15 R342). -/
def State.idwRegs (s : State) (d o : Nat) : Option Word :=
  let x := s.die d
  match o with
  | 0x00 => some (BitVec.ofNat 64 ((if x.idwEn then 1 else 0) + x.idwTable))
  | 0x08 => some (x.idwAsid.setWidth 64)
  | 0x10 => some x.idwBase
  | 0x18 => some (x.idwRemain.setWidth 64)
  | 0x20 => some 0
  | _ => none

/-- The request block (18 R412). -/
def Prq.read (p : Prq) (o : Nat) : Option Word :=
  match o with
  | 0x00 => some p.launch
  | 0x08 => some p.wg
  | 0x10 => some p.loc
  | 0x18 => some (BitVec.ofNat 64 p.bound)
  | 0x20 => some (BitVec.ofNat 64 (p.state + p.method * 4 + p.latency % 2 ^ 32 * 2 ^ 32))
  | _ => none

/-- A die block (19 R423). -/
def State.dieRead (s : State) (d o : Nat) : Option Word :=
  let x := s.die d
  let r := o % 0x10000
  let sd := isSDie d
  match o / 0x10000 with
  | 0x0 => s.errRead d r
  | 0x1 => s.monRead d r
  | 0x2 => if sd then s.quadRead d r else none
  | 0x3 => s.serviceRead d r
  | 0x4 => if r = 0 then some x.bktBase else if r = 8 then some x.perThread else none
  | 0x5 => if sd && r == 0 then some x.fetchCtl else none
  | 0x6 => s.idwRegs d r
  | 0x7 => if sd && r == 0 then some x.profile.word else none
  | 0x8 => if r < 0x20 then some (ringRead x.exq r) else none
  | 0x9 => if !sd && decide (r < 0x20) then some (ringRead x.arq r) else none
  | 0xA => if sd then x.prq.read r else none
  | _ => none

/-- A course block (16 R358, R359; 19 R425, R427). -/
def State.courseRead (s : State) (k o : Nat) : Option Word :=
  let c := s.course k
  match o with
  | 0x00 => some c.ctlWord
  | 0x08 => some c.statWord
  | 0x10 => some (c.pwr.setWidth 64)
  | 0x18 => some (BitVec.ofNat 64 (c.boostNext.getD c.boostMax))
  | _ => none

/-- A classifier entry. -/
def Cls.word (c : Cls) : Word :=
  BitVec.ofNat 64 (c.etype.toNat + c.vlan.toNat * 2 ^ 16 + (if c.vmatch then 2 ^ 28 else 0) + (if c.valid then 2 ^ 29 else 0) +
    c.ring.toNat * 2 ^ 30)

/-- A written classifier entry. -/
def Cls.ofWord (v : Word) : Cls :=
  ⟨v.setWidth 16, (v >>> 16).setWidth 12, v.getLsbD 28, v.getLsbD 29, (v >>> 30).setWidth 6⟩

/-- The control block of an Ethernet port (20 R437). -/
def Port.read (p : Port) (o : Nat) : Option Word :=
  if o = 0 then some (if p.en then 1 else 0)
  else if o = 8 then some (BitVec.ofNat 64 ((if p.up then 1 else 0) + p.drop.toNat * 2 ^ 32))
  else if o = 0x10 then some p.irqMask
  else if 0x800 ≤ o ∧ o < 0x1000 then some (((tget p.cls ((o - 0x800) / 8)).map Cls.word).getD 0)
  else if 0x1000 ≤ o ∧ o < 0x1800 then some (ringRead ((tget p.rx ((o - 0x1000) / 0x20)).getD Ring.init) (o % 0x20))
  else if 0x2000 ≤ o ∧ o < 0x2800 then some (ringRead ((tget p.tx ((o - 0x2000) / 0x20)).getD Ring.init) (o % 0x20))
  else none

/-- LINK_STAT (20 R445). -/
def Link.word (l : Link) : Word :=
  BitVec.ofNat 64 ((if l.up then 1 else 0) + l.peer % 16 * 2 + l.peerPort % 8 * 32 + l.replays.toNat * 2 ^ 32)

/-- The die, and the offset in its block, of a context's block. -/
def ctxOf (o : Nat) : Nat := (o - 0x00100000) / 0x100

/-- An 8-byte register of a package's control space; none answers HOLE (19 R423). Those of no die are on DIE_ID 0 (log entry 22). -/
def State.ctrlGet (s : State) (p o : Nat) : Option Word :=
  if o = 0 then (if s.dieUp (p * 16) then some ((s.pkg p).stepping.setWidth 64) else none)
  else if 0x00100000 ≤ o ∧ o < 0x00109000 then
    (if s.dieUp (p * 16 + ctxOf o / 2 / 36) then s.ctxRead (p * 256 + ctxOf o) (o % 0x100) else none)
  else if 0x02000000 ≤ o ∧ o < 0x03000000 then
    let c := (o - 0x02000000) / 0x10000
    let core := (p * 16 + 2 + c / 32) * 64 + c % 32
    let n := o % 0x10000 / 0x40
    if s.dieUp (dieOfCore core) && decide (n < 1024) then some (s.bkGet (s.inSlot core (n / 8) (n % 8)) (o % 0x40 / 8)) else none
  else if 0x04000000 ≤ o ∧ o < 0x04004000 then
    let k := (p * 16 + 2 + (o - 0x04000000) / 0x100 / 8) * 8 + (o - 0x04000000) / 0x100 % 8
    if s.dieUp (dieOfCourse k) then s.courseRead k (o % 0x100) else none
  else if 0x05000000 ≤ o ∧ o < 0x05A00000 then
    let d := p * 16 + (o - 0x05000000) / 0x100000
    if s.dieUp d then s.dieRead d (o % 0x100000) else none
  else if 0x06000000 ≤ o ∧ o < 0x06040000 then
    (if s.dieUp (portDie p ((o - 0x06000000) / 0x10000)) then
      ((tget (s.pkg p).ports ((o - 0x06000000) / 0x10000)).getD Port.init).read (o % 0x10000)
    else none)
  else if 0x07000000 ≤ o ∧ o < 0x07080000 then
    (if o % 0x10000 = 0 ∧ s.dieUp (linkDie p ((o - 0x07000000) / 0x10000)) then some ((tget (s.pkg p).links ((o - 0x07000000) / 0x10000)).getD ⟨false, 0, 0, 0⟩).word else none)
  else if !s.dieUp (p * 16) then none
  else if o = 0x08000000 then some (s.pkg p).freq
  else if o = 0x08000008 then some 0
  else if o = 0x08000010 then some (BitVec.ofNat 64 (s.pkg p).slew)
  else none

/-! ### Writes -/

/-- TIME_STEP: a positive step at once, a negative one into TIME_SLEW (20 R444). -/
def State.timeStepOp (s : State) (p : Nat) (v : Word) : State :=
  s.updPkg p fun x => if v.toInt < 0 then { x with slew := x.slew + v.toInt.natAbs } else { x with time := x.time + v }

/-- TIME_FREQ: limited to ±5 × 10^8. -/
def clampFreq (v : Word) : Word :=
  if v.toInt > 500000000 then 500000000 else if v.toInt < -500000000 then BitVec.ofInt 64 (-500000000) else v

/-- A context's register is written (18 R410). -/
def State.ctxWrite (s : State) (key o : Nat) (v : Word) : Option State :=
  let c := s.ctx key
  let w := fun f => some (s.updCtx key f)
  match o with
  | 0x00 => some s
  | 0x08 => w fun c => { c with irqEn := v }
  | 0x10 => w fun c => { c with hold := c.hold && v.getLsbD 0 }
  | 0x18 => w fun c => { c with timecmp := v }
  | 0x20 => w fun c => { c with irqSoft := c.irqSoft ||| (v >>> 16).setWidth 16 }
  | 0x28 => w fun c => { c with irqSoft := c.irqSoft &&& ~~~(v >>> 16).setWidth 16 }
  | 0x30 => w fun c => { c with tid := v }
  | 0x38 => w fun c => { c with launch := v }
  | 0x80 => w fun c => { c with tok := v &&& 0x7FFFFFFFFF }
  | _ => if 0x40 ≤ o ∧ o < 0x80 then some (s.bkSet c.thread ((o - 0x40) / 8) v) else none

/-- The identifier block is written. -/
def State.idwWrite (s : State) (d o : Nat) (v : Word) : Option State :=
  match o with
  | 0x00 => some (s.idwTableWrite d v)
  | 0x08 => some (s.updDie d fun x => { x with idwAsid := v.setWidth 16 })
  | 0x10 => some (s.updDie d fun x => { x with idwBase := v })
  | 0x18 => some (s.updDie d fun x => { x with idwRemain := v.setWidth 32 })
  | 0x20 => some (if v = 1 then s.idwReplace d else if v = 2 then s.idwRead d else s)
  | _ => none

/-- The request block is written. -/
def State.prqWrite (s : State) (d o : Nat) (v : Word) : Option State :=
  let w := fun f => some (s.updDie d fun x => { x with prq := f x.prq })
  match o with
  | 0x00 => w fun p => { p with launch := v }
  | 0x08 => w fun p => { p with wg := v &&& 0xFFFFFFFF }
  | 0x10 => w fun p => { p with loc := v &&& 0xFF1F }
  | 0x18 => w fun p => { p with bound := v.toNat % 2 ^ 32 }
  | 0x20 => some (if v.toNat % 2 ^ 32 = 1 then s.prqIssue d else s)
  | _ => none

/-- A capture unit is written: the measured registers are read-only, and a write of SNAP takes the shadow (19 R431). -/
def State.monWrite (s : State) (d o : Nat) (v : Word) : Option State :=
  if 0x2000 ≤ o ∧ o < 0x3000 then some s
  else if o < 0x2000 then
    match o % 0x200 with
    | 0x00 => some (s.updMon d (o / 0x200) fun m =>
        let m1 := { m with ctl := v &&& 0xFFFF3F7F }
        if v.getLsbD 7 then m1.snap else m1)
    | 0x08 => some (s.updMon d (o / 0x200) fun m => { m with lo := v })
    | _ => some s
  else none

/-- The error log's registers: ERR_TAIL alone is writable. -/
def State.errWrite (s : State) (d o : Nat) (v : Word) : Option State :=
  if o = 8 then some (s.updDie d fun x => { x with errTail := v.setWidth 32 })
  else (s.errRead d o).map fun _ => s

/-- A die block is written. -/
def State.dieWrite (s : State) (d o : Nat) (v : Word) : Option State :=
  let r := o % 0x10000
  let sd := isSDie d
  let w := fun f => some (s.updDie d f)
  match o / 0x10000 with
  | 0x0 => s.errWrite d r v
  | 0x1 => s.monWrite d r v
  | 0x2 =>
    if !sd then none
    else if r % 0x40 = 0 ∧ r < 0x100 then
      w fun x => { x with quads := tmod x.quads (r / 0x40) ⟨0, false, false, 0⟩ fun q => { q with qlim := v.setWidth 16 } }
    else (s.quadRead d r).map fun _ => s
  | 0x3 => (s.serviceRead d r).map fun _ => s
  | 0x4 => if r = 0 then w fun x => { x with bktBase := v } else if r = 8 then w fun x => { x with perThread := v } else none
  | 0x5 =>
    if sd && r == 0 then
      w fun x => { x with fetchCtl := BitVec.ofNat 64 (v.toNat % 2 + 2 * Nat.min 16 (v.toNat / 2 % 32)) }
    else none
  | 0x6 => s.idwWrite d r v
  | 0x7 => if sd && r == 0 then w fun x => { x with profile := Profile.ofWord v } else none
  | 0x8 => if r < 0x20 then w fun x => { x with exq := ringWrite x.exq r v fun q v => setRingCtl q v 8 20 } else none
  | 0x9 =>
    if !sd && decide (r < 0x20) then w fun x => { x with arq := ringWrite x.arq r v fun q v => setRingCtl q v 4 16 } else none
  | 0xA => if sd then s.prqWrite d r v else none
  | _ => none

/-- BOOST_MAX: brought into 1,900 to 2,300, from the next window boundary (19 R425). -/
def State.boostMaxWrite (s : State) (k : Nat) (v : Word) : State :=
  s.updCourse k fun c => { c with boostNext := some (Nat.min 2300 (Nat.max 1900 (v.toNat % 4096))) }

/-- GOV_CTL: from the next window boundary; the last write of a window counts (16 R358). -/
def State.govCtlWrite (s : State) (k : Nat) (v : Word) : State := s.updCourse k fun c => { c with govNext := some v }

/-- A course block is written; COURSE_PWR is the firmware's alone (19 R427). -/
def State.courseWrite (s : State) (k o : Nat) (v : Word) : Option State :=
  match o with
  | 0x00 => some (s.govCtlWrite k v)
  | 0x08 => some s
  | 0x18 => some (s.boostMaxWrite k v)
  | _ => none

/-- An Ethernet port's register is written (20 R437, R439). -/
def Port.write (p : Port) (o : Nat) (v : Word) : Option Port :=
  if o = 0 then some { p with en := v.getLsbD 0 }
  else if o = 8 then some p
  else if o = 0x10 then some { p with irqMask := v }
  else if 0x800 ≤ o ∧ o < 0x1000 then some { p with cls := tset p.cls ((o - 0x800) / 8) (Cls.ofWord v) }
  else if 0x1000 ≤ o ∧ o < 0x1800 then
    some { p with rx := tmod p.rx ((o - 0x1000) / 0x20) Ring.init fun r => ringWrite r (o % 0x20) v setPortCtl }
  else if 0x2000 ≤ o ∧ o < 0x2800 then
    some { p with tx := tmod p.tx ((o - 0x2000) / 0x20) Ring.init fun r => ringWrite r (o % 0x20) v setPortCtl }
  else none

/-- A port changed. -/
def State.updPort (s : State) (p n : Nat) (f : Port → Port) : State :=
  s.updPkg p fun x => { x with ports := tset x.ports n (f ((tget x.ports n).getD Port.init)) }

/-- An 8-byte register is written; none answers HOLE. -/
def State.ctrlSet (s : State) (p o : Nat) (v : Word) : Option State :=
  if 0x00100000 ≤ o ∧ o < 0x00109000 then
    (if s.dieUp (p * 16 + ctxOf o / 2 / 36) then s.ctxWrite (p * 256 + ctxOf o) (o % 0x100) v else none)
  else if 0x02000000 ≤ o ∧ o < 0x03000000 then
    let c := (o - 0x02000000) / 0x10000
    let core := (p * 16 + 2 + c / 32) * 64 + c % 32
    let n := o % 0x10000 / 0x40
    if s.dieUp (dieOfCore core) && decide (n < 1024) then some (s.bkSet (s.inSlot core (n / 8) (n % 8)) (o % 0x40 / 8) v) else none
  else if 0x04000000 ≤ o ∧ o < 0x04004000 then
    let k := (p * 16 + 2 + (o - 0x04000000) / 0x100 / 8) * 8 + (o - 0x04000000) / 0x100 % 8
    if s.dieUp (dieOfCourse k) then s.courseWrite k (o % 0x100) v else none
  else if 0x05000000 ≤ o ∧ o < 0x05A00000 then
    let d := p * 16 + (o - 0x05000000) / 0x100000
    if s.dieUp d then s.dieWrite d (o % 0x100000) v else none
  else if 0x06000000 ≤ o ∧ o < 0x06040000 then
    let n := (o - 0x06000000) / 0x10000
    if !s.dieUp (portDie p n) then none
    else (((tget (s.pkg p).ports n).getD Port.init).write (o % 0x10000) v).map fun q => s.updPort p n fun _ => q
  else if o = 0x08000000 ∧ s.dieUp (p * 16) then some (s.updPkg p fun x => { x with freq := clampFreq v })
  else if o = 0x08000008 ∧ s.dieUp (p * 16) then some (s.timeStepOp p v)
  else (s.ctrlGet p o).map fun _ => s

/-! ### Accesses (04 R76) -/

/-- A load of 4 or 8 bytes. -/
def State.ctrlLoad (s : State) (pa n : Nat) : Except Nat Nat :=
  let o := paOff pa % 2 ^ 40
  match s.ctrlGet (paPkg pa) (o / 8 * 8) with
  | some v => .ok (v.toNat / 2 ^ (8 * (o % 8)) % 2 ^ (8 * n))
  | none => .error 1

/-- Registers whose write is a command, of which a 4-byte write keeps nothing. -/
def ctrlCommand (o : Nat) : Bool :=
  (decide (0x00100000 ≤ o ∧ o < 0x00109000) && (o % 0x100 == 0x20 || o % 0x100 == 0x28)) ||
  (decide (0x05000000 ≤ o ∧ o < 0x05A00000) && (o % 0x100000 == 0x60020 || o % 0x100000 == 0xA0020)) || o == 0x08000008

/-- A store of 4 or 8 bytes; one of 4 bytes keeps the other half of the register. -/
def State.ctrlStore (s : State) (pa n v : Nat) : State × Option Nat :=
  let o := paOff pa % 2 ^ 40
  let p := paPkg pa
  let r := o / 8 * 8
  let old := if ctrlCommand r then 0 else ((s.ctrlGet p r).getD 0).toNat
  let sh := 8 * (o % 8)
  let field := old / 2 ^ sh % 2 ^ (8 * n)
  match s.ctrlSet p r (BitVec.ofNat 64 (old - field * 2 ^ sh + v % 2 ^ (8 * n) * 2 ^ sh)) with
  | some s1 => (s1, none)
  | none => (s, some 1)

end Sys2Proof.Machine
end

