-- ==== Sys2Proof/Machine/Access.lean ====
section
/-!
DEFINITION. One access of a lane to memory, to control space or to scratchpad: its checks in the order of 09 R195, what it
does, and how it fails (09 R191 to R193; 04 R76, R85; 05 R116; 06 R127, R132).
-/

namespace Sys2Proof.Machine

/-- How an access ends: with a value, with a cause and its TVAL, or with a wait for a locked table line. -/
inductive Acc where
  | ok (v : Nat)
  | trap (code : Nat) (tval : Word)
  | wait
deriving DecidableEq, Repr

/-- An access at control space, if the address is there and its package answers. -/
def State.atCtrl (s : State) (pkg pa : Nat) : Bool :=
  areaOf pa == .ctrl && s.present (paPkg pa) && s.reaches pkg (paPkg pa)

/-- Four or eight bytes (04 R76). -/
def ctrlSize (n : Nat) : Bool := n == 4 || n == 8

/-- A translation for an access, or the way it fails. -/
def State.xlateAcc (s : State) (c : MCtx) (va : Word) (k : XKind) (f : State → Nat → Nat → State × Acc) : State × Acc :=
  match s.xlate c va k with
  | (s1, .ok pa leaf) => f s1 pa leaf
  | (s1, .fault code) => (s1, .trap code va)
  | (s1, .wait) => (s1, .wait)

/-- A load-class access that got an error response: ACCESS_ERROR (05 R116). -/
def State.loadError (s : State) (c : MCtx) (pa code : Nat) (va : Word) : State × Acc := (s.respond c pa code, .trap 0x1A va)

/-- A store or `red` that got an error response: the lane goes on (05 R116). -/
def State.storeError (s : State) (c : MCtx) (pa code : Nat) (va : Word) : State × Acc := (s.failStore c pa code va, .ok 0)

/-- The value of a load-class access at a physical address. -/
def State.physLoad (s : State) (c : MCtx) (r : RegionKind) (pa n : Nat) (nc : Bool) : State × Except Nat Nat :=
  if s.atCtrl (c.ag / 512) pa then
    (s, if s.lateTo (c.ag / 512) pa then .error 8 else if ctrlSize n then s.ctrlLoad pa n else .error 2)
  else if nc then s.secLoadNc r c.ag pa n
  else s.secLoad r c.ag pa n

/-- A store at a physical address. -/
def State.physStore (s : State) (c : MCtx) (r : RegionKind) (pa n v : Nat) : State × Option Nat :=
  if s.atCtrl (c.ag / 512) pa then
    (if s.lateTo (c.ag / 512) pa then (s, some 8) else if ctrlSize n then s.ctrlStore pa n v else (s, some 2))
  else s.secStore r c.ag pa n v c.who

/-- A load as its thread sees memory: bytes bound early, else memory under the stores it sees (13 R285, R288). -/
def State.ownLoad (s : State) (c : MCtx) (r : RegionKind) (pa n : Nat) (nc : Bool) : State × Except Nat Nat :=
  match s.bound c.who false pa n with
  | some v => (s, .ok v)
  | none =>
    match s.physLoad c r pa n nc with
    | (s1, .ok v) => (s1, .ok (s1.overlaid c.who s1.nextId pa n v))
    | (s1, .error code) => (s1, .error code)

/-- An access by a lane that issues together with the current thread. -/
def State.mateHeld (s : State) (h : Held) : Bool := h.c.who != s.cur && h.issue != 0 && h.issue == (s.gang.map (·.seq)).getD 0

/-- A write stays behind when the agenda asks it, when it follows in control space one of its thread that has, or one of its thread, of a
lane of its issue or that its thread sees on some of its bytes, or when something comes before it that is not performed (13 R282, R284,
R288). One that would draw an error response does not. -/
def State.staysBehind (s : State) (c : MCtx) (pa n : Nat) : Bool :=
  if s.atCtrl (c.ag / 512) pa then
    (s.delay == some c.who || s.stores.any fun h => h.ctrl && h.c.who == c.who) && ctrlSize n && !s.lateTo (c.ag / 512) pa
  else
    (s.delay == some c.who || s.stores.any fun h =>
      h.before.any (·.1 == c.who) || ((h.c.who == c.who || h.seen.contains c.who || s.mateHeld h) && h.meets false 0 pa n)) &&
    (s.memCode (c.ag / 512) pa false).isNone

/-- An access of the current thread as it is put behind. -/
def State.heldAs (s : State) (c : MCtx) (i : Option Instr) (spad ctrl : Bool) (r : RegionKind) (a n v w : Nat) (va : Word) : Held :=
  ⟨0, c, (s.thr c.who).wg, (s.gang.map (·.seq)).getD 0, i, spad, ctrl, r, a, n, v, w, va, [], [], [], [], []⟩

/-- A store of a lane, performed at once or not. -/
def State.ownStore (s : State) (c : MCtx) (r : RegionKind) (pa n v : Nat) (va : Word) : State × Option Nat :=
  if s.staysBehind c pa n then (s.putBehind (s.heldAs c none false (s.atCtrl (c.ag / 512) pa) r pa n v 0 va), none)
  else (s.unbind c.who false pa n).physStore c r pa n v

/-- A load of `n` bytes by a lane; `nc` allocates nothing (09 R195, R199). -/
def State.dataLoad (s : State) (c : MCtx) (va : Word) (n : Nat) (nc : Bool) : State × Acc :=
  if va.toNat % n ≠ 0 then (s, .trap 0x08 va)
  else s.xlateAcc c va .load fun s pa leaf =>
    match s.ownLoad c (regionOf leaf) pa n nc with
    | (s1, .ok v) => (s1, .ok v)
    | (s1, .error code) => s1.loadError c pa code va

/-- A store of `n` bytes by a lane. -/
def State.dataStore (s : State) (c : MCtx) (va : Word) (n v : Nat) : State × Acc :=
  if va.toNat % n ≠ 0 then (s, .trap 0x09 va)
  else s.xlateAcc c va .store fun s pa leaf =>
    match s.ownStore c (regionOf leaf) pa n v va with
    | (s1, none) => (s1, .ok 0)
    | (s1, some code) => s1.storeError c pa code va

/-- A read and write of `n` bytes by a lane, indivisible; `home` executes it at the slab (05 R114). The value is the old
one. -/
def State.dataRmw (s : State) (c : MCtx) (va : Word) (n : Nat) (home : Bool) (f : Nat → Option Nat) : State × Acc :=
  if va.toNat % n ≠ 0 then (s, .trap 0x09 va)
  else s.xlateAcc c va .rmw fun s pa leaf =>
    if s.atCtrl (c.ag / 512) pa then s.loadError c pa 2 va
    else match s.secAtomic (regionOf leaf) c.ag pa n home f c.who with
      | (s1, .ok v) => (s1, .ok v)
      | (s1, .error code) => s1.loadError c pa code va

/-- A reduction by a lane. -/
def State.dataRed (s : State) (c : MCtx) (va : Word) (op : RedOp) (wide : Bool) (v : Nat) : State × Acc :=
  if va.toNat % (redWidth wide / 8) ≠ 0 then (s, .trap 0x09 va)
  else s.xlateAcc c va .store fun s pa leaf =>
    if s.atCtrl (c.ag / 512) pa then s.storeError c pa 2 va
    else match s.secRed (regionOf leaf) c.ag pa op wide v c.who with
      | (s1, none) => (s1, .ok 0)
      | (s1, some code) => s1.storeError c pa code va

/-! ### Scratchpad (09 R192, R193; 06 R127, R132) -/

/-- Bytes of a workgroup's allocation. -/
def WG.spSize (g : WG) : Nat := g.spPages * 4096

/-- A tag covers a byte. -/
def WG.tagged (g : WG) (o : Nat) : Bool := g.tags.contains (o / 16 * 16)

/-- A scratchpad load of a lane. -/
def State.spadLoad (s : State) (o : Word) (n : Nat) : State × Acc :=
  let g := s.wg s.me.wg
  if o.toNat % n ≠ 0 then (s, .trap 0x08 o)
  else if o.toNat + n > g.spSize then (s, .trap 0x22 o)
  else (s, .ok ((s.bound s.cur true o.toNat n).getD (g.spad.readN o.toNat n)))

/-- A scratchpad store stays behind when the agenda asks it, when one of its thread or of a lane of its issue has on some of its bytes, or
when something comes before it that is not performed (13 R282, R297). -/
def State.spadBehind (s : State) (o n : Nat) : Bool :=
  s.delay == some s.cur || s.stores.any fun h =>
    h.before.any (·.1 == s.cur) || ((h.c.who == s.cur || s.mateHeld h) && h.meets true s.me.wg o n)

/-- A scratchpad store of a lane. -/
def State.spadStore (s : State) (o : Word) (n v : Nat) : State × Acc :=
  let g := s.wg s.me.wg
  if o.toNat % n ≠ 0 then (s, .trap 0x09 o)
  else if o.toNat + n > g.spSize then (s, .trap 0x22 o)
  else if g.tagged o.toNat then (s, .trap 0x21 o)
  else if s.spadBehind o.toNat n then
    (s.putBehind (s.heldAs (s.me.mctx s.cur) none true false .priv o.toNat n v 0 o), .ok 0)
  else ((s.unbind s.cur true o.toNat n).updWg s.me.wg fun g => { g with spad := g.spad.writeN o.toNat n v }, .ok 0)

/-! ### Accesses that are performed late, and loads bound early (13 R284, R288) -/

/-- One access is performed, unless one that comes before it is not. -/
def State.performOne (s : State) (i : Nat) : State :=
  match s.stores[i]? with
  | some h =>
    if (s.stores.take i).any fun x => x.first h then s
    else
      let s1 : State := { s with stores := s.stores.eraseIdx i }
      if h.ctrl then State.stored (s1.physStore h.c h.r h.addr h.n h.v) h else s1.performHeld h
  | none => s

/-- A thread's stores to control space are performed, in their order (04 R76). -/
def State.performCtrl (s : State) (k : Nat) : State :=
  (s.stores.filter fun h => h.ctrl && h.c.who == k).foldl (fun s h => State.stored (s.physStore h.c h.r h.addr h.n h.v) h)
    { s with stores := s.stores.filter fun h => !(h.ctrl && h.c.who == k) }

/-- A thread is on a core. -/
def State.placed (s : State) (k : Nat) : Bool :=
  (tget s.threads k).isSome && match (s.thr k).place with
    | .ctx _ _ | .slot _ _ _ _ => true
    | _ => false

/-- A thread's loads of some naturally aligned bytes of a sector bind their value before they are executed (13 R284, R288). Accesses of its
own that are not performed there come first, and one that would trap or draw an error response binds none. -/
def State.bindEarly (s : State) (k : Nat) (va : Word) (n : Nat) (spad : Bool) : State :=
  let t := s.thr k
  let a := va.toNat
  if !s.placed k || !([1, 2, 4, 8, 64].contains n) || a % n != 0 then s
  else if spad then
    (if t.onL || decide ((s.wg t.wg).spSize < a + n) || s.stores.any (fun h => h.c.who == k && h.meets true t.wg a n) then s
     else { s.unbind k true a n with views := ⟨k, true, a, n, (s.wg t.wg).spad.readN a n⟩ :: (s.unbind k true a n).views })
  else match s.xlate (t.mctx k) va .load with
    | (s1, .ok pa leaf) =>
      if s1.atCtrl (t.agent / 512) pa || s1.stores.any (fun h => h.c.who == k && !h.plain && h.meets false 0 pa n) then s
      else match s1.ownLoad (t.mctx k) (regionOf leaf) pa n false with
        | (s2, .ok v) => { s2.unbind k false pa n with views := ⟨k, false, pa, n, v⟩ :: (s2.unbind k false pa n).views }
        | _ => s
    | _ => s

/-- An instruction completes whose result an access with a number brings later. -/
def Thread.expected (t : Thread) (i : Instr) (d : Dest) (la : BitVec 4) (id : Nat) : Thread := (t.expect d la id).complete (lenOf i)

/-- A load of the current thread that stays behind, where the agenda asks it: it goes to memory or scratchpad without a fault, an error
response or a value bound early. -/
def State.loadBehind (s : State) (i : Instr) (spad : Bool) (ea : Word) (n : Nat) (nc : Bool) (d : Dest) (la : BitVec 4) : Option State :=
  let put := fun (s : State) (h : Held) => (s.putBehind h).updMe (·.expected i d la s.nextId)
  if s.delay != some s.cur then none
  else if spad then
    match s.spadLoad ea n with
    | (_, .ok v) =>
      if (s.bound s.cur true ea.toNat n).isSome then none
      else some (put s (s.heldAs (s.me.mctx s.cur) (some i) true false .priv ea.toNat n v 0 ea))
    | _ => none
  else if ea.toNat % n ≠ 0 then none
  else match s.xlate (s.me.mctx s.cur) ea .load with
    | (s1, .ok pa leaf) =>
      if s1.atCtrl (s.me.agent / 512) pa || (s1.bound s.cur false pa n).isSome then none
      else match s1.ownLoad (s.me.mctx s.cur) (regionOf leaf) pa n nc with
        | (_, .ok v) => some (put s1 (s1.heldAs (s.me.mctx s.cur) (some i) false false (regionOf leaf) pa n v 0 ea))
        | _ => none
    | _ => none

/-- A read and write of the current thread, or a `red`, that stays behind, where the agenda asks it or something comes before it that is
not performed. -/
def State.rmwBehind (s : State) (i : Instr) (ea : Word) (n v w : Nat) (k : XKind) (past : Thread → Thread) : Option State :=
  if s.delay != some s.cur && !s.stores.any (fun h => h.before.any (·.1 == s.cur)) then none
  else if ea.toNat % n ≠ 0 then none
  else match s.xlate (s.me.mctx s.cur) ea k with
    | (s1, .ok pa leaf) =>
      if s1.atCtrl (s.me.agent / 512) pa || (s1.memCode (s.me.agent / 512) pa false).isSome then none
      else some ((s1.putBehind (s1.heldAs (s.me.mctx s.cur) (some i) false false (regionOf leaf) pa n v w ea)).updMe past)
    | _ => none

/-! ### Ends of an access -/

/-- What follows an access of the current thread. -/
def State.after (r : State × Acc) (k : State → Nat → State) : State :=
  match r.2 with
  | .ok v => k r.1 v
  | .trap code tval => r.1.trap code tval
  | .wait => r.1.waitOn .walk

/-- An access that carries `.rel` first raises a deferred store error (05 R116). -/
def State.released (s : State) (o : Order) (k : State) : State :=
  match o, s.me.deferred with
  | .rel, some va => s.takeDeferred va
  | .acqRel, some va => s.takeDeferred va
  | _, _ => k

/-- A load by the current thread into a register. -/
def State.loadTo (s : State) (i : Instr) (ea : Word) (n : Nat) (nc : Bool) (d : Dest) (la : BitVec 4) (f : Nat → Word) : State :=
  (s.loadBehind i false ea n nc d la).getD (State.after (s.dataLoad (s.me.mctx s.cur) ea n nc) fun s v => s.finishLate (lenOf i) d la (f v))

/-- A store by the current thread. -/
def State.storeFrom (s : State) (i : Instr) (ea : Word) (n v : Nat) : State :=
  State.after (s.dataStore (s.me.mctx s.cur) ea n v) fun s _ => s.finish (lenOf i)

/-- A scratchpad load by the current thread into a register. -/
def State.spadTo (s : State) (i : Instr) (o : Word) (n : Nat) (d : Dest) (la : BitVec 4) (f : Nat → Word) : State :=
  (s.loadBehind i true o n false d la).getD (State.after (s.spadLoad o n) fun s v => s.finishLate (lenOf i) d la (f v))

/-- A scratchpad store by the current thread. -/
def State.spadFrom (s : State) (i : Instr) (o : Word) (n v : Nat) : State :=
  State.after (s.spadStore o n v) fun s _ => s.finish (lenOf i)

/-- A float load: from scratchpad where the address lies in the window, which an L-core does not have (09 R193). -/
def State.floatTo (s : State) (i : Instr) (ea : Word) (n : Nat) (d : Dest) (la : BitVec 4) (f : Nat → Word) : State :=
  if inWindow ea then
    (if ea.toNat % n ≠ 0 then s.trap 0x08 ea
     else if s.me.onL then s.trap 0x07 (parcels i)
     else s.spadTo i (windowOff ea) n d la f)
  else s.loadTo i ea n false d la f

/-- A float store. -/
def State.floatFrom (s : State) (i : Instr) (ea : Word) (n v : Nat) : State :=
  if inWindow ea then
    (if ea.toNat % n ≠ 0 then s.trap 0x09 ea
     else if s.me.onL then s.trap 0x07 (parcels i)
     else s.spadFrom i (windowOff ea) n v)
  else s.storeFrom i ea n v

end Sys2Proof.Machine
end

