-- ==== Sys2Proof/Machine/LoadStore.lean ====
section
/-!
DEFINITION. Loads, stores, atomics, reductions, prefetch, waiting on a word, and fences (chapter 09). Source registers are
read at issue (R190). A plain or releasing access may stay behind those that follow it and a load may bind its value early
(Machine/Order.lean; log entry 99); what `.rel`, `.acq` and fences order is in Machine/Ordering.lean. `.rel` and fences also report a store
that has failed (05 R116).
-/

namespace Sys2Proof.Machine

/-! ### Prefetch and monitors (09 R200, R206, R207) -/

/-- A prefetch asks for the sector where the address translates without a walk, a fault or an error response; else it is
dropped. `pfc` has no access size (R189), and an address that is not a multiple of 8 counts as misaligned (DESIGN CHOICE, log entry
91: a prefetch may be dropped for any reason). -/
def State.prefetch (s : State) (va : Word) : State :=
  let c := s.me.mctx s.cur
  let go := fun (pa leaf : Nat) =>
    let pa := s.fwd pa
    if regionOf leaf == .coh && isMem pa then
      match s.ask .coh c.ag pa false with
      | (s1, none) => s1.doGetS c.ag (secOf pa)
      | _ => s
    else s
  if va.toNat % 8 ≠ 0 ∨ inWindow va ∨ !canonical va then s
  else if !ptEn c.ptBase then (if c.mode && decide (va.toNat < 2 ^ 52) then go va.toNat bareLeaf else s)
  else match s.findTlb c va .load with
    | some x =>
      if (permCause .load c.mode x.leaf.toNat).isNone then go (x.pa + (va.toNat % 2 ^ 56 - x.va)) x.leaf.toNat else s
    | none => s

/-- The address a waiting `wmon` was issued with, if the current thread waits in one. -/
def Thread.wordEa (t : Thread) : Option Word :=
  match t.wait with
  | some (.wmon ea _ _) => some ea
  | _ => none

/-- A thread that waits on a word. -/
def Thread.onWord (t : Thread) : Bool := t.wordEa.isSome

/-- The word at an address for `wmon`, with the place its monitor watches. A second read that a locked table line holds up is made
later, at the same address. -/
def State.monitorLoad (s : State) (va : Word) (k : State → Nat → Wait → State) : State :=
  let c := s.me.mctx s.cur
  if va.toNat % 8 ≠ 0 then s.trap 0x08 va
  else match s.xlate c va .load with
    | (s1, .fault code) => s1.trap code va
    | (s1, .wait) => if s.me.onWord then s1 else s1.waitOn .walk
    | (s1, .ok pa leaf) =>
      match s1.physLoad c (regionOf leaf) pa 8 false with
      | (s2, .ok v) => k s2 v (.wmon va (s2.fwd pa) (regionOf leaf == .rsh))
      | (s2, .error code) => (s2.respond c pa code).trap 0x1A va

/-! ### Loads and stores of memory -/

/-- `LD`: 09 R189, R190, R195. -/
def execLd (z : LdSize) (g : BitVec 4) (d a : BitVec 5) (off : BitVec 7) (la : BitVec 4) (s : State) : Out :=
  s.lane (.ld z g d a off la) g false [.x d, .x a] [.x a] fun s =>
    s.loadTo (.ld z g d a off la) (mAddr (s.srcX 0 a) off z.bytes) z.bytes false (.x d) la z.extend

/-- `LD_X`: 09 R189, R190, R195. -/
def execLdX (z : LdSize) (g : BitVec 4) (d a : BitVec 5) (off : BitVec 17) (o : Order) (sc : Scope) (la : BitVec 4) (ru : BitVec 3) (s : State) : Out :=
  s.lane (.ldX z g d a off o sc la ru) g false [.x d, .x a] [.x a] fun s =>
    s.loadTo (.ldX z g d a off o sc la ru) (xAddr (s.srcX 0 a) off) z.bytes false (.x d) la z.extend

/-- `ST`: 09 R189, R190, R195. -/
def execSt (z : StSize) (g : BitVec 4) (d a : BitVec 5) (off : BitVec 7) (la : BitVec 4) (s : State) : Out :=
  s.lane (.st z g d a off la) g false [.x d, .x a] [.x d, .x a] fun s =>
    s.storeFrom (.st z g d a off la) (mAddr (s.srcX 0 a) off z.bytes) z.bytes (s.srcX 1 d).toNat

/-- `ST_X`: 09 R189, R190, R195. -/
def execStX (z : StSize) (g : BitVec 4) (d a : BitVec 5) (off : BitVec 17) (o : Order) (sc : Scope) (la : BitVec 4) (ru : BitVec 3) (s : State) : Out :=
  s.lane (.stX z g d a off o sc la ru) g false [.x d, .x a] [.x d, .x a] fun s =>
    s.released o (s.storeFrom (.stX z g d a off o sc la ru) (xAddr (s.srcX 0 a) off) z.bytes (s.srcX 1 d).toNat)

/-- `LDF_F32`: 09 R190, R193. -/
def execLdfF32 (g : BitVec 4) (d a : BitVec 5) (off : BitVec 7) (la : BitVec 4) (s : State) : Out :=
  s.lane (.ldfF32 g d a off la) g false [.f d, .x a] [.x a] fun s =>
    s.floatTo (.ldfF32 g d a off la) (mAddr (s.srcX 0 a) off 4) 4 (.f d) la (BitVec.ofNat 64)

/-- `LDF_64`: 09 R190, R193. -/
def execLdf64 (g : BitVec 4) (d a : BitVec 5) (off : BitVec 7) (la : BitVec 4) (s : State) : Out :=
  s.lane (.ldf64 g d a off la) g false [.f d, .x a] [.x a] fun s =>
    s.floatTo (.ldf64 g d a off la) (mAddr (s.srcX 0 a) off 8) 8 (.f d) la (BitVec.ofNat 64)

/-- `LDF_X`: 09 R190, R193. -/
def execLdfX (dbl : Bool) (g : BitVec 4) (d a : BitVec 5) (off : BitVec 17) (o : Order) (sc : Scope) (la : BitVec 4) (ru : BitVec 3) (s : State) : Out :=
  s.lane (.ldfX dbl g d a off o sc la ru) g false [.f d, .x a] [.x a] fun s =>
    s.floatTo (.ldfX dbl g d a off o sc la ru) (xAddr (s.srcX 0 a) off) (if dbl then 8 else 4) (.f d) la (BitVec.ofNat 64)

/-- `STF_F32`: 09 R190, R193. -/
def execStfF32 (g : BitVec 4) (d a : BitVec 5) (off : BitVec 7) (la : BitVec 4) (s : State) : Out :=
  s.lane (.stfF32 g d a off la) g false [.f d, .x a] [.f d, .x a] fun s =>
    s.floatFrom (.stfF32 g d a off la) (mAddr (s.srcX 0 a) off 4) 4 (s.srcF 1 d).toNat

/-- `STF_64`: 09 R190, R193. -/
def execStf64 (g : BitVec 4) (d a : BitVec 5) (off : BitVec 7) (la : BitVec 4) (s : State) : Out :=
  s.lane (.stf64 g d a off la) g false [.f d, .x a] [.f d, .x a] fun s =>
    s.floatFrom (.stf64 g d a off la) (mAddr (s.srcX 0 a) off 8) 8 (s.srcF 1 d).toNat

/-- `STF_X`: 09 R190, R193. -/
def execStfX (dbl : Bool) (g : BitVec 4) (d a : BitVec 5) (off : BitVec 17) (o : Order) (sc : Scope) (la : BitVec 4) (ru : BitVec 3) (s : State) : Out :=
  s.lane (.stfX dbl g d a off o sc la ru) g false [.f d, .x a] [.f d, .x a] fun s =>
    s.released o (s.floatFrom (.stfX dbl g d a off o sc la ru) (xAddr (s.srcX 0 a) off) (if dbl then 8 else 4) (s.srcF 1 d).toNat)

/-! ### Scratchpad -/

/-- `LDS`: 09 R192. -/
def execLds (z : LdSize) (g : BitVec 4) (d a : BitVec 5) (off : BitVec 7) (la : BitVec 4) (s : State) : Out :=
  s.lane (.lds z g d a off la) g true [.x d, .x a] [.x a] fun s =>
    s.spadTo (.lds z g d a off la) (mAddr (s.srcX 0 a) off z.bytes) z.bytes (.x d) la z.extend

/-- `LDS_X`: 09 R192. -/
def execLdsX (z : LdSize) (g : BitVec 4) (d a : BitVec 5) (off : BitVec 17) (o : Order) (sc : Scope) (la : BitVec 4) (ru : BitVec 3) (s : State) : Out :=
  s.lane (.ldsX z g d a off o sc la ru) g true [.x d, .x a] [.x a] fun s =>
    s.spadTo (.ldsX z g d a off o sc la ru) (xAddr (s.srcX 0 a) off) z.bytes (.x d) la z.extend

/-- `STS`: 09 R192. -/
def execSts (z : StSize) (g : BitVec 4) (d a : BitVec 5) (off : BitVec 7) (la : BitVec 4) (s : State) : Out :=
  s.lane (.sts z g d a off la) g true [.x d, .x a] [.x d, .x a] fun s =>
    s.spadFrom (.sts z g d a off la) (mAddr (s.srcX 0 a) off z.bytes) z.bytes (s.srcX 1 d).toNat

/-- `STS_X`: 09 R192. -/
def execStsX (z : StSize) (g : BitVec 4) (d a : BitVec 5) (off : BitVec 17) (o : Order) (sc : Scope) (la : BitVec 4) (ru : BitVec 3) (s : State) : Out :=
  s.lane (.stsX z g d a off o sc la ru) g true [.x d, .x a] [.x d, .x a] fun s =>
    s.released o (s.spadFrom (.stsX z g d a off o sc la ru) (xAddr (s.srcX 0 a) off) z.bytes (s.srcX 1 d).toNat)

/-! ### Indexed and non-caching forms -/

/-- `LDX`: 09 R189, R190, R195. -/
def execLdx (z : LdSize) (g : BitVec 4) (d a b : BitVec 5) (off : BitVec 17) (o : Order) (sc : Scope) (la : BitVec 4) (ru : BitVec 3) (s : State) : Out :=
  s.lane (.ldx z g d a b off o sc la ru) g false [.x d, .x a, .x b] [.x a, .x b] fun s =>
    s.loadTo (.ldx z g d a b off o sc la ru) (ixAddr (s.srcX 0 a) (s.srcX 1 b) off z.bytes) z.bytes false (.x d) la z.extend

/-- `STX`: 09 R189, R190, R195. -/
def execStx (z : StSize) (g : BitVec 4) (d a b : BitVec 5) (off : BitVec 17) (o : Order) (sc : Scope) (la : BitVec 4) (ru : BitVec 3) (s : State) : Out :=
  s.lane (.stx z g d a b off o sc la ru) g false [.x d, .x a, .x b] [.x d, .x a, .x b] fun s =>
    s.released o (s.storeFrom (.stx z g d a b off o sc la ru) (ixAddr (s.srcX 0 a) (s.srcX 1 b) off z.bytes) z.bytes (s.srcX 2 d).toNat)

/-- `LDNC`: 09 R199. -/
def execLdnc (z : LdSize) (g : BitVec 4) (d a : BitVec 5) (off : BitVec 17) (o : Order) (sc : Scope) (la : BitVec 4) (ru : BitVec 3) (s : State) : Out :=
  s.lane (.ldnc z g d a off o sc la ru) g false [.x d, .x a] [.x a] fun s =>
    s.loadTo (.ldnc z g d a off o sc la ru) (xAddr (s.srcX 0 a) off) z.bytes true (.x d) la z.extend

/-! ### Atomics -/

/-- `AMO`: 09 R201. -/
def execAmo (op : AmoOp) (wide : Bool) (g : BitVec 4) (d a b : BitVec 5) (off : BitVec 17) (o : Order) (sc : Scope) (la : BitVec 4) (ru : BitVec 3) (s : State) : Out :=
  s.lane (.amo op wide g d a b off o sc la ru) g false [.x d, .x a, .x b] [.x a, .x b] fun s =>
    let n := amoBits wide
    let v := (s.srcX 1 b).toNat % 2 ^ n
    let i := Instr.amo op wide g d a b off o sc la ru
    s.released o ((s.rmwBehind i (xAddr (s.srcX 0 a) off) (n / 8) v 0 .rmw (·.expected i (.x d) la s.nextId)).getD (State.after
      (s.dataRmw (s.me.mctx s.cur) (xAddr (s.srcX 0 a) off) (n / 8) (atHome sc) fun old => some (amoNew op n old v))
      fun s old => s.finishLate (lenOf i) (.x d) la (amoOld n old)))

/-- `CAS`: 09 R202. -/
def execCas (wide : Bool) (g : BitVec 4) (d a b : BitVec 5) (off : BitVec 17) (o : Order) (sc : Scope) (la : BitVec 4) (ru : BitVec 3) (s : State) : Out :=
  s.lane (.cas wide g d a b off o sc la ru) g false [.x d, .x a, .x b] [.x d, .x a, .x b] fun s =>
    let n := amoBits wide
    let cmp := (s.srcX 1 b).toNat % 2 ^ n
    let new := (s.srcX 2 d).toNat % 2 ^ n
    let i := Instr.cas wide g d a b off o sc la ru
    s.released o ((s.rmwBehind i (xAddr (s.srcX 0 a) off) (n / 8) new cmp .rmw (·.expected i (.x d) la s.nextId)).getD (State.after
      (s.dataRmw (s.me.mctx s.cur) (xAddr (s.srcX 0 a) off) (n / 8) (atHome sc) fun old => if old = cmp then some new else none)
      fun s old => s.finishLate (lenOf i) (.x d) la (amoOld n old)))

/-- `RED`: 09 R203; the operand of fadd is an f register. -/
def execRed (op : RedOp) (wide : Bool) (g : BitVec 4) (a b : BitVec 5) (off : BitVec 17) (o : Order) (sc : Scope) (la : BitVec 4) (ru : BitVec 3) (s : State) : Out :=
  let src := if op == .fadd then Dest.f b else Dest.x b
  s.lane (.red op wide g a b off o sc la ru) g false [src, .x a] [src, .x a] fun s =>
    let i := Instr.red op wide g a b off o sc la ru
    let v := (s.src 1 src).toNat % 2 ^ redWidth wide
    s.released o ((s.rmwBehind i (xAddr (s.srcX 0 a) off) (redWidth wide / 8) v 0 .store (·.complete (lenOf i))).getD (State.after
      (s.dataRed (s.me.mctx s.cur) (xAddr (s.srcX 0 a) off) op wide v)
      fun s _ => s.finish (lenOf i)))

/-! ### Prefetch, waiting on a word, fences -/

/-- `PFC`: 09 R200. -/
def execPfc (g : BitVec 4) (a : BitVec 5) (off : BitVec 17) (la : BitVec 4) (ru : BitVec 3) (s : State) : Out :=
  s.lane (.pfc g a off la ru) g false [.x a] [.x a] fun s =>
    (s.prefetch (xAddr (s.srcX 0 a) off)).finish (lenOf (.pfc g a off la ru))

/-- `WMON`: 09 R206; the address is computed once, and after a wake event the word there is read once more, whatever it holds. -/
def execWmon (g : BitVec 4) (d a b : BitVec 5) (off : BitVec 17) (o : Order) (sc : Scope) (la : BitVec 4) (ru : BitVec 3) (s : State) : Out :=
  s.lane (.wmon g d a b off o sc la ru) g false [.x d, .x a, .x b] [.x a, .x b] fun s =>
    s.monitorLoad (s.me.wordEa.getD (xAddr (s.srcX 0 a) off)) fun s1 v w =>
      if s.me.onWord ∨ v ≠ (s.srcX 1 b).toNat then s1.finishLate (lenOf (.wmon g d a b off o sc la ru)) (.x d) la (BitVec.ofNat 64 v)
      else s1.waitOn w

/-- `WMON_WAKE`: 09 R207: the wake event of a waiting thread, which a write or a loss of the sector has noted as 1, ends its wait: the
thread is to read the word again, noted as 2. -/
def execWmonWake (t : Nat) (s : State) : Out :=
  .next (if (s.thr t).onWord && (s.thr t).rel == some 1 then s.updThr t fun x => { x with rel := some 2 } else s)

/-- `WMON_TIMEOUT`: 09 R207: 65,536 clocks have passed since the wait began. -/
def execWmonTimeout (t : Nat) (s : State) : Out :=
  .next (if (s.thr t).onWord && s.clocksLeft t == 0 then s.updThr t fun x => { x with rel := some 2 } else s)

/-- `FENCE`: 09 R208. -/
def execFence (sc : Scope) (s : State) : Out :=
  s.lane (.fence sc) always false [] [] fun s =>
    match s.me.deferred with
    | some va => s.takeDeferred va
    | none => s.finish (lenOf (.fence sc))

/-- `FENCE_SC`: 09 R208, 13 R291. -/
def execFenceSc (sc : Scope) (s : State) : Out :=
  s.lane (.fenceSc sc) always false [] [] fun s =>
    match s.me.deferred with
    | some va => s.takeDeferred va
    | none => s.finish (lenOf (.fenceSc sc))

end Sys2Proof.Machine
end

