-- ==== Sys2Proof/Machine/LaneOps.lean ====
section
/-!
DEFINITION. Lane operations (11 R247 to R253): arrivals, matching with partners, lane-wait cycles, and the results over a set
of lanes.
-/

namespace Sys2Proof.Machine

/-! ### Partners (11 R248) -/

/-- The thread of a lane that is still a member of a workgroup. -/
def State.laneOf (s : State) (w n : Nat) : Option Nat := (s.threads.find? fun t => t.2.wg == w && t.2.lane == n && !t.2.left).map (·.1)

/-- The lanes a mask names, other than the caller, within its aligned group of 64. -/
def named (lane : Nat) (mask : Word) : List Nat :=
  ((List.range 64).filter (mask.getLsbD ·)).map (lane / 64 * 64 + ·) |>.filter (· != lane)

/-- Partners of a wait that are neither matched nor absent. -/
def State.pending (s : State) (t : Thread) : List Nat :=
  match t.laneWait with
  | some w => w.want.filter fun n => (s.laneOf t.wg n).isSome
  | none => []

/-- A thread waits at a lane operation. -/
def Thread.onLane (t : Thread) : Bool :=
  match t.wait with
  | some .lane => true
  | _ => false

/-! ### Arrivals (11 R249) -/

/-- A partner's arrival reaches a caller that waits for it at the same address. -/
def LaneWait.meet (w : LaneWait) (lane : Nat) (a : Arrival) : LaneWait :=
  if a.here then { w with want := w.want.filter (· != lane), got := w.got ++ [(lane, a.val)], met := lane :: w.met }
  else { w with want := w.want.filter (· != lane), absent := true, met := lane :: w.met }

/-- A caller that waits for this lane at this address. -/
def Thread.expects (t : Thread) (wg lane : Nat) (addr : Word) : Bool :=
  t.onLane && t.wg == wg && match t.laneWait with
    | some w => w.addr == addr && w.want.contains lane
    | none => false

/-- A lane arrives: the callers that wait for it are matched, and the arrival is kept as the lane's latest. -/
def State.arriveLane (s : State) (here : Bool) (val : Word) : State :=
  let t := s.me
  let a : Arrival := ⟨t.pc, here, val, []⟩
  let hit := fun (x : Nat × Thread) => x.1 != s.cur && x.2.expects t.wg t.lane t.pc
  let seen := (s.threads.filter hit).map fun x => x.2.lane
  { s with threads := s.threads.map fun x =>
      if x.1 = s.cur then (x.1, { x.2 with arrival := some { a with seen := seen } })
      else if hit x then (x.1, { x.2 with laneWait := x.2.laneWait.map fun w => w.meet t.lane a })
      else x }

/-- The caller is matched with one named partner, or waits for it. -/
def State.meetOne (s : State) (w : LaneWait) (n : Nat) : State × LaneWait :=
  let t := s.me
  match s.laneOf t.wg n with
  | none => (s, { w with absent := true })
  | some k =>
    match (s.thr k).arrival with
    | some a =>
      if a.addr = w.addr ∧ !a.seen.contains t.lane then
        (s.updThr k fun x => { x with arrival := some { a with seen := t.lane :: a.seen } }, w.meet n a)
      else (s, { w with want := w.want ++ [n] })
    | none => (s, { w with want := w.want ++ [n] })

/-- The caller is matched with its named partners in ascending order. -/
def State.meetAll (s : State) (w : LaneWait) : List Nat → State × LaneWait
  | [] => (s, w)
  | n :: t =>
    let r := s.meetOne w n
    State.meetAll r.1 r.2 t

/-! ### Results (11 R251) -/

/-- A lane and its value, in ascending LANE_ID. -/
def insertLane (x : Nat × Word) : List (Nat × Word) → List (Nat × Word)
  | [] => [x]
  | y :: t => if x.1 ≤ y.1 then x :: y :: t else y :: insertLane x t

/-- The lanes present, in ascending LANE_ID. -/
def presentOf (self : Nat × Word) (got : List (Nat × Word)) : List (Nat × Word) := got.foldl (fun l x => insertLane x l) [self]

/-- One step of a reduction over lanes, with the flags a float step sets. -/
def lredStep (op : LredOp) (a b : Word) : Word × BitVec 5 :=
  match op with
  | .add => (a + b, 0)
  | .min => (if a.sle b then a else b, 0)
  | .max => (if a.sle b then b else a, 0)
  | .minn => (if a.ule b then a else b, 0)
  | .maxn => (if a.ule b then b else a, 0)
  | .and => (a &&& b, 0)
  | .or => (a ||| b, 0)
  | .xor => (a ^^^ b, 0)
  | .fadd => let r := faddE .f32 .ne (a.toNat % 2 ^ 32) (b.toNat % 2 ^ 32); (BitVec.ofNat 64 r.1, r.2)
  | .fmin => let r := fminmaxE .f32 false (a.toNat % 2 ^ 32) (b.toNat % 2 ^ 32); (BitVec.ofNat 64 r.1, r.2)
  | .fmax => let r := fminmaxE .f32 true (a.toNat % 2 ^ 32) (b.toNat % 2 ^ 32); (BitVec.ofNat 64 r.1, r.2)

/-- Float reductions work on f registers. -/
def lredIsF : LredOp → Bool
  | .fadd | .fmin | .fmax => true
  | _ => false

/-- `lred` over the lanes present. -/
def lredAll (op : LredOp) (l : List (Nat × Word)) : Word × BitVec 5 :=
  match l with
  | [] => (0, 0)
  | x :: t => t.foldl (fun r y => let q := lredStep op r.1 y.2; (q.1, r.2 ||| q.2))
      (if lredIsF op then (x.2.setWidth 32).setWidth 64 else x.2, 0)

/-- A match that the trap entry of a gang's member interrupts is undone: its caller waits for the lane again (11 R249). -/
def LaneWait.lose (w : LaneWait) (lane : Nat) : LaneWait :=
  { w with want := lane :: w.want, got := w.got.filter (·.1 != lane), met := w.met.erase lane }

/-- A member of a gang completes its lane operation; as it would wait at it is kept until the gang closes. -/
def State.noteLane (s : State) (w : LaneWait) : State :=
  match s.gang with
  | some g => { s with gang := some { g with lanes := (s.cur, { s.me with wait := some .lane, laneWait := some w }) :: g.lanes } }
  | none => s

/-- An arrival that the trap entry of a gang's member interrupts is none: the callers it was matched with that still wait, or that are
members of the gang, wait for the lane's next one (11 R249). -/
def State.unarrive (s : State) (g : Gang) (k : Nat) : State :=
  let t := s.thr k
  let a := (t.arrival.map (·.seen)).getD []
  { s with threads := s.threads.map fun x =>
      if x.2.wg = t.wg ∧ x.1 ≠ k ∧ a.contains x.2.lane then
        let y := if x.2.onLane then x.2 else ((tget g.lanes x.1).map fun u => { u with arrival := x.2.arrival }).getD x.2
        match y.laneWait with
        | some w => if w.addr = t.pc ∧ w.met.contains t.lane then (x.1, { y with laneWait := some (w.lose t.lane) }) else x
        | none => x
      else x }

/-- The members of a gang that wait at a lane operation as others raise a cause lose their arrivals, and so do those that then wait for them
(11 R249, 18 R398). -/
def State.cutLanes (s : State) (g : Gang) (ms : List Nat) : Nat → List Nat → State
  | 0, _ => s
  | n + 1, cut =>
    match ms.find? fun k => !cut.contains k && (s.thr k).onLane && !(s.pending (s.thr k)).isEmpty with
    | some k => State.cutLanes (s.unarrive g k) g ms n (k :: cut)
    | none => s

/-- What a lane operation computes from the caller, the lanes present and the status. -/
abbrev LaneRes := Nat × Word → List (Nat × Word) → Bool → Word × BitVec 5

/-- `lxch`: the partner's value, or the caller's own. -/
def lxchRes : LaneRes := fun self l st => (if st then ((l.find? (·.1 != self.1)).map (·.2)).getD self.2 else self.2, 0)
/-- `lsel`: the value of the lowest lane present. -/
def lselRes : LaneRes := fun self l _ => ((l.head?.map (·.2)).getD self.2, 0)
/-- `lvote`: a bit for every lane present whose predicate is true. -/
def lvoteRes : LaneRes := fun _ l _ => (l.foldl (fun w x => if x.2 = 0 then w else w ||| BitVec.ofNat 64 (2 ^ (x.1 % 64))) 0, 0)
/-- `lred`. -/
def lredRes (op : LredOp) : LaneRes := fun _ l _ => lredAll op l

/-! ### The operation -/

/-- The caller completes with the lanes it has matched. -/
def State.laneDone (s : State) (len : Nat) (d : Dest) (c : BitVec 3) (val : Word) (w : LaneWait) (f : LaneRes) : State :=
  let self := (s.me.lane, val)
  let st := !w.absent
  let r := f self (presentOf self w.got) st
  s.updMe fun t => (((t.raise r.2).put d r.1).setP c st).complete len

/-- A lane operation whose guard is true. `single` is `lxch`, which names exactly one partner. A wait that is over, with every
partner matched or absent, completes with what it has. -/
def State.laneOp (s : State) (i : Instr) (d : Dest) (c : BitVec 3) (mask val : Word) (single : Bool) (f : LaneRes) : State :=
  let t := s.me
  if t.onL then
    (if mask.toNat / 2 ≠ 0 then s.trap 0x07 (parcels i)
     else s.laneDone (lenOf i) d c val ⟨i, t.pc, [], [], single, none, []⟩ f)
  else match t.laneWait with
    | some w =>
      let p := s.pending t
      if p.isEmpty then
        s.laneDone (lenOf i) d c ((t.arrival.map (·.val)).getD val) { w with absent := w.absent || !w.want.isEmpty } f
      else s.waitOn .lane
    | none =>
      let prev := t.arrival
      let s1 := s.arriveLane true val
      let ns := named t.lane mask
      if single && ns.length != 1 then s1.laneDone (lenOf i) d c val ⟨i, t.pc, [], [], true, none, []⟩ f
      else
        let r := s1.meetAll ⟨i, t.pc, [], [], false, prev, []⟩ ns
        if r.2.want.isEmpty then (r.1.noteLane r.2).laneDone (lenOf i) d c val r.2 f
        else r.1.updMe fun t => { t with wait := some .lane, laneWait := some r.2 }

/-- The frame of a lane operation: as for every encoded instruction, but that a lane whose guard is false arrives too, as
absent (11 R249). -/
def laneFrame (i : Instr) (g : BitVec 4) (rs rd : List Dest) (eff : State → State) (s : State) : Out :=
  match tget s.threads s.cur with
  | some t =>
    if rs.all t.inBudget && !t.guard g && !t.onL then .next ((s.arriveLane false 0).finish (lenOf i))
    else s.lane i g false rs rd eff
  | none => s.lane i g false rs rd eff

/-- Where a lane operation puts its result and its status, and what it computes. -/
def laneSpec : Instr → Option (Dest × BitVec 3 × LaneRes)
  | .lxch isF _ d _ _ pc _ => some (if isF then .f d else .x d, pc, lxchRes)
  | .lsel isF _ d _ _ pc _ => some (if isF then .f d else .x d, pc, lselRes)
  | .lvote _ d _ _ pc _ => some (.x d, pc, lvoteRes)
  | .lred op _ d _ _ pc _ => some (if lredIsF op then .f d else .x d, pc, lredRes op)
  | _ => none

/-- A waiting caller whose named partners are all matched or absent completes: at once, whatever comes to it next (11 R249). -/
def State.finishLane (s : State) (k : Nat) : State :=
  let t := s.thr k
  match t.laneWait with
  | some w =>
    (match laneSpec w.instr with
     | some (d, c, f) =>
       if t.onLane && (s.pending t).isEmpty then
         { ({ s with cur := k } : State).laneDone (lenOf w.instr) d c ((t.arrival.map (·.val)).getD 0)
             { w with absent := w.absent || !w.want.isEmpty } f with cur := s.cur }
       else s
     | none => s)
  | none => s

/-! ### Lane-wait cycles (11 R250) -/

/-- Members of a set that have an unmatched partner outside it, or waiting at the same address, leave it. -/
def State.cycleTrim (s : State) (w : Nat) (ks : List Nat) : List Nat :=
  ks.filter fun k =>
    let t := s.thr k
    (s.pending t).all fun n => match s.laneOf w n with
      | some p => ks.contains p && ((s.thr p).laneWait.map (·.addr)) != (t.laneWait.map (·.addr))
      | none => true

/-- Trimming until nothing leaves. -/
def State.cycleFix (s : State) (w : Nat) : Nat → List Nat → List Nat
  | 0, ks => ks
  | n + 1, ks => State.cycleFix s w n (s.cycleTrim w ks)

/-- The lane-wait cycle of a workgroup: empty when there is none. -/
def State.laneCycle (s : State) (w : Nat) : List Nat :=
  let ks := (s.threads.filter fun t => t.2.wg == w && t.2.onLane && !(s.pending t.2).isEmpty).map (·.1)
  s.cycleFix w ks.length ks

/-! ### Meanings -/

/-- `LXCH`: 11 R247 to R251; the `.f` form moves all 64 bits. -/
def execLxch (isF : Bool) (g : BitVec 4) (d a b : BitVec 5) (pc ru : BitVec 3) (s : State) : Out :=
  laneFrame (.lxch isF g d a b pc ru) g [(if isF then Dest.f d else .x d), (if isF then Dest.f a else .x a), .x b] [(if isF then Dest.f a else .x a), .x b] (fun s =>
    s.laneOp (.lxch isF g d a b pc ru) (if isF then Dest.f d else .x d) pc (s.srcX 1 b) (s.src 0 (if isF then Dest.f a else .x a)) true lxchRes) s

/-- `LSEL`: 11 R247 to R251. -/
def execLsel (isF : Bool) (g : BitVec 4) (d a b : BitVec 5) (pc ru : BitVec 3) (s : State) : Out :=
  laneFrame (.lsel isF g d a b pc ru) g [(if isF then Dest.f d else .x d), (if isF then Dest.f a else .x a), .x b] [(if isF then Dest.f a else .x a), .x b] (fun s =>
    s.laneOp (.lsel isF g d a b pc ru) (if isF then Dest.f d else .x d) pc (s.srcX 1 b) (s.src 0 (if isF then Dest.f a else .x a)) false lselRes) s

/-- `LVOTE`: 11 R247 to R251. -/
def execLvote (g : BitVec 4) (d : BitVec 5) (a : BitVec 3) (b : BitVec 5) (pc ru : BitVec 3) (s : State) : Out :=
  laneFrame (.lvote g d a b pc ru) g [.x d, .x b] [.x b] (fun s =>
    s.laneOp (.lvote g d a b pc ru) (.x d) pc (s.srcX 1 b) (if s.me.getP a then 1 else 0) false lvoteRes) s

/-- `LRED`: 11 R251: FP32 steps round RNE and set the caller's flags. -/
def execLred (op : LredOp) (g : BitVec 4) (d a b : BitVec 5) (pc ru : BitVec 3) (s : State) : Out :=
  laneFrame (.lred op g d a b pc ru) g [(if lredIsF op then Dest.f d else .x d), (if lredIsF op then Dest.f a else .x a), .x b] [(if lredIsF op then Dest.f a else .x a), .x b] (fun s =>
    s.laneOp (.lred op g d a b pc ru) (if lredIsF op then Dest.f d else .x d) pc (s.srcX 1 b) (s.src 0 (if lredIsF op then Dest.f a else .x a)) false (lredRes op)) s

/-- `LANE_WAIT_CYCLE`: 11 R250: every unmatched partner of every member is absent. -/
def execLaneWaitCycle (w : Nat) (s : State) : Out :=
  let ks := s.laneCycle w
  .next { s with threads := s.threads.map fun t =>
    if ks.contains t.1 then (t.1, { t.2 with laneWait := t.2.laneWait.map fun w => { w with want := [], absent := true } }) else t }

end Sys2Proof.Machine
end

