-- ==== Sys2Proof/Machine/Move.lean ====
section
/-!
DEFINITION. How a thread moves (15 R334 to R337; 18 R402): its place operand, the drain before it leaves, the send, and the
context record that an L-die writes into its arrival queue (15 R345, 18 R415).
-/

namespace Sys2Proof.Machine

/-! ### Places (15 R334) -/

/-- KIND. -/
def placeKind (p : Word) : Nat := p.toNat % 8
/-- DIE. -/
def placeDie (p : Word) : Nat := p.toNat / 2 ^ 8 % 16
/-- COURSE. -/
def placeCourse (p : Word) : Nat := p.toNat / 2 ^ 12 % 8
/-- A place of an L-core. -/
def placeL (p : Word) : Bool := placeKind p == 0 || placeKind p == 4

/-- A place that keeps the layout of R334. -/
def placeOk (p : Word) : Bool :=
  let k := placeKind p
  let d := placeDie p
  let f := placeFill p
  decide (k ≤ 4) && (p.toNat / 2 ^ 3 % 2 ^ 5 == 0) && (p.toNat / 2 ^ 15 % 2 == 0) && (p.toNat / 2 ^ 23 % 2 == 0) &&
  decide (p.toNat < 2 ^ 40) && (k == 3 || placeCourse p == 0) &&
  (if k = 2 ∨ k = 3 then decide (2 ≤ d ∧ d ≤ 9) else if k = 4 then decide (d ≤ 1) else d == 0) &&
  (f == 0 && placeTimer p == 0 || decide (4 ≤ f ∧ f ≤ 64 ∧ f % 4 = 0))

/-- A thread is already where a place asks (15 R335). -/
def Thread.at (t : Thread) (p : Word) : Bool :=
  let k := placeKind p
  if placeL p then t.onL && (k == 0 || dieId t.die == placeDie p)
  else !t.onL && (k == 1 || dieId t.die == placeDie p) && (k != 3 || courseOfCore t.core % 8 == placeCourse p)

/-- Some core of the place's class is online in a package. -/
def State.classOn (s : State) (pkg : Nat) (p : Word) : Bool := if placeL p then s.lCoreOn pkg else s.sCoreOn pkg

/-! ### Leaving (15 R335, R402) -/

/-- An invocation of a thread that has not reached its mark's entry or its place (17 R382). -/
def State.rinvOut (s : State) (tid : Word) : Bool :=
  s.msgs.any fun m => match m with
    | .enqueue q _ => ((s.markAt q).map (·.holder)) == some tid
    | .invoke _ q => match s.markAt q with
      | some e => e.holder == tid && !((e.inv.map fun v => isMark v.place).getD false)
      | none => false
    | .orphan _ _ e => e.holder == tid && !((e.inv.map fun v => isMark v.place).getD false)
    | _ => false

/-- The thread drains, and is then to be sent to a place; it executes its instruction again until the drain is over. -/
def State.depart (s : State) (p : Word) (dst : BitVec 5) (resume : Word) (kind : Nat) : State :=
  let t := s.me
  match t.reports.head?, t.deferred with
  | some r, _ => if t.drained then s.takeReport r else s.waitOn .drain
  | none, some va => if t.drained then s.takeDeferred va else s.waitOn .drain
  | none, none =>
    if !t.drained || !t.flushAll.pend.isEmpty || s.rinvOut (s.tidOf t) then s.waitOn .drain
    else s.updMe fun t => { t.flushAll with move := some ⟨p, dst, resume, kind⟩, wait := some .send }

/-- Threads on their way to a die. -/
def State.inbound (s : State) (d : Nat) : Nat :=
  (s.msgs.filter fun m => match m with
    | .thread e _ => e == d
    | _ => false).length

/-- The die can take one more thread: an arrival queue with room (15 R321, R345). -/
def State.roomAt (s : State) (d : Nat) : Bool :=
  if isSDie d then decide ((s.die d).arrivals.length + s.inbound d < 4096) else decide (s.inbound d < (s.die d).arq.room)

/-- The die a moving thread goes to (15 R335, R345, R474). One that has waited long enough for the S-die it names, while the arrival
queue there is full, goes to another of the package that has room; how long is open (R335; log entry 4). -/
def State.destOf (s : State) (t : Thread) (m : Move) : Option Nat :=
  let d := t.pkg * 16 + placeDie m.place
  let any := s.pickS t.pkg t.die t.asid m.resume t.sclass
  match placeKind m.place with
  | 0 => s.pickL t.pkg
  | 4 => if s.dieOn d then some d else s.pickL t.pkg
  | 1 => any
  | _ =>
    if !s.dieOn d then any
    else if s.roomAt d || !Config.binWait s.seq then some d
    else ((s.sDies t.pkg).find? s.roomAt).or (some d)

/-- A thread as it travels: it has no workgroup and no arrival any more (11 R248, R249), and leases are settled (19 R425). A `migrate`
completes as it goes, with the loop end of its address (14 R308; DEDUCED, log entry 92); a `sys` and a forwarded trap are resumed as
their rules say. -/
def Thread.sent (t : Thread) (m : Move) (remote : List (Nat × Bool)) : Thread :=
  let u := if m.kind = 0 then t.complete 4 else { t with pc := m.resume, entered := true }
  { u with place := .flight, wg := 0, lane := 0, wait := none, boostTok := settleTok t.boostTok, remote := remote,
           arrival := none }

/-- MIGRATE_SEND: the thread leaves its workgroup or its context and is sent (15 R335); its accesses have been performed (13 R296). -/
def State.sendThread (s : State) (k : Nat) : State :=
  let t := s.thr k
  match t.wait, t.move with
  | some .send, some m =>
    match s.destOf t m with
    | none => s
    | some d =>
      if !s.roomAt d then s
      else if t.onL then
        let s1 := (s.performFor [k]).identify k
        let t1 := s1.thr k
        let r := s1.remoteOf t1
        let s2 := { s1 with away := tdel s1.away t1.tid.toNat }
        let s3 := (s2.updCtx t.ctxKey fun c => { c with thread := none }).updPkg t.pkg fun p =>
          { p with remote := tdel p.remote t1.tid.toNat }
        (s3.setThr k (t1.sent m r)).send (.thread d k)
      else
        (((s.performFor [k]).leaveWg k).updThr k fun t => t.sent m t.remote).send (.thread d k)
  | _, _ => s

/-! ### Context records (18 R415) -/

/-- STATUS (07 R161). -/
def Thread.status (t : Thread) : Word :=
  BitVec.ofNat 64 ((if t.mode then 1 else 0) + (if t.pmode then 2 else 0) + (if t.onL then 0 else 4) + t.sclass.toNat * 8)
/-- CAUSE (18 R393). -/
def Cause.word (c : Cause) : Word := BitVec.ofNat 64 (c.code.toNat + c.pos.toNat * 2 ^ 8 + (if c.self then 2 ^ 16 else 0))
/-- ROLE (07 R161). -/
def Role.word (r : Role) : Word :=
  BitVec.ofNat 64 (r.kind.toNat + (if r.copy then 4 else 0) + r.xregs.toNat * 8 + r.fregs.toNat * 64)
/-- OC (07 R155) of some counts. -/
def ocWord (copy matrix walker remote : Nat) : Word :=
  BitVec.ofNat 64 (copy + matrix * 2 ^ 8 + walker * 2 ^ 16 + remote * 2 ^ 24)

/-- The doublewords of a context record, from offset 0 on; `kind`, `isNew` and `asked` are the fields of 15 R345. -/
def Thread.record (t : Thread) (oc : Word) (kind : Nat) (isNew : Bool) (asked : Nat) : List Word :=
  t.pc :: t.x.toList.drop 1 ++ t.f.toList ++
  [t.predImage, t.lp0.start, t.lp0.last, t.lp0.count.setWidth 64, t.lp1.start, t.lp1.last, t.lp1.count.setWidth 64, oc,
   t.frm.setWidth 64, t.fflags.setWidth 64, if t.force then 1 else 0, t.status, t.cause.word, t.epc, t.tval, t.faultMask,
   t.asid.setWidth 64, t.ptBase, t.errAddr, t.errCause, t.boostTok, t.tid, t.launch, t.role.word] ++ t.bk.toList ++
  [if t.restart.isSome then 1 else 0, match t.arrival with
    | some a => a.addr ||| 1
    | none => 0,
   BitVec.ofNat 64 (kind + if isNew then 4 else 0), BitVec.ofNat 64 asked]

/-- The 1,024 bytes of a record: doublewords, then zeros. -/
def recordBytes (ws : List Word) : List Byte :=
  let b := ws.flatMap fun w => bytesOf 8 w.toNat
  b ++ List.replicate (1024 - b.length) 0

/-- Offset 0x318 of a record for a place operand of `migrate`: the DIE_ID a place names. -/
def askedOf (p : Word) : Nat := if placeKind p = 4 then placeDie p + 0xFF00 else 0xFFFF

/-- A thread as it arrives at an L-core (15 R335, R345; 18 R402): the status of a `migrate` is written, and a forwarded trap
starts at the TVEC of the die's first L-core (log entry 17). -/
def State.atL (s : State) (d : Nat) (t : Thread) : Thread :=
  match t.move with
  | some m =>
    if m.kind = 0 then t.put (.x m.dst) (if placeKind m.place = 4 ∧ dieId d ≠ placeDie m.place then 1 else 0)
    else if m.kind = 1 then { t with pc := (s.core (d * 64)).tvec }
    else t
  | none => t

/-- Writes an arrival's record, advances ARQ_HEAD, and leaves the thread to system software; an error response disables the
queue, is logged, and the arrival is held (15 R345). The mark it is to resolve names the die (17 R384). The package's table of remote
counts takes what it brings, also where 16,384 entries are in use: 07 R473 does not say what happens then, and the model adds one more
(DESIGN CHOICE, log entry 93). -/
def State.writeArrival (s : State) (d i k : Nat) (kind asked : Nat) : State :=
  let t := s.thr k
  let r := (s.die d).arq
  let u := { s.atL d t with place := .ctx (pkgOfDie d) (dieId d * 72), role := Role.full }
  let ws := u.record (ocWord 0 0 0 t.remote.length) kind (!t.kobj) asked
  let w := s.homeWrite (dieAgent d) (r.base + 1024 * (r.head.toNat % 2 ^ r.log2n)) (recordBytes ws)
  match w.2 with
  | some (c, a) => (w.1.logErr d (BitVec.ofNat 64 a) c 0 t.tid).updDie d fun x => { x with arq := { x.arq with en := false } }
  | none =>
    let s1 := (w.1.updDie d fun x => { x with arq := { x.arq with head := x.arq.head + 1 } }).placeMark t d
    let s2 := s1.updPkg (pkgOfDie d) fun p => if t.remote.isEmpty then p else { p with remote := tset p.remote t.tid.toNat t.remote }
    { s2.takeMsg i with
      threads := tdel s2.threads k
      away := if t.spawned || t.mark.isSome then tset s2.away t.tid.toNat ⟨t.spawned, t.mark, t.resolved, t.link, t.index, t.cancelled, t.stops, d, t.boostTok⟩ else s2.away }

/-- The place of an invocation at an L-core, as offset 0x318 of its record (15 R345, 17 R377). -/
def askedInv (p : Word) : Nat :=
  if isMark p then 0xFFFF
  else if placeKind p = 3 then placeDie p + p.toNat / 2 ^ 16 % 2 ^ 6 * 256 else 0xFFFF

/-- The record of an invocation that has become a thread is written; where that fails the invocation stays under way. -/
def State.arqInvoke (s : State) (d i : Nat) (e : Mark) (r : State × Nat) : State :=
  let s1 := r.1.writeArrival d i r.2 2 (askedInv ((e.inv.map (·.place)).getD 0))
  if (tget s1.threads r.2).isSome then { s with dies := s1.dies } else s1

/-- One arrival at an L-die is written where the queue has room. An invocation waits for an identifier and for an older one of its
issuer to its mark (17 R379, R382), and is discarded where its mark is final or a cancel is to reach it, but for an orphan; a failed write of
one takes no identifier. -/
def State.arqTry (s : State) (d i : Nat) : Option State :=
  match s.msgs[i]? with
  | some (.thread e k) =>
    if e != d then none
    else (s.thr k).move.map fun m => s.writeArrival d i k m.kind (askedOf m.place)
  | some (.invoke e0 m) =>
    if e0 != d then none
    else match s.markAt m with
      | none => some (s.takeMsg i)
      | some e =>
        if e.discards then some (s.takeMsg i)
        else if s.cancelComes m then some ((s.takeMsg i).breakMark m cCancelled m)
        else if s.olderInvoke e then none
        else (s.invokeAt d m).map (s.arqInvoke d i e)
  | some (.orphan e0 m e) => if e0 != d then none else (s.invokeOrphan d m e).map (s.arqInvoke d i e)
  | _ => none

/-- ARRIVAL_QUEUE_WRITE: the first arrival at an L-die that can be written is (15 R345). -/
def State.arqStep (s : State) (d : Nat) : Option State :=
  if (s.die d).arq.room = 0 || !s.dieUp d then none else (List.range s.msgs.length).findSome? (s.arqTry d)

end Sys2Proof.Machine
end

