-- ==== Sys2Proof/Machine/System.lean ====
section
/-!
DEFINITION. System instructions (18 R404 to R409), control registers (07 R157 to R163), interrupts and signals (18 R410,
15 R337), and the writeback of a long-latency result (02 R41).
-/

namespace Sys2Proof.Machine

/-! ### Reads of control registers (07 R160 to R163) -/

/-- MSTAT (12 R255). -/
def WG.mstat (g : WG) : Word := BitVec.ofNat 64 (g.mflags.toNat + g.held.length * 2 ^ 8)
/-- SP_BASE (06 R126). -/
def WG.spWord (g : WG) : Word := BitVec.ofNat 64 (g.spBase + g.spSize * 2 ^ 32)
/-- OC of a thread (07 R155). -/
def State.ocOf (s : State) (t : Thread) : Word :=
  ocWord (s.count t .copy) (s.count t .matrix) (s.count t .walker) (s.count t .remote)

/-- A register that describes an S-core; an L-core reads `l` (07 R162). -/
def Thread.onS (t : Thread) (l v : Word) : Word := if t.onL then l else v

/-- What a control register reads as, for a thread. -/
def State.csr (s : State) (t : Thread) (n : BitVec 12) : Word :=
  let g := s.wg t.wg
  let k := s.course (courseOfCore t.core)
  match n.toNat with
  | 0x001 => t.frm.setWidth 64
  | 0x002 => t.fflags.setWidth 64
  | 0x003 => BitVec.ofNat 64 ((if t.force then 1 else 0) + if t.locked then 2 else 0)
  | 0x400 => t.onS 0 g.spWord
  | 0x401 => t.onS Role.full.word t.role.word
  | 0x402 => t.errAddr
  | 0x403 => t.errCause
  | 0x404 => t.onS 0 g.mstat
  | 0x405 => s.tokOf t
  | 0x406 => t.onS 0 k.groutCnt
  | 0x407 => t.onS 0 k.groutUseful
  | 0x408 => t.onS 0 k.throttle
  | 0x800 => t.status
  | 0x801 => t.cause.word
  | 0x802 => t.epc
  | 0x803 => t.tval
  | 0x804 => (s.core t.core).tvec
  | 0x805 => t.faultMask
  | 0x806 => t.asid.setWidth 64
  | 0x807 => t.ptBase
  | 0x808 => (s.die t.die).mkspill
  | 0x810 => t.lp0.start
  | 0x811 => t.lp0.last
  | 0x812 => t.lp0.count.setWidth 64
  | 0x813 => t.lp1.start
  | 0x814 => t.lp1.last
  | 0x815 => t.lp1.count.setWidth 64
  | 0xC00 => s.tidOf t
  | 0xC01 => t.onS 0 (BitVec.ofNat 64 t.lane)
  | 0xC02 => t.onS 0 (BitVec.ofNat 64 g.wgId)
  | 0xC03 => t.onS 1 (BitVec.ofNat 64 g.size)
  | 0xC04 => BitVec.ofNat 64 (coreId t.core)
  | 0xC05 => t.onS 0xFFFF (BitVec.ofNat 64 (courseOfCore t.core % 8))
  | 0xC06 => BitVec.ofNat 64 (dieId t.die)
  | 0xC07 => BitVec.ofNat 64 t.pkg
  | 0xC08 => s.launchOf t
  | 0xC09 => s.ocOf t
  | 0xC0A => t.onS 0 ((s.core t.core).tcfg.setWidth 64)
  | 0xC0B => t.onS 0 k.imb
  | 0xC0C => s.timeOf t.pkg
  | 0xC0D => BitVec.ofNat 64 (s.clocksOf t.core)
  | _ => 0

/-! ### Writes of control registers -/

/-- A level that a write leaves active out of order, or not at word addresses, becomes inactive (07 R154). -/
def Loop.checked (l : Loop) : Loop :=
  if l.active && (decide (l.last < l.start) || l.start.toNat % 4 != 0 || l.last.toNat % 4 != 0) then { l with count := 0 } else l

/-- MKSPILL as a write leaves it (17 R375). -/
def spillOf (v : Word) : Word :=
  let w := v &&& 0x000FFFFFFFFFF03F
  if decide (16 ≤ spillLog w ∧ spillLog w ≤ 24) && spillBase w % (128 * 2 ^ spillLog w) == 0 then w
  else w &&& 0xFFFFFFFFFFFFFFFE

/-- ROLE as a write leaves it: COPY stays, and a budget code above 3 stores 3 (07 R161). -/
def Role.write (r : Role) (v : Word) : Role :=
  { r with
    kind := v.setWidth 2
    xregs := BitVec.ofNat 2 (Nat.min (v.toNat / 8 % 8) 3)
    fregs := BitVec.ofNat 2 (Nat.min (v.toNat / 64 % 8) 3) }

/-- CAUSE as a write leaves it (18 R393). -/
def Cause.ofWord (v : Word) : Cause := ⟨v.setWidth 8, (v >>> 8).setWidth 6, v.getLsbD 16⟩

/-- TOK is written, LEASE stays (07 R157). -/
def tokWrite (old v : Word) : Word := mkTok (tokTok v) (tokLease old)

/-- A counter of the course (16 R360). An L-core has none. -/
def State.setCounter (s : State) (t : Thread) (f : Course → Course) : State :=
  if t.onL then s else s.updCourse (courseOfCore t.core) f

/-- A control register is written under its field rules (07 R154, R157, R161, R163; 17 R375; 18 R393, R406). -/
def State.setCsr (s : State) (n : BitVec 12) (v : Word) : State :=
  let t := s.me
  match n.toNat with
  | 0x001 => s.updMe fun t => { t with frm := v.setWidth 2 }
  | 0x002 => s.updMe fun t => { t with fflags := v.setWidth 5 }
  | 0x003 => s.updMe fun t => { t with force := v.getLsbD 0 }
  | 0x401 => s.updMe fun t => { t with role := t.role.write v }
  | 0x402 => s.updMe fun t => { t with errAddr := v }
  | 0x403 => s.updMe fun t => { t with errCause := v }
  | 0x405 =>
    if t.onL then s.updCtx t.ctxKey fun c => { c with tok := tokWrite c.tok v }
    else s.updMe fun t => { t with boostTok := tokWrite t.boostTok v }
  | 0x406 => s.setCounter t fun k => { k with groutCnt := v }
  | 0x407 => s.setCounter t fun k => { k with groutUseful := v }
  | 0x408 => s.setCounter t fun k => { k with throttle := v }
  | 0x800 => s.updMe fun t => { t with pmode := v.getLsbD 1, sclass := if t.onL then (v >>> 3).setWidth 2 else t.sclass }
  | 0x801 => s.updMe fun t => { t with cause := Cause.ofWord v }
  | 0x802 => s.updMe fun t => { t with epc := v }
  | 0x803 => s.updMe fun t => { t with tval := v }
  | 0x804 => s.updCore t.core fun c => { c with tvec := v &&& 0xFFFFFFFFFFFFFFF8 }
  | 0x805 => s.updMe fun t => { t with faultMask := v }
  | 0x806 => s.updMe fun t => { t with asid := v.setWidth 16 }
  | 0x807 => s.updMe fun t => { t with ptBase := v &&& 0x000FFFFFFFFF8001 }
  | 0x808 => s.updDie t.die fun d => if d.marks.isEmpty then { d with mkspill := spillOf v } else d
  | 0x810 => s.updMe fun t => { t with lp0 := { t.lp0 with start := v }.checked }
  | 0x811 => s.updMe fun t => { t with lp0 := { t.lp0 with last := v }.checked }
  | 0x812 => s.updMe fun t => { t with lp0 := { t.lp0 with count := v.setWidth 32 }.checked }
  | 0x813 => s.updMe fun t => { t with lp1 := { t.lp1 with start := v }.checked }
  | 0x814 => s.updMe fun t => { t with lp1 := { t.lp1 with last := v }.checked }
  | 0x815 => s.updMe fun t => { t with lp1 := { t.lp1 with count := v.setWidth 32 }.checked }
  | _ => s

/-! ### The CSR instructions (18 R406) -/

/-- Access class of a number: 0 URW, 1 URO, 2 SRW, 3 RO (07 R157). -/
def csrClass (n : BitVec 12) : Nat := n.toNat / 1024

/-- User mode may read (07 R158). -/
def userReads (n : BitVec 12) : Bool := csrClass n != 2
/-- User mode may write. -/
def userWrites (n : BitVec 12) : Bool := csrClass n == 0

/-- A write form: the privilege check, then the new value from the old one and the operand. -/
def csrWriteOp (i : Instr) (a : BitVec 5) (n : BitVec 12) (f : Word → Word → Word) (s : State) : Out :=
  s.lane i always false [.x a] [.x a] fun s =>
    s.check (!s.me.mode && !userWrites n) 0x01 (parcels i) <|
      (s.setCsr n (f (s.csr s.me n) (s.srcX 0 a))).finish (lenOf i)

/-- `CSRR`: reads a control register (18 R406). -/
def execCsrr (d : BitVec 5) (n : BitVec 12) (s : State) : Out :=
  s.lane (.csrr d n) always false [.x d] [] fun s =>
    s.check (!s.me.mode && !userReads n) 0x01 (parcels (.csrr d n)) <|
      s.finishX (lenOf (.csrr d n)) d (s.csr s.me n)

/-- `CSRW`: writes a control register (18 R406). -/
def execCsrw (a : BitVec 5) (n : BitVec 12) (s : State) : Out := csrWriteOp (.csrw a n) a n (fun _ v => v) s

/-- `CSRS`: sets bits of a control register (18 R406). -/
def execCsrs (a : BitVec 5) (n : BitVec 12) (s : State) : Out := csrWriteOp (.csrs a n) a n (fun c v => c ||| v) s

/-- `CSRC`: clears bits of a control register (18 R406). -/
def execCsrc (a : BitVec 5) (n : BitVec 12) (s : State) : Out := csrWriteOp (.csrc a n) a n (fun c v => c &&& ~~~v) s

/-! ### System calls, breakpoints, returns (18 R405, R407, R408) -/

/-- `SYS`: SYSCALL on an L-core and in system mode; in user mode on an S-core a migration to an L-core, where it executes
(18 R405, 15 R337). With no online L-core it ends as that migration does, with a status nobody receives (log entry 18). -/
def execSys (g : BitVec 4) (s : State) : Out :=
  s.lane (.sys g) g false [] [] fun s =>
    if s.me.onL || s.me.mode then s.trap 0x0D 0
    else if s.classOn s.me.pkg 0 then s.depart 0 0 s.me.pc 3
    else s.finish (lenOf (.sys g))

/-- `TRET`: a deferred store error first, then the privilege check, then the return (18 R408). -/
def execTret (g : BitVec 4) (s : State) : Out :=
  s.lane (.tret g) g false [] [] fun s =>
    match s.me.deferred with
    | some va => s.takeDeferred va
    | none => s.check (!s.me.mode) 0x01 (parcels (.tret g)) s.trapReturn

/-- `BRK`: BREAKPOINT (18 R407). -/
def execBrk (g : BitVec 4) (s : State) : Out := s.lane (.brk g) g false [] [] fun s => s.trap 0x0E 0

/-! ### Waiting for interrupts (18 R409) -/

/-- What wakes a `wfi`: an interrupt that IRQ_EN enables; on an S-core a signal, a cancel or a pre-emption request. -/
def State.wakes (s : State) (t : Thread) : Bool :=
  if t.onL then (s.irqSource t.ctxKey).isSome else t.signalled || t.cancelled || t.rel.isSome

/-- `WFI`: waits for a wake condition (18 R409). -/
def execWfi (g : BitVec 4) (s : State) : Out :=
  s.lane (.wfi g) g false [] [] fun s =>
    s.check (!s.me.mode) 0x01 (parcels (.wfi g)) <|
      if s.wakes s.me then s.finish (lenOf (.wfi g)) else s.waitOn .wfi

/-- `WFI_TIMEOUT`: the count of an S-core's `wfi` expires, and execution continues after it (18 R409). -/
def execWfiTimeout (t : Nat) (s : State) : Out :=
  .next <| if (s.thr t).wait == some .wfi && !(s.thr t).onL && s.clocksLeft t == 0 then s.updThr t (·.complete 4) else s

/-! ### Asynchronous causes (18 R395, R410; 15 R337) -/

/-- A thread that stands at a boundary, on a core, not ending. -/
def State.stands (s : State) (k : Nat) : Bool :=
  let t := s.thr k
  (tget s.threads k).isSome && t.ending.isNone && !t.left &&
  match t.place with
  | .ctx _ _ => true
  | .slot _ _ _ _ => (s.wg t.wg).st == .run || (s.wg t.wg).st == .drain
  | _ => false

/-- A thread that can take an asynchronous cause: it stands at a boundary, and is not in a `cancel` whose effect it has had, nor at the end of
a wait whose status is still to be written (06 R138). -/
def State.takesAsync (s : State) (k : Nat) : Bool := s.stands k && !(s.thr k).cancelling && !(s.thr k).served

/-- The count of an Ethernet port's completions is taken with its interrupt; other sources pend while their condition does. -/
def State.ackIrq (s : State) (key n : Nat) : State :=
  if 1 ≤ n ∧ n ≤ 4 then
    s.updCtx key fun c => { c with seen := (List.range 4).map fun i =>
      if i + 1 = n then ((tget (s.pkg (key / 256)).ports i).getD Port.init).irqs else c.seen[i]?.getD 0 }
  else s

/-- A context without a thread starts one at TVEC: with the registers of a new thread, but STATUS.MODE and PMODE 1 and the CAUSE, TVAL
and FAULT_MASK of the entry, whatever thread was there before; the spec is silent on all of it (PRESUMED, log entry 19). -/
def State.wakeIdle (s : State) (key n : Nat) : State :=
  let c := coreOfCtx (key / 256) (key % 256)
  let t := { Thread.init with place := .ctx (key / 256) (key % 256), mode := true, pmode := true, pc := (s.core c).tvec,
                              entered := true, cause := ⟨0x30, 0, true⟩, tval := BitVec.ofNat 64 n, faultMask := 1 }
  { s.updCtx key fun c => { c with thread := some s.nextId, hold := true } with
    threads := tset s.threads s.nextId t, nextId := s.nextId + 1 }

/-- A thread that waits in `wfi`. -/
def Thread.idles (t : Thread) : Bool := t.wait == some .wfi

/-- `INTERRUPT`: a pending source that a context enables raises INTERRUPT at a boundary while IRQ_HOLD is 0 (18 R410). A thread in `wfi`
completes that first (R409). -/
def execInterrupt (t : Nat) (s : State) : Out :=
  .next <|
    match s.irqSource t, (s.ctx t).hold, s.coreOn (coreOfCtx (t / 256) (t % 256)) with
    | some n, false, true =>
      (match (s.ctx t).thread with
       | some k => if s.takesAsync k && !(s.thr k).idles then (s.asyncTrap k 0x30 (BitVec.ofNat 64 n)).ackIrq t n else s
       | none => (s.wakeIdle t n).ackIrq t n)
    | _, _, _ => s

/-- The wait of a thread ends with no effect, and its instruction executes again (11 R252, 12 R264, 15 R330, R339, 17 R390). A `wmon`
stays, to read its word once more (09 R206). -/
def State.endWait (s : State) (k : Nat) : State :=
  match (s.thr k).wait with
  | some (.wmon _ _ _) => s
  | some w => if w.restarts then (s.unmeet k).updThr k fun t => { t with wait := none, rel := none, laneWait := none, arrival := t.arrivalCut } else s
  | none => s

/-- `SIGNAL`: a signal posted to a thread that is not on an L-core (15 R337). In user mode it raises SIGNAL at this boundary; in system
mode, and where the thread has no boundary now, it is held until it has one (18 R395), and ends a wait. The rule does not speak of a thread
between cores: for one in a bin or on its way it is held too (DESIGN CHOICE, log entry 113). -/
def execSignal (t : Nat) (s : State) : Out :=
  .next <|
    if (tget s.threads t).isNone || (s.thr t).onL || (s.thr t).ending.isSome then s
    else if s.takesAsync t && !(s.thr t).mode then (s.updThr t fun x => { x with signalled := false }).asyncTrap t 0x29 0
    else (if s.takesAsync t then s.endWait t else s).updThr t fun x => { x with signalled := true }

/-! ### Results on their way (02 R41) -/

/-- The result takes effect before its window is over. -/
def Thread.writeback (t : Thread) (i : Nat) : Thread :=
  match t.pend[i]? with
  | some ⟨d, some v, _, _⟩ => ({ t with pend := (t.pend.take i).filter (·.dest != d) ++ t.pend.drop (i + 1) } : Thread).raw d v
  | _ => t

/-- `REGISTER_WRITEBACK`: a known result takes effect in its destination inside its window (02 R41). -/
def execRegisterWriteback (t i : Nat) (s : State) : Out :=
  .next <| if (tget s.threads t).isSome then s.updThr t (·.writeback i) else s

end Sys2Proof.Machine
end

