-- ==== Sys2Proof/Machine/Copy.lean ====
section
/-!
DEFINITION. Barrier objects (06 R130 to R139), copy commands and the copy engine (06 R140 to R146; 22 R462), and `wcnt`
(06 R148).
-/

namespace Sys2Proof.Machine

/-! ### Barrier objects (06 R130, R131) -/

/-- The fields of a barrier object; VALID is the granule's tag. -/
structure BarObj where
  gen : Nat
  pend : Nat
  init : Nat
  poison : Bool
  reset : Bool
  inB : Nat
  outB : Nat
  packed : Nat
deriving DecidableEq, Repr

/-- The object in 16 bytes. -/
def BarObj.ofNat (v : Nat) : BarObj :=
  ⟨v % 16, v / 2 ^ 4 % 2 ^ 12, v / 2 ^ 16 % 2 ^ 12, v.testBit 29, v.testBit 30, v / 2 ^ 32 % 2 ^ 32, v / 2 ^ 64 % 2 ^ 32,
   v / 2 ^ 96 % 2 ^ 32⟩

/-- The 16 bytes of an object. -/
def BarObj.toNat (o : BarObj) (valid : Bool) : Nat :=
  o.gen % 16 + o.pend * 2 ^ 4 + o.init * 2 ^ 16 + (if valid then 2 ^ 28 else 0) + (if o.poison then 2 ^ 29 else 0) +
  (if o.reset then 2 ^ 30 else 0) + o.inB * 2 ^ 32 + o.outB * 2 ^ 64 + o.packed * 2 ^ 96

/-- The object at an offset of a workgroup's allocation. -/
def WG.bar (g : WG) (b : Nat) : BarObj := BarObj.ofNat (g.spad.readN b 16)

/-- A valid barrier offset (06 R130). -/
def WG.barOffset (g : WG) (b : Nat) : Bool := b % 16 == 0 && decide (b + 16 ≤ g.spSize)

/-- The threads that wait in a way are released with a status; one that has been released before keeps what released it. -/
def State.releaseWait (s : State) (w : Wait) (v : Word) : State :=
  { s with threads := s.threads.map fun t => (t.1, if t.2.wait == some w && t.2.rel.isNone then { t.2 with rel := some v } else t.2) }

/-- The status of a wait that ends: −4 for a poisoned object. -/
def BarObj.status (o : BarObj) : Word := if o.poison then -4 else 0

/-- An object takes new contents; on an event the test for completion follows, and whoever waits for what has come about is
released (06 R131). -/
def State.putBar (s : State) (w b : Nat) (o : BarObj) (event : Bool) : State :=
  let done := event && o.pend == 0 && o.inB == 0
  let o1 := if done then { o with gen := (o.gen + 1) % 16, pend := o.init, reset := false } else o
  let s1 := s.updWg w fun g => { g with spad := g.spad.writeN b 16 (o1.toNat true) }
  let s2 := if done then s1.releaseWait (.bar w b) o.status else s1
  if o.outB = 0 then s2.releaseWait (.barOut w b) o.status else s2

/-- No object counts the bytes. -/
def noBar : Nat := 0xFFFFFFFF

/-- Bytes are counted against the object at an offset, with POISON set when some of them failed; the code of an error
response where the object is not valid, or had fewer inbound bytes armed (06 R131, R133, R145). -/
def State.countBar (s : State) (w b n : Nat) (out bad : Bool) : State × Option Nat :=
  if b = noBar then (s, none)
  else
    let g := s.wg w
    if !g.tags.contains b then (s, some 6)
    else
      let o := g.bar b
      let o1 := { o with poison := o.poison || bad }
      if out then (s.putBar w b { o1 with outB := o.outB - n } false, none)
      else if o.inB < n then (s.putBar w b { o1 with inB := 0, poison := true } true, some 10)
      else (s.putBar w b { o1 with inB := o.inB - n } true, none)

/-! ### Barrier instructions (06 R138) -/

/-- The frame of a barrier instruction: offset check, then its own effect on the issuer's workgroup, the offset and the
object. -/
def State.barOp (s : State) (i : Instr) (d a : BitVec 5) (la : BitVec 4) (k : State → Nat → State × Word) : State :=
  let b := (s.srcX 0 a).toNat
  let r := if (s.wg s.me.wg).barOffset b then k s b else (s, -1)
  r.1.finishLate (lenOf i) (.x d) la r.2

/-- An effect on an object that must be valid. -/
def State.onBar (s : State) (b : Nat) (k : BarObj → State × Word) : State × Word :=
  if (s.wg s.me.wg).tags.contains b then k ((s.wg s.me.wg).bar b) else (s, -5)

/-- `BAR_INIT`: initialises the object and sets the tag; waiters of a valid object leave with −6 (06 R138). -/
def execBarInit (g : BitVec 4) (d a b c : BitVec 5) (la : BitVec 4) (ru : BitVec 3) (s : State) : Out :=
  s.lane (.barInit g d a b c la ru) g true [.x d, .x a, .x b, .x c] [.x a, .x b, .x c] fun s =>
    s.barOp (.barInit g d a b c la ru) d a la fun s o =>
      let n := (s.srcX 1 b).toNat
      let m := (s.srcX 2 c).toNat
      if 4095 < n ∨ 2 ^ 31 ≤ m then (s, -1)
      else
        let w := s.me.wg
        let was := (s.wg w).tags.contains o
        let s1 := s.updWg w fun g => { g with
          spad := g.spad.writeN o 16 (BarObj.toNat ⟨0, n, n, false, was, m, 0, 0⟩ true)
          tags := if was then g.tags else o :: g.tags }
        (((s1.releaseWait (.bar w o) (-6)).releaseWait (.barOut w o) (-6)), 0)

/-- `BAR_ARR`: an arrival; the status is GEN (06 R138). -/
def execBarArr (g : BitVec 4) (d a : BitVec 5) (la : BitVec 4) (ru : BitVec 3) (s : State) : Out :=
  s.lane (.barArr g d a la ru) g true [.x d, .x a] [.x a] fun s =>
    s.barOp (.barArr g d a la ru) d a la fun s b => s.onBar b fun o =>
      if o.pend = 0 then (s, -2)
      else (s.putBar s.me.wg b { o with pend := o.pend - 1 } true, BitVec.ofNat 64 o.gen)

/-- `BAR_EXP`: arms bytes, and arrives where ARR is 1 (06 R138). -/
def execBarExp (arr out : Bool) (g : BitVec 4) (d a b : BitVec 5) (la : BitVec 4) (ru : BitVec 3) (s : State) : Out :=
  s.lane (.barExp arr out g d a b la ru) g true [.x d, .x a, .x b] [.x a, .x b] fun s =>
    s.barOp (.barExp arr out g d a b la ru) d a la fun s bo => s.onBar bo fun o =>
      let n := (s.srcX 1 b).toNat
      if 2 ^ 31 ≤ n ∨ 2 ^ 31 ≤ (if out then o.outB else o.inB) + n then (s, -1)
      else if arr && o.pend == 0 then (s, -2)
      else
        let o1 := if out then { o with outB := o.outB + n } else { o with inB := o.inB + n }
        (s.putBar s.me.wg bo { o1 with pend := if arr then o.pend - 1 else o.pend } true,
          if arr then BitVec.ofNat 64 o.gen else 0)

/-- `BAR_TEST`: tests the phase or OUT_BYTES (06 R138). -/
def execBarTest (out : Bool) (g : BitVec 4) (d a b : BitVec 5) (la : BitVec 4) (ru : BitVec 3) (s : State) : Out :=
  s.lane (.barTest out g d a b la ru) g true [.x d, .x a, .x b] [.x a, .x b] fun s =>
    s.barOp (.barTest out g d a b la ru) d a la fun s bo => s.onBar bo fun o =>
      let n := (s.srcX 1 b).toNat
      if !out && decide (15 < n) then (s, -1)
      else if o.poison then (s, -4)
      else (s, if (if out then o.outB == 0 else o.gen != n % 16) then 1 else 0)

/-- `BAR_WAIT`: waits for the next completion, or for OUT_BYTES to reach 0; a release leaves the status behind (06 R138). -/
def execBarWait (out : Bool) (g : BitVec 4) (d a b : BitVec 5) (la : BitVec 4) (ru : BitVec 3) (s : State) : Out :=
  s.lane (.barWait out g d a b la ru) g true [.x d, .x a, .x b] [.x a, .x b] fun s =>
    match s.me.rel with
    | some v => s.finishLate (lenOf (.barWait out g d a b la ru)) (.x d) la v
    | none =>
      let w := s.me.wg
      let x := (s.srcX 0 a).toNat
      let n := (s.srcX 1 b).toNat
      let o := (s.wg w).bar x
      if (s.wg w).barOffset x && (s.wg w).tags.contains x && (out || decide (n ≤ 15)) &&
          (if out then o.outB != 0 else o.gen == n % 16) then s.waitOn (if out then .barOut w x else .bar w x)
      else s.barOp (.barWait out g d a b la ru) d a la fun s bo => s.onBar bo fun o =>
        if !out && decide (15 < n) then (s, -1) else (s, o.status)

/-- `BAR_INVAL`: clears VALID and the tag; waiters leave with −6 (06 R138). -/
def execBarInval (g : BitVec 4) (d a : BitVec 5) (la : BitVec 4) (ru : BitVec 3) (s : State) : Out :=
  s.lane (.barInval g d a la ru) g true [.x d, .x a] [.x a] fun s =>
    s.barOp (.barInval g d a la ru) d a la fun s b => s.onBar b fun o =>
      let w := s.me.wg
      let s1 := s.updWg w fun g => { g with spad := g.spad.writeN b 16 (o.toNat false), tags := g.tags.erase b }
      (((s1.releaseWait (.bar w b) (-6)).releaseWait (.barOut w b) (-6)), 0)

/-! ### Error responses in scratchpad (06 R133) -/

/-- The scratchpad locator of a byte. -/
def locator (core addr : Nat) : Word := BitVec.ofNat 64 (addr + score core * 2 ^ 40 + 0x7FFE * 2 ^ 48)

/-- An error response in scratchpad: the receiving die logs the locator, the issuer's ERRLOG takes the pair, and the
operation is poisoned with its first error. -/
def State.spadErr (s : State) (who core addr code : Nat) (p : Option Report) : State × Option Report :=
  let l := locator core addr
  let s1 := s.logErr (dieOfCore core) l code 0 (s.thr who).tid
  ((if (tget s1.threads who).isSome then s1.updThr who fun t => { t with errAddr := l, errCause := BitVec.ofNat 64 code } else s1),
   p.or (some ⟨0x1B, l, some (l, BitVec.ofNat 64 code)⟩))

/-- An error response on the memory side. -/
def State.memErr (s : State) (c : MCtx) (pa code : Nat) (va : Word) (p : Option Report) : State × Option Report :=
  (s.respond c pa code, p.or (some ⟨0x1B, va, some (BitVec.ofNat 64 pa, BitVec.ofNat 64 code)⟩))

/-- Bytes are counted for a command at a workgroup's object, with what that draws. -/
def State.countFor (s : State) (who w b n : Nat) (out bad : Bool) (p : Option Report) : State × Option Report :=
  match s.countBar w b n out bad with
  | (s1, none) => (s1, p)
  | (s1, some code) => s1.spadErr who (s.wg w).core ((s.wg w).spBase + b) code p

/-- Bytes that an engine writes, but for those of tagged granules. -/
def landBytes (tags : List Nat) (m : Store 8) (o : Nat) (bs : List Byte) : Store 8 :=
  m.setRun o ((bs.zipIdx o).map fun c => if tags.contains (c.2 / 16 * 16) then m.read c.2 else c.1)

/-- The first tagged granule a run of bytes overlaps. -/
def firstTag (tags : List Nat) (o n : Nat) : Option Nat :=
  ((List.range ((o + n + 15) / 16 - o / 16)).map fun i => (o / 16 + i) * 16).find? tags.contains

/-- An engine write into a workgroup's scratchpad (06 R132). -/
def State.land (s : State) (who w o : Nat) (bs : List Byte) (p : Option Report) : State × Option Report × Bool :=
  let g := s.wg w
  let s1 := s.updWg w fun g => { g with spad := landBytes g.tags g.spad o bs }
  match firstTag g.tags o bs.length with
  | some t =>
    let r := s1.spadErr who g.core (g.spBase + t) 7 p
    (r.1, r.2, true)
  | none => (s1, p, false)

/-! ### Issue of a copy (06 R140 to R142) -/

/-- The operands of a copy (06 R141). -/
structure CopyArgs where
  kind : CopyKind
  maddr : Word
  xb : Word
  xc : Word
  ss : Nat
  dmask : Nat
  mo : Nat

/-- Rows packed by a mask. -/
def CopyKind.packs (k : CopyKind) : Bool := k == .gat || k == .sct
/-- Scratchpad is the destination. -/
def CopyKind.inbound (k : CopyKind) : Bool := k == .cin || k == .mc || k == .gat

/-- SOFF. -/
def CopyArgs.soff (q : CopyArgs) : Nat := q.xb.toNat % 2 ^ 32
/-- BOFF. -/
def CopyArgs.boff (q : CopyArgs) : Nat := q.xb.toNat / 2 ^ 32
/-- ROW_BYTES. -/
def CopyArgs.rowBytes (q : CopyArgs) : Nat := q.xc.toNat % 2 ^ 20
/-- ROWS. -/
def CopyArgs.rows (q : CopyArgs) : Nat := q.xc.toNat / 2 ^ 20 % 2 ^ 16
/-- MSTRIDE. -/
def CopyArgs.mstride (q : CopyArgs) : Nat := q.xc.toNat / 2 ^ 36
/-- The scratchpad step. -/
def CopyArgs.step (q : CopyArgs) : Nat := if q.kind.packs ∨ q.ss = 0 then q.rowBytes else q.ss

/-- The checks that give status −1 (06 R142). -/
def CopyArgs.bad (q : CopyArgs) (g : WG) : Bool :=
  let last := q.soff + (q.rows - 1) * q.step + q.rowBytes
  q.maddr.toNat % 4 != 0 || q.soff % 4 != 0 || q.rowBytes % 4 != 0 || q.mstride % 4 != 0 ||
  (q.ss != 0 && decide (q.step < q.rowBytes)) || decide (g.spSize < last) ||
  (q.boff != noBar && !g.barOffset q.boff) ||
  (q.kind.packs && decide (g.spSize < q.mo + (q.rows + 7) / 8)) ||
  !canonical q.maddr || !canonicalRange q.maddr ((q.rows - 1) * q.mstride + q.rowBytes) ||
  (q.kind == .mc && q.dmask == 0)

/-- The receiver on a tile for commands of a workgroup, while it has a place (06 R129, 22 R462). -/
def State.receiver (s : State) (w t : Nat) : Option Nat :=
  let g := s.wg w
  if g.group = 0 then (if tileOfCore g.core = t then some w else none)
  else (((tget s.groups g.group).map (·.members)).getD []).find? fun m => (s.wg m).wgId % 4 = t && (s.wg m).placed

/-- Tiles of a mask. -/
def tilesOf (m : Nat) : List Nat := (List.range 4).filter m.testBit

/-- The row mask, read at acceptance; empty where every row is moved. -/
def CopyArgs.mask (q : CopyArgs) (g : WG) : List Bool :=
  if q.kind.packs then (List.range q.rows).map fun i => (Store.read g.spad (q.mo + i / 8)).getLsbD (i % 8) else []

/-- A row is moved. -/
def rowSel (m : List Bool) (i : Nat) : Bool := m[i]?.getD true

/-- Commands of a class that a thread may have outstanding; a core's queue of copies (06 R142). -/
def State.copyRoom (s : State) (t : Thread) : Bool :=
  decide (s.count t .copy < 63) && decide ((s.core t.core).copyQ.length < 256)

/-- Checks, translation of the first chunk, and acceptance of a copy (06 R142). -/
def State.copyIssue (s : State) (i : Instr) (d : BitVec 5) (la : BitVec 4) (q : CopyArgs) : State :=
  let t := s.me
  let g := s.wg t.wg
  let done := fun (s : State) (v : Word) => s.finishLate (lenOf i) (.x d) la v
  if !t.role.copy then s.trap 0x20 (parcels i)
  else if q.rowBytes = 0 ∨ q.rows = 0 then done s 0
  else if q.bad g then done s (-1)
  else if q.kind == .mc && (tilesOf q.dmask).any fun x => (s.receiver t.wg x).isNone then done s (-3)
  else
    let mask := q.mask g
    let accept := fun (s : State) =>
      if !s.copyRoom s.me then s.waitOn (.accept i)
      else
        let cmd : CopyCmd := ⟨s.nextId, s.cur, t.wg, q.kind, q.maddr.toNat, q.soff, q.boff, q.rowBytes, q.rows, q.mstride, q.step,
          q.dmask, mask, t.asid, t.ptBase, t.mode, 0, 0, 0, none, [], []⟩
        let s1 := { s with nextId := s.nextId + 1 }.updCore t.core fun c => { c with copyQ := c.copyQ ++ [cmd] }
        done (s1.updMe fun x => x.accept .copy cmd.id) 0
    match (List.range q.rows).find? (rowSel mask) with
    | none => accept s
    | some r =>
      match s.xlate (t.mctx s.cur) (q.maddr + BitVec.ofNat 64 (r * q.mstride)) (if q.kind.inbound then .load else .store) with
      | (s1, .ok _ _) => accept s1
      | (s1, .fault code) => s1.trap code (q.maddr + BitVec.ofNat 64 (r * q.mstride))
      | (s1, .wait) => s1.waitOn .walk

/-- The frame of a copy instruction. -/
def State.copyOp (s : State) (i : Instr) (g : BitVec 4) (d a b c : BitVec 5) (la : BitVec 4) (kind : CopyKind) (ss dmask mo : Nat) :
    Out :=
  s.lane i g true [.x d, .x a, .x b, .x c] [.x a, .x b, .x c] fun s =>
    s.copyIssue i d la ⟨kind, s.srcX 0 a, s.srcX 1 b, s.srcX 2 c, ss, dmask, mo⟩

/-- `CPY_IN`: rows from memory into scratchpad (06 R142). -/
def execCpyIn (g : BitVec 4) (d a b c : BitVec 5) (ss : BitVec 13) (la : BitVec 4) (ru : BitVec 3) (s : State) : Out :=
  s.copyOp (.cpyIn g d a b c ss la ru) g d a b c la .cin (16 * ss.toNat) 0 0

/-- `CPY_MC`: rows from memory into the receivers of a course group (06 R142, R144). -/
def execCpyMc (g : BitVec 4) (d a b c : BitVec 5) (dmask : BitVec 4) (ss : BitVec 13) (la : BitVec 4) (ru : BitVec 3)
    (s : State) : Out :=
  s.copyOp (.cpyMc g d a b c dmask ss la ru) g d a b c la .mc (16 * ss.toNat) dmask.toNat 0

/-- `CPY_GAT`: selected rows from memory, packed into scratchpad (06 R142). -/
def execCpyGat (g : BitVec 4) (d a b c : BitVec 5) (mo : BitVec 16) (la : BitVec 4) (ru : BitVec 3) (s : State) : Out :=
  s.copyOp (.cpyGat g d a b c mo la ru) g d a b c la .gat 0 0 (64 * mo.toNat)

/-- `CPY_OUT`: rows from scratchpad to memory (06 R142). -/
def execCpyOut (sc : Scope) (g : BitVec 4) (d a b c : BitVec 5) (ss : BitVec 13) (la : BitVec 4) (ru : BitVec 3) (s : State) :
    Out :=
  s.copyOp (.cpyOut sc g d a b c ss la ru) g d a b c la .out (16 * ss.toNat) 0 0

/-- `CPY_SCT`: packed rows of scratchpad to selected rows of memory (06 R142). -/
def execCpySct (sc : Scope) (g : BitVec 4) (d a b c : BitVec 5) (mo : BitVec 16) (la : BitVec 4) (ru : BitVec 3) (s : State) :
    Out :=
  s.copyOp (.cpySct sc g d a b c mo la ru) g d a b c la .sct 0 0 (64 * mo.toNat)

/-- `COPY_ACCEPT`: the copy that a thread waits to have accepted is accepted, and its instruction completes (06 R142). -/
def execCopyAccept (t : Nat) (s : State) : Out :=
  let s1 : State := { s with cur := t, gang := none }
  match (s.thr t).wait with
  | some (.accept (.cpyIn g d a b c ss la ru)) => if s.copyRoom (s.thr t) then execCpyIn g d a b c ss la ru s1 else .next s
  | some (.accept (.cpyMc g d a b c m ss la ru)) => if s.copyRoom (s.thr t) then execCpyMc g d a b c m ss la ru s1 else .next s
  | some (.accept (.cpyGat g d a b c mo la ru)) => if s.copyRoom (s.thr t) then execCpyGat g d a b c mo la ru s1 else .next s
  | some (.accept (.cpyOut sc g d a b c ss la ru)) => if s.copyRoom (s.thr t) then execCpyOut sc g d a b c ss la ru s1 else .next s
  | some (.accept (.cpySct sc g d a b c mo la ru)) => if s.copyRoom (s.thr t) then execCpySct sc g d a b c mo la ru s1 else .next s
  | _ => .next s

/-! ### The engine (06 R143 to R145) -/

/-- The context an engine accesses memory under: the issuer's at issue, the core's agent (04 R89, 05 R109). -/
def engineCtx (core who : Nat) (asid : BitVec 16) (ptBase : Word) (mode : Bool) : MCtx :=
  ⟨pkgOfDie (dieOfCore core) * 512 + score core, some core, dieOfCore core, asid, ptBase, mode, who⟩

/-- The context of a copy. -/
def CopyCmd.ctx (m : CopyCmd) (core : Nat) : MCtx := engineCtx core m.t m.asid m.ptBase m.mode

/-- Memory address of the byte a command stands at. -/
def CopyCmd.va (m : CopyCmd) : Word := BitVec.ofNat 64 (m.maddr + m.row * m.mstride + m.pos)
/-- Scratchpad offset of the byte a command stands at. -/
def CopyCmd.so (m : CopyCmd) : Nat := m.soff + (if m.kind.packs then m.packed else m.row) * m.ss + m.pos
/-- Bytes at which a command stands and which it has moved already (R146). -/
def CopyCmd.here (m : CopyCmd) : Option (Nat × Nat × Nat) :=
  m.moved.find? fun x => x.1 == m.row && decide (x.2.1 ≤ m.pos ∧ m.pos < x.2.1 + x.2.2)
/-- Bytes of the next chunk: within the row and the 4 KiB page, and up to bytes that have moved already. R145 only bounds a chunk; the model
takes the longest where the agenda asks no shorter one (DESIGN CHOICE, log entry 94). -/
def CopyCmd.chunk (m : CopyCmd) : Nat :=
  if m.here.isSome then 0
  else (m.moved.filter fun x => x.1 == m.row && decide (m.pos < x.2.1)).foldl (fun n x => Nat.min n (x.2.1 - m.pos))
    (Nat.min (m.rowBytes - m.pos) (4096 - m.va.toNat % 4096))
/-- Bytes moved ahead of their turn. -/
def CopyCmd.early (m : CopyCmd) : Nat := m.moved.foldl (fun n x => n + x.2.2) 0
/-- Bytes neither moved nor counted. -/
def CopyCmd.left (m : CopyCmd) : Nat := (m.rows - m.row) * m.rowBytes - m.pos - m.early
/-- Energy of a chunk of some bytes: 4 units for every 64 bytes that the command has moved (16 R350). -/
def CopyCmd.energy (m : CopyCmd) (n : Nat) : Nat :=
  let b := m.packed * m.rowBytes + m.pos + m.early
  4 * ((b + n) / 64 - b / 64)
/-- A command past a chunk. -/
def CopyCmd.past (m : CopyCmd) (n : Nat) : CopyCmd :=
  if m.pos + n < m.rowBytes then { m with pos := m.pos + n }
  else { m with pos := 0, row := m.row + 1, packed := m.packed + 1 }

/-- The tiles a command delivers to; its own for any but a multicast. -/
def State.copyTiles (s : State) (m : CopyCmd) : List Nat :=
  if m.kind == .mc then tilesOf m.dmask else [tileOfCore (s.wg m.wg).core]

/-- The receiver of a command on a tile. The one tile that a workgroup outside a course group may name is its own, also once it runs on
another (06 R129, R144). -/
def State.copyTo (s : State) (m : CopyCmd) (t : Nat) : Option Nat :=
  if m.kind == .mc && (s.wg m.wg).group != 0 then s.receiver m.wg t else some m.wg

/-- Inbound bytes reach one receiver and are counted there, or find it gone, once and for the rest of the command (06 R143, R144; 22 R462). -/
def State.deliverTo (s : State) (m : CopyCmd) (t : Nat) (f : State → Nat → Option Report → State × Option Report × Bool)
    (n : Nat) (bad : Bool) : State × CopyCmd :=
  if m.lost.contains t then (s, m)
  else match s.copyTo m t with
    | some w =>
      let r := f s w m.poison
      let q := r.1.countFor m.t w m.boff n false (bad || r.2.2) r.2.1
      (q.1, { m with poison := q.2 })
    | none =>
      let at_ := ((tget s.groups (s.wg m.wg).group).bind fun g => tget g.gone t).getD (0, 0)
      let r := s.spadErr m.t at_.1 (at_.2 + m.soff + m.row * m.ss) 1 m.poison
      (r.1, { m with poison := r.2, lost := t :: m.lost })

/-- Inbound bytes reach every receiver. -/
def State.deliverAll (s : State) (m : CopyCmd) (f : State → Nat → Option Report → State × Option Report × Bool) (n : Nat)
    (bad : Bool) : State × CopyCmd :=
  (s.copyTiles m).foldl (fun r t => r.1.deliverTo r.2 t f n bad) (s, m)

/-- Nothing is written. -/
def noBytes (s : State) (_ : Nat) (p : Option Report) : State × Option Report × Bool := (s, p, false)

/-- Bytes of a command are counted without being moved. -/
def State.countAll (s : State) (m : CopyCmd) (n : Nat) (bad : Bool) : State × CopyCmd :=
  if m.kind.inbound then s.deliverAll m noBytes n bad
  else
    let r := s.countFor m.t m.wg m.boff n true bad m.poison
    (r.1, { m with poison := r.2 })

/-- Rows the mask leaves out are counted at once (06 R143), and bytes that have moved already are passed. -/
def State.skipRows (s : State) (m : CopyCmd) : Nat → State × CopyCmd
  | 0 => (s, m)
  | fuel + 1 =>
    if m.row < m.rows ∧ m.pos = 0 ∧ !rowSel m.mask m.row then
      let r := s.countAll m m.rowBytes false
      State.skipRows r.1 { r.2 with row := m.row + 1 } fuel
    else match m.here with
      | some x => State.skipRows s { m.past (x.2.1 + x.2.2 - m.pos) with moved := m.moved.erase x } fuel
      | none => (s, m)

/-- A read of a piece by an engine: control space does not answer it (04 R76). -/
def State.engineLoad (s : State) (c : MCtx) (r : RegionKind) (pa n : Nat) : State × Except Nat Nat :=
  if s.atCtrl (c.ag / 512) pa then (s, .error 2) else s.secLoad r c.ag pa n

/-- A write of a piece by an engine. -/
def State.engineStore (s : State) (c : MCtx) (r : RegionKind) (pa n v : Nat) : State × Option Nat :=
  if s.atCtrl (c.ag / 512) pa then (s, some 2) else s.secStore r c.ag pa n v 0

/-- The pieces of an inbound chunk: each is read, and its bytes are kept for the receivers, unless it fails. -/
def State.readPieces (s : State) (c : MCtx) (r : RegionKind) (va : Word) (pa0 so : Nat) (p : Option Report) :
    List (Nat × Nat) → State × List (Nat × List Byte) × Option Report × Bool
  | [] => (s, [], p, false)
  | (pa, n) :: t =>
    match s.engineLoad c r pa n with
    | (s1, .ok v) =>
      let q := State.readPieces s1 c r va pa0 so p t
      (q.1, (so + (pa - pa0), bytesOf n v) :: q.2.1, q.2.2)
    | (s1, .error code) =>
      let e := s1.memErr c pa code (va + BitVec.ofNat 64 (pa - pa0)) p
      let q := State.readPieces e.1 c r va pa0 so e.2 t
      (q.1, q.2.1, q.2.2.1, true)

/-- The pieces of an outbound chunk are written. -/
def State.writePieces (s : State) (c : MCtx) (r : RegionKind) (va : Word) (pa0 : Nat) (p : Option Report) :
    List (Nat × Nat) → List Byte → State × Option Report × Bool
  | [], _ => (s, p, false)
  | (pa, n) :: t, bs =>
    match s.engineStore c r pa n (natOf (bs.take n)) with
    | (s1, none) => State.writePieces s1 c r va pa0 p t (bs.drop n)
    | (s1, some code) =>
      let e := s1.memErr c pa code (va + BitVec.ofNat 64 (pa - pa0)) p
      let q := State.writePieces e.1 c r va pa0 e.2 t (bs.drop n)
      (q.1, q.2.1, true)

/-- The pieces land in one receiver. -/
def landPieces (who : Nat) (ps : List (Nat × List Byte)) (s : State) (w : Nat) (p : Option Report) :
    State × Option Report × Bool :=
  ps.foldl (fun r x =>
    let q := r.1.land who w x.1 x.2 r.2.1
    (q.1, q.2.1, r.2.2 || q.2.2)) (s, p, false)

/-- A translation fault stops the command: the bytes left are counted with POISON, and the fault is kept (06 R145). -/
def State.stopCopy (s : State) (m : CopyCmd) (code : Nat) (va : Word) : State × CopyCmd :=
  let r := s.countAll m m.left true
  (r.1, { r.2 with row := m.rows, pos := 0, poison := m.poison.or (some ⟨BitVec.ofNat 8 code, va, none⟩) })

/-- One chunk of an inbound command at a translated address. -/
def State.chunkIn (s : State) (m : CopyCmd) (core pa leaf n : Nat) : State × CopyCmd :=
  let r := s.readPieces (m.ctx core) (regionOf leaf) m.va pa m.so m.poison (piecesOf pa n)
  let q := r.1.deliverAll { m with poison := r.2.2.1 } (landPieces m.t r.2.1) n r.2.2.2
  (q.1, q.2.past n)

/-- One chunk of an outbound command: counted once its bytes are read, and written to memory. -/
def State.chunkOut (s : State) (m : CopyCmd) (core pa leaf n : Nat) : State × CopyCmd :=
  let bs := (s.wg m.wg).spad.run m.so n
  let r := s.countFor m.t m.wg m.boff n true false m.poison
  let q := r.1.writePieces (m.ctx core) (regionOf leaf) m.va pa r.2 (piecesOf pa n) bs
  let s1 := if q.2.2 && m.boff != noBar && (q.1.wg m.wg).tags.contains m.boff then
      q.1.putBar m.wg m.boff { (q.1.wg m.wg).bar m.boff with poison := true } false
    else q.1
  (s1, { m with poison := q.2.1 }.past n)

/-- A core's copy engine performs commands: the core runs, and the engine is not out of service (16 R347; 19 R434). -/
def State.copyRuns (s : State) (core : Nat) : Bool := s.coreRuns core && !s.gone (.copyEngine core)

/-- Bytes of a chunk are moved, which the capture unit and the course's energy notice. -/
def State.chunkMoves (s : State) (m : CopyCmd) (core pa leaf n energy : Nat) : State × CopyCmd :=
  let s1 := (s.spendEngine core energy).measure (dieOfCore core) 1 (coreId core) (Config.latency s.seq : Nat)
  if m.kind.inbound then s1.chunkIn m core pa leaf n else s1.chunkOut m core pa leaf n

/-- The command a core's copy engine runs goes on by the rows it skips and one chunk; a locked table line holds it up, and it gives way to
a command of a better-ranked workgroup (18 R417). Rows are taken in ascending order (06 R143), but for bytes that the agenda has moved ahead of
their turn (R146). -/
def State.copyStep (s : State) (core : Nat) (inb : Bool) : Option State :=
  match (s.core core).copyQ with
  | [] => none
  | m0 :: t =>
    if !s.copyRuns core || m0.kind.inbound != inb || decide (m0.rows ≤ m0.row) || s.bestWg ((m0 :: t).map (·.wg)) != some m0.wg then none
    else
      let put := fun (r : State × CopyCmd) => some (r.1.updCore core fun c => { c with copyQ := r.2 :: t })
      match s.skipRows m0 (m0.rows + m0.moved.length) with
      | (s1, m) =>
        if m.rows ≤ m.row then put (s1, m)
        else match s1.xlate (m.ctx core) m.va (if inb then .load else .store) with
          | (s2, .ok pa leaf) =>
            put (s2.chunkMoves m core pa leaf m.chunk (m.energy m.chunk))
          | (s2, .fault code) => put (s2.stopCopy m code m.va)
          | (_, .wait) => none

/-- A command as it stands at a byte further on. -/
def CopyCmd.goTo (m : CopyCmd) (row pos : Nat) : CopyCmd :=
  { m with row := row, pos := pos, packed := m.packed + ((List.range (row - m.row)).filter fun i => rowSel m.mask (m.row + i)).length }

/-- Where a command writes the first byte of the row it stands in. -/
def CopyCmd.rowTo (m : CopyCmd) : Nat := if m.kind.inbound then m.so - m.pos else m.maddr + m.row * m.mstride

/-- Some bytes of a row may move now: whole elements of one chunk that a command has not reached, and of which no row before it that it has
still to move writes any (06 R145, R146). -/
def CopyCmd.mayMove (m : CopyCmd) (row pos n : Nat) : Bool :=
  let x := m.goTo row pos
  decide (0 < n ∧ pos % 4 = 0 ∧ n % 4 = 0 ∧ pos + n ≤ m.rowBytes ∧ row < m.rows ∧ (m.row < row ∨ m.row = row ∧ m.pos ≤ pos) ∧
    x.va.toNat % 4096 + n ≤ 4096) && rowSel m.mask row &&
  (m.moved.all fun y => y.1 != row || decide (pos + n ≤ y.2.1 ∨ y.2.1 + y.2.2 ≤ pos)) &&
  (List.range (row - m.row)).all fun i =>
    let y := m.goTo (m.row + i) 0
    !rowSel m.mask y.row || decide (x.rowTo + m.rowBytes ≤ y.rowTo ∨ y.rowTo + m.rowBytes ≤ x.rowTo)

/-- A command of a core's queue moves bytes ahead of their turn: the elements of a command, and the commands of a queue, are not ordered (06
R146, 13 R293). Where the translation faults they move in their turn, and the command stops then (R145). -/
def State.copyAhead (s : State) (core j row pos n : Nat) : State :=
  match (s.core core).copyQ[j]? with
  | none => s
  | some m =>
    if !s.copyRuns core || s.bestWg ((s.core core).copyQ.map (·.wg)) != some m.wg || !m.mayMove row pos n then s
    else
      let x := m.goTo row pos
      match s.xlate (x.ctx core) x.va (if m.kind.inbound then .load else .store) with
      | (s1, .ok pa leaf) =>
        let r := s1.chunkMoves x core pa leaf n (m.energy n)
        r.1.updCore core fun c => { c with
          copyQ := c.copyQ.set j { r.2 with row := m.row, pos := m.pos, packed := m.packed, moved := (row, pos, n) :: m.moved } }
      | (s1, _) => s1

/-- `COPY_CHUNK_LAND`: a chunk of the inbound command of a core's engine lands and is counted (06 R143). -/
def execCopyChunkLand (c : Nat) (s : State) : Out := .next ((s.copyStep c true).getD s)

/-- `COPY_CHUNK_READ`: a chunk of the outbound command of a core's engine is read, counted and written (06 R143). -/
def execCopyChunkRead (c : Nat) (s : State) : Out := .next ((s.copyStep c false).getD s)

/-- A command that has moved everything completes: PACKED of a gather, and the counter (06 R143, R147). -/
def State.copyDone (s : State) (core : Nat) : Option State :=
  match (s.core core).copyQ with
  | [] => none
  | m :: t =>
    if m.row < m.rows then none
    else
      let s1 := s.updCore core fun c => { c with copyQ := t }
      let s2 := if m.kind == .gat && m.boff != noBar && (s1.wg m.wg).tags.contains m.boff then
          s1.putBar m.wg m.boff { (s1.wg m.wg).bar m.boff with packed := m.packed } false
        else s1
      some (if (tget s2.threads m.t).isSome then s2.updThr m.t fun x => x.finishOp .copy m.id m.poison else s2)

/-- `COPY_COMPLETE`: the command of a core's copy engine completes (06 R147). -/
def execCopyComplete (c : Nat) (s : State) : Out := .next ((s.copyDone c).getD s)

/-! ### `wcnt` (06 R148) -/

/-- `WCNT`: a deferred store error first; then the wait for the count, then the reports of the class, one at a time
(05 R116, 06 R148). -/
def execWcnt (k : CntClass) (n : BitVec 6) (s : State) : Out :=
  s.lane (.wcnt k n) always false [] [] fun s =>
    match s.me.deferred, s.me.reports.find? (·.1 == k) with
    | some va, _ => s.takeDeferred va
    | none, r =>
      if n.toNat < s.count s.me k then s.waitOn (.count k n.toNat)
      else match r with
        | some x => s.takeReport x
        | none => s.finish (lenOf (.wcnt k n))

end Sys2Proof.Machine
end

