-- ==== Sys2Proof/Machine/Numeric.lean ====
section
/-!
DEFINITION. The arithmetic of the matrix engine: sums of a K-step (10 R224, R226), scaled additions (10 R225), conversions of
`mstore` (12 R272), and operand slots and tiles as sparse memories (12 R254, R263).
-/

namespace Sys2Proof

/-- Bytes of an element. -/
def MFmt.es : MFmt → Nat
  | .bf16 | .f16 => 2
  | .a8 | .i8 => 1

/-- Elements of a K-step. -/
def MFmt.ks : MFmt → Nat
  | .bf16 | .f16 => 32
  | .a8 | .i8 => 64

end Sys2Proof

namespace Sys2Proof.Machine

/-! ### Slots and tiles -/

/-- Slots cleared. -/
def clearSlots (m : Store 8) (f n : Nat) : Store 8 := m.clear (f * 4096) (n * 4096)

/-- Cell of an element of a local tile. -/
def tileAt (t i j : Nat) : Nat := t * 4096 + i * 64 + j

/-- 16, 32 or 64 by its code (12 R257). -/
def shapeSize (c : Nat) : Nat := if c = 0 then 16 else if c = 1 then 32 else 64
/-- Rows of a shape (12 R256). -/
def shapeRows (c : Nat) : Nat := shapeSize (c % 4)
/-- Columns of a shape (12 R256). -/
def shapeCols (c : Nat) : Nat := shapeSize (c / 4 % 4)

/-- One row of a tile with the first columns replaced. -/
def Store.setRow (m : Store 32) (t i : Nat) (vs : List (BitVec 32)) : Store 32 := m.setRun (tileAt t i 0) vs

/-- Every element of the shape replaced by a function of its position and value; the values may set flags. -/
def mapTile (m : Store 32) (t tr tc : Nat) (f : Nat → Nat → BitVec 32 → BitVec 32 × BitVec 6) : Store 32 × BitVec 6 :=
  (List.range tr).foldl (fun r i =>
    let row := (List.range tc).map fun j => f i j (m.read (tileAt t i j))
    (r.1.setRow t i (row.map (·.1)), row.foldl (fun a x => a ||| x.2) r.2)) (m, 0)

/-! ### Flags (12 R255) -/

/-- MSTAT's NX, UF, OF and NV of the flags of a rounding. -/
def mflagsOf (f : BitVec 5) : BitVec 6 := (f.setWidth 6 &&& 7) ||| (if f.getLsbD 4 then 8 else 0)

/-! ### Sums -/

/-- An element of an operand as a value. -/
def elemValue (f : MFmt) (v : Nat) : FVal :=
  match f with
  | .bf16 => Elem.bf16.decode v
  | .f16 => Elem.f16.decode v
  | .a8 => Elem.a8.decode v
  | .i8 => .num false 0 0

/-- An accumulator element; its NaN sets no flag (10 R224). -/
def accValue (c : BitVec 32) : FVal :=
  match Elem.f32.decode c.toNat with
  | .nan _ => .nan false
  | v => v

/-- The accumulator after one rounding of it and a sum. -/
def accAdd (c : BitVec 32) (x : FVal) : BitVec 32 × BitVec 6 :=
  let r := roundVal .f32 .ne (sumOf .ne [accValue c, x])
  (BitVec.ofNat 32 r.1, mflagsOf r.2)

/-- An element of a slot line. -/
def slotElem (m : Store 8) (es slot line e : Nat) : Nat := m.readN (slot * 4096 + line * 64 + e * es) es

/-- The pairs of elements of one K-step. -/
def stepPairs (m : Store 8) (es a b i j n : Nat) : List (Nat × Nat) :=
  (List.range n).map fun e => (slotElem m es a i e, slotElem m es b j e)

/-- INT32 range. -/
def inInt32 (v : Int) : Bool := decide (-(2 ^ 31) ≤ v ∧ v < 2 ^ 31)

/-- One K-step of one element (10 R224, R226). -/
def kStep (f : MFmt) (ps : List (Nat × Nat)) (c : BitVec 32) : BitVec 32 × BitVec 6 :=
  if f == .i8 then
    let sum : Int := ps.foldl (fun a p => a + (BitVec.ofNat 8 p.1).toInt * (BitVec.ofNat 8 p.2).toInt) 0
    let v := c.toInt + sum
    (BitVec.ofInt 32 v, if inInt32 sum && inInt32 v then 0 else 16)
  else accAdd c (sumOf .ne (ps.map fun p => (elemValue f p.1).mul (elemValue f p.2)))

/-- The K-steps of one entry for one element (12 R270). -/
def kSteps (f : MFmt) (m : Store 8) (e : MulEntry) (i j : Nat) (c : BitVec 32) : BitVec 32 × BitVec 6 :=
  (List.range e.ksteps).foldl (fun r s =>
    let n := if s + 1 = e.ksteps then e.klast else f.ks
    let q := kStep f (stepPairs m f.es (e.aslot + s) (e.bslot + s) i j n) r.1
    (q.1, r.2 ||| q.2)) (if e.zero then 0 else c, 0)

/-- A product of three; an infinity beside a zero is invalid, whatever the third is (10 R225). -/
def mul3 (p r q : FVal) : FVal :=
  let fs := [p, r, q]
  let isZero := fun (v : FVal) => match v with
    | .num _ 0 _ => true
    | _ => false
  let isInf := fun (v : FVal) => v.isInf true || v.isInf false
  if fs.any isZero && fs.any isInf then .nan true else (p.mul r).mul q

/-- A scaled partial added to an element (12 R271). -/
def scaleAdd (i32 : Bool) (c part rs cs : BitVec 32) : BitVec 32 × BitVec 6 :=
  let p := if i32 then FVal.num (part.toInt < 0) part.toInt.natAbs 0 else Elem.f32.decode part.toNat
  accAdd c (mul3 p (Elem.f32.decode rs.toNat) (Elem.f32.decode cs.toNat))

/-! ### Conversions of `mstore` (12 R272) -/

/-- Bytes of an element in a DFMT. -/
def dfmtBytes (f : Nat) : Nat := if f = 0 ∨ f = 4 then 4 else if f = 3 ∨ f = 5 then 1 else 2

/-- One element converted: its bits, its flags, and whether it overflows under the trapping policy. -/
def storeElem (f ovp : Nat) (rm : Rnd) (v : BitVec 32) : Nat × BitVec 6 × Bool :=
  let conv := fun (E : Elem) (md : Rnd) =>
    let r := fcvtE E .f32 md (BitVec.ofNat 2 ovp) v.toNat
    (r.1.1, mflagsOf r.1.2, r.2)
  if f = 1 then conv .bf16 rm
  else if f = 2 then conv .f16 rm
  else if f = 3 then conv .a8 .ne
  else if f = 5 then
    let x := v.toInt
    let y := if x < -128 then -128 else if 127 < x then 127 else x
    ((BitVec.ofInt 8 y).toNat, if x = y then 0 else 32, false)
  else (v.toNat, 0, false)

end Sys2Proof.Machine
end

