-- ==== Sys2Proof/Machine/Matrix.lean ====
section
/-!
DEFINITION. The matrix engine (chapter 12): claims of operand slots (R264 to R266), issue and acceptance of its commands
(R257, R260, R267 to R275), their performance in acceptance order (R261), and the yield of an engine to a higher-ranked
command (18 R417).
-/

namespace Sys2Proof.Machine

/-! ### Slots of a core (12 R264, R265) -/

/-- Slots that no workgroup of a core holds. -/
def State.freeSlots (s : State) (c : Nat) : Nat := 256 - s.slotsHeld c

/-- Slots whose release a workgroup has had accepted (12 R265). -/
def State.releasing (s : State) (w : Nat) : List Nat :=
  ((s.core (s.wg w).core).matQ.filter (·.wg == w)).flatMap fun m => match m.op with
    | .rel f n => (List.range n).map (f + ·)
    | _ => []

/-- A workgroup holds a slot that no accepted release names. -/
def State.holdsSlot (s : State) (w i : Nat) : Bool := (s.wg w).held.contains i && !(s.releasing w).contains i

/-- A thread waits for room for a command. -/
def Thread.accepting (t : Thread) : Bool :=
  match t.wait with
  | some (.accept _) => true
  | _ => false

/-- A thread waits in `mclaim.w`. -/
def Thread.claiming (t : Thread) : Bool :=
  match t.wait with
  | some (.claim _ _ _) => true
  | _ => false

/-- Claims whose threads still wait in the workgroup and on the core they claimed for, oldest first. -/
def State.liveClaims (s : State) (c : Nat) : List Claim :=
  (s.core c).claims.filter fun x => (s.thr x.t).claiming && (s.thr x.t).wg == x.wg && (s.thr x.t).core == c

/-- Slots attached to a workgroup, with their contents zeroed. -/
def State.attach (s : State) (w f n : Nat) : State :=
  s.updWg w fun g => { g with held := g.held ++ (List.range n).map (f + ·), slotMem := clearSlots g.slotMem f n }

/-- Some local index of a range is held. -/
def State.heldIn (s : State) (w f n : Nat) : Bool := (List.range n).any fun i => (s.wg w).held.contains (f + i)

/-- A range of slots out of bounds. -/
def badSlots (f n : Nat) : Bool := decide (n = 0 ∨ 64 < n ∨ 63 < f ∨ 64 < f + n)

/-- The end of a claim: the status, and the predicate. -/
def Thread.claimed (t : Thread) (d : BitVec 5) (pc : BitVec 3) (la : BitVec 4) (v : Word) : Thread :=
  ((t.post (.x d) la v).setP pc (v == 0)).complete 8

/-- `MCLAIM`: claims slots at once (12 R264). -/
def execMclaim (g : BitVec 4) (d a b : BitVec 5) (pc : BitVec 3) (la : BitVec 4) (ru : BitVec 3) (s : State) : Out :=
  s.lane (.mclaim g d a b pc la ru) g true [.x d, .x a, .x b] [.x a, .x b] fun s =>
    let f := (s.srcX 0 a).toNat
    let n := (s.srcX 1 b).toNat
    let w := s.me.wg
    let c := s.me.core
    if badSlots f n then s.updMe fun t => t.claimed d pc la (-1)
    else if s.heldIn w f n then s.updMe fun t => t.claimed d pc la (-4)
    else if !(s.liveClaims c).isEmpty || decide (s.freeSlots c < n) then s.updMe fun t => t.claimed d pc la (-2)
    else (s.attach w f n).updMe fun t => t.claimed d pc la 0

/-- `MCLAIM_W`: claims slots, or joins the core's queue and waits (12 R264). -/
def execMclaimW (g : BitVec 4) (d a b : BitVec 5) (pc : BitVec 3) (la : BitVec 4) (ru : BitVec 3) (s : State) : Out :=
  s.lane (.mclaimW g d a b pc la ru) g true [.x d, .x a, .x b] [.x a, .x b] fun s =>
    let f := (s.srcX 0 a).toNat
    let n := (s.srcX 1 b).toNat
    let w := s.me.wg
    let c := s.me.core
    if badSlots f n then s.updMe fun t => t.claimed d pc la (-1)
    else if s.heldIn w f n then s.updMe fun t => t.claimed d pc la (-4)
    else if (s.liveClaims c).isEmpty && decide (n ≤ s.freeSlots c) then (s.attach w f n).updMe fun t => t.claimed d pc la 0
    else (s.updCore c fun k => { k with claims := s.liveClaims c ++ [⟨s.cur, w, f, n⟩] }).waitOn (.claim d pc la)

/-- A core's matrix engine performs commands and grants claims: the core runs, and the engine is not out of service (16 R347; 19
R434). -/
def State.matRuns (s : State) (c : Nat) : Bool := s.coreRuns c && !s.gone (.matrixEngine c)

/-- The oldest claim of a core is granted, or finds its indices taken (12 R264). -/
def State.grantClaim (s : State) (c : Nat) : Option State :=
  if !s.matRuns c then none else
  match s.liveClaims c with
  | [] => none
  | x :: t =>
    match (s.thr x.t).wait with
    | some (.claim d pc la) =>
      let s1 := s.updCore c fun k => { k with claims := t }
      if s.freeSlots c < x.n then none
      else if s.heldIn x.wg x.f x.n then some (s1.updThr x.t fun y => y.claimed d pc la (-4))
      else some ((s1.attach x.wg x.f x.n).updThr x.t fun y => y.claimed d pc la 0)
    | _ => none

/-- `MCLAIM_W_GRANT`: the claim at the head of a core's queue is granted (12 R264). -/
def execMclaimWGrant (c : Nat) (s : State) : Out := .next ((s.grantClaim c).getD s)

/-- The condition of CLAIM_DEADLOCK, with the youngest claim (12 R266). -/
def State.deadlocked (s : State) (c : Nat) : Option Claim :=
  match s.liveClaims c with
  | [] => none
  | x :: t =>
    let noRel := (s.core c).matQ.all fun m => match m.op with
      | .rel _ _ => false
      | _ => true
    if decide (s.freeSlots c < x.n) && noRel &&
        ((s.onCore c).all fun g => g.2.held.isEmpty || (x :: t).any fun y => y.wg == g.1) then (x :: t).getLast?
    else none

/-- `CLAIM_DEADLOCK`: the youngest claimant takes the trap and leaves the queue (12 R266); members of its gang that still wait
enter beside it (18 R398). -/
def execClaimDeadlock (c : Nat) (s : State) : Out :=
  .next <| match s.deadlocked c with
    | some x =>
      let s1 := s.updCore c fun k => { k with claims := (s.liveClaims c).filter (· != x) }
      { s1 with cur := x.t, gang := some ⟨[(x.t, (s.thr x.t).gpos)], [], [], (s.thr x.t).pc, (s.thr x.t).word, (s.thr x.t).issue, true, []⟩ }.trap 0x23 (BitVec.ofNat 64 x.n)
    | none => s

/-! ### Issue (12 R257 to R260) -/

/-- The shape a command accepted now is performed under: that of the last shape change in the queue (log entry 20). -/
def State.shapeAt (s : State) (c : Nat) : Nat :=
  (s.core c).matQ.foldl (fun a m => match m.op with
    | .cfg n => n
    | _ => a) (s.core c).tcfg.toNat

/-- Room for one more counted command, while no lower lane of the same issue waits to have its own accepted (12 R260). -/
def State.matRoom (s : State) (t : Thread) : Bool :=
  decide (s.count t .matrix < 63) && decide ((s.core t.core).matQ.length < 64) &&
  !s.threads.any fun x => x.2.accepting && x.2.issue == t.issue && x.2.core == t.core && decide (x.2.lane < t.lane)

/-- A command joins its core's queue under a new number. The queue's 64 bound the counted commands, which wait for room; a command that is
not counted joins a full queue too (DESIGN CHOICE, log entry 105). -/
def State.enqueueMat (s : State) (op : MatOp) : State :=
  let m : MatCmd := { id := s.nextId, t := s.cur, wg := s.me.wg, op := op }
  { s with nextId := s.nextId + 1 }.updCore s.me.core fun k => { k with matQ := k.matQ ++ [m] }

/-- A counted command is accepted with status 0, or waits for room. -/
def State.acceptMat (s : State) (i : Instr) (d : BitVec 5) (la : BitVec 4) (op : MatOp) : State :=
  if s.matRoom s.me then
    ((s.enqueueMat op).updMe fun t => t.accept .matrix s.nextId).finishLate (lenOf i) (.x d) la 0
  else s.waitOn (.accept i)

/-- A command that is not accepted: its status. -/
def State.matStatus (s : State) (i : Instr) (d : BitVec 5) (la : BitVec 4) (v : Word) : State :=
  s.finishLate (lenOf i) (.x d) la v

/-- `MCFG`: checks a new shape and has it applied after the commands before it (12 R257). -/
def execMcfg (g : BitVec 4) (d : BitVec 5) (rows cols : BitVec 2) (la : BitVec 4) (ru : BitVec 3) (s : State) : Out :=
  s.lane (.mcfg g d rows cols la ru) g true [.x d] [] fun s =>
    let i : Instr := .mcfg g d rows cols la ru
    let c := s.me.core
    let new := rows.toNat + cols.toNat * 4
    if rows = 3 ∨ cols = 3 then s.matStatus i d la (-1)
    else if new = (s.core c).tcfg.toNat then s.matStatus i d la 0
    else if !s.me.mode && (s.onCore c).any fun x => x.1 != s.me.wg && (!x.2.held.isEmpty || x.2.grant != 0) then
      s.matStatus i d la (-3)
    else ((s.enqueueMat (.cfg new)).updMe fun t => t.expect (.x d) la s.nextId).finish (lenOf i)

/-- `MREL`: releases slots after the commands before it (12 R265). -/
def execMrel (g : BitVec 4) (d a b : BitVec 5) (la : BitVec 4) (ru : BitVec 3) (s : State) : Out :=
  s.lane (.mrel g d a b la ru) g true [.x d, .x a, .x b] [.x a, .x b] fun s =>
    let i : Instr := .mrel g d a b la ru
    let f := (s.srcX 0 a).toNat
    let n := (s.srcX 1 b).toNat
    if badSlots f n then s.matStatus i d la (-1)
    else if !(List.range n).all fun k => s.holdsSlot s.me.wg (f + k) then s.matStatus i d la (-4)
    else (s.enqueueMat (.rel f n)).matStatus i d la 0

/-- The operands of `mload` (12 R267): the status of a failed check, or the command. -/
def State.loadCmd (s : State) (tr e8 : Bool) (xa xb xc : Word) : Except Word MatOp :=
  let g := s.wg s.me.wg
  let es := if e8 then 1 else 2
  let ks := 64 / es
  let soff := xa.toNat
  let slot := xb.toNat % 256
  let lines := xb.toNat / 256 % 256
  let st := xc.toNat
  let span := if tr then (ks - 1) * st + lines * es else (lines - 1) * st + ks * es
  if xb.toNat / 2 ^ 16 ≠ 0 ∨ lines = 0 ∨ 64 < lines ∨ soff % es ≠ 0 ∨ st % es ≠ 0 ∨ 2 ^ 22 ≤ st then .error (-1)
  else if g.spSize < soff + span then .error (-1)
  else if !s.holdsSlot s.me.wg slot then .error (-4)
  else .ok (.load tr e8 soff slot lines st)

/-- A checked command is accepted, or its status written. -/
def State.issueMat (s : State) (i : Instr) (d : BitVec 5) (la : BitVec 4) (r : Except Word MatOp) : State :=
  match r with
  | .ok op => s.acceptMat i d la op
  | .error v => s.matStatus i d la v

/-- `MLOAD`: fills a slot from rows of scratchpad (12 R267). -/
def execMload (e8 : Bool) (g : BitVec 4) (d a b c : BitVec 5) (la : BitVec 4) (ru : BitVec 3) (s : State) : Out :=
  s.lane (.mload e8 g d a b c la ru) g true [.x d, .x a, .x b, .x c] [.x a, .x b, .x c] fun s =>
    s.issueMat (.mload e8 g d a b c la ru) d la (s.loadCmd false e8 (s.srcX 0 a) (s.srcX 1 b) (s.srcX 2 c))

/-- `MLOAD_T`: fills a slot from rows of scratchpad, transposed (12 R267). -/
def execMloadT (e8 : Bool) (g : BitVec 4) (d a b c : BitVec 5) (la : BitVec 4) (ru : BitVec 3) (s : State) : Out :=
  s.lane (.mloadT e8 g d a b c la ru) g true [.x d, .x a, .x b, .x c] [.x a, .x b, .x c] fun s =>
    s.issueMat (.mloadT e8 g d a b c la ru) d la (s.loadCmd true e8 (s.srcX 0 a) (s.srcX 1 b) (s.srcX 2 c))

/-- The descriptor of `mgath`, read at acceptance (12 R268). The rule gives no order for the two statuses: a descriptor error comes before
an unheld slot (DESIGN CHOICE, log entry 95). -/
def State.gathCmd (s : State) (e8 : Bool) (xa xb : Word) : Except Word MatOp :=
  let g := s.wg s.me.wg
  let o := xa.toNat
  let fld := fun i => g.spad.readN (o + 4 * i) 4
  let slot := xb.toNat % 256
  if o % 16 ≠ 0 ∨ g.spSize < o + 32 ∨ 256 ≤ xb.toNat then .error (-1)
  else if fld 5 ≠ 0 ∨ fld 6 ≠ 0 ∨ fld 7 ≠ 0 ∨ fld 0 % 4 ≠ 0 ∨ fld 1 % 4 ≠ 0 ∨ fld 2 % (if e8 then 1 else 2) ≠ 0 then .error (-1)
  else if !s.holdsSlot s.me.wg slot then .error (-4)
  else .ok (.gath e8 (fld 0) (fld 1) (fld 2) (fld 3) (fld 4) slot)

/-- `MGATH`: builds a dense slot from compressed sparse rows (12 R268). -/
def execMgath (e8 : Bool) (g : BitVec 4) (d a b : BitVec 5) (la : BitVec 4) (ru : BitVec 3) (s : State) : Out :=
  s.lane (.mgath e8 g d a b la ru) g true [.x d, .x a, .x b] [.x a, .x b] fun s =>
    s.issueMat (.mgath e8 g d a b la ru) d la (s.gathCmd e8 (s.srcX 0 a) (s.srcX 1 b))

/-- An entry of a parameter block (12 R269). -/
def mulEntry (v : Nat) : MulEntry :=
  ⟨v % 256, v / 2 ^ 8 % 256, v / 2 ^ 16 % 256, v / 2 ^ 24 % 256, v / 2 ^ 32 % 256, v.testBit 41⟩

/-- An entry that breaks R269. -/
def badEntry (f : MFmt) (g : WG) (v : Nat) : Bool :=
  if v.testBit 40 then
    let e := mulEntry v
    decide (2 ^ 42 ≤ v) || decide (g.grant ≤ e.acc) || e.ksteps == 0 || decide (64 < e.ksteps ∨ 64 < e.aslot + e.ksteps ∨
      64 < e.bslot + e.ksteps) || e.klast == 0 || decide (f.ks < e.klast)
  else v != 0

/-- The parameter block of `mmul`, read at acceptance (12 R269): none for a block without a valid entry. The rule gives no order for the
two statuses: a breach in any entry comes before an unheld slot in any (DESIGN CHOICE, log entry 95). -/
def State.mulCmd (s : State) (f : MFmt) (xa : Word) : Except Word MatOp :=
  let g := s.wg s.me.wg
  let o := xa.toNat
  let vs := (List.range 8).map fun i => g.spad.readN (o + 8 * i) 8
  let es := (vs.filter (·.testBit 40)).map mulEntry
  if o % 8 ≠ 0 ∨ g.spSize < o + 64 then .error (-1)
  else if vs.any (badEntry f g) then .error (-1)
  else if es.any fun e => !(List.range e.ksteps).all fun k =>
      s.holdsSlot s.me.wg (e.aslot + k) && s.holdsSlot s.me.wg (e.bslot + k) then .error (-4)
  else if es.isEmpty then .error 0
  else .ok (.mul f es)

/-- `MMUL`: the valid entries of a parameter block as products (12 R269, R270). -/
def execMmul (f : MFmt) (g : BitVec 4) (d a : BitVec 5) (la : BitVec 4) (ru : BitVec 3) (s : State) : Out :=
  s.lane (.mmul f g d a la ru) g true [.x d, .x a] [.x a] fun s =>
    s.issueMat (.mmul f g d a la ru) d la (s.mulCmd f (s.srcX 0 a))

/-- The operands of `msacc` (12 R271). -/
def State.saccCmd (s : State) (i32 z : Bool) (xa xb xc : Word) : Except Word MatOp :=
  let g := s.wg s.me.wg
  let sh := s.shapeAt s.me.core
  let dst := xc.toNat % 256
  let part := xc.toNat / 256 % 256
  if xa.toNat % 4 ≠ 0 ∨ xb.toNat % 4 ≠ 0 ∨ g.spSize < xa.toNat + 4 * shapeRows sh ∨ g.spSize < xb.toNat + 4 * shapeCols sh ∨
      2 ^ 16 ≤ xc.toNat ∨ dst = part ∨ g.grant ≤ dst ∨ g.grant ≤ part then .error (-1)
  else .ok (.sacc i32 z xa.toNat xb.toNat dst part)

/-- `MSACC`: adds a scaled partial tile (12 R271). -/
def execMsacc (i32 z : Bool) (g : BitVec 4) (d a b c : BitVec 5) (la : BitVec 4) (ru : BitVec 3) (s : State) : Out :=
  s.lane (.msacc i32 z g d a b c la ru) g true [.x d, .x a, .x b, .x c] [.x a, .x b, .x c] fun s =>
    s.issueMat (.msacc i32 z g d a b c la ru) d la (s.saccCmd i32 z (s.srcX 0 a) (s.srcX 1 b) (s.srcX 2 c))

/-- The range check of a tile's rows in scratchpad (12 R272, R273). -/
def tileRange (g : WG) (sh es soff st : Nat) : Bool :=
  soff % es == 0 && st % es == 0 && decide (shapeCols sh * es ≤ st) &&
  decide (soff + (shapeRows sh - 1) * st + shapeCols sh * es ≤ g.spSize)

/-- OVP and RM that a DFMT allows (12 R272). -/
def dfmtOk (f ovp rm : Nat) : Bool :=
  if f = 1 ∨ f = 2 then decide (rm ≤ 4) else if f = 3 then rm == 0 else decide (f < 6) && ovp == 0 && rm == 0

/-- The operands of `mstore` (12 R272). -/
def State.storeCmd (s : State) (f ovp rm : Nat) (z : Bool) (xa xb : Word) : Except Word MatOp :=
  let g := s.wg s.me.wg
  let soff := xa.toNat % 2 ^ 32
  let boff := xa.toNat / 2 ^ 32
  let tile := xb.toNat % 256
  let st := xb.toNat / 2 ^ 32
  if !dfmtOk f ovp rm || xb.toNat / 256 % 2 ^ 24 != 0 || !tileRange g (s.shapeAt s.me.core) (dfmtBytes f) soff st ||
      decide (g.grant ≤ tile) || (boff != noBar && !g.barOffset boff) then .error (-1)
  else .ok (.store f ovp (if rm = 4 then s.me.frm.toNat else rm) z soff boff tile st)

/-- `MSTORE`: converts a tile into scratchpad (12 R272). -/
def execMstore (fmt : BitVec 3) (ovp : BitVec 2) (rm : BitVec 3) (z : Bool) (g : BitVec 4) (d a b : BitVec 5) (la : BitVec 4)
    (ru : BitVec 3) (s : State) : Out :=
  s.lane (.mstore fmt ovp rm z g d a b la ru) g true [.x d, .x a, .x b] [.x a, .x b] fun s =>
    s.issueMat (.mstore fmt ovp rm z g d a b la ru) d la
      (s.storeCmd fmt.toNat ovp.toNat rm.toNat z (s.srcX 0 a) (s.srcX 1 b))

/-- `MZERO`: zeroes local tiles (12 R274). -/
def execMzero (g : BitVec 4) (d a b : BitVec 5) (la : BitVec 4) (ru : BitVec 3) (s : State) : Out :=
  s.lane (.mzero g d a b la ru) g true [.x d, .x a, .x b] [.x a, .x b] fun s =>
    let f := (s.srcX 0 a).toNat
    let n := (s.srcX 1 b).toNat
    s.issueMat (.mzero g d a b la ru) d la
      (if n = 0 ∨ (s.wg s.me.wg).grant < f + n then .error (-1) else .ok (.zero f n))

/-- `MSTAT`: reads MSTAT after the commands before it, and clears flags; the result comes at its completion (12 R275). -/
def execMstat (g : BitVec 4) (d a : BitVec 5) (la : BitVec 4) (ru : BitVec 3) (s : State) : Out :=
  s.lane (.mstat g d a la ru) g true [.x d, .x a] [.x a] fun s =>
    let i : Instr := .mstat g d a la ru
    if s.matRoom s.me then
      ((s.enqueueMat (.stat ((s.srcX 0 a).toNat % 64))).updMe fun t =>
        (t.accept .matrix s.nextId).expect (.x d) la s.nextId).finish (lenOf i)
    else s.waitOn (.accept i)

/-- `MACLD`: loads a tile from scratchpad (12 R273). -/
def execMacld (g : BitVec 4) (d a b : BitVec 5) (la : BitVec 4) (ru : BitVec 3) (s : State) : Out :=
  s.lane (.macld g d a b la ru) g true [.x d, .x a, .x b] [.x a, .x b] fun s =>
    let w := s.wg s.me.wg
    let xa := (s.srcX 0 a).toNat
    let xb := (s.srcX 1 b).toNat
    s.issueMat (.macld g d a b la ru) d la
      (if xb / 256 % 2 ^ 24 ≠ 0 ∨ !tileRange w (s.shapeAt s.me.core) 4 xa (xb / 2 ^ 32) ∨ w.grant ≤ xb % 256 then .error (-1)
       else .ok (.ld xa (xb % 256) (xb / 2 ^ 32)))

/-! ### Performance (12 R261, R265 to R275, R277) -/

/-- The 64 bytes an `mload` fills a line of its slot with (12 R267). -/
def loadLine (sp : Store 8) (tr e8 : Bool) (soff lines st l : Nat) : List Byte :=
  let es := if e8 then 1 else 2
  (List.range 64).map fun b =>
    if lines ≤ l then 0
    else if tr then Store.read sp (soff + b / es * st + l * es + b % es)
    else Store.read sp (soff + l * st + b)

/-- One row of a tile replaced by a function of the column and the value; the values may set flags. -/
def mapRow (m : Store 32) (t i tc : Nat) (f : Nat → BitVec 32 → BitVec 32 × BitVec 6) : Store 32 × BitVec 6 :=
  let row := (List.range tc).map fun j => f j (m.read (tileAt t i j))
  (m.setRow t i (row.map (·.1)), row.foldl (fun a x => a ||| x.2) 0)

/-- A row of zeros. -/
def zeroRow (m : Store 32) (t i tc : Nat) : Store 32 := (mapRow m t i tc fun _ _ => (0, 0)).1

/-- A poisoned matrix command (12 R276). -/
def matFault (n : Word) : Option Report := some ⟨0x24, n, none⟩

/-- What is left of a command after a part of it: the command with its progress, or what it has to report at its completion. -/
abbrev MatRest := Except (Option Report) MatCmd

/-- The next row of a command, or its end after `n` rows. -/
def MatCmd.nextRow (m : MatCmd) (n : Nat) : MatRest :=
  if m.row + 1 < n then .ok { m with row := m.row + 1, pos := 0, stop := 0 } else .error m.poison

/-- A part of `mgath` (12 R268): the row pointers of a K-row, or one of its entries; an access outside the allocation, or a K-row that
ends before it begins, leaves the slot all zero. -/
def gathPart (sp : Store 8) (size es rowptr colidx values k0 c0 slot : Nat) (m : MatCmd) (sm : Store 8) : Store 8 × MatRest :=
  let zero := clearSlots sm slot 1
  let bad : Store 8 × MatRest := (zero, .error (matFault 1))
  if m.stop ≤ m.pos then
    let sm := if m.row = 0 then zero else sm
    let p := rowptr + 4 * (k0 + m.row)
    let lo := sp.readN p 4
    let hi := sp.readN (p + 4) 4
    if size < p + 8 ∨ hi < lo then bad
    else if lo = hi then (sm, m.nextRow (64 / es))
    else (sm, .ok { m with pos := lo, stop := hi })
  else
    let q := m.pos
    let col := sp.readN (colidx + 4 * q) 4
    let here := decide (c0 ≤ col ∧ col < c0 + 64)
    if size < colidx + 4 * q + 4 ∨ (here = true ∧ size < values + es * q + es) then bad
    else
      let sm := if here then sm.writeN (slot * 4096 + (col - c0) * 64 + m.row * es) es (sp.readN (values + es * q) es) else sm
      let m1 := { m with read := m.read + 1 }
      (sm, if q + 1 < m.stop then .ok { m1 with pos := q + 1 } else m1.nextRow (64 / es))

/-- One K-step of one entry of an `mmul`, for every element (12 R270). -/
def mulStep (f : MFmt) (slots : Store 8) (tr tc : Nat) (e : MulEntry) (k : Nat) (tm : Store 32) : Store 32 × BitVec 6 :=
  let n := if k + 1 = e.ksteps then e.klast else f.ks
  mapTile tm e.acc tr tc fun i j c =>
    kStep f (stepPairs slots f.es (e.aslot + k) (e.bslot + k) i j n) (if k = 0 && e.zero then 0 else c)

/-- The elements of one row of an `mstore` (12 R272). -/
def storeRow (tm : Store 32) (fmt ovp rm tile tc i : Nat) : List (Nat × BitVec 6 × Bool) :=
  (List.range tc).map fun j => storeElem fmt ovp (rndOf (BitVec.ofNat 2 rm)) (tm.read (tileAt tile i j))

/-- A part of a command, up to its next yield point: the state, and what is left of the command. -/
def State.performMat (s : State) (m : MatCmd) : State × MatRest :=
  let g := s.wg m.wg
  let sh := (s.core g.core).tcfg.toNat
  let tr := shapeRows sh
  let tc := shapeCols sh
  let i := m.row
  match m.op with
  | .cfg _ => (s, .ok m)
  | .rel f n =>
    (s.updWg m.wg fun g => { g with
      held := g.held.filter fun i => !decide (f ≤ i ∧ i < f + n), slotMem := clearSlots g.slotMem f n }, .error none)
  | .load t e8 soff slot lines st =>
    (s.updWg m.wg fun g => { g with slotMem := g.slotMem.setRun (slot * 4096 + i * 64) (loadLine g.spad t e8 soff lines st i) }, m.nextRow 64)
  | .gath e8 rp ci vs k0 c0 slot =>
    let r := gathPart g.spad g.spSize (if e8 then 1 else 2) rp ci vs k0 c0 slot m g.slotMem
    (s.updWg m.wg fun g => { g with slotMem := r.1 }, r.2)
  | .mul f es =>
    match es[i]? with
    | none => (s, .error none)
    | some e =>
      let r := mulStep f g.slotMem tr tc e m.pos g.tileMem
      (s.updWg m.wg fun g => { g with tileMem := r.1, mflags := g.mflags ||| r.2 },
        if m.pos + 1 < e.ksteps then .ok { m with pos := m.pos + 1 } else m.nextRow es.length)
  | .sacc i32 z rs cs dst part =>
    let r := mapRow g.tileMem dst i tc fun j c =>
      scaleAdd i32 c (g.tileMem.read (tileAt part i j)) (BitVec.ofNat 32 (g.spad.readN (rs + 4 * i) 4))
        (BitVec.ofNat 32 (g.spad.readN (cs + 4 * j) 4))
    (s.updWg m.wg fun g => { g with
      tileMem := if z then zeroRow r.1 part i tc else r.1, mflags := g.mflags ||| r.2 }, m.nextRow tr)
  | .store fmt ovp rm z soff boff tile st =>
    let rows := storeRow g.tileMem fmt ovp rm tile tc
    if i = 0 && (List.range tr).any fun k => (rows k).any (·.2.2) then (s, .error (matFault 2))
    else
      let fl := (rows i).foldl (fun a e => a ||| e.2.1) 0
      let bs := (rows i).flatMap fun e => bytesOf (dfmtBytes fmt) e.1
      let q := s.land m.t m.wg (soff + i * st) bs m.poison
      let c := q.1.countFor m.t m.wg boff bs.length false q.2.2 q.2.1
      (c.1.updWg m.wg fun g => { g with
        mflags := g.mflags ||| fl
        tileMem := if z then zeroRow g.tileMem tile i tc else g.tileMem }, ({ m with poison := c.2 } : MatCmd).nextRow tr)
  | .zero f n => (s.updWg m.wg fun g => { g with tileMem := g.tileMem.clear (f * 4096) (n * 4096) }, .error none)
  | .stat clear =>
    let s1 := s.updWg m.wg fun g => { g with mflags := g.mflags &&& ~~~(BitVec.ofNat 6 clear) }
    (if (tget s.threads m.t).isSome then s1.updThr m.t fun t => t.produce m.id g.mstat else s1, .error none)
  | .ld soff tile st =>
    (s.updWg m.wg fun g => { g with
      tileMem := (mapRow g.tileMem tile i tc fun j _ => (BitVec.ofNat 32 (g.spad.readN (soff + i * st + 4 * j) 4), 0)).1 },
     m.nextRow tr)

/-- Commands that no counter counts (12 R258). -/
def MatOp.counted : MatOp → Bool
  | .cfg _ | .rel _ _ => false
  | _ => true

/-- The clocks of part `i` of `n`, of a command that takes `total`. -/
def partClocks (total n i : Nat) : Nat := (i + 1) * total / n - i * total / n

/-- Commands whose entries pay no fill after one another (12 R279). -/
def MatOp.fills : MatOp → Bool
  | .mul .. | .sacc .. => true
  | _ => false

/-- S-clocks in which the engine performs the next part of a command (12 R279); `filled` says that the part before was of an `mmul` or
`msacc`, which the fill is not paid after. Clocks are shared out over the parts (log entry 21). -/
def MatCmd.clocks (m : MatCmd) (sh : Nat) (filled : Bool) : Nat :=
  let r := shapeRows sh
  let n := r * shapeCols sh
  let fill := if filled then 0 else 40
  match m.op with
  | .cfg _ | .rel _ _ => 0
  | .load t _ _ _ _ _ => partClocks (if t then 48 else 32) 64 m.row
  | .gath .. => (if m.row = 0 ∧ m.read = 0 ∧ m.stop = 0 then 40 else 0) + (if m.pos < m.stop ∧ m.read % 4 = 0 then 1 else 0)
  | .mul .. => (if m.pos = 0 then fill else 0) + n / 256
  | .sacc .. => (if m.row = 0 then fill else 0) + partClocks (24 + n / 256) r m.row
  | .store fmt .. => partClocks (24 + (n * dfmtBytes fmt + 1023) / 1024) r m.row
  | .zero _ k => 2 * k
  | .stat _ => 4
  | .ld .. => partClocks (24 + (n * 4 + 1023) / 1024) r m.row

/-- The oldest command of a core is performed up to its next yield point, and with its last part completes. It gives way to a command of a
better-ranked workgroup (18 R417), while no shape change that the others depend on stands in the queue (12 R257). -/
def State.matStep (s : State) (c : Nat) : Option State :=
  match (s.core c).matQ with
  | [] => none
  | m :: t =>
    if m.op.isCfg || !s.matRuns c || (noCfg (m :: t) && s.bestWg ((m :: t).map (·.wg)) != some m.wg) then none
    else
      let r := (s.spendEngine c (256 * m.clocks (s.core c).tcfg.toNat (s.core c).filled)).performMat m
      match r.2 with
      | .ok m1 => some (r.1.updCore c fun k => { k with matQ := m1 :: t, filled := m.op.fills })
      | .error p =>
        let s1 := r.1.updCore c fun k => { k with matQ := t, filled := m.op.fills && !t.isEmpty }
        some (if m.op.counted && (tget s1.threads m.t).isSome then s1.updThr m.t fun x => x.finishOp .matrix m.id p else s1)

/-- `MATRIX_PERFORM`: a core's engine performs the oldest accepted command, up to its next yield point (12 R261, R277). -/
def execMatrixPerform (c : Nat) (s : State) : Out := .next ((s.matStep c).getD s)

/-- A shape change whose turn has come: the store of the core is zeroed, TCFG takes the shape, and the status is written. -/
def State.applyCfg (s : State) (c : Nat) : Option State :=
  if !s.matRuns c then none else
  match (s.core c).matQ with
  | ⟨id, who, _, .cfg new, _, _, _, _, _⟩ :: t =>
    let s1 := s.updCore c fun k => { k with matQ := t, tcfg := BitVec.ofNat 4 new, filled := false }
    let s2 := { s1 with wgs := s1.wgs.map fun w =>
      if w.2.core == c && w.2.resident then (w.1, { w.2 with slotMem := [], tileMem := [] }) else w }
    some (if (tget s2.threads who).isSome then s2.updThr who fun x => x.produce id 0 else s2)
  | _ => none

/-- `MCFG_APPLY`: the shape change at the head of a core's queue takes effect (12 R257). -/
def execMcfgApply (c : Nat) (s : State) : Out := .next ((s.applyCfg c).getD s)

/-! ### Rank (16 R361; 18 R417) -/

/-- A queue with the commands of one workgroup first. -/
def hoist {α : Type} (wg : α → Nat) (w : Nat) (q : List α) : List α := q.filter (wg · == w) ++ q.filter (wg · != w)

/-- The head of a queue is not of the best-ranked workgroup, and may be passed. -/
def State.outranked (s : State) (c : Nat) (isM : Bool) : Bool :=
  let k := s.core c
  let ws := if isM then k.matQ.map (·.wg) else k.copyQ.map (·.wg)
  (!isM || noCfg k.matQ) && s.bestWg ws != ws.head?

/-- The next step of a core's matrix engine: the commands of the best-ranked workgroup go first, a shape change takes effect, or a part of the
command at the head is performed. -/
def State.matTurn (s : State) (c : Nat) : Option State :=
  if s.outranked c true then
    (s.bestWg ((s.core c).matQ.map (·.wg))).map fun w => s.updCore c fun k => { k with matQ := hoist (·.wg) w k.matQ }
  else s.applyCfg c <|> s.matStep c

/-- A core's matrix engine goes on, for a number of steps, until no command that owes its issuer a result is left. -/
def State.engineOn (c : Nat) : Nat → State → State
  | 0, s => s
  | n + 1, s =>
    if (s.core c).matQ.all fun m => !m.op.owes then s
    else match s.matTurn c with
      | some s1 => State.engineOn c n s1
      | none => s

/-- `ENGINE_PREEMPT`: at the yield point of the running command, the commands of the best-ranked workgroup go first
(18 R417). -/
def execEnginePreempt (c : Nat) (isM : Bool) (s : State) : Out :=
  .next <|
    if isM then
      match s.bestWg ((s.core c).matQ.map (·.wg)), noCfg (s.core c).matQ with
      | some w, true => s.updCore c fun k => { k with matQ := hoist (·.wg) w k.matQ }
      | _, _ => s
    else match s.bestWg ((s.core c).copyQ.map (·.wg)) with
      | some w => s.updCore c fun k => { k with copyQ := hoist (·.wg) w k.copyQ }
      | none => s

end Sys2Proof.Machine
end

