-- ==== Sys2Proof/Machine/Walker.lean ====
section
/-!
DEFINITION. The commands of the walkers: `cw.*` (05 R117, R118), page movement (05 R119, R120), `pg.split` and `pg.coll`
(05 R122 to R124), and `tlb.inv` (04 R95, R96), from their issue to their completion.
-/

namespace Sys2Proof.Machine

/-! ### Issue and completion (05 R125) -/

/-- A command is accepted: it is counted, and its status will come. -/
def State.acceptWalk (s : State) (i : Instr) (d : BitVec 5) (la : BitVec 4) (op : WalkOp) : State :=
  let t := s.me
  let m : WalkCmd := { id := s.nextId, t := s.cur, wg := t.wg, die := t.die, op := op, asid := t.asid, ptBase := t.ptBase, mode := t.mode }
  let s1 := { s with nextId := s.nextId + 1, walks := s.walks ++ [m] }
  (s1.updMe fun t => (t.accept .walker m.id).expect (.x d) la m.id).finish (lenOf i)

/-- A command that has passed its checks can be accepted: its counter has room, and the die's walker takes commands (19 R434). -/
def State.walkRoom (s : State) (t : Thread) : Bool := decide (s.count t .walker < 63) && s.online (.walker t.die)

/-- Issue of a command. -/
def State.issueWalk (s : State) (i : Instr) (d : BitVec 5) (la : BitVec 4) (op : WalkOp) : State :=
  if s.walkRoom s.me then s.acceptWalk i d la op else s.waitOn (.accept i)

/-- A command leaves the list: its status is written and its counter falls. -/
def State.endWalk (s : State) (m : WalkCmd) (status : Word) (p : Option Report) : State :=
  let s1 := { s with walks := s.walks.filter (·.id != m.id) }
  if (tget s1.threads m.t).isSome then s1.updThr m.t fun t => (t.produce m.id status).finishOp .walker m.id p else s1

/-- The context a walker reads the tables under (04 R89). -/
def WalkCmd.ctx (m : WalkCmd) : MCtx := ⟨dieAgent m.die, none, m.die, m.asid, m.ptBase, m.mode, m.t⟩

/-- A die lies within a scope of another (05 R117, 04 R95). -/
def scopeHolds (sc : WScope) (die d : Nat) : Bool :=
  match sc with
  | .die => die == d
  | .pkg => pkgOfDie die == pkgOfDie d
  | .sys => true

/-! ### Ranges of memory -/

/-- An address lies in a range, or is where descriptors forward an address of the range to (05 R119). -/
def State.cameFrom (s : State) (pa len : Nat) : Nat → Nat → Bool
  | 0, x => decide (pa ≤ x ∧ x < pa + len)
  | n + 1, x => decide (pa ≤ x ∧ x < pa + len) || s.pkgs.any fun p => p.2.descs.any fun d =>
      decide (d.2.dst ≤ x ∧ x < d.2.dst + d.2.len ∧ x - d.2.dst < d.2.bound) && State.cameFrom s pa len n (d.2.src + (x - d.2.dst))

/-- The sectors of which a copy of some kind stands somewhere: in a cache, in an instruction cache, as a replica, or in a record. -/
def State.knownSecs (s : State) : List Nat :=
  let cs := s.copies.map fun c => keySec c.1
  let is := s.icache.map fun e => secOf e.2.1
  let ds := s.dir.map fun d => d.1 % 2 ^ 52
  let ls := s.slabs.flatMap fun l => if l.2.replica then (List.range 4).map fun i => l.1 % 2 ^ 52 + 64 * i else []
  (cs ++ is ++ ds ++ ls).eraseDups

/-- Replicas and untracked copies of a range are purged in every package, also where they are kept for the place that descriptors
forward to (05 R119, R120, R122, R123). -/
def State.purgeRange (s : State) (pa len : Nat) : State :=
  (s.knownSecs.filter (s.cameFrom pa len 16)).foldl (fun s sec => s.purgeIn sec fun _ => true) s

/-- A range lies wholly in memory of a present package (05 R120). -/
def State.memRange (s : State) (pa len : Nat) : Bool :=
  decide (pa + len ≤ 2 ^ 52) && (List.range (len / 4096)).all fun i => s.tableOk (pa + 4096 * i)

/-! ### `cw.*` (05 R117) -/

/-- The presence bits that a scope does not cover; a package's bit is covered where the whole package is. -/
def Dir.outside (d : Dir) (sc : WScope) (die sec : Nat) : Dir :=
  let h := paPkg sec * 16
  { d with
    dies := (List.range 10).foldl (fun b i => if scopeHolds sc die (h + i) then b &&& ~~~BitVec.ofNat 10 (2 ^ i) else b) d.dies
    pkgs := (List.range 16).foldl (fun b p => if sc != .die && scopeHolds sc die (p * 16) then b &&& ~~~pkgBit p else b) d.pkgs }

/-- A dirty copy is written home and stays, clean; that of a PRIV owner stays its owner's (05 R109). -/
def State.cleanCopy (s : State) (sec : Nat) (c : Nat × Copy) : State :=
  let d := s.dirOf sec
  let ag := keyAgent c.1
  let s1 := s.homeDirty sec c.2.data
  if d.st == .p then s1.setCopy ag sec { c.2 with data := s1.sector sec }
  else if c.2.st == .m then (s1.purgeWrite sec).setCopy ag sec ⟨.e, 0, 0⟩
  else (s1.setCopy ag sec ⟨.s, 0, 0⟩).setHome sec (({ d with st := .s, owner := 0 } : Dir).share sec ag)

/-- A home slab writes a sector's dirty data to DRAM, and meets soft errors as it reads it (05 R101). -/
def State.slabClean (s : State) (sec : Nat) : State :=
  let k := slabKey (slabOf sec) sec
  match tget s.slabs k with
  | some l =>
    let s1 := if s.soft.isEmpty || !l.mask.getLsbD (secIdx sec) then s else s.meetSoft k
    { s1 with slabs := tset s1.slabs k { l with mask := l.mask &&& ~~~BitVec.ofNat 4 (2 ^ secIdx sec) } }
  | none => s

/-- A home line that no cache has a sector of leaves its slab clean. -/
def State.slabDrop (s : State) (sec : Nat) : State :=
  let k := slabKey (slabOf sec) sec
  match tget s.slabs k with
  | some l =>
    if l.mask = 0 && (List.range 4).all fun i => (tget s.dir (lineOf sec + 64 * i)).isNone then { s with slabs := tdel s.slabs k } else s
  | none => s

/-- Every copy of a sector within a scope is removed: those of caches, tracked and untracked, of instruction caches, and replicas; the
record follows (05 R117). -/
def State.invalSec (s : State) (sc : WScope) (die sec : Nat) : State :=
  let mine := s.copies.filter fun c => keySec c.1 == sec && scopeHolds sc die (agentDie (keyAgent c.1))
  let owner := mine.any fun c => c.2.st == .m || c.2.st == .e || c.2.st == .o
  let s1 := mine.foldl (fun s c => s.dropCopy (keyAgent c.1) sec) s
  let s2 := (List.range 16).foldl (fun s p => if scopeHolds sc die (p * 16 + slabOf sec % 16) then s.dropReplica p sec else s) s1
  let s3 : State := { s2 with icache := s2.icache.filter fun e => !(s2.codeOf sec e && scopeHolds sc die (dieOfCore e.1)) }
  let d := (s3.dirOf sec).outside sc die sec
  let none_ := d.dies == 0 && d.pkgs == 0
  s3.setHome sec (match d.st with
    | .p | .ex => if owner then { d with st := .i, owner := 0 } else d
    | .o => if owner then { d with st := if none_ then .i else .s, owner := 0 } else d
    | .s => if none_ then Dir.none else d
    | _ => d)

/-- A sector is processed within a scope: partials combined, dirty copies and dirty slab data written to DRAM, and for `inval` every
copy removed. -/
def State.flushSec (s : State) (inval : Bool) (sc : WScope) (die sec : Nat) : State :=
  let s0 := s.combine sec
  let mine := (s0.tracked sec).filter fun c => c.2.st.dirty && scopeHolds sc die (agentDie (keyAgent c.1))
  let s1 := mine.foldl (fun s c => s.cleanCopy sec c) s0
  let slab := scopeHolds sc die (slabOf sec)
  let s2 := if slab || !mine.isEmpty then s1.slabClean sec else s1
  if inval then
    let s3 := s2.invalSec sc die sec
    if slab then s3.slabDrop sec else s3
  else s2

/-- What an error response that a walker met leaves to report (05 R116). -/
def walkReport (pa code : Nat) (tval : Word) : Option Report := some ⟨0x1B, tval, some (BitVec.ofNat 64 pa, BitVec.ofNat 64 code)⟩

/-- The sectors of one line: each at the place it is forwarded to, where it is processed, and an error response met. The status and the
report so far go with the state; `va` is the line's virtual address. -/
def State.flushLine (s : State) (c : MCtx) (inval : Bool) (sc : WScope) (pa : Nat) (va : Word) (st : Word) (p : Option Report) :
    State × Word × Option Report :=
  (List.range 4).foldl (fun (r : State × Word × Option Report) i =>
    let sec := r.1.fwd (lineOf pa + 64 * i)
    let s1 := r.1.flushSec inval sc c.die sec
    match s1.memCode (pkgOfDie c.die) sec false with
    | some code => (s1.respond c sec code, -4, r.2.2.or (walkReport sec code (va + BitVec.ofNat 64 (64 * i))))
    | none => (s1, r.2)) (s, st, p)

/-- How a walk goes on after a part: with the command as it stands now, or at its end with the status and the report. -/
abbrev WalkRest := Except (Word × Option Report) WalkCmd

/-- The translation of the page a walk is in, or enters. -/
def State.walkXlate (s : State) (m : WalkCmd) (va : Nat) : State × XRes :=
  match m.frame with
  | some f => (s, .ok (f + (va + m.pos) % 4096) 0)
  | none => s.xlate m.ctx (BitVec.ofNat 64 (va + m.pos)) .load

/-- One line of a walk of a range, whose page is translated as it is entered: none while a locked table line holds it up (05 R117). -/
def State.walkLine (s : State) (m : WalkCmd) (inval : Bool) (sc : WScope) (va len : Nat) : Option (State × WalkRest) :=
  let a := va + m.pos
  match s.walkXlate m va with
  | (_, .wait) => none
  | (s1, .fault code) => some (s1, .error (-5, m.poison.or (some ⟨BitVec.ofNat 8 code, BitVec.ofNat 64 a, none⟩)))
  | (s1, .ok pa _) =>
    let r := s1.flushLine m.ctx inval sc pa (BitVec.ofNat 64 (a / 256 * 256)) m.status m.poison
    let next := a / 256 * 256 + 256
    some (r.1, if va + len ≤ next then .error r.2
      else .ok { m with pos := next - va, status := r.2.1, poison := r.2.2, sent := false,
                        frame := if next % 4096 = 0 then none else some (pa / 4096 * 4096) })

/-- The line a walk comes to has copies in other packages, within its scope (18 R417). -/
def State.lineAway (s : State) (m : WalkCmd) (sc : WScope) (va : Nat) : Bool :=
  sc == .sys && match (s.walkXlate m va).2 with
    | .ok pa _ => (List.range 4).any fun i =>
      let sec := s.fwd (lineOf pa + 64 * i)
      (s.copies.any fun c => keySec c.1 == sec && keyAgent c.1 / 512 != pkgOfDie m.die) ||
        (List.range 16).any fun p => p != pkgOfDie m.die && (s.replica p sec).isSome
    | _ => false

/-- The arrival of a `.b` form at the end of its walk, with the status that results (05 R117). -/
def State.walkArrive (s : State) (m : WalkCmd) (b : Nat) (st : Word) (p : Option Report) : State × Word × Option Report :=
  let g := s.wg m.wg
  if !g.tags.contains b then
    let r := s.spadErr m.t g.core (g.spBase + b) 6 p
    (r.1, st, r.2)
  else
    let o := g.bar b
    if o.pend = 0 then (s.putBar m.wg b { o with poison := true } false, if st = 0 then -6 else st, p)
    else (s.putBar m.wg b { o with pend := o.pend - 1, poison := o.poison || st != 0 } true, st, p)

/-- A command of the list takes another form. -/
def State.setWalk (s : State) (m : WalkCmd) : State := { s with walks := s.walks.map fun x => if x.id = m.id then m else x }

/-! ### Translations that a command removes (04 R95, R96; 05 R122, R123) -/

/-- A translation's page or group meets a range of addresses, which may run from the upper half into the lower. -/
def Tlb.meets (x : Tlb) (va len : Nat) : Bool :=
  let v := va % 2 ^ 56
  decide (x.va < v + len ∧ v < x.va + x.size) || decide (x.va + 2 ^ 56 < v + len)

/-- A translation that an invalidation names. -/
def Tlb.named (x : Tlb) (k : TlbKind) (va n : Nat) (asid : BitVec 16) : Bool :=
  let glob := entBit x.leaf.toNat 6
  match k with
  | .va => !glob && x.asid == asid && x.meets va 1
  | .rng => !glob && x.asid == asid && x.meets va (n * 4096)
  | .asid => !glob && x.asid == asid
  | .all => true
  | .vag => x.meets va 1

/-- A translation of a range in an address space, or in every one for a global leaf. -/
def Tlb.inRange (x : Tlb) (va len : Nat) (asid : BitVec 16) (glob : Bool) : Bool :=
  x.meets va len && (glob || (!entBit x.leaf.toNat 6 && x.asid == asid))

/-- The translations a command removes, within its scope. -/
def WalkCmd.removes (m : WalkCmd) : Option (WScope × (Tlb → Bool)) :=
  match m.op with
  | .tlb k sc va n asid => some (sc, fun x => x.named k va n asid)
  | .split va _ _ old => some (.sys, fun x => x.inRange (va / 2 ^ 21 * 2 ^ 21) (2 ^ 21) m.asid (entBit (old.getD 0) 6))
  | .coll va leaf lvl es _ =>
    let size := pageSize lvl * es.length
    some (.sys, fun x => x.inRange (va / size * size) size m.asid (entBit ((tget es leaf).getD 0) 6))
  | _ => none

/-- The translation an access of an address has used, which is kept with no access: of a page or group as large as there are. -/
def usedTlb (asid : BitVec 16) (va : Nat) : Tlb := ⟨.die 0, asid, va % 2 ^ 56 / 2 ^ 32 * 2 ^ 32, 2 ^ 32, 0, 0, 0⟩

/-- A `cw.*` in the scope of a command is within a page whose translation the command removes (04 R96). -/
def State.framed (s : State) (m : WalkCmd) : Bool :=
  match m.removes with
  | some (sc, f) => s.walks.any fun x => x.frame.isSome && scopeHolds sc m.die x.die && match x.op with
    | .cw _ _ _ va _ => f (usedTlb x.asid (va + x.pos))
    | _ => false
  | none => false

/-- Rank of a walker command's issuer (16 R361; 18 R417): of its workgroup, else of the class of its thread. -/
def State.walkRank (s : State) (m : WalkCmd) : Nat × Nat × Nat :=
  if (tget s.wgs m.wg).isSome then (s.wg m.wg).rank else { WG.init with sclass := (s.thr m.t).sclass }.rank

/-- A command cannot go on for now: its recalls are under way, a locked table line holds it up, or commands still use a translation that
it removes. -/
def State.walkStuck (s : State) (m : WalkCmd) : Bool :=
  m.sent || s.framed m || match m.op with
    | .cw _ _ _ va _ => (match (s.walkXlate m va).2 with
      | .wait => true
      | _ => false)
    | _ => false

/-- Whether a command has the walker of its die: of those there that can go on, none has an issuer that ranks better (18 R417). -/
def State.walkTurn (s : State) (m : WalkCmd) : Bool :=
  !s.walks.any fun x => x.die == m.die && lexLt (s.walkRank x) (s.walkRank m) && !s.walkStuck x && match x.op with
    | .tlb .. => false
    | _ => true

/-- A cache-walker command walks the next line of its range, and ends after the last; between two lines it yields, and where it has sent
recalls to other packages it goes on when they return (18 R417). -/
def State.cwDone (s : State) (i : Nat) : Option State :=
  match s.walks[i]? with
  | some m =>
    (match m.op with
     | .cw inval sc bar va len =>
       if !m.sent && !s.walkTurn m then none
       else if !m.sent && s.lineAway m sc va then some (s.setWalk { m with sent := true })
       else match s.walkLine m inval sc va len with
       | none => none
       | some (s1, .ok m1) => some (s1.setWalk m1)
       | some (s1, .error (st, p)) =>
         (match bar with
          | some b =>
            let r := s1.walkArrive m b st p
            some (r.1.endWalk m r.2.1 r.2.2)
          | none => some (s1.endWalk m st p))
     | _ => none)
  | none => none

/-- Issue of `cw.flush` and `cw.inval` (05 R117). -/
def State.cwIssue (s : State) (i : Instr) (inval : Bool) (sc : WScope) (bar : Bool) (d : BitVec 5) (la : BitVec 4)
    (xa xb xc : Word) : State :=
  let done := fun (s : State) (v : Word) => s.finishLate (lenOf i) (.x d) la v
  if bar && !(s.wg s.me.wg).barOffset xb.toNat then done s (-1)
  else if xc = 0 then done s 0
  else if !canonical xa || !canonicalRange xa xc.toNat then done s (-1)
  else match s.xlate (s.me.mctx s.cur) xa .load with
    | (s1, .wait) => s1.waitOn .walk
    | (s1, .fault code) => s1.trap code xa
    | (s1, .ok _ _) => s1.issueWalk i d la (.cw inval sc (if bar then some xb.toNat else none) xa.toNat xc.toNat)

/-- `CW_FLUSH`: writes the dirty copies of a range home (05 R117). -/
def execCwFlush (sc : WScope) (bar : Bool) (g : BitVec 4) (d a b c : BitVec 5) (la : BitVec 4) (ru : BitVec 3) (s : State) : Out :=
  s.lane (.cwFlush sc bar g d a b c la ru) g bar [.x d, .x a, .x b, .x c] [.x a, .x b, .x c] fun s =>
    s.cwIssue (.cwFlush sc bar g d a b c la ru) false sc bar d la (s.srcX 0 a) (s.srcX 1 b) (s.srcX 2 c)

/-- `CW_INVAL`: writes back and removes every copy of a range (05 R117). -/
def execCwInval (sc : WScope) (bar : Bool) (g : BitVec 4) (d a b c : BitVec 5) (la : BitVec 4) (ru : BitVec 3) (s : State) : Out :=
  s.lane (.cwInval sc bar g d a b c la ru) g bar [.x d, .x a, .x b, .x c] [.x a, .x b, .x c] fun s =>
    s.cwIssue (.cwInval sc bar g d a b c la ru) true sc bar d la (s.srcX 0 a) (s.srcX 1 b) (s.srcX 2 c)

/-- `CW_WALK_COMPLETE`: a cache-walker command walks a line, at whose end the walker may turn to another command, and with the last one
ends (05 R117, R118, R125; 18 R417). -/
def execCwWalkComplete (i : Nat) (s : State) : Out := .next ((s.cwDone i).getD s)

/-! ### Migration of pages (05 R119, R120) -/

/-- The first descriptor of a package that is FREE. -/
def State.freeDesc (s : State) (p : Nat) : Option Nat := (List.range 16).find? fun i => (tget (s.pkg p).descs i).isNone

/-- A descriptor is replaced. -/
def State.setDesc (s : State) (p i : Nat) (d : Desc) : State := s.updPkg p fun x => { x with descs := tset x.descs i d }

/-- `PG_MIG`: checks a movement of memory, and claims a descriptor for it (05 R120). -/
def execPgMig (g : BitVec 4) (d a b c : BitVec 5) (la : BitVec 4) (ru : BitVec 3) (s : State) : Out :=
  s.lane (.pgMig g d a b c la ru) g false [.x d, .x a, .x b, .x c] [.x a, .x b, .x c] fun s =>
    let i : Instr := .pgMig g d a b c la ru
    let src := (s.srcX 0 a).toNat
    let dst := (s.srcX 1 b).toNat
    let len := (s.srcX 2 c).toNat
    let done := fun (v : Word) => s.finishLate (lenOf i) (.x d) la v
    s.check (!s.me.mode) 0x01 (parcels i) <|
      if src % 4096 ≠ 0 ∨ dst % 4096 ≠ 0 ∨ len % 4096 ≠ 0 ∨ len = 0 ∨ 2 ^ 32 < len ∨ (src < dst + len ∧ dst < src + len) ∨
          !s.memRange src len ∨ !s.memRange dst len then done (-1)
      else match s.freeDesc (paPkg src) with
        | none => done (-2)
        | some k =>
          if s.walkRoom s.me then
            (s.setDesc (paPkg src) k ⟨.moving, src, dst, len, 0⟩).acceptWalk i d la (.mig (paPkg src) k)
          else s.waitOn (.accept i)

/-- A sector moves: copies of the old one are recalled, and the new home's record starts in I. Data that fails is poisoned at the new
home, and memory that does not answer is not written; the codes of error responses come with the state, with their addresses (05 R116,
R120). What caches hold of the new place as tracked copies goes, also dirty data: R120 says only what the record starts in (DESIGN CHOICE,
log entry 104). -/
def State.moveSec (s : State) (pkg src dst : Nat) : State × List (Nat × Nat) :=
  let a := s.reach pkg src false
  let b := a.1.reach pkg dst true
  let errs := (a.2.map fun c => (c, src)).toList ++ (b.2.map fun c => (c, dst)).toList
  if b.2.isSome then (b.1.recall src, errs)
  else
    let s1 := (b.1.recall src).purgeWrite dst
    let s2 := (s1.tracked dst).foldl (fun s c => s.dropCopy (keyAgent c.1) dst) s1
    let s3 := (s2.homeDirty dst (s2.sector dst)).setHome dst Dir.none
    (if a.2.isSome then { s3 with poison := dst :: s3.poison.erase dst }
     else { s3 with mem := s3.mem.writeN dst 64 (s3.mem.readN src 64), poison := s3.poison.erase dst }, errs)

/-- The sectors of a line move, with the status and the report so far. -/
def State.moveLine (s : State) (m : WalkCmd) (d : Desc) : State × Word × Option Report :=
  (List.range 4).foldl (fun (r : State × Word × Option Report) j =>
    let q := r.1.moveSec (paPkg d.src) (d.src + d.bound + 64 * j) (d.dst + d.bound + 64 * j)
    q.2.foldl (fun (r : State × Word × Option Report) e =>
      (r.1.respond m.ctx e.2 e.1, -4, r.2.2.or (walkReport e.2 e.1 (BitVec.ofNat 64 e.2)))) (q.1, r.2)) (s, m.status, m.poison)

/-- A line moves, and BOUND advances; after the last one the descriptor forwards and the status is written. -/
def State.migLine (s : State) (i : Nat) : Option State :=
  match s.walks[i]? with
  | some m =>
    (match m.op with
     | .mig p k => if !s.walkTurn m then none else
       (match tget (s.pkg p).descs k with
        | some d =>
          let r := s.moveLine m d
          if d.len ≤ d.bound + 256 then some ((r.1.setDesc p k { d with bound := d.len, st := .forward }).endWalk m r.2.1 r.2.2)
          else some ((r.1.setDesc p k { d with bound := d.bound + 256 }).setWalk { m with status := r.2.1, poison := r.2.2 })
        | none => none)
     | _ => none)
  | none => none

/-- `PG_MIG_LINE`: a migration engine moves one line (05 R120). -/
def execPgMigLine (i : Nat) (s : State) : Out := .next ((s.migLine i).getD s)

/-- `PG_MIG_REL`: frees the descriptor that forwards from an address, after its copies are purged (05 R120). It waits for its counter as
every command that is not refused (R125); its work is done as it is accepted, so that it counts for no time. -/
def execPgMigRel (g : BitVec 4) (d a : BitVec 5) (la : BitVec 4) (ru : BitVec 3) (s : State) : Out :=
  s.lane (.pgMigRel g d a la ru) g false [.x d, .x a] [.x a] fun s =>
    let i : Instr := .pgMigRel g d a la ru
    let src := (s.srcX 0 a).toNat
    s.check (!s.me.mode) 0x01 (parcels i) <|
      match (s.pkg (paPkg src)).descs.find? fun x => x.2.st == .forward && x.2.src == src with
      | none => s.finishLate (lenOf i) (.x d) la (-2)
      | some x =>
        if s.walkRoom s.me then
          ((s.purgeRange x.2.src x.2.len).updPkg (paPkg src) fun p => { p with descs := tdel p.descs x.1 }).finishLate
            (lenOf i) (.x d) la 0
        else s.waitOn (.accept i)

/-! ### `tlb.inv` (04 R95, R96) -/

/-- Accesses within a scope that have used some translations are performed (04 R96). -/
def State.performUsed (s : State) (sc : WScope) (die : Nat) (f : Tlb → Bool) : State :=
  let used := fun (h : Held) => !h.spad && scopeHolds sc die (dieOfCore h.core) && f (usedTlb h.c.asid h.va.toNat)
  let s1 := s.perform used
  (s1.stores.filter fun h => h.ctrl && used h).foldl (fun s h => s.performCtrl h.c.who) s1

/-- Translations are removed from the TLBs within a scope, and its walk caches are emptied, once what has used them is performed (04 R95,
R96). -/
def State.dropTlbs (s : State) (sc : WScope) (die : Nat) (f : Tlb → Bool) : State :=
  let s1 := if s.stores.isEmpty then s else s.performUsed sc die f
  { s1 with
    tlbs := s1.tlbs.filter fun x => !(scopeHolds sc die x.held.onDie && f x)
    walkCache := s1.walkCache.filter fun x => !scopeHolds sc die x.die }

/-- `TLB_INV`: checks and accepts an invalidation (04 R95). -/
def execTlbInv (k : TlbKind) (sc : WScope) (g : BitVec 4) (d a b c : BitVec 5) (la : BitVec 4) (ru : BitVec 3) (s : State) : Out :=
  s.lane (.tlbInv k sc g d a b c la ru) g false [.x d, .x a, .x b, .x c] [.x a, .x b, .x c] fun s =>
    let i : Instr := .tlbInv k sc g d a b c la ru
    let xa := s.srcX 0 a
    let xb := s.srcX 1 b
    let xc := s.srcX 2 c
    let done := fun (v : Word) => s.finishLate (lenOf i) (.x d) la v
    s.check (!s.me.mode) 0x01 (parcels i) <|
      if (k == .va || k == .rng || k == .asid) && xb.toNat / 2 ^ 16 != 0 then done (-1)
      else if ((k == .va || k == .rng || k == .vag) && !canonical xa) || (k == .rng && !canonicalRange xa (xc.toNat * 4096)) then
        done (-2)
      else if k == .rng && xc == 0 then done 0
      else s.issueWalk i d la (.tlb k sc xa.toNat xc.toNat (xb.setWidth 16))

/-- An invalidation completes in its scope, once no `cw.*` is within a page whose translation it removes. -/
def State.tlbDone (s : State) (i : Nat) : Option State :=
  match s.walks[i]? with
  | some m =>
    (match m.op with
     | .tlb k sc va n asid => if s.framed m then none else some ((s.dropTlbs sc m.die fun x => x.named k va n asid).endWalk m 0 none)
     | _ => none)
  | none => none

/-- `TLB_INV_COMPLETE`: an invalidation is complete (04 R96). -/
def execTlbInvComplete (i : Nat) (s : State) : Out := .next ((s.tlbDone i).getD s)

/-! ### `pg.split` and `pg.coll` (05 R122 to R124) -/

/-- Translations of a range in an address space, or in every one for a global leaf, are removed everywhere. -/
def State.dropRange (s : State) (va len : Nat) (asid : BitVec 16) (glob : Bool) : State :=
  s.dropTlbs .sys 0 fun x => x.inRange va len asid glob

/-- Sectors of some entries. -/
def lockSecs (es : List Nat) : List Nat := (es.map secOf).eraseDups

/-- Sectors are locked, or unlocked. -/
def State.lock (s : State) (es : List Nat) : State := { s with locks := s.locks ++ lockSecs es }
/-- Unlocking. -/
def State.unlock (s : State) (es : List Nat) : State := { s with locks := s.locks.filter fun l => !(lockSecs es).contains l }
/-- One of the sectors is locked. -/
def State.lockedAny (s : State) (es : List Nat) : Bool := (lockSecs es).any s.locks.contains

/-- A coherent read of an entry by a walker for a thread; none with an error response. -/
def State.readEnt (s : State) (c : MCtx) (pa : Nat) : State × Option Nat :=
  match s.homeLoad (dieAgent c.die) pa 8 with
  | (s1, .ok v) => (s1, some v)
  | (s1, .error code) => (s1.respond c pa code, none)

/-- A coherent write of an entry by a walker; false with an error response. -/
def State.writeEnt (s : State) (c : MCtx) (pa v : Nat) : State × Bool :=
  match s.homeStore (dieAgent c.die) pa 8 v with
  | (s1, none) => (s1, true)
  | (s1, some code) => (s1.respond c pa code, false)

/-- The region of a leaf replaced by COH. -/
def cohLeaf (e : Nat) : Nat := e - e / 2 ^ 10 % 4 * 2 ^ 10 + 2 * 2 ^ 10

/-- An entry of the new table of a split (05 R122). -/
def splitEntry (old va i : Nat) : Nat :=
  let e := old + i * 2 ^ 16 + (if entCont old then 0 else 2 ^ 9)
  if regionOf old == .rdup && i / 16 == va / 2 ^ 16 % 32 then cohLeaf e else e

/-- `PG_SPLIT`: locks the leaf's line, reads it, and is accepted (05 R122, R124). -/
def execPgSplit (g : BitVec 4) (d a b c : BitVec 5) (la : BitVec 4) (ru : BitVec 3) (s : State) : Out :=
  s.lane (.pgSplit g d a b c la ru) g false [.x d, .x a, .x b, .x c] [.x a, .x b, .x c] fun s =>
    let i : Instr := .pgSplit g d a b c la ru
    let va := (s.srcX 0 a).toNat
    let leaf := (s.srcX 1 b).toNat
    let table := (s.srcX 2 c).toNat
    s.check (!s.me.mode) 0x01 (parcels i) <|
      if leaf % 8 ≠ 0 ∨ table % 4096 ≠ 0 ∨ !s.memRange table 4096 then s.finishLate (lenOf i) (.x d) la (-1)
      else if !s.walkRoom s.me then s.waitOn (.accept i)
      else if s.lockedAny [leaf] then s.waitOn .walk
      else
        let r := s.readEnt (s.me.mctx s.cur) leaf
        (r.1.lock [leaf]).acceptWalk i d la (.split va leaf table r.2)

/-- A split ends: the table is filled, the entry swapped if it is still what was read, and the old translation removed. -/
def State.splitEnd (s : State) (m : WalkCmd) (va leaf table old : Nat) : State × Word :=
  if !entV old || !entLeaf old || entCont old || !s.entryOk old 2 then (s, -3)
  else
    let r := (List.range 512).foldl (fun (r : State × Bool) i =>
      let q := r.1.writeEnt m.ctx (table + 8 * i) (splitEntry old va i)
      (q.1, r.2 && q.2)) (s, true)
    let q := r.1.readEnt m.ctx leaf
    if !r.2 || q.2.isNone then (q.1, -4)
    else if q.2 != some old then (q.1, -3)
    else
      let w := q.1.writeEnt m.ctx leaf (1 + table / 4096 * 2 ^ 16)
      if !w.2 then (w.1, -4)
      else
        let s1 := w.1.dropRange (va / 2 ^ 21 * 2 ^ 21) (2 ^ 21) m.asid (entBit old 6)
        (if regionOf old == .rdup then s1.purgeRange (entPpn old * 4096 + va / 2 ^ 16 % 32 * 2 ^ 16) (2 ^ 16) else s1, 0)

/-- What a command that met an error response reports: the last that its issuer's registers took (05 R116). -/
def State.errReport (s : State) (m : WalkCmd) (st : Word) : Option Report :=
  if st = -4 then some ⟨0x1B, (s.thr m.t).errAddr, some ((s.thr m.t).errAddr, (s.thr m.t).errCause)⟩ else none

/-- A split completes. -/
def State.splitDone (s : State) (i : Nat) : Option State :=
  match s.walks[i]? with
  | some m =>
    (match m.op with
     | .split va leaf table old =>
       if s.framed m || !s.walkTurn m then none else
       let r := match old with
         | some e => s.splitEnd m va leaf table e
         | none => (s, -4)
       some ((r.1.unlock [leaf]).endWalk m r.2 (r.1.errReport m r.2))
     | _ => none)
  | none => none

/-- `PG_SPLIT_COMPLETE`: a split unlocks and writes its status (05 R122). -/
def execPgSplitComplete (i : Nat) (s : State) : Out := .next ((s.splitDone i).getD s)

/-- The entries a collapse rewrites: the leaf, or its group. -/
def collEntries (leaf lvl old : Nat) : List Nat :=
  if entCont old then
    let n := groupSize lvl
    (List.range n).map fun i => leaf / (8 * n) * (8 * n) + 8 * i
  else [leaf]

/-- Some entries are read in order; whether all could be. -/
def State.readEnts (s : State) (c : MCtx) : List Nat → State × List (Nat × Nat) × Bool
  | [] => (s, [], true)
  | a :: t =>
    let r := s.readEnt c a
    let q := State.readEnts r.1 c t
    (q.1, (a, r.2.getD 0) :: q.2.1, r.2.isSome && q.2.2)

/-- `PG_COLL`: locks the lines of the leaf or its group, reads them, and is accepted (05 R123, R124). -/
def execPgColl (lvl : BitVec 2) (g : BitVec 4) (d a b : BitVec 5) (la : BitVec 4) (ru : BitVec 3) (s : State) : Out :=
  s.lane (.pgColl lvl g d a b la ru) g false [.x d, .x a, .x b] [.x a, .x b] fun s =>
    let i : Instr := .pgColl lvl g d a b la ru
    let va := (s.srcX 0 a).toNat
    let leaf := (s.srcX 1 b).toNat
    let c := s.me.mctx s.cur
    s.check (!s.me.mode) 0x01 (parcels i) <|
      if leaf % 8 ≠ 0 then s.finishLate (lenOf i) (.x d) la (-1)
      else if !s.walkRoom s.me then s.waitOn (.accept i)
      else
        let r := s.readEnt c leaf
        let es := collEntries leaf lvl.toNat (r.2.getD 0)
        if s.lockedAny es then s.waitOn .walk
        else
          let q := r.1.readEnts c es
          (q.1.lock es).acceptWalk i d la (.coll va leaf lvl.toNat q.2.1 (r.2.isNone || !q.2.2))

/-- A collapse ends: entries that are all still as read become COH; then the invalidation and the purge (05 R123, R125). -/
def State.collEnd (s : State) (m : WalkCmd) (va leaf lvl : Nat) (es : List (Nat × Nat)) (bad : Bool) : State × Word :=
  let old := (tget es leaf).getD 0
  if bad then (s, -4)
  else if !entV old || !entLeaf old || regionOf old != .rdup then (s, -3)
  else
    let q := s.readEnts m.ctx (es.map (·.1))
    let same := q.2.2 && q.2.1 == es
    let w := if same then es.foldl (fun (r : State × Bool) e =>
        let x := r.1.writeEnt m.ctx e.1 (cohLeaf e.2)
        (x.1, r.2 && x.2)) (q.1, true) else (q.1, true)
    let size := pageSize lvl * es.length
    let s1 := w.1.dropRange (va / size * size) size m.asid (entBit old 6)
    let s2 := es.foldl (fun s e => s.purgeRange (entPpn e.2 * 4096) (pageSize lvl)) s1
    (s2, if !q.2.2 || !w.2 then -4 else if same then 0 else -3)

/-- A collapse completes. -/
def State.collDone (s : State) (i : Nat) : Option State :=
  match s.walks[i]? with
  | some m =>
    (match m.op with
     | .coll va leaf lvl es bad =>
       if s.framed m || !s.walkTurn m then none else
       let r := s.collEnd m va leaf lvl es bad
       some ((r.1.unlock (es.map (·.1))).endWalk m r.2 (r.1.errReport m r.2))
     | _ => none)
  | none => none

/-- `PG_COLL_COMPLETE`: a collapse unlocks and writes its status (05 R123). -/
def execPgCollComplete (i : Nat) (s : State) : Out := .next ((s.collDone i).getD s)

/-- The walker of a die that is lost answers no more: its commands end with an error, and what they had locked is free (the spec does not
say: DESIGN CHOICE, log entry 98). -/
def State.walksLost (s : State) (d : Nat) : State :=
  (s.walks.filter (·.die == d)).foldl (fun (s : State) (m : WalkCmd) =>
    let s1 := match m.op with
      | .split _ leaf _ _ => s.unlock [leaf]
      | .coll _ _ _ es _ => s.unlock (es.map Prod.fst)
      | _ => s
    s1.endWalk m (-4) none) s

end Sys2Proof.Machine
end

