-- ==== Sys2Proof/Machine/Threads.lean ====
section
/-!
DEFINITION. The thread instructions (15 R328 to R340): `spawn` with its record (R317, R318), `migrate`, `yield`, `exit`,
`done.wait`, `cancel`, the named barriers, and the device's steps that hand out, move, place and end threads.
-/

namespace Sys2Proof.Machine

/-! ### Spawn records (15 R317, R318) -/

/-- Doublewords of memory read by the current thread as loads, or how the first that failed ended. -/
def State.readWords (s : State) (c : MCtx) (va : Word) : Nat → State × Except Acc (List Nat)
  | 0 => (s, .ok [])
  | n + 1 =>
    match s.dataLoad c va 8 false with
    | (s1, .ok v) =>
      (match State.readWords s1 c (va + 8) n with
       | (s2, .ok l) => (s2, .ok (v :: l))
       | (s2, .error e) => (s2, .error e))
    | (s1, e) => (s1, .error e)

/-- What follows a read of a record. -/
def State.afterWords (r : State × Except Acc (List Nat)) (k : State → List Nat → State) : State :=
  match r.2 with
  | .ok l => k r.1 l
  | .error e => State.after (r.1, e) fun s _ => s

/-- A word of a record. -/
def wordN (l : List Nat) (i : Nat) : Nat := l[i]?.getD 0
/-- Bits of a word of a record. -/
def wordBits (l : List Nat) (i lo n : Nat) : Nat := wordN l i / 2 ^ lo % 2 ^ n

/-- The fields of a spawn record. -/
def SpawnRec.ofWords (l : List Nat) : SpawnRec :=
  { entry := BitVec.ofNat 64 (wordN l 0), count := wordBits l 1 0 32, wgsize := wordBits l 1 32 16, timer := wordBits l 1 48 16
    curclass := wordBits l 2 0 2, sclass := wordBits l 2 2 2, restartable := (wordN l 2).testBit 4
    coursegrp := (wordN l 2).testBit 5, span := (wordN l 2).testBit 6, level := wordBits l 2 7 2, tcfg := wordBits l 2 9 4
    tcfgv := (wordN l 2).testBit 13, tiles := wordBits l 2 32 8, hbar := wordBits l 2 48 11, hbcl := wordBits l 2 59 5
    sppages := wordBits l 3 0 16, share := wordBits l 3 16 16
    roles := (List.range 4).map fun k => (wordBits l 4 (16 * k) 10, wordBits l 4 (16 * k + 10) 2, wordBits l 4 (16 * k + 12) 2)
    deadline := wordN l 5, args := (List.range 6).map fun k => BitVec.ofNat 64 (wordN l (6 + k))
    fixed := wordN l 1 / 2 ^ 32 + 2 ^ 32 * (wordN l 2 + 2 ^ 64 * (wordN l 3 + 2 ^ 64 * (wordN l 4 + 2 ^ 64 * wordN l 5))) }

/-- The reserved bits of a launch record are 0. -/
def spawnReserved (l : List Nat) : Bool :=
  wordBits l 2 14 18 == 0 && wordBits l 2 40 8 == 0 && wordBits l 3 32 32 == 0 &&
  ((List.range 4).all fun k => wordBits l 4 (16 * k + 14) 2 == 0) && ((List.range 4).all fun k => wordN l (12 + k) == 0)

/-- A launch record keeps R317 and R318. -/
def SpawnRec.launchOk (r : SpawnRec) : Bool :=
  let th := fun k => (r.roles[k]?.getD (0, 0, 0)).1
  r.entry.toNat % 8 == 0 && r.count != 0 && decide (4 ≤ r.wgsize ∧ r.wgsize ≤ 1024) && r.wgsize % 4 == 0 &&
  r.tcfg % 4 != 3 && r.tcfg / 4 != 3 && decide (r.tiles ≤ 32) && decide (r.hbar ≤ 1024) &&
  (r.hbcl == 0 || r.coursegrp) && decide (r.hbar + r.hbcl ≤ 1024) && decide (r.sppages ≤ 768) &&
  ((r.share != 0) == (r.sclass == 1 || r.sclass == 2)) && (r.deadline == 0 || r.sclass == 0) && th 0 == 0 &&
  ((List.range 3).all fun k => th (k + 1) % 4 == 0) && decide (th 1 + th 2 + th 3 ≤ r.wgsize) &&
  (decide (r.wgsize ≤ 64) || r.timer == 0)

/-- A level record holds nothing but LEVEL. -/
def levelOnly (l : List Nat) : Bool :=
  wordN l 0 == 0 && wordN l 1 == 0 && wordN l 2 == wordBits l 2 7 2 * 2 ^ 7 && (List.range 13).all fun k => wordN l (3 + k) == 0

/-- A well-formed record (15 R318). -/
def spawnOk (l : List Nat) : Bool :=
  let r := SpawnRec.ofWords l
  if r.level = 0 then spawnReserved l && r.launchOk else levelOnly l

/-! ### spawn (15 R326, R327, R329) -/

/-- Open launches of a die's table. -/
def State.openLaunches (s : State) (d : Nat) : Nat := ((s.die d).levels.filter fun e => e.2.kind == 0 && !e.2.final).length

/-- The home die of a level (15 R327). -/
def State.homeDie (s : State) (t : Thread) : Option Nat :=
  match s.sDies t.pkg with
  | [] => none
  | d :: ds =>
    if t.onL then some (ds.foldl (fun b e => if s.openLaunches e < s.openLaunches b then e else b) d)
    else some t.die

/-- A parent that a child of some kind may join (15 R326). -/
def State.parentOk (s : State) (p : Word) (asid : BitVec 16) (level : Nat) : Bool :=
  match s.levelOf p with
  | some l => l.asid == asid && decide (level < l.kind) && l.st == .open
  | none => false

/-- A parent has one child more. -/
def State.addChild (s : State) (p : Word) : State :=
  match s.levelOf p with
  | some l => s.setLevel p { l with count := l.count + 1 }
  | none => s

/-- The entry of a new level. -/
def SpawnRec.newLevel (r : SpawnRec) (t : Thread) (parent : Word) (launch : Option Launch) : Level :=
  { asid := t.asid, kind := r.level, st := if r.level = 0 then .sealed else .open, count := r.count, result := 0,
    parent := parent, launch := launch, told := false }

/-- A level is created on its home die, under its parent. -/
def State.createLevel (s : State) (home i : Nat) (l : Level) : State :=
  (if l.parent = 0 then s else s.addChild l.parent).updDie home fun d => { d with levels := tset d.levels i l }

/-- A launch before its first block. The keystone is the home die, or where that is not online the first participant; the checkpoint
copies lie on the keystone and the next participant (15 R327). -/
def SpawnRec.newLaunch (r : SpawnRec) (tidBase ptBase : Word) (home : Nat) (dies : List Nat) : Launch :=
  let key := if dies.contains home then home else dies.headD home
  { record := r, tidBase := tidBase, ptBase := ptBase, keystone := key, next := 0, blocks := [], copyA := key,
    copyB := if r.span then nextDie dies key else key, wgNext := 0, redo := [], kept := [] }

/-- `spawn` once its record has been read. -/
def State.spawnWith (s : State) (i : Instr) (d : BitVec 5) (parent : Word) (ws : List Nat) : State :=
  let t := s.me
  let r := SpawnRec.ofWords ws
  let fin := fun (s : State) (v : Word) => s.finishX (lenOf i) d v
  if !spawnOk ws then fin s (-1)
  else if parent != 0 && !s.parentOk parent t.asid r.level then fin s (-3)
  else match s.homeDie t with
    | none => fin s (-4)
    | some home =>
      match s.freeLevel home with
      | none => fin s (-2)
      | some idx =>
        let h := levelHandle home idx r.level (s.levelGen home idx)
        if r.level = 0 then
          match s.takeIds home t.asid r.count with
          | (s1, none) => s1.trap 0x28 0
          | (s1, some base) =>
            fin (s1.createLevel home idx
              (r.newLevel t parent (some (r.newLaunch base t.ptBase home (s1.sDies t.pkg))))) h
        else fin (s.createLevel home idx (r.newLevel t parent none)) h

/-- `SPAWN`: creates a launch or another level from a record (15 R329). -/
def execSpawn (g : BitVec 4) (d a b : BitVec 5) (s : State) : Out :=
  s.lane (.spawn g d a b) g false [.x d, .x a, .x b] [.x a, .x b] fun s =>
    let va := s.srcX 0 a
    if va.toNat % 8 ≠ 0 then s.finishX (lenOf (.spawn g d a b)) d (-1)
    else State.afterWords (s.readWords (s.me.mctx s.cur) va 16) fun s1 ws =>
      s1.spawnWith (.spawn g d a b) d (s.srcX 1 b) ws

/-! ### migrate, yield, exit (15 R332 to R335; 18 R402, R403) -/

/-- `MIGRATE`: moves the thread to a place (15 R335); in system mode to an L-core it forwards the trap (18 R402). -/
def execMigrate (g : BitVec 4) (d a : BitVec 5) (s : State) : Out :=
  s.lane (.migrate g d a) g false [.x d, .x a] [.x a] fun s =>
    let p := s.srcX 0 a
    let fin := fun (v : Word) => match s.me.deferred with
      | some va => s.takeDeferred va
      | none => s.finishX (lenOf (.migrate g d a)) d v
    if !placeOk p then fin (-1)
    else if s.me.at p then fin 0
    else if !s.classOn s.me.pkg p then fin (-2)
    else s.depart p d (s.me.complete 4).pc (if s.me.mode && placeL p then 1 else 0)

/-- The threads `yield` lets go first: the others of its workgroup in its lane, or the other context of its core. -/
def State.yieldTo (s : State) : List Nat :=
  match s.me.place with
  | .slot c _ lane _ => (s.threads.filter fun t => t.1 != s.cur && t.2.wg == s.me.wg &&
      match t.2.place with
      | .slot c2 _ lane2 _ => c2 == c && lane2 == lane
      | _ => false).map (·.1)
  | .ctx p c => ((s.ctx (p * 256 + (if c % 2 = 0 then c + 1 else c - 1))).thread).toList
  | _ => []

/-- `YIELD`: ends the windows and gives up issue for a bound (15 R333). -/
def execYield (g : BitVec 4) (s : State) : Out :=
  s.lane (.yield g) g false [] [] fun s =>
    let s1 := s.updMe Thread.flushAll
    match s1.me.deferred with
    | some va => s1.takeDeferred va
    | none =>
      if !s1.me.pend.isEmpty then s1.waitOn (.reg (s1.me.pend.map (·.dest)))
      else (s1.finish (lenOf (.yield g))).waitOn (.yield s.yieldTo)

/-- `EXIT`: ends the thread (15 R332), in system mode as a fatal trap does (18 R403). -/
def execExit (g : BitVec 4) (s : State) : Out :=
  s.lane (.exit g) g false [] [] fun s =>
    let t := (s.identify s.cur).me
    if t.onL && !t.spawned && t.mark.isNone then
      match s.me.deferred with
      | some va => s.takeDeferred va
      | none => s.trap 0x2B 0
    else if !t.drained then s.waitOn .drain
    else if t.mode then (s.updMe Thread.flushAll).closeThread s.cur .fatal
    else match t.reports.head?, t.deferred with
      | some r, _ => s.takeReport r
      | none, some va => s.takeDeferred va
      | none, none => (s.updMe Thread.flushAll).closeThread s.cur .normal

/-! ### done.wait and cancel (15 R330, R331; 17 R386) -/

/-- A level of an address space. -/
def State.levelFor (s : State) (h : Word) (asid : BitVec 16) : Option Level := (s.levelOf h).filter (·.asid == asid)

/-- `DONE_WAIT`: seals a level and waits for its end (15 R330). -/
def execDoneWait (g : BitVec 4) (d a : BitVec 5) (s : State) : Out :=
  s.lane (.doneWait g d a) g false [.x d, .x a] [.x a] fun s =>
    let h := s.srcX 0 a
    let fin := fun (s : State) (v : Word) => s.finishX (lenOf (.doneWait g d a)) d v
    if (s.levelFor h s.me.asid).isNone then fin s (-1)
    else
      let s1 := s.sealLevel h
      match s1.levelOf h with
      | some l =>
        if l.final then fin s1 l.result
        else s1.waitOn (.level (handleDie h) (handleIdx h) (s1.levelGen (handleDie h) (handleIdx h)))
      | none => fin s1 (-1)

/-- A level is at or below another, through its parents (15 R326). -/
def State.below (s : State) (h : Word) : Nat → Word → Bool
  | 0, _ => false
  | fuel + 1, x => x == h || match s.levelOf x with
    | some l => l.parent != 0 && State.below s h fuel l.parent
    | none => false

/-- Every level of the device that has not ended, by its handle. -/
def State.liveLevels (s : State) : List Word :=
  s.dies.flatMap fun d => (d.2.levels.filter fun e => e.2.st == .open || e.2.st == .sealed).map fun e =>
    levelHandle d.1 e.1 e.2.kind (s.levelGen d.1 e.1)

/-- A level becomes CANCELLED with result −5. -/
def State.cancelOne (s : State) (h : Word) : State :=
  match s.levelOf h with
  | some l => s.setLevel h { l with st := .cancelled, result := wCancelled }
  | none => s

/-- What follows for a cancelled level: indices not handed out count as finished, and so does a level with nothing left below it. -/
def State.cancelRest (s : State) (h : Word) : State :=
  match s.levelOf h with
  | none => s
  | some l =>
    match l.launch with
    | some x =>
      let again := (x.redo.flatMap fun b => (List.range b.n).map (b.first + ·)).filter fun i => !s.runsIndex h i
      (s.setLevel h { l with launch := some { x with next := x.record.count, redo := [] } }).childDone 4 h
        (x.record.count - x.next + again.length) false
    | none => s.childDone 4 h 0 false

/-- A thread leaves the lists of a die's bins and arrival queue. -/
def State.leaveBins (s : State) (d k : Nat) : State :=
  s.updDie d fun x => { x with
    arrivals := x.arrivals.erase k, bins := x.bins.map fun b => (b.1, { b.2 with threads := b.2.threads.erase k }) }

/-- A cancel reaches a thread (15 R331, steps 1 to 4): one that waits in a bin, in the arrival queue or in a save area ends
at once; the others end at their next boundary. -/
def State.cancelThread (s : State) (h : Word) (k : Nat) : State :=
  let s1 := s.updThr k fun t => { t with cancelled := true, stops := h :: t.stops }
  let t := s1.thr k
  if t.ending.isSome then s1
  else match t.place with
    | .bin d _ => ((s1.leaveBins d k).updThr k fun t => { t with place := .queue d }).closeThread k .cancelled
    | .queue d => (s1.leaveBins d k).closeThread k .cancelled
    | .saved => (s1.updThr k fun t => { t with place := .queue (s.wg t.wg).die }).closeThread k .cancelled
    | _ => s1

/-- Marks whose invocations a cancel reaches, by their words (17 R386). -/
def State.linkedMarks (s : State) (hs : List Word) : List Word :=
  s.dies.flatMap fun d => (d.2.marks.filter fun e => !e.2.final && hs.contains e.2.link).map fun e =>
    markWord d.1 e.1 (s.markGen d.1 e.1)

/-- The effects of a cancel of a level (15 R331, 17 R386). Of the invocations linked to it those that run are stopped as threads, and a
message goes to the entry of each of their marks, where those that do not run are discarded, as orphans are at once. -/
def State.cancelLevel (s : State) (h : Word) : State :=
  let hs := s.liveLevels.filter (s.below h 4)
  let s1 := hs.foldl State.cancelOne s
  let ks := (s1.threads.filter fun t => !t.2.onL && hs.contains t.2.link).map (·.1)
  let reach : Nat × Away → Nat × Away := fun a =>
    if hs.contains a.2.link then (a.1, { a.2 with cancelled := true, stops := h :: a.2.stops }) else a
  let s2 : State := { s1 with
    away := s1.away.map reach
    msgs := s1.msgs.filter fun m => match m with
      | .orphan _ _ e => !hs.contains e.link
      | _ => true }
  let s3 := ks.foldl (fun s k => s.cancelThread h k) s2
  let s4 := hs.foldl State.cancelRest s3
  (s4.linkedMarks hs).foldl (fun s m => s.send (.cancel m h)) s4

/-- Whether the issuer of a cancel is itself ended by it. -/
def State.selfCancelled (s : State) : Bool :=
  if s.me.onL then ((tget s.away (s.tidOf s.me).toNat).map (·.cancelled)).getD false else s.me.cancelled

/-- `CANCEL`: cancels a level and everything below it; the status comes when all of it has stopped (15 R331). -/
def execCancel (g : BitVec 4) (d a : BitVec 5) (s : State) : Out :=
  s.lane (.cancel g d a) g false [.x d, .x a] [.x a] fun s =>
    let h := s.srcX 0 a
    let fin := fun (s : State) (v : Word) => s.finishX (lenOf (.cancel g d a)) d v
    if s.me.cancelling then fin s 0
    else match s.levelFor h s.me.asid with
      | none => fin s (-1)
      | some l =>
        if l.st == .done || l.st == .cancelled then fin s (-2)
        else
          let s1 := s.cancelLevel h
          let gen := s1.levelGen (handleDie h) (handleIdx h)
          if s1.selfCancelled then s1
          else if s1.cancelDone (handleDie h) (handleIdx h) gen then fin s1 0
          else s1.waitOn (.cancel (handleDie h) (handleIdx h) gen)

/-! ### Named barriers (15 R338, R339) -/

/-- Whether a barrier operand names a cl barrier. -/
def hbCl (v : Word) : Bool := v.getLsbD 10
/-- The index of a barrier operand. -/
def hbIdx (v : Word) : Nat := v.toNat % 2 ^ 10

/-- A barrier operand the thread's workgroup has (15 R338). -/
def WG.hbOk (g : WG) (v : Word) : Bool :=
  decide (v.toNat < 2 ^ 11) && decide (hbIdx v < if hbCl v then g.hbcl else g.hbarN)

/-- The frame of the three: the operand is in range, and the rest gets the barrier. -/
def hbOp (i : Instr) (g : BitVec 4) (a : BitVec 5) (f : State → Bool → Nat → HBar → State) (s : State) : Out :=
  s.lane i g true [.x a] [.x a] fun s =>
    let v := s.srcX 0 a
    s.check (!(s.wg s.me.wg).hbOk v) 0x26 v <|
      f s (hbCl v) (hbIdx v) (s.hbarOf s.me.wg (hbCl v) (hbIdx v))

/-- The current thread arrives at a barrier. -/
def State.hbArrive (s : State) (cl : Bool) (n : Nat) (b : HBar) : State := s.setHbar s.me.wg cl n (b.arrive s.cur)

/-- `HB_ARR`: arrives; a second arrival in one phase waits for the next (15 R339). -/
def execHbArr (g : BitVec 4) (a : BitVec 5) (s : State) : Out :=
  hbOp (.hbArr g a) g a (fun s cl n b =>
    if b.arrived.contains s.cur then s.waitOn (.hbar cl n)
    else (s.hbArrive cl n b).finish (lenOf (.hbArr g a))) s

/-- `HB_WAIT`: waits for the phase in which the thread has arrived (15 R339). -/
def execHbWait (g : BitVec 4) (a : BitVec 5) (s : State) : Out :=
  hbOp (.hbWait g a) g a (fun s cl n b =>
    if b.arrived.contains s.cur then s.waitOn (.hbar cl n) else s.finish (lenOf (.hbWait g a))) s

/-- `HB_SYNC`: arrives and waits; one that has arrived and was interrupted goes on as `hb.wait` (15 R339). -/
def execHbSync (g : BitVec 4) (a : BitVec 5) (s : State) : Out :=
  hbOp (.hbSync g a) g a (fun s cl n b =>
    if b.arrived.contains s.cur then s.waitOn (.hbar cl n)
    else if s.me.restart == some s.me.pc then s.finish (lenOf (.hbSync g a))
    else
      let s1 := s.hbArrive cl n b
      if (s1.hbarOf s.me.wg cl n).arrived.contains s.cur then
        (s1.updMe fun t => { t with restart := some t.pc }).waitOn (.hbar cl n)
      else s1.finish (lenOf (.hbSync g a))) s

/-! ### Steps of the device -/

/-- `MIGRATE_SEND`: a drained thread is sent to its place (15 R335). -/
def execMigrateSend (t : Nat) (s : State) : Out := .next (s.sendThread t)

/-- `THREAD_ARRIVAL`: a thread or an invocation arrives at an S-die (15 R336, 17 R379). -/
def execThreadArrival (i : Nat) (s : State) : Out := .next ((s.arrival i).getD s)

/-- Nanoseconds until a bin's timer expires, counted at 1.9 GHz from when its oldest thread entered it; a launch of
workgroups of more than 64 has no timer (15 R322). -/
def State.binLeft (s : State) (d b : Nat) : Option Nat :=
  match tget (s.die d).bins b with
  | some e =>
    match e.threads with
    | k :: _ =>
      if s.fillOf d e ≤ 64 then some ((s.timerOf d e * 10 + 18) / 19 - ((s.timeOf (pkgOfDie d)).toNat - (s.thr k).since)) else none
    | [] => none
  | none => none

/-- A bin's timer has expired. -/
def State.timerReady (s : State) (d b : Nat) : Bool := s.binLeft d b == some 0

/-- `BIN_TIMER`: a bin's timer expires and it releases what it holds (15 R322, event 2). -/
def execBinTimer (die b : Nat) (s : State) : Out :=
  .next <| if s.timerReady die b then s.releaseBin die b (((tget (s.die die).bins b).map (s.fillOf die)).getD 0) else s

/-- The handle of a launch named by its table's die × 4096 + its entry. -/
def State.launchNamed (s : State) (l : Nat) : Word := levelHandle (l / 4096) (l % 4096) 0 (s.levelGen (l / 4096) (l % 4096))

/-- `KEYSTONE_BLOCK_REQUEST`: a participant asks for a block, and the keystone hands it out (15 R327). -/
def execKeystoneBlockRequest (l die : Nat) (s : State) : Out :=
  .next <| if s.canAsk (s.launchNamed l) die then s.handBlock (s.launchNamed l) die else s

/-- A thread on a die that does not answer. -/
def State.stranded (s : State) (t : Thread) : Bool :=
  match t.place with
  | .slot c _ _ _ => !s.dieUp (dieOfCore c)
  | .bin d _ => !s.dieUp d
  | .queue d => !s.dieUp d
  | .saved => !s.dieUp (s.wg t.wg).die
  | .ctx p c => !s.dieUp (dieOfCore (coreOfCtx p c))
  | .flight => false

/-- A stranded thread leaves its bin, its context or its workgroup. -/
def State.leavePlace (s : State) (k : Nat) : State :=
  let t := s.thr k
  match t.place with
  | .bin e _ => s.leaveBins e k
  | .queue e => s.leaveBins e k
  | .ctx _ _ => ({ s with away := tdel s.away t.tid.toNat } : State).updCtx t.ctxKey fun c => { c with thread := none }
  | _ => s.leaveWg k

/-- A stranded thread of a launch counts as failed. -/
def State.failStranded (s : State) (k : Nat) : State :=
  ((s.leavePlace k).updThr k fun t => { t with ending := some (t.ending.getD .fatal) }).removeThread k

/-- A stranded thread is gone, to start again from a block. -/
def State.dropStranded (s : State) (k : Nat) : State :=
  let s1 := s.leavePlace k
  { s1 with threads := tdel s1.threads k }

/-- A block holds an index. -/
def Block.holds (b : Block) (i : Nat) : Bool := decide (b.first ≤ i ∧ i < b.first + b.n)

/-- Stranded threads of a launch. -/
def State.strandedOf (s : State) (h : Word) : List (Nat × Thread) :=
  s.threads.filter fun t => t.2.spawned && t.2.launch == h && s.stranded t.2

/-- Whether a launch has lost its keystone or threads. -/
def State.needsElection (s : State) (h : Word) (l : Launch) : Bool := !s.dieUp l.keystone || !(s.strandedOf h).isEmpty

/-- The blocks that are handed out again for some lost indices: those outstanding on the dies that failed, and for a thread that had
moved to such a die a block of its own (15 R327; DEDUCED, log entry 85). -/
def redoBlocks (l : Launch) (is : List Nat) (dead : Nat → Bool) : List Block :=
  let bs := l.blocks.filter fun b => dead b.die && is.any b.holds
  bs ++ ((is.filter fun i => !bs.any (·.holds i)).map fun i => ⟨l.keystone, i, 1⟩)

/-- Indices of some blocks that have finished and are to run again: the level counts them once more. -/
def State.finishedIn (s : State) (h : Word) (bs : List Block) : Nat :=
  ((bs.flatMap fun b => (List.range b.n).map (b.first + ·)).filter fun i => !s.runsIndex h i).length

/-- Lost threads of a launch: where the record allows it their blocks are handed out again from their first index, else they count as
failed (15 R327). A thread that starts again keeps its tokens (19 R425). -/
def State.startAgain (s : State) (h : Word) (lv : Level) (l : Launch) (ks : List Nat) (dead : Nat → Bool) : State :=
  if l.record.restartable && !(s.participants h l).isEmpty then
    let bs := redoBlocks l (ks.map fun k => (s.thr k).index) dead
    let l1 := { l with
      redo := l.redo ++ bs, blocks := l.blocks.filter fun b => !bs.contains b
      kept := ks.foldl (fun m k => tset m (s.thr k).index (tokTok (settleTok (s.thr k).boostTok))) l.kept }
    ks.foldl State.dropStranded (s.setLevel h { lv with count := lv.count + s.finishedIn h bs, launch := some l1 })
  else ks.foldl State.failStranded (s.setLevel h { lv with launch := some l })

/-- The survivors elect a keystone, the lowest-numbered online participant, which goes on from a checkpoint. Blocks of a failed die are
handed out again from their first index where the record allows it, else their threads count as failed; with both copies lost every
unfinished thread of the launch does (15 R327). -/
def State.elect (s : State) (h : Word) (lv : Level) (l : Launch) : State :=
  let ps := s.participants h l
  let key := if s.dieUp l.keystone then l.keystone else ps.headD l.keystone
  let ks := (s.strandedOf h).map (·.1)
  let l1 := { l with keystone := key, copyA := key, copyB := nextDie ps key }
  if !s.dieUp l.copyA && !s.dieUp l.copyB then
    let s1 := s.setLevel h { lv with launch := some { l1 with next := l.record.count, redo := [] } }
    (ks.foldl State.dropStranded s1).childDone 4 h lv.count true
  else s.startAgain h lv l1 ks fun d => !s.dieUp d

/-- `KEYSTONE_ELECTION`: on a participant's failure the survivors go on with a launch (15 R327). -/
def execKeystoneElection (l : Nat) (s : State) : Out :=
  .next <|
    match s.levelOf (s.launchNamed l) with
    | some lv => (match lv.launch with
      | some x => if !lv.final && s.needsElection (s.launchNamed l) x then s.elect (s.launchNamed l) lv x else s
      | none => s)
    | none => s

/-- `WORKGROUP_PLACE`: the launcher places a released workgroup (15 R323), or makes room for one of class DEADLINE
(16 R366). -/
def execWorkgroupPlace (w : Nat) (s : State) : Out :=
  .next <|
    if (tget s.wgs w).isNone then s
    else if s.placeable w && s.placeTurn w then s.place w
    else match s.nextVictim w with
      | some v => s.preempt v noBound false
      | none => s

/-- `ARRIVAL_QUEUE_WRITE`: an L-die writes its oldest arrival (15 R345). -/
def execArrivalQueueWrite (die : Nat) (s : State) : Out := .next ((s.arqStep die).getD s)

/-- `EXIT_QUEUE_WRITE`: a die writes the entry of an ending thread, which then goes (15 R344). -/
def execExitQueueWrite (t : Nat) (s : State) : Out := .next (s.exitWrite t)

end Sys2Proof.Machine
end

