-- ==== Sys2Proof/Machine/Marks.lean ====
section
/-!
DEFINITION. Remote invocation (17 R377 to R389) and the mark instructions (17 R390 to R392), with the messages by which
queues fill, marks resolve and marks break (17 R380, R381, R373).
-/

namespace Sys2Proof.Machine

/-! ### Invocation records and places (17 R377, R378) -/

/-- A well-formed invocation record. -/
def invOk (l : List Nat) : Bool :=
  let n := wordBits l 1 0 3
  let e := wordN l 0
  e % 8 == 0 && canonical (BitVec.ofNat 64 e) && decide (n ≤ 6) && wordBits l 1 3 2 != 3 && decide (wordN l 1 < 2 ^ 6) &&
  (wordBits l 1 3 2 == 0 || wordN l 2 == 0) && ((List.range 6).all fun k => decide (k < n) || wordN l (3 + k) == 0) &&
  wordN l 9 == 0

/-- PKG of a place code. -/
def codePkg (p : Word) : Nat := p.toNat / 2 ^ 24 % 2 ^ 4
/-- CORE of a place code. -/
def codeCore (p : Word) : Nat := p.toNat / 2 ^ 16 % 2 ^ 6

/-- A place code that keeps the layout of R377 and names a package of the domain. -/
def State.codeOk (s : State) (p : Word) : Bool :=
  let k := placeKind p
  let d := placeDie p
  decide (k ≤ 5) && p.toNat / 2 ^ 3 % 2 ^ 5 == 0 && p.toNat / 2 ^ 15 % 2 == 0 && p.toNat / 2 ^ 22 % 2 ^ 2 == 0 &&
  decide (p.toNat < 2 ^ 28) && (k == 4 || placeCourse p == 0) &&
  (if k = 2 ∨ k = 4 then decide (2 ≤ d ∧ d ≤ 9) else if k = 3 then decide (d ≤ 9) else d == 0) &&
  (if k = 3 then decide (codeCore p < if d < 2 then 36 else 32) else codeCore p == 0) &&
  (if k = 0 then codePkg p == 0 else s.present (codePkg p))

/-- The place a code names is there (01 R17). -/
def State.codeOn (s : State) (pkg : Nat) (p : Word) : Bool :=
  let d := codePkg p * 16 + placeDie p
  match placeKind p with
  | 0 => s.sCoreOn pkg
  | 1 => s.sCoreOn (codePkg p)
  | 2 => s.dieOn d
  | 3 => s.dieOn d && s.coreOn (d * 64 + codeCore p)
  | 4 => s.courseOn (d * 8 + placeCourse p)
  | _ => s.lCoreOn (codePkg p)

/-- A place code of an L-core. -/
def codeL (p : Word) : Bool := placeKind p == 5 || (placeKind p == 3 && decide (placeDie p < 2))

/-- The die an invocation is dispatched to: the place's, chosen by R474 where it names none; for a RESTARTABLE record whose
place is offline, another of the package. -/
def State.codeDie (s : State) (pkg sender : Nat) (p : Word) (v : Inv) : Option Nat :=
  let dest := if placeKind p = 0 then pkg else codePkg p
  let any := if codeL p then (if s.lCoreOn dest then s.pickL dest else none)
    else if s.sCoreOn dest then s.pickS dest sender v.asid v.entry (BitVec.ofNat 2 v.sclass) else none
  if s.codeOn pkg p then
    (if placeKind p ≤ 1 ∨ placeKind p = 5 then any else some (codePkg p * 16 + placeDie p))
  else if v.restartable then any
  else none

/-! ### rinv (17 R370, R376, R380, R389) -/

/-- The S-die whose table holds the marks of a thread's invocations (17 R370). -/
def State.originDie (s : State) (t : Thread) : Option Nat :=
  if t.onL then
    let n := (dieId t.die * 36 + coreId t.core) % 8
    let first := t.pkg * 16 + 2 + n
    if s.dieUp first then some first else ((List.range 8).map fun i => t.pkg * 16 + 2 + (n + i) % 8).find? s.dieOn
  else some t.die

/-- The package's remote-count table has no entry for an L-core's thread (07 R473). -/
def State.remoteFull (s : State) (t : Thread) : Bool :=
  t.onL && (tget (s.pkg t.pkg).remote (s.tidOf t).toNat).isNone && decide (16384 ≤ (s.pkg t.pkg).remote.length)

/-- OC.REMOTE rises for a new mark. -/
def State.countRemote (s : State) (k : Nat) (m : Word) : State :=
  let t := s.thr k
  if t.onL then s.updPkg t.pkg fun p => { p with remote := tmod p.remote (s.tidOf t).toNat [] fun l => l ++ [(m.toNat, false)] }
  else s.updThr k fun t => { t with remote := t.remote ++ [(m.toNat, false)] }

/-- Invocations in the buffer of a die, with those on their way to it (17 R380). -/
def State.buffered (s : State) (d : Nat) : Nat :=
  (s.die d).marks.foldl (fun n e => n + e.2.queue.length) 0 +
  (s.msgs.filter fun m => match m with
    | .enqueue _ up => markDie up == d
    | _ => false).length

/-- The mark an invocation is addressed to, while it has no result (17 R380). -/
def State.upstream (s : State) (p : Word) (asid : BitVec 16) : Option Mark :=
  if s.markLost p then none else (s.liveMark p asid).filter fun u => !u.final

/-- An invocation joins the queue of a mark of the same die. -/
def State.joinQueue (s : State) (up m : Word) : State :=
  match s.markAt up with
  | some u => s.setMark up { u with queue := u.queue ++ [m] }
  | none => s

/-- An invocation becomes FORWARDED: it joins the queue at once on the die of its upstream mark, else as a message. -/
def State.forward (s : State) (die : Nat) (up m : Word) : State :=
  let s1 := match s.markAt m with
    | some e => s.setMark m { e with st := .forwarded }
    | none => s
  if markDie up = die then s1.joinQueue up m else s1.send (.enqueue m up)

/-- An invocation is dispatched to a die. -/
def State.dispatchTo (s : State) (m : Word) (die : Nat) : State :=
  match s.markAt m with
  | some e => (s.setMark m { e with st := .pending, site := die }).send (.invoke die m)
  | none => s

/-- An invocation meets the entry of a mark it is addressed to, which is read as by an instruction, so that a spilled one is loaded again
(17 R373, R375, R380, R381): it waits there, is dispatched by what the mark has resolved to, or breaks with it. -/
def State.meetMark (s0 : State) (die sender : Nat) (up m : Word) : State :=
  let s := s0.touchMark up
  match s.markAt up with
  | none => s.breakMark m cStale m
  | some u =>
    if u.st == .broken then s.breakMark m cUpstream (upOrigin up u)
    else if u.st == .resolved then s.forwardTo m u.site sender (u.result.headD 0)
    else s.forward die up m

/-- What becomes of a new mark (17 R389, from its cause on). -/
def State.settleInv (s : State) (t : Thread) (m : Word) (cause : Option Word) (p : Word) (v : Inv) : State :=
  match cause with
  | some c => s.breakMark m c m
  | none =>
    if isMark p then
      if s.markLost p then s.breakMark m cUpstream p
      else if (s.liveMark p t.asid).isNone then s.breakMark m cStale m
      else s.meetMark t.die t.die p m
    else if !s.codeOk p then s.breakMark m cBadPlace m
    else match s.codeDie t.pkg t.die p v with
      | some d => s.dispatchTo m d
      | none => s.breakMark m cPlaceFail m

/-- The invocation of a record (17 R378, R379). -/
def State.invOf (s : State) (t : Thread) (p : Word) (ws : List Nat) : Inv :=
  { entry := BitVec.ofNat 64 (wordN ws 0), sclass := wordBits ws 1 3 2, restartable := (wordN ws 1).testBit 5,
    deadline := wordN ws 2, args := (List.range 6).map fun k => BitVec.ofNat 64 (wordN ws (3 + k)), asid := t.asid,
    ptBase := t.ptBase, place := p, pkg := t.pkg, die := t.die, word0 := none, tok := none, seq := s.seq, started := false }

/-- `rinv` once its record has been read; none if it is misaligned. -/
def State.invoke (s : State) (i : Instr) (d : BitVec 5) (p : Word) (ws : Option (List Nat)) : State :=
  let t := (s.identify s.cur).me
  let good := (ws.map invOk).getD false
  let v := s.invOf t p (ws.getD [])
  match s.originDie t with
  | none => s.trap 0x2D 1
  | some die =>
    if s.remoteFull t then s.trap 0x2D 2
    else if good && isMark p && (s.upstream p t.asid).isSome && decide (16384 ≤ s.buffered (markDie p)) then
      s.waitOn (.markRoom (markDie p))
    else
      let e : Mark := { st := .pending, asid := t.asid, holder := s.tidOf t, held := true,
                        link := if t.mark.isSome then t.link else s.launchOf t, site := die, cause := 0, origin := 0, result := [],
                        queue := [], inv := if good then some v else none, spilled := false, lastRead := s.seq }
      match s.allocMark die e with
      | none => s.trap 0x2D 0
      | some (s1, m) =>
        ((s1.countRemote s.cur m).settleInv t m (if good then none else some cBadRec) p v).finishX (lenOf i) d m

/-- `RINV`: starts an invocation at a place or at a mark (17 R389). -/
def execRinv (g : BitVec 4) (d a b : BitVec 5) (s : State) : Out :=
  s.lane (.rinv g d a b) g false [.x d, .x a, .x b] [.x a, .x b] fun s =>
    let p := s.srcX 0 a
    let va := s.srcX 1 b
    if s.count s.me .remote = 63 then s.waitOn (.accept (.rinv g d a b))
    else if va.toNat % 8 ≠ 0 then s.invoke (.rinv g d a b) d p none
    else State.afterWords (s.readWords (s.me.mctx s.cur) va 10) fun s1 ws => s1.invoke (.rinv g d a b) d p (some ws)

/-! ### Reading marks (17 R390) -/

/-- What a read of a mark finds. -/
inductive MarkRead where
  | stale
  | open
  | is (resolved : Bool) (cause origin : Word) (result : List Word)
deriving DecidableEq, Repr

/-- A read of a mark: one whose origin die is offline reads as LOST (17 R374), a spilled entry is loaded again (R375). -/
def State.readMark (s : State) (m : Word) (asid : BitVec 16) : State × MarkRead :=
  if s.markLost m then (s, .is false cLost m [])
  else if (s.liveMark m asid).isNone then (s, .stale)
  else
    let s1 := s.touchMark m
    match s1.markAt m with
    | some e => (s1, if e.final then .is (e.st == .resolved) e.cause e.origin e.result else .open)
    | none => (s1, .stale)

/-- A thread waits for a mark. -/
def State.waitMark (s : State) (m : Word) : State :=
  s.waitOn (.mark (markDie m) (markIdx m) (s.markGen (markDie m) (markIdx m)))

/-- `MKWAIT`: waits until a mark is final and returns its status (17 R390). -/
def execMkwait (g : BitVec 4) (d a : BitVec 5) (s : State) : Out :=
  s.lane (.mkwait g d a) g false [.x d, .x a] [.x a] fun s =>
    let m := s.srcX 0 a
    let fin := fun (s : State) (v : Word) => s.finishX (lenOf (.mkwait g d a)) d v
    match s.readMark m s.me.asid with
    | (s1, .stale) => fin s1 cStale
    | (s1, .open) => s1.waitMark m
    | (s1, .is true _ _ _) => fin s1 0
    | (s1, .is false c _ _) => fin s1 c

/-- The value of index `k` of a final mark (17 R390). -/
def markValue (k : Nat) (resolved : Bool) (cause origin : Word) (result : List Word) : Word :=
  if k = 8 then (if resolved then 0 else cause)
  else if k = 9 then (if resolved then 0 else origin)
  else if 10 ≤ k then 0
  else if resolved then result[k]?.getD 0 else cause

/-- `MKGET`: waits for a mark and reads a word of it (17 R390). -/
def execMkget (g : BitVec 4) (d a b : BitVec 5) (s : State) : Out :=
  s.lane (.mkget g d a b) g false [.x d, .x a, .x b] [.x a, .x b] fun s =>
    let m := s.srcX 0 a
    let k := (s.srcX 1 b).toNat % 16
    let fin := fun (s : State) (v : Word) => s.finishX (lenOf (.mkget g d a b)) d v
    match s.readMark m s.me.asid with
    | (s1, .stale) => fin s1 cStale
    | (s1, .open) => s1.waitMark m
    | (s1, .is r c o ws) => fin s1 (markValue k r c o ws)

/-- `MKGET_T`: as `mkget`, with MARK_BROKEN for a stale or broken mark (17 R390). -/
def execMkgetT (g : BitVec 4) (d a b : BitVec 5) (s : State) : Out :=
  s.lane (.mkgetT g d a b) g false [.x d, .x a, .x b] [.x a, .x b] fun s =>
    let m := s.srcX 0 a
    let k := (s.srcX 1 b).toNat % 16
    match s.readMark m s.me.asid with
    | (s1, .stale) => s1.trap 0x2C m
    | (s1, .open) => s1.waitMark m
    | (s1, .is true c o ws) => s1.finishX (lenOf (.mkgetT g d a b)) d (markValue k true c o ws)
    | (s1, .is false _ _ _) => s1.trap 0x2C m

/-- `MKTEST`: whether a mark is final or stale (17 R390). -/
def execMktest (g : BitVec 4) (d : BitVec 3) (a : BitVec 5) (s : State) : Out :=
  s.lane (.mktest g d a) g false [.x a] [.x a] fun s =>
    let r := s.readMark (s.srcX 0 a) s.me.asid
    r.1.finishP (lenOf (.mktest g d a)) d (r.2 != .open)

/-! ### mkret and mkdrop (17 R391, R392) -/

/-- x10 to x17. -/
def resultRegs : List (BitVec 5) := (List.range 8).map fun i => BitVec.ofNat 5 (10 + i)

/-- The current thread has resolved its mark. -/
def State.noteResolved (s : State) : State :=
  if s.me.onL then
    { s with away := tmod s.away (s.tidOf s.me).toNat Away.init fun a => { a with resolved := true } }
  else s.updMe fun t => { t with resolved := true }

/-- `MKRET`: resolves the thread's own mark with x10 to x17 (17 R391). -/
def execMkret (g : BitVec 4) (s : State) : Out :=
  s.lane (.mkret g) g false [] (resultRegs.map .x) fun s =>
    let t := (s.identify s.cur).me
    let ws := resultRegs.zipIdx.map fun r => s.srcX r.2 r.1
    match t.mark with
    | some m =>
      if t.resolved then s.finish (lenOf (.mkret g))
      else ((s.noteResolved).deliver t (BitVec.ofNat 64 m) ws).finish (lenOf (.mkret g))
    | none => s.finish (lenOf (.mkret g))

/-- `MKDROP`: the holder gives a mark up (17 R392). -/
def execMkdrop (g : BitVec 4) (a : BitVec 5) (s : State) : Out :=
  s.lane (.mkdrop g a) g false [.x a] [.x a] fun s =>
    let m := s.srcX 0 a
    (match s.liveMark m s.me.asid with
     | some e => if e.holder = s.tidOf s.me ∧ !s.markLost m then s.setMark m { e with held := false } else s
     | none => s).finish (lenOf (.mkdrop g a))

/-! ### Messages that reach a mark's entry -/

/-- `RINV_ENQUEUE`: an invocation reaches the mark it is addressed to (17 R380): it joins the queue, is dispatched if the
mark has resolved meanwhile (R381), and breaks if the mark has broken or its die is lost (R373). One whose mark became final and was freed on
its way finds it stale (the rules do not say what it finds: DESIGN CHOICE, log entry 112). -/
def execRinvEnqueue (i : Nat) (s : State) : Out :=
  .next <|
    match s.msgs[i]? with
    | some (.enqueue m up) =>
      let s1 := s.takeMsg i
      (match s1.markAt m with
       | none => s1
       | some e =>
         if e.final then s1
         else if s1.markLost up then s1.breakMark m cUpstream up
         else s1.meetMark (markDie up) (markDie up) up m)
    | _ => s

/-- `MARK_RESOLVE`: a producer's resolution reaches the entry (17 R381); one for a lost die is discarded (R385). -/
def execMarkResolve (i : Nat) (s : State) : Out :=
  .next <|
    match s.msgs[i]? with
    | some (.resolve m die ws) =>
      if s.markLost m then s.takeMsg i else (s.takeMsg i).resolveMark m die ws
    | _ => s

/-- The invocation of an entry waits in the queue of a mark that is not final. -/
def State.queued (s : State) (e : Mark) : Bool :=
  e.st == .forwarded && match e.inv with
    | some v => !s.markLost v.place && ((s.markAt v.place).map fun u => !u.final).getD false
    | none => false

/-- A cancel waits for what an entry's upstream mark brings, while the entry is in that mark's queue (24 R469). -/
def State.cancelHeld (s : State) (m : Word) : Bool :=
  match s.markAt m with
  | some e => !(e.final || s.markLost m || s.markRuns m) && s.queued e
  | none => false

/-- A cancel reaches an entry (17 R373, R386): an invocation that runs stops as a thread does and breaks its mark then, and one that
does not is discarded. One that waits in a queue leaves it only once the mark it waits on is final (24 R469); where that has broken, the
cancel and the break reach the entry in either order (17 R373). -/
def State.cancelMark (s : State) (i : Nat) (m : Word) : State :=
  match s.markAt m with
  | none => s.takeMsg i
  | some e =>
    if e.final || s.markLost m || s.markRuns m then s.takeMsg i
    else if s.cancelHeld m then s
    else (s.takeMsg i).breakMark m cCancelled m

/-- `MARK_BREAK`: a break, or a cancel, reaches an entry (17 R373, R383, R386). -/
def execMarkBreak (i : Nat) (s : State) : Out :=
  .next <|
    match s.msgs[i]? with
    | some (.broke m c o) => if s.markLost m then s.takeMsg i else (s.takeMsg i).breakMark m c o
    | some (.cancel m _) => s.cancelMark i m
    | _ => s

end Sys2Proof.Machine
end

