-- ==== Sys2Proof/Machine/Ordering.lean ====
section
/-!
DEFINITION. What an instruction orders (13 R281, R289 to R297; 06 R139, R149; 09 R197, R198, R202, R208; 15 R339; 17 R390): what it does to
accesses that are not performed, and to values bound early, as its thread issues it, and what it has learned when it completes.
-/

namespace Sys2Proof.Machine

/-! ### Accesses and their suffixes -/

/-- The ordering suffix and the scope of an access; a plain one has none. -/
def orderOf : Instr → Option (Order × Scope)
  | .ld .. | .ldfF32 .. | .ldf64 .. | .lds .. | .st .. | .stfF32 .. | .stf64 .. | .sts .. => some (.plain, .thread)
  | .ldX _ _ _ _ _ o sc _ _ | .ldfX _ _ _ _ _ o sc _ _ | .ldsX _ _ _ _ _ o sc _ _ | .stX _ _ _ _ _ o sc _ _ | .stfX _ _ _ _ _ o sc _ _ |
    .stsX _ _ _ _ _ o sc _ _ | .ldnc _ _ _ _ _ o sc _ _ => some (o, sc)
  | .ldx _ _ _ _ _ _ o sc _ _ | .stx _ _ _ _ _ _ o sc _ _ | .wmon _ _ _ _ _ o sc _ _ | .red _ _ _ _ _ _ o sc _ _ | .cas _ _ _ _ _ _ o sc _ _ =>
    some (o, sc)
  | .amo _ _ _ _ _ _ _ o sc _ _ => some (o, sc)
  | _ => none

/-- The scope of an access that acquires. -/
def acquireOf (i : Instr) : Option Scope :=
  match orderOf i with
  | some (.acq, sc) | some (.acqRel, sc) => some sc
  | _ => none

/-- The scope of an access that releases. -/
def releaseOf (i : Instr) : Option Scope :=
  match orderOf i with
  | some (.rel, sc) | some (.acqRel, sc) => some sc
  | _ => none

/-- Where an access of the current thread goes, and how: whether to scratchpad, its address, its bytes and its kind. -/
def State.reachOf (s : State) (i : Instr) : Option (Bool × Word × Nat × XKind) :=
  let x := fun (spad : Bool) (ea : Word) (n : Nat) (k : XKind) => some (spad, ea, n, k)
  let f := fun (ea : Word) (n : Nat) (k : XKind) => if inWindow ea then x true (windowOff ea) n k else x false ea n k
  match i with
  | .ld z _ _ a off _ => x false (mAddr (s.srcX 0 a) off z.bytes) z.bytes .load
  | .ldX z _ _ a off _ _ _ _ | .ldnc z _ _ a off _ _ _ _ => x false (xAddr (s.srcX 0 a) off) z.bytes .load
  | .ldx z _ _ a b off _ _ _ _ => x false (ixAddr (s.srcX 0 a) (s.srcX 1 b) off z.bytes) z.bytes .load
  | .ldfF32 _ _ a off _ => f (mAddr (s.srcX 0 a) off 4) 4 .load
  | .ldf64 _ _ a off _ => f (mAddr (s.srcX 0 a) off 8) 8 .load
  | .ldfX dbl _ _ a off _ _ _ _ => f (xAddr (s.srcX 0 a) off) (if dbl then 8 else 4) .load
  | .lds z _ _ a off _ => x true (mAddr (s.srcX 0 a) off z.bytes) z.bytes .load
  | .ldsX z _ _ a off _ _ _ _ => x true (xAddr (s.srcX 0 a) off) z.bytes .load
  | .st z _ _ a off _ => x false (mAddr (s.srcX 0 a) off z.bytes) z.bytes .store
  | .stX z _ _ a off _ _ _ _ => x false (xAddr (s.srcX 0 a) off) z.bytes .store
  | .stx z _ _ a b off _ _ _ _ => x false (ixAddr (s.srcX 0 a) (s.srcX 1 b) off z.bytes) z.bytes .store
  | .stfF32 _ _ a off _ => f (mAddr (s.srcX 0 a) off 4) 4 .store
  | .stf64 _ _ a off _ => f (mAddr (s.srcX 0 a) off 8) 8 .store
  | .stfX dbl _ _ a off _ _ _ _ => f (xAddr (s.srcX 0 a) off) (if dbl then 8 else 4) .store
  | .sts z _ _ a off _ => x true (mAddr (s.srcX 0 a) off z.bytes) z.bytes .store
  | .stsX z _ _ a off _ _ _ _ => x true (xAddr (s.srcX 0 a) off) z.bytes .store
  | .amo _ wide _ _ a _ off _ _ _ _ | .cas wide _ _ a _ off _ _ _ _ => x false (xAddr (s.srcX 0 a) off) (amoBits wide / 8) .rmw
  | .red _ wide _ a _ off _ _ _ _ => x false (xAddr (s.srcX 0 a) off) (redWidth wide / 8) .store
  | .wmon _ _ a _ off _ _ _ _ => x false (s.me.wordEa.getD (xAddr (s.srcX 0 a) off)) 8 .load
  | _ => none

/-- The bytes an access of the current thread reaches: in scratchpad, or in memory where it translates. -/
def State.placeOf (s : State) (i : Instr) : Option (Bool × Nat × Nat × XKind) :=
  match s.reachOf i with
  | some (true, o, n, k) => some (true, o.toNat, n, k)
  | some (false, va, n, k) => (match (s.xlate (s.me.mctx s.cur) va k).2 with
    | .ok pa _ => some (false, pa, n, k)
    | _ => none)
  | none => none

/-! ### Scopes (13 R280, R281) -/

/-- A scope of a thread holds another thread of its core: the two contexts of an L-core are one workgroup to each other. -/
def State.covers (s : State) (sc : Scope) (k j : Nat) : Bool :=
  match sc with
  | .thread => k == j
  | .wg => k == j || ((s.thr k).core == (s.thr j).core && (s.thr k).onL == (s.thr j).onL && ((s.thr k).onL || (s.thr k).wg == (s.thr j).wg))
  | _ => true

/-- Accesses known to a thread, and all that happens before one of them (13 R289, pairs 1 and 4). -/
def State.known (s : State) (k : Nat) : List Nat := (s.stores.filter (·.knownTo k)).flatMap fun h => h.id :: h.deps

/-- A thread's later accesses come after some others: stores to memory become visible to it, loads are only bound before its writes, and
anything else is performed. -/
def State.learn (s : State) (k : Nat) (ids : List Nat) : State :=
  let s1 := s.perform fun h => ids.contains h.id && !h.plain && h.kind != .load
  { s1 with stores := s1.stores.map fun h =>
      if ids.contains h.id then { h with seen := if h.plain then k :: h.seen else h.seen, before := (k, none) :: h.before } else h }

/-- What a thread knows is performed at a scope (13 R284, 09 R208): at wg scope its workgroup reads the stores, at a wider one all do. `after` are
the threads whose later accesses come after it, with the scope of the fence that says so. -/
def State.publish (s : State) (k : Nat) (sc : Scope) (after : List (Nat × Option Scope)) : State :=
  let ids := s.known k
  match sc with
  | .thread => s
  | .wg =>
    let s1 := s.perform fun h => ids.contains h.id && !h.plain
    let js := (s.threads.map (·.1)).filter (s.covers .wg k)
    { s1 with stores := s1.stores.map fun h =>
        if ids.contains h.id then { h with seen := js ++ h.seen, before := after ++ h.before } else h }
  | _ => s.perform fun h => ids.contains h.id

/-- What a thread knows happens before the arrivals of a phase. -/
def State.arriving (s : State) (k : Nat) (x : Sync) : State :=
  let ids := s.known k
  { s with stores := s.stores.map fun h => if ids.contains h.id then { h with toks := x :: h.toks } else h }

/-- A thread's loads have bound nothing early any more. -/
def State.fresh (s : State) (k : Nat) : State := { s with views := s.views.filter (·.who != k) }

/-! ### As an instruction is issued -/

/-- Accesses on common bytes that an access finds performed (13 R282, 09 R197): of its thread and of the lanes that issue with it, but for
the thread's own stores to memory, which it reads, and where it writes and stays behind itself. `wmon`, atomics and reductions find there
what their thread sees. The lanes of the issue bind anew there, and so does an access that reaches beyond an early value. -/
def State.conflicts (s : State) (i : Instr) : State :=
  match i with
  | .barInit _ _ a .. => s.perform fun h => h.meets true s.me.wg (s.srcX 0 a).toNat 16
  | _ =>
    match s.placeOf i with
    | none => s
    | some (spad, a, n, kind) =>
      if !spad && s.atCtrl (s.me.agent / 512) a then (if kind = XKind.store then s else s.performCtrl s.cur)
      else
        let here := fun (h : Held) => h.meets spad s.me.wg a n
        let mine := fun (h : Held) => h.c.who == s.cur || s.mateHeld h
        let s1 := match i with
          | .amo .. | .cas .. | .red .. | .wmon .. =>
            if s.delay == some s.cur then s else s.perform fun h => here h && (mine h || h.readBy s.cur)
          | _ => if kind = XKind.store then s else s.perform fun h => here h && mine h && !h.readBy s.cur
        let mate := fun (k : Nat) => k != s.cur && ((s.gang.map fun g => (g.members.map (·.1)).contains k).getD false)
        let whole := fun (v : View) => (loadForm i).isSome && decide (v.addr ≤ a ∧ a + n ≤ v.addr + v.n)
        { s1 with views := s1.views.filter fun v => !(v.meets spad a n && (mate v.who || (v.who == s.cur && !whole v))) }

/-- A `cas` of the current thread would store: one that fails releases nothing (09 R202). -/
def State.casWins (s : State) (i : Instr) : Bool :=
  match i, s.placeOf i with
  | .cas wide _ _ _ b .., some (_, pa, n, _) =>
    (match (s.ownLoad (s.me.mctx s.cur) .coh pa n false).2 with
     | .ok v => v == (s.srcX 1 b).toNat % 2 ^ amoBits wide
     | .error _ => false)
  | .cas .., none => false
  | _, _ => true

/-- The scope at which a command of the engines comes after what its thread has accessed (13 R293; 06 R149). A copy of thread scope reads what
its thread's loads would, which the scratchpad gives to the whole workgroup. -/
def commandScope : Instr → Option Scope
  | .cpyOut sc .. | .cpySct sc .. => some (if sc = .thread then .wg else sc)
  | .cpyIn .. | .cpyMc .. | .cpyGat .. | .pgMig .. | .pgMigRel .. | .pgSplit .. | .pgColl .. => some .sys
  | .mcfg .. | .mrel .. | .mload .. | .mloadT .. | .mgath .. | .mmul .. | .msacc .. | .mstore .. | .mzero .. | .macld .. => some .wg
  | .cwFlush sc .. | .cwInval sc .. | .tlbInv _ sc .. => some (match sc with
    | .die => .die
    | .pkg => .pkg
    | .sys => .sys)
  | _ => none

/-- The phase of a barrier object that an instruction of the current thread arrives at (06 R138). -/
def State.arrivesAt (s : State) (i : Instr) : Option Sync :=
  let at' := fun (a : BitVec 5) =>
    let b := (s.srcX 0 a).toNat
    let g := s.wg s.me.wg
    if g.barOffset b && g.tags.contains b && (g.bar b).pend != 0 then some (Sync.bar s.me.wg b (g.bar b).gen) else none
  match i with
  | .barArr _ _ a .. => at' a
  | .barExp true _ _ _ a .. => at' a
  | _ => none

/-- What an instruction of the current thread does, as it is issued, to accesses that are not performed (13 R289, R293, R295, R296). -/
def State.orders (s : State) (i : Instr) : State :=
  let k := s.cur
  match acquireOf i, releaseOf i with
  | some _, r =>
    let s1 : State := { s.fresh k with delay := if s.delay == some k then none else s.delay }
    if r.isSome && s.casWins i then s1.publish k .sys [] else s1
  | none, some _ => if !(s.known k).isEmpty && s.casWins i then { s with delay := some k } else s
  | none, none =>
    match i with
    | .fence sc | .fenceSc sc =>
      if sc == .thread then s
      else
        let s1 := (s.fresh k).publish k sc [(k, some sc)]
        if sc == .sys then s1.performCtrl k else s1
    | .barArr .. | .barExp .. => (s.arrivesAt i).elim s (s.arriving k)
    | .hbArr _ a | .hbSync _ a =>
      let v := s.srcX 0 a
      if hbCl v then s.publish k .cl [] else s.arriving k (.hbar s.me.wg (hbIdx v) (s.hbarOf s.me.wg false (hbIdx v)).gen)
    | .spawn .. | .exit .. | .cancel .. | .migrate .. | .yield .. | .sys .. | .rinv .. | .mkret .. => s.publish k .sys []
    | _ => match commandScope i with
      | some sc => s.publish k sc (((s.threads.map (·.1)).filter (s.covers .wg k)).map fun j => (j, none))
      | none => s

/-- An instruction of the current thread is issued, with accesses out of their order under way. -/
def State.ordered (s : State) (i : Instr) : State :=
  if s.stores.isEmpty && s.views.isEmpty && s.delay.isNone then s
  else if !s.me.guard (guardOf i) then s
  else (s.orders i).conflicts i

/-! ### As an instruction completes -/

/-- The releases that an access reads from a store it sees (13 R289): those of the release sequence of the last one on each byte, where the
two are in mutual scope. -/
def State.readFrom (s : State) (k : Nat) (sc : Scope) (a n : Nat) : List Nat :=
  let tops := ((List.range n).filterMap fun i => (s.stores.filter fun h => h.readBy k && h.meets false 0 (a + i) 1).getLast?).eraseDups
  tops.flatMap fun x => (s.stores.filter fun h => h.c.who == x.c.who && decide (h.id ≤ x.id) && h.meets false 0 x.addr x.n).flatMap fun h =>
    let ids := (h.rels.filter fun r => s.covers r.1 h.c.who k && s.covers sc k h.c.who).map (·.2)
    if ids.isEmpty then [] else h.id :: ids

/-- Accesses that happen before the arrivals of phases. -/
def State.arrivedAt (s : State) (f : Sync → Bool) : List Nat := (s.stores.filter fun h => h.toks.any f).flatMap fun h => h.id :: h.deps

/-- What an instruction of the current thread acquires when it completes (13 R289, R294 to R296; 06 R139; 17 R390), if it does: the accesses
that then come before its thread's later ones. -/
def State.acquires (s : State) (i : Instr) : Option (List Nat) :=
  let k := s.cur
  let w := s.me.wg
  match i with
  | .barWait false _ _ a b .. =>
    let x := (s.srcX 0 a).toNat
    let n := (s.srcX 1 b).toNat
    let g := s.wg w
    let done := match s.me.rel with
      | some v => v == 0 || v == -4
      | none => g.barOffset x && g.tags.contains x && decide (n ≤ 15) && (g.bar x).gen != n
    if done then some (s.arrivedAt (· == .bar w x (n % 16))) else none
  | .barTest false _ _ a b .. =>
    let x := (s.srcX 0 a).toNat
    let n := (s.srcX 1 b).toNat
    let g := s.wg w
    if g.barOffset x && g.tags.contains x && decide (n ≤ 15) && ((g.bar x).poison || (g.bar x).gen != n) then
      some (s.arrivedAt (· == .bar w x n))
    else none
  | .hbWait _ a | .hbSync _ a =>
    let v := s.srcX 0 a
    let waited := match s.me.wait with
      | some (.hbar _ _) => true
      | _ => i == .hbSync (guardOf i) a
    if !waited then none
    else if hbCl v then some []
    else
      let b := s.hbarOf w false (hbIdx v)
      some (s.arrivedAt fun x => match x with
        | .hbar w' n gen => w' == w && n == hbIdx v && (gen != b.gen || (s.me.wait.isNone && b.pend == 1))
        | _ => false)
  | .wcnt .. => some []
  | .doneWait _ _ a => if ((s.levelFor (s.srcX 0 a) s.me.asid).map (·.final)).getD false then some [] else none
  | .mkwait _ _ a | .mkget _ _ a _ | .mkgetT _ _ a _ | .mktest _ _ a => (match (s.readMark (s.srcX 0 a) s.me.asid).2 with
    | .is true _ _ _ => some []
    | _ => none)
  | _ => match acquireOf i, s.placeOf i with
    | some sc, some (false, pa, n, .load) => some (s.readFrom k sc pa n)
    | some _, _ => some []
    | none, _ => none

/-- An access that stays behind comes after what a fence, an acquire or its own release puts before it (13 R289). -/
def State.linkedTo (s : State) (i : Instr) (h : Held) : Held :=
  let ids := s.known h.c.who
  let fences := s.stores.flatMap fun x => x.before.filterMap fun b => if b.1 = h.c.who then b.2.map fun sc => (sc, x.id) else none
  match releaseOf i with
  | some sc => { h with deps := ids ++ h.deps, rels := ids.map (fun n => (sc, n)) ++ fences }
  | none => { h with rels := fences }

/-- An instruction of the current thread has been executed, which leaves `u`: an access that stays behind is linked to what comes before it,
and what the instruction acquires is learned if it has completed. -/
def State.linked (s : State) (i : Instr) (u : State) : State :=
  if u.stores.isEmpty && u.views.isEmpty && u.delay.isNone then u
  else
    let k := s.cur
    let u1 : State := { u with
      stores := u.stores.map fun h => if decide (s.nextId ≤ h.id) && h.c.who == k && !h.ctrl then s.linkedTo i h else h
      delay := if u.delay == some k && (orderOf i).isSome then none else u.delay }
    match s.acquires i with
    | some ids =>
      if s.me.guard (guardOf i) && (tget u1.threads k).isSome && (u1.thr k).wait.isNone && !(u1.thr k).atTvec then (u1.fresh k).learn k ids
      else u1
    | none => u1

end Sys2Proof.Machine
end

