-- ==== Sys2Proof/Machine/Special.lean ====
section
/-!
DEFINITION. The special functions of 11 R236 to R239. `frdx` is rounded correctly. For the other four the spec gives a
bound on the error and leaves the bits open within it: an enclosure of the exact value decides which FP32 values are
allowed, and a free value of `Config` chooses among them by the operand alone (log entry 7).
-/

namespace Sys2Proof.Machine

/-- ⌊2^400 / 2π⌋. -/
def invTwoPi : Nat :=
  0x28be60db9391054a7f09d5f47d4d377036d8a5664f10e4107f9458eaf7aef1586dc91b8e909374b801924bba827464873f87

/-- ⌊2^320 × 2π⌋. -/
def twoPi : Nat := 0x6487ed5110b4611a62633145c06e0e68948127044533e63a0105df531d89cd9128a5043cc71a026ef

/-- ⌊2^256 × ln 2⌋. -/
def lnTwo : Nat := 0xb17217f7d1cf79abc9e3b39803f2f6af40f343267298b62d8a0d175b8baafa2b

/-! ### frdx (11 R236) -/

/-- `frdx` of an element. -/
def frdxE (md : Rnd) (v : Nat) : FRes :=
  match Elem.f32.decode v with
  | .nan s => (Elem.f32.nanBits, if s then flagNV else 0)
  | .inf _ => (Elem.f32.nanBits, flagNV)
  | .num n m e =>
    if m = 0 then (v, 0)
    else
      let k := (400 - e).toNat
      let t := m * invTwoPi % 2 ^ k
      let up := decide (2 ^ (k - 1) ≤ t)
      let mag := if up then 2 ^ k - t else t
      (roundMag .f32 md (n != up) (mag / 2 ^ 60) (60 - (k : Int)) true).1

/-! ### Enclosures -/

/-- An alternating series `t − t·x/(k(k+1)) + …`, in units of 2^−320. -/
def altSeries : Nat → Nat → Nat → Nat → Nat
  | 0, _, _, _ => 0
  | fuel + 1, k, t, x => t - altSeries fuel (k + 2) (t * x / 2 ^ 320 / (k * (k + 1))) x

/-- Sine of an angle of at most one radian, in units of 2^−320. -/
def sinFix (th : Nat) : Nat := altSeries 40 2 th (th * th / 2 ^ 320)

/-- Cosine of an angle of at most one radian, in units of 2^−320. -/
def cosFix (th : Nat) : Nat := altSeries 40 1 (2 ^ 320) (th * th / 2 ^ 320)

/-- Sign and magnitude, in units of 2^−320, of the sine of `n / 2^k` turns, for `n < 2^k` and `k ≥ 3`. -/
def sinTurns (n k : Nat) : Bool × Nat :=
  let half := 2 ^ (k - 1)
  let q := 2 ^ (k - 2)
  let a := n % half
  let b := if q < a then half - a else a
  let mag := if 2 * b ≤ q then sinFix (b * twoPi / 2 ^ k) else cosFix ((q - b) * twoPi / 2 ^ k)
  (decide (half ≤ n), mag)

/-- The series of e^x, in units of 2^−256. -/
def expSeries : Nat → Nat → Nat → Nat → Nat
  | 0, _, _, _ => 0
  | fuel + 1, k, t, x => t + expSeries fuel (k + 1) (t * x / 2 ^ 256 / k) x

/-- Fraction bits of a base-2 logarithm, by repeated squaring of a number from 1 to 2 in units of 2^−400. -/
def logBits : Nat → Nat → Nat → Nat
  | 0, _, acc => acc
  | fuel + 1, x, acc =>
    let y := x * x / 2 ^ 400
    if 2 ^ 401 ≤ y then logBits fuel (y / 2) (2 * acc + 1) else logBits fuel y (2 * acc)

/-! ### A value within the bound -/

/-- Whether an FP32 magnitude of bits `c` lies within `bound` units in the last place of `y × 2^e` (11 R237, R238). -/
def within (bound y : Nat) (e : Int) (c : Nat) : Bool :=
  let top : Int := (Nat.log2 y : Int) + e
  let u : Int := max top (-126) - 23
  let q : Int := min e (-149)
  let yv : Int := ((y * 2 ^ (e - q).toNat : Nat) : Int)
  let uv : Int := ((bound * 2 ^ (u - q).toNat : Nat) : Int)
  let r := (Elem.f32.decode c).units q
  decide (r - yv ≤ uv ∧ yv - r ≤ uv)

/-- The FP32 magnitudes up to `top` that the bound allows. Just above a power of two those below it lie half as far apart. -/
def allowed (bound y : Nat) (e : Int) (top : Nat) : List Nat :=
  let b := (roundMag .f32 .tz false y e true).1.1
  let low := 2 * bound + 1
  (((List.range (3 * bound + 3)).filter fun j => decide (low ≤ b + j)).map fun j => b + j - low).filter fun c =>
    decide (c ≤ top) && within bound y e c

/-- The result the bound leaves open, chosen by function and operand. -/
def pick (fn v : Nat) (neg : Bool) (bound y : Nat) (e : Int) (top : Nat) : FRes :=
  let cs := allowed bound y e top
  let c := (cs[(Config.approx fn (BitVec.ofNat 32 v)).natAbs % cs.length]?).getD 0
  (c + (if neg then Elem.f32.signBit else 0), if c < 2 ^ 23 then flagNX ||| flagUF else flagNX)

/-! ### The four functions -/

/-- `fsinp` and, from a quarter turn on, `fcosp`, of a finite operand other than the exact cases (11 R237). -/
def sinpE (cosine : Bool) (v : Nat) : FRes :=
  match Elem.f32.decode v with
  | .nan s => (Elem.f32.nanBits, if s then flagNV else 0)
  | .inf _ => (Elem.f32.nanBits, flagNV)
  | .num n m e =>
    let k := Nat.max (-e).toNat 3
    let t := (m * 2 ^ (k + e).toNat + (if cosine then 2 ^ (k - 2) else 0)) % 2 ^ k
    let sg := if cosine then false else n
    if t = 0 ∨ t = 2 ^ (k - 1) then (if sg then Elem.f32.signBit else 0, 0)
    else if t = 2 ^ (k - 2) then (if sg then 0xBF800000 else 0x3F800000, 0)
    else if t = 2 ^ (k - 2) * 3 then (if sg then 0x3F800000 else 0xBF800000, 0)
    else
      let r := sinTurns t k
      pick (if cosine then 1 else 0) v (sg != r.1) 2 r.2 (-320) 0x3F800000

/-- `fexp2` (11 R238). -/
def fexp2E (v : Nat) : FRes :=
  match Elem.f32.decode v with
  | .nan s => (Elem.f32.nanBits, if s then flagNV else 0)
  | .inf n => (if n then 0 else Elem.f32.infOf false, 0)
  | .num n m e =>
    let k := (-e).toNat
    let whole := m * 2 ^ e.toNat / 2 ^ k
    let fr := m % 2 ^ k
    if m = 0 then (0x3F800000, 0)
    else if !n && decide (128 ≤ whole) then (Elem.f32.infOf false, flagOF ||| flagNX)
    else if n && decide (160 ≤ whole) then pick 2 v false 1 1 (-170) 0x7F7FFFFF
    else if fr = 0 ∧ (whole ≤ 149 ∨ !n) then
      ((roundMag .f32 .ne false 1 (if n then -(whole : Int) else whole) false).1.1, 0)
    else
      let up := n && decide (fr ≠ 0)
      let f := if up then 2 ^ k - fr else fr
      let w : Int := (if n then -(whole : Int) else whole) - (if up then 1 else 0)
      pick 2 v false 1 (expSeries 80 1 (2 ^ 256) (f * lnTwo / 2 ^ k)) (w - 256) 0x7F7FFFFF

/-- `flog2` (11 R238). -/
def flog2E (v : Nat) : FRes :=
  match Elem.f32.decode v with
  | .nan s => (Elem.f32.nanBits, if s then flagNV else 0)
  | .inf n => if n then (Elem.f32.nanBits, flagNV) else (v, 0)
  | .num n m e =>
    let l := Nat.log2 m
    let w : Int := (l : Int) + e
    if m = 0 then (Elem.f32.infOf true, flagDZ)
    else if n then (Elem.f32.nanBits, flagNV)
    else if m = 2 ^ l then ((roundMag .f32 .ne (decide (w < 0)) w.natAbs 0 false).1.1, 0)
    else
      let y : Int := w * 2 ^ 200 + (logBits 200 (m * 2 ^ (400 - l)) 0 : Nat)
      pick 3 v (decide (y < 0)) 1 y.natAbs (-200) 0x7F7FFFFF

end Sys2Proof.Machine
end

