-- ==== Sys2Proof/Machine/FloatOps.lean ====
section
/-!
DEFINITION. Float instructions (chapter 11, R227 to R245): each takes the elements its type names, applies one operation
of `Float.lean` or `Special.lean` to each, packs the results, and adds the flags to FFLAGS.
-/

namespace Sys2Proof.Machine

/-! ### Elements of a register (07 R152) -/

/-- Bits of one element of a register value. -/
def FType.bitsAt (ty : FType) (v : Word) (i : Nat) : Nat := v.toNat / 2 ^ (ty.elem.width * i) % 2 ^ ty.elem.width

/-- The value of one element. -/
def FType.valAt (ty : FType) (v : Word) (i : Nat) : FVal := ty.elem.decode (FType.bitsAt ty v i)

/-- The results of all elements, packed; bits above the elements are 0, and the flags of the elements are joined (07 R152,
10 R218, 11 R229). -/
def packFrom (w : Nat) (f : Nat → FRes) : Nat → Nat × BitVec 5
  | 0 => (0, 0)
  | n + 1 =>
    let t := packFrom w f n
    let r := f n
    (t.1 + r.1 * 2 ^ (w * n), t.2 ||| r.2)

/-- A register value made of the elements of a type. -/
def FType.pack (ty : FType) (f : Nat → FRes) : Word × BitVec 5 :=
  let r := packFrom ty.elem.width f ty.count
  (BitVec.ofNat 64 r.1, r.2)

/-! ### Shapes of instruction -/

/-- The instruction sets flags, writes an f register and completes. -/
def State.finishFl (s : State) (len : Nat) (d : BitVec 5) (r : Word × BitVec 5) : State :=
  s.updMe fun t => ((t.raise r.2).put (.f d) r.1).complete len

/-- The same with a result that may come late; the flags are set when it is produced, window or not (11 R229). -/
def State.finishFlLate (s : State) (len : Nat) (d : BitVec 5) (la : BitVec 4) (r : Word × BitVec 5) : State :=
  s.updMe fun t => ((t.raise r.2).post (.f d) la r.1).complete len

/-- An operation on the elements of one f register. -/
def flt1 (i : Instr) (g : BitVec 4) (d a : BitVec 5) (f : Rnd → Word → Word × BitVec 5) (rm : RM) (s : State) : Out :=
  s.lane i g false [.f d, .f a] [.f a] fun s => s.finishFl (lenOf i) d (f (rndFor rm s.me.frm) (s.srcF 0 a))

/-- A long-latency operation on the elements of one f register. -/
def flt1L (i : Instr) (g : BitVec 4) (d a : BitVec 5) (la : BitVec 4) (f : Rnd → Word → Word × BitVec 5) (rm : RM)
    (s : State) : Out :=
  s.lane i g false [.f d, .f a] [.f a] fun s => s.finishFlLate (lenOf i) d la (f (rndFor rm s.me.frm) (s.srcF 0 a))

/-- An operation on the elements of two f registers. -/
def flt2 (i : Instr) (g : BitVec 4) (d a b : BitVec 5) (f : Rnd → Word → Word → Word × BitVec 5) (rm : RM) (s : State) :
    Out :=
  s.lane i g false [.f d, .f a, .f b] [.f a, .f b] fun s =>
    s.finishFl (lenOf i) d (f (rndFor rm s.me.frm) (s.srcF 0 a) (s.srcF 1 b))

/-- An operation on the elements of three f registers. -/
def flt3 (i : Instr) (g : BitVec 4) (d a b c : BitVec 5) (f : Rnd → Word → Word → Word → Word × BitVec 5) (rm : RM)
    (s : State) : Out :=
  s.lane i g false [.f d, .f a, .f b, .f c] [.f a, .f b, .f c] fun s =>
    s.finishFl (lenOf i) d (f (rndFor rm s.me.frm) (s.srcF 0 a) (s.srcF 1 b) (s.srcF 2 c))

/-! ### What each operation computes on registers -/

/-- `fadd` (11 R230). -/
def faddV (ty : FType) (md : Rnd) (a b : Word) : Word × BitVec 5 :=
  FType.pack ty fun i => roundVal ty.elem md (sumOf md [FType.valAt ty a i, FType.valAt ty b i])

/-- `fsub` (11 R230). -/
def fsubV (ty : FType) (md : Rnd) (a b : Word) : Word × BitVec 5 :=
  FType.pack ty fun i => roundVal ty.elem md (sumOf md [FType.valAt ty a i, (FType.valAt ty b i).flip])

/-- `fmul` (11 R230). -/
def fmulV (ty : FType) (md : Rnd) (a b : Word) : Word × BitVec 5 :=
  FType.pack ty fun i => roundVal ty.elem md ((FType.valAt ty a i).mul (FType.valAt ty b i))

/-- `fma`, and with the product or the addend negated `fnma` and `fms`; the product is never rounded alone (11 R230). -/
def fmaV (ty : FType) (negP negC : Bool) (md : Rnd) (a b c : Word) : Word × BitVec 5 :=
  FType.pack ty fun i =>
    let p := (FType.valAt ty a i).mul (FType.valAt ty b i)
    let c := FType.valAt ty c i
    roundVal ty.elem md (sumOf md [if negP then p.flip else p, if negC then c.flip else c])

/-- `fdiv` (11 R230). -/
def fdivV (ty : FType) (md : Rnd) (a b : Word) : Word × BitVec 5 :=
  FType.pack ty fun i => fdivE ty.elem md (FType.valAt ty a i) (FType.valAt ty b i)

/-- An operation on the value of each element. -/
def mapV (ty : FType) (f : FVal → FRes) (a : Word) : Word × BitVec 5 := FType.pack ty fun i => f (FType.valAt ty a i)

/-- An operation on the bits of each element. -/
def mapB (ty : FType) (f : Nat → FRes) (a : Word) : Word × BitVec 5 := FType.pack ty fun i => f (FType.bitsAt ty a i)

/-- An operation on the bits of each pair of elements. -/
def zipB (ty : FType) (f : Nat → Nat → FRes) (a b : Word) : Word × BitVec 5 :=
  FType.pack ty fun i => f (FType.bitsAt ty a i) (FType.bitsAt ty b i)

/-- `fabs` (11 R232). -/
def fabsB (E : Elem) (v : Nat) : FRes := (v % E.signBit, 0)
/-- `fneg` (11 R232). -/
def fnegB (E : Elem) (v : Nat) : FRes := (if v < E.signBit then v + E.signBit else v - E.signBit, 0)
/-- `fcpsgn` (11 R232). -/
def fcpsgnB (E : Elem) (a b : Nat) : FRes := (a % E.signBit + b / E.signBit * E.signBit, 0)

/-- `fdot2` (11 R240): three exact terms, one rounding to FP32; an exact zero follows R224. -/
def fdot2V (ty : FType) (md : Rnd) (a b c : Word) : Word × BitVec 5 :=
  FType.pack .f32x2 fun j =>
    roundVal .f32 md (sumOf .ne [FType.valAt .f32x2 c j, (FType.valAt ty a (2 * j)).mul (FType.valAt ty b (2 * j)),
      (FType.valAt ty a (2 * j + 1)).mul (FType.valAt ty b (2 * j + 1))])

/-! ### Conversions (11 R241, R242) -/

/-- Bits of the source element that goes to destination element `i`, or none where a narrowing has no source. -/
def cvtSource (dst src : FType) (a b : Word) (h i : Nat) : Option Nat :=
  if dst.count = src.count then some (FType.bitsAt src a i)
  else if dst.count < src.count then some (FType.bitsAt src a (h * dst.count + i))
  else if i < src.count then some (FType.bitsAt src a i)
  else if i < 2 * src.count then some (FType.bitsAt src b (i - src.count))
  else none

/-- The converted element `i`, and whether it traps. -/
def cvtElem (dst src : FType) (md : Rnd) (ovp : BitVec 2) (a b : Word) (h i : Nat) : FRes × Bool :=
  match cvtSource dst src a b h i with
  | some v => fcvtE dst.elem src.elem md ovp v
  | none => ((0, 0), false)

/-- The lowest element that traps (10 R220). -/
def cvtTrap (dst src : FType) (md : Rnd) (ovp : BitVec 2) (a b : Word) (h : Nat) : Option Nat :=
  (List.range dst.count).find? fun i => (cvtElem dst src md ovp a b h i).2

/-- The f registers `fcvt` names: B holds a register only where it narrows (11 R242). -/
def cvtRegs (dst src : FType) (a b : BitVec 5) : List Dest :=
  if src.count < dst.count then [.f a, .f b] else [.f a]

/-! ### Instructions -/

/-- `FADD`: 11 R230. -/
def execFadd (ty : FType) (g : BitVec 4) (d a b : BitVec 5) (rm : RM) (ru : BitVec 3) (s : State) : Out :=
  flt2 (.fadd ty g d a b rm ru) g d a b (faddV ty) rm s

/-- `FSUB`: 11 R230. -/
def execFsub (ty : FType) (g : BitVec 4) (d a b : BitVec 5) (rm : RM) (ru : BitVec 3) (s : State) : Out :=
  flt2 (.fsub ty g d a b rm ru) g d a b (fsubV ty) rm s

/-- `FMUL`: 11 R230. -/
def execFmul (ty : FType) (g : BitVec 4) (d a b : BitVec 5) (rm : RM) (ru : BitVec 3) (s : State) : Out :=
  flt2 (.fmul ty g d a b rm ru) g d a b (fmulV ty) rm s

/-- `FMA`: 11 R230. -/
def execFma (ty : FType) (g : BitVec 4) (d a b c : BitVec 5) (rm : RM) (ru : BitVec 3) (s : State) : Out :=
  flt3 (.fma ty g d a b c rm ru) g d a b c (fmaV ty false false) rm s

/-- `FMS`: 11 R230. -/
def execFms (ty : FType) (g : BitVec 4) (d a b c : BitVec 5) (rm : RM) (ru : BitVec 3) (s : State) : Out :=
  flt3 (.fms ty g d a b c rm ru) g d a b c (fmaV ty false true) rm s

/-- `FNMA`: 11 R230. -/
def execFnma (ty : FType) (g : BitVec 4) (d a b c : BitVec 5) (rm : RM) (ru : BitVec 3) (s : State) : Out :=
  flt3 (.fnma ty g d a b c rm ru) g d a b c (fmaV ty true false) rm s

/-- `FDIV`: 11 R230. -/
def execFdiv (ty : FType) (g : BitVec 4) (d a b : BitVec 5) (rm : RM) (la : BitVec 4) (ru : BitVec 3) (s : State) : Out :=
  s.lane (.fdiv ty g d a b rm la ru) g false [.f d, .f a, .f b] [.f a, .f b] fun s =>
    s.finishFlLate (lenOf (.fdiv ty g d a b rm la ru)) d la (fdivV ty (rndFor rm s.me.frm) (s.srcF 0 a) (s.srcF 1 b))

/-- `FSQRT`: 11 R230. -/
def execFsqrt (ty : FType) (g : BitVec 4) (d a : BitVec 5) (rm : RM) (la : BitVec 4) (ru : BitVec 3) (s : State) : Out :=
  flt1L (.fsqrt ty g d a rm la ru) g d a la (fun md => mapV ty (fsqrtE ty.elem md)) rm s

/-- `FRCP`: 11 R230. -/
def execFrcp (ty : FType) (g : BitVec 4) (d a : BitVec 5) (rm : RM) (la : BitVec 4) (ru : BitVec 3) (s : State) : Out :=
  flt1L (.frcp ty g d a rm la ru) g d a la (fun md => mapV ty (frcpE ty.elem md)) rm s

/-- `FRSQRT`: 11 R230. -/
def execFrsqrt (ty : FType) (g : BitVec 4) (d a : BitVec 5) (rm : RM) (la : BitVec 4) (ru : BitVec 3) (s : State) : Out :=
  flt1L (.frsqrt ty g d a rm la ru) g d a la (fun md => mapV ty (frsqrtE ty.elem md)) rm s

/-- `FMIN`: 11 R231. -/
def execFmin (ty : FType) (g : BitVec 4) (d a b : BitVec 5) (ru : BitVec 3) (s : State) : Out :=
  flt2 (.fmin ty g d a b ru) g d a b (fun _ => zipB ty (fminmaxE ty.elem false)) .rne s

/-- `FMAX`: 11 R231. -/
def execFmax (ty : FType) (g : BitVec 4) (d a b : BitVec 5) (ru : BitVec 3) (s : State) : Out :=
  flt2 (.fmax ty g d a b ru) g d a b (fun _ => zipB ty (fminmaxE ty.elem true)) .rne s

/-- `FABS`: 11 R232. -/
def execFabs (ty : FType) (g : BitVec 4) (d a : BitVec 5) (ru : BitVec 3) (s : State) : Out :=
  flt1 (.fabs ty g d a ru) g d a (fun _ => mapB ty (fabsB ty.elem)) .rne s

/-- `FNEG`: 11 R232. -/
def execFneg (ty : FType) (g : BitVec 4) (d a : BitVec 5) (ru : BitVec 3) (s : State) : Out :=
  flt1 (.fneg ty g d a ru) g d a (fun _ => mapB ty (fnegB ty.elem)) .rne s

/-- `FCPSGN`: 11 R232. -/
def execFcpsgn (ty : FType) (g : BitVec 4) (d a b : BitVec 5) (ru : BitVec 3) (s : State) : Out :=
  flt2 (.fcpsgn ty g d a b ru) g d a b (fun _ => zipB ty (fcpsgnB ty.elem)) .rne s

/-- `FCMP`: 11 R234; p7 discards the result and the flags are still set. -/
def execFcmp (c : FcmpOp) (ty : FType) (g : BitVec 4) (d : BitVec 3) (a b : BitVec 5) (ru : BitVec 3) (s : State) : Out :=
  s.lane (.fcmp c ty g d a b ru) g false [.f a, .f b] [.f a, .f b] fun s =>
    let r := fcmpE ty.elem c (FType.bitsAt ty (s.srcF 0 a) 0) (FType.bitsAt ty (s.srcF 1 b) 0)
    s.updMe fun t => ((t.raise r.2).setP d r.1).complete (lenOf (.fcmp c ty g d a b ru))

/-- `FCLASS`: 11 R235. -/
def execFclass (ty : FType) (g : BitVec 4) (d a : BitVec 5) (ru : BitVec 3) (s : State) : Out :=
  s.lane (.fclass ty g d a ru) g false [.x d, .f a] [.f a] fun s =>
    s.finishX (lenOf (.fclass ty g d a ru)) d (BitVec.ofNat 64 (2 ^ fclassE ty.elem (FType.bitsAt ty (s.srcF 0 a) 0)))

/-- `FROUND`: 11 R233. -/
def execFround (ty : FType) (g : BitVec 4) (d a : BitVec 5) (rm : RM) (ru : BitVec 3) (s : State) : Out :=
  flt1 (.fround ty g d a rm ru) g d a (fun md => mapB ty (froundE ty.elem md)) rm s

/-- `FEXP2`: 11 R238. -/
def execFexp2 (ty : FType) (g : BitVec 4) (d a : BitVec 5) (la : BitVec 4) (ru : BitVec 3) (s : State) : Out :=
  flt1L (.fexp2 ty g d a la ru) g d a la (fun _ => mapB ty fexp2E) .rne s

/-- `FLOG2`: 11 R238. -/
def execFlog2 (ty : FType) (g : BitVec 4) (d a : BitVec 5) (la : BitVec 4) (ru : BitVec 3) (s : State) : Out :=
  flt1L (.flog2 ty g d a la ru) g d a la (fun _ => mapB ty flog2E) .rne s

/-- `FSINP`: 11 R237. -/
def execFsinp (ty : FType) (g : BitVec 4) (d a : BitVec 5) (la : BitVec 4) (ru : BitVec 3) (s : State) : Out :=
  flt1L (.fsinp ty g d a la ru) g d a la (fun _ => mapB ty (sinpE false)) .rne s

/-- `FCOSP`: 11 R237. -/
def execFcosp (ty : FType) (g : BitVec 4) (d a : BitVec 5) (la : BitVec 4) (ru : BitVec 3) (s : State) : Out :=
  flt1L (.fcosp ty g d a la ru) g d a la (fun _ => mapB ty (sinpE true)) .rne s

/-- `FRDX`: 11 R236. -/
def execFrdx (ty : FType) (g : BitVec 4) (d a : BitVec 5) (rm : RM) (la : BitVec 4) (ru : BitVec 3) (s : State) : Out :=
  flt1L (.frdx ty g d a rm la ru) g d a la (fun md => mapB ty (frdxE md)) rm s

/-- `FDOT2`: 11 R240. -/
def execFdot2 (ty : FType) (g : BitVec 4) (d a b c : BitVec 5) (rm : RM) (ru : BitVec 3) (s : State) : Out :=
  flt3 (.fdot2 ty g d a b c rm ru) g d a b c (fdot2V ty) rm s

/-- `FCVT`: 11 R241, R242; a trapping overflow raises FP_OVERFLOW and writes nothing (10 R220). -/
def execFcvt (ty src : FType) (g : BitVec 4) (d a b : BitVec 5) (ovp : BitVec 2) (rm : RM) (ru : BitVec 3) (s : State) : Out :=
  s.lane (.fcvt ty src g d a b ovp rm ru) g false (.f d :: cvtRegs ty src a b) (cvtRegs ty src a b) fun s =>
    let md := rndFor rm s.me.frm
    let va := s.srcF 0 a
    let vb := s.srcF 1 b
    match cvtTrap ty src md ovp va vb b.toNat with
    | some i => s.trap 0x0C (BitVec.ofNat 64 i)
    | none => s.finishFl (lenOf (.fcvt ty src g d a b ovp rm ru)) d
        (FType.pack ty fun i => (cvtElem ty src md ovp va vb b.toNat i).1)

/-- `FCVT_X`: 11 R243, 10 R223. -/
def execFcvtX (ty : FType) (sgn : Bool) (g : BitVec 4) (d a : BitVec 5) (rm : RM) (ru : BitVec 3) (s : State) : Out :=
  s.lane (.fcvtX ty sgn g d a rm ru) g false [.x d, .f a] [.f a] fun s =>
    let r := toInt64 ty.elem (rndFor rm s.me.frm) sgn (FType.bitsAt ty (s.srcF 0 a) 0)
    s.updMe fun t => ((t.raise r.2).put (.x d) r.1).complete (lenOf (.fcvtX ty sgn g d a rm ru))

/-- `XCVT_F`: 11 R243, 10 R223. -/
def execXcvtF (ty : FType) (sgn : Bool) (g : BitVec 4) (d a : BitVec 5) (rm : RM) (ru : BitVec 3) (s : State) : Out :=
  s.lane (.xcvtF ty sgn g d a rm ru) g false [.f d, .x a] [.x a] fun s =>
    s.finishFl (lenOf (.xcvtF ty sgn g d a rm ru)) d (FType.pack ty fun _ => ofInt64 ty.elem (rndFor rm s.me.frm) sgn (s.srcX 0 a))

/-- `FMV_X`: 11 R244. -/
def execFmvX (ty : FType) (g : BitVec 4) (d a : BitVec 5) (ru : BitVec 3) (s : State) : Out :=
  s.lane (.fmvX ty g d a ru) g false [.x d, .f a] [.f a] fun s =>
    s.finishX (lenOf (.fmvX ty g d a ru)) d (if ty.elem == .f64 then s.srcF 0 a else ((s.srcF 0 a).setWidth 32).signExtend 64)

/-- `FMV_F`: 11 R244. -/
def execFmvF (ty : FType) (g : BitVec 4) (d a : BitVec 5) (ru : BitVec 3) (s : State) : Out :=
  s.lane (.fmvF ty g d a ru) g false [.f d, .x a] [.x a] fun s =>
    s.finishF (lenOf (.fmvF ty g d a ru)) d (if ty.elem == .f64 then s.srcX 0 a else ((s.srcX 0 a).setWidth 32).setWidth 64)

end Sys2Proof.Machine
end

