-- ==== Sys2Proof/Machine/Integer.lean ====
section
/-!
DEFINITION. Integer, address and predicate instructions (chapter 08): the R forms and their X encodings (R171, R176,
R177, R181 to R184), the immediate and constant forms (R172, R173, R175), division (R179) and bit fields (R180).
-/

namespace Sys2Proof.Machine

/-! ### What each operation computes -/

/-- A register shift amount is the low six bits (08 R169). -/
def shAmt (b : Word) : Nat := b.toNat % 64

/-- `rol` (08 R171). -/
def rolW (a : Word) (n : Nat) : Word := a.rotateLeft n
/-- `ror` (08 R171). -/
def rorW (a : Word) (n : Nat) : Word := a.rotateRight n
/-- The smaller, signed. -/
def minS (a b : Word) : Word := if a.sle b then a else b
/-- The larger, signed. -/
def maxS (a b : Word) : Word := if a.sle b then b else a
/-- The smaller, unsigned. -/
def minU (a b : Word) : Word := if a.ule b then a else b
/-- The larger, unsigned. -/
def maxU (a b : Word) : Word := if a.ule b then b else a
/-- `lea`: the index counts in units of 2^k bytes (08 R171). -/
def leaW (k : BitVec 2) (a b : Word) : Word := a + b <<< k.toNat
/-- High half of the signed product (08 R176). -/
def mulhW (a b : Word) : Word := BitVec.ofInt 64 (a.toInt * b.toInt / 2 ^ 64)
/-- High half of the unsigned product (08 R176). -/
def mulhnW (a b : Word) : Word := BitVec.ofNat 64 (a.toNat * b.toNat / 2 ^ 64)
/-- Zero bits above the highest set bit (08 R177). -/
def clzW (a : Word) : Word := if a = 0 then 64 else BitVec.ofNat 64 (63 - Nat.log2 a.toNat)
/-- Zero bits below the lowest set bit (08 R177). -/
def ctzW (a : Word) : Word := BitVec.ofNat 64 (((List.range 64).find? fun i => a.getLsbD i).getD 64)
/-- Set bits (08 R177). -/
def popcW (a : Word) : Word := BitVec.ofNat 64 ((List.range 64).filter fun i => a.getLsbD i).length
/-- Bit order reversed (08 R177). -/
def brevW (a : Word) : Word :=
  BitVec.ofNat 64 ((List.range 64).foldl (fun n i => 2 * n + bitAt (a.getLsbD i) 0) 0)
/-- Byte order reversed (08 R177). -/
def bswapW (a : Word) : Word :=
  BitVec.ofNat 64 ((List.range 8).foldl (fun n i => 256 * n + a.toNat / 256 ^ i % 256) 0)

/-- `div`: all ones for a divisor of 0; the quotient is rounded toward zero and wraps (08 R179). -/
def divW (a b : Word) : Word := if b = 0 then BitVec.allOnes 64 else BitVec.ofInt 64 (a.toInt.tdiv b.toInt)
/-- `divn` (08 R179). -/
def divnW (a b : Word) : Word := if b = 0 then BitVec.allOnes 64 else BitVec.ofNat 64 (a.toNat / b.toNat)
/-- `rem`: the dividend for a divisor of 0 (08 R179). -/
def remW (a b : Word) : Word := if b = 0 then a else BitVec.ofInt 64 (a.toInt.tmod b.toInt)
/-- `remn` (08 R179). -/
def remnW (a b : Word) : Word := if b = 0 then a else BitVec.ofNat 64 (a.toNat % b.toNat)

/-- Width a bit field takes: `len - 1` is the field as encoded, and bits past 63 do not exist (08 R180). -/
def bfWidth (pos len : BitVec 6) : Nat := Nat.min (pos.toNat + len.toNat + 1) 64 - pos.toNat
/-- `bfext.n` (08 R180). -/
def bfextN (a : Word) (pos len : BitVec 6) : Word := BitVec.ofNat 64 (a.toNat / 2 ^ pos.toNat % 2 ^ bfWidth pos len)
/-- `bfext` (08 R180). -/
def bfextS (a : Word) (pos len : BitVec 6) : Word :=
  (BitVec.ofNat (bfWidth pos len) (a.toNat / 2 ^ pos.toNat)).signExtend 64
/-- `bfins` (08 R180). -/
def bfinsW (d a : Word) (pos len : BitVec 6) : Word :=
  let m := BitVec.ofNat 64 ((2 ^ bfWidth pos len - 1) * 2 ^ pos.toNat)
  (d &&& ~~~m) ||| ((a <<< pos.toNat) &&& m)

/-! ### R forms -/

/-- `ADD`: 08 R171. -/
def execAdd (g : BitVec 4) (d a b : BitVec 5) (s : State) : Out :=
  alu3 (.add g d a b) g d a b (fun a b => a + b) s

/-- `SUB`: 08 R171. -/
def execSub (g : BitVec 4) (d a b : BitVec 5) (s : State) : Out :=
  alu3 (.sub g d a b) g d a b (fun a b => a - b) s

/-- `AND`: 08 R171. -/
def execAnd (g : BitVec 4) (d a b : BitVec 5) (s : State) : Out :=
  alu3 (.and g d a b) g d a b (fun a b => a &&& b) s

/-- `OR`: 08 R171. -/
def execOr (g : BitVec 4) (d a b : BitVec 5) (s : State) : Out :=
  alu3 (.or g d a b) g d a b (fun a b => a ||| b) s

/-- `XOR`: 08 R171. -/
def execXor (g : BitVec 4) (d a b : BitVec 5) (s : State) : Out :=
  alu3 (.xor g d a b) g d a b (fun a b => a ^^^ b) s

/-- `ANDN`: 08 R171. -/
def execAndn (g : BitVec 4) (d a b : BitVec 5) (s : State) : Out :=
  alu3 (.andn g d a b) g d a b (fun a b => a &&& ~~~b) s

/-- `ORN`: 08 R171. -/
def execOrn (g : BitVec 4) (d a b : BitVec 5) (s : State) : Out :=
  alu3 (.orn g d a b) g d a b (fun a b => a ||| ~~~b) s

/-- `XNOR`: 08 R171. -/
def execXnor (g : BitVec 4) (d a b : BitVec 5) (s : State) : Out :=
  alu3 (.xnor g d a b) g d a b (fun a b => ~~~(a ^^^ b)) s

/-- `SLL`: 08 R171. -/
def execSll (g : BitVec 4) (d a b : BitVec 5) (s : State) : Out :=
  alu3 (.sll g d a b) g d a b (fun a b => a <<< shAmt b) s

/-- `SRL`: 08 R171. -/
def execSrl (g : BitVec 4) (d a b : BitVec 5) (s : State) : Out :=
  alu3 (.srl g d a b) g d a b (fun a b => a >>> shAmt b) s

/-- `SRA`: 08 R171. -/
def execSra (g : BitVec 4) (d a b : BitVec 5) (s : State) : Out :=
  alu3 (.sra g d a b) g d a b (fun a b => a.sshiftRight (shAmt b)) s

/-- `ROL`: 08 R171. -/
def execRol (g : BitVec 4) (d a b : BitVec 5) (s : State) : Out :=
  alu3 (.rol g d a b) g d a b (fun a b => rolW a (shAmt b)) s

/-- `ROR`: 08 R171. -/
def execRor (g : BitVec 4) (d a b : BitVec 5) (s : State) : Out :=
  alu3 (.ror g d a b) g d a b (fun a b => rorW a (shAmt b)) s

/-- `MIN`: 08 R171. -/
def execMin (g : BitVec 4) (d a b : BitVec 5) (s : State) : Out :=
  alu3 (.min g d a b) g d a b minS s

/-- `MAX`: 08 R171. -/
def execMax (g : BitVec 4) (d a b : BitVec 5) (s : State) : Out :=
  alu3 (.max g d a b) g d a b maxS s

/-- `MINN`: 08 R171. -/
def execMinn (g : BitVec 4) (d a b : BitVec 5) (s : State) : Out :=
  alu3 (.minn g d a b) g d a b minU s

/-- `MAXN`: 08 R171. -/
def execMaxn (g : BitVec 4) (d a b : BitVec 5) (s : State) : Out :=
  alu3 (.maxn g d a b) g d a b maxU s

/-- `MUL`: 08 R176. -/
def execMul (g : BitVec 4) (d a b : BitVec 5) (s : State) : Out :=
  alu3 (.mul g d a b) g d a b (fun a b => a * b) s

/-- `MULH`: 08 R176. -/
def execMulh (g : BitVec 4) (d a b : BitVec 5) (s : State) : Out :=
  alu3 (.mulh g d a b) g d a b mulhW s

/-- `MULHN`: 08 R176. -/
def execMulhn (g : BitVec 4) (d a b : BitVec 5) (s : State) : Out :=
  alu3 (.mulhn g d a b) g d a b mulhnW s

/-- `LEA`: 08 R171. -/
def execLea (k : BitVec 2) (g : BitVec 4) (d a b : BitVec 5) (s : State) : Out :=
  alu3 (.lea k g d a b) g d a b (leaW k) s

/-- `CLZ`: 08 R177. -/
def execClz (g : BitVec 4) (d a : BitVec 5) (s : State) : Out :=
  alu2 (.clz g d a) g d a clzW s

/-- `CTZ`: 08 R177. -/
def execCtz (g : BitVec 4) (d a : BitVec 5) (s : State) : Out :=
  alu2 (.ctz g d a) g d a ctzW s

/-- `POPC`: 08 R177. -/
def execPopc (g : BitVec 4) (d a : BitVec 5) (s : State) : Out :=
  alu2 (.popc g d a) g d a popcW s

/-- `BREV`: 08 R177. -/
def execBrev (g : BitVec 4) (d a : BitVec 5) (s : State) : Out :=
  alu2 (.brev g d a) g d a brevW s

/-- `BSWAP`: 08 R177. -/
def execBswap (g : BitVec 4) (d a : BitVec 5) (s : State) : Out :=
  alu2 (.bswap g d a) g d a bswapW s

/-- `CMP`: 08 R181. -/
def execCmp (c : CmpOp) (g : BitVec 4) (d : BitVec 3) (a b : BitVec 5) (s : State) : Out :=
  cmp3 (.cmp c g d a b) g d a b c.holds s

/-- `SEL`: 08 R182. -/
def execSel (g : BitVec 4) (d a b : BitVec 5) (p : BitVec 3) (s : State) : Out :=
  s.lane (.sel g d a b p) g false [.x d, .x a, .x b] [.x a, .x b] fun s =>
    s.finishX (lenOf (.sel g d a b p)) d (if s.me.getP p then s.srcX 0 a else s.srcX 1 b)

/-- `PAND`: 08 R183. -/
def execPand (g : BitVec 4) (d a b : BitVec 3) (s : State) : Out :=
  pred3 (.pand g d a b) g d a b (fun a b => a && b) s

/-- `POR`: 08 R183. -/
def execPor (g : BitVec 4) (d a b : BitVec 3) (s : State) : Out :=
  pred3 (.por g d a b) g d a b (fun a b => a || b) s

/-- `PXOR`: 08 R183. -/
def execPxor (g : BitVec 4) (d a b : BitVec 3) (s : State) : Out :=
  pred3 (.pxor g d a b) g d a b (fun a b => a != b) s

/-- `PNOT`: 08 R183. -/
def execPnot (g : BitVec 4) (d a : BitVec 3) (s : State) : Out :=
  pred3 (.pnot g d a) g d a 0 (fun a _ => !a) s

/-- `PGET`: 08 R183. -/
def execPget (g : BitVec 4) (d : BitVec 5) (s : State) : Out :=
  alu1 (.pget g d) g d Thread.predImage s

/-- `PSET`: 08 R183. -/
def execPset (g : BitVec 4) (a : BitVec 5) (s : State) : Out :=
  s.lane (.pset g a) g false [.x a] [.x a] fun s =>
    s.updMe fun t => (t.setPreds (s.srcX 0 a)).complete (lenOf (.pset g a))

/-! ### X encodings (08 R184) -/

/-- `ADD_X`: 08 R184: the X encoding has the effect of the R form; reuse bits change no value (02 R44). -/
def execAddX (g : BitVec 4) (d a b : BitVec 5) (ru : BitVec 3) (s : State) : Out :=
  alu3 (.addX g d a b ru) g d a b (fun a b => a + b) s

/-- `SUB_X`: 08 R184: the X encoding has the effect of the R form; reuse bits change no value (02 R44). -/
def execSubX (g : BitVec 4) (d a b : BitVec 5) (ru : BitVec 3) (s : State) : Out :=
  alu3 (.subX g d a b ru) g d a b (fun a b => a - b) s

/-- `AND_X`: 08 R184: the X encoding has the effect of the R form; reuse bits change no value (02 R44). -/
def execAndX (g : BitVec 4) (d a b : BitVec 5) (ru : BitVec 3) (s : State) : Out :=
  alu3 (.andX g d a b ru) g d a b (fun a b => a &&& b) s

/-- `OR_X`: 08 R184: the X encoding has the effect of the R form; reuse bits change no value (02 R44). -/
def execOrX (g : BitVec 4) (d a b : BitVec 5) (ru : BitVec 3) (s : State) : Out :=
  alu3 (.orX g d a b ru) g d a b (fun a b => a ||| b) s

/-- `XOR_X`: 08 R184: the X encoding has the effect of the R form; reuse bits change no value (02 R44). -/
def execXorX (g : BitVec 4) (d a b : BitVec 5) (ru : BitVec 3) (s : State) : Out :=
  alu3 (.xorX g d a b ru) g d a b (fun a b => a ^^^ b) s

/-- `ANDN_X`: 08 R184: the X encoding has the effect of the R form; reuse bits change no value (02 R44). -/
def execAndnX (g : BitVec 4) (d a b : BitVec 5) (ru : BitVec 3) (s : State) : Out :=
  alu3 (.andnX g d a b ru) g d a b (fun a b => a &&& ~~~b) s

/-- `ORN_X`: 08 R184: the X encoding has the effect of the R form; reuse bits change no value (02 R44). -/
def execOrnX (g : BitVec 4) (d a b : BitVec 5) (ru : BitVec 3) (s : State) : Out :=
  alu3 (.ornX g d a b ru) g d a b (fun a b => a ||| ~~~b) s

/-- `XNOR_X`: 08 R184: the X encoding has the effect of the R form; reuse bits change no value (02 R44). -/
def execXnorX (g : BitVec 4) (d a b : BitVec 5) (ru : BitVec 3) (s : State) : Out :=
  alu3 (.xnorX g d a b ru) g d a b (fun a b => ~~~(a ^^^ b)) s

/-- `SLL_X`: 08 R184: the X encoding has the effect of the R form; reuse bits change no value (02 R44). -/
def execSllX (g : BitVec 4) (d a b : BitVec 5) (ru : BitVec 3) (s : State) : Out :=
  alu3 (.sllX g d a b ru) g d a b (fun a b => a <<< shAmt b) s

/-- `SRL_X`: 08 R184: the X encoding has the effect of the R form; reuse bits change no value (02 R44). -/
def execSrlX (g : BitVec 4) (d a b : BitVec 5) (ru : BitVec 3) (s : State) : Out :=
  alu3 (.srlX g d a b ru) g d a b (fun a b => a >>> shAmt b) s

/-- `SRA_X`: 08 R184: the X encoding has the effect of the R form; reuse bits change no value (02 R44). -/
def execSraX (g : BitVec 4) (d a b : BitVec 5) (ru : BitVec 3) (s : State) : Out :=
  alu3 (.sraX g d a b ru) g d a b (fun a b => a.sshiftRight (shAmt b)) s

/-- `ROL_X`: 08 R184: the X encoding has the effect of the R form; reuse bits change no value (02 R44). -/
def execRolX (g : BitVec 4) (d a b : BitVec 5) (ru : BitVec 3) (s : State) : Out :=
  alu3 (.rolX g d a b ru) g d a b (fun a b => rolW a (shAmt b)) s

/-- `ROR_X`: 08 R184: the X encoding has the effect of the R form; reuse bits change no value (02 R44). -/
def execRorX (g : BitVec 4) (d a b : BitVec 5) (ru : BitVec 3) (s : State) : Out :=
  alu3 (.rorX g d a b ru) g d a b (fun a b => rorW a (shAmt b)) s

/-- `MIN_X`: 08 R184: the X encoding has the effect of the R form; reuse bits change no value (02 R44). -/
def execMinX (g : BitVec 4) (d a b : BitVec 5) (ru : BitVec 3) (s : State) : Out :=
  alu3 (.minX g d a b ru) g d a b minS s

/-- `MAX_X`: 08 R184: the X encoding has the effect of the R form; reuse bits change no value (02 R44). -/
def execMaxX (g : BitVec 4) (d a b : BitVec 5) (ru : BitVec 3) (s : State) : Out :=
  alu3 (.maxX g d a b ru) g d a b maxS s

/-- `MINN_X`: 08 R184: the X encoding has the effect of the R form; reuse bits change no value (02 R44). -/
def execMinnX (g : BitVec 4) (d a b : BitVec 5) (ru : BitVec 3) (s : State) : Out :=
  alu3 (.minnX g d a b ru) g d a b minU s

/-- `MAXN_X`: 08 R184: the X encoding has the effect of the R form; reuse bits change no value (02 R44). -/
def execMaxnX (g : BitVec 4) (d a b : BitVec 5) (ru : BitVec 3) (s : State) : Out :=
  alu3 (.maxnX g d a b ru) g d a b maxU s

/-- `MUL_X`: 08 R184: the X encoding has the effect of the R form; reuse bits change no value (02 R44). -/
def execMulX (g : BitVec 4) (d a b : BitVec 5) (ru : BitVec 3) (s : State) : Out :=
  alu3 (.mulX g d a b ru) g d a b (fun a b => a * b) s

/-- `MULH_X`: 08 R184: the X encoding has the effect of the R form; reuse bits change no value (02 R44). -/
def execMulhX (g : BitVec 4) (d a b : BitVec 5) (ru : BitVec 3) (s : State) : Out :=
  alu3 (.mulhX g d a b ru) g d a b mulhW s

/-- `MULHN_X`: 08 R184: the X encoding has the effect of the R form; reuse bits change no value (02 R44). -/
def execMulhnX (g : BitVec 4) (d a b : BitVec 5) (ru : BitVec 3) (s : State) : Out :=
  alu3 (.mulhnX g d a b ru) g d a b mulhnW s

/-- `LEA_X`: 08 R184: the X encoding has the effect of the R form; reuse bits change no value (02 R44). -/
def execLeaX (k : BitVec 2) (g : BitVec 4) (d a b : BitVec 5) (ru : BitVec 3) (s : State) : Out :=
  alu3 (.leaX k g d a b ru) g d a b (leaW k) s

/-- `CLZ_X`: 08 R184: the X encoding has the effect of the R form; reuse bits change no value (02 R44). -/
def execClzX (g : BitVec 4) (d a : BitVec 5) (ru : BitVec 3) (s : State) : Out :=
  alu2 (.clzX g d a ru) g d a clzW s

/-- `CTZ_X`: 08 R184: the X encoding has the effect of the R form; reuse bits change no value (02 R44). -/
def execCtzX (g : BitVec 4) (d a : BitVec 5) (ru : BitVec 3) (s : State) : Out :=
  alu2 (.ctzX g d a ru) g d a ctzW s

/-- `POPC_X`: 08 R184: the X encoding has the effect of the R form; reuse bits change no value (02 R44). -/
def execPopcX (g : BitVec 4) (d a : BitVec 5) (ru : BitVec 3) (s : State) : Out :=
  alu2 (.popcX g d a ru) g d a popcW s

/-- `BREV_X`: 08 R184: the X encoding has the effect of the R form; reuse bits change no value (02 R44). -/
def execBrevX (g : BitVec 4) (d a : BitVec 5) (ru : BitVec 3) (s : State) : Out :=
  alu2 (.brevX g d a ru) g d a brevW s

/-- `BSWAP_X`: 08 R184: the X encoding has the effect of the R form; reuse bits change no value (02 R44). -/
def execBswapX (g : BitVec 4) (d a : BitVec 5) (ru : BitVec 3) (s : State) : Out :=
  alu2 (.bswapX g d a ru) g d a bswapW s

/-- `CMP_X`: 08 R184: the X encoding has the effect of the R form; reuse bits change no value (02 R44). -/
def execCmpX (c : CmpOp) (g : BitVec 4) (d : BitVec 3) (a b : BitVec 5) (ru : BitVec 3) (s : State) : Out :=
  cmp3 (.cmpX c g d a b ru) g d a b c.holds s

/-- `SEL_X`: 08 R184: the X encoding has the effect of the R form; reuse bits change no value (02 R44). -/
def execSelX (g : BitVec 4) (d a b : BitVec 5) (p ru : BitVec 3) (s : State) : Out :=
  s.lane (.selX g d a b p ru) g false [.x d, .x a, .x b] [.x a, .x b] fun s =>
    s.finishX (lenOf (.selX g d a b p ru)) d (if s.me.getP p then s.srcX 0 a else s.srcX 1 b)

/-- `PAND_X`: 08 R184: the X encoding has the effect of the R form; reuse bits change no value (02 R44). -/
def execPandX (g : BitVec 4) (d a b ru : BitVec 3) (s : State) : Out :=
  pred3 (.pandX g d a b ru) g d a b (fun a b => a && b) s

/-- `POR_X`: 08 R184: the X encoding has the effect of the R form; reuse bits change no value (02 R44). -/
def execPorX (g : BitVec 4) (d a b ru : BitVec 3) (s : State) : Out :=
  pred3 (.porX g d a b ru) g d a b (fun a b => a || b) s

/-- `PXOR_X`: 08 R184: the X encoding has the effect of the R form; reuse bits change no value (02 R44). -/
def execPxorX (g : BitVec 4) (d a b ru : BitVec 3) (s : State) : Out :=
  pred3 (.pxorX g d a b ru) g d a b (fun a b => a != b) s

/-- `PNOT_X`: 08 R184: the X encoding has the effect of the R form; reuse bits change no value (02 R44). -/
def execPnotX (g : BitVec 4) (d a ru : BitVec 3) (s : State) : Out :=
  pred3 (.pnotX g d a ru) g d a 0 (fun a _ => !a) s

/-- `PGET_X`: 08 R184: the X encoding has the effect of the R form; reuse bits change no value (02 R44). -/
def execPgetX (g : BitVec 4) (d : BitVec 5) (ru : BitVec 3) (s : State) : Out :=
  alu1 (.pgetX g d ru) g d Thread.predImage s

/-- `PSET_X`: 08 R184: the X encoding has the effect of the R form; reuse bits change no value (02 R44). -/
def execPsetX (g : BitVec 4) (a : BitVec 5) (ru : BitVec 3) (s : State) : Out :=
  s.lane (.psetX g a ru) g false [.x a] [.x a] fun s =>
    s.updMe fun t => (t.setPreds (s.srcX 0 a)).complete (lenOf (.psetX g a ru))

/-! ### Immediates and constants -/

/-- `ADDI`: 08 R172. -/
def execAddi (d a : BitVec 5) (imm : BitVec 12) (s : State) : Out :=
  alu2 (.addi d a imm) always d a (fun a => a + imm.signExtend 64) s

/-- `ANDI`: 08 R172. -/
def execAndi (d a : BitVec 5) (imm : BitVec 12) (s : State) : Out :=
  alu2 (.andi d a imm) always d a (fun a => a &&& imm.signExtend 64) s

/-- `ORI`: 08 R172. -/
def execOri (d a : BitVec 5) (imm : BitVec 12) (s : State) : Out :=
  alu2 (.ori d a imm) always d a (fun a => a ||| imm.signExtend 64) s

/-- `XORI`: 08 R172. -/
def execXori (d a : BitVec 5) (imm : BitVec 12) (s : State) : Out :=
  alu2 (.xori d a imm) always d a (fun a => a ^^^ imm.signExtend 64) s

/-- `SLLI`: 08 R172. -/
def execSlli (d a : BitVec 5) (sh : BitVec 6) (s : State) : Out :=
  alu2 (.slli d a sh) always d a (fun a => a <<< sh.toNat) s

/-- `SRLI`: 08 R172. -/
def execSrli (d a : BitVec 5) (sh : BitVec 6) (s : State) : Out :=
  alu2 (.srli d a sh) always d a (fun a => a >>> sh.toNat) s

/-- `SRAI`: 08 R172. -/
def execSrai (d a : BitVec 5) (sh : BitVec 6) (s : State) : Out :=
  alu2 (.srai d a sh) always d a (fun a => a.sshiftRight sh.toNat) s

/-- `LIH`: 08 R173. -/
def execLih (d : BitVec 5) (imm : BitVec 20) (s : State) : Out :=
  alu1 (.lih d imm) always d (fun _ => imm.signExtend 64 <<< 12) s

/-- `LPC`: 08 R173: PC is the address of the `lpc` itself. -/
def execLpc (d : BitVec 5) (imm : BitVec 20) (s : State) : Out :=
  alu1 (.lpc d imm) always d (fun t => t.pc + imm.signExtend 64 <<< 12) s

/-- `LI`: 08 R175. -/
def execLi (g : BitVec 4) (d : BitVec 5) (imm : BitVec 32) (s : State) : Out :=
  alu1 (.li g d imm) g d (fun _ => imm.signExtend 64) s

/-- `LI_Z`: 08 R175. -/
def execLiZ (g : BitVec 4) (d : BitVec 5) (imm : BitVec 32) (s : State) : Out :=
  alu1 (.liZ g d imm) g d (fun _ => imm.setWidth 64) s

/-- `LI_HI`: 08 R175. -/
def execLiHi (g : BitVec 4) (d a : BitVec 5) (imm : BitVec 32) (s : State) : Out :=
  alu2 (.liHi g d a imm) g d a (fun a => imm.setWidth 64 <<< 32 ||| (a.setWidth 32).setWidth 64) s

/-! ### Division and bit fields -/

/-- `DIV`: 08 R179; long-latency (R178, R187). -/
def execDiv (g : BitVec 4) (d a b : BitVec 5) (la : BitVec 4) (ru : BitVec 3) (s : State) : Out :=
  late3 (.div g d a b la ru) g d a b la divW s

/-- `DIVN`: 08 R179; long-latency (R178, R187). -/
def execDivn (g : BitVec 4) (d a b : BitVec 5) (la : BitVec 4) (ru : BitVec 3) (s : State) : Out :=
  late3 (.divn g d a b la ru) g d a b la divnW s

/-- `REM`: 08 R179; long-latency (R178, R187). -/
def execRem (g : BitVec 4) (d a b : BitVec 5) (la : BitVec 4) (ru : BitVec 3) (s : State) : Out :=
  late3 (.rem g d a b la ru) g d a b la remW s

/-- `REMN`: 08 R179; long-latency (R178, R187). -/
def execRemn (g : BitVec 4) (d a b : BitVec 5) (la : BitVec 4) (ru : BitVec 3) (s : State) : Out :=
  late3 (.remn g d a b la ru) g d a b la remnW s

/-- `BFEXT`: 08 R180. -/
def execBfext (g : BitVec 4) (d a : BitVec 5) (pos len : BitVec 6) (ru : BitVec 3) (s : State) : Out :=
  alu2 (.bfext g d a pos len ru) g d a (fun a => bfextS a pos len) s

/-- `BFEXT_N`: 08 R180. -/
def execBfextN (g : BitVec 4) (d a : BitVec 5) (pos len : BitVec 6) (ru : BitVec 3) (s : State) : Out :=
  alu2 (.bfextN g d a pos len ru) g d a (fun a => bfextN a pos len) s

/-- `BFINS`: 08 R180: x[d] is read as a source. -/
def execBfins (g : BitVec 4) (d a : BitVec 5) (pos len : BitVec 6) (ru : BitVec 3) (s : State) : Out :=
  alu3 (.bfins g d a pos len ru) g d d a (fun d a => bfinsW d a pos len) s

end Sys2Proof.Machine
end

