-- ==== Sys2Proof/Machine/Pair.lean ====
section
/-!
DEFINITION. Pair words (02 R45, 08 R185, 11 R245): both slots read before either writes. Neither slot holds an operation
that can fault once its registers are in budget.
-/

namespace Sys2Proof.Machine

/-- A predicate field of a slot. -/
def slotP (r : BitVec 5) : BitVec 3 := r.setWidth 3

/-- What the A slot does to the thread, from sources read beforehand (08 R185). -/
def slotA (o : AOp) (d : BitVec 5) (va vb : Word) (pa pb : Bool) (t : Thread) : Thread :=
  let x v := t.put (.x d) v
  let p v := t.setP (slotP d) v
  match o with
  | .nop => t
  | .add => x (va + vb)
  | .sub => x (va - vb)
  | .and => x (va &&& vb)
  | .or => x (va ||| vb)
  | .xor => x (va ^^^ vb)
  | .andn => x (va &&& ~~~vb)
  | .sll => x (va <<< shAmt vb)
  | .srl => x (va >>> shAmt vb)
  | .sra => x (va.sshiftRight (shAmt vb))
  | .min => x (minS va vb)
  | .max => x (maxS va vb)
  | .minn => x (minU va vb)
  | .maxn => x (maxU va vb)
  | .lea4 => x (leaW 2 va vb)
  | .lea8 => x (leaW 3 va vb)
  | .cmp c => p (c.holds va vb)
  | .pand => p (pa && pb)
  | .por => p (pa || pb)
  | .pxor => p (pa != pb)
  | .pnot => p (!pa)
  | .mul => x (va * vb)

/-- The registers an A slot reads. -/
def slotASrc (o : AOp) (a b : BitVec 5) : List Dest :=
  match o with
  | .nop | .pand | .por | .pxor | .pnot => []
  | _ => [.x a, .x b]

/-- The registers an A slot names. -/
def slotARegs (o : AOp) (d a b : BitVec 5) : List Dest :=
  if o.writesX then .x d :: slotASrc o a b else slotASrc o a b

/-- What the D slot does to the thread, from sources read beforehand; it rounds by FRM (11 R245). -/
def slotD (o : DOp) (d : BitVec 5) (md : Rnd) (xa fa fb fc : Word) (t : Thread) : Thread :=
  let w (r : Word × BitVec 5) := (t.raise r.2).put (.f d) r.1
  match o with
  | .nop => t
  | .faddS => w (faddV .f32 md fa fb)
  | .fsubS => w (fsubV .f32 md fa fb)
  | .fmulS => w (fmulV .f32 md fa fb)
  | .fmaS => w (fmaV .f32 false false md fa fb fc)
  | .faddD => w (faddV .f64 md fa fb)
  | .fmulD => w (fmulV .f64 md fa fb)
  | .fmaD => w (fmaV .f64 false false md fa fb fc)
  | .faddB => w (faddV .bf16x4 md fa fb)
  | .fmulB => w (fmulV .bf16x4 md fa fb)
  | .fmaB => w (fmaV .bf16x4 false false md fa fb fc)
  | .fmaH => w (fmaV .f16x4 false false md fa fb fc)
  | .fminS => w (zipB .f32 (fminmaxE .f32 false) fa fb)
  | .fmaxS => w (zipB .f32 (fminmaxE .f32 true) fa fb)
  | .fabsS => w (mapB .f32 (fabsB .f32) fa)
  | .fnegS => w (mapB .f32 (fnegB .f32) fa)
  | .fmvX => t.put (.x d) fa
  | .fmvF => t.put (.f d) xa
  | .fdot2 => w (fdot2V .bf16x4 md fa fb fc)
  | .fmaP => w (fmaV .f32x2 false false md fa fb fc)

/-- The registers a D slot reads. -/
def slotDSrc (o : DOp) (a b c : BitVec 5) : List Dest :=
  match o with
  | .nop => []
  | .fabsS | .fnegS | .fmvX => [.f a]
  | .fmvF => [.x a]
  | .fmaS | .fmaD | .fmaB | .fmaH | .fdot2 | .fmaP => [.f a, .f b, .f c]
  | _ => [.f a, .f b]

/-- The registers a D slot names. -/
def slotDRegs (o : DOp) (d a b c : BitVec 5) : List Dest :=
  match o with
  | .nop => []
  | .fmvX => .x d :: slotDSrc o a b c
  | _ => .f d :: slotDSrc o a b c

/-- `PAIR_WORD`: 02 R45. -/
def execPairWord (g : BitVec 4) (aop : AOp) (ad aa ab : BitVec 5) (aru : BitVec 2) (dop : DOp) (dd da db dc : BitVec 5)
    (s : State) : Out :=
  s.lane (.pairWord g aop ad aa ab aru dop dd da db dc) g false (slotARegs aop ad aa ab ++ slotDRegs dop dd da db dc)
    (slotASrc aop aa ab ++ slotDSrc dop da db dc) fun s =>
    let va := s.srcX 0 aa
    let vb := s.srcX 1 ab
    let pa := s.me.getP (slotP aa)
    let pb := s.me.getP (slotP ab)
    let xa := s.srcX 2 da
    let fa := s.srcF 2 da
    let fb := s.srcF 3 db
    let fc := s.srcF 4 dc
    s.updMe fun t => (slotD dop dd (rndOf t.frm) xa fa fb fc (slotA aop ad va vb pa pb t)).complete 8

end Sys2Proof.Machine
end

