-- ==== Sys2Proof/Machine/Reads.lean ====
section
/-!
DEFINITION. The registers an instruction reads, for which a thread waits before it is selected (02 R41, R43; 14 R298).
-/

namespace Sys2Proof.Machine

/-- The x and f registers an encoded instruction reads when its guard is true. -/
def readsOf : Instr → List Dest
  | .add _ _ a b | .sub _ _ a b | .and _ _ a b | .or _ _ a b | .xor _ _ a b | .andn _ _ a b | .orn _ _ a b | .xnor _ _ a b | .sll _ _ a b |
    .srl _ _ a b | .sra _ _ a b | .rol _ _ a b | .ror _ _ a b | .min _ _ a b | .max _ _ a b | .minn _ _ a b | .maxn _ _ a b |
    .lea _ _ _ a b | .mul _ _ a b | .mulh _ _ a b | .mulhn _ _ a b | .cmp _ _ _ a b | .sel _ _ a b .. | .addX _ _ a b .. |
    .subX _ _ a b .. | .andX _ _ a b .. | .orX _ _ a b .. | .xorX _ _ a b .. | .andnX _ _ a b .. | .ornX _ _ a b .. | .xnorX _ _ a b .. |
    .sllX _ _ a b .. | .srlX _ _ a b .. | .sraX _ _ a b .. | .rolX _ _ a b .. | .rorX _ _ a b .. | .minX _ _ a b .. | .maxX _ _ a b .. |
    .minnX _ _ a b .. | .maxnX _ _ a b .. | .leaX _ _ _ a b .. | .mulX _ _ a b .. | .mulhX _ _ a b .. | .mulhnX _ _ a b .. |
    .cmpX _ _ _ a b .. | .selX _ _ a b .. | .div _ _ a b .. | .divn _ _ a b .. | .rem _ _ a b .. | .remn _ _ a b .. | .ldx _ _ _ a b .. |
    .amo _ _ _ _ a b .. | .wmon _ _ a b .. | .spawn _ _ a b | .rinv _ _ a b | .mkget _ _ a b | .mkgetT _ _ a b | .barExp _ _ _ _ a b .. |
    .barWait _ _ _ a b .. | .barTest _ _ _ a b .. | .mclaim _ _ a b .. | .mclaimW _ _ a b .. | .mrel _ _ a b .. | .mgath _ _ _ a b .. |
    .mstore _ _ _ _ _ _ a b .. | .mzero _ _ a b .. | .macld _ _ a b .. | .pgColl _ _ _ a b .. => [.x a, .x b]
  | .clz _ _ a | .ctz _ _ a | .popc _ _ a | .brev _ _ a | .bswap _ _ a | .pset _ a | .clzX _ _ a .. | .ctzX _ _ a .. | .popcX _ _ a .. |
    .brevX _ _ a .. | .bswapX _ _ a .. | .psetX _ a .. | .addi _ a .. | .andi _ a .. | .ori _ a .. | .xori _ a .. | .slli _ a .. |
    .srli _ a .. | .srai _ a .. | .liHi _ _ a .. | .bfext _ _ a .. | .bfextN _ _ a .. | .ld _ _ _ a .. | .ldX _ _ _ a .. |
    .ldfF32 _ _ a .. | .ldf64 _ _ a .. | .ldfX _ _ _ a .. | .lds _ _ _ a .. | .ldsX _ _ _ a .. | .ldnc _ _ _ a .. | .pfc _ a .. |
    .xcvtF _ _ _ _ a .. | .fmvF _ _ _ a .. | .jr _ a | .callr _ _ a | .loop a .. | .migrate _ _ a | .doneWait _ _ a | .cancel _ _ a |
    .hbArr _ a | .hbWait _ a | .hbSync _ a | .mkwait _ _ a | .mktest _ _ a | .mkdrop _ a | .csrw a .. | .csrs a .. | .csrc a .. |
    .barArr _ _ a .. | .barInval _ _ a .. | .mmul _ _ _ a .. | .mstat _ _ a .. | .pgMigRel _ _ a .. => [.x a]
  | .bfins _ d a .. | .st _ _ d a .. | .stX _ _ d a .. | .sts _ _ d a .. | .stsX _ _ d a .. => [.x d, .x a]
  | .stfF32 _ d a .. | .stf64 _ d a .. | .stfX _ _ d a .. => [.f d, .x a]
  | .stx _ _ d a b .. | .cas _ _ d a b .. => [.x d, .x a, .x b]
  | .fadd _ _ _ a b .. | .fsub _ _ _ a b .. | .fmul _ _ _ a b .. | .fdiv _ _ _ a b .. | .fmin _ _ _ a b .. | .fmax _ _ _ a b .. |
    .fcpsgn _ _ _ a b .. | .fcmp _ _ _ _ a b .. => [.f a, .f b]
  | .fma _ _ _ a b c .. | .fms _ _ _ a b c .. | .fnma _ _ _ a b c .. | .fdot2 _ _ _ a b c .. => [.f a, .f b, .f c]
  | .fsqrt _ _ _ a .. | .frcp _ _ _ a .. | .frsqrt _ _ _ a .. | .fabs _ _ _ a .. | .fneg _ _ _ a .. | .fclass _ _ _ a .. |
    .fround _ _ _ a .. | .fexp2 _ _ _ a .. | .flog2 _ _ _ a .. | .fsinp _ _ _ a .. | .fcosp _ _ _ a .. | .frdx _ _ _ a .. |
    .fcvt _ _ _ _ a .. | .fcvtX _ _ _ _ a .. | .fmvX _ _ _ a .. => [.f a]
  | .lvote _ _ _ b .. => [.x b]
  | .cpyIn _ _ a b c .. | .cpyMc _ _ a b c .. | .cpyGat _ _ a b c .. | .cpyOut _ _ _ a b c .. | .cpySct _ _ _ a b c .. |
    .barInit _ _ a b c .. | .mload _ _ _ a b c .. | .mloadT _ _ _ a b c .. | .msacc _ _ _ _ a b c .. | .cwFlush _ _ _ _ a b c .. |
    .cwInval _ _ _ _ a b c .. | .pgMig _ _ a b c .. | .pgSplit _ _ a b c .. | .tlbInv _ _ _ _ a b c .. => [.x a, .x b, .x c]
  | .red op _ _ a b .. => [if op == .fadd then .f b else .x b, .x a]
  | .lxch isF _ _ a b .. | .lsel isF _ _ a b .. => [if isF then .f a else .x a, .x b]
  | .lred op _ _ a b .. => [if lredIsF op then .f a else .x a, .x b]
  | .pairWord _ aop _ aa ab _ dop _ da db dc => slotASrc aop aa ab ++ slotDSrc dop da db dc
  | .ret _ => [.x 1]
  | .mkret _ => resultRegs.map .x
  | _ => []

end Sys2Proof.Machine
end

