-- ==== Sys2Proof/Machine/Issue.lean ====
section
/-!
DEFINITION. Which threads are ready and which of them issue together (14 R298, R299; 16 R361 to R364), the boundary before an
instruction (18 R395), instruction fetch (02 R32, R33; 18 R422; 21 R461), gangs lane by lane (18 R398), and the passing of time.
-/

namespace Sys2Proof.Machine

/-! ### Fetch (02 R32; 18 R422) -/

/-- How a fetch ends: with parcels, where `mid` says that the parcel before them begins a 64-bit instruction, or with a cause or a wait. -/
inductive Fetched where
  | ok (parcels : Nat) (ilk mid : Bool)
  | trap (code : Nat)
  | wait
deriving DecidableEq, Repr

/-- A line of 256 bytes is filled (21 R461): the sector that holds an address, or its error, then the three others where they can be
read; their error responses are logged, and the fetch goes on (05 R116; DEDUCED, log entry 100). -/
def State.fillCode (s : State) (c : MCtx) (core : Nat) (r : RegionKind) (pa : Nat) : State × Except Nat Nat :=
  let base := lineOf pa
  let put := fun (s : State) (a v : Nat) =>
    { s with icache := (core, a, v) :: s.icache.filter fun e => !(e.1 == core && e.2.1 == a) }
  match s.secLoad r c.ag (secOf pa) 64 with
  | (s1, .error code) => (s1, .error code)
  | (s1, .ok v) =>
    let rest := ([0, 64, 128, 192].map (base + ·)).filter (· != secOf pa)
    (rest.foldl (fun s a => match s.secLoad r c.ag a 64 with
      | (s2, .ok w) => put s2 a w
      | (s2, .error code) => s2.respond c a code) (put s1 (secOf pa) v), .ok v)

/-- An 8-byte block of instructions at a physical address: from the instruction cache of a core, if it still holds the sector, else by a
fill. -/
def State.blockAt (s : State) (c : MCtx) (core : Nat) (r : RegionKind) (pa : Nat) : State × Except Nat Nat :=
  let block := fun (v : Nat) => v / 2 ^ (8 * (pa % 64)) % 2 ^ 64
  if s.atCtrl (c.ag / 512) pa then (s, .error 2)
  else match s.icache.find? fun e => e.1 == core && e.2.1 == secOf pa with
    | some e => if Config.fetchOld s.seq then (s, .ok (block e.2.2)) else
      (match s.fillCode c core r pa with
       | (s1, .ok v) => (s1, .ok (block v))
       | (s1, .error code) => (s1, .error code))
    | none =>
      match s.fillCode c core r pa with
      | (s1, .ok v) => (s1, .ok (block v))
      | (s1, .error code) => (s1, .error code)

/-- The second parcel of a 64-bit instruction at 4 modulo 8, which TVAL holds (03 R58); 0 where it cannot be fetched (DESIGN CHOICE, log
entry 40). -/
def State.secondParcel (s : State) (k : Nat) : Nat :=
  let t := s.thr k
  let c := t.mctx k
  match s.xlate c (t.pc + 4) .fetch with
  | (s1, .ok pa leaf) => (match (s1.blockAt c t.core (regionOf leaf) pa).2 with
    | .ok w => w % 2 ^ 32
    | .error _ => 0)
  | _ => 0

/-- The fetch for a thread: checks 1 and 2 of R32, what check 3 looks at, and the parcels at the program counter. -/
def State.fetch (s : State) (k : Nat) : State × Fetched :=
  let t := s.thr k
  if t.pc.toNat % 4 ≠ 0 then (s, .trap 0x0A)
  else
    let c := t.mctx k
    match s.xlate c (t.pc &&& 0xFFFFFFFFFFFFFFF8) .fetch with
    | (s1, .fault code) => (s1, .trap code)
    | (s1, .wait) => (s1, .wait)
    | (s1, .ok pa leaf) =>
      match s1.blockAt c t.core (regionOf leaf) pa with
      | (s2, .error code) => (s2.respond c pa code, .trap 0x1A)
      | (s2, .ok w) =>
        let ilk := leaf.testBit 12
        if t.pc.toNat % 8 = 0 then (s2, .ok w ilk false)
        else
          let p := w / 2 ^ 32
          (s2, .ok (if p % 2 = 1 then p + s2.secondParcel k * 2 ^ 32 else p) ilk (w % 2 == 1))

/-- Whether a program counter is at 4 modulo 8, where no 64-bit instruction may stand (02 R31). -/
def atFour (pc : Word) : Bool := pc.toNat % 8 == 4

/-- TVAL of an illegal instruction: its parcels (03 R58). -/
def illTval (p : Nat) : Word := BitVec.ofNat 64 (if p % 2 = 0 then p % 2 ^ 32 else p)

/-- CAUSE of an illegal instruction (03 R58). -/
def illCause : Ill → Nat
  | .reserved => 2
  | .unassigned => 3
  | .form => 4

/-- The lowest comparator that matches (18 R421). -/
def Thread.comparator (t : Thread) : Option Nat :=
  if t.noBk then none
  else (List.range 4).find? fun k =>
    let w := t.bk[2 * k]?.getD 0
    w.getLsbD 0 && w.toNat / 4 == t.pc.toNat / 4 &&
    (w.getLsbD 1 || (t.bk[2 * k + 1]?.getD 0).setWidth 16 == t.asid)

/-! ### Ready threads (14 R298) -/

/-- The mark whose invocation a thread runs: on an L-core in user mode, where system software has put it into a context (17 R379). -/
def State.startMark (s : State) (t : Thread) : Option Word :=
  (if t.onL then (if t.mode then none else (tget s.away (s.tidOf t).toNat).bind (·.mark)) else t.mark).map (BitVec.ofNat 64)

/-- An invocation does not start before an earlier one that its issuer addressed to the same mark (17 R382). -/
def State.startOk (s : State) (t : Thread) : Bool :=
  match (s.startMark t).bind s.markAt with
  | some e => (s.olderThan e).isEmpty
  | none => true

/-- A level that a handle's place and generation name has ended, or is gone. -/
def State.levelOver (s : State) (d i gen : Nat) : Bool :=
  match tget (s.die d).levels i with
  | some l => l.final || s.levelGen d i != gen
  | none => true

/-- A mark that an index and a generation name is final, or gone. -/
def State.markOver (s : State) (d i gen : Nat) : Bool :=
  s.gone (.die d) ||
  match tget (s.die d).marks i with
  | some e => e.final || s.markGen d i != gen
  | none => true

/-- Room for a command that waits to be accepted. -/
def State.acceptRoom (s : State) (t : Thread) (i : Instr) : Bool :=
  match i with
  | .cpyIn .. | .cpyMc .. | .cpyGat .. | .cpyOut .. | .cpySct .. => s.copyRoom t
  | .cwFlush .. | .cwInval .. | .pgMig .. | .pgMigRel .. | .pgSplit .. | .pgColl .. | .tlbInv .. => s.walkRoom t
  | .rinv .. => decide (s.count t .remote < 63)
  | _ => s.matRoom t

/-- A thread's wait is over, but for `yield`. -/
def State.waitOver (s : State) (k : Nat) (t : Thread) : Bool :=
  match t.wait with
  | none => true
  | some .code => s.locks.isEmpty
  | some .walk => s.locks.isEmpty
  | some (.reg rs) => !t.hazard rs
  | some .lane => (s.pending t).isEmpty
  | some (.wmon _ _ _) => t.rel == some 2 || t.signalled
  | some (.bar _ _) => t.rel.isSome
  | some (.barOut _ _) => t.rel.isSome
  | some (.claim _ _ _) => t.rel.isSome
  | some (.hbar cl i) => !(s.hbarOf t.wg cl i).arrived.contains k
  | some (.level d i gen) => s.levelOver d i gen
  | some (.mark d i gen) => s.markOver d i gen
  | some (.markRoom d) => decide (s.buffered d < 16384)
  | some (.count c n) => decide (s.count t c ≤ n)
  | some (.accept i) => s.acceptRoom t i
  | some .drain => t.drained && !(t.pend.any fun e => e.val == none) && !s.rinvOut (s.tidOf t)
  | some .idWindow => true
  | some .exitQueue => false
  | some .send => false
  | some (.cancel d i gen) => s.cancelDone d i gen
  | some .wfi => s.wakes t
  | some (.yield _) => true

/-- A thread that begins its next instruction when it is issued; any other goes on with the one it waits in. -/
def Thread.fresh (t : Thread) : Bool :=
  match t.wait with
  | none | some .code | some (.reg _) | some (.yield _) => true
  | _ => false

/-- The next instruction of a thread reads a register that it would wait for (02 R41, R43): a dependence that is not satisfied (14 R298). -/
def State.depends (s : State) (k : Nat) (t : Thread) : Bool :=
  t.fresh && (t.pend.any fun e => e.val.isNone) && match (s.fetch k).2 with
    | .ok w ilk mid => (match decode (atFour t.pc) w with
      | .ok i => !(mid && t.entered) && t.guard (guardOf i) && ({ t with ilk := ilk } : Thread).hazard (readsOf i)
      | .ill _ => false)
    | _ => false

/-- A thread that could issue, were it not for a `yield`. -/
def State.couldIssue (s : State) (k : Nat) (t : Thread) : Bool :=
  t.ending.isNone && !t.left && !(t.flush && !t.pend.isEmpty) &&
  (match t.place with
   | .ctx p c => s.coreRuns (coreOfCtx p c)
   | .slot c _ _ _ => s.coreRuns c && !t.cancelled && ((s.wg t.wg).st == .run || (s.wg t.wg).st == .drain)
   | _ => false) &&
  s.waitOver k t && s.startOk t && !s.depends k t

/-- A thread is ready; after a `yield` the others of its workgroup in its lane come first, for 64 clocks (15 R333). -/
def State.ready (s : State) (k : Nat) (t : Thread) : Bool :=
  s.couldIssue k t &&
  match t.wait with
  | some (.yield ks) => decide (64 ≤ s.coreClock t - t.since) || ks.all fun j =>
      match tget s.threads j with
      | some u => !s.couldIssue j u || decide (t.lastIssue < u.lastIssue)
      | none => true
  | _ => true

/-- The ready threads. -/
def State.readyThreads (s : State) : List (Nat × Thread) := s.threads.filter fun t => s.ready t.1 t.2

/-! ### Selection (14 R298, R299; 16 R361, R364) -/

/-- Core and slice of a thread on an S-core. -/
def Thread.slice (t : Thread) : Option (Nat × Nat) :=
  match t.place with
  | .slot c sl _ _ => some (c, sl)
  | _ => none

/-- Lane and slot of a thread on an S-core. -/
def Thread.laneSlot (t : Thread) : Nat × Nat :=
  match t.place with
  | .slot _ _ l sl => (l, sl)
  | _ => (0, 0)

/-- The order of selection: longest waiting, then lowest LANE_ID, then lowest slot. -/
def waitsLonger (a b : Nat × Thread) : Bool :=
  lexLt (a.2.lastIssue, a.2.lane, a.2.laneSlot.2) (b.2.lastIssue, b.2.lane, b.2.laneSlot.2)

/-- The longest waiting of some threads. -/
def longest (ts : List (Nat × Thread)) : Option (Nat × Thread) :=
  ts.foldl (fun (b : Option (Nat × Thread)) t => match b with
    | some x => if waitsLonger t x then some t else some x
    | none => some t) none

/-- The workgroup a slice considers: one that is owed a floor clock there, by placement order, else by rank, but GROUT only while its
tile's request is open; in floor-only mode no other (16 R356, R361, R364). -/
def State.considered (s : State) (c sl : Nat) (ts : List (Nat × Thread)) : Option Nat :=
  let k := s.course (courseOfCore c)
  let ws := (ts.map (·.2.wg)).eraseDups
  let owed := ws.filter fun w => (k.claims.getD []).contains (c, sl, w)
  match leastBy (fun w => (s.wg w).order) owed with
  | some w => some w
  | none =>
    if k.floorOnly then none
    else s.bestWg (ws.filter fun w => (s.wg w).sclass != 3 || k.open (tileOfCore c))

/-- Whether the page a thread fetches from carries the interlock attribute (02 R43). -/
def State.ilkAt (s : State) (k : Nat) (t : Thread) : Bool :=
  match (s.xlate (t.mctx k) (t.pc &&& 0xFFFFFFFFFFFFFFF8) .fetch).2 with
  | .ok _ leaf => leaf.testBit 12
  | _ => false

/-- What must be equal for two threads to issue together, but for their loops (14 R299; 18 R399); those that go on after a wait are of
one issue. FORCE decides the mode of R43 unless their page carries the interlock attribute. -/
def State.sameIssue (s : State) (a b : Nat × Thread) : Bool :=
  a.2.pc == b.2.pc && a.2.asid == b.2.asid && a.2.ptBase == b.2.ptBase && a.2.mode == b.2.mode && a.2.kin == b.2.kin &&
  a.2.fresh == b.2.fresh && (a.2.fresh || a.2.issue == b.2.issue) && (a.2.force == b.2.force || s.ilkAt a.1 a.2)

/-- Equal loop state; in system mode none is compared (14 R299, 18 R399). -/
def Thread.sameLoops (a b : Thread) : Bool :=
  a.mode || (a.lp0.count == b.lp0.count && a.lp1.count == b.lp1.count &&
    (!a.lp0.active || (a.lp0.start == b.lp0.start && a.lp0.last == b.lp0.last)) &&
    (!a.lp1.active || (a.lp1.start == b.lp1.start && a.lp1.last == b.lp1.last)))

/-- What a slice issues: the selected thread, and in every lane the longest waiting ready thread beside it. -/
def State.select (s : State) (rs : List (Nat × Thread)) (c sl : Nat) : List (Nat × Thread) :=
  let ts := rs.filter fun t => t.2.slice == some (c, sl)
  match s.considered c sl ts with
  | none => []
  | some w =>
    let us := ts.filter (·.2.wg == w)
    match longest us with
    | none => []
    | some x =>
      let near := us.filter fun t => s.sameIssue t x
      ((List.range 4).filterMap fun l => longest (near.filter fun t => t.2.laneSlot.1 == 4 * sl + l))

/-- The thread that leads what a slice issues. -/
def lead (l : List (Nat × Thread)) : Nat := (l.map (·.2.lastIssue)).foldl Nat.min ((l.head?.map (·.2.lastIssue)).getD 0)

/-- Slices that issue together with one: those of its core that select the same program counter with everything equal, at
most 16 in all (14 R299). -/
def State.gangOf (s : State) (rs : List (Nat × Thread)) (c sl : Nat) : List (Nat × Thread) :=
  let own := s.select rs c sl
  match own with
  | [] => []
  | x :: _ =>
    let fits := fun (l : List (Nat × Thread)) => l.all fun t => s.sameIssue t x && t.2.sameLoops x.2
    if !fits own then own
    else
      let others := (rs.filterMap (·.2.slice)).eraseDups.filter fun y => y.1 == c && y.2 != sl
      let more := ((others.map fun y => (y.2, s.select rs c y.2)).filter fun y => !y.2.isEmpty && fits y.2).take 15
      ((List.range 32).filter fun i => i == sl || more.any (·.1 == i)).flatMap fun i =>
        if i = sl then own else ((more.find? (·.1 == i)).map (·.2)).getD []

/-- The next issue: of the longest waiting selection of any slice or context. -/
def State.nextIssue (s : State) : Option (List Nat) :=
  let rs := s.readyThreads
  let ctxs := (rs.filter fun t => t.2.onL).map fun t => (t.2.lastIssue, [t.1])
  let slices := ((rs.filterMap (·.2.slice)).eraseDups.map fun y => (lead (s.select rs y.1 y.2), y)).filter fun y =>
    !(s.select rs y.2.1 y.2.2).isEmpty
  match leastBy (·.1) ctxs, leastBy (·.1) slices with
  | some a, some b => if a.1 ≤ b.1 then some a.2 else some ((s.gangOf rs b.2.1 b.2.2).map (·.1))
  | some a, none => some a.2
  | none, some b => some ((s.gangOf rs b.2.1 b.2.2).map (·.1))
  | none, none => none

/-- Threads that may issue together, as the agenda asks: one context, or what some slices of a core select, at most 16 when they form
one gang (14 R298, R299). -/
def State.mayIssue (s : State) (ks : List Nat) : Bool :=
  match ks with
  | [] => false
  | k :: t =>
    let x := (k, s.thr k)
    let rs := s.readyThreads
    if x.2.onL then t.isEmpty && rs.any (·.1 == k)
    else
      let sls := (ks.filterMap fun j => (s.thr j).slice.map (·.2)).eraseDups
      let us := sls.flatMap fun sl => s.select rs x.2.core sl
      us.length == ks.length && us.all (fun u => ks.contains u.1) &&
        (sls.length == 1 || (decide (sls.length ≤ 16) && us.all fun u => s.sameIssue u x && u.2.sameLoops x.2))

/-! ### The boundary before an instruction (18 R395; 15 R331) -/

/-- A cancel has reached a thread on an L-core that has not taken it. -/
def State.cancelDue (s : State) (t : Thread) : Bool :=
  t.onL && !t.mode && ((tget s.away (s.tidOf t).toNat).map (·.cancelled)).getD false

/-- What happens to a thread at its boundary, if anything does: it enters beside others of its gang (18 R398), a cancelled one on an
S-core ends once its operations have drained, also in a `cancel` of its own, one on an L-core takes CANCEL, and a signal held in system mode
is taken. -/
def State.boundary (s : State) (k : Nat) : Option State :=
  let t := s.thr k
  if !s.stands k then none
  else match t.beside, t.wait with
  | some b, none => some ((s.enterBeside k b.code b.pos b.mask).updThr k fun t => { t with kin := b.kin })
  | _, _ =>
    if t.cancelled && !t.onL then
      (if t.drained then some ((s.updThr k Thread.flushAll).closeThread k .cancelled) else none)
    else if !s.takesAsync k then none
    else if s.cancelDue t then
      let s1 : State := { s with away := tmod s.away (s.tidOf t).toNat Away.init fun a => { a with cancelled := false } }
      some (s1.asyncTrap k 0x2A 0)
    else if t.signalled && !t.mode && !t.onL then
      some ((s.updThr k fun x => { x with signalled := false }).asyncTrap k 0x29 0)
    else none

/-- A lane operation whose partners have all come, or the first thread with something due at its boundary. -/
def State.due (s : State) : Option State :=
  match s.threads.find? fun t => t.2.onLane && (s.pending t.2).isEmpty && s.takesAsync t.1 with
  | some t => some (s.finishLane t.1)
  | none => s.threads.findSome? fun t => s.boundary t.1

/-! ### Gangs (18 R398) -/

/-- Gang positions of the threads of an issue. -/
def State.positions (s : State) (ks : List Nat) : List (Nat × Nat) :=
  let sls := (ks.filterMap fun k => (s.thr k).slice.map (·.2)).eraseDups
  let asc := (List.range 32).filter sls.contains
  ks.map fun k => match (s.thr k).slice with
    | some y => (k, 4 * (asc.findIdx (· == y.2)) + (s.thr k).laneSlot.1 % 4)
    | none => (k, 0)

/-- Members by ascending LANE_ID, the order in which they run (09 R197). -/
def State.laneOrder (s : State) (ms : List (Nat × Nat)) : List (Nat × Nat) :=
  ms.foldl (fun l m => insertBy (fun k => (s.thr k).lane) m l) []
where
  /-- Insertion by a measure of the key. -/
  insertBy (f : Nat → Nat) (x : Nat × Nat) : List (Nat × Nat) → List (Nat × Nat)
    | [] => [x]
    | y :: t => if f x.1 < f y.1 then x :: y :: t else y :: insertBy f x t

/-- A slice issue counts in the virtual time of its workgroup and for a GROUT thread in its tile's grout (16 R352, R360, R362), and
meets a floor claim (R364). -/
def State.countSlice (s : State) (i : Option Instr) (ks : List Nat) (sl : Nat) : State :=
  let us := ks.filter fun k => (s.thr k).slice.map (·.2) == some sl
  match us with
  | [] => s
  | k :: _ =>
    let t := s.thr k
    let g := s.wg t.wg
    let eu := us.foldl (fun a j => a + (i.map fun x => (s.thr j).energy x).getD 0) 0
    let s1 := s.updCourse (courseOfCore t.core) fun c => { c with
      served := if c.served.contains (t.core, sl, t.wg) then c.served else (t.core, sl, t.wg) :: c.served,
      claims := c.claims.map fun l => l.filter (· != (t.core, sl, t.wg)) }
    if g.sclass = 1 ∨ g.sclass = 2 then s1.updWg t.wg fun g => { g with vt := (g.vt + 2 ^ 20 / g.share) % 2 ^ 64 }
    else if g.sclass = 3 then s1.groutIssue t.core eu
    else s1

/-- Every slice of an issue counts. -/
def State.countIssue (s : State) (i : Option Instr) (ks : List Nat) : State :=
  (((ks.filterMap fun k => (s.thr k).slice.map (·.2))).eraseDups).foldl (fun s sl => s.countSlice i ks sl) s

/-- The instruction of an issue, if its parcels are one. -/
def instrOf : Dec → Option Instr
  | .ok i => some i
  | .ill _ => none

/-- Instructions that load from memory or scratchpad. -/
def loads : Instr → Bool
  | .ld .. | .ldX .. | .ldfF32 .. | .ldf64 .. | .ldfX .. | .lds .. | .ldsX .. | .ldx .. | .ldnc .. => true
  | _ => false

/-- Instructions that make an access. -/
def accesses (i : Instr) : Bool :=
  loads i || match i with
    | .st .. | .stX .. | .stfF32 .. | .stf64 .. | .stfX .. | .sts .. | .stsX .. | .stx .. | .amo .. | .cas .. | .red .. => true
    | _ => false

/-- The registers of a thread as they stand. -/
def Thread.here (t : Thread) : Back := ⟨t.pc, t.x, t.f, t.p, t.lp0, t.lp1, t.fflags, t.pend⟩

/-- A thread begins an instruction: its issue, its position, and of one that makes an access where it stood before; any other comes after all
accesses before it (19 R429). -/
def Thread.begin (t : Thread) (seq pos word : Nat) (i : Option Instr) : Thread :=
  { t with lastIssue := seq, issue := seq, gpos := pos, word := word, back := if (i.map accesses).getD false then t.here :: t.back else [] }

/-- The waits that end when another member of the gang raises a cause (18 R398). -/
def Wait.listed : Wait → Bool
  | .lane | .wmon _ _ _ | .bar _ _ | .barOut _ _ | .hbar _ _ | .claim _ _ _ | .level _ _ _ | .mark _ _ _ | .count _ _ => true
  | _ => false

/-- A member has completed its instruction, or waits as R398 lists. -/
def Thread.entersNow (t : Thread) : Bool :=
  (match t.place with
   | .ctx _ _ | .slot _ _ _ _ => true
   | _ => false) && !t.served &&
  match t.wait with
  | none | some (.yield _) => true
  | some w => w.listed

/-- A member of a gang in which some raised a cause: those that did get FAULT_MASK, the others enter beside them, at once or once their
instruction has completed (18 R398). -/
def State.joinTrap (s : State) (g : Gang) (f : Nat × BitVec 8) (mask : Word) (m : Nat × Nat) : State :=
  let t := s.thr m.1
  if (tget s.threads m.1).isNone || t.ending.isSome then s
  else if g.members.contains m && g.faults.any (·.1 == m.2) then s.updThr m.1 fun t => { t with faultMask := mask, kin := s.seq }
  else if t.entersNow then (s.enterBeside m.1 f.2 m.2 mask).updThr m.1 fun t => { t with kin := s.seq }
  else s.updThr m.1 fun t => { t with beside := some ⟨f.2, m.2, mask, s.seq⟩ }

/-- A gang that has run. Lane operations whose partners have come complete; when some members raised a cause, those that still wait at one
have not arrived there (11 R249). Then the others enter beside those that raised it, those of the same issue that still wait too; FAULT_MASK is the same in all of them, and until one returns they gang with
no others (18 R398, R399). -/
def State.closeGang (s : State) : State :=
  match s.gang with
  | none => s
  | some g =>
    let done := fun (s : State) => g.members.foldl (fun s m => s.finishLane m.1) s
    let s1 : State := { s with gang := none }
    match leastBy (·.1) g.faults with
    | none => done s1
    | some f =>
      let s0 := done (s1.cutLanes g (g.members.map (·.1)) g.members.length [])
      let rest := (s0.threads.filter fun t => t.2.issue == g.seq && !(g.members.any (·.1 == t.1)) && !t.2.onL &&
        (t.2.wait.map Wait.listed).getD false && !t.2.served).map fun t => (t.1, t.2.gpos)
      (g.members ++ rest).foldl (fun s m => s.joinTrap g f (maskOf (g.faults.map (·.1))) m) s0

/-- A core and its course are entered in their tables when a thread first issues on it. -/
def State.knowCore (s : State) (c : Nat) : State :=
  let s1 := if (tget s.cores c).isSome then s else s.updCore c id
  if !isSDie (dieOfCore c) || (tget s1.courses (courseOfCore c)).isSome then s1 else s1.updCourse (courseOfCore c) id

/-- An issue starts: the fetch for all its threads, which raises for all of them when it fails; check 3 of R32 concerns those that came by a
transfer, and the others run. Threads that go on after a wait fetch nothing. -/
def State.startIssue (s : State) (ks : List Nat) : State :=
  match ks with
  | [] => s
  | k :: _ =>
    let t := s.thr k
    let raise := fun (s : State) (code : Nat) (ms : List (Nat × Nat)) => ms.foldl (fun s m => ({ s with cur := m.1 } : State).trap code t.pc) s
    if !t.fresh then
      let ms := s.laneOrder (ks.map fun j => (j, (s.thr j).gpos))
      { s with gang := some ⟨ms, ms, [], t.pc, t.word, t.issue, true, []⟩ }
    else match s.fetch k with
    | (s1, .wait) => ks.foldl (fun s j => s.updThr j fun t => { t with wait := some .code }) s1
    | (s1, .trap code) =>
      let ms := s1.laneOrder (s1.positions ks)
      (raise { s1 with gang := some ⟨ms, [], [], t.pc, 0, s.seq, false, []⟩ } code ms).closeGang
    | (s1, .ok w ilk mid) =>
      let i := instrOf (decode (atFour t.pc) w)
      let s2 := ks.foldl (fun s j => s.updThr j fun t => { t with ilk := ilk }) (s1.knowCore t.core)
      let ms := s2.laneOrder (s2.positions ks)
      let bad := ms.filter fun m => mid && (s2.thr m.1).entered
      let now := ms.filter fun m => !bad.contains m
      let s3 := now.foldl (fun s m => s.updThr m.1 fun t => t.begin s.seq m.2 w i) s2
      let s4 := raise { s3.countIssue i (now.map (·.1)) with gang := some ⟨ms, now, [], t.pc, w, s.seq, false, []⟩ } 0x0B bad
      if now.isEmpty then s4.closeGang else s4

/-- What a step is to do. -/
inductive Plan where
  | done (s : State)
  | run (i : Instr) (s : State)
deriving Repr

/-- What capture units sample as an instruction is issued: the latency of a load, and of a workgroup of class DEADLINE the time from
its release to its first instruction (19 R432). -/
def State.measureIssue (s : State) (t : Thread) (i : Instr) : State :=
  let s1 := if loads i && t.guard (guardOf i) then s.measure t.die 0 (coreId t.core) (Config.latency s.seq : Nat) else s
  let g := s1.wg t.wg
  if !t.onL && g.sclass == 0 && g.lanes == 0 then s1.measure t.die 6 (coreId t.core) ((s1.timeOf t.pkg).toNat - g.freed : Nat) else s1

/-- The next member of a gang runs: a comparator stops it first, then the decode checks; else the instruction is its own. -/
def State.runMember (s : State) (g : Gang) (m : Nat × Nat) (rest : List (Nat × Nat)) : Plan :=
  let s1 : State := { s with cur := m.1, gang := some { g with rest := rest } }
  let t := s1.me
  if (tget s.threads m.1).isNone then .done s1
  else match if g.again then none else t.comparator with
    | some k => .done (s1.trap 0x0F (BitVec.ofNat 64 k))
    | none =>
      match decode (atFour g.pc) g.word with
      | .ill k => .done (s1.trap (illCause k) (illTval g.word))
      | .ok i =>
        if g.again then .run i (s1.ordered i)
        else
          let s2 := match s1.startMark t with
            | some m => s1.markStarted m
            | none => s1
          let s3 := s2.measureIssue t i
          .run i ((if t.onL then s3 else s3.spend t.core t.wg (t.energy i)).ordered i)

/-! ### Time (07 R160; 20 R444) -/

/-- A package's clocks move on. TIME_FREQ trims TIME by parts of 10^12, and while TIME_SLEW is not 0 TIME is 500 ppm slower (20 R444);
L-clocks run at 3.4 GHz (01 R20). -/
def Pkg.tick (p : Pkg) (ns : Nat) : Pkg :=
  let e := p.trim + p.freq.toInt * ns
  let n := ((ns : Int) + Int.fdiv e 1000000000000).toNat
  let a := Nat.min p.slew ((p.owed + n) / 2000)
  { p with
    time := p.time + BitVec.ofNat 64 (n - a), slew := p.slew - a, trim := Int.fmod e 1000000000000
    owed := if p.slew = a then 0 else (p.owed + n) % 2000
    cycles := p.cycles + (p.phase + 17 * ns) / 5, phase := (p.phase + 17 * ns) % 5 }

/-- A floor claim can still be served: its workgroup has a ready thread in the slice. -/
def State.owes (s : State) (c : Course) : Bool :=
  (c.claims.getD []).any fun x => s.readyThreads.any fun t => t.2.slice == some (x.1, x.2.1) && t.2.wg == x.2.2

/-- Floor claims of a course: the workgroups with a ready thread in a slice that has issued nothing of theirs in the window (16
R364). -/
def State.floorClaims (s : State) (k : Nat) (c : Course) : List (Nat × Nat × Nat) :=
  ((s.readyThreads.filterMap fun t => t.2.slice.map fun y => (y.1, y.2, t.2.wg)).eraseDups).filter fun x =>
    courseOfCore x.1 == k && !c.served.contains x

/-- A course whose die answers. -/
def State.courseUp (s : State) (k : Nat) : Bool := isSDie (dieOfCourse k) && s.dieUp (dieOfCourse k)

/-- Slices of a core that have no ready thread that may issue. -/
def State.idleSlices (s : State) (core : Nat) : Nat :=
  let rs := s.readyThreads
  ((List.range 32).filter fun sl => (s.select rs core sl).isEmpty).length

/-- Clocks until a tile issues a synthetic slot, if it is to: one is due where its share is not met and an idle slice has issued none in this
clock (16 R353). -/
def State.synLeft (s : State) (core : Nat) : Option Nat :=
  let c := s.course (courseOfCore core)
  let t := tileOfCore core
  if !s.synOpen core then none
  else if c.clock < c.synClock t then some (c.synClock t - c.clock)
  else match s.idleSlices core with
    | 0 => none
    | n => some (if tileN c.synNow t < n then 0 else 1)

/-- Clocks until some tile of a course issues a synthetic slot. -/
def State.synDue (s : State) (k : Nat) : Option Nat := leastBy id ((List.range 4).filterMap fun t => s.synLeft (coreOfTile k t))

/-- Time passes: TIME of every package, the L-clocks, and the clocks of every course, at whose clock 56 floor claims are made. -/
def State.elapse (s : State) (ns : Nat) : State :=
  { s with
    pkgs := s.pkgs.map fun p => (p.1, p.2.tick ns)
    courses := s.courses.map fun x =>
      if !s.courseUp x.1 then x
      else
        let c := x.2.tick ns (s.owes x.2) (s.synDue x.1)
        (x.1, if c.claims.isNone && decide (56 ≤ c.clock) then { c with claims := some (s.floorClaims x.1 c) } else c)
    clk := s.clk + ns }

/-- Nanoseconds until some course has something to do in its window: time does not pass that by. -/
def State.courseLeft (s : State) : Option Nat :=
  leastBy id ((s.courses.filter fun x => s.courseUp x.1).map fun x => x.2.left (s.owes x.2) (s.synDue x.1))

/-- The time of a step. -/
def State.passTime (s : State) : State :=
  let ns := match s.courseLeft with
    | some n => Nat.min n (Config.timeStep s.seq)
    | none => Config.timeStep s.seq
  { s.elapse ns with seq := s.seq + 1 }

end Sys2Proof.Machine
end

