-- ==== Sys2Proof/Machine/Events.lean ====
section
/-!
DEFINITION. Steps the device takes by itself: requests of the coherence protocol (05 R100, R104, R109), pre-emption (18 R412
to R416), the governor and the modes of a course (16 R351 to R356, 19 R427), writes of control registers (15 R342 to R345; 16
R358; 18 R410; 19 R425; 20 R439, R444), and time (18 R410).
-/

namespace Sys2Proof.Machine

/-! ### The coherence protocol (05 R104) -/

/-- A coherence agent whose die answers. -/
def State.mayAsk (s : State) (ag : Nat) : Bool := s.present (ag / 512) && decide (ag % 512 < 346) && s.dieUp (agentDie ag)

/-- A request of an agent on a sector through a COH mapping; one that the home refuses, or that does not reach it, changes nothing there
(05 R104, R112, R116). -/
def State.cohRequest (s : State) (ag pa : Nat) (f : State → Nat → Nat → State) : State :=
  if !s.mayAsk ag then s
  else match s.ask .coh ag (s.fwd pa) false with
    | (s1, some _) => s1
    | (s1, none) => f s1 ag (secOf (s.fwd pa))

/-- `GETS`: a shared read (05 R104). -/
def execGetS (ag pa : Nat) (s : State) : Out := .next (s.cohRequest ag pa State.doGetS)

/-- `GETX`: the agent becomes the only holder, in M (05 R104). -/
def execGetX (ag pa : Nat) (s : State) : Out := .next (s.cohRequest ag pa State.doGetX)

/-- `UPGRADE`: a copy in S becomes M; one that was lost meanwhile is asked for again (05 R104). -/
def execUpgrade (ag pa : Nat) (s : State) : Out := .next (s.cohRequest ag pa State.doGetX)

/-- `GETU`: the agent may update a sector it holds in neither M nor E (05 R104). -/
def execGetU (ag pa : Nat) (op : RedOp) (wide : Bool) (s : State) : Out :=
  .next (s.cohRequest ag pa fun s ag sec =>
    if s.holds ag sec == some .m || s.holds ag sec == some .e then s else s.doGetU ag sec op wide)

/-- `ATHOME`: every copy is combined or recalled, and the home holds the sector in I for the atomic (05 R104). -/
def execAtHome (ag pa : Nat) (s : State) : Out := .next (s.cohRequest ag pa fun s _ sec => s.recall sec)

/-- An agent gives up a sector that it owns in some state. -/
def State.putBack (s : State) (ag pa : Nat) (st : CacheSt) : State :=
  let sec := secOf pa
  if s.holds ag sec == some st && (s.dirOf sec).st != .p then s.putOwned ag sec else s

/-- `PUTM`: a modified sector is written back (05 R104). -/
def execPutM (ag pa : Nat) (s : State) : Out := .next (s.putBack ag pa .m)

/-- `PUTO`: an owned sector is written back (05 R104). -/
def execPutO (ag pa : Nat) (s : State) : Out := .next (s.putBack ag pa .o)

/-- `PUTE`: an exclusive clean sector is given up (05 R104). -/
def execPutE (ag pa : Nat) (s : State) : Out := .next (s.putBack ag pa .e)

/-- `PUTU`: a partial is handed in and applied at the home (05 R104, R106). -/
def execPutU (ag pa : Nat) (s : State) : Out := .next (s.putPartial ag (secOf pa))

/-- `PRIV_EVICT_REPORT`: the owner of a PRIV sector writes it back and is recorded no longer (05 R109). -/
def execPrivEvictReport (ag pa : Nat) (s : State) : Out := .next (s.putPriv ag (secOf pa))

/-- `SILENT_EVICTION`: a clean S copy or an untracked copy goes without a word to the home (05 R104, R110, R111). -/
def execSilentEviction (ag pa : Nat) (s : State) : Out :=
  let sec := secOf pa
  .next <| if s.holds ag sec == some .s || s.holds ag sec == some .r then s.dropCopy ag sec else s

/-- `SLAB_EVICT`: a slab evicts a line: of a home line every tracked copy is recalled and dirty data goes to DRAM (05 R100). -/
def execSlabEvict (die pa : Nat) (s : State) : Out := .next <| if s.dieUp die then s.evictLine (slabKey die pa) else s

/-! ### Pre-emption (18 R412 to R416) -/

/-- `PRQ_CMD_ISSUE`: the request of a die's request block is issued (18 R412). -/
def execPrqCmdIssue (die : Nat) (s : State) : Out := .next <| if isSDie die then s.prqIssue die else s

/-- `WORKGROUP_STOPPED`: a workgroup that is to stop has reached its yield points; the save begins, or the flush is made
(18 R413, R416). -/
def execWorkgroupStopped (w : Nat) (s : State) : Out := .next <| if (tget s.wgs w).isSome then s.stopped w else s

/-- `SAVE_COMMIT`: the header is committed, and the resources are free (18 R416). -/
def execSaveCommit (w : Nat) (s : State) : Out := .next <| if (tget s.wgs w).isSome then s.commitSave w else s

/-- `DRAIN_DEADLINE`: a drain that has not ended in time is saved instead (18 R411, R416). -/
def execDrainDeadline (w : Nat) (s : State) : Out := .next <| if (tget s.wgs w).isSome then s.drainOver w else s

/-- `RESTORE_START`: a saved workgroup takes a core that has room for it (18 R416). -/
def execRestoreStart (w : Nat) (s : State) : Out := .next <| if (tget s.wgs w).isSome then s.startRestore w else s

/-- `RESTORE_COMPLETE`: a restored workgroup runs again (18 R416). -/
def execRestoreComplete (w : Nat) (s : State) : Out := .next <| if (tget s.wgs w).isSome then s.completeRestore w else s

/-! ### The governor (16 R349 to R356) -/

/-- `GOVERNOR_SAMPLE`: the end of a course's window (16 R349, R351, R354, R355). -/
def execGovernorSample (k : Nat) (s : State) : Out := .next (s.govSample k)

/-- `SYNTHETIC_GROUT_SLOT`: an idle slice of a tile issues one synthetic slot (16 R353). -/
def execSyntheticGroutSlot (c : Nat) (s : State) : Out :=
  .next <| if isSDie (dieOfCore c) then s.synthetic c (s.idleSlices c) else s

/-- `SHUNT_TRIP`: the shunt monitor puts a course into floor-only mode (16 R356). -/
def execShuntTrip (k : Nat) (s : State) : Out := .next <| if isSDie (dieOfCourse k) then s.shunt k else s

/-- `COURSE_PWR_NT_REQ`: the firmware sets or clears the request for near-threshold mode (19 R427). -/
def execCoursePwrNtReq (k : Nat) (s : State) : Out :=
  .next <| if isSDie (dieOfCourse k) && s.managed (.course k) then s.pwrRequest k ((s.course k).pwr ^^^ 1) else s

/-- `COURSE_PWR_BYP_REQ`: the firmware sets or clears the request to bypass a tile (19 R427). -/
def execCoursePwrBypReq (k tile : Nat) (s : State) : Out :=
  .next <|
    if isSDie (dieOfCourse k) && s.managed (.course k) then
      s.pwrRequest k (((s.course k).pwr &&& 0b10011) ^^^ 2 ||| BitVec.ofNat 5 (tile % 4 * 4))
    else s

/-- `COURSE_PWR_OFF_REQ`: the firmware sets or clears the request to go offline (19 R427). -/
def execCoursePwrOffReq (k : Nat) (s : State) : Out :=
  .next <| if isSDie (dieOfCourse k) && s.managed (.course k) then s.pwrRequest k ((s.course k).pwr ^^^ 16) else s

/-- `COURSE_MODE_CHANGE`: at the second window boundary the mode changes (19 R427). -/
def execCourseModeChange (k : Nat) (s : State) : Out :=
  .next <| if (s.course k).pwrWait == some 0 then s.modeChange k else s

/-! ### Control registers -/

/-- `IDW_CMD_REPLACE`: the window of IDW_ASID is replaced (15 R342). -/
def execIdwCmdReplace (die : Nat) (s : State) : Out := .next (s.idwReplace die)

/-- `IDW_CMD_READ`: the window of IDW_ASID is copied into IDW_BASE and IDW_REMAIN (15 R342). -/
def execIdwCmdRead (die : Nat) (s : State) : Out := .next (s.idwRead die)

/-- `IDW_TABLE_WRITE`: IDW_TABLE is written (15 R342). -/
def execIdwTableWrite (die v : Nat) (s : State) : Out := .next (s.idwTableWrite die (BitVec.ofNat 64 v))

/-- `MIG_PROF_WRITE`: MIG_PROF is written (15 R343). -/
def execMigProfWrite (die v : Nat) (s : State) : Out :=
  .next <| if isSDie die then s.updDie die fun d => { d with profile := Profile.ofWord (BitVec.ofNat 64 v) } else s

/-- `EXQ_CTL_WRITE`: EXQ_CTL is written (15 R344). -/
def execExqCtlWrite (die v : Nat) (s : State) : Out :=
  .next <| s.updDie die fun d => { d with exq := setRingCtl d.exq (BitVec.ofNat 64 v) 8 20 }

/-- `ARQ_CTL_WRITE`: ARQ_CTL is written (15 R345). -/
def execArqCtlWrite (die v : Nat) (s : State) : Out :=
  .next <| if isSDie die then s else s.updDie die fun d => { d with arq := setRingCtl d.arq (BitVec.ofNat 64 v) 4 16 }

/-- `RING_CTL_WRITE`: a RING_CTL is written (20 R439). Rings are numbered port × 128 + r, transmit rings from 64 on. A port
whose die does not answer takes no write (04 R76). -/
def execRingCtlWrite (pkg r v : Nat) (s : State) : Out :=
  .next <|
    if !s.dieUp (portDie pkg (r / 128 % 4)) then s
    else s.updPort pkg (r / 128 % 4) fun p =>
      if r % 128 < 64 then { p with rx := tmod p.rx (r % 128) Ring.init fun q => setPortCtl q (BitVec.ofNat 64 v) }
      else { p with tx := tmod p.tx (r % 128 - 64) Ring.init fun q => setPortCtl q (BitVec.ofNat 64 v) }

/-- `SOFT_SET`: software interrupt bits are set (18 R410). -/
def execSoftSet (t v : Nat) (s : State) : Out :=
  .next <| s.updCtx t fun c => { c with irqSoft := c.irqSoft ||| BitVec.ofNat 16 (v / 2 ^ 16) }

/-- `SOFT_CLR`: software interrupt bits are cleared (18 R410). -/
def execSoftClr (t v : Nat) (s : State) : Out :=
  .next <| s.updCtx t fun c => { c with irqSoft := c.irqSoft &&& ~~~BitVec.ofNat 16 (v / 2 ^ 16) }

/-- `GOV_CTL_WRITE`: GOV_CTL is written (16 R358). -/
def execGovCtlWrite (k v : Nat) (s : State) : Out := .next (s.govCtlWrite k (BitVec.ofNat 64 v))

/-- `BOOST_MAX_WRITE`: BOOST_MAX is written (19 R425). -/
def execBoostMaxWrite (k v : Nat) (s : State) : Out := .next (s.boostMaxWrite k (BitVec.ofNat 64 v))

/-- `CONTROL_REGISTER_WRITE`: a store of 4 or 8 bytes reaches control space (04 R76); one that is misplaced changes
nothing. -/
def execControlRegisterWrite (pa n v : Nat) (s : State) : Out :=
  .next <| if ctrlSize n && pa % n == 0 && areaOf pa == .ctrl && s.present (paPkg pa) then (s.ctrlStore pa n v).1 else s

/-- `TIME_STEP`: TIME_STEP is written (20 R444). -/
def execTimeStep (pkg v : Nat) (s : State) : Out :=
  .next <| if s.present pkg then s.timeStepOp pkg (BitVec.ofNat 64 v) else s

/-- `TIMECMP_REACHED`: TIME has reached the TIMECMP of a context: source 0 pends, and its `wfi` is over where it enables the
source (18 R409, R410). -/
def execTimecmpReached (t : Nat) (s : State) : Out :=
  .next <|
    let c := s.ctx t
    if !s.present (t / 256) || (s.timeOf (t / 256)).ult c.timecmp then s
    else match c.thread with
      | some k => if (s.thr k).wait == some .wfi && s.wakes (s.thr k) then s.updThr k (·.complete 4) else s
      | none => s

end Sys2Proof.Machine
end

