-- ==== Sys2Proof/Machine/Health.lean ====
section
/-!
DEFINITION. Power, health and live service (chapter 19): rail quadrants (R428 to R430), capture units (R431), units that
drain, go offline and come back (R434), firmware (R435), power-on (R436), what is lost with a die (15 R327, 17 R385), and the
links between dies and packages (20 R446, R447; 18 R418).
-/

namespace Sys2Proof.Machine

/-! ### Threads that are lost (15 R327; 17 R385; 19 R430) -/

/-- An invocation whose place is lost: dispatched again where its record allows it, with the tokens its thread had (19 R425), else its
mark breaks with PLACEFAIL (17 R385). The issuer, or for one from a mark's queue the mark's origin die, is the sender of 15 R474. -/
def State.redispatch (s : State) (m : Word) (tok : Option Nat) : State :=
  match s.markAt m with
  | none => s
  | some e =>
    match e.inv with
    | none => s
    | some v =>
      let d := if !v.restartable then none
        else if isMark v.place then s.forwardDie v e.site (markDie v.place)
        else s.codeDie v.pkg v.die v.place v
      if e.final then s
      else match d with
        | some d => (s.setMark m { e with inv := some { v with tok := tok } }).dispatchTo m d
        | none => s.breakMark m cPlaceFail m

/-- A thread that was on a lost unit and is not part of a launch goes: its invocation is dispatched again or breaks, and any
other thread is lost. -/
def State.dropThread (s0 : State) (k : Nat) : State :=
  let s := s0.identify k
  let t := s.thr k
  let s1 := ((s.leaveWg k).updThr k fun t => { t with ending := some (t.ending.getD .fatal) }).removeThread k
  match t.mark with
  | some m => if t.resolved then s1 else s1.redispatch (BitVec.ofNat 64 m) (some (tokTok (settleTok t.boostTok)))
  | none => s1

/-- Marks of a lost die (17 R374, R385). Readers of its entries find them LOST, also once it is back: what was open breaks, and what was final
is replaced (24 R469). An invocation of such a mark that is under way to another die, runs or waits to run goes on as an orphan. -/
def State.marksLost (s : State) (d : Nat) : State :=
  let ms := (s.die d).marks.map fun e => (markWord d e.1 (s.markGen d e.1), e.2)
  let mine := fun (m : Word) => ms.any (·.1 == m)
  let s1 : State := { s with
    msgs := s.msgs.filterMap fun x => match x with
      | .invoke e m =>
        if mine m then (if e = d then none else (tget ((ms.map fun y => (y.1.toNat, y.2))) m.toNat).map (.orphan e m)) else some x
      | x => some x
    threads := s.threads.map fun t => (t.1, if (t.2.mark.map fun m => mine (BitVec.ofNat 64 m)).getD false then { t.2 with resolved := true } else t.2)
    away := s.away.map fun a => (a.1, if (a.2.mark.map fun m => mine (BitVec.ofNat 64 m)).getD false then { a.2 with resolved := true } else a.2) }
  ms.foldl (fun s m => if m.2.final then s.setMark m.1 { m.2.lose m.1 with spilled := false } else s.breakMark m.1 cLost m.1) s1

/-- Arrivals at a lost L-die that no context runs become threads there again, to be handled as the others that are lost with it (17 R385; 15
R327). -/
def State.awayLost (s : State) (d : Nat) : State :=
  let idle := s.away.filter fun a => a.2.die == d && !s.ctxs.any fun c => c.2.thread.isSome && c.2.tid.toNat == a.1
  idle.foldl (fun s a =>
    { s with
      away := tdel s.away a.1, nextId := s.nextId + 1
      threads := tset s.threads s.nextId { Thread.init with
        place := .queue d, tid := BitVec.ofNat 64 a.1, spawned := a.2.spawned, mark := a.2.mark, resolved := a.2.resolved, link := a.2.link
        launch := if a.2.spawned then a.2.link else 0, index := a.2.index, boostTok := a.2.tok, cancelled := a.2.cancelled, stops := a.2.stops } }.updPkg (pkgOfDie d)
      fun p => { p with remote := tdel p.remote a.1 }) s

/-- Threads whose save did not complete (19 R430): those of a launch as 15 R327 says of a failure, the others dropped. -/
def State.loseThreads (s : State) (ks : List Nat) (d : Nat) : State :=
  let own := ks.filter fun k => (s.thr k).spawned
  let s1 := ((own.map fun k => (s.thr k).launch).eraseDups).foldl (fun (s : State) h =>
    let js := own.filter fun k => (s.thr k).launch == h
    match s.levelOf h with
    | some lv => (match lv.launch with
      | some l => s.startAgain h lv l js (· == d)
      | none => js.foldl State.failStranded s)
    | none => js.foldl State.failStranded s) s
  (ks.filter fun k => !own.contains k).foldl State.dropThread s1

/-- What is lost with a die that has gone offline: its caches, stores of its cores that are not performed, the commands of its engines
and its walker, its marks, the invocations queued there and on their way to it, and the threads on it, in its save area and in its arrival queue
that belong to no launch (17 R385). Launches go on by election (15 R327), and threads on their way to an L-die go to the other (R335). -/
def State.dieLost (s0 : State) (d : Nat) : State :=
  let s00 : State := { s0 with stores := s0.stores.filter fun h => dieOfCore h.core != d }
  let s := (s00.cachesLost d).walksLost d
  let s1 := (s.marksLost d).awayLost d
  let out := s1.msgs.filterMap fun x => match x with
    | .invoke e m => if e = d then some m else none
    | _ => none
  let s2 : State := { s1 with
    msgs := s1.msgs.filterMap fun x => match x with
      | .invoke e _ | .orphan e _ _ => if e = d then none else some x
      | .thread e k => some (if e = d ∧ !isSDie d then .thread ((s1.pickL (pkgOfDie d)).getD d) k else x)
      | _ => some x
    tlbs := s1.tlbs.filter fun x => x.held.onDie != d
    walkCache := s1.walkCache.filter fun x => x.die != d }
  let s3 := out.foldl (fun s m => s.redispatch m none) s2
  let onL := (s3.threads.filter fun t => t.2.onL && t.2.die == d).map (·.1)
  let s4 := onL.foldl State.identify s3
  let ks := (s4.threads.filter fun t => !t.2.spawned && match t.2.place with
    | .flight => false
    | .saved => (s4.wg t.2.wg).die == d
    | _ => t.2.die == d).map (·.1)
  let s5 := ks.foldl State.dropThread s4
  { s5 with cores := s5.cores.map fun c =>
      if dieOfCore c.1 = d then (c.1, { c.2 with copyQ := [], matQ := [], claims := [], filled := false }) else c }

/-! ### Rail quadrants (19 R428 to R430) -/

/-- A core of a rail quadrant. -/
def inQuad (d q c : Nat) : Bool := dieOfCore c == d && quadOfCourse (courseOfCore c) == q

/-- The save point of a thread (19 R429): the boundary before the oldest of its last accesses that were still in flight when the clocks stopped,
so that these are executed again. How many were is free (log entry 4). -/
def State.savePoint (s : State) (k : Nat) : State :=
  s.updThr k fun t =>
    match ((t.back.take (Config.inFlight s.seq k)).takeWhile fun b => b.pend.all (·.val.isSome)).getLast? with
    | some b =>
      if t.ending.isNone then
        { t with pc := b.pc, x := b.x, f := b.f, p := b.p, lp0 := b.lp0, lp1 := b.lp1, fflags := b.fflags, pend := b.pend, wait := none }
      else t
    | none => t

/-- The next step of a walker command (05 R117 to R125; 04 R96). -/
def State.walkStep (s : State) (i : Nat) : Option State :=
  s.walks[i]?.bind fun m => match m.op with
    | .cw .. => s.cwDone i
    | .mig .. => s.migLine i
    | .split .. => s.splitDone i
    | .coll .. => s.collDone i
    | .tlb .. => s.tlbDone i

/-- Walkers go on, for a number of steps, until some threads have every result they are to get. -/
def State.walksOn (ks : List Nat) : Nat → State → State
  | 0, s => s
  | n + 1, s =>
    if ks.all fun k => (s.thr k).settled then s
    else match (List.range s.walks.length).findSome? s.walkStep with
      | some s1 => State.walksOn ks n s1
      | none => s

/-- What the stop of 18 R413 waits for before the workgroups of some cores are saved: results of their threads, and changes of the tile shape
that commands wait behind (02 R42; 12 R257; DEDUCED where clocks have stopped, log entry 111). -/
def State.settleCores (s : State) (cs ks : List Nat) : State := 
  State.walksOn ks (2 ^ 20) (cs.foldl (fun s c => State.engineOn c (2 ^ 20) s) s)

/-- A workgroup is saved from the retained arrays: one that is being restored stays in its save area, and one that is being saved is
saved anew (18 R420; 19 R428). -/
def State.saveNow (s : State) (w : Nat) : State :=
  let g := s.wg w
  if g.st == .restore then s.updWg w fun g => { g with st := .saved, slots := [] }
  else
    let s1 := (if g.leaving then s.requestMet w else s).performFor ((s.threads.filter fun t => t.2.wg == w).map (·.1))
    if g.st == .save then s1.bank w
    else
      let ks := (s1.threads.filter fun t => t.2.wg == w).map (·.1)
      let s2 := ks.foldl State.savePoint s1
      ((s2.updWg w fun g => { g with st := .stop, method := .save }).halt w).bank w

/-- The number of shutdowns and the flags of a quadrant. -/
def State.updQuad (s : State) (d q : Nat) (f : Quadrant → Quadrant) : State :=
  s.updDie d fun x => { x with quads := tmod x.quads q ⟨0, false, false, 0⟩ f }

/-- The courses of a quadrant change mode. -/
def State.quadMode (s : State) (d q : Nat) (f : Course → CMode) : State :=
  [0, 1].foldl (fun s i => s.updCourse (d * 8 + 2 * q + i) fun c => c.enter (f c)) s

/-- `QUADRANT_OVERCURRENT`: a quadrant is shut: its workgroups are saved, its courses go offline, and the shutdown is
recorded and logged (19 R428). Where the save does not complete, what was still in its save area stays there (R430). -/
def execQuadrantOvercurrent (die q : Nat) (s : State) : Out :=
  .next <|
    if !isSDie die || decide (4 ≤ q) || s.quadOff die q then s
    else
      let ws := (s.wgs.filter fun w => w.2.resident && inQuad die q w.2.core).map (·.1)
      let ks := (s.threads.filter fun t => match t.2.place with
        | .slot c _ _ _ => inQuad die q c
        | _ => false).map (·.1)
      let cs := (coresOfDie die).filter (inQuad die q)
      let s2 := if Config.quadSaved s.seq then s.settleCores cs ks else s
      let ok := Config.quadSaved s.seq && (ks.all fun k => (s2.thr k).settled) && cs.all fun c => noCfg (s2.core c).matQ
      let s1 := if ok then ws.foldl State.saveNow s2
        else
          let s0 := ((ws.filter fun w => (s.wg w).st == .restore).foldl State.saveNow s).loseThreads ks die
          { s0 with cores := s0.cores.map fun c =>
              if inQuad die q c.1 then (c.1, { c.2 with copyQ := [], matQ := [], claims := [], filled := false }) else c }
      let s2 := s1.quadMode die q fun _ => .offline
      (s2.updQuad die q fun x => { x with off := true, saved := ok, count := x.count + 1 }).logErr die
        (Config.locator s.seq) 17 0 0

/-- `QSTAT_CLEAR_OFF`: the firmware clears OFF and the courses run again as COURSE_PWR asks (16 R367; 19 R427, R428). -/
def execQstatClearOff (die q : Nat) (s : State) : Out :=
  .next <|
    if isSDie die && s.quadOff die q && s.managed (.quadrant die q) then
      (s.updQuad die q fun x => { x with off := false }).quadMode die q fun c => pwrMode c.pwr
    else s

/-! ### Capture units (19 R431) -/

/-- `MON_SNAP`: a capture unit goes to its shadow set and is reset (19 R431). -/
def execMonSnap (die u : Nat) (s : State) : Out := .next <| if u < 16 then s.updMon die u Mon.snap else s

/-- `MON_SAMPLE`: a capture unit that is enabled takes a sample of a quadrant's current or the die's temperature, the sources that come
from outside (19 R431, R432: sources 3 and 4). What the device itself measures is sampled where it arises. -/
def execMonSample (die u v : Nat) (s : State) : Out :=
  .next <|
    let m := (s.die die).mon u
    if decide (u < 16) && m.takes && (m.ctl.toNat % 64 == 3 || m.ctl.toNat % 64 == 4) then
      s.updMon die u fun m => m.sample (BitVec.ofNat 64 v)
    else s

/-! ### Live service (19 R434) -/

/-- A workgroup on a unit. -/
def unitHolds (u : UnitId) (g : WG) : Bool :=
  match u with
  | .core c => g.core == c
  | .course k => courseOfCore g.core == k
  | .quadrant d q => inQuad d q g.core
  | .die d => dieOfCore g.core == d
  | .copyEngine c => g.core == c
  | .matrixEngine c => g.core == c && g.usesMat
  | _ => false

/-- A thread on a unit, other than by its workgroup. -/
def unitThread (u : UnitId) (t : Thread) : Bool :=
  match u, t.place with
  | .core c, .ctx p x => coreOfCtx p x == c
  | .die d, .ctx p x => dieOfCore (coreOfCtx p x) == d
  | .die d, .bin e _ => e == d
  | .die d, .queue e => e == d
  | .core c, .slot x _ _ _ => x == c
  | .course k, .slot x _ _ _ => courseOfCore x == k
  | .quadrant d q, .slot x _ _ _ => inQuad d q x
  | .die d, .slot x _ _ _ => dieOfCore x == d
  | _, _ => false

/-- A unit with nothing left on it. -/
def State.unitEmpty (s : State) (u : UnitId) : Bool :=
  !(s.wgs.any fun w => w.2.resident && unitHolds u w.2) && !(s.threads.any fun t => unitThread u t.2) &&
  match u with
  | .copyEngine c => (s.core c).copyQ.isEmpty
  | .matrixEngine c => (s.core c).matQ.isEmpty
  | .walker d => !s.walks.any (·.die == d)
  | .die d => !(s.walks.any (·.die == d) || s.wgs.any (·.2.die == d))
  | _ => true

/-- The firmware can move a unit between the states of service: the half of the management logic that has it answers, or it is that
L-die itself (01 R12; DEDUCED, log entry 90). -/
def State.manages (s : State) (u : UnitId) : Bool :=
  s.present (pkgOfDie (unitWord u).1) && (s.managed u || match u with
    | .die d => !isSDie d
    | _ => false)

/-- `UNIT_DRAIN`: placement skips the unit, and its workgroups are pre-empted without bound (19 R434). -/
def execUnitDrain (u : UnitId) (s : State) : Out :=
  .next <|
    if (s.service u).1 = 0 ∧ s.manages u then
      let s1 := s.setService u (1, (s.service u).2)
      ((s1.wgs.filter fun w => w.2.resident && unitHolds u w.2).map (·.1)).foldl (fun s w => s.preempt w noBound false) s1
    else s

/-- A unit is out of service. -/
def State.takeDown (s : State) (u : UnitId) : State :=
  let s1 := s.setService u (2, (s.service u).2)
  match u with
  | .die d => s1.dieLost d
  | _ => s1

/-- `UNIT_OFFLINE`: an empty unit that drains goes offline; the caches of a die have given back what they held (19 R434). -/
def execUnitOffline (u : UnitId) (s : State) : Out :=
  .next <|
    if (s.service u).1 = 1 ∧ s.unitEmpty u ∧ s.manages u then
      (match u with
       | .die d => s.cachesBack d
       | _ => s).takeDown u
    else s

/-- `UNIT_ONLINE`: a unit that is offline returns (19 R434). -/
def execUnitOnline (u : UnitId) (s : State) : Out :=
  .next <| if (s.service u).1 = 2 ∧ s.manages u then s.setService u (0, (s.service u).2) else s

/-- A unit that holds memory or a port, which retires once system software has left it. -/
def passive : UnitId → Bool
  | .stack _ _ | .controller _ _ | .port _ _ => true
  | _ => false

/-- `UNIT_RETIRE`: an offline unit, or memory whose pages have been moved, is retired for good (19 R434, 01 R17). -/
def execUnitRetire (u : UnitId) (s : State) : Out :=
  .next <| if ((s.service u).1 = 2 ∨ passive u) ∧ s.manages u then s.setService u (3, (s.service u).2) else s

/-! ### Firmware (19 R435) and power-on (R436) -/

/-- Every unit of a package that has a service word, with a number. -/
def unitsOf (p : Nat) : List (UnitId × Nat) :=
  ((diesOf p).flatMap fun d => (List.range 160).filterMap (serviceUnit d)).zipIdx

/-- A unit that is offline gets its new image and returns; one whose image fails keeps the old one and says so. -/
def State.swapUnit (s : State) (p : Nat) (u : UnitId × Nat) : State :=
  if (s.service u.1).1 ≠ 2 ∨ !s.manages u.1 then s
  else if Config.verified s.seq (u.2 + 1) then
    (s.setService u.1 (0, 0)).updPkg p fun x => { x with swapped := u.1 :: x.swapped }
  else (s.setService u.1 (0, 19)).logErr (unitWord u.1).1 (unitAddr u.1) 19 0 0

/-- The anti-rollback counter advances once every unit runs the new set. -/
def State.updateDone (s : State) (p : Nat) : State :=
  let x := s.pkg p
  match x.staged with
  | some v =>
    if (unitsOf p).all fun u => x.swapped.contains u.1 || (s.service u.1).1 == 3 then
      s.updPkg p fun x => { x with version := v, rollback := v, staged := none, swapped := [] }
    else s
  | none => s

/-- `FIRMWARE_UPDATE`: a manifest of version `v` is accepted, or goes on being installed, and the units that are offline are
swapped (19 R435). -/
def execFirmwareUpdate (pkg v : Nat) (s : State) : Out :=
  .next <|
    if !s.present pkg then s
    else
      let x := s.pkg pkg
      let known := x.staged == some v
      if !known && !(Config.verified s.seq 0 && decide (x.rollback ≤ v)) then s
      else
        let s1 := if known then s else s.updPkg pkg fun x => { x with staged := some v, swapped := [] }
        ((unitsOf pkg).foldl (fun s u => s.swapUnit pkg u) s1).updateDone pkg

/-- The package a thread belongs to, in a save area and between dies too. -/
def State.threadPkg (s : State) (k : Nat) (t : Thread) : Nat :=
  match t.place with
  | .saved => pkgOfDie (s.wg t.wg).die
  | .flight => pkgOfDie ((s.msgs.findSome? fun m => match m with
      | .thread d n => if n = k then some d else none
      | _ => none).getD 0)
  | _ => t.pkg

/-- Everything of a package is gone, its memory with it; what is RETIRED stays so (19 R434). Marks and invocations of other packages see
its dies lost (17 R373, R385). -/
def State.withoutPkg (s0 : State) (p : Nat) : State :=
  let d := fun (x : Nat) => pkgOfDie x != p
  let ds := (diesOf p).filter fun _ => s0.present p
  let s1 := ds.foldl State.dieLost (ds.foldl (fun s x => s.setService (.die x) (2, 0)) s0)
  let s2 := (s1.msgs.filterMap fun m => match m with
    | .enqueue m up => if d (markDie up) then none else some (m, up)
    | _ => none).foldl (fun s x => s.breakMark x.1 cUpstream x.2) s1
  let s := ((s2.threads.filter fun t => t.2.place == .flight && s2.threadPkg t.1 t.2 == p && !t.2.spawned).map (·.1)).foldl State.dropThread s2
  { s with
    mem := s.mem.filter fun c => paPkg c.1 != p
    slabs := s.slabs.filter fun l => d (l.1 / 2 ^ 52) && paPkg (l.1 % 2 ^ 52) != p
    soft := s.soft.filter fun e => paPkg e.1 != p
    poison := s.poison.filter fun a => paPkg a != p
    dir := s.dir.filter fun e => paPkg (e.1 % 2 ^ 52) != p && e.1 / 2 ^ 52 != p + 1
    copies := s.copies.filter fun c => keyAgent c.1 / 512 != p && paPkg (keySec c.1) != p
    tlbs := s.tlbs.filter fun t => d t.held.onDie
    walkCache := s.walkCache.filter fun e => d e.die
    icache := s.icache.filter fun e => d (dieOfCore e.1) && paPkg e.2.1 != p
    locks := s.locks.filter fun a => paPkg a != p
    threads := s.threads.filter fun t => s.threadPkg t.1 t.2 != p
    gang := none
    wgs := s.wgs.filter fun w => d w.2.die
    groups := s.groups.filter fun g => g.2.members.all fun w => d (s.wg w).die
    cores := s.cores.filter fun c => d (dieOfCore c.1)
    courses := s.courses.filter fun c => d (dieOfCourse c.1)
    dies := s.dies.filter fun x => d x.1
    ctxs := s.ctxs.filter fun c => c.1 / 256 != p
    pkgs := s.pkgs.filter fun x => x.1 != p
    units := s0.units.filter fun u => d (unitWord u.1).1 || u.2.1 == 3
    walks := s.walks.filter fun w => d w.die
    msgs := s.msgs.filter fun m => d m.die
    away := if s.pkgs.all fun x => x.1 == p then [] else s.away
    late := none }

/-- The ports of a package that are wired to a present package come up, with their ends there (20 R445). -/
def State.wireUp (s : State) (p : Nat) : State :=
  (List.range 8).foldl (fun s n =>
    let w := (Config.wiring p n).toNat
    let q := w / 2 % 16
    let j := w / 2 ^ 5
    if w % 2 = 1 && q != p && s.present q && s.online (.port p n) && s.online (.port q j) then
      let end1 := fun (s : State) (a i b k : Nat) => s.updPkg a fun x =>
        { x with links := tset x.links i ⟨true, b, k, ((tget x.links i).map (·.replays)).getD 0⟩ }
      end1 (end1 s p n q j) q j p n
    else s) s

/-- The ports of a package that are up. -/
def Pkg.upMask (x : Pkg) : Nat := x.links.foldl (fun m l => if l.2.up then m ||| 2 ^ l.1 else m) 0

/-- Route tables name for every pair of packages the ports of the domain configuration that are up (20 R445, R446). -/
def State.routeAll (s : State) : State :=
  { s with pkgs := s.pkgs.map fun a => (a.1, { a.2 with
      routes := s.pkgs.filterMap fun b => if a.1 = b.1 then none else some (b.1, (Config.route a.1 b.1).toNat &&& a.2.upMask) }) }

/-- A package that comes up: its units in service but for those that failed their step, its courses in Normal, its ports linked, and
context 0 of L-core 0 on DIE_ID 0 at the manifest's entry address (19 R436; log entry 5). The anti-rollback counter stays, and advances
to the manifest's version if every unit runs its set (R435). -/
def State.bringUp (s : State) (p v back : Nat) : State :=
  let k := s.nextId
  let us := (unitsOf p).filter fun u => (s.service u.1).1 != 3
  let ok := us.filter fun u => Config.bringUp s.seq u.2
  let off := us.filter fun u => !Config.bringUp s.seq u.2
  let cs := ((diesOf p).filter isSDie).flatMap fun d => (List.range 8).map (d * 8 + ·)
  let s1 : State := { s with
    pkgs := tset s.pkgs p { Pkg.init with version := v, rollback := back, staged := some v, swapped := ok.map (·.1) }
    ctxs := tset s.ctxs (p * 256) { Ctx.init with thread := some k }
    threads := tset s.threads k { bootThread with place := .ctx p 0 }
    courses := cs.foldl (fun m c => tset m c Course.init) s.courses
    units := s.units ++ off.map fun u => (u.1, 2, 0)
    nextId := k + 1 }
  ((s1.wireUp p).routeAll).updateDone p

/-- `POWER_ON`: a package starts afresh with a manifest that verifies and whose version is not below the anti-rollback counter (19 R435,
R436). -/
def execPowerOn (pkg : Nat) (s : State) : Out :=
  .next <|
    let back := (s.pkg pkg).rollback
    if decide (pkg < 16) && Config.verified s.seq 0 && decide (back ≤ Config.manifest s.seq) then
      (s.withoutPkg pkg).bringUp pkg (Config.manifest s.seq) back
    else s

/-! ### Links (20 R446, R447; 18 R418) -/

/-- A link port changed. -/
def State.updLink (s : State) (p n : Nat) (f : Link → Link) : State :=
  s.updPkg p fun x => { x with links := tmod x.links n ⟨false, 0, 0, 0⟩ f }

/-- `FLIT_RECEIVE`: a flit that fails its CRC is replayed (20 R446). -/
def execFlitReceive (pkg port : Nat) (ok : Bool) (s : State) : Out :=
  .next <| if ok || !s.present pkg then s else s.updLink pkg port fun l => { l with replays := l.replays + 1 }

/-- `LINK_PORT_DOWN`: a port goes down and out of every mask (20 R446). -/
def execLinkPortDown (pkg port : Nat) (s : State) : Out :=
  .next <|
    if !s.present pkg then s
    else (s.updLink pkg port fun l => { l with up := false }).updPkg pkg fun x =>
      { x with routes := x.routes.map fun r => (r.1, if r.2.testBit port then r.2 - 2 ^ port else r.2) }

/-- `LINK_TIMEOUT`: the accesses to other packages of a thread's next instruction get no answer, and end with LINK_TIMEOUT
(18 R418). -/
def execLinkTimeout (t : Nat) (s : State) : Out :=
  .next <| if (tget s.threads t).isSome then { s with late := some t } else s

/-- `UCIE_RETRAIN_FAIL`: a die that cannot be reached goes offline with code 18 (20 R447). -/
def execUcieRetrainFail (die : Nat) (s : State) : Out :=
  .next <|
    if s.dieUp die then (s.logErr die (Config.locator s.seq) 18 0 0).takeDown (.die die) else s

/-- `UCIE_FLIT_RETRY`: a retried flit counts in ERR_CE of both dies (20 R447). -/
def execUcieFlitRetry (die other : Nat) (s : State) : Out :=
  .next <|
    if die ≠ other ∧ pkgOfDie die = pkgOfDie other ∧ s.present (pkgOfDie die) then
      (s.updDie die fun d => { d with errCe := d.errCe + 1 }).updDie other fun d => { d with errCe := d.errCe + 1 }
    else s

end Sys2Proof.Machine
end

