-- ==== Sys2Proof/Machine/Network.lean ====
section
/-!
DEFINITION. The Ethernet ports: frames and their classifier (20 R437), ring entries (R438 to R440), RoCEv2 (R441, R442) and
timestamps (R443, R444).
-/

namespace Sys2Proof.Machine

/-! ### Ports -/

/-- A port of a package. -/
def State.port (s : State) (p n : Nat) : Port := (tget (s.pkg p).ports n).getD Port.init
/-- The coherence agent of a port (05 R102). -/
def portAgent (p n : Nat) : Nat := p * 512 + 328 + n
/-- A port that receives and transmits (R437). -/
def State.portRuns (s : State) (p n : Nat) : Bool :=
  decide (n < 4) && s.dieUp (portDie p n) && (s.port p n).en && (s.port p n).up
/-- An error response a port got, in the error log of its L-die (R440). -/
def State.portError (s : State) (p n : Nat) (e : Nat × Nat) : State :=
  s.logErr (portDie p n) (BitVec.ofNat 64 e.2) e.1 0 0

/-! ### Timestamps (R443, R444) -/

/-- An instant within 4 ns of a reading of TIME. -/
def nearTime (t off : Nat) : Nat := t + off % 9 - 4

/-- The timestamp of the next entry of a ring, never below the one before; ring `k` of `stamps`. -/
def State.stamp (s : State) (p n k : Nat) : State × Nat :=
  let v := Nat.max (nearTime (s.timeOf p).toNat (Config.stampOff s.seq)) ((tget (s.port p n).stamps k).getD 0)
  (s.updPort p n fun x => { x with stamps := tset x.stamps k v }, v)

/-- Bytes 16 to 31 of an entry. -/
def stampBytes (t : Nat) : List Byte := bytesOf 16 (t / 10 ^ 9 % 2 ^ 48 + t % 10 ^ 9 * 2 ^ 48)

/-! ### Ring entries (R438, R439) -/

/-- Where entry HEAD of a ring stands. -/
def Ring.entry (r : Ring) : Nat := r.base + 32 * (r.head.toNat % 2 ^ r.log2n)
/-- A ring with an entry for the port. -/
def Ring.ready (r : Ring) : Bool := r.en && r.head != r.tail
/-- A ring moves on. -/
def Ring.next (r : Ring) : Ring := { r with head := r.head + 1 }

/-- BUF. -/
def entBuf (b : List Byte) : Nat := natOf (b.take 8)
/-- Bytes 8 to 15. -/
def entMeta (b : List Byte) : Nat := natOf ((b.drop 8).take 8)
/-- CAP. -/
def metaCap (m : Nat) : Nat := m % 2 ^ 16
/-- LEN. -/
def metaLen (m : Nat) : Nat := m / 2 ^ 16 % 2 ^ 16
/-- DONE. -/
def metaDone (m : Nat) : Bool := m.testBit 32
/-- Bytes 8 to 15 as the port writes them. -/
def metaWord (cap len : Nat) (trunc err : Bool) (flow : Nat) : List Byte :=
  bytesOf 8 (cap % 2 ^ 16 + len % 2 ^ 16 * 2 ^ 16 + 2 ^ 32 + (if trunc then 2 ^ 33 else 0) + (if err then 2 ^ 34 else 0) +
    flow % 2 ^ 24 * 2 ^ 40)
/-- BUF or CAP is out of range, or the entry is DONE (R438, R439); BUF is a physical address, with bits [63:52] 0 (R440; 04 R78). -/
def badEntryOf (buf cap : Nat) (done : Bool) : Bool :=
  done || buf % 64 != 0 || decide (2 ^ 52 ≤ buf) || cap % 64 != 0 || decide (cap < 64 ∨ 16384 < cap)

/-- A write by a port; an error response goes to the log. -/
def State.portWrite (s : State) (p n pa : Nat) (bs : List Byte) : State × Bool :=
  match s.homeWrite (portAgent p n) pa bs with
  | (s1, none) => (s1, true)
  | (s1, some e) => (s1.portError p n e, false)

/-- Whether every piece of a run can be written: the first error response, with its address. -/
def State.runCheck (s : State) (ag : Nat) : List (Nat × Nat) → State × Option (Nat × Nat)
  | [] => (s, none)
  | (a, n) :: t =>
    match s.ask .coh ag (s.fwd a) (n == 64) with
    | (s1, some c) => (s1, some (c, a))
    | (s1, none) => State.runCheck s1 ag t

/-- A write by a port of all of a buffer or of nothing (R438, ERR): an error response goes to the log. -/
def State.portWriteAll (s : State) (p n pa : Nat) (bs : List Byte) : State × Bool :=
  match s.runCheck (portAgent p n) (piecesOf pa bs.length) with
  | (s1, some e) => (s1.portError p n e, false)
  | (s1, none) => s1.portWrite p n pa bs

/-- The end of an entry: bytes 16 to 31, then bytes 8 to 15 (R440). -/
def State.endEntry (s : State) (p n a k : Nat) (m : List Byte) : State :=
  let t := s.stamp p n k
  let w := t.1.portWrite p n (a + 16) (stampBytes t.2)
  (w.1.portWrite p n (a + 8) m).1

/-- A receive ring moves on past an entry, which pends the port's interrupt where IRQ_MASK asks for it (R437). -/
def State.rxNext (s : State) (p n r : Nat) : State :=
  s.updPort p n fun x => { x with
    rx := tmod x.rx r Ring.init Ring.next, irqs := if x.irqMask.getLsbD r then x.irqs + 1 else x.irqs }

/-- A frame for a ring that has no entry for it is dropped (R439). -/
def State.portDrop (s : State) (p n : Nat) : State := s.updPort p n fun x => { x with drop := x.drop + 1 }

/-- The time from a frame's timestamp to its ring write goes to the capture units that measure it (19 R432, source 7). -/
def State.measureIngress (s : State) (p n : Nat) : State := s.measure (portDie p n) 7 n (Config.latency s.seq : Nat)

/-- A frame or a payload goes into entry HEAD of a receive ring: the buffer, then the entry; with the physical address
of the buffer, if it was written (R439, R440). -/
def State.rxFill (s : State) (p n r : Nat) (bs : List Byte) (flow : Nat) : State × Option Nat :=
  let q := (tget (s.port p n).rx r).getD Ring.init
  if !q.ready then (s.portDrop p n, none)
  else
    match s.homeRead (portAgent p n) q.entry 32 with
    | (s1, .error e) => ((s1.portError p n e).rxNext p n r, none)
    | (s1, .ok b) =>
      let cap := metaCap (entMeta b)
      if badEntryOf (entBuf b) cap (metaDone (entMeta b)) then
        ((s1.endEntry p n q.entry r (metaWord cap bs.length false true flow)).rxNext p n r, none)
      else
        let w := (s1.measureIngress p n).portWriteAll p n (entBuf b) (bs.take cap)
        ((w.1.endEntry p n q.entry r (metaWord cap bs.length (w.2 && decide (cap < bs.length)) (!w.2) flow)).rxNext p n r,
          if w.2 then some (entBuf b) else none)

/-- A completion entry of a packet: BUF, the timestamp, then bytes 8 to 15 (R442). -/
def State.complete (s : State) (p n r : Nat) (buf : Option Nat) (len qp : Nat) (ok : Bool) : State :=
  let q := (tget (s.port p n).rx r).getD Ring.init
  if !q.ready then s.portDrop p n
  else
    match s.homeRead (portAgent p n) q.entry 32 with
    | (s1, .error e) => (s1.portError p n e).rxNext p n r
    | (s1, .ok b) =>
      let m := entMeta b
      let w := s1.portWrite p n q.entry (bytesOf 8 (buf.getD 0))
      (w.1.endEntry p n q.entry r (metaWord (metaCap m) len false (!ok || metaDone m) qp)).rxNext p n r

/-! ### Frames (R437) -/

/-- Two bytes of a frame, the higher first. -/
def be16 (bs : List Byte) (i : Nat) : Nat := ((bs[i]?).getD 0).toNat * 256 + ((bs[i + 1]?).getD 0).toNat
/-- A frame with an IEEE 802.1Q tag. -/
def vlanTagged (bs : List Byte) : Bool := be16 bs 12 == 0x8100
/-- Where the EtherType stands. -/
def etypeAt (bs : List Byte) : Nat := if vlanTagged bs then 16 else 12
/-- A RoCEv2 frame: UDP to port 4791 over IPv4 or IPv6 (R441). -/
def isRoce (bs : List Byte) : Bool :=
  let h := etypeAt bs + 2
  let byte := fun i => ((bs[i]?).getD 0).toNat
  (be16 bs (h - 2) == 0x0800 && byte (h + 9) == 17 && be16 bs (h + byte h % 16 * 4 + 2) == 4791) ||
  (be16 bs (h - 2) == 0x86DD && byte (h + 6) == 17 && be16 bs (h + 42) == 4791)

/-- A classifier entry that takes a frame. -/
def Cls.takes (c : Cls) (bs : List Byte) : Bool :=
  c.valid && c.etype.toNat == be16 bs (etypeAt bs) &&
  (!c.vmatch || (vlanTagged bs && c.vlan.toNat == be16 bs 14 % 2 ^ 12))

/-- The ring of a frame and the FLOW of its entry (R437, R438). -/
def Port.classify (x : Port) (bs : List Byte) : Nat × Nat :=
  match x.cls.find? fun c => c.2.takes bs with
  | some c => (c.2.ring.toNat, c.1)
  | none => (0, 0xFFFFFF)

/-- Bytes of an event. -/
def frameOf (bs : List Nat) : List Byte := bs.map (BitVec.ofNat 8)

/-- `FRAME_RECEIVE`: a frame that is not RoCEv2 goes to the ring its classifier entry names (20 R437, R439, R440). -/
def execFrameReceive (pkg port : Nat) (bytes : List Nat) (s : State) : Out :=
  let bs := frameOf bytes
  .next <|
    if !s.portRuns pkg port || isRoce bs then s
    else
      let c := (s.port pkg port).classify bs
      (s.rxFill pkg port c.1 bs c.2).1

/-- A transmit ring moves on. -/
def State.txNext (s : State) (p n r : Nat) : State := s.updPort p n fun x => { x with tx := tmod x.tx r Ring.init Ring.next }

/-- Entry HEAD of a transmit ring is sent, if the ring has one (R439). -/
def State.transmit (s : State) (p n r : Nat) : State :=
  let q := (tget (s.port p n).tx r).getD Ring.init
  if !q.ready then s
  else
    match s.homeRead (portAgent p n) q.entry 32 with
    | (s1, .error e) => (s1.portError p n e).txNext p n r
    | (s1, .ok b) =>
      let m := entMeta b
      let flow := m / 2 ^ 40
      if badEntryOf (entBuf b) (metaCap m) (metaDone m) then
        (s1.endEntry p n q.entry (64 + r) (metaWord (metaCap m) (metaLen m) false true flow)).txNext p n r
      else
        match s1.homeRead (portAgent p n) (entBuf b) (metaLen m) with
        | (s2, .error e) =>
          ((s2.portError p n e).endEntry p n q.entry (64 + r) (metaWord (metaCap m) (metaLen m) false true flow)).txNext p n r
        | (s2, .ok d) =>
          ((s2.updPort p n fun x => { x with sent := x.sent ++ [d] }).endEntry p n q.entry (64 + r)
            (metaWord (metaCap m) (metaLen m) false false flow)).txNext p n r

/-- `FRAME_TRANSMIT`: the port sends the transmit entry at HEAD (20 R439). -/
def execFrameTransmit (pkg port r : Nat) (s : State) : Out :=
  .next <| if s.portRuns pkg port && decide (r < 64) then s.transmit pkg port r else s

/-! ### RoCEv2 (R441, R442) -/

/-- Who accesses a region's memory. -/
def Region.ctx (g : Region) (p n : Nat) : MCtx := ⟨portAgent p n, none, portDie p n, g.asid, g.ptBase, false, 0⟩

/-- A range lies in a region that gives the right. -/
def Region.covers (g : Region) (va n : Nat) (w : Bool) : Bool :=
  decide (g.lo ≤ va ∧ va + n ≤ g.lo + g.len) && (if w then g.w else g.r)

/-- The translated pieces of a payload, with the region each leaf maps; a piece that cannot be translated or would draw an
error response is named. -/
inductive RPieces where
  | ok (l : List (Nat × Nat × RegionKind))
  | bad (va : Nat)
  | wait
deriving DecidableEq, Repr

/-- Every piece is translated and checked before any byte moves. -/
def State.roceMap (s : State) (c : MCtx) (k : XKind) : List (Nat × Nat) → State × RPieces
  | [] => (s, .ok [])
  | (va, n) :: t =>
    match s.xlate c (BitVec.ofNat 64 va) k with
    | (s1, .fault _) => (s1, .bad va)
    | (s1, .wait) => (s1, .wait)
    | (s1, .ok pa leaf) =>
      let r := regionOf leaf
      match s1.ask r c.ag (s1.fwd pa) (k == .store && n == 64) with
      | (s2, some _) => (s2, .bad va)
      | (s2, none) =>
        match s2.roceMap c k t with
        | (s3, .ok l) => (s3, .ok ((pa, n, r) :: l))
        | x => x

/-- The payload is written. -/
def State.rocePut (s : State) (ag : Nat) : List (Nat × Nat × RegionKind) → List Byte → State
  | [], _ => s
  | (pa, n, r) :: t, bs => ((s.secStore r ag pa n (natOf (bs.take n)) 0).1).rocePut ag t (bs.drop n)

/-- The data are read. -/
def State.roceGet (s : State) (ag : Nat) : List (Nat × Nat × RegionKind) → State × List Byte
  | [] => (s, [])
  | (pa, n, r) :: t =>
    let x := s.secLoad r ag pa n
    let v := match x.2 with
      | .ok v => v
      | .error _ => 0
    let y := x.1.roceGet ag t
    (y.1, bytesOf n v ++ y.2)

/-- A port answers a peer. -/
def State.answer (s : State) (p n : Nat) (r : Nat × Nat × List Byte) : State :=
  s.updPort p n fun x => { x with replies := x.replies ++ [r] }

/-- A packet of a queue pair that the port knows, whose path MTU is one of the three and allows the payload; a port has at most 4,096 queue
pairs (R441). -/
def State.withQp (s : State) (p n qp len : Nat) (k : State → Qp → State) : State :=
  match s.portRuns p n, tget (s.port p n).qps qp with
  | true, some q => if (q.mtu = 1024 ∨ q.mtu = 2048 ∨ q.mtu = 4096) ∧ len ≤ q.mtu ∧ (s.port p n).qps.length ≤ 4096 then k s q else s
  | _, _ => s

/-- Sequence numbers of some packets are taken. -/
def State.psnNext (s : State) (p n qp : Nat) (q : Qp) (k : Nat := 1) : State :=
  s.updPort p n fun x => { x with qps := tset x.qps qp { q with psn := (q.psn + k) % 2 ^ 24 } }

/-- A packet the region's checks refuse: a remote-access NAK and code 9 with the virtual address (R442). -/
def State.refuse (s : State) (p n qp va : Nat) (q : Qp) : State :=
  ((((s.psnNext p n qp q).logErr (portDie p n) (BitVec.ofNat 64 va) 9 0 0).answer p n (qp, 1, [])).complete p n q.cq none 0 qp false)

/-- A SEND: its payload goes to the queue pair's receive ring. -/
def State.roceSendOp (s : State) (p n qp : Nat) (bytes : List Nat) : State :=
  s.withQp p n qp bytes.length fun s q =>
    let r := s.rxFill p n q.rx (frameOf bytes) qp
    (((r.1.psnNext p n qp q).answer p n (qp, 0, [])).complete p n q.cq (if bytes.isEmpty then none else r.2) bytes.length qp r.2.isSome)

/-- `ROCE_SEND`: a SEND payload is written to the queue pair's receive ring (20 R441, R442). -/
def execRoceSend (pkg port qp : Nat) (bytes : List Nat) (s : State) : Out := .next (s.roceSendOp pkg port qp bytes)

/-- `ROCE_SEND_IMM`: a SEND with immediate is delivered the same way; the entries have no place for the immediate (20 R438,
R441). -/
def execRoceSendImm (pkg port qp : Nat) (bytes : List Nat) (s : State) : Out := .next (s.roceSendOp pkg port qp bytes)

/-- A payload goes to a region's memory, all of it or none. -/
def State.roceWriteOp (s : State) (p n qp region va : Nat) (bytes : List Nat) : State :=
  s.withQp p n qp bytes.length fun s q =>
    match (s.port p n).regions |> (tget · region) with
    | none => s.refuse p n qp va q
    | some g =>
      if !g.covers va bytes.length true then s.refuse p n qp va q
      else match s.roceMap (g.ctx p n) .store (piecesOf va bytes.length) with
        | (_, .wait) => s
        | (s1, .bad x) => s1.refuse p n qp x q
        | (s1, .ok l) =>
          ((((s1.rocePut (portAgent p n) l (frameOf bytes)).psnNext p n qp q).answer p n (qp, 0, [])).complete p n q.cq
            (l.head?.map (·.1)) bytes.length qp true)

/-- `ROCE_RDMA_WRITE`: an RDMA WRITE packet (20 R442). -/
def execRoceRdmaWrite (pkg port qp region va : Nat) (bytes : List Nat) (s : State) : Out :=
  .next (s.roceWriteOp pkg port qp region va bytes)

/-- `ROCE_RDMA_WRITE_IMM`: an RDMA WRITE with immediate is performed the same way (20 R442). -/
def execRoceRdmaWriteImm (pkg port qp region va : Nat) (bytes : List Nat) (s : State) : Out :=
  .next (s.roceWriteOp pkg port qp region va bytes)

/-- `ROCE_READ_RESPONSE`: the response to a READ of this device (20 R442). -/
def execRoceReadResponse (pkg port qp region va : Nat) (bytes : List Nat) (s : State) : Out :=
  .next (s.roceWriteOp pkg port qp region va bytes)

/-- The packets of a READ response: at most the path MTU each (R441). -/
def splitAt (mtu : Nat) : Nat → List Byte → List (List Byte)
  | 0, _ => []
  | n + 1, bs => bs.take mtu :: splitAt mtu n (bs.drop mtu)

/-- `ROCE_RDMA_READ`: a region's memory is read for a peer (20 R442). -/
def execRoceRdmaRead (pkg port qp region va n : Nat) (s : State) : Out :=
  .next <| s.withQp pkg port qp 0 fun s q =>
    match tget (s.port pkg port).regions region with
    | none => s.refuse pkg port qp va q
    | some g =>
      if !g.covers va n false then s.refuse pkg port qp va q
      else match s.roceMap (g.ctx pkg port) .load (piecesOf va n) with
        | (_, .wait) => s
        | (s1, .bad x) => s1.refuse pkg port qp x q
        | (s1, .ok l) =>
          let d := s1.roceGet (portAgent pkg port) l
          let rs := splitAt q.mtu (Nat.max 1 ((n + q.mtu - 1) / q.mtu)) d.2
          ((rs.foldl (fun s r => s.answer pkg port (qp, 0, r)) (d.1.psnNext pkg port qp q rs.length)).complete pkg port q.cq none n qp true)

/-- `ROCE_ATOMIC`: atomics are answered with a NAK for an invalid request (20 R441). -/
def execRoceAtomic (pkg port qp : Nat) (s : State) : Out :=
  .next <| s.withQp pkg port qp 0 fun s q =>
    (((s.psnNext pkg port qp q).answer pkg port (qp, 2, [])).complete pkg port q.cq none 0 qp false)

/-- `ETHERNET_LINK_CHANGE`: a port's link comes up or goes down (20 R437). -/
def execEthernetLinkChange (pkg port : Nat) (up : Bool) (s : State) : Out :=
  .next <| if s.present pkg && decide (port < 4) then s.updPort pkg port fun x => { x with up := up } else s

end Sys2Proof.Machine
end

