-- ==== Sys2Proof/Machine/Agenda.lean ====
section
/-!
DEFINITION. The device's own next step: of the steps that need no agent outside the device, the first whose condition holds.
The order in which they are tried turns with the step, so that none is passed over for ever; it is the model's choice
(log entry 3), and the agenda can ask for any other.
-/

namespace Sys2Proof.Machine

/-- The outcome of an event, if its condition holds. -/
@[inline] def evIf (b : Bool) (o : Out) : Option Out := if b then some o else none

/-- A list from another start, round to where it began. -/
def turned {α : Type} (n : Nat) (l : List α) : List α := l.drop (n % l.length) ++ l.take (n % l.length)

/-- The first outcome a function finds along a table. -/
def firstEv {α : Type} (l : List (Nat × α)) (f : Nat → α → Option Out) : Option Out := l.findSome? fun x => f x.1 x.2

/-- An ending thread that can go on: it has drained and not left its workgroup, or its exit entry can be written, or it has
none (15 R332, R344). -/
def State.exitReady (s : State) (k : Nat) (t : Thread) : Bool :=
  t.ending.isSome && (t.left || t.drained) &&
  (!t.left || (s.die t.die).exq.canWrite || (t.onL && !((s.identify k).thr k).spawned && ((s.identify k).thr k).mark.isNone))

/-- A drained thread whose destination has room (15 R335). -/
def State.sendReady (s : State) (t : Thread) : Bool :=
  match t.wait, t.move with
  | some .send, some m => ((s.destOf t m).map s.roomAt).getD false
  | _, _ => false

/-- The steps of threads: the oldest access that is not performed is, the oldest early value goes (13 R475), threads end or travel, and wake
events end waits on words. -/
def State.threadEvent (s : State) : Option Out :=
  if !s.stores.isEmpty then some (.next (s.performOne 0))
  else if !s.views.isEmpty then some (.next { s with views := s.views.dropLast })
  else firstEv (turned (s.seq / 20) s.threads) fun k t =>
    if s.exitReady k t then some (execExitQueueWrite k s)
    else if s.sendReady t then some (execMigrateSend k s)
    else if t.onWord && t.rel == some 1 then some (execWmonWake k s)
    else none

/-- A message that can be taken where it arrives. -/
def State.msgEvent (s : State) : Option Out :=
  firstEv (turned (s.seq / 20) (s.msgs.zipIdx.map fun m => (m.2, m.1))) fun i m =>
    match m with
    | .thread d _ => if isSDie d then evIf (s.arrival i).isSome (execThreadArrival i s) else evIf (s.arqStep d).isSome (execArrivalQueueWrite d s)
    | .invoke d _ | .orphan d _ _ => if isSDie d then evIf (s.arrival i).isSome (execThreadArrival i s) else evIf (s.arqStep d).isSome (execArrivalQueueWrite d s)
    | .enqueue _ _ => some (execRinvEnqueue i s)
    | .resolve _ _ _ => some (execMarkResolve i s)
    | .broke _ _ _ => some (execMarkBreak i s)
    | .cancel m _ => evIf (!s.cancelHeld m) (execMarkBreak i s)

/-- A launch that elects a keystone, or a participant that asks for a block (15 R327). -/
def State.launchEvent (s : State) : Option Out :=
  firstEv (turned (s.seq / 20) s.dies) fun d x => firstEv x.levels fun i lv =>
    match lv.launch with
    | none => none
    | some l =>
      let n := d * 4096 + i
      if !lv.final && s.needsElection (s.launchNamed n) l then some (execKeystoneElection n s)
      else (((s.participants (s.launchNamed n) l).find? (s.canAsk (s.launchNamed n))).map fun e => execKeystoneBlockRequest n e s)

/-- The steps of workgroups: placement, pre-emption and restoring (15 R323; 18 R413, R416), and lane-wait cycles (11 R250). -/
def State.wgEvent (s : State) : Option Out :=
  firstEv (turned (s.seq / 20) s.wgs) fun w g =>
    match g.st with
    | .released => evIf ((s.placeable w && s.placeTurn w) || (s.nextVictim w).isSome) (execWorkgroupPlace w s)
    | .stop => evIf (s.canStop w && (g.method == .flush || s.saveTurn w)) (execWorkgroupStopped w s)
    | .save => some (execSaveCommit w s)
    | .saved => evIf (((s.restorePlan w).map (s.restoreTurn w)).getD false) (execRestoreStart w s)
    | .restore => some (execRestoreComplete w s)
    | .run | .drain => evIf (!(s.laneCycle w).isEmpty) (execLaneWaitCycle w s)
    | .flush | .ended => none

/-- The steps of the engines of S-cores (06 R143, 12 R257 to R266). -/
def State.engineEvent (s : State) : Option Out :=
  firstEv (turned (s.seq / 20) s.cores) fun c _ =>
    if (s.grantClaim c).isSome then some (execMclaimWGrant c s)
    else if (s.deadlocked c).isSome then some (execClaimDeadlock c s)
    else if s.outranked c false then some (execEnginePreempt c false s)
    else if s.outranked c true then some (execEnginePreempt c true s)
    else if (s.copyDone c).isSome then some (execCopyComplete c s)
    else if (s.applyCfg c).isSome then some (execMcfgApply c s)
    else if (s.matStep c).isSome then some (execMatrixPerform c s)
    else if (s.copyStep c true).isSome then some (execCopyChunkLand c s)
    else if (s.copyStep c false).isSome then some (execCopyChunkRead c s)
    else none

/-- The steps of walkers and migration engines (05 R117 to R125; 18 R417). -/
def State.walkEvent (s : State) : Option Out :=
  firstEv (turned (s.seq / 20) (s.walks.zipIdx.map fun m => (m.2, m.1))) fun i m =>
    match m.op with
    | .cw .. => evIf (s.cwDone i).isSome (execCwWalkComplete i s)
    | .mig .. => evIf (s.migLine i).isSome (execPgMigLine i s)
    | .split .. => evIf (s.splitDone i).isSome (execPgSplitComplete i s)
    | .coll .. => evIf (s.collDone i).isSome (execPgCollComplete i s)
    | .tlb .. => evIf (s.tlbDone i).isSome (execTlbInvComplete i s)

/-- An interrupt that a context takes now (18 R410). -/
def State.irqEvent (s : State) : Option Out :=
  firstEv s.ctxs fun key c =>
    evIf ((s.irqSource key).isSome && !c.hold && s.coreOn (coreOfCtx (key / 256) (key % 256)) &&
      match c.thread with
      | some k => s.takesAsync k && !(s.thr k).idles
      | none => true) (execInterrupt key s)

/-- The core of a course that issues a synthetic grout slot now (16 R353). -/
def State.synCore (s : State) (k : Nat) : Option Nat :=
  ((List.range 4).map (coreOfTile k)).find? fun x => s.synLeft x == some 0

/-- The end of a course's window, a mode change that is due, and synthetic grout slots (16 R351, R353, 19 R427). -/
def State.courseEvent (s : State) : Option Out :=
  firstEv (turned (s.seq / 20) s.courses) fun k c =>
    if c.pwrWait == some 0 then some (execCourseModeChange k s)
    else (s.synCore k).elim none (fun x => some (execSyntheticGroutSlot x s)) <|> evIf (decide (64 ≤ c.clock) && s.courseUp k) (execGovernorSample k s)

/-- Frames that wait in a transmit ring (20 R439). -/
def State.portEvent (s : State) : Option Out :=
  firstEv s.pkgs fun p x => firstEv x.ports fun n q =>
    if s.portRuns p n then firstEv q.tx fun r y => evIf y.ready (execFrameTransmit p n r s) else none

/-- Nanoseconds for some clocks of an S-core or L-core (00 R4). -/
def nsOf (l : Bool) (clocks : Nat) : Nat := if clocks = 0 then 0 else clocks * 10 / (if l then 34 else 19) + 1

/-- What time alone brings, with the nanoseconds it still takes: the end of a wait, of a bin's timer, of a drain, and the TIMECMP of a context
that enables its interrupt. -/
def State.timers (s : State) : List (Nat × Out) :=
  (s.threads.filterMap fun x =>
    match x.2.wait with
    | some .wfi => if x.2.onL then none else some (nsOf false (s.clocksLeft x.1), execWfiTimeout x.1 s)
    | some (.wmon _ _ _) => some (nsOf x.2.onL (s.clocksLeft x.1), execWmonTimeout x.1 s)
    | _ => none) ++
  ((s.dies.flatMap fun d => d.2.bins.filterMap fun b => (s.binLeft d.1 b.1).map fun n => (n, execBinTimer d.1 b.1 s)) ++
   s.wgs.filterMap fun w => (s.drainLeft w.1).map fun n => (n, execDrainDeadline w.1 s)) ++
  s.ctxs.filterMap fun c =>
    let now := s.timeOf (c.1 / 256)
    if c.2.irqEn.getLsbD 0 && now.ult c.2.timecmp then some ((c.2.timecmp - now).toNat, execTimecmpReached c.1 s) else none

/-- What time has brought. -/
def State.timerEvent (s : State) : Option Out := (s.timers.find? fun x => x.1 == 0).map (·.2)

/-- With nothing left to do, time runs to the next of these, or to where a course has something to do in its window. -/
def State.idle (s : State) : State :=
  match leastBy id (s.timers.map (·.1) ++ s.courseLeft.toList) with
  | some n => s.elapse n
  | none => s

/-- The steps of the device by kind. -/
def State.eventKinds : List (State → Option Out) :=
  [State.irqEvent, State.threadEvent, State.msgEvent, State.launchEvent, State.wgEvent, State.engineEvent, State.walkEvent,
    State.courseEvent, State.portEvent, State.timerEvent]

/-- The device's own next step. -/
def State.nextEvent (s : State) : Option Out := (turned (s.seq / 2) State.eventKinds).findSome? fun f => f s

end Sys2Proof.Machine
end

