-- ==== Sys2Proof/Machine/Flow.lean ====
section
/-!
DEFINITION. Transfers of control, hardware loops and `nop` (14 R303 to R312). The end of a loop body is part of the end of
every instruction (`Thread.complete`), and so are the levels a taken transfer leaves (`Thread.transfer`).
-/

namespace Sys2Proof.Machine

/-- The target of a direct transfer: the program counter and an offset in words (14 R303). -/
def relTarget {w : Nat} (pc : Word) (off : BitVec w) : Word := pc + off.signExtend 64 * 4

/-- A taken transfer that links: the link is written before the target is checked (14 R304). -/
def State.linkJump (s : State) (d : BitVec 5) (link target : Word) : State :=
  s.updMe fun t => (t.put (.x d) link).transfer target

/-- `BR`: a jump of the J layout (14 R303, R304). -/
def execBr (g : BitVec 4) (off : BitVec 21) (s : State) : Out :=
  s.lane (.br g off) g false [] [] fun s => s.jump (relTarget s.me.pc off)

/-- `CALL`: a call of the J layout, which links x1 (14 R303, R304). -/
def execCall (g : BitVec 4) (off : BitVec 21) (s : State) : Out :=
  s.lane (.call g off) g false [] [] fun s => s.linkJump 1 (s.me.pc + 4) (relTarget s.me.pc off)

/-- `CALL` of the L layout, which links x1 past its two parcels (14 R303, R304). -/
def execCallL (g : BitVec 4) (imm : BitVec 32) (s : State) : Out :=
  s.lane (.callL g imm) g false [] [] fun s => s.linkJump 1 (s.me.pc + 8) (relTarget s.me.pc imm)

/-- `JMP`: a jump of the L layout (14 R303, R304). -/
def execJmp (g : BitVec 4) (imm : BitVec 32) (s : State) : Out :=
  s.lane (.jmp g imm) g false [] [] fun s => s.jump (relTarget s.me.pc imm)

/-- `JR`: a jump to a register (14 R303, R304). -/
def execJr (g : BitVec 4) (a : BitVec 5) (s : State) : Out :=
  s.lane (.jr g a) g false [.x a] [.x a] fun s => s.jump (s.srcX 0 a)

/-- `CALLR`: a call to a register, read before the link is written (14 R303, R304). -/
def execCallr (g : BitVec 4) (d a : BitVec 5) (s : State) : Out :=
  s.lane (.callr g d a) g false [.x d, .x a] [.x a] fun s => s.linkJump d (s.me.pc + 4) (s.srcX 0 a)

/-- `RET`: a jump to x1 (14 R303, R304). -/
def execRet (g : BitVec 4) (s : State) : Out :=
  s.lane (.ret g) g false [.x 1] [.x 1] fun s => s.jump (s.srcX 0 1)

/-! ### Hardware loops (14 R307 to R311) -/

/-- The body is skipped: the word after it comes next, and a body that ends with the outer one ends that pass too. -/
def Thread.skipBody (t : Thread) (inner : Bool) (last : Word) : Thread :=
  let u := { t.tick.settle with entered := true }
  if inner && last == t.lp0.last then u.loopEnd0 (last + 4) else { u with pc := last + 4 }

/-- `loop` once its checks have passed: the level it takes starts, or its body is skipped. -/
def Thread.startLoop (t : Thread) (inner : Bool) (start last : Word) (n : BitVec 32) : Thread :=
  if n = 0 then t.skipBody inner last
  else if inner then { t with lp1 := ⟨start, last, n⟩ }.complete 4
  else { t with lp0 := ⟨start, last, n⟩ }.complete 4

/-- `LOOP`: begins a hardware loop (14 R307). -/
def execLoop (a : BitVec 5) (len : BitVec 12) (s : State) : Out :=
  s.lane (.loop a len) always false [.x a] [.x a] fun s =>
    let t := s.me
    let v := s.srcX 0 a
    let last := t.pc + len.setWidth 64 * 4
    s.check t.mode 0x06 3 <| s.check (len == 0) 0x06 4 <| s.check (v.toNat / 2 ^ 32 != 0) 0x06 5 <|
    s.check (t.lp0.active && t.lp1.active) 0x06 1 <| s.check (t.lp0.active && t.lp0.last < last) 0x06 2 <|
    s.updMe fun t => t.startLoop t.lp0.active (t.pc + 4) last (v.setWidth 32)

/-- The innermost active level ends: control goes past its body. -/
def Thread.leaveLoop (t : Thread) : Thread :=
  if t.lp1.active then { t with lp1 := { t.lp1 with count := 0 } }.transfer (t.lp1.last + 4)
  else if t.lp0.active then { t with lp0 := { t.lp0 with count := 0 } }.transfer (t.lp0.last + 4)
  else t.complete 4

/-- `LOOPX`: ends the innermost active level early (14 R310). -/
def execLoopx (g : BitVec 4) (s : State) : Out :=
  s.lane (.loopx g) g false [] [] fun s => s.check s.me.mode 0x06 3 <| s.updMe Thread.leaveLoop

/-- `NOP`: no effect (14 R312). -/
def execNop (g : BitVec 4) (s : State) : Out := s.lane (.nop g) g false [] [] fun s => s.finish (lenOf (.nop g))

end Sys2Proof.Machine
end

