-- ==== Sys2Proof/Machine/Dispatch.lean ====
section
/-!
DEFINITION. One arm per constructor of `Instr`: a direct call of its meaning.
-/

namespace Sys2Proof.Machine

/-- The meaning of every instruction and device step. -/
def exec (i : Instr) (s : State) : Host.Outcome State Fault Refusal :=
  match i with
  | .add g d a b => Sys2Proof.Machine.execAdd g d a b s
  | .sub g d a b => Sys2Proof.Machine.execSub g d a b s
  | .and g d a b => Sys2Proof.Machine.execAnd g d a b s
  | .or g d a b => Sys2Proof.Machine.execOr g d a b s
  | .xor g d a b => Sys2Proof.Machine.execXor g d a b s
  | .andn g d a b => Sys2Proof.Machine.execAndn g d a b s
  | .orn g d a b => Sys2Proof.Machine.execOrn g d a b s
  | .xnor g d a b => Sys2Proof.Machine.execXnor g d a b s
  | .sll g d a b => Sys2Proof.Machine.execSll g d a b s
  | .srl g d a b => Sys2Proof.Machine.execSrl g d a b s
  | .sra g d a b => Sys2Proof.Machine.execSra g d a b s
  | .rol g d a b => Sys2Proof.Machine.execRol g d a b s
  | .ror g d a b => Sys2Proof.Machine.execRor g d a b s
  | .min g d a b => Sys2Proof.Machine.execMin g d a b s
  | .max g d a b => Sys2Proof.Machine.execMax g d a b s
  | .minn g d a b => Sys2Proof.Machine.execMinn g d a b s
  | .maxn g d a b => Sys2Proof.Machine.execMaxn g d a b s
  | .lea k g d a b => Sys2Proof.Machine.execLea k g d a b s
  | .mul g d a b => Sys2Proof.Machine.execMul g d a b s
  | .mulh g d a b => Sys2Proof.Machine.execMulh g d a b s
  | .mulhn g d a b => Sys2Proof.Machine.execMulhn g d a b s
  | .clz g d a => Sys2Proof.Machine.execClz g d a s
  | .ctz g d a => Sys2Proof.Machine.execCtz g d a s
  | .popc g d a => Sys2Proof.Machine.execPopc g d a s
  | .brev g d a => Sys2Proof.Machine.execBrev g d a s
  | .bswap g d a => Sys2Proof.Machine.execBswap g d a s
  | .cmp c g d a b => Sys2Proof.Machine.execCmp c g d a b s
  | .sel g d a b p => Sys2Proof.Machine.execSel g d a b p s
  | .pand g d a b => Sys2Proof.Machine.execPand g d a b s
  | .por g d a b => Sys2Proof.Machine.execPor g d a b s
  | .pxor g d a b => Sys2Proof.Machine.execPxor g d a b s
  | .pnot g d a => Sys2Proof.Machine.execPnot g d a s
  | .pget g d => Sys2Proof.Machine.execPget g d s
  | .pset g a => Sys2Proof.Machine.execPset g a s
  | .addX g d a b ru => Sys2Proof.Machine.execAddX g d a b ru s
  | .subX g d a b ru => Sys2Proof.Machine.execSubX g d a b ru s
  | .andX g d a b ru => Sys2Proof.Machine.execAndX g d a b ru s
  | .orX g d a b ru => Sys2Proof.Machine.execOrX g d a b ru s
  | .xorX g d a b ru => Sys2Proof.Machine.execXorX g d a b ru s
  | .andnX g d a b ru => Sys2Proof.Machine.execAndnX g d a b ru s
  | .ornX g d a b ru => Sys2Proof.Machine.execOrnX g d a b ru s
  | .xnorX g d a b ru => Sys2Proof.Machine.execXnorX g d a b ru s
  | .sllX g d a b ru => Sys2Proof.Machine.execSllX g d a b ru s
  | .srlX g d a b ru => Sys2Proof.Machine.execSrlX g d a b ru s
  | .sraX g d a b ru => Sys2Proof.Machine.execSraX g d a b ru s
  | .rolX g d a b ru => Sys2Proof.Machine.execRolX g d a b ru s
  | .rorX g d a b ru => Sys2Proof.Machine.execRorX g d a b ru s
  | .minX g d a b ru => Sys2Proof.Machine.execMinX g d a b ru s
  | .maxX g d a b ru => Sys2Proof.Machine.execMaxX g d a b ru s
  | .minnX g d a b ru => Sys2Proof.Machine.execMinnX g d a b ru s
  | .maxnX g d a b ru => Sys2Proof.Machine.execMaxnX g d a b ru s
  | .leaX k g d a b ru => Sys2Proof.Machine.execLeaX k g d a b ru s
  | .mulX g d a b ru => Sys2Proof.Machine.execMulX g d a b ru s
  | .mulhX g d a b ru => Sys2Proof.Machine.execMulhX g d a b ru s
  | .mulhnX g d a b ru => Sys2Proof.Machine.execMulhnX g d a b ru s
  | .clzX g d a ru => Sys2Proof.Machine.execClzX g d a ru s
  | .ctzX g d a ru => Sys2Proof.Machine.execCtzX g d a ru s
  | .popcX g d a ru => Sys2Proof.Machine.execPopcX g d a ru s
  | .brevX g d a ru => Sys2Proof.Machine.execBrevX g d a ru s
  | .bswapX g d a ru => Sys2Proof.Machine.execBswapX g d a ru s
  | .cmpX c g d a b ru => Sys2Proof.Machine.execCmpX c g d a b ru s
  | .selX g d a b p ru => Sys2Proof.Machine.execSelX g d a b p ru s
  | .pandX g d a b ru => Sys2Proof.Machine.execPandX g d a b ru s
  | .porX g d a b ru => Sys2Proof.Machine.execPorX g d a b ru s
  | .pxorX g d a b ru => Sys2Proof.Machine.execPxorX g d a b ru s
  | .pnotX g d a ru => Sys2Proof.Machine.execPnotX g d a ru s
  | .pgetX g d ru => Sys2Proof.Machine.execPgetX g d ru s
  | .psetX g a ru => Sys2Proof.Machine.execPsetX g a ru s
  | .addi d a imm => Sys2Proof.Machine.execAddi d a imm s
  | .andi d a imm => Sys2Proof.Machine.execAndi d a imm s
  | .ori d a imm => Sys2Proof.Machine.execOri d a imm s
  | .xori d a imm => Sys2Proof.Machine.execXori d a imm s
  | .slli d a sh => Sys2Proof.Machine.execSlli d a sh s
  | .srli d a sh => Sys2Proof.Machine.execSrli d a sh s
  | .srai d a sh => Sys2Proof.Machine.execSrai d a sh s
  | .lih d imm => Sys2Proof.Machine.execLih d imm s
  | .lpc d imm => Sys2Proof.Machine.execLpc d imm s
  | .li g d imm => Sys2Proof.Machine.execLi g d imm s
  | .liZ g d imm => Sys2Proof.Machine.execLiZ g d imm s
  | .liHi g d a imm => Sys2Proof.Machine.execLiHi g d a imm s
  | .div g d a b la ru => Sys2Proof.Machine.execDiv g d a b la ru s
  | .divn g d a b la ru => Sys2Proof.Machine.execDivn g d a b la ru s
  | .rem g d a b la ru => Sys2Proof.Machine.execRem g d a b la ru s
  | .remn g d a b la ru => Sys2Proof.Machine.execRemn g d a b la ru s
  | .bfext g d a pos len ru => Sys2Proof.Machine.execBfext g d a pos len ru s
  | .bfextN g d a pos len ru => Sys2Proof.Machine.execBfextN g d a pos len ru s
  | .bfins g d a pos len ru => Sys2Proof.Machine.execBfins g d a pos len ru s
  | .ld z g d a off la => Sys2Proof.Machine.execLd z g d a off la s
  | .ldX z g d a off o sc la ru => Sys2Proof.Machine.execLdX z g d a off o sc la ru s
  | .st z g d a off la => Sys2Proof.Machine.execSt z g d a off la s
  | .stX z g d a off o sc la ru => Sys2Proof.Machine.execStX z g d a off o sc la ru s
  | .ldfF32 g d a off la => Sys2Proof.Machine.execLdfF32 g d a off la s
  | .ldf64 g d a off la => Sys2Proof.Machine.execLdf64 g d a off la s
  | .ldfX dbl g d a off o sc la ru => Sys2Proof.Machine.execLdfX dbl g d a off o sc la ru s
  | .stfF32 g d a off la => Sys2Proof.Machine.execStfF32 g d a off la s
  | .stf64 g d a off la => Sys2Proof.Machine.execStf64 g d a off la s
  | .stfX dbl g d a off o sc la ru => Sys2Proof.Machine.execStfX dbl g d a off o sc la ru s
  | .lds z g d a off la => Sys2Proof.Machine.execLds z g d a off la s
  | .ldsX z g d a off o sc la ru => Sys2Proof.Machine.execLdsX z g d a off o sc la ru s
  | .sts z g d a off la => Sys2Proof.Machine.execSts z g d a off la s
  | .stsX z g d a off o sc la ru => Sys2Proof.Machine.execStsX z g d a off o sc la ru s
  | .ldx z g d a b off o sc la ru => Sys2Proof.Machine.execLdx z g d a b off o sc la ru s
  | .stx z g d a b off o sc la ru => Sys2Proof.Machine.execStx z g d a b off o sc la ru s
  | .ldnc z g d a off o sc la ru => Sys2Proof.Machine.execLdnc z g d a off o sc la ru s
  | .amo op wide g d a b off o sc la ru => Sys2Proof.Machine.execAmo op wide g d a b off o sc la ru s
  | .cas wide g d a b off o sc la ru => Sys2Proof.Machine.execCas wide g d a b off o sc la ru s
  | .red op wide g a b off o sc la ru => Sys2Proof.Machine.execRed op wide g a b off o sc la ru s
  | .pfc g a off la ru => Sys2Proof.Machine.execPfc g a off la ru s
  | .wmon g d a b off o sc la ru => Sys2Proof.Machine.execWmon g d a b off o sc la ru s
  | .wmonWake t => Sys2Proof.Machine.execWmonWake t s
  | .wmonTimeout t => Sys2Proof.Machine.execWmonTimeout t s
  | .fence sc => Sys2Proof.Machine.execFence sc s
  | .fenceSc sc => Sys2Proof.Machine.execFenceSc sc s
  | .fadd ty g d a b rm ru => Sys2Proof.Machine.execFadd ty g d a b rm ru s
  | .fsub ty g d a b rm ru => Sys2Proof.Machine.execFsub ty g d a b rm ru s
  | .fmul ty g d a b rm ru => Sys2Proof.Machine.execFmul ty g d a b rm ru s
  | .fma ty g d a b c rm ru => Sys2Proof.Machine.execFma ty g d a b c rm ru s
  | .fms ty g d a b c rm ru => Sys2Proof.Machine.execFms ty g d a b c rm ru s
  | .fnma ty g d a b c rm ru => Sys2Proof.Machine.execFnma ty g d a b c rm ru s
  | .fdiv ty g d a b rm la ru => Sys2Proof.Machine.execFdiv ty g d a b rm la ru s
  | .fsqrt ty g d a rm la ru => Sys2Proof.Machine.execFsqrt ty g d a rm la ru s
  | .frcp ty g d a rm la ru => Sys2Proof.Machine.execFrcp ty g d a rm la ru s
  | .frsqrt ty g d a rm la ru => Sys2Proof.Machine.execFrsqrt ty g d a rm la ru s
  | .fmin ty g d a b ru => Sys2Proof.Machine.execFmin ty g d a b ru s
  | .fmax ty g d a b ru => Sys2Proof.Machine.execFmax ty g d a b ru s
  | .fabs ty g d a ru => Sys2Proof.Machine.execFabs ty g d a ru s
  | .fneg ty g d a ru => Sys2Proof.Machine.execFneg ty g d a ru s
  | .fcpsgn ty g d a b ru => Sys2Proof.Machine.execFcpsgn ty g d a b ru s
  | .fcmp c ty g d a b ru => Sys2Proof.Machine.execFcmp c ty g d a b ru s
  | .fclass ty g d a ru => Sys2Proof.Machine.execFclass ty g d a ru s
  | .fround ty g d a rm ru => Sys2Proof.Machine.execFround ty g d a rm ru s
  | .fexp2 ty g d a la ru => Sys2Proof.Machine.execFexp2 ty g d a la ru s
  | .flog2 ty g d a la ru => Sys2Proof.Machine.execFlog2 ty g d a la ru s
  | .fsinp ty g d a la ru => Sys2Proof.Machine.execFsinp ty g d a la ru s
  | .fcosp ty g d a la ru => Sys2Proof.Machine.execFcosp ty g d a la ru s
  | .frdx ty g d a rm la ru => Sys2Proof.Machine.execFrdx ty g d a rm la ru s
  | .fdot2 ty g d a b c rm ru => Sys2Proof.Machine.execFdot2 ty g d a b c rm ru s
  | .fcvt ty src g d a b ovp rm ru => Sys2Proof.Machine.execFcvt ty src g d a b ovp rm ru s
  | .fcvtX ty sgn g d a rm ru => Sys2Proof.Machine.execFcvtX ty sgn g d a rm ru s
  | .xcvtF ty sgn g d a rm ru => Sys2Proof.Machine.execXcvtF ty sgn g d a rm ru s
  | .fmvX ty g d a ru => Sys2Proof.Machine.execFmvX ty g d a ru s
  | .fmvF ty g d a ru => Sys2Proof.Machine.execFmvF ty g d a ru s
  | .lxch isF g d a b pc ru => Sys2Proof.Machine.execLxch isF g d a b pc ru s
  | .lsel isF g d a b pc ru => Sys2Proof.Machine.execLsel isF g d a b pc ru s
  | .lvote g d a b pc ru => Sys2Proof.Machine.execLvote g d a b pc ru s
  | .lred op g d a b pc ru => Sys2Proof.Machine.execLred op g d a b pc ru s
  | .laneWaitCycle w => Sys2Proof.Machine.execLaneWaitCycle w s
  | .pairWord g aop ad aa ab aru dop dd da db dc => Sys2Proof.Machine.execPairWord g aop ad aa ab aru dop dd da db dc s
  | .br g off => Sys2Proof.Machine.execBr g off s
  | .call g off => Sys2Proof.Machine.execCall g off s
  | .callL g imm => Sys2Proof.Machine.execCallL g imm s
  | .jmp g imm => Sys2Proof.Machine.execJmp g imm s
  | .jr g a => Sys2Proof.Machine.execJr g a s
  | .callr g d a => Sys2Proof.Machine.execCallr g d a s
  | .ret g => Sys2Proof.Machine.execRet g s
  | .loop a len => Sys2Proof.Machine.execLoop a len s
  | .loopx g => Sys2Proof.Machine.execLoopx g s
  | .nop g => Sys2Proof.Machine.execNop g s
  | .spawn g d a b => Sys2Proof.Machine.execSpawn g d a b s
  | .migrate g d a => Sys2Proof.Machine.execMigrate g d a s
  | .yield g => Sys2Proof.Machine.execYield g s
  | .exit g => Sys2Proof.Machine.execExit g s
  | .doneWait g d a => Sys2Proof.Machine.execDoneWait g d a s
  | .cancel g d a => Sys2Proof.Machine.execCancel g d a s
  | .hbArr g a => Sys2Proof.Machine.execHbArr g a s
  | .hbWait g a => Sys2Proof.Machine.execHbWait g a s
  | .hbSync g a => Sys2Proof.Machine.execHbSync g a s
  | .rinv g d a b => Sys2Proof.Machine.execRinv g d a b s
  | .mkwait g d a => Sys2Proof.Machine.execMkwait g d a s
  | .mkget g d a b => Sys2Proof.Machine.execMkget g d a b s
  | .mkgetT g d a b => Sys2Proof.Machine.execMkgetT g d a b s
  | .mktest g d a => Sys2Proof.Machine.execMktest g d a s
  | .mkret g => Sys2Proof.Machine.execMkret g s
  | .mkdrop g a => Sys2Proof.Machine.execMkdrop g a s
  | .sys g => Sys2Proof.Machine.execSys g s
  | .tret g => Sys2Proof.Machine.execTret g s
  | .brk g => Sys2Proof.Machine.execBrk g s
  | .wfi g => Sys2Proof.Machine.execWfi g s
  | .wfiTimeout t => Sys2Proof.Machine.execWfiTimeout t s
  | .csrr d n => Sys2Proof.Machine.execCsrr d n s
  | .csrw a n => Sys2Proof.Machine.execCsrw a n s
  | .csrs a n => Sys2Proof.Machine.execCsrs a n s
  | .csrc a n => Sys2Proof.Machine.execCsrc a n s
  | .interrupt t => Sys2Proof.Machine.execInterrupt t s
  | .signal t => Sys2Proof.Machine.execSignal t s
  | .registerWriteback t k => Sys2Proof.Machine.execRegisterWriteback t k s
  | .cpyIn g d a b c ss la ru => Sys2Proof.Machine.execCpyIn g d a b c ss la ru s
  | .cpyMc g d a b c dmask ss la ru => Sys2Proof.Machine.execCpyMc g d a b c dmask ss la ru s
  | .cpyGat g d a b c mo la ru => Sys2Proof.Machine.execCpyGat g d a b c mo la ru s
  | .cpyOut sc g d a b c ss la ru => Sys2Proof.Machine.execCpyOut sc g d a b c ss la ru s
  | .cpySct sc g d a b c mo la ru => Sys2Proof.Machine.execCpySct sc g d a b c mo la ru s
  | .copyAccept t => Sys2Proof.Machine.execCopyAccept t s
  | .copyChunkLand c => Sys2Proof.Machine.execCopyChunkLand c s
  | .copyChunkRead c => Sys2Proof.Machine.execCopyChunkRead c s
  | .copyComplete c => Sys2Proof.Machine.execCopyComplete c s
  | .barInit g d a b c la ru => Sys2Proof.Machine.execBarInit g d a b c la ru s
  | .barArr g d a la ru => Sys2Proof.Machine.execBarArr g d a la ru s
  | .barExp arr out g d a b la ru => Sys2Proof.Machine.execBarExp arr out g d a b la ru s
  | .barWait out g d a b la ru => Sys2Proof.Machine.execBarWait out g d a b la ru s
  | .barTest out g d a b la ru => Sys2Proof.Machine.execBarTest out g d a b la ru s
  | .barInval g d a la ru => Sys2Proof.Machine.execBarInval g d a la ru s
  | .wcnt k n => Sys2Proof.Machine.execWcnt k n s
  | .mcfg g d rows cols la ru => Sys2Proof.Machine.execMcfg g d rows cols la ru s
  | .mcfgApply c => Sys2Proof.Machine.execMcfgApply c s
  | .mclaim g d a b pc la ru => Sys2Proof.Machine.execMclaim g d a b pc la ru s
  | .mclaimW g d a b pc la ru => Sys2Proof.Machine.execMclaimW g d a b pc la ru s
  | .mclaimWGrant c => Sys2Proof.Machine.execMclaimWGrant c s
  | .claimDeadlock c => Sys2Proof.Machine.execClaimDeadlock c s
  | .mrel g d a b la ru => Sys2Proof.Machine.execMrel g d a b la ru s
  | .mload e8 g d a b c la ru => Sys2Proof.Machine.execMload e8 g d a b c la ru s
  | .mloadT e8 g d a b c la ru => Sys2Proof.Machine.execMloadT e8 g d a b c la ru s
  | .mgath e8 g d a b la ru => Sys2Proof.Machine.execMgath e8 g d a b la ru s
  | .mmul f g d a la ru => Sys2Proof.Machine.execMmul f g d a la ru s
  | .msacc i32 z g d a b c la ru => Sys2Proof.Machine.execMsacc i32 z g d a b c la ru s
  | .mstore fmt ovp rm z g d a b la ru => Sys2Proof.Machine.execMstore fmt ovp rm z g d a b la ru s
  | .mzero g d a b la ru => Sys2Proof.Machine.execMzero g d a b la ru s
  | .mstat g d a la ru => Sys2Proof.Machine.execMstat g d a la ru s
  | .macld g d a b la ru => Sys2Proof.Machine.execMacld g d a b la ru s
  | .matrixPerform c => Sys2Proof.Machine.execMatrixPerform c s
  | .enginePreempt c isM => Sys2Proof.Machine.execEnginePreempt c isM s
  | .cwFlush sc bar g d a b c la ru => Sys2Proof.Machine.execCwFlush sc bar g d a b c la ru s
  | .cwInval sc bar g d a b c la ru => Sys2Proof.Machine.execCwInval sc bar g d a b c la ru s
  | .cwWalkComplete k => Sys2Proof.Machine.execCwWalkComplete k s
  | .pgMig g d a b c la ru => Sys2Proof.Machine.execPgMig g d a b c la ru s
  | .pgMigLine k => Sys2Proof.Machine.execPgMigLine k s
  | .pgMigRel g d a la ru => Sys2Proof.Machine.execPgMigRel g d a la ru s
  | .pgSplit g d a b c la ru => Sys2Proof.Machine.execPgSplit g d a b c la ru s
  | .pgSplitComplete k => Sys2Proof.Machine.execPgSplitComplete k s
  | .pgColl lvl g d a b la ru => Sys2Proof.Machine.execPgColl lvl g d a b la ru s
  | .pgCollComplete k => Sys2Proof.Machine.execPgCollComplete k s
  | .tlbInv k sc g d a b c la ru => Sys2Proof.Machine.execTlbInv k sc g d a b c la ru s
  | .tlbInvComplete k => Sys2Proof.Machine.execTlbInvComplete k s
  | .getS ag pa => Sys2Proof.Machine.execGetS ag pa s
  | .getX ag pa => Sys2Proof.Machine.execGetX ag pa s
  | .upgrade ag pa => Sys2Proof.Machine.execUpgrade ag pa s
  | .getU ag pa op wide => Sys2Proof.Machine.execGetU ag pa op wide s
  | .atHome ag pa => Sys2Proof.Machine.execAtHome ag pa s
  | .putM ag pa => Sys2Proof.Machine.execPutM ag pa s
  | .putO ag pa => Sys2Proof.Machine.execPutO ag pa s
  | .putE ag pa => Sys2Proof.Machine.execPutE ag pa s
  | .putU ag pa => Sys2Proof.Machine.execPutU ag pa s
  | .privEvictReport ag pa => Sys2Proof.Machine.execPrivEvictReport ag pa s
  | .slabEvict die pa => Sys2Proof.Machine.execSlabEvict die pa s
  | .migrateSend t => Sys2Proof.Machine.execMigrateSend t s
  | .threadArrival k => Sys2Proof.Machine.execThreadArrival k s
  | .binTimer die b => Sys2Proof.Machine.execBinTimer die b s
  | .keystoneBlockRequest l die => Sys2Proof.Machine.execKeystoneBlockRequest l die s
  | .keystoneElection l => Sys2Proof.Machine.execKeystoneElection l s
  | .workgroupPlace w => Sys2Proof.Machine.execWorkgroupPlace w s
  | .arrivalQueueWrite die => Sys2Proof.Machine.execArrivalQueueWrite die s
  | .exitQueueWrite t => Sys2Proof.Machine.execExitQueueWrite t s
  | .rinvEnqueue k => Sys2Proof.Machine.execRinvEnqueue k s
  | .markResolve k => Sys2Proof.Machine.execMarkResolve k s
  | .markBreak k => Sys2Proof.Machine.execMarkBreak k s
  | .prqCmdIssue die => Sys2Proof.Machine.execPrqCmdIssue die s
  | .workgroupStopped w => Sys2Proof.Machine.execWorkgroupStopped w s
  | .saveCommit w => Sys2Proof.Machine.execSaveCommit w s
  | .drainDeadline w => Sys2Proof.Machine.execDrainDeadline w s
  | .restoreStart w => Sys2Proof.Machine.execRestoreStart w s
  | .restoreComplete w => Sys2Proof.Machine.execRestoreComplete w s
  | .governorSample k => Sys2Proof.Machine.execGovernorSample k s
  | .syntheticGroutSlot c => Sys2Proof.Machine.execSyntheticGroutSlot c s
  | .shuntTrip k => Sys2Proof.Machine.execShuntTrip k s
  | .coursePwrNtReq k => Sys2Proof.Machine.execCoursePwrNtReq k s
  | .coursePwrBypReq k tile => Sys2Proof.Machine.execCoursePwrBypReq k tile s
  | .coursePwrOffReq k => Sys2Proof.Machine.execCoursePwrOffReq k s
  | .courseModeChange k => Sys2Proof.Machine.execCourseModeChange k s
  | .quadrantOvercurrent die q => Sys2Proof.Machine.execQuadrantOvercurrent die q s
  | .qstatClearOff die q => Sys2Proof.Machine.execQstatClearOff die q s
  | .monSnap die u => Sys2Proof.Machine.execMonSnap die u s
  | .monSample die u v => Sys2Proof.Machine.execMonSample die u v s
  | .unitDrain u => Sys2Proof.Machine.execUnitDrain u s
  | .unitOffline u => Sys2Proof.Machine.execUnitOffline u s
  | .unitOnline u => Sys2Proof.Machine.execUnitOnline u s
  | .unitRetire u => Sys2Proof.Machine.execUnitRetire u s
  | .firmwareUpdate pkg v => Sys2Proof.Machine.execFirmwareUpdate pkg v s
  | .powerOn pkg => Sys2Proof.Machine.execPowerOn pkg s
  | .frameReceive pkg port bytes => Sys2Proof.Machine.execFrameReceive pkg port bytes s
  | .frameTransmit pkg port r => Sys2Proof.Machine.execFrameTransmit pkg port r s
  | .roceSend pkg port qp bytes => Sys2Proof.Machine.execRoceSend pkg port qp bytes s
  | .roceSendImm pkg port qp bytes => Sys2Proof.Machine.execRoceSendImm pkg port qp bytes s
  | .roceRdmaWrite pkg port qp region va bytes => Sys2Proof.Machine.execRoceRdmaWrite pkg port qp region va bytes s
  | .roceRdmaWriteImm pkg port qp region va bytes => Sys2Proof.Machine.execRoceRdmaWriteImm pkg port qp region va bytes s
  | .roceRdmaRead pkg port qp region va n => Sys2Proof.Machine.execRoceRdmaRead pkg port qp region va n s
  | .roceReadResponse pkg port qp region va bytes => Sys2Proof.Machine.execRoceReadResponse pkg port qp region va bytes s
  | .roceAtomic pkg port qp => Sys2Proof.Machine.execRoceAtomic pkg port qp s
  | .timeStep pkg v => Sys2Proof.Machine.execTimeStep pkg v s
  | .flitReceive pkg port ok => Sys2Proof.Machine.execFlitReceive pkg port ok s
  | .linkPortDown pkg port => Sys2Proof.Machine.execLinkPortDown pkg port s
  | .linkTimeout t => Sys2Proof.Machine.execLinkTimeout t s
  | .ucieRetrainFail die => Sys2Proof.Machine.execUcieRetrainFail die s
  | .idwCmdReplace die => Sys2Proof.Machine.execIdwCmdReplace die s
  | .idwCmdRead die => Sys2Proof.Machine.execIdwCmdRead die s
  | .idwTableWrite die v => Sys2Proof.Machine.execIdwTableWrite die v s
  | .migProfWrite die v => Sys2Proof.Machine.execMigProfWrite die v s
  | .exqCtlWrite die v => Sys2Proof.Machine.execExqCtlWrite die v s
  | .arqCtlWrite die v => Sys2Proof.Machine.execArqCtlWrite die v s
  | .ringCtlWrite pkg r v => Sys2Proof.Machine.execRingCtlWrite pkg r v s
  | .softSet t v => Sys2Proof.Machine.execSoftSet t v s
  | .softClr t v => Sys2Proof.Machine.execSoftClr t v s
  | .govCtlWrite k v => Sys2Proof.Machine.execGovCtlWrite k v s
  | .boostMaxWrite k v => Sys2Proof.Machine.execBoostMaxWrite k v s
  | .controlRegisterWrite pa n v => Sys2Proof.Machine.execControlRegisterWrite pa n v s
  | .silentEviction ag pa => Sys2Proof.Machine.execSilentEviction ag pa s
  | .timecmpReached t => Sys2Proof.Machine.execTimecmpReached t s
  | .ethernetLinkChange pkg port up => Sys2Proof.Machine.execEthernetLinkChange pkg port up s
  | .ucieFlitRetry die other => Sys2Proof.Machine.execUcieFlitRetry die other s

end Sys2Proof.Machine
end

