-- ==== Sys2Proof/Machine/Step.lean ====
section
/-!
DEFINITION. One step of the device: a lane of a gang that is in the middle of an issue, a thread's boundary, what the agenda
asks, or else in turn the next issue and the device's own next step. Which of these comes when is not the spec's: 14 R299 and
13 R292 leave the interleaving open, and the agenda ranges over it (log entry 3).
-/

namespace Sys2Proof.Machine

/-- An outcome followed by a change of state. -/
def andThen (o : Out) (f : State → State) : Out :=
  match o with
  | .next s => .next (f s)
  | .fault x => .fault x
  | .refused x => .refused x

/-- A lane has run: a late answer it was to meet is past (18 R418). -/
def State.ran (k : Nat) (s : State) : State := if s.late == some k then { s with late := none } else s

/-- The next lane of a gang runs. -/
def State.runLane (s : State) (g : Gang) (m : Nat × Nat) (rest : List (Nat × Nat)) : Out :=
  match s.runMember g m rest with
  | .done s1 => .next (s1.ran m.1)
  | .run i s1 => andThen (exec i s1) fun s2 => (s1.linked i s2).ran m.1

/-- Threads issue together: the fetch, and the first lane. -/
def State.issue (s : State) (ks : List Nat) : Out :=
  let s1 := ({ s with cur := ks.headD s.cur } : State).startIssue ks
  match s1.gang with
  | some g =>
    (match g.rest with
     | m :: rest => s1.runLane g m rest
     | [] => .next s1)
  | none => .next s1

/-- The agenda, else a thread and the device in turn; with nothing left, time runs on (log entry 3). -/
def State.takeTurn (s : State) : Out :=
  match s.agenda with
  | .event i :: t =>
    let s1 : State := { s with agenda := t }
    if (encode i).1 = 0 then exec i s1 else .next s1
  | .issue ks :: t =>
    let s1 : State := { s with agenda := t }
    if s1.mayIssue ks then s1.issue ks else .next s1
  | .soft sec hard :: t =>
    let s1 : State := { s with agenda := t }
    .next (match tget s1.slabs (lineOf sec) with
      | some l => if l.replica && !l.mask.getLsbD (secIdx sec) then s1 else { s1 with soft := (secOf sec, hard) :: s1.soft }
      | none => s1)
  | .delay k :: t => .next { s with agenda := t, delay := some k }
  | .early k va n spad :: t => .next (({ s with agenda := t } : State).bindEarly k va n spad)
  | .spread i k :: t => .next (({ s with agenda := t } : State).spread i k)
  | .perform i :: t => .next (({ s with agenda := t } : State).performOne i)
  | .ahead core j row pos n :: t => .next (({ s with agenda := t } : State).copyAhead core j row pos n)
  | [] =>
    let s1 : State := { s with turn := !s.turn }
    let threads := s1.nextIssue.map s1.issue
    (if s.turn then s1.nextEvent <|> threads else threads <|> s1.nextEvent).getD (.next s1.idle)

/-- What is done at the end of a step: a gang that has run closes, entries of tables that have served are freed, workgroups
that are over retire, arrivals that wait take bins, and bins are looked at again. -/
def State.settle (s : State) : State :=
  let s1 := match s.gang with
    | some g => if g.rest.isEmpty then s.closeGang else s
    | none => s
  let s2 := s1.sweep.retireWgs
  s2.dies.foldl (fun s d => (s.drainArrivals d.1 4096).releaseFull d.1 true) s2

/-- One step of the device. -/
def step (s : State) : Host.Outcome State Fault Refusal :=
  let s1 := s.passTime
  andThen
    (match s1.gang with
     | some ⟨ms, m :: rest, fs, pc, w, n, ag, ls⟩ => s1.runLane ⟨ms, m :: rest, fs, pc, w, n, ag, ls⟩ m rest
     | _ =>
       match s1.due with
       | some s2 => .next s2
       | none => s1.takeTurn)
    State.settle

/-- The state with an instruction where the next issue fetches: at the program counter of the thread it starts with. -/
def State.withFetchWord (s : State) (_nbits w : Nat) : State :=
  match s.nextIssue with
  | some (k :: _) =>
    let t := s.thr k
    let b := t.pc.toNat % 8
    (match (s.xlate (t.mctx k) (t.pc &&& 0xFFFFFFFFFFFFFFF8) .fetch).2 with
     | .ok pa _ =>
       let a := s.fwd pa
       { s with
         mem := s.mem.writeN (a + b) (8 - b) w
         icache := s.icache.filter fun e => e.2.1 != secOf pa
         copies := s.copies.filter fun c => !(c.2.st == .r && keySec c.1 == secOf a)
         gang := none, agenda := [], turn := false }
     | _ => s)
  | _ => s

end Sys2Proof.Machine
end

