-- ==== Sys2Proof/Safety.lean ====
section
/-!
DEFINITION. The terms in which claims are stated: when an instruction executes, how it ends, what it leaves alone, and the
invariants of the machine.
-/

namespace Sys2Proof.Machine

/-! ### When an instruction executes -/

/-- The thread that executes: its guard is true, the registers named are in its budget, and none of those read is still on
its way (02 R39, R41, R49; 07 R156). -/
structure Runs (s : State) (t : Thread) (g : BitVec 4) (rs rd : List Dest) : Prop where
  here : tget s.threads s.cur = some t
  budget : rs.all t.inBudget = true
  guard : t.guard g = true
  ready : t.hazard rd = false

/-- No result is on its way to a register. -/
def Thread.quiet (t : Thread) (e : Dest) : Prop := ∀ p ∈ t.pend, p.dest ≠ e

/-! ### What an instruction leaves alone -/

/-- A thread without its registers, FFLAGS, predicates, program counter and loops, and without what the end of an instruction
clears: all the rest of it. -/
def Thread.rest (t : Thread) : Thread :=
  { t with
    pc := 0, x := Vector.replicate 32 0, f := Vector.replicate 32 0, p := Vector.replicate 7 false, lp0 := Loop.none, lp1 := Loop.none
    fflags := 0, pend := [], wait := none, rel := none, laneWait := none, restart := none, entered := false, atTvec := false
    noBk := false, flush := false }

/-- Every register but those of a list keeps its value, results on their way apart. -/
def KeepsRegs (t u : Thread) (ds : List Dest) : Prop := ∀ e, e ∉ ds → t.quiet e → u.get e = t.get e

/-- The program counter goes past an instruction of `n` bytes, outside the last word of a loop body; the loops stay as they
are (02 R30; 14 R308, R311). -/
def MovesOn (t u : Thread) (n : Nat) : Prop :=
  (t.mode = true ∨ (t.lp0.hit t.pc n = false ∧ t.lp1.hit t.pc n = false)) →
    u.pc = t.pc + BitVec.ofNat 64 n ∧ u.lp0 = t.lp0 ∧ u.lp1 = t.lp1

/-- The instruction completes, and of the whole machine only the thread that executes changes, into `u`: in the registers of a
list, in its predicates and flags, and in its program counter. -/
structure Ends (s : State) (t u : Thread) (i : Instr) (ds : List Dest) : Prop where
  next : exec i s = .next (s.setThr s.cur u)
  rest : u.rest = t.rest
  regs : KeepsRegs t u ds
  moves : MovesOn t u (encode i).1

/-- What a register reads as after a write of a value: x0 discards it (02 R46). -/
def Dest.holds (d : Dest) (v : Word) : Word := if d = .x 0 then 0 else v

/-- The instruction writes one register and changes no other, no predicate and no flag. -/
def Gives (s : State) (t : Thread) (i : Instr) (d : Dest) (v : Word) : Prop :=
  ∃ u, Ends s t u i [d] ∧ u.get d = d.holds v ∧ u.p = t.p ∧ u.fflags = t.fflags

/-- The same for a value that a property describes. -/
def GivesSome (s : State) (t : Thread) (i : Instr) (d : Dest) (p : Word → Prop) : Prop := ∃ v, Gives s t i d v ∧ p v

/-- The instruction writes one predicate, p7 excepted, and no register and no flag (02 R39). -/
def GivesP (s : State) (t : Thread) (i : Instr) (d : BitVec 3) (v : Bool) : Prop :=
  ∃ u, Ends s t u i [] ∧ u.getP d = (v || d == 7) ∧ (∀ q, q ≠ d → u.getP q = t.getP q) ∧ u.fflags = t.fflags

/-- The instruction writes one register and adds flags to FFLAGS (07 R161). -/
def GivesFl (s : State) (t : Thread) (i : Instr) (d : Dest) (r : Word × BitVec 5) : Prop :=
  ∃ u, Ends s t u i [d] ∧ u.get d = d.holds r.1 ∧ u.p = t.p ∧ u.fflags = t.fflags ||| r.2

/-- A long-latency result (02 R40, R41, R43): with LA 0 or in interlocked mode the register has it at once; otherwise it is on
its way for the next LA instructions, and the register still has its old value. Flags are added at once. -/
def GivesLate (s : State) (t : Thread) (i : Instr) (d : Dest) (la : BitVec 4) (r : Word × BitVec 5) : Prop :=
  ((t.locked = true ∨ la = 0 ∨ d = .x 0) → GivesFl s t i d r) ∧
  ((t.locked = false ∧ la ≠ 0 ∧ d ≠ .x 0) →
    ∃ u, Ends s t u i [d] ∧ u.get d = t.get d ∧ u.p = t.p ∧ u.fflags = t.fflags ||| r.2 ∧ ⟨d, some r.1, la.toNat, 0⟩ ∈ u.pend)

/-- A thread whose instruction has completed without writing a register. -/
structure PlainEnd (t u : Thread) (i : Instr) : Prop where
  rest : u.rest = t.rest
  regs : KeepsRegs t u []
  moves : MovesOn t u (encode i).1
  p : u.p = t.p
  fflags : u.fflags = t.fflags

/-- A thread whose instruction has completed with a long-latency result: in its register at once with LA 0 or in interlocked
mode, else on its way for the next LA instructions (02 R40, R41, R43). -/
structure LateEnd (t u : Thread) (i : Instr) (d : Dest) (la : BitVec 4) (v : Word) : Prop where
  rest : u.rest = t.rest
  regs : KeepsRegs t u [d]
  moves : MovesOn t u (encode i).1
  p : u.p = t.p
  fflags : u.fflags = t.fflags
  now : (t.locked = true ∨ la = 0 ∨ d = .x 0) → u.get d = d.holds v
  later : (t.locked = false ∧ la ≠ 0 ∧ d ≠ .x 0) → u.get d = t.get d ∧ ⟨d, some v, la.toNat, 0⟩ ∈ u.pend

/-- The instruction ends in an effect that answers a state, in which the rest of the claim holds. -/
def Answers (s : State) (i : Instr) (p : State → Prop) : Prop := ∃ s', exec i s = .next s' ∧ p s'

/-- A load-class access, as its translation and its memory answer it: a value for the register, a cause with its TVAL, or a
wait for a locked table line. -/
def LoadsBy (s : State) (i : Instr) (r : State × Acc) (d : Dest) (la : BitVec 4) (f : Nat → Word) : Prop :=
  (∀ s1 v, r = (s1, .ok v) → ∃ u, exec i s = .next (s1.setThr s.cur u) ∧ LateEnd (s1.thr s.cur) u i d la (f v)) ∧
  (∀ s1 c x, r = (s1, .trap c x) → exec i s = .next (s1.trap c x)) ∧
  (∀ s1, r = (s1, .wait) → exec i s = .next (s1.waitOn .walk))

/-- The instruction completes, and its access stays behind, with an operand and a comparand: no byte changes yet, no register and no
predicate does, and its register is to have its result when the access is performed (13 R288). -/
def StaysBehind (s s1 : State) (t : Thread) (i : Instr) (d : Dest) (la : BitVec 4) (spad : Bool) (a n v w : Nat) : Prop :=
  ∃ s2 h, exec i s = .next s2 ∧ s2.stores = [h] ∧ (h.i, h.spad, h.addr, h.n, h.v, h.w) = (some i, spad, a, n, v, w) ∧
    h.c = t.mctx s.cur ∧ s2.mem = s1.mem ∧ s2.wgs = s1.wgs ∧ KeepsRegs t s2.me [] ∧ s2.me.get d = t.get d ∧ s2.me.p = t.p ∧
    s2.me.fflags = t.fflags ∧ MovesOn t s2.me (encode i).1 ∧
    (d ≠ .x 0 → ⟨d, none, if t.locked then 0 else la.toNat, h.id⟩ ∈ s2.me.pend)

/-- A load from memory: performed at once, or, where the agenda asks it, later. -/
def LoadsAt (s : State) (t : Thread) (i : Instr) (ea : Word) (n : Nat) (nc : Bool) (d : Dest) (la : BitVec 4) (f : Nat → Word) : Prop :=
  (s.delay ≠ some s.cur → LoadsBy s i (s.dataLoad (t.mctx s.cur) ea n nc) d la f) ∧
  (s.delay = some s.cur → s.stores = [] → s.views = [] → ea.toNat % n = 0 → ∀ s1 pa leaf s2 v,
    s.xlate (t.mctx s.cur) ea .load = (s1, .ok pa leaf) → s1.atCtrl (t.agent / 512) pa = false →
    s1.physLoad (t.mctx s.cur) (regionOf leaf) pa n nc = (s2, .ok v) → StaysBehind s s1 t i d la false pa n v 0)

/-- A load from scratchpad likewise. -/
def SpadLoadsAt (s : State) (t : Thread) (i : Instr) (o : Word) (n : Nat) (d : Dest) (la : BitVec 4) (f : Nat → Word) : Prop :=
  (s.delay ≠ some s.cur → LoadsBy s i (s.spadLoad o n) d la f) ∧
  (s.delay = some s.cur → s.stores = [] → s.views = [] → ∀ v, s.spadLoad o n = (s, .ok v) →
    StaysBehind s s t i d la true o.toNat n v 0)

/-- An atomic, or a `red`, at an address that lets it stay behind does, where the agenda asks it. -/
def RmwBehind (s : State) (t : Thread) (i : Instr) (k : XKind) (ea : Word) (n : Nat) (d : Dest) (la : BitVec 4) (v w : Nat) : Prop :=
  s.delay = some s.cur → s.stores = [] → s.views = [] → ea.toNat % n = 0 → ∀ s1 pa leaf,
    s.xlate (t.mctx s.cur) ea k = (s1, .ok pa leaf) → s1.atCtrl (t.agent / 512) pa = false →
    s1.memCode (t.agent / 512) pa false = none → StaysBehind s s1 t i d la false pa n v w

/-- The current thread's next access is performed at once: it is not asked to stay behind, and nothing comes before it that is not
performed. -/
def State.prompt (s : State) : Prop := s.delay ≠ some s.cur ∧ ∀ h ∈ s.stores, ∀ b ∈ h.before, b.1 ≠ s.cur

/-- A store-class access. -/
def StoresBy (s : State) (i : Instr) (r : State × Acc) : Prop :=
  (∀ s1 v, r = (s1, .ok v) → ∃ u, exec i s = .next (s1.setThr s.cur u) ∧ PlainEnd (s1.thr s.cur) u i) ∧
  (∀ s1 c x, r = (s1, .trap c x) → exec i s = .next (s1.trap c x)) ∧
  (∀ s1, r = (s1, .wait) → exec i s = .next (s1.waitOn .walk))

/-- No access is out of its order: none stays behind or is asked to, and no load has bound a value early (13 R284, R288). -/
structure State.Calm (s : State) : Prop where
  stores : s.stores = []
  views : s.views = []
  delay : s.delay = none

/-- Memory that an access reaches: ordinary memory that answers, in a region that lets the agent in, with no partial of an
update-only sector outstanding (04 R75, R76; 05 R106, R109, R115); its line stands in the slab or has room there, and in the slab of the
agent's package, and meets no soft error (05 R99 to R101, R111). -/
structure Reaches (s : State) (c : MCtx) (pa leaf : Nat) : Prop where
  mem : s.atCtrl (c.ag / 512) pa = false
  answers : s.memCode (c.ag / 512) (s.fwd pa) false = none
  region : s.privOther (regionOf leaf) c.ag (secOf (s.fwd pa)) = false
  whole : (s.dirOf (secOf (s.fwd pa))).uop = none
  room : s.slabRoom (slabKey (slabOf (s.fwd pa)) (s.fwd pa)) = true
  copyRoom : s.slabRoom (replicaKey (c.ag / 512) (s.fwd pa)) = true
  sound : ∀ e ∈ s.soft, lineOf (e.1 % 2 ^ 52) ≠ lineOf (s.fwd pa)

/-! ### Invariants -/

/-- The memory keeps its canonical form. -/
def State.memOk (s : State) : Prop := Memory.wf s.mem = true

/-- No issue has run out of lanes without being closed. -/
def State.gangOk (s : State) : Prop := ∀ g, s.gang = some g → g.rest ≠ []

end Sys2Proof.Machine
end

