-- ==== Sys2Proof/Certificates/Slice0/Obligations.lean ====
section
/-!
DEFINITION. The claims about this model, stated for the provers. Each docstring names the rules of the spec it formalises.
-/

open Sys2Proof Sys2Proof.Machine

/-! ### Encoding -/

/-- 02 R30, R34 to R38; 03 R60 to R72: decoding the encoding of a well-formed instruction gives the instruction back, whatever
follows a 32-bit one in its block, and wherever a 32-bit one stands. -/
def Obligations.DecodeOfEncode : Prop :=
  ∀ i : Instr, i.wf = true →
    ((encode i).1 = 4 → ∀ (odd : Bool) (next : Nat), decode odd ((encode i).2 + 2 ^ 32 * next) = .ok i) ∧
    ((encode i).1 = 8 → decode false (encode i).2 = .ok i)

/-- 02 R49, 03 R59: what decoding accepts is well formed, and is the encoding of what it answers bit by bit; a 64-bit
instruction is never accepted at 4 modulo 8 (02 R31). -/
def Obligations.EncodeOfDecode : Prop :=
  ∀ (odd : Bool) (w : Nat) (i : Instr), decode odd w = .ok i →
    i.wf = true ∧ (encode i).2 = w % 2 ^ (8 * (encode i).1) ∧
    (((encode i).1 = 4 ∧ w % 2 = 0) ∨ ((encode i).1 = 8 ∧ w % 2 = 1 ∧ odd = false))

/-! ### The frame of an instruction -/

/-- 02 R39: an instruction whose guard is false is executed as a no-op: only the program counter moves on, with loops and
windows. Before the guard only the checks of R49 count: an engine that the core does not have, and a register outside the budget. Lane
operations, whose arrival R249 records, have a statement of their own. The second part says the same of the frame itself. -/
def Obligations.FalseGuardIsNop : Prop :=
  (∀ (s : State) (t : Thread) (i : Instr), tget s.threads s.cur = some t → t.guard (guardOf i) = false →
    (match i with | .lxch .. | .lsel .. | .lvote .. | .lred .. => False | _ => True) →
    (∃ u, exec i s = .next (s.setThr s.cur u) ∧ u.rest = t.rest ∧ u.p = t.p ∧ u.fflags = t.fflags ∧
      KeepsRegs t u [] ∧ MovesOn t u (encode i).1) ∨
    (t.onL = true ∧ exec i s = .next (s.trap 0x07 (parcels i))) ∨
    ((∃ d, t.inBudget d = false) ∧ exec i s = .next (s.trap 0x05 (parcels i)))) ∧
  ∀ (s : State) (t : Thread) (i : Instr) (eng : Bool) (g : BitVec 4) (rs rd : List Dest) (eff : State → State),
    tget s.threads s.cur = some t → (eng = true → t.onL = false) → rs.all t.inBudget = true → t.guard g = false →
    ∃ u, s.lane i g eng rs rd eff = .next (s.setThr s.cur u) ∧ u.rest = t.rest ∧ u.p = t.p ∧ u.fflags = t.fflags ∧
      KeepsRegs t u [] ∧ MovesOn t u (encode i).1

/-- 02 R49 (checks 6 and 7), R41; 07 R156: an instruction of an absent engine traps with cause 0x07, one that names a register
outside its budget with cause 0x05, both whatever its guard; one that reads a register whose value is still to be produced
waits, with everything as it was. -/
def Obligations.FrameChecksInOrder : Prop :=
  ∀ (s : State) (t : Thread) (i : Instr) (g : BitVec 4) (rs rd : List Dest) (eff : State → State),
    tget s.threads s.cur = some t →
    (t.onL = true → s.lane i g true rs rd eff = .next (s.trap 0x07 (parcels i))) ∧
    (∀ eng, (eng = true → t.onL = false) → rs.all t.inBudget = false →
      s.lane i g eng rs rd eff = .next (s.trap 0x05 (parcels i))) ∧
    (∀ eng, (eng = true → t.onL = false) → rs.all t.inBudget = true → t.guard g = true → t.hazard rd = true →
      ∃ u, s.lane i g eng rs rd eff = .next (s.setThr s.cur u) ∧ u.wait = some (.reg rd) ∧ u.pc = t.pc ∧ u.x = t.x ∧ u.f = t.f ∧
        u.p = t.p ∧ u.pend = t.pend) ∧
    (t.onL = true → rs.all t.inBudget = true)

/-- 02 R39, R46: x0 reads 0, and a write of it is discarded; a write of another register is what it then reads, and changes no
other; p7 reads 1, and a write of it is discarded.
02 R41, R43: a read of a register outside every window returns its value, inside the window of a result the old value or
the new one, and in interlocked mode the new one.
02 R40, R41: an instruction that completes shortens every window by one. A result with one instruction left takes effect; one with more is
still on its way, unless another that set out after it reaches its register; a register that no result reaches keeps its value. -/
def Obligations.RegistersAndWindows : Prop :=
  (∀ (t : Thread) (d e : Dest) (v : Word) (p q : BitVec 3) (b : Bool),
    t.get (.x 0) = 0 ∧ t.put (.x 0) v = { t with pend := t.pend.filter (·.dest != .x 0) } ∧
    (d ≠ .x 0 → (t.put d v).get d = v) ∧ (e ≠ d → (t.put d v).get e = t.get e) ∧
    t.getP 7 = true ∧ t.setP 7 b = t ∧ (p ≠ 7 → (t.setP p b).getP p = b) ∧ (q ≠ p → (t.setP p b).getP q = t.getP q)) ∧
  (∀ (s : State) (t : Thread) (pos : Nat) (d : Dest), tget s.threads s.cur = some t →
    (t.quiet d → s.src pos d = t.get d) ∧
    (∀ v l c, (t.pend.filter (·.dest == d)).getLast? = some ⟨d, some v, l, c⟩ →
      (s.src pos d = v ∨ s.src pos d = t.get d) ∧ (t.locked = true → s.src pos d = v))) ∧
  (∀ (t : Thread) (n : Nat),
    (∀ a b d v c, t.pend = a ++ ⟨d, some v, 1, c⟩ :: b → (∀ p ∈ b, p.dest = d → 1 < p.left ∨ p.val = none) →
      (t.complete n).get d = d.holds v) ∧
    (∀ a b d v l c, t.pend = a ++ ⟨d, v, l + 2, c⟩ :: b → (∀ p ∈ b, p.dest = d → 1 < p.left ∨ p.val = none) →
      ⟨d, v, l + 1, c⟩ ∈ (t.complete n).pend) ∧
    (∀ d, (∀ p ∈ t.pend, p.dest = d → 1 < p.left ∨ p.val = none) → (t.complete n).get d = t.get d) ∧
    ∀ q ∈ (t.complete n).pend, ∃ p ∈ t.pend, q = { p with left := p.left - 1 })

/-- 14 R308, R309, R311: at the last word of the body of an active level in user mode the count falls by one; while it is
not 0 the body starts again, and at 0 control goes on. In system mode loops do nothing. The second part says of `exec` that an instruction
there goes back to the start of the body: any whose guard is false, and arithmetic of both lengths whose guard is true. -/
def Obligations.LoopEnds : Prop :=
  (∀ (t : Thread) (n : Nat),
    (t.mode = true → (t.complete n).pc = t.pc + BitVec.ofNat 64 n ∧ (t.complete n).lp0 = t.lp0 ∧ (t.complete n).lp1 = t.lp1) ∧
    (t.mode = false → t.lp1.hit t.pc n = false → t.lp0.hit t.pc n = true →
      (t.complete n).lp0.count = t.lp0.count - 1 ∧ (t.complete n).lp1 = t.lp1 ∧
      (t.complete n).pc = if t.lp0.count = 1 then t.pc + BitVec.ofNat 64 n else t.lp0.start) ∧
    (t.mode = false → t.lp1.hit t.pc n = true →
      (t.complete n).lp1.count = t.lp1.count - 1 ∧
      (t.lp1.count ≠ 1 → (t.complete n).pc = t.lp1.start ∧ (t.complete n).lp0 = t.lp0) ∧
      (t.lp1.count = 1 → (t.lp0.active = false ∨ t.lp0.last ≠ t.lp1.last) →
        (t.complete n).pc = t.pc + BitVec.ofNat 64 n ∧ (t.complete n).lp0 = t.lp0) ∧
      (t.lp1.count = 1 → t.lp0.active = true → t.lp0.last = t.lp1.last →
        (t.complete n).lp0.count = t.lp0.count - 1 ∧
        (t.complete n).pc = if t.lp0.count = 1 then t.pc + BitVec.ofNat 64 n else t.lp0.start))) ∧
  ∀ (s : State) (t : Thread) (i : Instr), tget s.threads s.cur = some t → t.mode = false →
    ((t.guard (guardOf i) = false ∧ t.onL = false ∧ (∀ d, t.inBudget d = true) ∧
        match i with | .lxch .. | .lsel .. | .lvote .. | .lred .. => False | _ => True) ∨
      ∃ g d a b p ru, Runs s t g [.x d, .x a, .x b] [.x a, .x b] ∧
        i ∈ [Instr.add g d a b, .sub g d a b, .mul g d a b, .addX g d a b ru, .mulX g d a b ru, .sel g d a b p, .selX g d a b p ru]) →
    let n := (encode i).1
    (t.lp1.hit t.pc n = true → 1 < t.lp1.count.toNat →
      ∃ u, exec i s = .next (s.setThr s.cur u) ∧ u.pc = t.lp1.start ∧ u.lp1 = { t.lp1 with count := t.lp1.count - 1 } ∧ u.lp0 = t.lp0) ∧
    (t.lp1.hit t.pc n = false → t.lp0.hit t.pc n = true → 1 < t.lp0.count.toNat →
      ∃ u, exec i s = .next (s.setThr s.cur u) ∧ u.pc = t.lp0.start ∧ u.lp0 = { t.lp0 with count := t.lp0.count - 1 } ∧ u.lp1 = t.lp1)

/-! ### Integer, address and predicate instructions (chapter 08) -/

/-- 08 R171, R184: add, subtract and the bitwise operations, in the R form and in the X encoding. -/
def Obligations.IntegerArithmetic : Prop :=
  ∀ (s : State) (t : Thread) (g : BitVec 4) (d a b : BitVec 5) (ru : BitVec 3), Runs s t g [.x d, .x a, .x b] [.x a, .x b] →
    let va := s.srcX 0 a
    let vb := s.srcX 1 b
    Gives s t (.add g d a b) (.x d) (va + vb) ∧ Gives s t (.addX g d a b ru) (.x d) (va + vb) ∧
    Gives s t (.sub g d a b) (.x d) (va - vb) ∧ Gives s t (.subX g d a b ru) (.x d) (va - vb) ∧
    Gives s t (.and g d a b) (.x d) (va &&& vb) ∧ Gives s t (.andX g d a b ru) (.x d) (va &&& vb) ∧
    Gives s t (.or g d a b) (.x d) (va ||| vb) ∧ Gives s t (.orX g d a b ru) (.x d) (va ||| vb) ∧
    Gives s t (.xor g d a b) (.x d) (va ^^^ vb) ∧ Gives s t (.xorX g d a b ru) (.x d) (va ^^^ vb) ∧
    Gives s t (.andn g d a b) (.x d) (va &&& ~~~vb) ∧ Gives s t (.andnX g d a b ru) (.x d) (va &&& ~~~vb) ∧
    Gives s t (.orn g d a b) (.x d) (va ||| ~~~vb) ∧ Gives s t (.ornX g d a b ru) (.x d) (va ||| ~~~vb) ∧
    Gives s t (.xnor g d a b) (.x d) (~~~(va ^^^ vb)) ∧ Gives s t (.xnorX g d a b ru) (.x d) (~~~(va ^^^ vb))

/-- 08 R169, R171, R184: shifts and rotates by the low six bits of the second source. -/
def Obligations.ShiftsAndRotates : Prop :=
  ∀ (s : State) (t : Thread) (g : BitVec 4) (d a b : BitVec 5) (ru : BitVec 3), Runs s t g [.x d, .x a, .x b] [.x a, .x b] →
    let va := s.srcX 0 a
    let n := (s.srcX 1 b).toNat % 64
    let both := fun (i j : Instr) (v : Word) => Gives s t i (.x d) v ∧ Gives s t j (.x d) v
    both (.sll g d a b) (.sllX g d a b ru) (BitVec.ofNat 64 (va.toNat * 2 ^ n)) ∧
    both (.srl g d a b) (.srlX g d a b ru) (BitVec.ofNat 64 (va.toNat / 2 ^ n)) ∧
    both (.sra g d a b) (.sraX g d a b ru) (BitVec.ofInt 64 (va.toInt / 2 ^ n)) ∧
    both (.rol g d a b) (.rolX g d a b ru) (va <<< n ||| va >>> (64 - n)) ∧
    both (.ror g d a b) (.rorX g d a b ru) (va >>> n ||| va <<< (64 - n))

/-- 08 R171, R176, R184: minimum and maximum, `lea`, and the halves of the product.
08 R179: division: all ones and the dividend for a divisor of 0, the quotient toward zero and its remainder otherwise, and
the wrapped quotient of the most negative number by −1. -/
def Obligations.MinMaxMultiplyDivide : Prop :=
  (∀ (s : State) (t : Thread) (g : BitVec 4) (d a b : BitVec 5) (k : BitVec 2) (ru : BitVec 3),
    Runs s t g [.x d, .x a, .x b] [.x a, .x b] →
    let va := s.srcX 0 a
    let vb := s.srcX 1 b
    let both := fun (i j : Instr) (p : Word → Prop) => GivesSome s t i (.x d) p ∧ GivesSome s t j (.x d) p
    both (.min g d a b) (.minX g d a b ru) (fun v => v.toInt = Min.min va.toInt vb.toInt) ∧
    both (.max g d a b) (.maxX g d a b ru) (fun v => v.toInt = Max.max va.toInt vb.toInt) ∧
    both (.minn g d a b) (.minnX g d a b ru) (fun v => v.toNat = Min.min va.toNat vb.toNat) ∧
    both (.maxn g d a b) (.maxnX g d a b ru) (fun v => v.toNat = Max.max va.toNat vb.toNat) ∧
    both (.lea k g d a b) (.leaX k g d a b ru) (fun v => v.toNat = (va.toNat + vb.toNat * 2 ^ k.toNat) % 2 ^ 64) ∧
    both (.mul g d a b) (.mulX g d a b ru) (fun v => v.toNat = va.toNat * vb.toNat % 2 ^ 64) ∧
    both (.mulh g d a b) (.mulhX g d a b ru) (fun v => v.toInt = va.toInt * vb.toInt / 2 ^ 64) ∧
    both (.mulhn g d a b) (.mulhnX g d a b ru) (fun v => v.toNat = va.toNat * vb.toNat / 2 ^ 64)) ∧
  (∀ (s : State) (t : Thread) (g : BitVec 4) (d a b : BitVec 5) (la : BitVec 4) (ru : BitVec 3),
    Runs s t g [.x d, .x a, .x b] [.x a, .x b] →
    let va := s.srcX 0 a
    let vb := s.srcX 1 b
    ∃ q qn r rn : Word,
      GivesLate s t (.div g d a b la ru) (.x d) la (q, 0) ∧ GivesLate s t (.divn g d a b la ru) (.x d) la (qn, 0) ∧
      GivesLate s t (.rem g d a b la ru) (.x d) la (r, 0) ∧ GivesLate s t (.remn g d a b la ru) (.x d) la (rn, 0) ∧
      (vb = 0 → q = BitVec.allOnes 64 ∧ qn = BitVec.allOnes 64 ∧ r = va ∧ rn = va) ∧
      (vb ≠ 0 → qn.toNat = va.toNat / vb.toNat ∧ rn.toNat = va.toNat % vb.toNat ∧ r.toInt = va.toInt.tmod vb.toInt) ∧
      (vb ≠ 0 → ¬(va = BitVec.intMin 64 ∧ vb = BitVec.allOnes 64) → q.toInt = va.toInt.tdiv vb.toInt) ∧
      (va = BitVec.intMin 64 → vb = BitVec.allOnes 64 → q = BitVec.intMin 64 ∧ r = 0))

/-- 08 R181 to R184: compares, selection, and the operations on predicates; p7 as a destination discards. -/
def Obligations.ComparesAndPredicates : Prop :=
  (∀ (s : State) (t : Thread) (g : BitVec 4) (d : BitVec 3) (a b : BitVec 5) (ru : BitVec 3), Runs s t g [.x a, .x b] [.x a, .x b] →
    let va := s.srcX 0 a
    let vb := s.srcX 1 b
    let both := fun (c : CmpOp) (v : Bool) => GivesP s t (.cmp c g d a b) d v ∧ GivesP s t (.cmpX c g d a b ru) d v
    both .eq (decide (va = vb)) ∧ both .ne (decide (va ≠ vb)) ∧ both .lt (decide (va.toInt < vb.toInt)) ∧
    both .ge (decide (vb.toInt ≤ va.toInt)) ∧ both .lo (decide (va.toNat < vb.toNat)) ∧ both .hs (decide (vb.toNat ≤ va.toNat))) ∧
  (∀ (s : State) (t : Thread) (g : BitVec 4) (d a b : BitVec 5) (p ru : BitVec 3), Runs s t g [.x d, .x a, .x b] [.x a, .x b] →
    let v := if t.getP p then s.srcX 0 a else s.srcX 1 b
    Gives s t (.sel g d a b p) (.x d) v ∧ Gives s t (.selX g d a b p ru) (.x d) v) ∧
  (∀ (s : State) (t : Thread) (g : BitVec 4) (d a b ru : BitVec 3), Runs s t g [] [] →
    let pa := t.getP a
    let pb := t.getP b
    GivesP s t (.pand g d a b) d (pa && pb) ∧ GivesP s t (.pandX g d a b ru) d (pa && pb) ∧
    GivesP s t (.por g d a b) d (pa || pb) ∧ GivesP s t (.porX g d a b ru) d (pa || pb) ∧
    GivesP s t (.pxor g d a b) d (pa != pb) ∧ GivesP s t (.pxorX g d a b ru) d (pa != pb) ∧
    GivesP s t (.pnot g d a) d (!pa) ∧ GivesP s t (.pnotX g d a ru) d (!pa)) ∧
  (∀ (s : State) (t : Thread) (g : BitVec 4) (d : BitVec 5) (ru : BitVec 3), Runs s t g [.x d] [] →
    let p := fun (v : Word) => v.toNat < 256 ∧ ∀ q : BitVec 3, v.getLsbD q.toNat = t.getP q
    GivesSome s t (.pget g d) (.x d) p ∧ GivesSome s t (.pgetX g d ru) (.x d) p) ∧
  (∀ (s : State) (t : Thread) (g : BitVec 4) (a : BitVec 5) (ru : BitVec 3), Runs s t g [.x a] [.x a] →
    let p := fun (i : Instr) => ∃ u, Ends s t u i [] ∧ u.fflags = t.fflags ∧
      ∀ q : BitVec 3, u.getP q = ((s.srcX 0 a).getLsbD q.toNat || q == 7)
    p (.pset g a) ∧ p (.psetX g a ru))

/-- 08 R172, R173, R175: immediate and constant forms; `lpc` takes the address of the instruction itself. -/
def Obligations.ImmediatesAndConstants : Prop :=
  (∀ (s : State) (t : Thread) (d a : BitVec 5) (imm : BitVec 12) (sh : BitVec 6), Runs s t always [.x d, .x a] [.x a] →
    let va := s.srcX 0 a
    let im := imm.signExtend 64
    Gives s t (.addi d a imm) (.x d) (va + im) ∧ Gives s t (.andi d a imm) (.x d) (va &&& im) ∧
    Gives s t (.ori d a imm) (.x d) (va ||| im) ∧ Gives s t (.xori d a imm) (.x d) (va ^^^ im) ∧
    Gives s t (.slli d a sh) (.x d) (BitVec.ofNat 64 (va.toNat * 2 ^ sh.toNat)) ∧
    Gives s t (.srli d a sh) (.x d) (BitVec.ofNat 64 (va.toNat / 2 ^ sh.toNat)) ∧
    Gives s t (.srai d a sh) (.x d) (BitVec.ofInt 64 (va.toInt / 2 ^ sh.toNat))) ∧
  (∀ (s : State) (t : Thread) (d : BitVec 5) (imm : BitVec 20), Runs s t always [.x d] [] →
    Gives s t (.lih d imm) (.x d) (BitVec.ofInt 64 (imm.toInt * 2 ^ 12)) ∧
    Gives s t (.lpc d imm) (.x d) (t.pc + BitVec.ofInt 64 (imm.toInt * 2 ^ 12))) ∧
  (∀ (s : State) (t : Thread) (g : BitVec 4) (d : BitVec 5) (imm : BitVec 32), Runs s t g [.x d] [] →
    Gives s t (.li g d imm) (.x d) (BitVec.ofInt 64 imm.toInt) ∧ Gives s t (.liZ g d imm) (.x d) (BitVec.ofNat 64 imm.toNat)) ∧
  (∀ (s : State) (t : Thread) (g : BitVec 4) (d a : BitVec 5) (imm : BitVec 32), Runs s t g [.x d, .x a] [.x a] →
    Gives s t (.liHi g d a imm) (.x d) (BitVec.ofNat 64 (imm.toNat * 2 ^ 32 + (s.srcX 0 a).toNat % 2 ^ 32)))

/-- 08 R180: bit fields, whose bits past 63 do not exist; `bfins` changes only the field.
08 R177, R184: leading and trailing zeros (64 for 0), the number of set bits, bits and bytes in reverse order. -/
def Obligations.BitCountsAndFields : Prop :=
  ((∀ (s : State) (t : Thread) (g : BitVec 4) (d a : BitVec 5) (pos len : BitVec 6) (ru : BitVec 3),
    Runs s t g [.x d, .x a] [.x a] →
    let va := s.srcX 0 a
    let w := Min.min (len.toNat + 1) (64 - pos.toNat)
    GivesSome s t (.bfextN g d a pos len ru) (.x d) (fun v =>
      ∀ i, v.getLsbD i = (decide (i < w) && va.getLsbD (pos.toNat + i))) ∧
    GivesSome s t (.bfext g d a pos len ru) (.x d) (fun v =>
      ∀ i, i < 64 → v.getLsbD i = va.getLsbD (pos.toNat + Min.min i (w - 1)))) ∧
  (∀ (s : State) (t : Thread) (g : BitVec 4) (d a : BitVec 5) (pos len : BitVec 6) (ru : BitVec 3),
    Runs s t g [.x d, .x d, .x a] [.x d, .x a] →
    let vd := s.srcX 0 d
    let va := s.srcX 1 a
    GivesSome s t (.bfins g d a pos len ru) (.x d) (fun v =>
      ∀ i, i < 64 → v.getLsbD i =
        if pos.toNat ≤ i ∧ i < pos.toNat + len.toNat + 1 then va.getLsbD (i - pos.toNat) else vd.getLsbD i))) ∧
  (∀ (s : State) (t : Thread) (g : BitVec 4) (d a : BitVec 5) (ru : BitVec 3), Runs s t g [.x d, .x a] [.x a] →
    let va := s.srcX 0 a
    let both := fun (i j : Instr) (p : Word → Prop) => GivesSome s t i (.x d) p ∧ GivesSome s t j (.x d) p
    both (.clz g d a) (.clzX g d a ru) (fun v =>
      (va = 0 → v = 64) ∧ (va ≠ 0 → v.toNat < 64 ∧ 2 ^ (63 - v.toNat) ≤ va.toNat ∧ va.toNat < 2 ^ (64 - v.toNat))) ∧
    both (.ctz g d a) (.ctzX g d a ru) (fun v =>
      (va = 0 → v = 64) ∧ (va ≠ 0 → v.toNat < 64 ∧ va.getLsbD v.toNat = true ∧ ∀ i, i < v.toNat → va.getLsbD i = false)) ∧
    both (.popc g d a) (.popcX g d a ru) (fun v => v.toNat = ((List.range 64).filter fun i => va.getLsbD i).length) ∧
    both (.brev g d a) (.brevX g d a ru) (fun v => ∀ i, i < 64 → v.getLsbD i = va.getLsbD (63 - i)) ∧
    both (.bswap g d a) (.bswapX g d a ru) (fun v =>
      ∀ i, i < 8 → v.toNat / 256 ^ i % 256 = va.toNat / 256 ^ (7 - i) % 256))
/-! ### Floating point (chapters 10 and 11) -/

/-- 11 R229, R230, R240: the arithmetic of each element is exact and rounded once, to the element's format in the mode the
instruction selects; a sum of products is not rounded in between; FFLAGS takes the flags of every element. -/
def Obligations.FloatArithmetic : Prop :=
  (∀ (s : State) (t : Thread) (ty : FType) (g : BitVec 4) (d a b : BitVec 5) (rm : RM) (ru : BitVec 3),
    Runs s t g [.f d, .f a, .f b] [.f a, .f b] →
    let md := rndFor rm t.frm
    let x := fun i => FType.valAt ty (s.srcF 0 a) i
    let y := fun i => FType.valAt ty (s.srcF 1 b) i
    GivesFl s t (.fadd ty g d a b rm ru) (.f d) (FType.pack ty fun i => roundVal ty.elem md (sumOf md [x i, y i])) ∧
    GivesFl s t (.fsub ty g d a b rm ru) (.f d) (FType.pack ty fun i => roundVal ty.elem md (sumOf md [x i, (y i).flip])) ∧
    GivesFl s t (.fmul ty g d a b rm ru) (.f d) (FType.pack ty fun i => roundVal ty.elem md ((x i).mul (y i))) ∧
    ∀ la, GivesLate s t (.fdiv ty g d a b rm la ru) (.f d) la (FType.pack ty fun i => fdivE ty.elem md (x i) (y i))) ∧
  (∀ (s : State) (t : Thread) (ty : FType) (g : BitVec 4) (d a b c : BitVec 5) (rm : RM) (ru : BitVec 3),
    Runs s t g [.f d, .f a, .f b, .f c] [.f a, .f b, .f c] →
    let md := rndFor rm t.frm
    let p := fun i => (FType.valAt ty (s.srcF 0 a) i).mul (FType.valAt ty (s.srcF 1 b) i)
    let z := fun i => FType.valAt ty (s.srcF 2 c) i
    GivesFl s t (.fma ty g d a b c rm ru) (.f d) (FType.pack ty fun i => roundVal ty.elem md (sumOf md [p i, z i])) ∧
    GivesFl s t (.fms ty g d a b c rm ru) (.f d) (FType.pack ty fun i => roundVal ty.elem md (sumOf md [p i, (z i).flip])) ∧
    GivesFl s t (.fnma ty g d a b c rm ru) (.f d) (FType.pack ty fun i => roundVal ty.elem md (sumOf md [(p i).flip, z i])) ∧
    GivesFl s t (.fdot2 ty g d a b c rm ru) (.f d) (FType.pack .f32x2 fun j =>
      roundVal .f32 md (sumOf .ne [FType.valAt .f32x2 (s.srcF 2 c) j, p (2 * j), p (2 * j + 1)]))) ∧
  (∀ (s : State) (t : Thread) (ty : FType) (g : BitVec 4) (d a : BitVec 5) (rm : RM) (la : BitVec 4) (ru : BitVec 3),
    Runs s t g [.f d, .f a] [.f a] →
    let md := rndFor rm t.frm
    let x := fun i => FType.valAt ty (s.srcF 0 a) i
    GivesLate s t (.fsqrt ty g d a rm la ru) (.f d) la (FType.pack ty fun i => fsqrtE ty.elem md (x i)) ∧
    GivesLate s t (.frcp ty g d a rm la ru) (.f d) la (FType.pack ty fun i => fdivE ty.elem md (.num false 1 0) (x i)) ∧
    GivesLate s t (.frsqrt ty g d a rm la ru) (.f d) la (FType.pack ty fun i => frsqrtE ty.elem md (x i)))

/-- 11 R231 to R235: minimum and maximum, the operations on the sign, compares into a predicate, classes and rounding to an
integer, element by element. -/
def Obligations.FloatBitsAndCompares : Prop :=
  (∀ (s : State) (t : Thread) (ty : FType) (g : BitVec 4) (d a b : BitVec 5) (ru : BitVec 3),
    Runs s t g [.f d, .f a, .f b] [.f a, .f b] →
    let x := fun i => FType.bitsAt ty (s.srcF 0 a) i
    let y := fun i => FType.bitsAt ty (s.srcF 1 b) i
    let sg := 2 ^ (ty.elem.width - 1)
    GivesFl s t (.fmin ty g d a b ru) (.f d) (FType.pack ty fun i => fminmaxE ty.elem false (x i) (y i)) ∧
    GivesFl s t (.fmax ty g d a b ru) (.f d) (FType.pack ty fun i => fminmaxE ty.elem true (x i) (y i)) ∧
    GivesFl s t (.fcpsgn ty g d a b ru) (.f d) (FType.pack ty fun i => (x i % sg + y i / sg * sg, 0))) ∧
  (∀ (s : State) (t : Thread) (ty : FType) (g : BitVec 4) (d a : BitVec 5) (rm : RM) (ru : BitVec 3),
    Runs s t g [.f d, .f a] [.f a] →
    let x := fun i => FType.bitsAt ty (s.srcF 0 a) i
    let sg := 2 ^ (ty.elem.width - 1)
    GivesFl s t (.fabs ty g d a ru) (.f d) (FType.pack ty fun i => (x i % sg, 0)) ∧
    GivesFl s t (.fneg ty g d a ru) (.f d) (FType.pack ty fun i => (if x i < sg then x i + sg else x i - sg, 0)) ∧
    GivesFl s t (.fround ty g d a rm ru) (.f d) (FType.pack ty fun i => froundE ty.elem (rndFor rm t.frm) (x i))) ∧
  (∀ (s : State) (t : Thread) (c : FcmpOp) (ty : FType) (g : BitVec 4) (d : BitVec 3) (a b : BitVec 5) (ru : BitVec 3),
    Runs s t g [.f a, .f b] [.f a, .f b] →
    let r := fcmpE ty.elem c (FType.bitsAt ty (s.srcF 0 a) 0) (FType.bitsAt ty (s.srcF 1 b) 0)
    ∃ u, Ends s t u (.fcmp c ty g d a b ru) [] ∧ u.getP d = (r.1 || d == 7) ∧ (∀ q, q ≠ d → u.getP q = t.getP q) ∧
      u.fflags = t.fflags ||| r.2) ∧
  (∀ (s : State) (t : Thread) (ty : FType) (g : BitVec 4) (d a : BitVec 5) (ru : BitVec 3), Runs s t g [.x d, .f a] [.f a] →
    ∃ c, c < 10 ∧ fclassE ty.elem (FType.bitsAt ty (s.srcF 0 a) 0) = c ∧
      Gives s t (.fclass ty g d a ru) (.x d) (BitVec.ofNat 64 (2 ^ c)))

/-- 10 R212, R218; 11 R230, R231, R234: NaN and infinite operands. Every NaN result is the default NaN of the format; a
signalling NaN, opposite infinities, 0 × infinity, 0/0 and the root of a negative number set NV; a finite number over 0 sets
DZ; `fmin` and `fmax` prefer a number to a NaN; an ordered compare with a NaN is false and sets NV.
10 R210, R214, R215: what the constants of the formats encode. -/
def Obligations.FloatFormatsAndSpecialCases : Prop :=
  (∀ (E : Elem) (md : Rnd) (v w : Nat) (x : FVal),
    (∀ q, roundVal E md (sumOf md [.nan q, x]) = (E.nanBits, if q || x.isSig then flagNV else 0)) ∧
    roundVal E md (sumOf md [.inf false, .inf true]) = (E.nanBits, flagNV) ∧
    (∀ n, roundVal E md (sumOf md [.inf n, .inf n]) = (E.infOf n, 0)) ∧
    (∀ n k e, roundVal E md ((FVal.num n 0 e).mul (.inf k)) = (E.nanBits, flagNV)) ∧
    (∀ n m e k f, fdivE E md (.num n (m + 1) e) (.num k 0 f) = (E.infOf (n != k), flagDZ)) ∧
    (∀ n e k f, fdivE E md (.num n 0 e) (.num k 0 f) = (E.nanBits, flagNV)) ∧
    (∀ m e, fsqrtE E md (.num true (m + 1) e) = (E.nanBits, flagNV)) ∧
    (∀ n e, fsqrtE E md (.num n 0 e) = roundVal E md (.num n 0 0)) ∧
    (∀ q, E.decode v = .nan q → (E.decode w).isNan = false →
      (fminmaxE E false v w).1 = w ∧ (fminmaxE E true v w).1 = w ∧ (fminmaxE E false w v).1 = w ∧
      fcmpE E .lt v w = (false, flagNV) ∧ fcmpE E .le w v = (false, flagNV) ∧
      (fcmpE E .eq v w).1 = false ∧ (fcmpE E .ne v w).1 = true ∧ (fcmpE E .un v w).1 = true) ∧
    (∀ q r, E.decode v = .nan q → E.decode w = .nan r → (fminmaxE E false v w).1 = E.nanBits)) ∧
  (Elem.nanBits .f64 = 0x7FF8000000000000 ∧ Elem.nanBits .f32 = 0x7FC00000 ∧ Elem.nanBits .f16 = 0x7E00 ∧
  Elem.nanBits .bf16 = 0x7FC0 ∧ Elem.nanBits .a8 = 0x80 ∧ Elem.maxOf .f64 false = 0x7FEFFFFFFFFFFFFF ∧
  Elem.maxOf .f32 false = 0x7F7FFFFF ∧ Elem.maxOf .f16 false = 0x7BFF ∧ Elem.maxOf .bf16 false = 0x7F7F ∧
  Elem.decode .f32 0x3F800000 = .num false (2 ^ 23) (-23) ∧ Elem.decode .f32 0x80000001 = .num true 1 (-149) ∧
  Elem.decode .f64 0xFFF0000000000000 = .inf true ∧ Elem.decode .f32 0x7FA00000 = .nan true ∧
  Elem.decode .bf16 0x7FC0 = .nan false ∧ Elem.decode .f16 0x7BFF = .num false 2047 5 ∧ Elem.decode .f16 0x0001 = .num false 1 (-24) ∧
  Elem.decode .a8 0x80 = .nan false ∧ Elem.decode .a8 0x7F = .inf false ∧ Elem.decode .a8 0x01 = .num false 1 (-24))

/-- 10 R216, R218: in a binary format, a result of one rounding that raises none of NX and OF is the exact value, and in the
mode toward zero a result is never larger in magnitude than the exact value. Magnitudes are compared as counts of units
2^q. -/
def Obligations.RoundingIsFaithful : Prop :=
  ∀ (E : Elem) (md : Rnd) (neg : Bool) (m : Nat) (e : Int), E ≠ .a8 →
    let r := roundVal E md (.num neg m e)
    (r.2 = 0 → ∃ k f, E.decode r.1 = .num neg k f ∧
      ∀ q : Int, q ≤ e → q ≤ f → (FVal.num neg k f).units q = (FVal.num neg m e).units q) ∧
    (md = .tz → ∃ k f, E.decode r.1 = .num neg k f ∧
      ∀ q : Int, q ≤ e → q ≤ f → ((FVal.num neg k f).units q).natAbs ≤ ((FVal.num neg m e).units q).natAbs)

/-- 07 R152: a register value made of elements holds each result at its place, bits above the elements are 0, and the flags of
the elements are joined. -/
def Obligations.PackedElements : Prop :=
  ∀ (ty : FType) (f : Nat → FRes), (∀ i, i < ty.count → (f i).1 < 2 ^ ty.elem.width) →
    (∀ i, i < ty.count → FType.bitsAt ty (FType.pack ty f).1 i = (f i).1) ∧
    (FType.pack ty f).1.toNat < 2 ^ (ty.elem.width * ty.count) ∧
    ∀ j, (FType.pack ty f).2.getLsbD j = true ↔ ∃ i, i < ty.count ∧ (f i).2.getLsbD j = true

/-- 10 R220 to R223; 11 R241 to R244: conversions between formats deliver or trap as the overflow policy says; conversions to
and from 64-bit integers saturate with NV; moves copy bits.
11 R236 to R238: the approximations give the value they compute for each element, long-latency; NaN gives the default NaN,
and the cases the rules make exact are exact: `fexp2` of an integer in range, of 0 and of infinities, `flog2` of a power of
two, of ±0 (DZ) and of a negative number (NV), `fsinp` and `fcosp` of quarter turns, `fsinp` of an infinity (NV). -/
def Obligations.FloatConversionsAndApproximations : Prop :=
  ((∀ (s : State) (t : Thread) (ty src : FType) (g : BitVec 4) (d a b : BitVec 5) (ovp : BitVec 2) (rm : RM) (ru : BitVec 3),
    Runs s t g (.f d :: cvtRegs ty src a b) (cvtRegs ty src a b) →
    let e := cvtElem ty src (rndFor rm t.frm) ovp (s.srcF 0 a) (s.srcF 1 b) b.toNat
    let i := Instr.fcvt ty src g d a b ovp rm ru
    ((∀ j, j < ty.count → (e j).2 = false) → GivesFl s t i (.f d) (FType.pack ty fun j => (e j).1)) ∧
    (∀ j, j < ty.count → (e j).2 = true → (∀ k, k < j → (e k).2 = false) → exec i s = .next (s.trap 0x0C (BitVec.ofNat 64 j)))) ∧
  (∀ (s : State) (t : Thread) (ty : FType) (sgn : Bool) (g : BitVec 4) (d a : BitVec 5) (rm : RM) (ru : BitVec 3),
    Runs s t g [.x d, .f a] [.f a] →
    GivesFl s t (.fcvtX ty sgn g d a rm ru) (.x d) (toInt64 ty.elem (rndFor rm t.frm) sgn (FType.bitsAt ty (s.srcF 0 a) 0)) ∧
    Gives s t (.fmvX ty g d a ru) (.x d)
      (if ty.elem = .f64 then s.srcF 0 a else BitVec.ofInt 64 (BitVec.ofNat 32 (s.srcF 0 a).toNat).toInt)) ∧
  (∀ (s : State) (t : Thread) (ty : FType) (sgn : Bool) (g : BitVec 4) (d a : BitVec 5) (rm : RM) (ru : BitVec 3),
    Runs s t g [.f d, .x a] [.x a] →
    GivesFl s t (.xcvtF ty sgn g d a rm ru) (.f d) (FType.pack ty fun _ => ofInt64 ty.elem (rndFor rm t.frm) sgn (s.srcX 0 a)) ∧
    Gives s t (.fmvF ty g d a ru) (.f d) (if ty.elem = .f64 then s.srcX 0 a else BitVec.ofNat 64 ((s.srcX 0 a).toNat % 2 ^ 32))) ∧
  (∀ md, toInt64 .f64 md false 0xBFF0000000000000 = (0, flagNV)) ∧ toInt64 .f64 .tz false 0xBFD3333333333333 = (0, flagNX) ∧
  (∀ md sgn, toInt64 .f32 md sgn 0x7FC00000 = (0, flagNV) ∧
    toInt64 .f32 md sgn 0x7F800000 = (if sgn then 0x7FFFFFFFFFFFFFFF else 0xFFFFFFFFFFFFFFFF, flagNV)) ∧
  (∀ (dst src : Elem) (md : Rnd) (v : Nat) (n : Bool) (m : Nat) (e : Int), src.decode v = .num n m e →
    (roundMag dst md n m e false).2 = true → convPolicy src dst = true →
    fcvtE dst src md 0 v = ((dst.maxOf n, flagOF ||| flagNX), false) ∧ fcvtE dst src md 1 v = ((dst.infOf n, flagOF ||| flagNX), false) ∧
    fcvtE dst src md 2 v = ((dst.nanBits, flagOF ||| flagNX), false) ∧ (fcvtE dst src md 3 v).2 = true)) ∧
  ((∀ (s : State) (t : Thread) (ty : FType) (g : BitVec 4) (d a : BitVec 5) (rm : RM) (la : BitVec 4) (ru : BitVec 3),
    Runs s t g [.f d, .f a] [.f a] →
    let x := fun i => FType.bitsAt ty (s.srcF 0 a) i
    GivesLate s t (.fexp2 ty g d a la ru) (.f d) la (FType.pack ty fun i => fexp2E (x i)) ∧
    GivesLate s t (.flog2 ty g d a la ru) (.f d) la (FType.pack ty fun i => flog2E (x i)) ∧
    GivesLate s t (.fsinp ty g d a la ru) (.f d) la (FType.pack ty fun i => sinpE false (x i)) ∧
    GivesLate s t (.fcosp ty g d a la ru) (.f d) la (FType.pack ty fun i => sinpE true (x i)) ∧
    GivesLate s t (.frdx ty g d a rm la ru) (.f d) la (FType.pack ty fun i => frdxE (rndFor rm t.frm) (x i))) ∧
  (∀ (f : Nat → FRes), f ∈ [fexp2E, flog2E, sinpE false, sinpE true] →
    f 0x7FC00000 = (0x7FC00000, 0) ∧ f 0xFFA00000 = (0x7FC00000, flagNV)) ∧
  fexp2E 0x40400000 = (0x41000000, 0) ∧ fexp2E 0 = (0x3F800000, 0) ∧ fexp2E 0xFF800000 = (0, 0) ∧
  fexp2E 0x7F800000 = (0x7F800000, 0) ∧ fexp2E 0x43000000 = (0x7F800000, flagOF ||| flagNX) ∧
  flog2E 0x41000000 = (0x40400000, 0) ∧ flog2E 0 = (0xFF800000, flagDZ) ∧ flog2E 0xBF800000 = (0x7FC00000, flagNV) ∧
  sinpE false 0x3E800000 = (0x3F800000, 0) ∧ sinpE true 0x3F000000 = (0xBF800000, 0) ∧ sinpE false 0x7F800000 = (0x7FC00000, flagNV))

/-- 02 R45, 08 R185, 11 R245: both slots of a pair word read before either writes; the A slot has the effect of its integer
or predicate operation, the D slot that of its float operation, rounded by FRM, and no other register changes. -/
def Obligations.PairWordSlots : Prop :=
  ∀ (s : State) (t : Thread) (g : BitVec 4) (aop : AOp) (ad aa ab : BitVec 5) (aru : BitVec 2) (dop : DOp) (dd da db dc : BitVec 5),
    let i := Instr.pairWord g aop ad aa ab aru dop dd da db dc
    i.wf = true → Runs s t g (slotARegs aop ad aa ab ++ slotDRegs dop dd da db dc) (slotASrc aop aa ab ++ slotDSrc dop da db dc) →
    let a := s.srcX 0 aa
    let b := s.srcX 1 ab
    let n := b.toNat % 64
    let pa := t.getP (slotP aa)
    let pb := t.getP (slotP ab)
    let x := s.srcX 2 da
    let fa := s.srcF 2 da
    let fb := s.srcF 3 db
    let fc := s.srcF 4 dc
    let md := rndOf t.frm
    ∃ u, Ends s t u i ((if aop.writesX then [.x ad] else []) ++ (if dop = .nop then [] else if dop = .fmvX then [.x dd] else [.f dd])) ∧
      (∀ v, (aop, v) ∈ [(AOp.add, a + b), (.sub, a - b), (.and, a &&& b), (.or, a ||| b), (.xor, a ^^^ b), (.andn, a &&& ~~~b),
          (.sll, a <<< n), (.srl, a >>> n), (.sra, a.sshiftRight n), (.min, if a.toInt ≤ b.toInt then a else b),
          (.max, if a.toInt ≤ b.toInt then b else a), (.minn, if a.toNat ≤ b.toNat then a else b),
          (.maxn, if a.toNat ≤ b.toNat then b else a), (.lea4, a + b * 4), (.lea8, a + b * 8), (.mul, a * b)] →
        u.get (.x ad) = (Dest.x ad).holds v) ∧
      (∀ v, (aop, v) ∈ [(AOp.pand, pa && pb), (.por, pa || pb), (.pxor, pa != pb), (.pnot, !pa), (.cmp .eq, decide (a = b)),
          (.cmp .ne, decide (a ≠ b)), (.cmp .lt, decide (a.toInt < b.toInt)), (.cmp .ge, decide (b.toInt ≤ a.toInt)),
          (.cmp .lo, decide (a.toNat < b.toNat)), (.cmp .hs, decide (b.toNat ≤ a.toNat))] →
        u.getP (slotP ad) = (v || slotP ad == 7) ∧ ∀ q, q ≠ slotP ad → u.getP q = t.getP q) ∧
      ((aop = .nop ∨ aop.writesX = true) → u.p = t.p) ∧
      (∀ r : Word × BitVec 5, (dop, r) ∈ [(DOp.faddS, faddV .f32 md fa fb), (.fsubS, fsubV .f32 md fa fb), (.fmulS, fmulV .f32 md fa fb),
          (.fmaS, fmaV .f32 false false md fa fb fc), (.faddD, faddV .f64 md fa fb), (.fmulD, fmulV .f64 md fa fb),
          (.fmaD, fmaV .f64 false false md fa fb fc), (.faddB, faddV .bf16x4 md fa fb), (.fmulB, fmulV .bf16x4 md fa fb),
          (.fmaB, fmaV .bf16x4 false false md fa fb fc), (.fmaH, fmaV .f16x4 false false md fa fb fc),
          (.fminS, zipB .f32 (fminmaxE .f32 false) fa fb), (.fmaxS, zipB .f32 (fminmaxE .f32 true) fa fb),
          (.fabsS, mapB .f32 (fabsB .f32) fa), (.fnegS, mapB .f32 (fnegB .f32) fa), (.fmvF, (x, 0)),
          (.fdot2, fdot2V .bf16x4 md fa fb fc), (.fmaP, fmaV .f32x2 false false md fa fb fc)] →
        u.get (.f dd) = r.1 ∧ u.fflags = t.fflags ||| r.2) ∧
      (dop = .fmvX → u.get (.x dd) = (Dest.x dd).holds fa) ∧
      ((dop = .nop ∨ dop = .fmvX) → u.fflags = t.fflags)

/-! ### Lane operations (11 R247 to R252) -/

/-- 11 R247, R248, R251: a lane operation that names no other lane completes alone: `lsel` and `lred` give the caller's own
value and `lvote` its own bit with status true, `lxch`, which names no single partner, the caller's value with status false. An
L-core runs a lane operation that names at most lane 0, and traps with cause 0x07 on any other. -/
def Obligations.LaneOpsAlone : Prop :=
  ∀ (s : State) (t : Thread) (isF : Bool) (op : LredOp) (g : BitVec 4) (d a b : BitVec 5) (pa pc ru : BitVec 3),
    let D := fun (f : Bool) (r : BitVec 5) => if f then Dest.f r else Dest.x r
    let alone := fun (i : Instr) (e : Dest) (v : Word) (st : Bool) =>
      Answers s i fun s' => s'.me.get e = e.holds v ∧ s'.me.getP pc = (st || pc == 7) ∧ s'.me.fflags = t.fflags ∧
        s'.me.wait = none ∧ KeepsRegs t s'.me [e] ∧ MovesOn t s'.me 8 ∧ s'.mem = s.mem
    let ok := ((t.onL = true ∧ (s.srcX 1 b).toNat < 2) ∨ (t.onL = false ∧ t.laneWait = none ∧ named t.lane (s.srcX 1 b) = []))
    (Runs s t g [D isF d, D isF a, .x b] [D isF a, .x b] →
      (ok → alone (.lxch isF g d a b pc ru) (D isF d) (s.src 0 (D isF a)) false ∧
        alone (.lsel isF g d a b pc ru) (D isF d) (s.src 0 (D isF a)) true) ∧
      (t.onL = true → 2 ≤ (s.srcX 1 b).toNat →
        exec (.lxch isF g d a b pc ru) s = .next (s.trap 0x07 (parcels (.lxch isF g d a b pc ru))) ∧
        exec (.lsel isF g d a b pc ru) s = .next (s.trap 0x07 (parcels (.lsel isF g d a b pc ru))))) ∧
    (Runs s t g [D (lredIsF op) d, D (lredIsF op) a, .x b] [D (lredIsF op) a, .x b] → ok →
      let v := s.src 0 (D (lredIsF op) a)
      alone (.lred op g d a b pc ru) (D (lredIsF op) d) (if lredIsF op then BitVec.ofNat 64 (v.toNat % 2 ^ 32) else v) true) ∧
    (Runs s t g [.x d, .x b] [.x b] → ok →
      alone (.lvote g d pa b pc ru) (.x d) (if t.getP pa then BitVec.ofNat 64 (2 ^ (t.lane % 64)) else 0) true)

/-- 11 R249, R251: a lane operation whose single partner has arrived at the same instruction, unmatched with the caller,
completes with it: `lxch` gives the partner's value, `lsel` that of the lower lane, `lvote` the bits of both, `lred` one step
of the reduction in lane order; the partner's arrival is matched with the caller.
11 R249, R250: with a partner that has not arrived the caller waits at its instruction, its own arrival standing; a lane
whose guard is false arrives too, as absent, and moves on; in a lane-wait cycle every unmatched partner of its members
becomes absent. -/
def Obligations.LaneOpsMeetOrWait : Prop :=
  (∀ (s : State) (t : Thread) (op : LredOp) (g : BitVec 4) (d a b : BitVec 5) (pa pc ru : BitVec 3) (n k : Nat) (v : Word) (seen : List Nat),
    t.onL = false → t.laneWait = none → named t.lane (s.srcX 1 b) = [n] → s.laneOf t.wg n = some k → k ≠ s.cur →
    (s.thr k).arrival = some ⟨t.pc, true, v, seen⟩ → t.lane ∉ seen →
    let done := fun (i : Instr) (e : Dest) (r : Word × BitVec 5) =>
      Answers s i fun s' => s'.me.get e = e.holds r.1 ∧ s'.me.getP pc = true ∧ s'.me.fflags = t.fflags ||| r.2 ∧ s'.me.wait = none ∧
        KeepsRegs t s'.me [e] ∧ MovesOn t s'.me 8 ∧ (s'.thr k).arrival = some ⟨t.pc, true, v, t.lane :: seen⟩ ∧ s'.mem = s.mem
    (Runs s t g [.x d, .x a, .x b] [.x a, .x b] →
      done (.lxch false g d a b pc ru) (.x d) (v, 0) ∧
      done (.lsel false g d a b pc ru) (.x d) (if n < t.lane then v else s.srcX 0 a, 0) ∧
      (lredIsF op = false →
        done (.lred op g d a b pc ru) (.x d) (if n < t.lane then lredStep op v (s.srcX 0 a) else lredStep op (s.srcX 0 a) v))) ∧
    (Runs s t g [.f d, .f a, .x b] [.f a, .x b] →
      done (.lxch true g d a b pc ru) (.f d) (v, 0) ∧
      done (.lsel true g d a b pc ru) (.f d) (if n < t.lane then v else s.srcF 0 a, 0) ∧
      (lredIsF op = true →
        done (.lred op g d a b pc ru) (.f d) (if n < t.lane then lredStep op v (s.srcF 0 a) else lredStep op (s.srcF 0 a) v))) ∧
    (Runs s t g [.x d, .x b] [.x b] →
      done (.lvote g d pa b pc ru) (.x d)
        ((if t.getP pa then BitVec.ofNat 64 (2 ^ (t.lane % 64)) else 0) ||| (if v = 0 then 0 else BitVec.ofNat 64 (2 ^ (n % 64))), 0))) ∧
  ((∀ (s : State) (t : Thread) (g : BitVec 4) (d a b : BitVec 5) (pc ru : BitVec 3) (n k : Nat),
    t.onL = false → t.laneWait = none → named t.lane (s.srcX 1 b) = [n] → s.laneOf t.wg n = some k → k ≠ s.cur →
    (s.thr k).arrival = none → Runs s t g [.x d, .x a, .x b] [.x a, .x b] →
    Answers s (.lxch false g d a b pc ru) fun s' =>
      s'.me.wait = some .lane ∧ s'.me.pc = t.pc ∧ s'.me.x = t.x ∧ s'.me.f = t.f ∧ s'.me.p = t.p ∧
      (s'.me.laneWait.map (·.want)) = some [n] ∧ (s'.me.arrival.map fun a => (a.addr, a.here, a.val)) = some (t.pc, true, s.srcX 0 a)) ∧
  (∀ (s : State) (t : Thread) (g : BitVec 4) (d a b : BitVec 5) (pc ru : BitVec 3),
    tget s.threads s.cur = some t → [Dest.x d, .x a, .x b].all t.inBudget = true → t.guard g = false → t.onL = false →
    Answers s (.lxch false g d a b pc ru) fun s' =>
      KeepsRegs t s'.me [] ∧ s'.me.p = t.p ∧ MovesOn t s'.me 8 ∧ (s'.me.arrival.map fun a => (a.addr, a.here)) = some (t.pc, false)) ∧
  (∀ (s : State) (w k : Nat) (t : Thread) (lw : LaneWait), tget s.threads k = some t → t.laneWait = some lw →
    Answers s (.laneWaitCycle w) fun s' =>
      (k ∈ s.laneCycle w → (tget s'.threads k).map (·.laneWait) = some (some { lw with want := [], absent := true })) ∧
      (k ∉ s.laneCycle w → tget s'.threads k = some t) ∧ s'.mem = s.mem ∧ s'.wgs = s.wgs))

/-! ### Transfers and loops (14 R303 to R312) -/

/-- 14 R303, R304, R309: every transfer, from the address it computes or the register it reads before any link is written; the
link is the address after the instruction; levels whose body does not hold the target end, in user mode. -/
def Obligations.Transfers : Prop :=
  ∀ (s : State) (t : Thread) (g : BitVec 4) (off : BitVec 21) (imm : BitVec 32) (d a : BitVec 5),
    let goes := fun (i : Instr) (link : Option (BitVec 5 × Word)) (target : Word) =>
      ∃ u, exec i s = .next (s.setThr s.cur u) ∧ u.rest = t.rest ∧ u.pc = target ∧ u.entered = true ∧ u.p = t.p ∧ u.fflags = t.fflags ∧
        KeepsRegs t u (link.map fun l => Dest.x l.1).toList ∧ (∀ l ∈ link, u.get (.x l.1) = (Dest.x l.1).holds l.2) ∧
        (t.mode = true → u.lp0 = t.lp0 ∧ u.lp1 = t.lp1) ∧
        (t.mode = false →
          u.lp0 = (if t.lp0.active ∧ (target < t.lp0.start ∨ t.lp0.last < target) then { t.lp0 with count := 0 } else t.lp0) ∧
          u.lp1 = (if t.lp1.active ∧ (target < t.lp1.start ∨ t.lp1.last < target) then { t.lp1 with count := 0 } else t.lp1))
    (Runs s t g [] [] →
      goes (.br g off) none (t.pc + BitVec.ofInt 64 (4 * off.toInt)) ∧
      goes (.call g off) (some (1, t.pc + 4)) (t.pc + BitVec.ofInt 64 (4 * off.toInt)) ∧
      goes (.jmp g imm) none (t.pc + BitVec.ofInt 64 (4 * imm.toInt)) ∧
      goes (.callL g imm) (some (1, t.pc + 8)) (t.pc + BitVec.ofInt 64 (4 * imm.toInt))) ∧
    (Runs s t g [.x a] [.x a] → goes (.jr g a) none (s.srcX 0 a)) ∧
    (Runs s t g [.x 1] [.x 1] → goes (.ret g) none (s.srcX 0 1)) ∧
    (Runs s t g [.x d, .x a] [.x a] → goes (.callr g d a) (some (d, t.pc + 4)) (s.srcX 0 a))

/-- 14 R307, R310, R312: `loop` starts the level that is free, skips the body for a count of 0, and traps with cause 0x06 and
its code where the rule says; `loopx` ends the innermost level and goes past its body; `nop` does nothing. -/
def Obligations.HardwareLoops : Prop :=
  (∀ (s : State) (t : Thread) (a : BitVec 5) (len : BitVec 12), Runs s t always [.x a] [.x a] →
    let v := (s.srcX 0 a).toNat
    let i := Instr.loop a len
    let start := t.pc + 4
    let last := t.pc + BitVec.ofNat 64 (4 * len.toNat)
    (t.mode = true → exec i s = .next (s.trap 0x06 3)) ∧
    (t.mode = false →
      (len = 0 → exec i s = .next (s.trap 0x06 4)) ∧
      (len ≠ 0 →
        (2 ^ 32 ≤ v → exec i s = .next (s.trap 0x06 5)) ∧
        (v < 2 ^ 32 →
          (t.lp0.count ≠ 0 → t.lp1.count ≠ 0 → exec i s = .next (s.trap 0x06 1)) ∧
          (t.lp0.count ≠ 0 → t.lp1.count = 0 → t.lp0.last < last → exec i s = .next (s.trap 0x06 2)) ∧
          ((t.lp0.count = 0 ∨ (t.lp1.count = 0 ∧ last ≤ t.lp0.last)) →
            ∃ u, exec i s = .next (s.setThr s.cur u) ∧ u.rest = t.rest ∧ KeepsRegs t u [] ∧
              (v ≠ 0 → t.lp0.count = 0 → t.lp1.count = 0 → u.pc = start ∧ u.lp0 = ⟨start, last, BitVec.ofNat 32 v⟩ ∧ u.lp1 = t.lp1) ∧
              (v ≠ 0 → t.lp0.count ≠ 0 → t.lp0.last ≠ t.pc → u.pc = start ∧ u.lp1 = ⟨start, last, BitVec.ofNat 32 v⟩ ∧ u.lp0 = t.lp0) ∧
              (v = 0 → (t.lp0.count = 0 ∨ last ≠ t.lp0.last) → u.pc = last + 4 ∧ u.lp0 = t.lp0 ∧ u.lp1 = t.lp1)))))) ∧
  (∀ (s : State) (t : Thread) (g : BitVec 4), Runs s t g [] [] →
    (t.mode = true → exec (.loopx g) s = .next (s.trap 0x06 3)) ∧
    (t.mode = false →
      ∃ u, exec (.loopx g) s = .next (s.setThr s.cur u) ∧ u.rest = t.rest ∧ KeepsRegs t u [] ∧
        (t.lp1.count ≠ 0 → u.lp1.count = 0 ∧ u.pc = t.lp1.last + 4) ∧
        (t.lp1.count = 0 → t.lp0.count ≠ 0 → u.lp0.count = 0 ∧ u.pc = t.lp0.last + 4) ∧
        (t.lp1.count = 0 → t.lp0.count = 0 → u.pc = t.pc + 4)) ∧
    ∃ u, Ends s t u (.nop g) [] ∧ u.p = t.p ∧ u.fflags = t.fflags)

/-! ### Traps and system instructions (chapter 18) -/

/-- 18 R396, R397, R398: entering the handler saves the program counter, the cause and the mode, goes to system mode at TVEC,
and changes no memory, no loop and no register but by results that take effect; a member of a gang is noted with its
position. A trap of the first instruction at TVEC ends the thread and is logged with code 16. -/
def Obligations.TrapEntry : Prop :=
  ∀ (s : State) (t : Thread) (code : Nat) (tval : Word), tget s.threads s.cur = some t → t.laneWait = none →
    (t.atTvec = false →
      let u := (s.trap code tval).me
      u.epc = t.pc ∧ u.cause = ⟨BitVec.ofNat 8 code, BitVec.ofNat 6 s.gangPos, true⟩ ∧ u.tval = tval ∧ u.pmode = t.mode ∧ u.mode = true ∧
      u.pc = (s.core t.core).tvec ∧ u.lp0 = t.lp0 ∧ u.lp1 = t.lp1 ∧ u.p = t.p ∧ u.wait = none ∧ u.atTvec = true ∧
      (s.gang = none → u.faultMask = 1) ∧ KeepsRegs t u [] ∧
      (∀ g, s.gang = some g →
        (s.trap code tval).gang = some { g with faults := (s.gangPos, BitVec.ofNat 8 code) :: g.faults }) ∧
      (t.onL = true → ((s.trap code tval).ctx t.ctxKey).hold = true) ∧
      (∀ k, k ≠ s.cur → (s.trap code tval).thr k = s.thr k) ∧ (s.trap code tval).mem = s.mem ∧ (s.trap code tval).dies = s.dies) ∧
    (t.atTvec = true →
      let s' := s.trap code tval
      s'.me.ending = some .fatal ∧ s'.me.epc = t.epc ∧ s'.me.mode = t.mode ∧ s'.mem = s.mem ∧
      ((s.die t.die).errHead - (s.die t.die).errTail ≠ 256 →
        (s'.die t.die).errHead = (s.die t.die).errHead + 1 ∧
        tget (s'.die t.die).errs ((s.die t.die).errHead.toNat % 256) = some ⟨tval, 16, code, s.tidOf t, s.timeOf (pkgOfDie t.die)⟩) ∧
      ((s.die t.die).errHead - (s.die t.die).errTail = 256 → (s'.die t.die).errLost = (s.die t.die).errLost + 1))

/-- 18 R405, R407, R408: `brk` raises BREAKPOINT; `sys` raises SYSCALL on an L-core and in system mode, and in user mode on an
S-core starts a migration to an L-core, at its own address, once the thread has drained; `tret` returns to EPC in the mode
PMODE holds and clears IRQ_HOLD, is privileged, and comes after a deferred store error. -/
def Obligations.SystemCallsAndReturns : Prop :=
  ∀ (s : State) (t : Thread) (g : BitVec 4), Runs s t g [] [] →
    exec (.brk g) s = .next (s.trap 0x0E 0) ∧
    ((t.onL = true ∨ t.mode = true) → exec (.sys g) s = .next (s.trap 0x0D 0)) ∧
    (t.onL = false → t.mode = false → s.lCoreOn t.pkg = true → t.reports = [] → t.deferred = none → t.ops = [] → t.pend = [] →
      s.rinvOut t.tid = false →
      ∃ u, exec (.sys g) s = .next (s.setThr s.cur u) ∧ u.move = some ⟨0, 0, t.pc, 3⟩ ∧ u.wait = some .send ∧ u.x = t.x ∧ u.f = t.f) ∧
    (∀ va, t.deferred = some va → exec (.tret g) s = .next (s.takeDeferred va)) ∧
    (t.deferred = none → t.mode = false → exec (.tret g) s = .next (s.trap 0x01 (parcels (.tret g)))) ∧
    (t.deferred = none → t.mode = true →
      Answers s (.tret g) fun s' =>
        s'.me.pc = t.epc ∧ s'.me.mode = t.pmode ∧ s'.me.entered = true ∧ s'.me.noBk = true ∧ s'.me.p = t.p ∧ KeepsRegs t s'.me [] ∧
        s'.me.lp0 = t.lp0 ∧ s'.me.lp1 = t.lp1 ∧ (t.onL = true → (s'.ctx t.ctxKey).hold = false) ∧ s'.mem = s.mem)

/-- 18 R409, R410, R395; 15 R337: `wfi` is privileged; it waits until a wake condition holds, on an S-core at most its count;
an enabled interrupt is taken at a boundary of the context's thread while IRQ_HOLD is 0, with cause 0x30 and the lowest
source, but not inside a `wfi`, which it completes first; a signal is taken in user mode with cause 0x29, and held in system mode. That
such a cause has position 0 on an S-core too is the model's reading (log entry 34).
02 R41: a result may take effect inside its window; those for its register that set out before it then do not. -/
def Obligations.WaitsAndInterrupts : Prop :=
  (∀ (s : State) (t : Thread) (g : BitVec 4), Runs s t g [] [] →
    (t.mode = false → exec (.wfi g) s = .next (s.trap 0x01 (parcels (.wfi g)))) ∧
    (t.mode = true → s.wakes t = true → ∃ u, Ends s t u (.wfi g) []) ∧
    (t.mode = true → s.wakes t = false →
      ∃ u, exec (.wfi g) s = .next (s.setThr s.cur u) ∧ u.wait = some .wfi ∧ u.pc = t.pc ∧ u.x = t.x)) ∧
  (∀ (s : State) (k : Nat) (t : Thread), tget s.threads k = some t → t.wait = some .wfi → t.onL = false →
    (s.clocksLeft k = 0 → ∃ u, exec (.wfiTimeout k) s = .next (s.setThr k u) ∧ u.wait = none ∧ u.rest = t.rest ∧ MovesOn t u 4) ∧
    (s.clocksLeft k ≠ 0 → exec (.wfiTimeout k) s = .next s)) ∧
  (∀ (s : State) (key n k : Nat) (t : Thread), s.irqSource key = some n → (s.ctx key).thread = some k → tget s.threads k = some t →
    t.laneWait = none → s.coreOn (coreOfCtx (key / 256) (key % 256)) = true → s.takesAsync k = true →
    (t.wait = some .wfi ∨ (s.ctx key).hold = true → exec (.interrupt key) s = .next s) ∧
    ((s.ctx key).hold = false → t.wait ≠ some .wfi →
      Answers s (.interrupt key) fun s' => (s'.thr k).cause = ⟨0x30, 0, true⟩ ∧ (s'.thr k).tval = BitVec.ofNat 64 n ∧
        (s'.thr k).epc = t.pc ∧ (s'.thr k).mode = true ∧ (s'.thr k).pmode = t.mode ∧ (s'.thr k).pc = (s.core t.core).tvec ∧
        (t.onL = true → (s'.ctx t.ctxKey).hold = true) ∧ s'.mem = s.mem)) ∧
  (∀ (s : State) (k : Nat) (t : Thread), tget s.threads k = some t → t.laneWait = none → t.onL = false → s.takesAsync k = true →
    (t.mode = false →
      Answers s (.signal k) fun s' => (s'.thr k).cause = ⟨0x29, 0, true⟩ ∧ (s'.thr k).epc = t.pc ∧ (s'.thr k).mode = true ∧
        (s'.thr k).pmode = false ∧ (s'.thr k).pc = (s.core t.core).tvec ∧ (s'.thr k).signalled = false) ∧
    (t.mode = true → Answers s (.signal k) fun s' => (s'.thr k).signalled = true ∧ (s'.thr k).pc = t.pc ∧ (s'.thr k).x = t.x)) ∧
  (∀ (s : State) (k i : Nat) (t : Thread) (d : Dest) (v : Word) (l c : Nat), tget s.threads k = some t →
    t.pend[i]? = some ⟨d, some v, l, c⟩ →
    ∃ u, exec (.registerWriteback k i) s = .next (s.setThr k u) ∧ u.get d = d.holds v ∧ KeepsRegs t u [d] ∧
      u.pend = (t.pend.take i).filter (·.dest != d) ++ t.pend.drop (i + 1))

/-- 07 R157, R158; 18 R406: `csrr` reads a control register and the three write forms replace, set or clear its bits; user mode
reads numbers of the classes URW, URO and RO and writes those of class URW, and any other access of it is privileged. -/
def Obligations.ControlRegisterAccess : Prop :=
  (∀ (s : State) (t : Thread) (d : BitVec 5) (n : BitVec 12), Runs s t always [.x d] [] →
    ((t.mode = true ∨ n.toNat / 1024 ≠ 2) → Gives s t (.csrr d n) (.x d) (s.csr t n)) ∧
    (t.mode = false → n.toNat / 1024 = 2 → exec (.csrr d n) s = .next (s.trap 0x01 (parcels (.csrr d n))))) ∧
  (∀ (s : State) (t : Thread) (a : BitVec 5) (n : BitVec 12), Runs s t always [.x a] [.x a] →
    let v := s.srcX 0 a
    ((t.mode = true ∨ n.toNat < 1024) →
      exec (.csrw a n) s = .next ((s.setCsr n v).finish 4) ∧
      exec (.csrs a n) s = .next ((s.setCsr n (s.csr t n ||| v)).finish 4) ∧
      exec (.csrc a n) s = .next ((s.setCsr n (s.csr t n &&& ~~~v)).finish 4)) ∧
    (t.mode = false → 1024 ≤ n.toNat →
      exec (.csrw a n) s = .next (s.trap 0x01 (parcels (.csrw a n))) ∧
      exec (.csrs a n) s = .next (s.trap 0x01 (parcels (.csrs a n))) ∧
      exec (.csrc a n) s = .next (s.trap 0x01 (parcels (.csrc a n)))))

/-- 07 R153 to R163; 17 R375; 18 R393: what a written control register reads as afterwards: the fields it has, the others 0.
07 R154: a loop level that a write leaves active with its last word before its first, or not at word addresses, becomes
inactive. -/
def Obligations.ControlRegisterFields : Prop :=
  (∀ (s : State) (t : Thread) (v : Word), tget s.threads s.cur = some t →
    let back := fun (n : BitVec 12) => (s.setCsr n v).csr (s.setCsr n v).me n
    back 0x001 = v &&& 3 ∧ back 0x002 = v &&& 0x1F ∧ (back 0x003).getLsbD 0 = v.getLsbD 0 ∧
    back 0x402 = v ∧ back 0x403 = v ∧ back 0x802 = v ∧ back 0x803 = v ∧ back 0x805 = v ∧
    back 0x804 = v &&& 0xFFFFFFFFFFFFFFF8 ∧ back 0x806 = v &&& 0xFFFF ∧ back 0x807 = v &&& 0x000FFFFFFFFF8001 ∧
    back 0x801 = v &&& 0x13FFF ∧
    (t.onL = false → (back 0x800 = (s.csr t 0x800 &&& ~~~2) ||| (v &&& 2))) ∧
    (t.onL = true → (back 0x800 = (s.csr t 0x800 &&& ~~~0x1A) ||| (v &&& 0x1A))) ∧
    (t.onL = false → (back 0x401).getLsbD 2 = (s.csr t 0x401).getLsbD 2 ∧ (back 0x401).toNat % 4 = v.toNat % 4) ∧
    (t.onL = true → back 0x401 = 0xDC) ∧
    (∀ n : BitVec 12, 0xC00 ≤ n.toNat → s.setCsr n v = s) ∧ (s.setCsr 0x802 v).mem = s.mem) ∧
  (∀ (l : Loop), (l.checked.start = l.start ∧ l.checked.last = l.last) ∧
    (l.checked.count ≠ 0 → l.checked = l ∧ l.start ≤ l.last ∧ l.start.toNat % 4 = 0 ∧ l.last.toNat % 4 = 0) ∧
    (l.count = 0 → l.checked = l))

/-! ### Loads, stores and atomics (chapter 09) -/

/-- 09 R188 to R190, R199; 02 R35, R36: every integer load forms its address from a base and an offset, in units of the access
size in the M layout and for the index, in bytes otherwise, and writes the bytes it reads to its register, sign- or
zero-extended.
13 R288: a load that the agenda asks to stay behind (log entry 99) completes without its value, whose register is to have it once the load is performed. -/
def Obligations.LoadForms : Prop :=
  (∀ (s : State) (t : Thread) (z : LdSize) (g : BitVec 4) (d a b : BitVec 5) (off7 : BitVec 7) (off : BitVec 17) (o : Order)
      (sc : Scope) (la : BitVec 4) (ru : BitVec 3),
    let x := s.srcX 0 a
    let acc := fun (i : Instr) (ea : Word) (nc : Bool) => LoadsAt s t i ea z.bytes nc (.x d) la z.extend
    (Runs s t g [.x d, .x a] [.x a] →
      acc (.ld z g d a off7 la) (x + BitVec.ofInt 64 (off7.toInt * z.bytes)) false ∧
      acc (.ldX z g d a off o sc la ru) (x + BitVec.ofInt 64 off.toInt) false ∧
      acc (.ldnc z g d a off o sc la ru) (x + BitVec.ofInt 64 off.toInt) true) ∧
    (Runs s t g [.x d, .x a, .x b] [.x a, .x b] →
      acc (.ldx z g d a b off o sc la ru) (x + BitVec.ofNat 64 ((s.srcX 1 b).toNat * z.bytes) + BitVec.ofInt 64 off.toInt) false)) ∧
  (∀ (z : LdSize) (v : Nat), v < 256 ^ z.bytes →
    (z ∈ [LdSize.z8, .z16, .z32, .d64] → (z.extend v).toNat = v) ∧
    (z ∈ [LdSize.s8, .s16, .s32] → (z.extend v).toInt = if 2 * v < 256 ^ z.bytes then (v : Int) else (v : Int) - 256 ^ z.bytes))

/-- 09 R189, R190; 05 R116: every integer store forms its address likewise and stores the low bytes of its register; a store
with `.rel` first raises a deferred store error. -/
def Obligations.StoreForms : Prop :=
  ∀ (s : State) (t : Thread) (z : StSize) (g : BitVec 4) (d a b : BitVec 5) (off7 : BitVec 7) (off : BitVec 17) (o : Order)
      (sc : Scope) (la : BitVec 4) (ru : BitVec 3),
    let x := s.srcX 0 a
    let acc := fun (ea : Word) (v : Word) => s.dataStore (t.mctx s.cur) ea z.bytes v.toNat
    let free := t.deferred = none ∨ (o ≠ .rel ∧ o ≠ .acqRel)
    (Runs s t g [.x d, .x a] [.x d, .x a] →
      StoresBy s (.st z g d a off7 la) (acc (x + BitVec.ofInt 64 (off7.toInt * z.bytes)) (s.srcX 1 d)) ∧
      (free → StoresBy s (.stX z g d a off o sc la ru) (acc (x + BitVec.ofInt 64 off.toInt) (s.srcX 1 d))) ∧
      (∀ va, t.deferred = some va → exec (.stX z g d a off .rel sc la ru) s = .next (s.takeDeferred va))) ∧
    (Runs s t g [.x d, .x a, .x b] [.x d, .x a, .x b] → free →
      StoresBy s (.stx z g d a b off o sc la ru)
        (acc (x + BitVec.ofNat 64 ((s.srcX 1 b).toNat * z.bytes) + BitVec.ofInt 64 off.toInt) (s.srcX 2 d)))

/-- 09 R192, R193; 06 R127: float loads and stores outside the window use memory; scratchpad accesses, and float accesses in
the window, use the workgroup's allocation. An L-core has none: a float access of the window traps there with cause 0x07.
09 R191, R192; 06 R127, R132: a scratchpad access is checked for alignment, for the end of the allocation (cause 0x22) and, if
a store, for a live barrier word (cause 0x21); a load reads the allocation's bytes and changes nothing; a store changes exactly
its bytes of the workgroup's allocation.
13 R282, R288, R297: a store of which the agenda asks it stays behind (log entry 99): it changes nothing yet; when it is performed it changes exactly its bytes,
and as its own thread issues a load of the same bytes it is performed. -/
def Obligations.FloatAndScratchpadForms : Prop :=
  ((∀ (s : State) (t : Thread) (dbl : Bool) (g : BitVec 4) (d a : BitVec 5) (off7 : BitVec 7) (off : BitVec 17) (o : Order)
      (sc : Scope) (la : BitVec 4) (ru : BitVec 3), Runs s t g [.f d, .x a] [.x a] →
    let n := if dbl then 8 else 4
    let loads := fun (i : Instr) (ea : Word) =>
      (inWindow ea = false → LoadsAt s t i ea n false (.f d) la (BitVec.ofNat 64)) ∧
      (inWindow ea = true → ea.toNat % n = 0 → t.onL = false →
        SpadLoadsAt s t i (ea - 0xFFFFFFFFFFC00000) n (.f d) la (BitVec.ofNat 64)) ∧
      (inWindow ea = true → ea.toNat % n ≠ 0 → exec i s = .next (s.trap 0x08 ea)) ∧
      (inWindow ea = true → ea.toNat % n = 0 → t.onL = true → exec i s = .next (s.trap 0x07 (parcels i)))
    loads (.ldfX dbl g d a off o sc la ru) (s.srcX 0 a + BitVec.ofInt 64 off.toInt) ∧
    (dbl = false → loads (.ldfF32 g d a off7 la) (s.srcX 0 a + BitVec.ofInt 64 (off7.toInt * 4))) ∧
    (dbl = true → loads (.ldf64 g d a off7 la) (s.srcX 0 a + BitVec.ofInt 64 (off7.toInt * 8)))) ∧
  (∀ (s : State) (t : Thread) (dbl : Bool) (g : BitVec 4) (d a : BitVec 5) (off7 : BitVec 7) (off : BitVec 17) (o : Order)
      (sc : Scope) (la : BitVec 4) (ru : BitVec 3), Runs s t g [.f d, .x a] [.f d, .x a] → t.deferred = none →
    let n := if dbl then 8 else 4
    let v := (s.srcF 1 d).toNat
    let stores := fun (i : Instr) (ea : Word) =>
      (inWindow ea = false → StoresBy s i (s.dataStore (t.mctx s.cur) ea n v)) ∧
      (inWindow ea = true → ea.toNat % n = 0 → t.onL = false → StoresBy s i (s.spadStore (ea - 0xFFFFFFFFFFC00000) n v)) ∧
      (inWindow ea = true → ea.toNat % n ≠ 0 → exec i s = .next (s.trap 0x09 ea)) ∧
      (inWindow ea = true → ea.toNat % n = 0 → t.onL = true → exec i s = .next (s.trap 0x07 (parcels i)))
    stores (.stfX dbl g d a off o sc la ru) (s.srcX 0 a + BitVec.ofInt 64 off.toInt) ∧
    (dbl = false → stores (.stfF32 g d a off7 la) (s.srcX 0 a + BitVec.ofInt 64 (off7.toInt * 4))) ∧
    (dbl = true → stores (.stf64 g d a off7 la) (s.srcX 0 a + BitVec.ofInt 64 (off7.toInt * 8)))) ∧
  (∀ (s : State) (t : Thread) (z : LdSize) (y : StSize) (g : BitVec 4) (d a : BitVec 5) (off7 : BitVec 7) (off : BitVec 17) (o : Order)
      (sc : Scope) (la : BitVec 4) (ru : BitVec 3), t.onL = false →
    let x := s.srcX 0 a
    (Runs s t g [.x d, .x a] [.x a] →
      SpadLoadsAt s t (.lds z g d a off7 la) (x + BitVec.ofInt 64 (off7.toInt * z.bytes)) z.bytes (.x d) la z.extend ∧
      SpadLoadsAt s t (.ldsX z g d a off o sc la ru) (x + BitVec.ofInt 64 off.toInt) z.bytes (.x d) la z.extend) ∧
    (Runs s t g [.x d, .x a] [.x d, .x a] → t.deferred = none →
      StoresBy s (.sts y g d a off7 la) (s.spadStore (x + BitVec.ofInt 64 (off7.toInt * y.bytes)) y.bytes (s.srcX 1 d).toNat) ∧
      StoresBy s (.stsX y g d a off o sc la ru) (s.spadStore (x + BitVec.ofInt 64 off.toInt) y.bytes (s.srcX 1 d).toNat)))) ∧
  (∀ (s : State) (o : Word) (n v : Nat), n ∈ [1, 2, 4, 8] →
    let w := s.me.wg
    let g := s.wg w
    let o' := o.toNat
    (o' % n ≠ 0 → s.spadLoad o n = (s, .trap 0x08 o) ∧ s.spadStore o n v = (s, .trap 0x09 o)) ∧
    (o' % n = 0 → g.spPages * 4096 < o' + n → s.spadLoad o n = (s, .trap 0x22 o) ∧ s.spadStore o n v = (s, .trap 0x22 o)) ∧
    (o' % n = 0 → o' + n ≤ g.spPages * 4096 → o' / 16 * 16 ∈ g.tags → s.spadStore o n v = (s, .trap 0x21 o)) ∧
    (o' % n = 0 → o' + n ≤ g.spPages * 4096 → o' / 16 * 16 ∉ g.tags → s.stores = [] → s.views = [] → s.delay = some s.cur →
      v < 256 ^ n →
      ∃ s' h, s.spadStore o n v = (s', .ok 0) ∧ s'.wgs = s.wgs ∧ s'.mem = s.mem ∧ s'.threads = s.threads ∧ s'.stores = [h] ∧
        (h.spad, h.wg, h.addr, h.n, h.v) = (true, w, o', n, v) ∧
        ((tget s.wgs w).isSome = true →
          (∃ s2, s2 = s'.performOne 0 ∧ s2.stores = [] ∧ s2.mem = s.mem ∧
            (s2.wg w).spad.readN o' n = v ∧ ∀ i, (i < o' ∨ o' + n ≤ i) → (s2.wg w).spad.read i = g.spad.read i) ∧
          ∀ (t : Thread) (z : LdSize) (gd : BitVec 4) (d a : BitVec 5) (off7 : BitVec 7) (la : BitVec 4),
            tget s.threads s.cur = some t → t.guard gd = true → z.bytes = n → s.srcX 0 a + BitVec.ofInt 64 (off7.toInt * z.bytes) = o →
            let s2 := s'.ordered (.lds z gd d a off7 la)
            s2.stores = [] ∧ s2.spadLoad o n = (s2, .ok v))) ∧
    (o' % n = 0 → o' + n ≤ g.spPages * 4096 → s.Calm →
      s.spadLoad o n = (s, .ok (g.spad.readN o' n)) ∧
      (o' / 16 * 16 ∉ g.tags → ∃ s', s.spadStore o n v = (s', .ok 0) ∧ s'.mem = s.mem ∧ s'.threads = s.threads ∧
        (∀ k, k ≠ w → s'.wg k = s.wg k) ∧ (s'.wg w).spad.readN o' n = v % 256 ^ n ∧
        ∀ i, (i < o' ∨ o' + n ≤ i) → (s'.wg w).spad.read i = g.spad.read i)))

/-- 09 R191, R195; 04 R85: a misaligned access traps before its address is translated, with the address in TVAL, 0x08 for a load
and 0x09 for a store or an atomic; a translation's cause is the access's.
05 R115, R116: an access that its agent's own copy and its package's replica do not serve, and that gets an error response: a load or an atomic traps with ACCESS_ERROR; a store completes, is
dropped, and leaves its address to be raised as ACCESS_ERROR_DEFERRED, the first of several kept; ERRLOG takes the pair. -/
def Obligations.AccessChecksAndErrors : Prop :=
  (∀ (s : State) (c : MCtx) (va : Word) (n v : Nat) (nc home : Bool) (f : Nat → Option Nat) (op : RedOp) (wide : Bool),
    (va.toNat % n ≠ 0 → s.dataLoad c va n nc = (s, .trap 0x08 va) ∧ s.dataStore c va n v = (s, .trap 0x09 va) ∧
      s.dataRmw c va n home f = (s, .trap 0x09 va)) ∧
    (va.toNat % (if wide then 8 else 4) ≠ 0 → s.dataRed c va op wide v = (s, .trap 0x09 va)) ∧
    (va.toNat % n = 0 →
      (∀ s1 k, s.xlate c va .load = (s1, .fault k) → s.dataLoad c va n nc = (s1, .trap k va)) ∧
      (∀ s1 k, s.xlate c va .store = (s1, .fault k) → s.dataStore c va n v = (s1, .trap k va)) ∧
      (∀ s1 k, s.xlate c va .rmw = (s1, .fault k) → s.dataRmw c va n home f = (s1, .trap k va)))) ∧
  (∀ (s s1 : State) (t : Thread) (c : MCtx) (va : Word) (n pa leaf v code : Nat) (nc home : Bool) (f : Nat → Option Nat),
    va.toNat % n = 0 → s1.atCtrl (c.ag / 512) pa = false → tget s1.threads c.who = some t → n ≠ 64 →
    s1.memCode (c.ag / 512) (s1.fwd pa) false = some code → s1.Calm →
    s1.hitLoad (regionOf leaf) c.ag (secOf (s1.fwd pa)) = false → s1.hitStore (regionOf leaf) c.ag (secOf (s1.fwd pa)) = false →
    (regionOf leaf = .rdup → s1.replica (c.ag / 512) (secOf (s1.fwd pa)) = none) →
    (s.xlate c va .load = (s1, .ok pa leaf) →
      ∃ s2, s.dataLoad c va n nc = (s2, .trap 0x1A va) ∧ (s2.thr c.who).errAddr = BitVec.ofNat 64 pa ∧
        (s2.thr c.who).errCause = BitVec.ofNat 64 code ∧ s2.mem = s1.mem) ∧
    (s.xlate c va .rmw = (s1, .ok pa leaf) → ∃ s2, s.dataRmw c va n home f = (s2, .trap 0x1A va) ∧ s2.mem = s1.mem) ∧
    (s.xlate c va .store = (s1, .ok pa leaf) →
      ∃ s2, s.dataStore c va n v = (s2, .ok 0) ∧ (s2.thr c.who).deferred = some (t.deferred.getD va) ∧ s2.mem = s1.mem))

/-- 09 R194; 05 R104, R106: a store writes its bytes in little-endian order at the physical address its translation gives, and
every other byte of memory reads as before; the agent then holds the sector in M.
09 R194; 05 R103, R106, R108, R110, R111: a load changes no byte of memory, and reads in little-endian order the bytes at its physical
address: of memory, or of an untracked copy that its agent holds; without one, of the home's data in an RSH region, and of its package's
replica, where it has one, in an RDUP region.
13 R282, R285, R288, R289: a store of which the agenda asks it stays behind (log entry 99): no byte of memory changes, but the thread's own next load of the
same bytes reads it. Performed, or made to be by a fence beyond the workgroup, it changes exactly its bytes. A load that stays behind takes
the value that memory has as it is performed into its register. -/
def Obligations.LoadsAndStoresOnMemory : Prop :=
  (∀ (s s1 : State) (c : MCtx) (va : Word) (n pa leaf v : Nat), n ∈ [1, 2, 4, 8] → va.toNat % n = 0 →
    s.xlate c va .store = (s1, .ok pa leaf) → Reaches s1 c pa leaf → s1.Calm →
    let a := s1.fwd pa
    ∃ s2, s.dataStore c va n v = (s2, .ok 0) ∧ s2.mem.readN a n = v % 256 ^ n ∧
      (∀ b, (b < a ∨ a + n ≤ b) → s2.mem.read b = s1.mem.read b) ∧ s2.wgs = s1.wgs ∧
      (tsorted s1.copies = true → (regionOf leaf ≠ .priv ∨ s1.ownsPriv c.ag (secOf a) = false) → s2.holds c.ag (secOf a) = some .m)) ∧
  (∀ (s s1 : State) (c : MCtx) (va : Word) (n pa leaf : Nat) (nc : Bool), n ∈ [1, 2, 4, 8] → va.toNat % n = 0 →
    s.xlate c va .load = (s1, .ok pa leaf) → Reaches s1 c pa leaf → s1.Calm → s1.fwd pa % n = 0 →
    let a := s1.fwd pa
    let sec := secOf a
    let part := fun (d : BitVec 512) => d.toNat / 2 ^ (8 * (a - sec)) % 2 ^ (8 * n)
    ∃ s2 v, s.dataLoad c va n nc = (s2, .ok v) ∧ s2.mem = s1.mem ∧ s2.wgs = s1.wgs ∧
      (regionOf leaf ≠ .rsh → (regionOf leaf = .rdup → s1.replica (c.ag / 512) sec = none) →
        (∀ d ws, s1.copy c.ag sec ≠ some ⟨.r, d, ws⟩) → v = s1.mem.readN a n) ∧
      (∀ d ws, s1.copy c.ag sec = some ⟨.r, d, ws⟩ → regionOf leaf ∈ [RegionKind.rsh, .rdup] → v = part d) ∧
      (s1.copy c.ag sec = none →
        (regionOf leaf = .rsh → v = part (s1.homeSec sec)) ∧
        (∀ d, regionOf leaf = .rdup → s1.replica (c.ag / 512) sec = some d → v = part d))) ∧
  (∀ (s s1 : State) (c : MCtx) (va : Word) (n pa leaf v : Nat), n ∈ [1, 2, 4, 8] → va.toNat % n = 0 → pa % n = 0 → v < 256 ^ n →
    s.xlate c va .store = (s1, .ok pa leaf) → s1.atCtrl (c.ag / 512) pa = false → s1.memCode (c.ag / 512) pa false = none →
    s1.stores = [] → s1.views = [] → s1.delay = some c.who →
    ∃ s2 h, s.dataStore c va n v = (s2, .ok 0) ∧ s2.mem = s1.mem ∧ s2.stores = [h] ∧
      (h.c, h.r, h.addr, h.n, h.v, h.spad) = (c, regionOf leaf, pa, n, v, false) ∧
      (∀ q w, s2.physLoad c (regionOf leaf) pa n false = (q, .ok w) → s2.ownLoad c (regionOf leaf) pa n false = (q, .ok v)) ∧
      (Reaches s1 c pa leaf → ∀ s3,
        (s3 = s2.performOne 0 ∨ ∃ sc, sc ∈ [Scope.cl, .die, .pkg, .sys] ∧ s2.cur = c.who ∧ s3 = s2.ordered (.fence sc)) →
        let a := s1.fwd pa
        s3.stores = [] ∧ s3.mem.readN a n = v ∧ ∀ b, (b < a ∨ a + n ≤ b) → s3.mem.read b = s1.mem.read b)) ∧
  (∀ (s s1 : State) (h : Held) (t : Thread) (z : LdSize) (g : BitVec 4) (d a : BitVec 5) (off7 : BitVec 7) (la : BitVec 4) (v : Nat),
    s.stores = [h] → h.spad = false → h.ctrl = false → h.i = some (.ld z g d a off7 la) → tget s.threads h.c.who = some t →
    t.pend = [⟨.x d, none, 0, h.id⟩] → ({ s with stores := [] } : State).secLoad h.r h.c.ag h.addr h.n = (s1, .ok v) →
    let s2 := s.performOne 0
    s2.stores = [] ∧ s2.mem = s1.mem ∧ (s2.thr h.c.who).get (.x d) = (Dest.x d).holds (z.extend v) ∧ (s2.thr h.c.who).pend = [] ∧
    ∀ e, e ≠ Dest.x d → (s2.thr h.c.who).get e = t.get e)

/-- 09 R194, R195; 04 R78: in system mode without translation, an aligned 64-bit load after a store to the same address reads the
stored register. -/
def Obligations.LoadAfterStore : Prop :=
  ∀ (s s1 : State) (t : Thread) (g : BitVec 4) (d a e : BitVec 5) (off : BitVec 7) (la : BitVec 4),
    Runs s t g [.x d, .x a] [.x d, .x a] → t.inBudget (.x e) = true → t.pend = [] → t.mode = true → ptEn t.ptBase = false →
    let ea := t.get (.x a) + BitVec.ofInt 64 (off.toInt * 8)
    ea.toNat % 8 = 0 → ea.toNat < 2 ^ 52 → Reaches s (t.mctx s.cur) ea.toNat bareLeaf → s.Calm →
    exec (.st .b64 g d a off la) s = .next s1 →
    Answers s1 (.ld .d64 g e a off 0) fun s2 => s2.me.get (.x e) = (Dest.x e).holds (t.get (.x d))

/-- 09 R201 to R203; 05 R114: atomics return the old value, sign-extended, and write the new one indivisibly; `cas` writes only
where the old value is the one compared with; `red` returns nothing.
13 R288: one that the agenda asks to stay behind (log entry 99) completes without its result, which it is to have once it is performed. -/
def Obligations.AtomicForms : Prop :=
  ∀ (s : State) (t : Thread) (wide : Bool) (g : BitVec 4) (d a b : BitVec 5) (off : BitVec 17) (o : Order) (sc : Scope)
      (la : BitVec 4) (ru : BitVec 3), (t.deferred = none ∨ (o ≠ .rel ∧ o ≠ .acqRel)) →
    let n := if wide then 64 else 32
    let ea := s.srcX 0 a + BitVec.ofInt 64 off.toInt
    let home := sc ≠ .thread ∧ sc ≠ .wg
    let rmw := fun (f : Nat → Option Nat) => s.dataRmw (t.mctx s.cur) ea (n / 8) (decide home) f
    let old := fun (v : Nat) => BitVec.ofInt 64 (BitVec.ofNat n v).toInt
    (Runs s t g [.x d, .x a, .x b] [.x a, .x b] →
      let v := (s.srcX 1 b).toNat % 2 ^ n
      let sg := fun (x : Nat) => (BitVec.ofNat n x).toInt
      let amo := fun (op : AmoOp) (new : Nat → Nat) =>
        (s.prompt → LoadsBy s (.amo op wide g d a b off o sc la ru) (rmw fun x => some (new x)) (.x d) la old) ∧
        RmwBehind s t (.amo op wide g d a b off o sc la ru) .rmw ea (n / 8) (.x d) la v 0
      amo .add (fun x => (x + v) % 2 ^ n) ∧ amo .and (fun x => x &&& v) ∧ amo .or (fun x => x ||| v) ∧ amo .xor (fun x => x ^^^ v) ∧
      amo .min (fun x => if sg x ≤ sg v then x else v) ∧ amo .max (fun x => if sg x ≤ sg v then v else x) ∧
      amo .minn (fun x => Min.min x v) ∧ amo .maxn (fun x => Max.max x v) ∧ amo .swap (fun _ => v)) ∧
    (Runs s t g [.x d, .x a, .x b] [.x d, .x a, .x b] →
      (s.prompt → LoadsBy s (.cas wide g d a b off o sc la ru)
        (rmw fun x => if x = (s.srcX 1 b).toNat % 2 ^ n then some ((s.srcX 2 d).toNat % 2 ^ n) else none) (.x d) la old) ∧
      RmwBehind s t (.cas wide g d a b off o sc la ru) .rmw ea (n / 8) (.x d) la ((s.srcX 2 d).toNat % 2 ^ n) ((s.srcX 1 b).toNat % 2 ^ n)) ∧
    (∀ op, op ≠ RedOp.fadd → Runs s t g [.x b, .x a] [.x b, .x a] →
      let v := (s.srcX 1 b).toNat % 2 ^ n
      (s.prompt → StoresBy s (.red op wide g a b off o sc la ru) (s.dataRed (t.mctx s.cur) ea op wide v)) ∧
      RmwBehind s t (.red op wide g a b off o sc la ru) .store ea (n / 8) (.x 0) 0 v 0) ∧
    (Runs s t g [.f b, .x a] [.f b, .x a] →
      let v := (s.srcF 1 b).toNat % 2 ^ n
      (s.prompt → StoresBy s (.red .fadd wide g a b off o sc la ru) (s.dataRed (t.mctx s.cur) ea .fadd wide v)) ∧
      RmwBehind s t (.red .fadd wide g a b off o sc la ru) .store ea (n / 8) (.x 0) 0 v 0)

/-- 09 R201 to R203; 05 R104 to R106, R114: what atomics and reductions do to memory. An atomic changes exactly its bytes, to the
new value, or nothing; a reduction does so in place where its agent holds the sector in M or E, and elsewhere changes no
memory but the word of its agent's partial. An atomic that has stayed behind does all this when it is performed, and its result is in its
register then. -/
def Obligations.AtomicsOnMemory : Prop :=
  (∀ (s s1 : State) (c : MCtx) (va : Word) (n pa leaf : Nat) (home : Bool) (f : Nat → Option Nat), n ∈ [4, 8] → va.toNat % n = 0 →
    s.xlate c va .rmw = (s1, .ok pa leaf) → Reaches s1 c pa leaf →
    let a := s1.fwd pa
    let old := s1.mem.readN a n
    ∃ s2, s.dataRmw c va n home f = (s2, .ok old) ∧ (∀ b, (b < a ∨ a + n ≤ b) → s2.mem.read b = s1.mem.read b) ∧
      (∀ v, f old = some v → s2.mem.readN a n = v % 256 ^ n) ∧ (f old = none → s2.mem = s1.mem)) ∧
  (∀ (s s1 : State) (c : MCtx) (va : Word) (pa leaf v : Nat) (op : RedOp) (wide : Bool),
    let n := if wide then 8 else 4
    va.toNat % n = 0 → s.xlate c va .store = (s1, .ok pa leaf) → regionOf leaf = .coh →
    s1.atCtrl (c.ag / 512) pa = false → s1.memCode (c.ag / 512) (s1.fwd pa) false = none →
    let a := s1.fwd pa
    let sec := secOf a
    (s1.dirOf sec).st ≠ .p → tsorted s1.copies = true →
    ((s1.holds c.ag sec = some .m ∨ s1.holds c.ag sec = some .e) → (s1.dirOf sec).uop = none →
      ∃ s2, s.dataRed c va op wide v = (s2, .ok 0) ∧ s2.mem.readN a n = redStep op wide (s1.mem.readN a n) v % 256 ^ n ∧
        ∀ b, (b < a ∨ a + n ≤ b) → s2.mem.read b = s1.mem.read b) ∧
    (∀ d ws, s1.copy c.ag sec = some ⟨.u, d, ws⟩ → (s1.dirOf sec).uop = some (op, wide) →
      let i := (a - sec) / n
      ∃ s2, s.dataRed c va op wide v = (s2, .ok 0) ∧ s2.mem = s1.mem ∧
        s2.copy c.ag sec = some ⟨.u, setPartialWord wide d i (redStep op wide (partialWord wide d i) v), ws ||| BitVec.ofNat 16 (2 ^ i)⟩) ∧
    (s1.copy c.ag sec = none → Reaches s1 c pa leaf →
      ∃ s2, s.dataRed c va op wide v = (s2, .ok 0) ∧ s2.mem = s1.mem ∧ s2.holds c.ag sec = some .u)) ∧
  (∀ (s s1 : State) (h : Held) (t : Thread) (i : Instr) (op : AmoOp) (wide : Bool) (g : BitVec 4) (d a b : BitVec 5) (off : BitVec 17)
      (o : Order) (sc : Scope) (la : BitVec 4) (ru : BitVec 3) (old : Nat),
    s.stores = [h] → h.ctrl = false → h.i = some i → h.n = (if wide then 8 else 4) → tget s.threads h.c.who = some t →
    t.pend = [⟨.x d, none, 0, h.id⟩] →
    let home := decide (sc ≠ .thread ∧ sc ≠ .wg)
    let at' := fun (f : Nat → Option Nat) => ({ s with stores := [] } : State).secAtomic h.r h.c.ag h.addr h.n home f h.c.who
    ((i = .amo op wide g d a b off o sc la ru ∧ at' (fun x => some (amoNew op (8 * h.n) x h.v)) = (s1, .ok old)) ∨
      (i = .cas wide g d a b off o sc la ru ∧ at' (fun x => if x = h.w then some h.v else none) = (s1, .ok old))) →
    let s2 := s.performOne 0
    s2.stores = [] ∧ s2.mem = s1.mem ∧ (s2.thr h.c.who).pend = [] ∧
      (s2.thr h.c.who).get (.x d) = (Dest.x d).holds (BitVec.ofInt 64 (BitVec.ofNat (8 * h.n) old).toInt))

/-- 09 R200, R206 to R208; 05 R116; 13 R291: a prefetch changes no register and at most asks for a shared copy; `wmon` computes its
address once, gives the word it reads where that differs from its operand, or whatever it is once its wait is over, and otherwise waits;
a wake event or 65,536 clocks end the wait; a fence raises a deferred store error, or does nothing more than order. -/
def Obligations.PrefetchMonitorFence : Prop :=
  (∀ (s : State) (t : Thread) (g : BitVec 4) (a : BitVec 5) (off : BitVec 17) (la : BitVec 4) (ru : BitVec 3), Runs s t g [.x a] [.x a] →
    ∃ s1 u, exec (.pfc g a off la ru) s = .next (s1.setThr s.cur u) ∧ PlainEnd (s1.thr s.cur) u (.pfc g a off la ru) ∧
      (s1 = s ∨ ∃ pa, s1 = (s.ask .coh t.agent pa false).1.doGetS t.agent (secOf pa))) ∧
  (∀ (s s1 : State) (t : Thread) (g : BitVec 4) (d a b : BitVec 5) (off : BitVec 17) (o : Order) (sc : Scope) (la : BitVec 4)
      (ru : BitVec 3) (ea : Word) (waits : Bool) (pa leaf v : Nat) (s2 : State), Runs s t g [.x d, .x a, .x b] [.x a, .x b] →
    ((waits = true ∧ ∃ p r, t.wait = some (.wmon ea p r)) ∨
      (waits = false ∧ (∀ e p r, t.wait ≠ some (.wmon e p r)) ∧ ea = s.srcX 0 a + BitVec.ofInt 64 off.toInt)) →
    let i := Instr.wmon g d a b off o sc la ru
    (ea.toNat % 8 ≠ 0 → exec i s = .next (s.trap 0x08 ea)) ∧
    (ea.toNat % 8 = 0 → s.xlate (t.mctx s.cur) ea .load = (s1, .ok pa leaf) →
      s1.physLoad (t.mctx s.cur) (regionOf leaf) pa 8 false = (s2, .ok v) →
      ((waits = true ∨ v ≠ (s.srcX 1 b).toNat) →
        ∃ u, exec i s = .next (s2.setThr s2.cur u) ∧ LateEnd s2.me u i (.x d) la (BitVec.ofNat 64 v)) ∧
      (waits = false → v = (s.srcX 1 b).toNat →
        ∃ u, exec i s = .next (s2.setThr s2.cur u) ∧ u.wait = some (.wmon ea (s2.fwd pa) (decide (regionOf leaf = .rsh))) ∧
          u.pc = s2.me.pc ∧ u.x = s2.me.x))) ∧
  (∀ (s : State) (k : Nat) (t : Thread) (ea : Word) (pa : Nat) (r : Bool), tget s.threads k = some t → t.wait = some (.wmon ea pa r) →
    (t.rel = some 1 →
      ∃ u, exec (.wmonWake k) s = .next (s.setThr k u) ∧ u.wait = t.wait ∧ s.waitOver k u = true ∧ u.pc = t.pc ∧ u.x = t.x) ∧
    (t.rel ≠ some 1 → exec (.wmonWake k) s = .next s) ∧
    (s.clocksLeft k = 0 →
      ∃ u, exec (.wmonTimeout k) s = .next (s.setThr k u) ∧ u.wait = t.wait ∧ s.waitOver k u = true ∧ u.pc = t.pc ∧ u.x = t.x) ∧
    (s.clocksLeft k ≠ 0 → exec (.wmonTimeout k) s = .next s)) ∧
  (∀ (s : State) (t : Thread) (sc : Scope), Runs s t always [] [] →
    (t.deferred = none → (∃ u, Ends s t u (.fence sc) []) ∧ ∃ u, Ends s t u (.fenceSc sc) []) ∧
    (∀ va, t.deferred = some va → exec (.fence sc) s = .next (s.takeDeferred va) ∧ exec (.fenceSc sc) s = .next (s.takeDeferred va)))

/-! ### Translation (chapter 04) -/

/-- 04 R73, R77, R78, R85, R90: what translation answers before any table is read: the scratchpad window is not present, an
address that is not canonical has cause 0x10, user mode without tables finds nothing present, and system mode without tables
uses the address as it is, below 2^52.
04 R79, R85 to R87, R90; 05 R107: what a walk that ends in a leaf answers: the protection cause where the leaf withholds
the access from the mode, else the page's address with the offset, the A bit set and for a store the D bit, and for a store
the causes of regions RSH and RDUP, which control space ignores (04 R76); without a leaf the not-present cause, or 0x17 for a malformed entry.
04 R79, R84: one level of a walk: the entry at the table and the index its level takes from the address. An entry with V = 0
ends it as not present, a malformed one as 0x17, a table entry goes on one level down in the table it points to, and a leaf
without a contiguity group ends it. -/
def Obligations.Translation : Prop :=
  (∀ (s : State) (c : MCtx) (va : Word) (k : XKind),
    let np := match k with | .fetch => 0x11 | .load => 0x12 | .store => 0x13 | .rmw => 0x13
    (2 ^ 64 - 2 ^ 22 ≤ va.toNat → s.xlate c va k = (s, .fault np)) ∧
    (2 ^ 55 ≤ va.toNat → va.toNat < 2 ^ 64 - 2 ^ 55 → s.xlate c va k = (s, .fault 0x10)) ∧
    (va.toNat < 2 ^ 55 → c.ptBase.getLsbD 0 = false →
      (c.mode = false → s.xlate c va k = (s, .fault np)) ∧
      (c.mode = true → 2 ^ 52 ≤ va.toNat → s.xlate c va k = (s, .fault 0x10)) ∧
      (c.mode = true → va.toNat < 2 ^ 52 → s.xlate c va k = (s, .ok va.toNat bareLeaf)))) ∧
  (∀ (s s1 : State) (c : MCtx) (va : Word) (k : XKind) (e lvl pa : Nat),
    (s.walkAll c va = (s1, .np) → s.xlateWalk c va k = (s1, .fault (match k with | .fetch => 0x11 | .load => 0x12 | _ => 0x13))) ∧
    (s.walkAll c va = (s1, .fmt) → s.xlateWalk c va k = (s1, .fault 0x17)) ∧
    (s.walkAll c va = (s1, .locked) → s.xlateWalk c va k = (s1, .wait)) ∧
    (s.walkAll c va = (s1, .leaf e lvl pa) →
      let user := e.testBit 5
      let may := match k with | .fetch => e.testBit 4 | .load => e.testBit 2 | .store => e.testBit 3 | .rmw => e.testBit 2 && e.testBit 3
      let bad := (c.mode = false ∧ user = false) ∨ (k = .fetch ∧ c.mode = true ∧ user = true) ∨ may = false
      (bad → s.xlateWalk c va k = (s1, .fault (match k with | .fetch => 0x14 | .load => 0x15 | _ => 0x16))) ∧
      (¬bad →
        let e2 := e ||| 2 ^ 7 ||| (if k = .store ∨ k = .rmw then 2 ^ 8 else 0)
        let at' := e / 2 ^ 16 % 2 ^ 40 * 2 ^ 12 + va.toNat % (if lvl = 1 then 2 ^ 32 else if lvl = 2 then 2 ^ 21 else 2 ^ 12)
        ((k = .store ∨ k = .rmw) → areaOf at' ≠ .ctrl → e / 1024 % 4 = 1 → (s.xlateWalk c va k).2 = .fault 0x18) ∧
        ((k = .store ∨ k = .rmw) → areaOf at' ≠ .ctrl → e / 1024 % 4 = 3 → (s.xlateWalk c va k).2 = .fault 0x19) ∧
        ((k = .fetch ∨ k = .load ∨ e / 1024 % 4 = 0 ∨ e / 1024 % 4 = 2 ∨ areaOf at' = .ctrl) → (s.xlateWalk c va k).2 = .ok at' e2)))) ∧
  (∀ (s s1 : State) (c : MCtx) (va n table e : Nat), n ≤ 3 →
    let lvl := 3 - n
    let idx := match lvl with | 0 => va / 2 ^ 44 % 4096 | 1 => va / 2 ^ 32 % 4096 | 2 => va / 2 ^ 21 % 2048 | _ => va / 2 ^ 12 % 512
    let pa := table + 8 * idx
    s.locks = [] → s.homeLoad c.ag pa 8 = (s1, .ok e) →
    (e.testBit 0 = false → s.walk c va (n + 1) table = (s1, .np)) ∧
    (e.testBit 0 = true → s1.entryOk e lvl = false → s.walk c va (n + 1) table = (s1, .fmt)) ∧
    (e.testBit 0 = true → s1.entryOk e lvl = true → e.testBit 1 = false →
      s.walk c va (n + 1) table = (s1.keepWalk c va lvl (e / 2 ^ 16 % 2 ^ 40 * 2 ^ 12)).walk c va n (e / 2 ^ 16 % 2 ^ 40 * 2 ^ 12)) ∧
    (e.testBit 0 = true → s1.entryOk e lvl = true → e.testBit 1 = true → e.testBit 9 = false →
      s.walk c va (n + 1) table = (s1, .leaf e lvl pa)))

/-! ### Coherence (chapter 05) -/

/-- 05 R104, R106, R109, R110, R116: the requests of the protocol, where the home answers; one that draws an error response changes
nothing more. A GetX or Upgrade of an agent that holds the sector in neither M nor E makes it the only holder, in M; from E it becomes M
without a word. After a GetS a home in I has granted E; one in S, EX or O grants S, an owner in M having become O and one in E having
become S. AtHome leaves no tracked holder; a PutM, PutO or PutE, a silent eviction of a clean copy and the report of a PRIV owner take
the agent's copy away. None of them changes memory while no partial is outstanding. -/
def Obligations.CoherenceRequests : Prop :=
  (∀ (s s1 : State) (ag pa code : Nat) (i : Instr),
    i ∈ [Instr.getS ag pa, .getX ag pa, .upgrade ag pa, .atHome ag pa, .getU ag pa .add true] →
    (s.mayAsk ag = false → exec i s = .next s) ∧
    (s.mayAsk ag = true → s.ask .coh ag (s.fwd pa) false = (s1, some code) → exec i s = .next s1)) ∧
  (∀ (s s1 : State) (ag pa : Nat), s.mayAsk ag = true → s.ask .coh ag (s.fwd pa) false = (s1, none) →
    let sec := secOf (s.fwd pa)
    sec < 2 ^ 52 → tsorted s1.copies = true → (s1.dirOf sec).uop = none →
    (∀ i ∈ [Instr.getX ag pa, .upgrade ag pa],
      (s1.holds ag sec = some .m → exec i s = .next s1) ∧
      (s1.holds ag sec = some .e → exec i s = .next (s1.setCopy ag sec ⟨.m, s1.sector sec, 0⟩)) ∧
      (s1.holds ag sec ≠ some .m → s1.holds ag sec ≠ some .e → Answers s i fun s' =>
        s'.holds ag sec = some .m ∧ (∀ c ∈ s'.tracked sec, c.1 = copyKey ag sec) ∧ s'.mem = s1.mem ∧ (s'.dirOf sec).st = .ex)) ∧
    ((∀ st ∈ [CacheSt.m, .e, .o, .s], s1.holds ag sec = some st → exec (.getS ag pa) s = .next s1) ∧
    (s1.holds ag sec = none → Answers s (.getS ag pa) fun s' =>
      s'.mem = s1.mem ∧
      ((s1.dirOf sec).st = .i → s1.tracked sec = [] → s'.holds ag sec = some .e ∧ (s'.dirOf sec).st = .ex) ∧
      ((s1.dirOf sec).st ∈ [DirSt.s, .ex, .o] → s'.holds ag sec = some .s ∧
        ∀ b, b ≠ ag → (∀ c, c ≠ b → s1.holds c sec ≠ some .m ∧ s1.holds c sec ≠ some .e) →
          (s1.holds b sec = some .m → s'.holds b sec = some .o) ∧ (s1.holds b sec = some .e → s'.holds b sec = some .s)))) ∧
    Answers s (.atHome ag pa) (fun s' => s'.tracked sec = [] ∧ s'.mem = s1.mem ∧ (s'.dirOf sec).st = .i)) ∧
  (∀ (s : State) (ag pa : Nat),
    let sec := secOf pa
    pa < 2 ^ 52 → tsorted s.copies = true →
    ((s.dirOf sec).st ≠ .p →
      ∀ i st, (i, st) ∈ [(Instr.putM ag pa, CacheSt.m), (.putO ag pa, .o), (.putE ag pa, .e)] →
        (s.holds ag sec = some st → Answers s i fun s' => s'.holds ag sec = none ∧ s'.mem = s.mem) ∧
        (s.holds ag sec ≠ some st → exec i s = .next s)) ∧
    ((s.holds ag sec = some .s ∨ s.holds ag sec = some .r) →
      Answers s (.silentEviction ag pa) fun s' => s'.holds ag sec = none ∧ s'.mem = s.mem ∧ s'.dir = s.dir) ∧
    (s.ownsPriv ag sec = true →
      Answers s (.privEvictReport ag pa) fun s' => s'.holds ag sec = none ∧ s'.mem = s.mem ∧ (s'.dirOf sec).st = .i) ∧
    (s.ownsPriv ag sec = false → exec (.privEvictReport ag pa) s = .next s))

/-- 05 R104 to R106, R100: update-only holders. GetU gives an agent a partial at the identity of its operation, beside others of
the same operation; PutU applies the partial to memory word by word and takes it away; a slab's eviction of a home line leaves no
tracked holder of its sectors.
05 R105, R106: a partial applied to a sector changes exactly the words that updates have reached, each to the step of the
reduction from what memory held (which words those are where one is at the identity: the model's choice, log entry 81). -/
def Obligations.UpdateOnlyHolders : Prop :=
  (∀ (s s1 : State) (ag pa : Nat) (op : RedOp) (wide : Bool), s.mayAsk ag = true → s.ask .coh ag (s.fwd pa) false = (s1, none) →
    let sec := secOf (s.fwd pa)
    sec < 2 ^ 52 → s1.tracked sec = [] → s1.holds ag sec = none → (s1.dirOf sec).uop = none →
    Answers s (.getU ag pa op wide) fun s' =>
      s'.copy ag sec = some ⟨.u, freshPartial op wide, 0⟩ ∧ (s'.dirOf sec).uop = some (op, wide) ∧ (s'.dirOf sec).st = .u ∧ s'.mem = s1.mem) ∧
  (∀ (s : State) (ag pa : Nat) (op : RedOp) (wide : Bool) (d : BitVec 512) (ws : BitVec 16) (l : SlabLine),
    let sec := secOf pa
    pa < 2 ^ 52 →
    (s.copy ag sec = some ⟨.u, d, ws⟩ → (s.dirOf sec).uop = some (op, wide) →
      Answers s (.putU ag pa) fun s' => s'.copy ag sec = none ∧ s'.mem = applyPartial op wide sec d ws s.mem) ∧
    (isMem pa = true → s.dieUp (slabOf pa) = true → tget s.slabs (slabKey (slabOf pa) pa) = some l → l.replica = false →
      Answers s (.slabEvict (slabOf pa) pa) fun s' =>
        s'.tracked (pa / 256 * 256) = [] ∧ s'.tracked (pa / 256 * 256 + 64) = [] ∧ s'.tracked (pa / 256 * 256 + 128) = [] ∧
        s'.tracked (pa / 256 * 256 + 192) = [] ∧ tget s'.slabs (slabKey (slabOf pa) pa) = none ∧ s'.wgs = s.wgs)) ∧
  (∀ (op : RedOp) (wide : Bool) (sec : Nat) (d : BitVec 512) (ws : BitVec 16) (m : Memory) (i : Nat),
    i < (if wide then 8 else 16) → op ≠ .fadd →
    let n := if wide then 8 else 4
    let old := m.readN (sec + n * i) n
    (applyPartial op wide sec d ws m).readN (sec + n * i) n = (if ws.getLsbD i then redStep op wide old (partialWord wide d i) else old) ∧
    ∀ b, (b < sec ∨ sec + 64 ≤ b) → (applyPartial op wide sec d ws m).read b = m.read b)

/-! ### The device as a whole -/

/-- The worked encodings of the spec (02 after R38; 03 after R70; 04 after R95; 05 after R125; 06 R147; 09 R202; 11 R224; 14 R306,
R307) decode to the instructions they stand for. -/
def Obligations.WrittenWordsDecode : Prop :=
  decode false 0x00E62D02 = .ok (.add 0b1010 5 6 7) ∧
  decode false 0x0FC62BA8 = .ok (.ld .s32 7 5 6 (-2) 0) ∧
  decode false 0x001403032C062B8D = .ok (.ldX .d64 7 5 6 40 .acq .die 3 0) ∧
  decode false 0x000050802C0A2B8D = .ok (.cas true 7 5 10 0 0 .acq .die 0 0) ∧
  decode false 0x00028800_00E62B97 = .ok (.tlbInv .va .sys 7 5 6 7 0 0 0) ∧
  decode false 0x00000480_20E62B97 = .ok (.pgSplit 7 5 6 7 8 0 0) ∧
  decode false 0x00078082_20E62B93 = .ok (.cpyMc 7 5 6 7 8 15 0 2 0) ∧
  decode false 0x0018001E = .ok (.wcnt .copy 3) ∧
  decode false 0x00020C80_20E62B89 = .ok (.fma .f32 7 5 6 7 8 .frm 0) ∧
  decode false 0xFFFFE18E = .ok (.br 3 (-4)) ∧
  decode false 0x00080390 = .ok (.call 7 0x100) ∧
  decode false 0x40000000_02000387 = .ok (.jmp 7 0x40000000) ∧
  decode true 0x08060B92 = .ok (.callr 7 1 6) ∧
  decode false 0x0C000392 = .ok (.ret 7) ∧
  decode true 0x00067014 = .ok (.loop 7 3) ∧
  decode false 0x0002328C = .ok (.lpc 5 0x23) ∧
  decode false 0x1EE05288 = .ok (.addi 5 5 (-144))

/-- 19 R436; 07 R160; 15 R342 to R345; 16 R349, R358, R360; 18 R393, R410; 19 R431; 20 R437; 21 R461: the state after power-on
where the spec gives it. One thread runs, in context 0 of L-core 0 on DIE_ID 0, in system mode with PT_BASE.EN = 0 and its
control registers at their initial values; every unit is online; the registers of the courses, the contexts, the dies and the
ports are at their reset values. The invariants hold. -/
def Obligations.ResetState : Prop :=
  let s := State.reset
  (∃ t, s.threads = [(s.cur, t)] ∧ t.place = .ctx 0 0 ∧ t.core = 0 ∧ t.mode = true ∧ ptEn t.ptBase = false ∧
    (∀ n ∈ [0x001, 0x002, 0x003, 0x402, 0x403, 0x801, 0x802, 0x803, 0x804, 0x805, 0x808, 0x810, 0x811, 0x812, 0x813, 0x814,
      0x815, 0xC00, 0xC08, 0xC09], s.csr t (BitVec.ofNat 12 n) = 0)) ∧
  (∀ u, s.service u = (0, 0)) ∧ (∀ k, (s.course k).mode = .normal ∧ (s.course k).stretch = 0) ∧
  (∀ k ∈ List.range 64, s.ctrlGet 0 (0x04000000 + 0x100 * k) = some (BitVec.ofNat 64 (102 + 512 * 2 ^ 8 + 2 ^ 20 + 2 ^ 21))) ∧
  (∀ c ∈ List.range 144, s.ctrlGet 0 (0x00100000 + 0x100 * c + 0x08) = some 0 ∧
    s.ctrlGet 0 (0x00100000 + 0x100 * c + 0x18) = some 0xFFFFFFFFFFFFFFFF ∧
    s.ctrlGet 0 (0x00100000 + 0x100 * c + 0x30) = some 0 ∧ s.ctrlGet 0 (0x00100000 + 0x100 * c + 0x38) = some 0 ∧
    s.ctrlGet 0 (0x00100000 + 0x100 * c + 0x80) = some 0) ∧
  (∀ d ∈ List.range 10, s.ctrlGet 0 (0x05060000 + 0x100000 * d) = some 0 ∧ s.ctrlGet 0 (0x05080008 + 0x100000 * d) = some 0 ∧
    s.ctrlGet 0 (0x05010010 + 0x100000 * d) = some 0x7FFFFFFFFFFFFFFF ∧
    s.ctrlGet 0 (0x05010018 + 0x100000 * d) = some 0x8000000000000000 ∧
    (2 ≤ d → s.ctrlGet 0 (0x05070000 + 0x100000 * d) = some 4 ∧ s.ctrlGet 0 (0x05050000 + 0x100000 * d) = some 1) ∧
    (d < 2 → s.ctrlGet 0 (0x05090008 + 0x100000 * d) = some 0)) ∧
  (∀ p ∈ List.range 4, s.ctrlGet 0 (0x06000000 + 0x10000 * p) = some 0) ∧
  (∀ c, (s.core c).cycle = 0 ∧ (s.core c).tcfg = 0xA) ∧ s.Calm ∧ s.memOk ∧ s.gangOk

/-- 02 R30 to R33; 14 R298; 18 R398, R421: a step in an issue runs the instruction that the parcels at its program counter decode
to, as `exec` does for the next thread of it, with the thread's energy, its mark's start and what capture units sample counted, between what
the instruction orders before and what it has learned after, neither of which changes anything where no access is out of its order, and then
settles; parcels that are no instruction raise their cause, and of an issue that does not go on after a wait a comparator comes before both.
An issue of one thread first fetches those parcels, and raises cause 0x0B where it came by a transfer to the second parcel of a 64-bit
instruction; a fetch without translation reads the 8-byte block of memory at its program counter. The order of the threads is the model's
(log entry 3). -/
def Obligations.StepRunsDecoded : Prop :=
  (∀ (s : State) (ms rest : List (Nat × Nat)) (fs : List (Nat × BitVec 8)) (pc : Word) (w n k pos : Nat) (ag : Bool)
      (ls : List (Nat × Thread)) (t : Thread),
    s.gang = some ⟨ms, (k, pos) :: rest, fs, pc, w, n, ag, ls⟩ → tget s.threads k = some t →
    let odd := pc.toNat % 8 == 4
    let g1 : Gang := ⟨ms, rest, fs, pc, w, n, ag, ls⟩
    let here := fun (s1 : State) => s1.cur = k ∧ s1.gang = some g1 ∧ s1.threads = s.threads ∧ s1.mem = s.mem ∧
      s1.copies = s.copies ∧ s1.ctxs = s.ctxs ∧ s1.stores = s.stores ∧ s1.views = s.views ∧ s1.delay = s.delay
    (∀ i, (ag = true ∨ t.comparator = none) → decode odd w = .ok i →
      ∃ s1, here s1 ∧
        (t.onL = true → t.mode = true → (ag = true ∨ loads i = false) → s1 = { s.passTime with cur := k, gang := some g1 }) ∧
        (step s = andThen (exec i (s1.ordered i)) fun s2 => (((s1.ordered i).linked i s2).ran k).settle) ∧
        (s.Calm → s1.ordered i = s1 ∧ ∀ s2, exec i s1 = .next s2 → s2.Calm → step s = .next (s2.ran k).settle)) ∧
    (∀ e, (ag = true ∨ t.comparator = none) → decode odd w = .ill e →
      ∃ s1, here s1 ∧ step s = .next ((s1.trap (illCause e) (illTval w)).ran k).settle) ∧
    (∀ c, ag = false → t.comparator = some c → ∃ s1, here s1 ∧ step s = .next ((s1.trap 0x0F (BitVec.ofNat 64 c)).ran k).settle)) ∧
  (∀ (s s1 : State) (k w : Nat) (rest : List Turn) (ilk mid : Bool) (i : Instr),
    let s0 := { s.passTime with agenda := rest }
    s.gang = none → s.agenda = .issue [k] :: rest → s.passTime.due = none → s0.mayIssue [k] = true → (s0.thr k).fresh = true →
    State.fetch { s0 with cur := k } k = (s1, .ok w ilk mid) →
    (mid = true → (s1.thr k).entered = true →
      ∃ s2 : State, s2.cur = k ∧ s2.thr k = { s1.thr k with ilk := ilk } ∧ s2.mem = s1.mem ∧
        step s = .next (s2.trap 0x0B (s0.thr k).pc).closeGang.settle) ∧
    ((mid = false ∨ (s1.thr k).entered = false) → (s1.thr k).comparator = none →
      decode ((s0.thr k).pc.toNat % 8 == 4) w = .ok i →
      ∃ (s2 : State) (pos : Nat), s2.cur = k ∧ s2.thr k = ({ s1.thr k with ilk := ilk }).begin s0.seq pos w (some i) ∧ s2.mem = s1.mem ∧
        step s = andThen (exec i (s2.ordered i)) fun s3 => (((s2.ordered i).linked i s3).ran k).settle)) ∧
  (∀ (s : State) (k : Nat) (t : Thread), tget s.threads k = some t → t.mode = true → ptEn t.ptBase = false →
    let b := t.pc.toNat / 8 * 8
    let v := s.mem.readN b 8
    (t.pc.toNat % 4 ≠ 0 → s.fetch k = (s, .trap 0x0A)) ∧
    (t.pc.toNat % 4 = 0 → t.pc.toNat < 2 ^ 52 → Reaches s (t.mctx k) b bareLeaf → (∀ a, lineOf a = lineOf b → s.fwd a = a) →
      (∀ a, lineOf a = lineOf b → (s.dirOf (secOf a)).uop = none) → (∀ e ∈ s.icache, e.1 = t.core → e.2.1 ≠ secOf b) →
      ∃ s1, s1.mem = s.mem ∧
        (t.pc.toNat % 8 = 0 → s.fetch k = (s1, .ok v false false)) ∧
        (t.pc.toNat % 8 = 4 →
          (v / 2 ^ 32 % 2 = 0 → s.fetch k = (s1, .ok (v / 2 ^ 32) false (decide (v % 2 = 1)))) ∧
          (v / 2 ^ 32 % 2 = 1 → ∃ q, s.fetch k = (s1, .ok (v / 2 ^ 32 + q * 2 ^ 32) false (decide (v % 2 = 1)))))))

/-- Every step of the device answers a next state: no step faults or refuses, whatever the state. -/
def Obligations.StepAnswers : Prop := ∀ s : State, ∃ s', step s = .next s'

/-- The memory keeps its canonical form at every step, and an issue never stays open with no thread left to run. -/
def Obligations.StepKeepsInvariants : Prop :=
  ∀ s s' : State, s.memOk → step s = .next s' → s'.memOk ∧ s'.gangOk

/-! ### Barrier objects and copies (chapter 06) -/

/-- 06 R130, R131, R138: the barrier instructions. Each gives its status in its register and changes at most the 16 bytes of the
object and its tag; a phase with nothing left to arrive or to land completes, and the threads that wait for it, and that nothing has
released yet, leave. -/
def Obligations.BarrierInstructions : Prop :=
  ∀ (s : State) (t : Thread) (g : BitVec 4) (d a b c : BitVec 5) (la : BitVec 4) (ru : BitVec 3), t.onL = false →
    let w := t.wg
    let G := s.wg w
    let at_ := (s.srcX 0 a).toNat
    let n := (s.srcX 1 b).toNat
    let m := (s.srcX 2 c).toNat
    let o := G.bar at_
    let good := at_ % 16 = 0 ∧ at_ + 16 ≤ G.spPages * 4096
    let live := good ∧ at_ ∈ G.tags
    let only := fun (i : Instr) (v : Word) => ∃ u, exec i s = .next (s.setThr s.cur u) ∧ LateEnd t u i (.x d) la v
    let with_ := fun (i : Instr) (v : Word) (p : State → Prop) =>
      ∃ s1 u, exec i s = .next (s1.setThr s.cur u) ∧ LateEnd t u i (.x d) la v ∧ s1.mem = s.mem ∧ (∀ k, k ≠ w → s1.wg k = s.wg k) ∧
        (∀ j, (j < at_ ∨ at_ + 16 ≤ j) → (s1.wg w).spad.read j = G.spad.read j) ∧ p s1
    let after := fun (x : BarObj) (s1 : State) =>
      (s1.wg w).tags = G.tags ∧
      (s1.wg w).bar at_ = (if x.pend = 0 ∧ x.inB = 0 then { x with gen := (x.gen + 1) % 16, pend := x.init, reset := false } else x) ∧
      (x.pend = 0 → x.inB = 0 → ∀ k y, k ≠ s.cur → tget s.threads k = some y → y.wait = some (.bar w at_) → y.rel = none →
        (s1.thr k).rel = some (if x.poison then -4 else 0))
    (Runs s t g [.x d, .x a, .x b, .x c] [.x a, .x b, .x c] →
      let i := Instr.barInit g d a b c la ru
      (¬(good ∧ n ≤ 4095 ∧ m < 2 ^ 31) → only i (-1)) ∧
      (good → n ≤ 4095 → m < 2 ^ 31 → with_ i 0 fun s1 =>
        (s1.wg w).bar at_ = ⟨0, n, n, false, decide (at_ ∈ G.tags), m, 0, 0⟩ ∧ (∀ y, y ∈ (s1.wg w).tags ↔ y = at_ ∨ y ∈ G.tags) ∧
        ∀ k y, k ≠ s.cur → tget s.threads k = some y → (y.wait = some (.bar w at_) ∨ y.wait = some (.barOut w at_)) → y.rel = none →
          (s1.thr k).rel = some (-6))) ∧
    (Runs s t g [.x d, .x a] [.x a] →
      let i := Instr.barArr g d a la ru
      let j := Instr.barInval g d a la ru
      (¬good → only i (-1) ∧ only j (-1)) ∧ (good → at_ ∉ G.tags → only i (-5) ∧ only j (-5)) ∧
      (live → o.pend = 0 → only i (-2)) ∧
      (live → o.pend ≠ 0 → with_ i (BitVec.ofNat 64 o.gen) (after { o with pend := o.pend - 1 })) ∧
      (live → with_ j 0 fun s1 => (s1.wg w).tags = G.tags.erase at_ ∧
        ∀ k y, k ≠ s.cur → tget s.threads k = some y → (y.wait = some (.bar w at_) ∨ y.wait = some (.barOut w at_)) → y.rel = none →
          (s1.thr k).rel = some (-6))) ∧
    (∀ arr out : Bool, Runs s t g [.x d, .x a, .x b] [.x a, .x b] →
      let i := Instr.barExp arr out g d a b la ru
      let j := Instr.barTest out g d a b la ru
      let cnt := if out then o.outB else o.inB
      (¬good → only i (-1) ∧ only j (-1)) ∧ (good → at_ ∉ G.tags → only i (-5) ∧ only j (-5)) ∧
      (live → (2 ^ 31 ≤ n ∨ 2 ^ 31 ≤ cnt + n) → only i (-1)) ∧
      (live → n < 2 ^ 31 → cnt + n < 2 ^ 31 →
        (arr = true → o.pend = 0 → only i (-2)) ∧
        ((arr = false ∨ o.pend ≠ 0) →
          with_ i (if arr then BitVec.ofNat 64 o.gen else 0)
            (after { o with
              inB := if out then o.inB else o.inB + n, outB := if out then o.outB + n else o.outB
              pend := if arr then o.pend - 1 else o.pend }))) ∧
      (live → out = false → 15 < n → only j (-1)) ∧
      (live → (out = true ∨ n ≤ 15) →
        (o.poison = true → only j (-4)) ∧
        (o.poison = false → out = true → only j (if o.outB = 0 then 1 else 0)) ∧
        (o.poison = false → out = false → only j (if o.gen = n then 0 else 1)))) ∧
    (∀ out : Bool, Runs s t g [.x d, .x a, .x b] [.x a, .x b] →
      let i := Instr.barWait out g d a b la ru
      let holds := (out = true ∧ o.outB ≠ 0) ∨ (out = false ∧ o.gen = n)
      (∀ v, t.rel = some v → only i v) ∧
      (t.rel = none →
        (¬good → only i (-1)) ∧ (good → at_ ∉ G.tags → only i (-5)) ∧ (live → out = false → 15 < n → only i (-1)) ∧
        (live → (out = true ∨ n ≤ 15) →
          (holds → ∃ u, exec i s = .next (s.setThr s.cur u) ∧ u.wait = some (if out then .barOut w at_ else .bar w at_) ∧ u.pc = t.pc ∧
            u.x = t.x) ∧
          (¬holds → only i (if o.poison then -4 else 0)))))

/-- 06 R140 to R142: a copy command. Without copy rights it traps; one of no bytes has status 0; one that fails a check has −1, and
a multicast to a tile without a receiver −3; else its first selected row is translated, and with room the command is
queued and counted, with status 0; without room the thread waits, and completes once there is room. -/
def Obligations.CopyCommands : Prop :=
  (∀ (s : State) (t : Thread) (g : BitVec 4) (d a b c : BitVec 5) (sc : Scope) (ss : BitVec 13) (mo : BitVec 16) (dm : BitVec 4)
      (la : BitVec 4) (ru : BitVec 3), Runs s t g [.x d, .x a, .x b, .x c] [.x a, .x b, .x c] → t.onL = false →
    let G := s.wg t.wg
    let va := s.srcX 0 a
    let soff := (s.srcX 1 b).toNat % 2 ^ 32
    let boff := (s.srcX 1 b).toNat / 2 ^ 32
    let rowBytes := (s.srcX 2 c).toNat % 2 ^ 20
    let rows := (s.srcX 2 c).toNat / 2 ^ 20 % 2 ^ 16
    let stride := (s.srcX 2 c).toNat / 2 ^ 36
    ∀ i kind, (i, kind) ∈ [(Instr.cpyIn g d a b c ss la ru, CopyKind.cin), (.cpyMc g d a b c dm ss la ru, .mc),
        (.cpyGat g d a b c mo la ru, .gat), (.cpyOut sc g d a b c ss la ru, .out), (.cpySct sc g d a b c mo la ru, .sct)] →
      let packs := kind = .gat ∨ kind = .sct
      let sstride := if packs then 0 else 16 * ss.toNat
      let step := if sstride = 0 then rowBytes else sstride
      let last := soff + (rows - 1) * step + rowBytes
      let masked := fun (r : Nat) => packs → ((G.spad.read (64 * mo.toNat + r / 8)).getLsbD (r % 8) = true)
      let ok := va.toNat % 4 = 0 ∧ soff % 4 = 0 ∧ rowBytes % 4 = 0 ∧ stride % 4 = 0 ∧ (sstride = 0 ∨ rowBytes ≤ step) ∧
        last ≤ G.spPages * 4096 ∧ (boff = 0xFFFFFFFF ∨ (boff % 16 = 0 ∧ boff + 16 ≤ G.spPages * 4096)) ∧
        (packs → 64 * mo.toNat + (rows + 7) / 8 ≤ G.spPages * 4096) ∧
        -(2 ^ 55 : Int) ≤ va.toInt ∧ va.toInt < 2 ^ 55 ∧ va.toInt + ((rows - 1) * stride + rowBytes : Nat) ≤ 2 ^ 55 ∧
        (kind = .mc → dm ≠ 0)
      let met := kind = .mc → ∀ x < 4, dm.getLsbD x = true → (s.receiver t.wg x).isSome = true
      let only := fun (v : Word) => ∃ u, exec i s = .next (s.setThr s.cur u) ∧ LateEnd t u i (.x d) la v
      (t.role.copy = false → exec i s = .next (s.trap 0x20 (parcels i))) ∧
      (t.role.copy = true →
        ((rowBytes = 0 ∨ rows = 0) → only 0) ∧
        (rowBytes ≠ 0 → rows ≠ 0 → ¬ok → only (-1)) ∧
        (rowBytes ≠ 0 → rows ≠ 0 → ok → ¬met → only (-3)) ∧
        (rowBytes ≠ 0 → rows ≠ 0 → ok → met →
          let accepts := fun (s1 : State) =>
            (s1.copyRoom s1.me = true →
              ∃ (s2 : State) (u : Thread) (q : CopyCmd), exec i s = .next (s2.setThr s.cur u) ∧ s2.mem = s1.mem ∧ s2.wgs = s1.wgs ∧
                (s2.core t.core).copyQ = (s1.core t.core).copyQ ++ [q] ∧ q.t = s.cur ∧ q.kind = kind ∧ q.wg = t.wg ∧ q.maddr = va.toNat ∧
                q.soff = soff ∧ q.boff = boff ∧ q.rowBytes = rowBytes ∧ q.rows = rows ∧ q.mstride = stride ∧ q.ss = step ∧ q.row = 0 ∧
                q.poison = none ∧ (∀ r < rows, rowSel q.mask r = true ↔ masked r) ∧ LateEnd { s1.me with ops := s1.me.ops ++ [⟨.copy, q.id, false, none⟩] } u i (.x d) la 0) ∧
            (s1.copyRoom s1.me = false → exec i s = .next (s1.waitOn (.accept i)))
          ((∀ r < rows, ¬masked r) → accepts s) ∧
          ∀ r < rows, masked r → (∀ q < r, ¬masked q) →
            let x := s.xlate (t.mctx s.cur) (va + BitVec.ofNat 64 (r * stride)) (if kind = .out ∨ kind = .sct then .store else .load)
            (∀ s1 pa leaf, x = (s1, .ok pa leaf) → s1.cur = s.cur → accepts s1) ∧
            (∀ s1 e, x = (s1, .fault e) → exec i s = .next (s1.trap e (va + BitVec.ofNat 64 (r * stride))))))) ∧
  (∀ (s : State) (k : Nat) (t : Thread) (g : BitVec 4) (d a b c : BitVec 5) (sc : Scope) (ss : BitVec 13) (mo : BitVec 16) (dm : BitVec 4)
      (la : BitVec 4) (ru : BitVec 3), tget s.threads k = some t →
    ∀ i ∈ [Instr.cpyIn g d a b c ss la ru, .cpyMc g d a b c dm ss la ru, .cpyGat g d a b c mo la ru, .cpyOut sc g d a b c ss la ru,
        .cpySct sc g d a b c mo la ru], t.wait = some (.accept i) →
      (s.copyRoom t = false → exec (.copyAccept k) s = .next s) ∧
      (s.copyRoom t = true → exec (.copyAccept k) s = exec i { s with cur := k, gang := none }))

/-- 06 R131, R143, R144, R147, R148: the copy engine and `wcnt`. A chunk of an inbound command brings the bytes of memory into
scratchpad, for a gather where the next packed row stands, and for a multicast into that of every receiver; one of an outbound command
brings the bytes of scratchpad, for a scatter those of the next packed row, into memory. Nothing else of either changes but the count
of the object they are armed at, while the engine runs and no command of a better-ranked workgroup waits (18 R417); a command that has moved everything leaves the queue and is finished for its thread. `wcnt`
waits until at most its number of operations are outstanding, and raises first a deferred store error, then what failed. That the next chunk is
the longest R145 allows, up to bytes that have moved ahead of their turn, is the model's choice (log entry 94). -/
def Obligations.CopyEngineAndWcnt : Prop :=
  (∀ (s s1 : State) (c pa leaf : Nat) (m : CopyCmd) (q : List CopyCmd),
    (s.core c).copyQ = m :: q → m.row < m.rows → rowSel m.mask m.row = true → 0 < m.chunk → (m.boff = noBar ∨ m.boff % 16 = 0) →
    let n := m.chunk
    let G := s1.wg m.wg
    let a := s1.fwd pa
    s.copyRuns c = true → s.bestWg ((m :: q).map (·.wg)) = some m.wg →
    Reaches s1 (m.ctx c) pa leaf → pa % 64 + n ≤ 64 → m.so + n ≤ m.boff ∨ m.boff + 16 ≤ m.so →
    (∀ rcv : List Nat, (((m.kind = .cin ∨ m.kind = .gat) ∧ rcv = [m.wg]) ∨
        (m.kind = .mc ∧ (s1.wg m.wg).group ≠ 0 ∧ (tilesOf m.dmask).map (s1.receiver m.wg) = rcv.map some)) →
      m.lost = [] → rcv.Nodup → s.xlate (m.ctx c) m.va .load = (s1, .ok pa leaf) →
      regionOf leaf ≠ .rsh → (regionOf leaf = .rdup → s1.replica ((m.ctx c).ag / 512) (secOf a) = none) →
      (∀ d ws, s1.copy (m.ctx c).ag (secOf a) ≠ some ⟨.r, d, ws⟩) →
      (∀ w ∈ rcv, ∀ j < n, (m.so + j) / 16 * 16 ∉ (s1.wg w).tags) →
      (m.boff = noBar ∨ ∀ w ∈ rcv, m.boff ∈ (s1.wg w).tags ∧ n ≤ ((s1.wg w).bar m.boff).inB) →
      Answers s (.copyChunkLand c) fun s' =>
        (s'.core c).copyQ = m.past n :: q ∧ s'.mem = s1.mem ∧ (∀ w, w ∉ rcv → (s'.wg w).spad = (s1.wg w).spad) ∧
        ∀ w ∈ rcv, (s'.wg w).spad.run m.so n = bytesOf n (s1.mem.readN a n) ∧
          (∀ j, (j < m.so ∨ m.so + n ≤ j) → (m.boff = noBar ∨ j < m.boff ∨ m.boff + 16 ≤ j) →
            (s'.wg w).spad.read j = (s1.wg w).spad.read j) ∧
          (m.boff ≠ noBar →
            let o := (s1.wg w).bar m.boff
            let x := { o with inB := o.inB - n }
            (s'.wg w).bar m.boff =
              (if x.pend = 0 ∧ x.inB = 0 then { x with gen := (x.gen + 1) % 16, pend := x.init, reset := false } else x))) ∧
    ((m.kind = .out ∨ m.kind = .sct) → s.xlate (m.ctx c) m.va .store = (s1, .ok pa leaf) →
      Answers s (.copyChunkRead c) fun s' =>
        (m.boff = noBar ∨ m.boff ∈ G.tags →
          (s'.core c).copyQ = m.past n :: q ∧ s'.mem.run a n = G.spad.run m.so n ∧
          (∀ j, (j < a ∨ a + n ≤ j) → s'.mem.read j = s1.mem.read j)) ∧
        (m.boff ≠ noBar → m.boff ∈ G.tags →
          (s'.wg m.wg).bar m.boff = { G.bar m.boff with outB := (G.bar m.boff).outB - n }))) ∧
  (∀ (s : State) (c : Nat) (m : CopyCmd) (q : List CopyCmd) (u : Thread),
    ((s.core c).copyQ = [] → ∀ i ∈ [Instr.copyChunkLand c, .copyChunkRead c, .copyComplete c], exec i s = .next s) ∧
    ((s.core c).copyQ = m :: q → m.rows ≤ m.row → tget s.threads m.t = some u →
      Answers s (.copyComplete c) fun s' => (s'.core c).copyQ = q ∧ s'.mem = s.mem ∧
        (∀ rest, u.ops.filter (·.cls == .copy) = ⟨.copy, m.id, false, none⟩ :: rest → (∀ o ∈ rest, o.done = false ∧ o.id ≠ m.id) →
          s'.count (s'.thr m.t) .copy = s.count u .copy - 1 ∧
          (s'.thr m.t).reports = u.reports ++ (m.poison.map fun p => (CntClass.copy, p)).toList) ∧
        (m.kind = .gat → m.boff ≠ noBar → m.boff ∈ (s.wg m.wg).tags → ((s'.wg m.wg).bar m.boff).packed = m.packed % 2 ^ 32))) ∧
  (∀ (s : State) (t : Thread) (k : CntClass) (n : BitVec 6), Runs s t always [] [] →
    (∀ va, t.deferred = some va → exec (.wcnt k n) s = .next (s.takeDeferred va)) ∧
    (t.deferred = none →
      (n.toNat < s.count t k → ∃ u, exec (.wcnt k n) s = .next (s.setThr s.cur u) ∧ u.wait = some (.count k n.toNat) ∧ u.pc = t.pc ∧ u.x = t.x) ∧
      (s.count t k ≤ n.toNat → ∀ r, t.reports.find? (·.1 == k) = some r → exec (.wcnt k n) s = .next (s.takeReport r)) ∧
      (s.count t k ≤ n.toNat → (∀ r ∈ t.reports, r.1 ≠ k) → ∃ u, Ends s t u (.wcnt k n) [])))

/-! ### The matrix engine (chapter 12) -/

/-- 12 R257, R264, R265, R267 to R269, R271 to R275: the matrix instructions. One that fails a check writes its status and does
nothing else; one that passes is queued under a new number and, but for `mcfg` and `mrel`, counted, with status 0, or waits
where there is no room; `mcfg` and `mstat` give their result when they are performed. Claims take free slots at once, with
their contents zeroed. The shape in the checks is that of the last `mcfg` queued, as log entry 20 reads R261; that any other breach comes
before a slot that is not held is the model's choice (log entry 95). -/
def Obligations.MatrixCommands : Prop :=
  ∀ (s : State) (t : Thread) (g : BitVec 4) (d a b c : BitVec 5) (la : BitVec 4) (ru : BitVec 3) (pc : BitVec 3), t.onL = false →
    let w := t.wg
    let G := s.wg w
    let size := G.spPages * 4096
    let xa := (s.srcX 0 a).toNat
    let xb := (s.srcX 1 b).toNat
    let xc := (s.srcX 2 c).toNat
    let sh := s.shapeAt t.core
    let len := fun (c : Nat) => if c = 0 then 16 else if c = 1 then 32 else 64
    let R := len (sh % 4)
    let C := len (sh / 4 % 4)
    let held := fun (k : Nat) => k ∈ G.held ∧ ∀ q ∈ (s.core G.core).matQ, q.wg = w → ∀ f n, q.op = .rel f n → ¬(f ≤ k ∧ k < f + n)
    let only := fun (i : Instr) (v : Word) => ∃ u, exec i s = .next (s.setThr s.cur u) ∧ LateEnd t u i (.x d) la v
    let joins := fun (s1 : State) (op : MatOp) (id : Nat) => s1.mem = s.mem ∧ s1.wgs = s.wgs ∧
      (s1.core t.core).matQ = (s.core t.core).matQ ++ [⟨id, s.cur, w, op, 0, 0, 0, 0, none⟩]
    let queued := fun (i : Instr) (op : MatOp) =>
      (s.matRoom t = true → ∃ (s1 : State) (u : Thread) (id : Nat), exec i s = .next (s1.setThr s.cur u) ∧ joins s1 op id ∧
        LateEnd { t with ops := t.ops ++ [⟨.matrix, id, false, none⟩] } u i (.x d) la 0) ∧
      (s.matRoom t = false → exec i s = .next (s.waitOn (.accept i)))
    let later := fun (u : Thread) (id : Nat) => d = 0 ∨ ⟨.x d, none, if t.locked then 0 else la.toNat, id⟩ ∈ u.pend
    let claim := fun (i : Instr) (v : Word) (s1 : State) => ∃ u, exec i s = .next (s1.setThr s.cur u) ∧ LateEnd (t.setP pc (v == 0)) u i (.x d) la v
    (Runs s t g [.x d] [] → ∀ rows cols : BitVec 2,
      let i := Instr.mcfg g d rows cols la ru
      let new := rows.toNat + cols.toNat * 4
      let others := t.mode = false ∧ ∃ x ∈ s.onCore t.core, x.1 ≠ w ∧ (x.2.held ≠ [] ∨ x.2.grant ≠ 0)
      ((rows = 3 ∨ cols = 3) → only i (-1)) ∧
      (rows ≠ 3 → cols ≠ 3 →
        (new = (s.core t.core).tcfg.toNat → only i 0) ∧
        (new ≠ (s.core t.core).tcfg.toNat → others → only i (-3)) ∧
        (new ≠ (s.core t.core).tcfg.toNat → ¬others →
          ∃ (s1 : State) (u : Thread) (id : Nat), exec i s = .next (s1.setThr s.cur u) ∧ joins s1 (.cfg new) id ∧ later u id ∧ u.rest = t.rest ∧
            KeepsRegs t u [.x d] ∧ u.get (.x d) = t.get (.x d) ∧ MovesOn t u 8))) ∧
    (Runs s t g [.x d, .x a, .x b] [.x a, .x b] →
      let bad := xb = 0 ∨ 64 < xb ∨ 63 < xa ∨ 64 < xa + xb
      let taken := ∃ k, xa ≤ k ∧ k < xa + xb ∧ k ∈ G.held
      let free := 256 - s.slotsHeld t.core
      let gets := s.updWg w fun x => { x with held := x.held ++ (List.range xb).map (xa + ·), slotMem := x.slotMem.clear (xa * 4096) (xb * 4096) }
      let i := Instr.mclaim g d a b pc la ru
      let j := Instr.mclaimW g d a b pc la ru
      let r := Instr.mrel g d a b la ru
      (bad → claim i (-1) s ∧ claim j (-1) s ∧ only r (-1)) ∧
      (¬bad → taken → claim i (-4) s ∧ claim j (-4) s) ∧
      (¬bad → ¬taken → (s.liveClaims t.core ≠ [] ∨ free < xb) → claim i (-2) s ∧
        ∃ (s1 : State) (u : Thread), exec j s = .next (s1.setThr s.cur u) ∧ u.wait = some (.claim d pc la) ∧ u.pc = t.pc ∧ u.x = t.x ∧ u.p = t.p ∧
          s1.wgs = s.wgs ∧ (s1.core t.core).claims = s.liveClaims t.core ++ [⟨s.cur, w, xa, xb⟩]) ∧
      (¬bad → ¬taken → s.liveClaims t.core = [] → xb ≤ free → claim i 0 gets ∧ claim j 0 gets) ∧
      (¬bad → (∃ k, xa ≤ k ∧ k < xa + xb ∧ ¬held k) → only r (-4)) ∧
      (¬bad → (∀ k, xa ≤ k → k < xa + xb → held k) →
        ∃ (s1 : State) (u : Thread) (id : Nat), exec r s = .next (s1.setThr s.cur u) ∧ joins s1 (.rel xa xb) id ∧ LateEnd t u r (.x d) la 0)) ∧
    (∀ tr e8 : Bool, Runs s t g [.x d, .x a, .x b, .x c] [.x a, .x b, .x c] →
      let i := if tr then Instr.mloadT e8 g d a b c la ru else .mload e8 g d a b c la ru
      let es := if e8 then 1 else 2
      let lines := xb / 2 ^ 8 % 2 ^ 8
      let span := if tr then (64 / es - 1) * xc + lines * es else (lines - 1) * xc + 64
      let bad := 2 ^ 16 ≤ xb ∨ lines = 0 ∨ 64 < lines ∨ xa % es ≠ 0 ∨ xc % es ≠ 0 ∨ 2 ^ 22 ≤ xc ∨ size < xa + span
      (bad → only i (-1)) ∧ (¬bad → ¬held (xb % 256) → only i (-4)) ∧
      (¬bad → held (xb % 256) → queued i (.load tr e8 xa (xb % 256) lines xc))) ∧
    (∀ e8 : Bool, Runs s t g [.x d, .x a, .x b] [.x a, .x b] →
      let i := Instr.mgath e8 g d a b la ru
      let f := fun (k : Nat) => G.spad.readN (xa + 4 * k) 4
      let bad := xa % 16 ≠ 0 ∨ size < xa + 32 ∨ 256 ≤ xb ∨ f 5 ≠ 0 ∨ f 6 ≠ 0 ∨ f 7 ≠ 0 ∨ f 0 % 4 ≠ 0 ∨ f 1 % 4 ≠ 0 ∨
        f 2 % (if e8 then 1 else 2) ≠ 0
      (bad → only i (-1)) ∧ (¬bad → ¬held xb → only i (-4)) ∧
      (¬bad → held xb → queued i (.gath e8 (f 0) (f 1) (f 2) (f 3) (f 4) xb))) ∧
    (∀ fm : MFmt, Runs s t g [.x d, .x a] [.x a] →
      let i := Instr.mmul fm g d a la ru
      let v := fun (k : Nat) => G.spad.readN (xa + 8 * k) 8
      let e := fun (k : Nat) => mulEntry (v k)
      let bad := xa % 8 ≠ 0 ∨ size < xa + 64 ∨ ∃ k < 8,
        ((v k).testBit 40 = false ∧ v k ≠ 0) ∨
        ((v k).testBit 40 = true ∧ (2 ^ 42 ≤ v k ∨ G.grant ≤ (e k).acc ∨ (e k).ksteps = 0 ∨ 64 < (e k).ksteps ∨
          64 < (e k).aslot + (e k).ksteps ∨ 64 < (e k).bslot + (e k).ksteps ∨ (e k).klast = 0 ∨ fm.ks < (e k).klast))
      let unheld := ∃ k < 8, (v k).testBit 40 = true ∧ ∃ j < (e k).ksteps, ¬held ((e k).aslot + j) ∨ ¬held ((e k).bslot + j)
      (bad → only i (-1)) ∧ (¬bad → unheld → only i (-4)) ∧
      (¬bad → ¬unheld → (∀ k < 8, (v k).testBit 40 = false) → only i 0) ∧
      (¬bad → ¬unheld → (∃ k < 8, (v k).testBit 40 = true) →
        queued i (.mul fm (((List.range 8).filter fun k => (v k).testBit 40).map e)))) ∧
    (∀ i32 z : Bool, Runs s t g [.x d, .x a, .x b, .x c] [.x a, .x b, .x c] →
      let i := Instr.msacc i32 z g d a b c la ru
      let bad := xa % 4 ≠ 0 ∨ xb % 4 ≠ 0 ∨ size < xa + 4 * R ∨ size < xb + 4 * C ∨ 2 ^ 16 ≤ xc ∨ xc % 2 ^ 8 = xc / 2 ^ 8 ∨
        G.grant ≤ xc % 2 ^ 8 ∨ G.grant ≤ xc / 2 ^ 8
      (bad → only i (-1)) ∧ (¬bad → queued i (.sacc i32 z xa xb (xc % 2 ^ 8) (xc / 2 ^ 8)))) ∧
    (∀ (fmt : BitVec 3) (ovp : BitVec 2) (rm : BitVec 3) (z : Bool), Runs s t g [.x d, .x a, .x b] [.x a, .x b] →
      let i := Instr.mstore fmt ovp rm z g d a b la ru
      let es := if fmt = 0 ∨ fmt = 4 then 4 else if fmt = 3 ∨ fmt = 5 then 1 else 2
      let soff := xa % 2 ^ 32
      let boff := xa / 2 ^ 32
      let st := xb / 2 ^ 32
      let allowed := ((fmt = 1 ∨ fmt = 2) ∧ rm ≤ 4) ∨ (fmt = 3 ∧ rm = 0) ∨ ((fmt = 0 ∨ fmt = 4 ∨ fmt = 5) ∧ ovp = 0 ∧ rm = 0)
      let ok := allowed ∧ xb / 2 ^ 8 % 2 ^ 24 = 0 ∧ soff % es = 0 ∧ st % es = 0 ∧ C * es ≤ st ∧ soff + (R - 1) * st + C * es ≤ size ∧
        xb % 2 ^ 8 < G.grant ∧ (boff = 0xFFFFFFFF ∨ (boff % 16 = 0 ∧ boff + 16 ≤ size))
      (¬ok → only i (-1)) ∧
      (ok → queued i (.store fmt.toNat ovp.toNat (if rm = 4 then t.frm.toNat else rm.toNat) z soff boff (xb % 2 ^ 8) st))) ∧
    (Runs s t g [.x d, .x a, .x b] [.x a, .x b] →
      let i := Instr.mzero g d a b la ru
      let j := Instr.macld g d a b la ru
      let st := xb / 2 ^ 32
      let ok := xb / 2 ^ 8 % 2 ^ 24 = 0 ∧ xa % 4 = 0 ∧ st % 4 = 0 ∧ C * 4 ≤ st ∧ xa + (R - 1) * st + C * 4 ≤ size ∧ xb % 2 ^ 8 < G.grant
      ((xb = 0 ∨ G.grant < xa + xb) → only i (-1)) ∧ (xb ≠ 0 → xa + xb ≤ G.grant → queued i (.zero xa xb)) ∧
      (¬ok → only j (-1)) ∧ (ok → queued j (.ld xa (xb % 2 ^ 8) st))) ∧
    (Runs s t g [.x d, .x a] [.x a] →
      let i := Instr.mstat g d a la ru
      (s.matRoom t = true → ∃ (s1 : State) (u : Thread) (id : Nat), exec i s = .next (s1.setThr s.cur u) ∧ joins s1 (.stat (xa % 64)) id ∧
        later u id ∧ u.ops = t.ops ++ [⟨.matrix, id, false, none⟩] ∧ KeepsRegs t u [.x d] ∧ u.get (.x d) = t.get (.x d) ∧ MovesOn t u 8) ∧
      (s.matRoom t = false → exec i s = .next (s.waitOn (.accept i))))

/-- 12 R257, R261, R263 to R275, R277; 18 R417: the engine of a core. A step performs the oldest command up to its next yield point: one
line of a fill, one entry of a gather, one K-step of a product, one row of `macld`, `msacc` or `mstore`; with its last part the
command leaves the queue. A fill gives the slot the bytes of scratchpad, a K-step adds to each element of the shape, `mzero` clears
whole tiles, `macld` and `mstore` move elements unchanged or converted, counted at the object that is armed and not onto tagged granules,
`mstat` reads and then clears the flags; a shape change zeroes the store and writes TCFG. A gather that reads beyond the allocation or a
row that ends before it begins leaves its slot all zero, and an `mstore` with OVP 3 that meets an overflow writes nothing: both are
poisoned. The oldest claim is granted once there is room, and in a deadlock the youngest claimant traps. A preempted engine takes the commands of the best-ranked workgroup first, and no command passes a shape change. -/
def Obligations.MatrixPerformance : Prop :=
  (∀ (s : State) (c : Nat) (m : MatCmd) (q : List MatCmd), (s.core c).matQ = m :: q → s.matRuns c = true →
    ((∀ x ∈ m :: q, ∀ n, x.op ≠ .cfg n) → s.bestWg ((m :: q).map (·.wg)) = some m.wg) →
    let w := m.wg
    let G := s.wg w
    let sh := (s.core G.core).tcfg.toNat
    let len := fun (c : Nat) => if c = 0 then 16 else if c = 1 then 32 else 64
    let R := len (sh % 4)
    let C := len (sh / 4 % 4)
    let i := m.row
    let does := fun (q' : List MatCmd) (p : WG → Prop) => Answers s (.matrixPerform c) fun s' => (s'.core c).matQ = q' ∧ s'.mem = s.mem ∧
      (∀ k, k ≠ w → (s'.wg k).tileMem = (s.wg k).tileMem ∧ (s'.wg k).slotMem = (s.wg k).slotMem ∧ (s'.wg k).held = (s.wg k).held) ∧ p (s'.wg w)
    let after := fun (m : MatCmd) (n : Nat) => if m.row + 1 < n then { m with row := m.row + 1, pos := 0, stop := 0 } :: q else q
    let tile := fun (g : WG) (t i j : Nat) => g.tileMem.read (t * 4096 + i * 64 + j)
    let fails := fun (code : Word) (p : WG → Prop) => does q p ∧ Answers s (.matrixPerform c) fun s' =>
      ∀ u rest, tget s.threads m.t = some u → u.ops.filter (·.cls == .matrix) = ⟨.matrix, m.id, false, none⟩ :: rest →
        (∀ o ∈ rest, o.done = false ∧ o.id ≠ m.id) → (s'.thr m.t).reports = u.reports ++ [(CntClass.matrix, ⟨0x24, code, none⟩)]
    (∀ n, m.op = .cfg n → exec (.matrixPerform c) s = .next s ∧
      Answers s (.mcfgApply c) fun s' => (s'.core c).matQ = q ∧ (s'.core c).tcfg = BitVec.ofNat 4 n ∧ s'.mem = s.mem ∧
        ∀ x ∈ s'.wgs, x.2.core = c → x.2.resident = true → x.2.slotMem = [] ∧ x.2.tileMem = []) ∧
    ((∀ n, m.op ≠ .cfg n) → exec (.mcfgApply c) s = .next s) ∧
    (∀ f n, m.op = .rel f n → does q fun g =>
      (∀ k, k ∈ g.held ↔ k ∈ G.held ∧ ¬(f ≤ k ∧ k < f + n)) ∧ ∀ x, f * 4096 ≤ x → x < (f + n) * 4096 → g.slotMem.read x = 0) ∧
    (∀ tr e8 soff slot lines st, m.op = .load tr e8 soff slot lines st → i < 64 → does (after m 64) fun g =>
      let es := if e8 then 1 else 2
      (∀ y < 64, g.slotMem.read (slot * 4096 + i * 64 + y) =
        if lines ≤ i then 0 else if tr then G.spad.read (soff + y / es * st + i * es + y % es) else G.spad.read (soff + i * st + y)) ∧
      ∀ x, (x < slot * 4096 + i * 64 ∨ slot * 4096 + i * 64 + 64 ≤ x) → g.slotMem.read x = G.slotMem.read x) ∧
    (∀ e8 rp ci vs k0 c0 slot, m.op = .gath e8 rp ci vs k0 c0 slot →
      let es := if e8 then 1 else 2
      let size := G.spPages * 4096
      let p := rp + 4 * (k0 + i)
      let lo := G.spad.readN p 4
      let hi := G.spad.readN (p + 4) 4
      let col := G.spad.readN (ci + 4 * m.pos) 4
      let inside := c0 ≤ col ∧ col < c0 + 64
      let cell := slot * 4096 + (col - c0) * 64 + i * es
      let m1 := { m with read := m.read + 1 }
      let zeroed := fun (g : WG) (all : Prop) =>
        (all → ∀ x, slot * 4096 ≤ x → x < slot * 4096 + 4096 → g.slotMem.read x = 0) ∧
        ∀ x, ¬(all ∧ slot * 4096 ≤ x ∧ x < slot * 4096 + 4096) → g.slotMem.read x = G.slotMem.read x
      (m.stop ≤ m.pos →
        (p + 8 ≤ size → lo ≤ hi → does (if lo = hi then after m (64 / es) else { m with pos := lo, stop := hi } :: q) (zeroed · (i = 0))) ∧
        ((size < p + 8 ∨ hi < lo) → fails 1 (zeroed · True))) ∧
      (m.pos < m.stop →
        (ci + 4 * m.pos + 4 ≤ size → (inside → vs + es * m.pos + es ≤ size) →
          does (if m.pos + 1 < m.stop then { m1 with pos := m.pos + 1 } :: q else after m1 (64 / es)) fun g =>
            (inside → g.slotMem.readN cell es = G.spad.readN (vs + es * m.pos) es) ∧
            ∀ x, ¬(inside ∧ cell ≤ x ∧ x < cell + es) → g.slotMem.read x = G.slotMem.read x) ∧
        ((size < ci + 4 * m.pos + 4 ∨ (inside ∧ size < vs + es * m.pos + es)) → fails 1 (zeroed · True)))) ∧
    (∀ fm es e, m.op = .mul fm es → es[i]? = some e →
      let n := if m.pos + 1 = e.ksteps then e.klast else fm.ks
      let old := fun (i j : Nat) => if m.pos = 0 ∧ e.zero = true then 0 else tile G e.acc i j
      does (if m.pos + 1 < e.ksteps then { m with pos := m.pos + 1 } :: q else after m es.length) fun g =>
        (∀ i < R, ∀ j < C, tile g e.acc i j =
          (kStep fm (stepPairs G.slotMem fm.es (e.aslot + m.pos) (e.bslot + m.pos) i j n) (old i j)).1) ∧
        (∀ t i j, i < 64 → j < 64 → (t ≠ e.acc ∨ R ≤ i ∨ C ≤ j) → tile g t i j = tile G t i j) ∧
        (fm = .i8 → ∀ i < R, ∀ j < C, tile g e.acc i j =
          BitVec.ofInt 32 ((old i j).toInt +
            ((List.range n).map fun k => (G.slotMem.read ((e.aslot + m.pos) * 4096 + i * 64 + k)).toInt *
              (G.slotMem.read ((e.bslot + m.pos) * 4096 + j * 64 + k)).toInt).sum))) ∧
    (∀ i32 z rs cs dst part, m.op = .sacc i32 z rs cs dst part → dst ≠ part → i < R → does (after m R) fun g =>
      (∀ j < C, tile g dst i j = (scaleAdd i32 (tile G dst i j) (tile G part i j)
        (BitVec.ofNat 32 (G.spad.readN (rs + 4 * i) 4)) (BitVec.ofNat 32 (G.spad.readN (cs + 4 * j) 4))).1 ∧
        tile g part i j = if z then 0 else tile G part i j) ∧
      ∀ t k j, k < 64 → j < 64 → ((t ≠ dst ∧ t ≠ part) ∨ k ≠ i ∨ C ≤ j) → tile g t k j = tile G t k j) ∧
    (∀ f ovp rm z soff boff t st, f < 6 → m.op = .store f ovp rm z soff boff t st → i < R →
      let es := if f = 0 ∨ f = 4 then 4 else if f = 3 ∨ f = 5 then 1 else 2
      let cvt := fun (e : Elem) (md : Rnd) (v : BitVec 32) => fcvtE e .f32 md (BitVec.ofNat 2 ovp) v.toNat
      let made := fun (v : BitVec 32) =>
        if f = 1 then cvt .bf16 (rndOf (BitVec.ofNat 2 rm)) v else if f = 2 then cvt .f16 (rndOf (BitVec.ofNat 2 rm)) v
        else if f = 3 then cvt .a8 .ne v
        else if f = 5 then (((BitVec.ofInt 8 (Max.max (-128) (Min.min 127 v.toInt))).toNat, 0), false) else ((v.toNat, 0), false)
      let row := soff + i * st
      let spills := i = 0 ∧ ∃ k < R, ∃ j < C, (made (tile G t k j)).2 = true
      let clears := fun (g : WG) => (∀ j < C, tile g t i j = if z then 0 else tile G t i j) ∧
        ∀ u k j, k < 64 → j < 64 → (u ≠ t ∨ k ≠ i ∨ C ≤ j) → tile g u k j = tile G u k j
      (spills → fails 2 fun g => g.spad = G.spad ∧ g.tileMem = G.tileMem) ∧
      (¬spills → (∀ y < C * es, (row + y) / 16 * 16 ∉ G.tags) →
        (boff = noBar ∨ (boff % 16 = 0 ∧ boff ∈ G.tags ∧ C * es ≤ (G.bar boff).inB)) →
        does (after m R) fun g =>
          (∀ j < C, g.spad.readN (row + es * j) es = (made (tile G t i j)).1.1 % 256 ^ es) ∧ clears g ∧
          (∀ x, (x < row ∨ row + C * es ≤ x) → (boff = noBar ∨ x < boff ∨ boff + 16 ≤ x) → g.spad.read x = G.spad.read x) ∧
          (boff ≠ noBar →
            let o := G.bar boff
            let x := { o with inB := o.inB - C * es }
            g.bar boff = (if x.pend = 0 ∧ x.inB = 0 then { x with gen := (x.gen + 1) % 16, pend := x.init, reset := false } else x))) ∧
      (¬spills → (∃ y < C * es, (row + y) / 16 * 16 ∈ G.tags) → boff = noBar → ∃ q',
        (i + 1 < R → ∃ r, q' = { m with row := i + 1, pos := 0, stop := 0, poison := some r } :: q) ∧
        does q' fun g => clears g ∧
          (∀ y < C * es, g.spad.read (row + y) = if (row + y) / 16 * 16 ∈ G.tags then G.spad.read (row + y)
            else BitVec.ofNat 8 ((made (tile G t i (y / es))).1.1 / 256 ^ (y % es))) ∧
          ∀ x, (x < row ∨ row + C * es ≤ x) → g.spad.read x = G.spad.read x)) ∧
    (∀ f n, m.op = .zero f n → does q fun g =>
      ∀ t i j, i < 64 → j < 64 → tile g t i j = if f ≤ t ∧ t < f + n then 0 else tile G t i j) ∧
    (∀ soff t st, m.op = .ld soff t st → i < R → does (after m R) fun g =>
      (∀ j < C, tile g t i j = BitVec.ofNat 32 (G.spad.readN (soff + i * st + 4 * j) 4)) ∧
      ∀ u k j, k < 64 → j < 64 → (u ≠ t ∨ k ≠ i ∨ C ≤ j) → tile g u k j = tile G u k j) ∧
    (∀ k u d l, m.op = .stat k → tget s.threads m.t = some u → u.pend = [⟨d, none, l, m.id⟩] → l ≠ 0 ∨ d ≠ .x 0 →
      Answers s (.matrixPerform c) fun s' => (s'.core c).matQ = q ∧ (s'.wg w).mflags = G.mflags &&& ~~~(BitVec.ofNat 6 k) ∧
        (l = 0 → (s'.thr m.t).get d = G.mstat) ∧ (l ≠ 0 → (s'.thr m.t).pend = [⟨d, some G.mstat, l, m.id⟩]))) ∧
  (∀ (s : State) (c : Nat), ((s.core c).matQ = [] ∨ s.matRuns c = false) →
    exec (.matrixPerform c) s = .next s ∧ exec (.mcfgApply c) s = .next s) ∧
  (∀ (s : State) (c : Nat) (x : Claim) (q : List Claim) (u : Thread) (d : BitVec 5) (pc : BitVec 3) (la : BitVec 4),
    s.liveClaims c = x :: q → tget s.threads x.t = some u → u.wait = some (.claim d pc la) →
    let taken := ∃ k < x.n, x.f + k ∈ (s.wg x.wg).held
    (256 - s.slotsHeld c < x.n → exec (.mclaimWGrant c) s = .next s) ∧
    (x.n ≤ 256 - s.slotsHeld c → s.matRuns c = true →
      Answers s (.mclaimWGrant c) fun s' => (s'.core c).claims = q ∧ s'.mem = s.mem ∧ (s'.thr x.t).wait = none ∧
        (¬taken → (s'.wg x.wg).held = (s.wg x.wg).held ++ (List.range x.n).map (x.f + ·) ∧ (s'.thr x.t).getP pc = true ∧
          (la = 0 → (s'.thr x.t).get (.x d) = 0)) ∧
        (taken → s'.wgs = s.wgs ∧ (s'.thr x.t).getP pc = (pc == 7) ∧ (la = 0 → (s'.thr x.t).get (.x d) = (Dest.x d).holds (-4)))) ∧
    (∀ y, s.deadlocked c = some y →
      256 - s.slotsHeld c < x.n ∧ (s.liveClaims c).getLast? = some y ∧
      (∀ h ∈ s.onCore c, h.2.held ≠ [] → ∃ z ∈ s.liveClaims c, z.wg = h.1) ∧
      Answers s (.claimDeadlock c) fun s' => y ∉ (s'.core c).claims ∧ s'.cur = y.t ∧ s'.mem = s.mem ∧
        ((s.thr y.t).atTvec = false → (s'.thr y.t).cause = ⟨0x23, BitVec.ofNat 6 (s.thr y.t).gpos, true⟩ ∧
          (s'.thr y.t).tval = BitVec.ofNat 64 y.n ∧ (s'.thr y.t).epc = (s.thr y.t).pc)) ∧
    (s.deadlocked c = none → exec (.claimDeadlock c) s = .next s)) ∧
  (∀ (s : State) (c w : Nat),
    (s.bestWg ((s.core c).matQ.map (·.wg)) = some w → (∀ m ∈ (s.core c).matQ, ∀ n, m.op ≠ .cfg n) →
      Answers s (.enginePreempt c true) fun s' => (s'.core c).matQ = (s.core c).matQ.filter (·.wg == w) ++ (s.core c).matQ.filter (·.wg != w) ∧
        s'.threads = s.threads ∧ s'.wgs = s.wgs ∧ s'.mem = s.mem) ∧
    ((∃ m ∈ (s.core c).matQ, ∃ n, m.op = .cfg n) → exec (.enginePreempt c true) s = .next s) ∧
    (s.bestWg ((s.core c).copyQ.map (·.wg)) = some w →
      Answers s (.enginePreempt c false) fun s' => (s'.core c).copyQ = (s.core c).copyQ.filter (·.wg == w) ++ (s.core c).copyQ.filter (·.wg != w) ∧
        s'.threads = s.threads ∧ s'.wgs = s.wgs ∧ s'.mem = s.mem))

/-! ### The walkers (05 R117 to R125; 04 R95, R96) -/

/-- 05 R117, R120, R122, R123, R125; 04 R95: the walker instructions. In user mode the page and TLB commands are privileged. One
that is refused writes its status at issue; one that is accepted is counted, its status to come, or waits for its counter or the walker;
the release of a descriptor frees it. A translation that fails is raised at issue. That `pg.split` and `pg.coll` read and lock their entries
as they are accepted, and wait at issue while one is locked, is the model's reading (log entry 29); that a command waits for a walker which
is out of service is its choice (log entry 96). -/
def Obligations.WalkerCommands : Prop :=
  ∀ (s : State) (t : Thread) (g : BitVec 4) (d a b c : BitVec 5) (la : BitVec 4) (ru : BitVec 3) (sc : WScope),
    let xa := s.srcX 0 a
    let xb := s.srcX 1 b
    let xc := s.srcX 2 c
    let only := fun (i : Instr) (v : Word) => ∃ u, exec i s = .next (s.setThr s.cur u) ∧ LateEnd t u i (.x d) la v
    let accepted := fun (i : Instr) (op : WalkOp) (t0 : Thread) (p : State → Prop) =>
      ∃ (s1 : State) (u : Thread) (id : Nat), exec i s = .next (s1.setThr s.cur u) ∧ p s1 ∧
        s1.walks = s.walks ++ [⟨id, s.cur, t0.wg, t0.die, op, t0.asid, t0.ptBase, t0.mode, 0, none, false, 0, none⟩] ∧
        u.ops = t0.ops ++ [⟨.walker, id, false, none⟩] ∧ (d = 0 ∨ ⟨.x d, none, if t0.locked then 0 else la.toNat, id⟩ ∈ u.pend) ∧
        KeepsRegs t0 u [.x d] ∧ u.get (.x d) = t0.get (.x d) ∧ MovesOn t0 u 8
    let range := fun (n : Nat) => -(2 ^ 55 : Int) ≤ xa.toInt ∧ xa.toInt < 2 ^ 55 ∧ xa.toInt + n ≤ 2 ^ 55
    (∀ bar inval : Bool, Runs s t g [.x d, .x a, .x b, .x c] [.x a, .x b, .x c] → (bar = true → t.onL = false) →
      let i := if inval then Instr.cwInval sc bar g d a b c la ru else .cwFlush sc bar g d a b c la ru
      let at_ := bar = true → xb.toNat % 16 = 0 ∧ xb.toNat + 16 ≤ (s.wg t.wg).spPages * 4096
      let x := s.xlate (t.mctx s.cur) xa .load
      (¬at_ → only i (-1)) ∧ (at_ → xc = 0 → only i 0) ∧ (at_ → xc ≠ 0 → ¬range xc.toNat → only i (-1)) ∧
      (at_ → xc ≠ 0 → range xc.toNat →
        (∀ s1 e, x = (s1, .fault e) → exec i s = .next (s1.trap e xa)) ∧
        (∀ s1, x = (s1, .wait) → exec i s = .next (s1.waitOn .walk)) ∧
        (∀ s1 pa leaf, x = (s1, .ok pa leaf) → s1.cur = s.cur → s1.walks = s.walks →
          (s1.walkRoom s1.me = true → accepted i (.cw inval sc (if bar then some xb.toNat else none) xa.toNat xc.toNat) s1.me fun s2 =>
            s2.mem = s1.mem) ∧
          (s1.walkRoom s1.me = false → exec i s = .next (s1.waitOn (.accept i)))))) ∧
    (Runs s t g [.x d, .x a, .x b, .x c] [.x a, .x b, .x c] →
      let i := Instr.pgMig g d a b c la ru
      let j := Instr.pgSplit g d a b c la ru
      let len := xc.toNat
      let free := (List.range 16).find? fun k => (tget (s.pkg (paPkg xa.toNat)).descs k).isNone
      let ok := xa.toNat % 4096 = 0 ∧ xb.toNat % 4096 = 0 ∧ len % 4096 = 0 ∧ len ≠ 0 ∧ len ≤ 2 ^ 32 ∧
        (xa.toNat + len ≤ xb.toNat ∨ xb.toNat + len ≤ xa.toNat) ∧ s.memRange xa.toNat len = true ∧ s.memRange xb.toNat len = true
      let split := xb.toNat % 8 = 0 ∧ len % 4096 = 0 ∧ s.memRange len 4096 = true
      (t.mode = false → exec i s = .next (s.trap 0x01 (parcels i)) ∧ exec j s = .next (s.trap 0x01 (parcels j)) ∧
        ∀ k, exec (.tlbInv k sc g d a b c la ru) s = .next (s.trap 0x01 (parcels (.tlbInv k sc g d a b c la ru)))) ∧
      (t.mode = true →
        (¬ok → only i (-1)) ∧ (ok → free = none → only i (-2)) ∧
        (∀ k, ok → free = some k →
          (s.walkRoom t = true → accepted i (.mig (paPkg xa.toNat) k) t fun s1 =>
            s1.mem = s.mem ∧ tget (s1.pkg (paPkg xa.toNat)).descs k = some ⟨.moving, xa.toNat, xb.toNat, len, 0⟩) ∧
          (s.walkRoom t = false → exec i s = .next (s.waitOn (.accept i)))) ∧
        (¬split → only j (-1)) ∧
        (split → s.walkRoom t = false → exec j s = .next (s.waitOn (.accept j))) ∧
        (split → s.walkRoom t = true → secOf xb.toNat ∈ s.locks → exec j s = .next (s.waitOn .walk)) ∧
        (split → s.walkRoom t = true → secOf xb.toNat ∉ s.locks →
          ∀ s1 e, s.readEnt (t.mctx s.cur) xb.toNat = (s1, e) → s1.cur = s.cur → s1.walks = s.walks →
            accepted j (.split xa.toNat xb.toNat len e) s1.me fun s2 => s2.mem = s1.mem ∧ secOf xb.toNat ∈ s2.locks) ∧
        (∀ k, let i := Instr.tlbInv k sc g d a b c la ru
          let r1 := (k = .va ∨ k = .rng ∨ k = .asid) ∧ 2 ^ 16 ≤ xb.toNat
          let r2 := ((k = .va ∨ k = .vag) ∧ ¬range 0) ∨ (k = .rng ∧ ¬range (xc.toNat * 4096))
          (r1 → only i (-1)) ∧ (¬r1 → r2 → only i (-2)) ∧ (¬r1 → ¬r2 → k = .rng → xc = 0 → only i 0) ∧
          (¬r1 → ¬r2 → (k = .rng → xc ≠ 0) →
            (s.walkRoom t = true → accepted i (.tlb k sc xa.toNat xc.toNat (xb.setWidth 16)) t fun s1 => s1.mem = s.mem ∧ s1.tlbs = s.tlbs) ∧
            (s.walkRoom t = false → exec i s = .next (s.waitOn (.accept i))))))) ∧
    (Runs s t g [.x d, .x a] [.x a] →
      let i := Instr.pgMigRel g d a la ru
      (t.mode = false → exec i s = .next (s.trap 0x01 (parcels i))) ∧
      (t.mode = true →
        ((∀ x ∈ (s.pkg (paPkg xa.toNat)).descs, ¬(x.2.st = .forward ∧ x.2.src = xa.toNat)) → only i (-2)) ∧
        (∀ x, (s.pkg (paPkg xa.toNat)).descs.find? (fun x => x.2.st == .forward && x.2.src == xa.toNat) = some x →
          (s.walkRoom t = false → exec i s = .next (s.waitOn (.accept i))) ∧
          (s.walkRoom t = true →
            ∃ (s1 : State) (u : Thread), exec i s = .next (s1.setThr s.cur u) ∧ s1.mem = s.mem ∧ LateEnd s1.me u i (.x d) la 0 ∧
              (s1.pkg (paPkg xa.toNat)).descs = tdel (s.pkg (paPkg xa.toNat)).descs x.1)))) ∧
    (∀ lvl : BitVec 2, Runs s t g [.x d, .x a, .x b] [.x a, .x b] →
      let i := Instr.pgColl lvl g d a b la ru
      (t.mode = false → exec i s = .next (s.trap 0x01 (parcels i))) ∧
      (t.mode = true →
        (xb.toNat % 8 ≠ 0 → only i (-1)) ∧
        (xb.toNat % 8 = 0 → s.walkRoom t = false → exec i s = .next (s.waitOn (.accept i))) ∧
        (xb.toNat % 8 = 0 → s.walkRoom t = true →
          ∀ s1 s2 e q ok, s.readEnt (t.mctx s.cur) xb.toNat = (s1, e) →
            let es := collEntries xb.toNat lvl.toNat (e.getD 0)
            (s.lockedAny es = true → exec i s = .next (s.waitOn .walk)) ∧
            (s.lockedAny es = false → s1.readEnts (t.mctx s.cur) es = (s2, q, ok) → s2.cur = s.cur → s2.walks = s.walks →
              accepted i (.coll xa.toNat xb.toNat lvl.toNat q (e.isNone || !ok)) s2.me fun s3 =>
                s3.mem = s2.mem ∧ ∀ a ∈ es, secOf a ∈ s3.locks))))

/-- 05 R117, R119, R120, R122, R123; 04 R95, R96; 18 R417: what the commands do when they complete. Nothing completes out of its turn, or
while a `cw.*` is within a page whose translation it would remove. A cache-walker command sends its recalls first where other packages have
copies, then leaves the
four sectors of a line clean, or without a holder, within its scope, and goes on with the next line until its range ends; a migration
engine moves a line and its BOUND; `tlb.inv` removes exactly the translations it names, and with them the walk caches of its scope; a
split writes its table and then the entry, and a collapse the entries with region COH, if they still are what was read; each leaves
the list, its locks go, and its thread gets the status. -/
def Obligations.WalkerCompletions : Prop :=
  (∀ (s : State) (n : Nat) (m : WalkCmd) (u : Thread), s.walks[n]? = some m → tget s.threads m.t = some u →
    let pkg := pkgOfDie m.die
    let steady := s.soft = [] ∧ ∀ d ∈ s.dir, d.2.uop = none
    let plain := fun (a : Nat) => s.fwd a = a ∧ s.memCode pkg a false = none ∧ (s.dirOf (secOf a)).st ≠ .p
    let ends := fun (s' : State) (v : Word) => m ∉ s'.walks ∧
      (∀ d, u.pend = [⟨d, none, 0, m.id⟩] → d ≠ .x 0 → (s'.thr m.t).get d = v) ∧
      (u.ops = [⟨.walker, m.id, false, none⟩] → (s'.thr m.t).ops = [])
    let within := fun (sc : WScope) (e : Nat) => sc = .sys ∨ (sc = .pkg ∧ e / 16 = m.die / 16) ∨ (sc = .die ∧ e = m.die)
    (m.sent = false → s.walkTurn m = false →
      ∀ i ∈ [Instr.cwWalkComplete n, .pgMigLine n, .pgSplitComplete n, .pgCollComplete n], exec i s = .next s) ∧
    (s.framed m = true → ∀ i ∈ [Instr.pgSplitComplete n, .pgCollComplete n, .tlbInvComplete n], exec i s = .next s) ∧
    (∀ inval sc bar va len, m.op = .cw inval sc bar va len → m.sent = false → s.walkTurn m = true → s.lineAway m sc va = true →
      Answers s (.cwWalkComplete n) fun s' => s'.walks[n]? = some { m with sent := true } ∧ s'.mem = s.mem ∧ s'.copies = s.copies) ∧
    (∀ inval sc va len s1 pa leaf, m.op = .cw inval sc none va len →
      m.sent = true ∨ (s.walkTurn m = true ∧ s.lineAway m sc va = false) →
      let a := va + m.pos
      let next := a / 256 * 256 + 256
      (match m.frame with
       | some f => (s, XRes.ok (f + a % 4096) 0)
       | none => s.xlate m.ctx (BitVec.ofNat 64 a) .load) = (s1, .ok pa leaf) →
      tsorted s1.copies = true → s1.soft = [] →
      let secs := (List.range 4).map fun i => s1.fwd (lineOf pa + 64 * i)
      (∀ x ∈ secs, s1.memCode pkg x false = none ∧ (s1.dirOf x).st ≠ .p ∧ (s1.dirOf x).uop = none) →
      Answers s (.cwWalkComplete n) fun s' => s'.mem = s1.mem ∧
        (va + len ≤ next → ends s' m.status) ∧
        (next < va + len → s'.walks[n]? = some { m with
          pos := next - va, sent := false, frame := if next % 4096 = 0 then none else some (pa / 4096 * 4096) }) ∧
        ∀ x ∈ secs, x < 2 ^ 52 → ∀ ag, within sc (agentDie ag) →
          (inval = true → s'.holds ag x = none) ∧
          (inval = false → s1.holds ag x = some .m ∨ s1.holds ag x = some .e → s'.holds ag x = some .e) ∧
          (inval = false → s1.holds ag x = some .o ∨ s1.holds ag x = some .s → s'.holds ag x = some .s)) ∧
    (∀ p k x, m.op = .mig p k → s.walkTurn m = true → tget (s.pkg p).descs k = some x → steady →
      let a := x.src + x.bound
      let b := x.dst + x.bound
      (a + 256 ≤ b ∨ b + 256 ≤ a) → a % 64 = 0 → b % 64 = 0 →
      (∀ j < 4, s.memCode (paPkg x.src) (a + 64 * j) false = none ∧ s.memCode (paPkg x.src) (b + 64 * j) true = none) →
      Answers s (.pgMigLine n) fun s' => s'.mem.readN b 256 = s.mem.readN a 256 ∧
        (∀ y, (y < b ∨ b + 256 ≤ y) → s'.mem.read y = s.mem.read y) ∧
        tget (s'.pkg p).descs k = some (if x.len ≤ x.bound + 256 then { x with bound := x.len, st := .forward }
          else { x with bound := x.bound + 256 }) ∧
        (x.len ≤ x.bound + 256 → ends s' m.status) ∧ (x.bound + 256 < x.len → s'.walks[n]? = some m)) ∧
    (∀ k sc va len asid, m.op = .tlb k sc va len asid → s.framed m = false → s.stores = [] → Answers s (.tlbInvComplete n) fun s' =>
      ends s' 0 ∧ s'.mem = s.mem ∧ (∀ x, x ∈ s'.walkCache ↔ x ∈ s.walkCache ∧ ¬within sc x.die) ∧
      ∀ x, x ∈ s'.tlbs ↔ x ∈ s.tlbs ∧ ¬(within sc x.held.onDie ∧
        (let glob := x.leaf.getLsbD 6
         let v := va % 2 ^ 56
         let meets := fun (n : Nat) => (x.va < v + n ∧ v < x.va + x.size) ∨ x.va + 2 ^ 56 < v + n
         match k with
         | .va => glob = false ∧ x.asid = asid ∧ meets 1
         | .rng => glob = false ∧ x.asid = asid ∧ meets (len * 4096)
         | .asid => glob = false ∧ x.asid = asid
         | .all => True
         | .vag => meets 1))) ∧
    (∀ va leaf table e, m.op = .split va leaf table (some e) → s.framed m = false → s.walkTurn m = true → s.stores = [] → steady → s.mem.readN leaf 8 = e → s.entryOk e 2 = true → e.testBit 0 = true →
      e.testBit 1 = true → e.testBit 9 = false → (leaf + 8 ≤ table ∨ table + 4096 ≤ leaf) → table / 4096 < 2 ^ 40 → table % 4096 = 0 →
      leaf % 8 = 0 → plain leaf → (∀ i < 512, plain (table + 8 * i)) →
      Answers s (.pgSplitComplete n) fun s' => ends s' 0 ∧ secOf leaf ∉ s'.locks ∧ s'.mem.readN leaf 8 = 1 + table / 4096 * 2 ^ 16 ∧
        (∀ i < 512, s'.mem.readN (table + 8 * i) 8 = splitEntry e va i % 2 ^ 64) ∧
        ∀ y, (y < leaf ∨ leaf + 8 ≤ y) → (y < table ∨ table + 4096 ≤ y) → s'.mem.read y = s.mem.read y) ∧
    (∀ va leaf lvl e, m.op = .coll va leaf lvl [(leaf, e)] false → s.framed m = false → s.walkTurn m = true → s.stores = [] → steady → s.mem.readN leaf 8 = e → e.testBit 0 = true →
      e.testBit 1 = true → e / 2 ^ 10 % 4 = 3 → leaf % 8 = 0 → plain leaf →
      Answers s (.pgCollComplete n) fun s' => ends s' 0 ∧ secOf leaf ∉ s'.locks ∧ s'.mem.readN leaf 8 = e - 2 ^ 10 ∧
        ∀ y, (y < leaf ∨ leaf + 8 ≤ y) → s'.mem.read y = s.mem.read y) ∧
    (∀ va leaf e, m.op = .split va leaf e none → s.framed m = false → s.walkTurn m = true → Answers s (.pgSplitComplete n) fun s' => ends s' (-4) ∧ s'.mem = s.mem)) ∧
  (∀ (s : State) (n : Nat), s.walks[n]? = none →
    ∀ i ∈ [Instr.cwWalkComplete n, .pgMigLine n, .pgSplitComplete n, .pgCollComplete n, .tlbInvComplete n], exec i s = .next s)

/-! ### Threads (chapter 15) -/

/-- 15 R317, R318, R326, R329 to R335, R338, R339: the thread instructions. `spawn` with a record that breaks a rule, a parent that
cannot take the child, or no free entry writes its status and creates nothing; else the level has its entry, its parent one
child more, and the register its handle. `done.wait` seals an open level and gives the result of one that has ended.
`cancel` makes the level CANCELLED with result -5 and reaches every thread linked to it. `exit` waits for its operations,
reports what is to be reported, and then ends the thread, which leaves its barriers and the marks it holds. The model's readings are the
address at which a migrant at the end of a loop body goes on (log entry 92), that a deferred store error comes before the checks of `migrate`
and of an `exit` on an L-core (log entry 73), and which threads a `yield` waits for (log entry 74). -/
def Obligations.ThreadInstructions : Prop :=
  (∀ (s : State) (t : Thread) (g : BitVec 4) (d a b : BitVec 5), Runs s t g [.x d, .x a, .x b] [.x a, .x b] →
    let i := Instr.spawn g d a b
    let p := s.srcX 1 b
    ((s.srcX 0 a).toNat % 8 ≠ 0 → Gives s t i (.x d) (-1)) ∧
    ((s.srcX 0 a).toNat % 8 = 0 → ∀ s1 q, s.readWords (t.mctx s.cur) (s.srcX 0 a) 16 = (s1, q) →
      (∀ c x, q = .error (.trap c x) → exec i s = .next (s1.trap c x)) ∧
      (q = .error .wait → exec i s = .next (s1.waitOn .walk)) ∧
      (∀ ws, q = .ok ws →
        let f := fun (j low n : Nat) => ws[j]?.getD 0 / 2 ^ low % 2 ^ n
        let kind := f 2 7 2
        let th := fun (k : Nat) => f 4 (16 * k) 10
        let launchOk := f 0 0 3 = 0 ∧ f 1 0 32 ≠ 0 ∧ 4 ≤ f 1 32 16 ∧ f 1 32 16 ≤ 1024 ∧ f 1 32 2 = 0 ∧ (f 1 32 16 ≤ 64 ∨ f 1 48 16 = 0) ∧
          f 2 9 2 ≠ 3 ∧ f 2 11 2 ≠ 3 ∧ f 2 14 18 = 0 ∧ f 2 32 8 ≤ 32 ∧ f 2 40 8 = 0 ∧ f 2 48 11 ≤ 1024 ∧
          (f 2 59 5 = 0 ∨ f 2 5 1 = 1) ∧ f 2 48 11 + f 2 59 5 ≤ 1024 ∧ f 3 0 16 ≤ 768 ∧ f 3 32 32 = 0 ∧
          (f 3 16 16 ≠ 0 ↔ f 2 2 2 = 1 ∨ f 2 2 2 = 2) ∧ (ws[5]?.getD 0 = 0 ∨ f 2 2 2 = 0) ∧ th 0 = 0 ∧ th 1 % 4 = 0 ∧ th 2 % 4 = 0 ∧
          th 3 % 4 = 0 ∧ th 1 + th 2 + th 3 ≤ f 1 32 16 ∧ (∀ k < 4, f 4 (16 * k + 14) 2 = 0) ∧ ∀ k < 4, ws[12 + k]?.getD 0 = 0
        let ok := if kind = 0 then launchOk
          else ws[2]?.getD 0 = kind * 128 ∧ ∀ k < 16, k ≠ 2 → ws[k]?.getD 0 = 0
        let joins := ∃ l, s1.levelOf p = some l ∧ l.asid = s1.me.asid ∧ kind < l.kind ∧ l.st = .open
        let ends := fun (s2 : State) (v : Word) => ∃ u, exec i s = .next (s2.setThr s2.cur u) ∧ LateEnd s2.me u i (.x d) 0 v
        (¬ok → ends s1 (-1)) ∧ (ok → p ≠ 0 → ¬joins → ends s1 (-3)) ∧
        (ok → (p = 0 ∨ joins) →
          (s1.homeDie s1.me = none → ends s1 (-4)) ∧
          (∀ home, s1.homeDie s1.me = some home →
            (s1.freeLevel home = none → ends s1 (-2)) ∧
            (∀ j, s1.freeLevel home = some j →
              let h := levelHandle home j kind (s1.levelGen home j)
              let made := fun (s2 : State) (l : Level) => ends s2 h ∧ tget (s2.die home).levels j = some l ∧
                ∀ q, s1.levelOf p = some q → p ≠ 0 →
                  tget (s2.die (handleDie p)).levels (handleIdx p) = some { q with count := q.count + 1 }
              (kind ≠ 0 → ∃ s2, made s2 ⟨s1.me.asid, kind, .open, 0, 0, p, none, false⟩) ∧
              (kind = 0 → ∀ s2, s1.takeIds home s1.me.asid (f 1 0 32) = (s2, none) → exec i s = .next (s2.trap 0x28 0)) ∧
              (kind = 0 → ∀ s2 base, s1.takeIds home s1.me.asid (f 1 0 32) = (s2, some base) →
                ∃ s3 l, made s3 ⟨s1.me.asid, 0, .sealed, f 1 0 32, 0, p, some l, false⟩ ∧
                  l.record = SpawnRec.ofWords ws ∧ l.tidBase = base ∧ l.next = 0 ∧
                  (home ∈ s1.sDies s1.me.pkg → l.keystone = home) ∧ l.blocks = []))))))) ∧
  (∀ (s : State) (t : Thread) (g : BitVec 4) (d a : BitVec 5), Runs s t g [.x d, .x a] [.x a] →
    let i := Instr.migrate g d a
    let p := s.srcX 0 a
    let f := fun (low n : Nat) => p.toNat / 2 ^ low % 2 ^ n
    let k := f 0 3
    let e := f 8 4
    let l := k = 0 ∨ k = 4
    let ok := k ≤ 4 ∧ f 3 5 = 0 ∧ f 15 1 = 0 ∧ f 23 1 = 0 ∧ p.toNat < 2 ^ 40 ∧ (k = 3 ∨ f 12 3 = 0) ∧
      ((k = 2 ∨ k = 3) → 2 ≤ e ∧ e ≤ 9) ∧ (k = 4 → e ≤ 1) ∧ (k < 2 → e = 0) ∧
      ((f 16 7 = 0 ∧ f 24 16 = 0) ∨ (4 ≤ f 16 7 ∧ f 16 7 ≤ 64 ∧ f 16 7 % 4 = 0))
    let there := (l ∧ t.onL = true ∧ (k = 0 ∨ dieId t.die = e)) ∨
      (¬l ∧ t.onL = false ∧ (k = 1 ∨ dieId t.die = e) ∧ (k = 3 → courseOfCore t.core % 8 = f 12 3))
    let on := (l ∧ s.lCoreOn t.pkg = true) ∨ (¬l ∧ s.sCoreOn t.pkg = true)
    let u0 := t.flushAll
    (t.deferred = none → (¬ok → Gives s t i (.x d) (-1)) ∧ (ok → there → Gives s t i (.x d) 0) ∧
      (ok → ¬there → ¬on → Gives s t i (.x d) (-2))) ∧
    (∀ va, t.deferred = some va → (¬ok ∨ there ∨ ¬on) →
      exec i s = .next ((s.setThr s.cur { t with deferred := none }).trap 0x1B va)) ∧
    (ok → ¬there → on →
      (t.ops ≠ [] → exec i s = .next (s.waitOn .drain)) ∧
      (∀ r rs, t.ops = [] → t.reports = r :: rs → exec i s = .next (s.takeReport r)) ∧
      (∀ va, t.ops = [] → t.reports = [] → t.deferred = some va →
        exec i s = .next ((s.setThr s.cur { t with deferred := none }).trap 0x1B va)) ∧
      (t.ops = [] → t.reports = [] → t.deferred = none → u0.pend = [] → s.rinvOut (s.tidOf t) = false →
        exec i s = .next (s.setThr s.cur { u0 with
          move := some ⟨p, d, (t.complete 4).pc, if t.mode = true ∧ (k = 0 ∨ k = 4) then 1 else 0⟩, wait := some .send })))) ∧
  (∀ (s : State) (t : Thread) (g : BitVec 4), Runs s t g [] [] →
    let u0 := t.flushAll
    let i := Instr.yield g
    let j := Instr.exit g
    (∀ va, t.deferred = some va → exec i s = .next ((s.setThr s.cur { u0 with deferred := none }).trap 0x1B va)) ∧
    (t.deferred = none → u0.pend ≠ [] → exec i s = .next ((s.setThr s.cur u0).waitOn (.reg (u0.pend.map (·.dest))))) ∧
    (t.deferred = none → u0.pend = [] → ∃ u ks, PlainEnd u0 u i ∧
      exec i s = .next (s.setThr s.cur { u with wait := some (.yield ks), since := s.coreClock t }) ∧
      (∀ p c, t.place = .ctx p c → ks = ((s.ctx (p * 256 + (if c % 2 = 0 then c + 1 else c - 1))).thread).toList) ∧
      ∀ c sl la n, t.place = .slot c sl la n → ∀ k, k ∈ ks ↔
        k ≠ s.cur ∧ ∃ v sl' n', (k, v) ∈ s.threads ∧ v.wg = t.wg ∧ v.place = .slot c sl' la n') ∧
    (t.onL = true → (∀ a, tget s.away (s.tidOf t).toNat = some a → a.spawned = false ∧ a.mark = none) →
      (t.deferred = none → exec j s = .next (s.trap 0x2B 0)) ∧
      ∀ va, t.deferred = some va → exec j s = .next ((s.setThr s.cur { t with deferred := none }).trap 0x1B va)) ∧
    ((t.onL = false ∨ ∃ a, tget s.away (s.tidOf t).toNat = some a ∧ (a.spawned = true ∨ a.mark ≠ none)) →
      let dies := fun (e : Ending) => Answers s j fun s' =>
        let u := s'.thr s.cur
        u.ending = some e ∧ u.wait = some .exitQueue ∧ u.left = true ∧ u.place = t.place ∧ u.pend = [] ∧
        (∀ k m x, tget (s'.die k).marks m = some x → x.holder = s.tidOf t → x.held = false) ∧
        (t.left = false → ∀ G n b, tget s.wgs t.wg = some G → tget G.hbars n = some b →
          ∃ b', tget (s'.wg t.wg).hbars n = some b' ∧ b'.expected = b.expected - 1)
      (t.ops ≠ [] → exec j s = .next (s.waitOn .drain)) ∧
      (t.ops = [] → t.mode = true → dies .fatal) ∧
      (t.ops = [] → t.mode = false →
        (∀ r rs, t.reports = r :: rs → exec j s = .next (s.takeReport r)) ∧
        (∀ va, t.reports = [] → t.deferred = some va → exec j s = .next ((s.setThr s.cur { t with deferred := none }).trap 0x1B va)) ∧
        (t.reports = [] → t.deferred = none → dies .normal)))) ∧
  (∀ (s : State) (t : Thread) (g : BitVec 4) (d a : BitVec 5), Runs s t g [.x d, .x a] [.x a] →
    let h := s.srcX 0 a
    let slot := fun (x : State) => tget (x.die (handleDie h)).levels (handleIdx h)
    let gen := s.levelGen (handleDie h) (handleIdx h)
    let i := Instr.doneWait g d a
    let j := Instr.cancel g d a
    let ended := fun (l : Level) => l.st = .done ∨ (l.st = .cancelled ∧ l.count = 0)
    let waits := fun (s' : State) (w : Wait) => (s'.thr s.cur).wait = some w ∧ (s'.thr s.cur).pc = t.pc ∧ (s'.thr s.cur).x = t.x
    ((∀ l, s.levelOf h = some l → l.asid ≠ t.asid) → Gives s t i (.x d) (-1) ∧ (t.cancelling = false → Gives s t j (.x d) (-1))) ∧
    (t.cancelling = true → Gives s t j (.x d) 0) ∧
    (∀ l, s.levelOf h = some l → l.asid = t.asid →
      (ended l → Gives s t i (.x d) l.result) ∧
      (¬ended l → l.st ≠ .open → exec i s = .next (s.waitOn (.level (handleDie h) (handleIdx h) gen))) ∧
      (l.st = .open → l.count ≠ 0 → Answers s i fun s' =>
        slot s' = some { l with st := .sealed } ∧ waits s' (.level (handleDie h) (handleIdx h) gen)) ∧
      (l.st = .open → l.count = 0 → l.told = false → ∃ (s1 : State) (u : Thread), exec i s = .next (s1.setThr s.cur u) ∧ LateEnd t u i (.x d) 0 l.result ∧
        slot s1 = some { l with st := .done, told := true }) ∧
      (t.cancelling = false → (l.st = .done ∨ l.st = .cancelled) → Gives s t j (.x d) (-2)) ∧
      (t.cancelling = false → (l.st = .open ∨ l.st = .sealed) → Answers s j fun s' =>
        (∃ l', slot s' = some l' ∧ l'.st = .cancelled ∧ l'.result = -5) ∧
        ∀ k v, tget s.threads k = some v → v.onL = false → v.link = h → (s'.thr k).cancelled = true))) ∧
  (∀ (s : State) (t : Thread) (g : BitVec 4) (a : BitVec 5), t.onL = false → Runs s t g [.x a] [.x a] →
    let v := s.srcX 0 a
    let cl := v.getLsbD 10
    let n := v.toNat % 1024
    let b := s.hbarOf t.wg cl n
    let ok := v.toNat < 2048 ∧ n < if cl then (s.wg t.wg).hbcl else (s.wg t.wg).hbarN
    let plain := fun (i : Instr) => ∃ u, exec i s = .next (s.setThr s.cur u) ∧ PlainEnd t u i
    let after := fun (s1 : State) => s1.threads = s.threads ∧ s1.mem = s.mem ∧ s1.cores = s.cores ∧ s1.hbarOf t.wg cl n =
      if b.pend ≤ 1 then ⟨(b.gen + 1) % 16, b.expected, b.expected, []⟩ else ⟨b.gen, b.expected, b.pend - 1, s.cur :: b.arrived⟩
    (¬ok → ∀ i ∈ [Instr.hbArr g a, .hbWait g a, .hbSync g a], exec i s = .next (s.trap 0x26 v)) ∧
    (ok → s.cur ∈ b.arrived → ∀ i ∈ [Instr.hbArr g a, .hbWait g a, .hbSync g a], exec i s = .next (s.waitOn (.hbar cl n))) ∧
    (ok → s.cur ∉ b.arrived →
      plain (.hbWait g a) ∧
      (∃ (s1 : State) (u : Thread), exec (.hbArr g a) s = .next (s1.setThr s.cur u) ∧ PlainEnd t u (.hbArr g a) ∧ after s1) ∧
      (t.restart = some t.pc → plain (.hbSync g a)) ∧
      (t.restart ≠ some t.pc → b.pend ≤ 1 →
        ∃ (s1 : State) (u : Thread), exec (.hbSync g a) s = .next (s1.setThr s.cur u) ∧ PlainEnd t u (.hbSync g a) ∧ after s1) ∧
      (t.restart ≠ some t.pc → 1 < b.pend → ∃ (s1 : State) (u : Thread), exec (.hbSync g a) s = .next (s1.setThr s.cur u) ∧ after s1 ∧
        u.wait = some (.hbar cl n) ∧ u.restart = some t.pc ∧ u.pc = t.pc ∧ u.x = t.x)))

/-- 15 R317, R320 to R324, R327, R332, R334 to R336, R344, R345; 16 R366; 17 R379; 18 R415: what the device does with threads. A
thread that has drained is sent and arrives in a bin of its key with its registers; a full or expired bin makes a workgroup
whose lanes are its threads in order; a block of a launch is as many threads as it has indices left for, or one that was lost;
survivors elect the lowest-numbered participant, and lost blocks are handed out again; a placed workgroup has slots, scratchpad and
registers of its own; the queues of arrivals and of exits take one entry each and advance, or are disabled by an error response. The model's
readings are the address at which a migrant at the end of a loop body goes on (log entry 92), that threads which name different courses or
cores share no workgroup (log entry 84), the block made for a lost migrant and the index that does not start twice (log entry 85), and the
identifier bit of an arrival's record (log entry 28); its choices are the place of a workgroup that waits where an earlier one fits nowhere
(log entry 107), what a workgroup of arrivals and spawned threads asks for (log entry 51), and that threads of one flushed workgroup which
leave their bin together are that workgroup again (log entry 87). -/
def Obligations.ThreadEvents : Prop :=
  (∀ (s : State) (k : Nat) (t : Thread), tget s.threads k = some t →
    let i := Instr.migrateSend k
    ((t.wait ≠ some .send ∨ t.move = none) → exec i s = .next s) ∧
    (∀ m d, t.wait = some .send → t.move = some m → s.destOf t m = some d →
      let full := (isSDie d = true ∧ 4096 ≤ (s.die d).arrivals.length + s.inbound d) ∨ (isSDie d = false ∧ (s.die d).arq.room ≤ s.inbound d)
      (full → exec i s = .next s) ∧
      (¬full → Answers s i fun s' =>
        let u := s'.thr k
        let w := (s.tokOf t).toNat
        u.place = .flight ∧ (m.kind = 0 → u.pc = (t.complete 4).pc) ∧ (m.kind ≠ 0 → u.pc = m.resume) ∧
        (t.pend = [] → u.x = t.x ∧ u.f = t.f) ∧ u.p = t.p ∧ u.wait = none ∧ u.move = some m ∧ u.arrival = none ∧
        u.boostTok.toNat = (w % 2 ^ 32 + w / 2 ^ 32 % 2 ^ 7) % 2 ^ 32 ∧
        s'.msgs = s.msgs ++ [.thread d k] ∧ (s.stores = [] → s'.mem = s.mem) ∧
        ∀ p c, t.place = .ctx p c → (s'.ctx (p * 256 + c)).thread = none))) ∧
  (∀ (s : State) (n d : Nat), isSDie d = true → s.dieOn d = true → (s.die d).arrivals.length < 4096 → tsorted (s.die d).bins = true →
    let i := Instr.threadArrival n
    let waits := fun (s' : State) (u : Thread) => u.place = .queue d ∨
      ∃ b e, u.place = .bin d b ∧ tget (s'.die d).bins b = some e ∧ e.asid = u.asid ∧ e.entry = u.pc ∧ e.sclass = u.sclass
    (∀ k t, s.msgs[n]? = some (.thread d k) → tget s.threads k = some t →
      (t.cancelled = false → Answers s i fun s' =>
        let u := s'.thr k
        s'.msgs = s.msgs.eraseIdx n ∧ s'.mem = s.mem ∧ waits s' u ∧ u.x = t.x ∧ u.f = t.f ∧ u.p = t.p ∧ u.pc = t.pc ∧ u.asid = t.asid ∧
        u.sclass = t.sclass) ∧
      (t.cancelled = true → Answers s i fun s' => (s'.thr k).ending = some .cancelled ∧ (s'.thr k).wait = some .exitQueue)) ∧
    (∀ m e v, s.msgs[n]? = some (.invoke d m) → s.markAt m = some e →
      (e.discards = true → exec i s = .next { s with msgs := s.msgs.eraseIdx n }) ∧
      (e.discards = false → s.cancelComes m = false → s.olderInvoke e = true → exec i s = .next s) ∧
      (e.discards = false → s.cancelComes m = false → s.olderInvoke e = false → e.inv = some v →
        (∀ s1, s.takeIds d v.asid 1 = (s1, none) → exec i s = .next s) ∧
        (∀ s1 tid, s.takeIds d v.asid 1 = (s1, some tid) → Answers s i fun s' => s'.msgs = s.msgs.eraseIdx n ∧ ∃ k,
          let u := s'.thr k
          waits s' u ∧ u.pc = v.entry ∧ u.tid = tid ∧ u.asid = v.asid ∧ u.ptBase = v.ptBase ∧ u.mark = some m.toNat ∧ u.mode = false ∧
          u.getX 10 = v.word0.getD (v.args[0]?.getD 0) ∧
          (∀ j, 0 < j → j < 6 → u.getX (BitVec.ofNat 5 (10 + j)) = v.args[j]?.getD 0))))) ∧
  (∀ (s : State) (d b : Nat) (e : Bin), tget (s.die d).bins b = some e →
    let i := Instr.binTimer d b
    let age := (s.timeOf (pkgOfDie d)).toNat - (s.thr (e.threads.headD 0)).since
    let over_ := e.threads ≠ [] ∧ s.fillOf d e ≤ 64 ∧ s.timerOf d e * 10 ≤ age * 19
    (¬over_ → exec i s = .next s) ∧
    (over_ → 0 < s.fillOf d e → e.threads.Nodup →
      let ts := (s.together d e.threads).take (s.fillOf d e)
      let t0 := s.thr (ts.headD 0)
      let w := (s.flushedAll ts).getD s.nextId
      ((∀ k ∈ e.threads, s.wants d (s.thr k) = (none, none)) → s.together d e.threads = e.threads) ∧
      Answers s i fun s' =>
        tget (s'.die d).bins b = some { e with threads := e.threads.filter fun k => !ts.contains k } ∧
        (∃ g, tget s'.wgs w = some g ∧ g.size = ts.length ∧ g.st = .released ∧ g.die = d ∧ g.asid = t0.asid ∧
          (s.flushedAll ts ≠ none → g.wgId = (s.wg w).wgId ∧ g.group = (s.wg w).group ∧ g.order = (s.wg w).order)) ∧
        (∀ j k, ts[j]? = some k →
          let u := s'.thr k
          u.wg = w ∧ u.lane = j ∧ u.x = (s.thr k).x ∧ u.pc = (s.thr k).pc ∧ u.place = (s.thr k).place ∧
          ((s.thr k).origin ≠ .spawned → u.role.kind = 0 ∧ u.role.copy = true) ∧
          (∀ r q0 q1 q2 q3, (s.thr k).origin = .spawned → s.recordOf (s.thr k) = some r → r.roles = [q0, q1, q2, q3] →
            u.role.kind.toNat = if j < q1.1 then 1 else if j < q1.1 + q2.1 then 2 else if j < q1.1 + q2.1 + q3.1 then 3 else 0)))) ∧
  (∀ (s : State) (l d : Nat) (lv : Level) (x : Launch),
    let h := s.launchNamed l
    s.levelOf h = some lv → lv.launch = some x →
    let i := Instr.keystoneBlockRequest l d
    (s.canAsk h d = false → exec i s = .next s) ∧
    (s.canAsk h d = true →
      let n := Nat.min x.record.wgsize (x.record.count - x.next)
      let launch := fun (s' : State) (p : Launch → Prop) => ∃ lv' y, tget (s'.die (handleDie h)).levels (handleIdx h) = some lv' ∧
        lv'.launch = some y ∧ lv'.count = lv.count ∧ y.record = x.record ∧ y.copyA = x.keystone ∧ p y
      (∀ b bs, x.redo = b :: bs → Answers s i fun s' => launch s' fun y =>
        y.next = x.next ∧ y.redo = bs ∧ y.blocks.getLast? = some ⟨d, b.first, b.n⟩) ∧
      (x.redo = [] → (∀ j < n, s.runsIndex h (x.next + j) = false) → Answers s i fun s' =>
        (launch s' fun y => y.next = x.next + n ∧ y.blocks.getLast? = some ⟨d, x.next, n⟩) ∧
        ∀ j < n, ∃ u, tget s'.threads (s.nextId + j) = some u ∧ u.spawned = true ∧ u.launch = h ∧ u.index = x.next + j ∧
          u.tid = x.tidBase + BitVec.ofNat 64 (x.next + j) ∧ u.pc = x.record.entry ∧ u.asid = lv.asid ∧ u.ptBase = x.ptBase ∧ u.mode = false ∧
          u.getX 10 = BitVec.ofNat 64 (x.next + j) ∧
          (∀ a < 6, u.getX (BitVec.ofNat 5 (11 + a)) = x.record.args[a]?.getD 0) ∧
          ((∃ b, u.place = .bin d b) ∨ u.place = .queue d)))) ∧
  (∀ (s : State) (l : Nat) (lv : Level) (x : Launch),
    let h := s.launchNamed l
    s.levelOf h = some lv → lv.launch = some x → lv.final = false →
    let i := Instr.keystoneElection l
    let lost := s.dieUp x.copyA = false ∧ s.dieUp x.copyB = false
    let away := fun (t : Thread) => t.spawned = true ∧ t.launch = h ∧ s.stranded t = true
    let key := if s.dieUp x.keystone then x.keystone else (s.participants h x).headD x.keystone
    let launch := fun (s' : State) (p : Level → Launch → Prop) => ∃ lv' y, tget (s'.die (handleDie h)).levels (handleIdx h) = some lv' ∧
      lv'.launch = some y ∧ p lv' y
    (s.dieUp x.keystone = true → (∀ k t, (k, t) ∈ s.threads → ¬away t) → exec i s = .next s) ∧
    (s.dieUp x.keystone = false → ¬lost → (∀ k t, (k, t) ∈ s.threads → ¬away t) → Answers s i fun s' =>
      s'.threads = s.threads ∧ launch s' fun lv' y => lv'.count = lv.count ∧ y.keystone = key ∧ y.next = x.next ∧ y.record = x.record) ∧
    (s.dieUp x.keystone = false → lost → lv.told = false → lv.st ≠ .cancelled → Answers s i fun s' =>
      launch s' fun lv' y => lv'.count = 0 ∧ lv'.result = -6 ∧ y.next = x.record.count) ∧
    (tsorted s.threads = true → ∀ k t, tget s.threads k = some t → away t → Answers s i fun s' =>
      tget s'.threads k = none ∧ (x.record.restartable = true → ¬lost → s.participants h x ≠ [] → launch s' fun _ y =>
        y.keystone = key ∧ ∃ b ∈ y.redo, b.first ≤ t.index ∧ t.index < b.first + b.n))) ∧
  (∀ (s : State) (w : Nat),
    let i := Instr.workgroupPlace w
    (tget s.wgs w = none → exec i s = .next s) ∧
    (∀ g, tget s.wgs w = some g →
      (s.placeable w = true → s.placeTurn w = true → g.course = false → Answers s i fun s' => ∃ c g',
        tget s'.wgs w = some g' ∧ g'.st = .run ∧ g'.core = c ∧ c / 64 = g.die ∧ s.coreOn c = true ∧ g'.size = g.size ∧
        g'.spad = [] ∧ g'.tags = [] ∧ g'.held = [] ∧ g'.slotMem = [] ∧ g'.tileMem = [] ∧ g'.hbars = [] ∧
        g'.spBase % 4096 = 0 ∧ g'.spBase + g.spPages * 4096 ≤ 768 * 4096 ∧
        (∀ y ∈ s.onCore c, y.2.spPages = 0 ∨ g.spPages = 0 ∨ g'.spBase / 4096 + g.spPages ≤ y.2.spBase / 4096 ∨
          y.2.spBase / 4096 + y.2.spPages ≤ g'.spBase / 4096) ∧
        ((s.onCore c).map (·.2.grant)).sum + g.grant ≤ 32 ∧
        ((s.onCore c).map fun y => y.2.hbarN + y.2.hbcl).sum + g.hbarN + g.hbcl ≤ 1024 ∧
        ((s.onCore c).map (·.2.regs)).sum + g.regs ≤ 524288 ∧
        ∀ k t, tget s.threads k = some t → t.wg = w → t.ending = none → t.lane < g.size →
          ∃ sl n, (s'.thr k).place = .slot c sl (4 * sl + t.lane % 4) n ∧ sl < 32 ∧ n < 8 ∧ ∀ y ∈ s.onCore c, (sl, n) ∉ y.2.slots) ∧
      ((s.placeable w && s.placeTurn w) = false →
        (s.nextVictim w = none → exec i s = .next s) ∧
        (∀ v, s.nextVictim w = some v → tsorted s.wgs = true → Answers s i fun s' => s'.mem = s.mem ∧
          (∀ k t, tget s.threads k = some t → tget s'.threads k = some (if t.wg = v then t.requested else t)) ∧
          ((s'.wg v).st = .drain ∨ (s'.wg v).st = .stop) ∧ ∀ y, y ≠ v → s'.wg y = s.wg y)))) ∧
  (∀ (s : State) (d : Nat) (q : List Msg),
    let i := Instr.arrivalQueueWrite d
    let r := (s.die d).arq
    let pa := r.base + 1024 * (r.head.toNat % 2 ^ r.log2n)
    (r.room = 0 → exec i s = .next s) ∧
    (s.dieUp d = false → exec i s = .next s) ∧
    (∀ k t m, s.msgs = .thread d k :: q → 0 < r.room → s.dieUp d = true → tget s.threads k = some t → t.move = some m →
      ∃ bs : List Byte, bs.length = 1024 ∧
        (let w := fun (j : Nat) => BitVec.ofNat 64 (natOf ((bs.drop (8 * j)).take 8))
         w 0 = (if m.kind = 1 then (s.core (d * 64)).tvec else t.pc) ∧
         (∀ j < 32, 0 < j → w j = if m.kind = 0 ∧ j = m.dst.toNat then
            (if placeKind m.place = 4 ∧ dieId d ≠ placeDie m.place then 1 else 0) else t.getX (BitVec.ofNat 5 j)) ∧
         (∀ j < 32, w (32 + j) = t.getF (BitVec.ofNat 5 j)) ∧ w 80 = t.asid.setWidth 64 ∧ w 81 = t.ptBase ∧
         w 98 = BitVec.ofNat 64 (m.kind + if t.kobj then 0 else 4)) ∧
        (∀ s1, s.homeWrite (dieAgent d) pa bs = (s1, none) → Answers s i fun s' =>
          s'.mem = s1.mem ∧ s'.msgs = q ∧ tget s'.threads k = none ∧ (s'.die d).arq = { r with head := r.head + 1 }) ∧
        (∀ s1 c, s.homeWrite (dieAgent d) pa bs = (s1, some c) → Answers s i fun s' =>
          s'.msgs = s.msgs ∧ (tget s'.threads k).isSome = true ∧ (s'.die d).arq = { r with en := false }))) ∧
  (∀ (s : State) (k : Nat) (t : Thread), tget s.threads k = some t →
    let i := Instr.exitQueueWrite k
    let r := (s.die t.die).exq
    let s0 := s.identify k
    let u := s0.thr k
    let room := r.en = true ∧ (r.head - r.tail).toNat < 2 ^ r.log2n
    let listed := t.onL = false ∨ u.spawned = true ∨ u.mark ≠ none
    let pa := r.base + 16 * (r.head.toNat % 2 ^ r.log2n)
    let entry := bytesOf 16 ((s0.tidOf u).toNat + t.asid.toNat * 2 ^ 64 + (if u.spawned then 2 ^ 80 else 0) +
      (if u.mark ≠ none then 2 ^ 81 else 0) + (if t.ending = some .fatal then 2 ^ 82 else 0) + (if u.kobj then 2 ^ 83 else 0))
    (t.ending = none → exec i s = .next s) ∧
    (t.left = false → t.ops ≠ [] → exec i s = .next s) ∧
    (∀ e, t.ending = some e → t.left = true →
      (¬listed → Answers s i fun s' => tget s'.threads k = none ∧ s'.mem = s.mem ∧ s'.dies = s.dies) ∧
      (listed → ¬room → exec i s = .next s) ∧
      (listed → room → ∀ s1, s0.homeWrite (dieAgent t.die) pa entry = (s1, none) → Answers s i fun s' =>
        s'.mem = s1.mem ∧ tget s'.threads k = none ∧ (s'.die t.die).exq = { r with head := r.head + 1 } ∧
        ∀ l, u.spawned = true → s.levelOf u.launch = some l → l.told = false →
          ∃ l', tget (s'.die (handleDie u.launch)).levels (handleIdx u.launch) = some l' ∧ l'.count = l.count - 1 ∧
            (e = .fatal → l.st ≠ .cancelled → l'.result = -6) ∧ (e ≠ .fatal → l'.result = l.result) ∧
            (l.st = .sealed → l.count = 1 → l'.st = .done)) ∧
      (listed → room → ∀ s1 c, s0.homeWrite (dieAgent t.die) pa entry = (s1, some c) → Answers s i fun s' =>
        (tget s'.threads k).isSome = true ∧ (s'.die t.die).exq = { r with en := false })))

/-! ### Remote invocation and marks (chapter 17) -/

/-- 17 R369 to R374, R376 to R381, R383, R386, R387, R389 to R392: marks. `rinv` waits while its counter is full, and otherwise gives a new
mark, whose invocation is dispatched, queued at another mark, or broken with the cause of the first rule it fails; reads wait
for a mark that is not final and give its words, its cause or its origin; `mkret` and the messages between dies settle an
entry once, dispatch what waits on it or pass the break on, and let the issuer's count fall; a cancel breaks the mark of an invocation
that does not run and waits in no queue (by the model's reading of 24 R469, log entry 97). An invocation reads the entry of the mark it is
addressed to as an instruction does (R375); that one whose mark was final and freed on its way finds it stale is the model's choice (log entry 112). -/
def Obligations.Marks : Prop :=
  (∀ (s : State) (t : Thread) (g : BitVec 4) (d a b : BitVec 5), Runs s t g [.x d, .x a, .x b] [.x a, .x b] →
    let i := Instr.rinv g d a b
    let p := s.srcX 0 a
    let va := s.srcX 1 b
    let full := (s.remoteOf t).length = 63
    (full → exec i s = .next (s.waitOn (.accept i))) ∧
    (¬full → va.toNat % 8 = 0 → ∀ s1,
      (∀ c x, s.readWords (t.mctx s.cur) va 10 = (s1, .error (.trap c x)) → exec i s = .next (s1.trap c x)) ∧
      (s.readWords (t.mctx s.cur) va 10 = (s1, .error .wait) → exec i s = .next (s1.waitOn .walk))) ∧
    (¬full → ∀ (s1 : State) (ws : Option (List Nat)),
      ((va.toNat % 8 ≠ 0 ∧ s1 = s ∧ ws = none) ∨
        (va.toNat % 8 = 0 ∧ ∃ l, s.readWords (t.mctx s.cur) va 10 = (s1, .ok l) ∧ ws = some l)) →
      let u := (s1.identify s1.cur).me
      let w := fun (j : Nat) => (ws.getD [])[j]?.getD 0
      let n := w 1 % 8
      let ok := ws ≠ none ∧ w 0 % 8 = 0 ∧ canonical (BitVec.ofNat 64 (w 0)) = true ∧ n ≤ 6 ∧ w 1 / 8 % 4 ≠ 3 ∧ w 1 < 64 ∧
        (w 1 / 8 % 4 = 0 ∨ w 2 = 0) ∧ (∀ k < 6, n ≤ k → w (3 + k) = 0) ∧ w 9 = 0
      let v : Inv := ⟨BitVec.ofNat 64 (w 0), w 1 / 8 % 4, (w 1).testBit 5, w 2, (List.range 6).map fun k => BitVec.ofNat 64 (w (3 + k)),
        u.asid, u.ptBase, p, u.pkg, u.die, none, none, s1.seq, false⟩
      let queueFull := ok ∧ isMark p = true ∧ 16384 ≤ s1.buffered (markDie p) ∧ ∃ x, s1.upstream p u.asid = some x
      (s1.originDie u = none → exec i s = .next (s1.trap 0x2D 1)) ∧
      (∀ die, s1.originDie u = some die →
        (s1.remoteFull u = true → exec i s = .next (s1.trap 0x2D 2)) ∧
        (s1.remoteFull u = false → queueFull → exec i s = .next (s1.waitOn (.markRoom (markDie p)))) ∧
        (s1.remoteFull u = false → ¬queueFull → ∀ e : Mark,
          e.st = .pending → e.asid = u.asid → e.holder = s1.tidOf u → e.held = true → e.site = die → e.cause = 0 → e.origin = 0 →
          e.result = [] → e.queue = [] → e.spilled = false → e.lastRead = s1.seq →
          e.link = (if u.mark ≠ none then u.link else s1.launchOf u) → (ok → e.inv = some v) → (¬ok → e.inv = none) →
          (s1.allocMark die e = none → exec i s = .next (s1.trap 0x2D 0)) ∧
          (∀ s2 m, s1.allocMark die e = some (s2, m) → s2.markAt m = some e →
            ∃ (s3 : State) (x : Thread), exec i s = .next (s3.setThr s3.cur x) ∧ LateEnd s3.me x i (.x d) 0 m ∧
              let broken := fun (c o : Word) => s3.markAt m = some { e with st := .broken, cause := c, origin := o }
              let counted := s3.remoteOf s3.me = s1.remoteOf s1.me ++ [(m.toNat, false)]
              let sent := fun (f : Nat) (w0 : Option Word) => counted ∧ s3.msgs = s2.msgs ++ [.invoke f m] ∧
                s3.markAt m = some { e with st := .pending, site := f, inv := some { v with word0 := w0 } }
              (¬ok → broken (-2) m) ∧
              (ok → isMark p = true →
                (s2.markLost p = true → broken (-7) p) ∧
                (s2.markLost p = false → s2.liveMark p u.asid = none → broken (-1) m) ∧
                (let r := (s2.countRemote s1.cur m).touchMark p
                  ∀ f, p ≠ m → s2.markLost p = false → s2.liveMark p u.asid ≠ none → r.markAt p = some f →
                  (f.st = .broken → broken (-7) (if f.cause = -7 then f.origin else p)) ∧
                  (f.st = .resolved → r.cancelComes m = false →
                    (∀ y, r.forwardDie v f.site u.die = some y → sent y (some (f.result.headD 0))) ∧
                    (r.forwardDie v f.site u.die = none → broken (-6) m)) ∧
                  (f.final = false → counted ∧ s3.markAt m = some { e with st := .forwarded } ∧
                    if markDie p = u.die then s3.markAt p = some { f with queue := f.queue ++ [m] } ∧ s3.msgs = s2.msgs
                    else s3.msgs = s2.msgs ++ [.enqueue m p]))) ∧
              (ok → isMark p = false →
                (s2.codeOk p = false → broken (-3) m) ∧
                (s2.codeOk p = true → s2.codeDie u.pkg u.die p v = none → broken (-6) m) ∧
                (s2.codeOk p = true → ∀ y, s2.codeDie u.pkg u.die p v = some y → sent y none))))))) ∧
  (∀ (s : State) (t : Thread) (g : BitVec 4) (d a b : BitVec 5) (q : BitVec 3),
    let m := s.srcX 0 a
    let k := (s.srcX 1 b).toNat % 16
    let w := Instr.mkwait g d a
    let i := Instr.mkget g d a b
    let j := Instr.mkgetT g d a b
    let x := Instr.mktest g q a
    let one := Runs s t g [.x d, .x a] [.x a]
    let two := Runs s t g [.x d, .x a, .x b] [.x a, .x b]
    let test := Runs s t g [.x a] [.x a]
    let onDie := ∀ e, s.liveMark m t.asid = some e → e.spilled = false
    let kept := fun (s1 : State) => onDie → s1.threads = s.threads ∧ s1.mem = s.mem
    let gives := fun (i : Instr) (v : Word) => ∃ (s1 : State) (u : Thread), exec i s = .next (s1.setThr s.cur u) ∧ kept s1 ∧
      LateEnd t u i (.x d) 0 v
    let tells := fun (v : Bool) => ∃ (s1 : State) (u : Thread), exec x s = .next (s1.setThr s.cur u) ∧ kept s1 ∧
      u.rest = t.rest ∧ KeepsRegs t u [] ∧ MovesOn t u 4 ∧ u.getP q = (v || q == 7) ∧ ∀ r, r ≠ q → u.getP r = t.getP r
    let waits := fun (i : Instr) => Answers s i fun s' => let u := s'.thr s.cur
      u.wait = some (.mark (markDie m) (markIdx m) (s.markGen (markDie m) (markIdx m))) ∧ u.pc = t.pc ∧ u.x = t.x ∧ u.p = t.p ∧ (onDie → s'.mem = s.mem)
    let traps := ∃ s1 : State, exec j s = .next (s1.trap 0x2C m) ∧ kept s1
    let broken := fun (c o : Word) => (one → gives w c) ∧ (two → gives i (if k = 9 then o else if 10 ≤ k then 0 else c) ∧ traps) ∧
      (test → tells true)
    (s.markLost m = true → broken (-8) m) ∧
    (s.markLost m = false → s.liveMark m t.asid = none → (one → gives w (-1)) ∧ (two → gives i (-1) ∧ traps) ∧ (test → tells true)) ∧
    (∀ e, s.markLost m = false → s.liveMark m t.asid = some e →
      let gone := e.spilled = true ∧ (s.spillIn (markDie m) (markIdx m)).2 = true
      (gone → broken (-8) m) ∧
      (¬gone →
        (e.final = false → (one → waits w) ∧ (two → waits i ∧ waits j) ∧ (test → tells false)) ∧
        (e.st = .broken → broken e.cause e.origin) ∧
        (e.st = .resolved → (one → gives w 0) ∧
          (two → let v := if k < 8 then e.result[k]?.getD 0 else 0; gives i v ∧ gives j v) ∧ (test → tells true))))) ∧
  (∀ (s : State) (t : Thread) (g : BitVec 4), Runs s t g [] ((List.range 8).map fun j => .x (BitVec.ofNat 5 (10 + j))) →
    let i := Instr.mkret g
    let u := (s.identify s.cur).me
    let ws := (List.range 8).map fun j => s.srcX j (BitVec.ofNat 5 (10 + j))
    ((u.mark = none ∨ u.resolved = true) → ∃ x, exec i s = .next (s.setThr s.cur x) ∧ PlainEnd t x i) ∧
    (∀ n, u.mark = some n → u.resolved = false →
      let m := BitVec.ofNat 64 n
      Answers s i fun s' => s'.mem = s.mem ∧ KeepsRegs t (s'.thr s.cur) [] ∧ MovesOn t (s'.thr s.cur) 4 ∧
        ((s'.identify s'.cur).me.resolved = true) ∧
        (markDie m ≠ t.die → s'.msgs = s.msgs ++ [.resolve m t.die ws]) ∧
        ∀ e, markDie m = t.die → s.markAt m = some e → e.final = false →
          s'.markAt m = some { e with st := .resolved, site := t.die, result := ws, queue := [] })) ∧
  (∀ (s : State) (t : Thread) (g : BitVec 4) (a : BitVec 5), Runs s t g [.x a] [.x a] →
    let m := s.srcX 0 a
    let i := Instr.mkdrop g a
    (∀ e, s.liveMark m t.asid = some e → e.holder = s.tidOf t → s.markLost m = false →
      ∃ (s1 : State) (u : Thread), exec i s = .next (s1.setThr s.cur u) ∧ PlainEnd t u i ∧ s1.markAt m = some { e with held := false } ∧
        s1.mem = s.mem) ∧
    ((∀ e, s.liveMark m t.asid = some e → e.holder ≠ s.tidOf t ∨ s.markLost m = true) →
      ∃ u, exec i s = .next (s.setThr s.cur u) ∧ PlainEnd t u i)) ∧
  (∀ (s : State) (n : Nat),
    let s1 : State := { s with msgs := s.msgs.eraseIdx n }
    let i := Instr.rinvEnqueue n
    let j := Instr.markResolve n
    let k := Instr.markBreak n
    (s.msgs[n]? = none → exec i s = .next s ∧ exec j s = .next s ∧ exec k s = .next s) ∧
    (∀ m up, s.msgs[n]? = some (.enqueue m up) →
      (s.markAt m = none → exec i s = .next s1) ∧
      (∀ e, s.markAt m = some e →
        let broken := fun (c o : Word) => Answers s i fun s' => s'.markAt m = some { e with st := .broken, cause := c, origin := o, queue := [] }
        (e.final = true → exec i s = .next s1) ∧
        (e.final = false →
          (s.markLost up = true → broken (-7) up) ∧
          (s.markLost up = false → s.markAt up = none → broken (-1) m) ∧
          (let r := s1.touchMark up
            ∀ f, up ≠ m → s.markLost up = false → r.markAt up = some f →
            (f.st = .broken → broken (-7) (if f.cause = -7 then f.origin else up)) ∧
            (f.st = .resolved → r.cancelComes m = false → ∀ v, e.inv = some v →
              (r.forwardDie v f.site (markDie up) = none → broken (-6) m) ∧
              (∀ y, r.forwardDie v f.site (markDie up) = some y → Answers s i fun s' => s'.msgs = s1.msgs ++ [.invoke y m] ∧
                s'.markAt m = some { e with st := .pending, site := y, inv := some { v with word0 := some (f.result.headD 0) } })) ∧
            (f.final = false → Answers s i fun s' => s'.msgs = s1.msgs ∧ s'.markAt up = some { f with queue := f.queue ++ [m] }))))) ∧
    (∀ m die ws, s.msgs[n]? = some (.resolve m die ws) →
      ((s.markLost m = true ∨ ∀ e, s.markAt m = some e → e.final = true) → exec j s = .next s1) ∧
      (∀ e, s.markLost m = false → s.markAt m = some e → e.final = false → Answers s j fun s' =>
        s'.markAt m = some { e with st := .resolved, site := die, result := ws, queue := [] } ∧
        (∀ k t, tget s.threads k = some t → t.remote = [(m.toNat, false)] → (s'.thr k).remote = []) ∧
        ∀ q f v, e.queue = [q] → q ≠ m → s.markAt q = some f → f.final = false → f.inv = some v → s.dieOn die = true → s.cancelComes q = false →
          s'.msgs = s1.msgs ++ [.invoke die q] ∧
          s'.markAt q = some { f with st := .pending, site := die, inv := some { v with word0 := some (ws.headD 0) } })) ∧
    (∀ m c o, s.msgs[n]? = some (.broke m c o) →
      ((s.markLost m = true ∨ ∀ e, s.markAt m = some e → e.final = true) → exec k s = .next s1) ∧
      (∀ e, s.markLost m = false → s.markAt m = some e → e.final = false → Answers s k fun s' =>
        s'.markAt m = some { e with st := .broken, cause := c, origin := o, queue := [] } ∧
        s'.msgs = s1.msgs ++ e.queue.map (.broke · (-7) (if c = -7 then o else m)) ∧
        ∀ k t, tget s.threads k = some t → t.remote = [(m.toNat, false)] → (s'.thr k).remote = [])) ∧
    (∀ m l, s.msgs[n]? = some (.cancel m l) →
      ((s.markAt m = none ∨ s.markLost m = true ∨ s.markRuns m = true) → exec k s = .next s1) ∧
      (∀ e, s.markAt m = some e →
        (e.final = true → exec k s = .next s1) ∧
        (e.final = false → s.markLost m = false → s.markRuns m = false →
          (s.cancelHeld m = true → exec k s = .next s) ∧
          (s.cancelHeld m = false → Answers s k fun s' =>
            s'.markAt m = some { e with st := .broken, cause := -5, origin := m, queue := [] })))))

/-! ### Pre-emption (chapter 18) -/

/-- 18 R411 to R416; 15 R331; 19 R425: pre-emption. A request takes the eligible method of least cost that meets its bound, else the
quickest, of equals the first of save, drain and flush; it wakes waits at `wmon` and `wfi`; a drain that is late is saved; at the yield points the threads keep their registers and the engines hand in their
commands, and at most 16 saves and restores of a die go on at once; a committed save frees the core and keeps the contents; a flush
puts the threads back in their bin at ENTRY, to be placed again; a restore takes a core with room and goes on with what was saved. Each of the six
steps completes on the state it is for, and leaves every other state as it is. The latencies of the methods are the model's (log
entry 14), and so is what a request does to a workgroup that is on its way out or being restored (log entry 88). -/
def Obligations.Preemption : Prop :=
  (∀ (s : State) (d : Nat),
    let i := Instr.prqCmdIssue d
    let p := (s.die d).prq
    let woken := fun (w : Nat) (s' : State) => ∀ n t, tget s.threads n = some t →
      tget s'.threads n = some (if t.wg = w then t.requested else t)
    let rank := fun (m : Method) => match m with
      | .save => 0
      | .drain => 1
      | .flush => 2
    ((isSDie d = false ∨ p.state = 1) → exec i s = .next s) ∧
    (isSDie d = true → p.state ≠ 1 →
      (s.prqTarget d = none → ∃ s', exec i s = .next s' ∧
        (s'.die d).prq = { p with state := 3 } ∧ s'.wgs = s.wgs ∧ s'.threads = s.threads) ∧
      (∀ w, s.prqTarget d = some w → (s.wg w).st ≠ .run → ∃ s', exec i s = .next s' ∧
        let g := s.wg w
        (s'.die d).prq = { p with state := 1, latency := 0, method := g.method.code } ∧ woken w s' ∧ s'.mem = s.mem ∧
        (s'.wg w).st = g.st ∧ (s'.wg w).method = g.method ∧ (s'.wg w).fromPrq = true ∧ (s'.wg w).bound ≤ p.bound) ∧
      (∀ w, s.prqTarget d = some w → (s.wg w).st = .run → ∃ s', exec i s = .next s' ∧ ∃ m latency cost,
        let g := s.wg w
        let ls := 2200 + (20736 + 1024 * g.size + 4128 * g.spPages + 16384 * g.grant + 4096 * g.held.length +
          Nat.min (136 * (g.hbarN + g.hbcl)) 139264) / 320 + 160
        let now := (s.timeOf (pkgOfDie g.die)).toNat
        let free := p.bound = 0xFFFFFFFF
        let can := fun (m : Method) (l c : Nat) => (m = .save ∧ l = ls ∧ c = 2 * ls) ∨
          (m = .drain ∧ s.leftOf g = some l ∧ c = l ∧ (free ∨ l + ls ≤ p.bound)) ∨
          (m = .flush ∧ g.restartable = true ∧ l = 2360 ∧ c = 2360 + (now - g.born))
        can m latency cost ∧
        ((∃ x l c, can x l c ∧ (free ∨ l ≤ p.bound)) → (free ∨ latency ≤ p.bound) ∧
          ∀ x l c, can x l c → (free ∨ l ≤ p.bound) → cost < c ∨ (cost = c ∧ rank m ≤ rank x)) ∧
        ((∀ x l c, can x l c → ¬(free ∨ l ≤ p.bound)) → ∀ x l c, can x l c → latency < l ∨ (latency = l ∧ rank m ≤ rank x)) ∧
        (s'.die d).prq = { p with state := 1, latency := 0, method := match m with
          | .drain => 0
          | .save => 1
          | .flush => 2 } ∧
        s'.wg w = { g with st := if m = .drain then .drain else .stop, method := m, bound := p.bound, fromPrq := true, asked := now } ∧
        woken w s' ∧ s'.mem = s.mem))) ∧
  (∀ (s : State) (w : Nat), tget s.wgs w = none → ∀ i ∈ [Instr.workgroupStopped w, .saveCommit w, .drainDeadline w, .restoreStart w,
    .restoreComplete w], exec i s = .next s) ∧
  (∀ (s : State) (w : Nat) (g : WG), tget s.wgs w = some g →
    let k := s.core g.core
    let now := (s.timeOf (pkgOfDie g.die)).toNat
    let met := fun (s' : State) => g.fromPrq = true → (s'.die g.die).prq = { (s.die g.die).prq with state := 2, latency := now - g.asked }
    let same := fun (t u : Thread) => u.x = t.x ∧ u.f = t.f ∧ u.p = t.p ∧ u.pc = t.pc ∧ u.lane = t.lane ∧ u.wg = t.wg
    (g.st ≠ .drain → exec (.drainDeadline w) s = .next s) ∧
    (g.st = .drain →
      let late := g.bound ≠ 0xFFFFFFFF ∧ g.bound ≤ g.saveNs + (now - g.asked)
      (¬late → exec (.drainDeadline w) s = .next s) ∧
      (late → ∃ s', exec (.drainDeadline w) s = .next s' ∧ s'.wg w = { g with st := .stop, method := .save } ∧ s'.threads = s.threads)) ∧
    ((g.st ≠ .stop ∨ s.canStop w = false ∨ (g.method ≠ .flush ∧ s.saveTurn w = false)) → exec (.workgroupStopped w) s = .next s) ∧
    (g.st = .stop → s.canStop w = true → g.method ≠ .flush → s.saveTurn w = true → ∃ s', exec (.workgroupStopped w) s = .next s' ∧
      let p := s.performFor ((s.threads.filter fun t => t.2.wg == w).map (·.1))
      s'.wg w = { p.wg w with st := .save, copies := k.copyQ.filter (·.wg == w), mats := k.matQ.filter (·.wg == w) } ∧
      (s'.core g.core).copyQ = k.copyQ.filter (·.wg != w) ∧ (s'.core g.core).matQ = k.matQ.filter (·.wg != w) ∧
      (s'.core g.core).claims = k.claims.filter (·.wg != w) ∧ s'.mem = p.mem ∧
      ∀ n t, tget s.threads n = some t → t.wg = w → t.ending = none →
        let u := s'.thr n
        KeepsRegs t u [] ∧ u.p = t.p ∧ u.place = t.place ∧ (t.wait ≠ some .wfi → u.pc = t.pc) ∧
        (t.cancelling = false → t.served = false → u.wait = none) ∧ (t.cancelling = true ∨ t.served = true → u.wait = t.wait ∧ u.rel = t.rel) ∧
        (t.wait = some .wfi → MovesOn t u 4) ∧ (t.wait.map Wait.restarts = some true → u.restart = some t.pc)) ∧
    (g.st = .stop → s.canStop w = true → g.method = .flush → tsorted s.threads = true → w < s.nextId → ∃ s', exec (.workgroupStopped w) s = .next s' ∧
      met s' ∧ ((∀ t ∈ s.threads, t.2.wg ≠ w) → (s'.wg w).st = .flush ∧ (s'.wg w).resident = false ∧ (s'.wg w).slots = []) ∧
      ∀ n t l, tget s.threads n = some t → t.wg = w → t.ending = none → t.cancelled = false → t.lane < 1024 →
        (∀ j v, tget s.threads j = some v → v.wg = w → v.ending = none → v.lane = t.lane → j = n) →
        t.spawned = true → s.launchAt t.launch = some l →
        let u := s'.thr n
        u.pc = l.record.entry ∧ u.getX 10 = BitVec.ofNat 64 t.index ∧ u.tid = t.tid ∧ u.mode = false ∧
        ((∃ b, u.place = .bin g.die b) ∨ u.place = .queue g.die) ∧
        ∃ x, tget s'.wgs u.wg = some x ∧ x.die = g.die ∧ x.slots = [] ∧ (u.wg = w → x.level = g.level ∧ x.wgId = g.wgId) ∧
          ((u.wg = w ∧ x.st = .flush) ∨ (x.st = .released ∧ u.lane < x.size))) ∧
    (g.st ≠ .save → exec (.saveCommit w) s = .next s) ∧
    (g.st = .save → (∀ t ∈ s.threads, t.2.wg = w → t.2.cancelled = false) → ∃ s', exec (.saveCommit w) s = .next s' ∧
      met s' ∧ s'.mem = s.mem ∧
      (let x := s'.wg w
       x.st = .saved ∧ x.resident = false ∧ x.slots = [] ∧ x.spad = g.spad ∧ x.tags = g.tags ∧ x.held = g.held ∧ x.slotMem = g.slotMem ∧
       x.tileMem = g.tileMem ∧ x.hbars = g.hbars ∧ x.copies = g.copies ∧ x.mats = g.mats) ∧
      ∀ n t, tget s.threads n = some t → t.wg = w → t.ending = none →
        let u := s'.thr n
        let v := t.boostTok.toNat
        same t u ∧ u.place = .saved ∧ u.boostTok.toNat = (v % 2 ^ 32 + v / 2 ^ 32 % 2 ^ 7) % 2 ^ 32) ∧
    (g.st = .save → ∀ n t, tget s.threads n = some t → t.wg = w → t.ending = none → t.cancelled = true →
      ∃ s', exec (.saveCommit w) s = .next s' ∧ (s'.thr n).ending = some .cancelled ∧ (s'.thr n).wait = some .exitQueue) ∧
    (16 ≤ s.saving g.die → s.saveTurn w = false) ∧
    ((g.st ≠ .saved ∨ ∀ l, s.restorePlan w = some l → s.restoreTurn w l = false) → exec (.restoreStart w) s = .next s) ∧
    (∀ c, 16 ≤ s.saving (dieOfCore c) → s.restoreTurn w [(w, c)] = false) ∧
    (∀ c, g.st = .saved → g.group = 0 → s.restorePlan w = some [(w, c)] → s.restoreTurn w [(w, c)] = true →
      ∃ s', exec (.restoreStart w) s = .next s' ∧
      let x := s'.wg w
      x.st = .restore ∧ x.core = c ∧ s.coreOn c = true ∧ ((s.onCore c).map fun y => y.2.held.length).sum + g.held.length ≤ 256 ∧
      x.spad = g.spad ∧ x.tags = g.tags ∧ x.held = g.held ∧ x.slotMem = g.slotMem ∧ x.tileMem = g.tileMem ∧ x.hbars = g.hbars ∧
      x.copies = g.copies ∧ x.mats = g.mats ∧ x.slots.length = (g.size + 3) / 4 ∧ (∀ q ∈ x.slots, ∀ y ∈ s.onCore c, q ∉ y.2.slots) ∧
      (∀ f, g.tcfg = some f → (s'.core c).tcfg = BitVec.ofNat 4 f) ∧ s'.threads = s.threads ∧ s'.mem = s.mem) ∧
    (g.st ≠ .restore → exec (.restoreComplete w) s = .next s) ∧
    (g.st = .restore → ∃ s', exec (.restoreComplete w) s = .next s' ∧
      (g.fromPrq = false → s.unitsStay g = true → s'.wg w = { g with st := .run, copies := [], mats := [] }) ∧
      ((g.fromPrq = true ∨ s.unitsStay g = false) → ((s'.wg w).st = .drain ∨ (s'.wg w).st = .stop) ∧ (s'.wg w).copies = [] ∧
        (s'.wg w).mats = [] ∧ (g.fromPrq = true → (s'.wg w).asked = g.asked)) ∧
      (s'.core g.core).copyQ = k.copyQ ++ g.copies ∧
      (s'.core g.core).matQ = k.matQ ++ g.mats ∧ s'.mem = s.mem ∧
      ∀ n t, tget s.threads n = some t → t.wg = w → t.ending = none →
        same t (s'.thr n) ∧ ∀ sl j, g.slots[t.lane / 4]? = some (sl, j) → (s'.thr n).place = .slot g.core sl (4 * sl + t.lane % 4) j))

/-! ### The governor and the courses (chapters 16 and 19) -/

/-- 16 R347, R349 to R351, R353 to R356, R358, R471; 19 R425, R427: the governor. At the end of a window the balance of the tiles that
take part is written, ration levels, stretch and its counters follow it, deficits against the target become the next window's
requests, a written GOV_CTL takes effect, and leases are spent and taken; a synthetic slot, one in a clock for each slice that has no
thread to issue, counts 8; the shunt monitor sets
floor-only mode; a request of the firmware changes the mode two window boundaries later. The currents sampled are free values
(log entry 8). A balance of 0 where the mean current is 0 is the model's choice (log entry 109), and so is what keeps its value as the
governor restarts (log entry 110); that a request writes its bit to the other value is its reading (log entry 60). -/
def Obligations.GovernorAndCourses : Prop :=
  (∀ (s : State) (k : Nat),
    let c := s.course k
    let i := Instr.governorSample k
    let cur := fun (t : Nat) => Config.current s.seq t
    let part := fun (t : Nat) => t < 4 ∧ ¬(c.mode = .degraded ∧ c.bypass = t)
    let on := (List.range 4).filter c.takes
    let sum := (on.map cur).sum
    let bal := fun (t : Nat) => let v := Int.tdiv (1024 * ((on.length * cur t : Nat) - (sum : Int))) sum
      if sum = 0 then (0 : Int) else if 32767 < v then 32767 else if v < -32767 then -32767 else v
    let exc := ∃ t, part t ∧ c.imbLimit < (bal t).natAbs
    ((s.dieUp (k / 8) = false ∨ isSDie (k / 8) = false ∨ c.clock < 64) → exec i s = .next s) ∧
    (s.dieUp (k / 8) = true → isSDie (k / 8) = true → 64 ≤ c.clock →
      (c.mode = .offline → Answers s i fun s' => s'.threads = s.threads ∧
        s'.course k = { c with clock := 0, served := [], claims := none, pwrWait := c.pwrWait.map (· - 1) }) ∧
      (c.mode ≠ .offline → Answers s i fun s' =>
        let x := s'.course k
        (∀ j, j ≠ k → s'.course j = s.course j) ∧ s'.mem = s.mem ∧ s'.wgs = s.wgs ∧
        (∀ t < 4, (part t → (x.imb >>> (16 * t)).setWidth 16 = BitVec.ofInt 16 (bal t)) ∧
          (¬part t → (x.imb >>> (16 * t)).setWidth 16 = 0x8000#16) ∧
          (let hot := part t ∧ c.rationEn = true ∧ (∀ u, part u → bal u ≤ bal t) ∧ (c.imbLimit : Int) < 2 * bal t
           (hot → x.ration[t]? = some (Nat.min (tileN c.ration t + 1) 7)) ∧ (¬hot → x.ration[t]? = some (tileN c.ration t - 1))) ∧
          x.energy[t]? = some 0 ∧ x.grout[t]? = some 0 ∧ x.syn[t]? = some 0 ∧
          ∀ e, (∃ u, part u ∧ tileN c.energy u = e) → (∀ u, part u → tileN c.energy u ≤ e) →
            x.want[t]? = some (if c.takes t ∧ s.courseEmpty k = false then e - e * c.imbLimit / 2048 - tileN c.energy t else 0)) ∧
        (c.floorOnly = true → ¬exc → x.stretch = 15 ∧ x.overN = 0 ∧ x.underN = 0) ∧
        (exc → x.overN = Nat.min (c.overN + 1) 7 ∧ x.underN = 0 ∧
          x.stretch = if 4 ≤ Nat.min (c.overN + 1) 7 then Nat.min (c.stretch + 1) 15 else c.stretch) ∧
        (c.floorOnly = false → ¬exc → x.overN = 0 ∧
          x.stretch = (if c.underN = 3 then c.stretch - 1 else c.stretch) ∧
          x.underN = if c.stretch = 0 then c.underN else if c.underN = 3 then 0 else c.underN + 1) ∧
        (x.floorOnly = true ↔ c.floorOnly = true ∧ exc) ∧ x.mode = c.mode ∧ x.clock = 0 ∧ x.pwrWait = c.pwrWait.map (· - 1) ∧
        x.throttle = c.throttle ∧ x.served = [] ∧ x.claims = none ∧
        x.govNext = none ∧ x.boostNext = none ∧ x.boostMax = c.boostNext.getD c.boostMax ∧
        (c.govNext = none → x.imbLimit = c.imbLimit ∧ x.groutBudget = c.groutBudget ∧ x.synEn = c.synEn ∧ x.rationEn = c.rationEn) ∧
        (∀ v, c.govNext = some v → x.imbLimit = Nat.max 1 (Nat.min (v.toNat % 128) 122) ∧
          x.groutBudget = Nat.min (v.toNat / 256 % 4096) 2048 ∧ x.synEn = v.getLsbD 20 ∧ x.rationEn = v.getLsbD 21) ∧
        (let normal := c.mode = .normal ∧ x.stretch = 0 ∧ x.floorOnly = false
         (x.boosted = true ↔ normal ∧ ∀ t, part t → ∃ u ∈ s'.threads, u.2.onCourse k = true ∧ tileOfCore u.2.core = t ∧ 0 < tokLease u.2.boostTok) ∧
         ∀ n t, tget s.threads n = some t →
           (t.onCourse k = false → s'.thr n = t) ∧
           (t.onCourse k = true →
             let u := s'.thr n
             let tok := tokTok t.boostTok
             let lease := if c.boosted then tokLease t.boostTok - 1 else tokLease t.boostTok
             u = { t with boostTok := u.boostTok } ∧
             (normal → lease = 0 → tokTok u.boostTok = tok - Nat.min tok 64 ∧ tokLease u.boostTok = Nat.min tok 64) ∧
             (¬(normal ∧ lease = 0) → tokTok u.boostTok = tok ∧ tokLease u.boostTok = lease)))))) ∧
  (∀ (s : State) (core : Nat),
    let k := courseOfCore core
    let t := core % 4
    let c := s.course k
    let i := Instr.syntheticGroutSlot core
    let may := isSDie (core / 64) = true ∧ s.coreRuns core = true ∧ tileN c.synNow t < s.idleSlices core ∧ c.synEn = true ∧ c.floorOnly = false ∧
      tileN c.grout t < tileN c.want t ∧ tileN c.syn t < c.groutBudget ∧
      c.clock < 64 ∧ tileN c.grout t * 64 < tileN c.want t * (c.clock + 1)
    (¬may → exec i s = .next s) ∧
    (may → Answers s i fun s' =>
      s'.course k = { c with
        syn := c.syn.set t (tileN c.syn t + 1), synNow := c.synNow.set t (tileN c.synNow t + 1), grout := c.grout.set t (tileN c.grout t + 8)
        energy := c.energy.set t (tileN c.energy t + 8), groutCnt := c.groutCnt + 1 } ∧
      s'.threads = s.threads ∧ s'.mem = s.mem ∧ ∀ j, j ≠ k → s'.course j = s.course j)) ∧
  (∀ (s : State) (k : Nat),
    let c := s.course k
    let d := isSDie (k / 8)
    let only := fun (s' : State) (x : Course) => s'.course k = x ∧ s'.threads = s.threads ∧ s'.mem = s.mem ∧ ∀ j, j ≠ k → s'.course j = s.course j
    ((d = false ∨ c.mode = .offline ∨ c.floorOnly = true) → exec (.shuntTrip k) s = .next s) ∧
    (d = true → c.mode ≠ .offline → c.floorOnly = false → Answers s (.shuntTrip k) fun s' =>
      only s' { c with floorOnly := true, shunts := c.shunts + 1, boosted := false }) ∧
    ((d = false ∨ s.managed (.course k) = false) → exec (.coursePwrNtReq k) s = .next s ∧ exec (.coursePwrOffReq k) s = .next s ∧ ∀ t, exec (.coursePwrBypReq k t) s = .next s) ∧
    (d = true → s.managed (.course k) = true →
      let asks := fun (i : Instr) (bits : BitVec 5 → Prop) => Answers s i fun s' => ∃ v, only s' { c with pwr := v, pwrWait := some 2 } ∧ bits v
      asks (.coursePwrNtReq k) (fun v => v.getLsbD 0 = !c.pwr.getLsbD 0 ∧ ∀ b, b ≠ 0 → v.getLsbD b = c.pwr.getLsbD b) ∧
      asks (.coursePwrOffReq k) (fun v => v.getLsbD 4 = !c.pwr.getLsbD 4 ∧ ∀ b, b ≠ 4 → v.getLsbD b = c.pwr.getLsbD b) ∧
      ∀ t, asks (.coursePwrBypReq k t) (fun v => v.getLsbD 1 = !c.pwr.getLsbD 1 ∧ v.toNat / 4 % 4 = t % 4 ∧
        v.getLsbD 0 = c.pwr.getLsbD 0 ∧ v.getLsbD 4 = c.pwr.getLsbD 4)) ∧
    (c.pwrWait ≠ some 0 → exec (.courseModeChange k) s = .next s) ∧
    (c.pwrWait = some 0 →
      let off := s.quadOff (k / 8) (k % 8 / 2)
      let m : CMode := if off ∨ c.pwr.getLsbD 4 then .offline else if c.pwr.getLsbD 0 then .nearThreshold else if c.pwr.getLsbD 1 then .degraded
        else .normal
      let stays := m = c.mode ∧ (m = .degraded → c.bypass = c.pwr.toNat / 4 % 4)
      (stays → Answers s (.courseModeChange k) fun s' => only s' { c with pwrWait := none }) ∧
      (¬stays → Answers s (.courseModeChange k) fun s' => ∃ x, only s' x ∧ x.mode = m ∧ x.pwrWait = none ∧ x.boosted = false ∧
        (m = .degraded → x.bypass = c.pwr.toNat / 4 % 4) ∧ x.imbLimit = c.imbLimit ∧ x.shunts = c.shunts ∧
        ((m = .degraded ∨ m = .nearThreshold ∨ c.mode = .nearThreshold) →
          x.stretch = 0 ∧ x.overN = 0 ∧ x.underN = 0 ∧ x.ration = [0, 0, 0, 0]) ∧
        ((m ≠ .degraded ∧ m ≠ .nearThreshold ∧ c.mode ≠ .nearThreshold) →
          x.stretch = c.stretch ∧ x.overN = c.overN ∧ x.underN = c.underN ∧ x.ration = c.ration))))

/-! ### Health and live service (chapter 19) -/

/-- 17 R385; 19 R427, R428, R430, R431, R433 to R436; 20 R447: service. A shut quadrant is OFF, its courses offline and its workgroups
saved; a capture unit takes a sample into its extremes, its count and one bin, and a snapshot resets it; a unit drains, goes
offline once empty, returns or retires; a lost die breaks the marks it holds and loses its threads; a manifest that verifies
and is not older is staged, swapped in unit by unit, and becomes the version when every unit runs it; a package that powers
on with such a manifest starts with empty memory and one thread, what was retired apart. What verifies, and where a failure lies, are free
values (log entry 9). The model's own are the empty memory (log entries 1 and 65), a unit whose image failed being back with code 19 (log
entry 64), and the mode that the courses of a quadrant return to (log entry 47). -/
def Obligations.Health : Prop :=
  (∀ (s : State) (d q : Nat),
    let i := Instr.quadrantOvercurrent d q
    let j := Instr.qstatClearOff d q
    let old := (tget (s.die d).quads q).getD ⟨0, false, false, 0⟩
    let x := s.die d
    let ours := fun (k : Nat) => k = d * 8 + 2 * q ∨ k = d * 8 + 2 * q + 1
    ((isSDie d = false ∨ 4 ≤ q ∨ old.off = true) → exec i s = .next s) ∧
    (isSDie d = true → q < 4 → old.off = false →
      let still := s.stores = [] ∧ (∀ t ∈ s.threads, t.2.cancelled = false ∧ t.2.settled = true) ∧
        ∀ c, inQuad d q c = true → ∀ m ∈ (s.core c).matQ, m.op.owes = false
      Answers s i fun s' =>
      (∃ y, tget (s'.die d).quads q = some y ∧ y.off = true ∧ (y.saved = true → Config.quadSaved s.seq = true)) ∧
      (still → tget (s'.die d).quads q = some ⟨old.qlim, true, Config.quadSaved s.seq, old.count + 1⟩) ∧
      (∀ k, ours k → (s'.course k).mode = .offline) ∧ (still → ∀ k, ¬ours k → s'.course k = s.course k) ∧
      (still → s'.mem = s.mem) ∧
      (still → x.errHead - x.errTail ≠ 256 → (s'.die d).errHead = x.errHead + 1 ∧
        ∃ e, tget (s'.die d).errs (x.errHead.toNat % 256) = some e ∧ e.code = 17 ∧ e.addr = Config.locator s.seq) ∧
      (still → x.errHead - x.errTail = 256 → (s'.die d).errLost = x.errLost + 1 ∧ (s'.die d).errs = x.errs) ∧
      (still → Config.quadSaved s.seq = true → tsorted s.wgs = true → ∀ w g, tget s.wgs w = some g → g.st = .run → inQuad d q g.core = true →
        (s'.wg w).st = .saved ∧ (s'.wg w).spad = g.spad ∧ (s'.wg w).tileMem = g.tileMem ∧ (s'.wg w).slotMem = g.slotMem ∧
        ∀ n t, tget s.threads n = some t → t.wg = w → t.ending = none → (s'.thr n).place = .saved ∧
          (let redo := (t.back.take (Config.inFlight s.seq n)).takeWhile fun b => b.pend.all (·.val.isSome)
           (redo = [] → KeepsRegs t (s'.thr n) []) ∧
           ∀ b, redo.getLast? = some b → b.pend = [] →
            (s'.thr n).pc = b.pc ∧ (s'.thr n).x = b.x ∧ (s'.thr n).f = b.f ∧ (s'.thr n).p = b.p))) ∧
    ((isSDie d = false ∨ old.off = false ∨ s.managed (.quadrant d q) = false) → exec j s = .next s) ∧
    (isSDie d = true → old.off = true → s.managed (.quadrant d q) = true → Answers s j fun s' =>
      tget (s'.die d).quads q = some { old with off := false } ∧ s'.threads = s.threads ∧ s'.mem = s.mem ∧
      (∀ k, ours k → (s'.course k).mode = pwrMode (s.course k).pwr ∧ (s'.course k).boosted = false ∧
        ((s'.course k).mode = .degraded → (s'.course k).bypass = (s.course k).pwr.toNat / 4 % 4)) ∧
      ∀ k, ¬ours k → s'.course k = s.course k)) ∧
  (∀ (s : State) (d u v : Nat),
    let m := (s.die d).mon u
    let x := BitVec.ofNat 64 v
    let on := u < 16 ∧ m.ctl.getLsbD 6 = true ∧ (m.ctl.toNat % 64 = 3 ∨ m.ctl.toNat % 64 = 4)
    (16 ≤ u → exec (.monSnap d u) s = .next s) ∧
    (u < 16 → Answers s (.monSnap d u) fun s' => s'.mem = s.mem ∧ (s'.die d).mon u =
      { m with shadow := (m.min, m.max, m.count, m.bins), min := 0x7FFFFFFFFFFFFFFF, max := 0x8000000000000000, count := 0, bins := [] }) ∧
    (¬on → exec (.monSample d u v) s = .next s) ∧
    (on → Answers s (.monSample d u v) fun s' =>
      let y := (s'.die d).mon u
      let step := (x.toInt - m.lo.toInt) / 2 ^ (m.ctl.toNat / 256 % 64)
      y.min.toInt = (if x.toInt < m.min.toInt then x.toInt else m.min.toInt) ∧ y.ctl = m.ctl ∧ y.lo = m.lo ∧ y.shadow = m.shadow ∧
      y.max.toInt = (if m.max.toInt < x.toInt then x.toInt else m.max.toInt) ∧ y.count = m.count + 1 ∧ s'.mem = s.mem ∧
      ∀ b, (tget y.bins b).getD 0 = (tget m.bins b).getD 0 + if (step < 0 ∧ b = 0) ∨ (31 < step ∧ b = 31) ∨ (step ≤ 31 ∧ step = b) then 1 else 0)) ∧
  (∀ (s : State) (u : UnitId),
    let st := (s.service u).1
    let code := (s.service u).2
    let may := s.manages u = true
    ((st ≠ 0 ∨ ¬may) → exec (.unitDrain u) s = .next s) ∧
    (st = 0 → may → Answers s (.unitDrain u) fun s' => s'.service u = (1, code) ∧ s'.mem = s.mem ∧
      (∀ n t, tget s.threads n = some t → tget s'.threads n = some t ∨ tget s'.threads n = some t.requested) ∧
      (tsorted s.wgs = true → ∀ w g, tget s.wgs w = some g → g.st = .run → unitHolds u g = true →
        (s'.wg w).st = .drain ∨ (s'.wg w).st = .stop)) ∧
    (¬(st = 1 ∧ s.unitEmpty u = true ∧ may) → exec (.unitOffline u) s = .next s) ∧
    (st = 1 → s.unitEmpty u = true → may → Answers s (.unitOffline u) fun s' => s'.service u = (2, code) ∧
      ((∀ d, u ≠ .die d) → s'.mem = s.mem ∧ s'.threads = s.threads ∧ s'.wgs = s.wgs ∧ s'.dies = s.dies)) ∧
    ((st ≠ 2 ∨ ¬may) → exec (.unitOnline u) s = .next s) ∧
    (st = 2 → may → Answers s (.unitOnline u) fun s' => s'.service u = (0, code) ∧ (∀ v, v ≠ u → s'.service v = s.service v) ∧
      s'.threads = s.threads ∧ s'.mem = s.mem) ∧
    (let leaves := st = 2 ∨ (∃ p n, u = .stack p n) ∨ (∃ p n, u = .controller p n) ∨ ∃ p n, u = .port p n
     (¬(leaves ∧ may) → exec (.unitRetire u) s = .next s) ∧
     (leaves → may → Answers s (.unitRetire u) fun s' => s'.service u = (3, code) ∧ (∀ v, v ≠ u → s'.service v = s.service v) ∧
       s'.threads = s.threads ∧ s'.mem = s.mem))) ∧
  (∀ (s : State) (d e : Nat),
    let x := s.die d
    (s.dieUp d = false → exec (.ucieRetrainFail d) s = .next s) ∧
    (s.dieUp d = true → Answers s (.ucieRetrainFail d) fun s' => (s'.service (.die d)).1 = 2 ∧
      ((∀ c ∈ s.copies, agentDie (keyAgent c.1) ≠ d) → s'.mem = s.mem) ∧
      (x.errHead - x.errTail ≠ 256 → (s'.die d).errHead = x.errHead + 1 ∧
        ∃ y, tget (s'.die d).errs (x.errHead.toNat % 256) = some y ∧ y.code = 18 ∧ y.addr = Config.locator s.seq) ∧
      (∀ c, c / 64 = d → (s'.core c).copyQ = [] ∧ (s'.core c).matQ = [] ∧ (s'.core c).claims = []) ∧
      (∀ m y, (∀ e ∈ x.marks, e.1 < 2 ^ 24) → markDie m = d → s.markAt m = some y → ∃ z, tget (s'.die d).marks (markIdx m) = some z ∧ z.st = .broken ∧
        z.cause = -8 ∧ z.origin = m) ∧
      ∀ n t, n < s.nextId → tget s.threads n = some t → t.die = d → t.place ≠ .saved → t.place ≠ .flight → ((s.identify n).thr n).spawned = false →
        tget s'.threads n = none) ∧
    (let ok := d ≠ e ∧ d / 16 = e / 16 ∧ s.present (d / 16) = true
     (¬ok → exec (.ucieFlitRetry d e) s = .next s) ∧
     (ok → Answers s (.ucieFlitRetry d e) fun s' => (s'.die d).errCe = x.errCe + 1 ∧ (s'.die e).errCe = (s.die e).errCe + 1 ∧
       (∀ y, y ≠ d → y ≠ e → s'.die y = s.die y) ∧ s'.threads = s.threads ∧ s'.mem = s.mem))) ∧
  (∀ (s : State) (p v : Nat),
    let x := s.pkg p
    let i := Instr.firmwareUpdate p v
    let taken := x.staged = some v ∨ (Config.verified s.seq 0 = true ∧ x.rollback ≤ v)
    (¬(s.present p = true ∧ taken) → exec i s = .next s) ∧
    (s.present p = true → taken → Answers s i fun s' =>
      let y := s'.pkg p
      s'.threads = s.threads ∧ s'.mem = s.mem ∧
      (∀ u, (s.service u).1 ≠ 2 → s'.service u = s.service u) ∧
      (∀ q ∈ unitsOf p, (s.service q.1).1 = 2 → s.dieUp (p * 16) = true → s.dieUp (p * 16 + 1) = true → ∃ n, (q.1, n) ∈ unitsOf p ∧
        s'.service q.1 = if Config.verified s.seq (n + 1) then (0, 0) else (0, 19)) ∧
      ((y.version = v ∧ y.rollback = v ∧ y.staged = none) ∨ (y.version = x.version ∧ y.rollback = x.rollback ∧ y.staged = some v)) ∧
      ((∀ q ∈ unitsOf p, (s.service q.1).1 = 3 ∨ (x.staged = some v ∧ q.1 ∈ x.swapped) ∨
          ((s.service q.1).1 = 2 ∧ s.manages q.1 = true ∧ Config.verified s.seq (q.2 + 1) = true)) →
        y.version = v ∧ y.rollback = v ∧ y.staged = none))) ∧
  (∀ (s : State) (p : Nat),
    let i := Instr.powerOn p
    let back := (s.pkg p).rollback
    let v := Config.manifest s.seq
    let starts := p < 16 ∧ Config.verified s.seq 0 = true ∧ back ≤ v
    (¬starts → exec i s = .next s) ∧
    (starts → Answers s i fun s' =>
      (let y := s'.pkg p
       y.version = v ∧ (y.rollback = back ∨ y.rollback = v) ∧ y = { Pkg.init with
         version := v, rollback := y.rollback, staged := y.staged, swapped := y.swapped, links := y.links, routes := y.routes }) ∧
      (∃ k, s.nextId ≤ k ∧ s'.ctx (p * 256) = { Ctx.init with thread := some k } ∧
        tget s'.threads k = some { Thread.init with mode := true, place := .ctx p 0 }) ∧
      ((∀ c ∈ s.copies, keyAgent c.1 / 512 ≠ p) → ∀ a, s'.mem.read a = if paPkg a = p then 0 else s.mem.read a) ∧
      (∀ d, d / 16 = p → s'.die d = Die.init ∧ ∀ c, c / 64 = d → s'.core c = Core.init) ∧
      (tsorted s.threads = true → ∀ n t, tget s.threads n = some t → n < s.nextId →
        (s.threadPkg n t = p → tget s'.threads n = none) ∧
        (s.threadPkg n t ≠ p → t.pkg ≠ p → ∃ u, tget s'.threads n = some u ∧ u.x = t.x ∧ u.pc = t.pc ∧ u.place = t.place)) ∧
      (∀ w ∈ s'.wgs, w.2.die / 16 ≠ p) ∧
      ∀ q ∈ unitsOf p,
        ((s.service q.1).1 ≠ 3 → (∀ n, (q.1, n) ∈ unitsOf p → Config.bringUp s.seq n = true) → s'.service q.1 = (0, 0)) ∧
        ((s.service q.1).1 ≠ 3 → (∀ n, (q.1, n) ∈ unitsOf p → Config.bringUp s.seq n = false) → s'.service q.1 = (2, 0))))

/-! ### Ports and links (chapter 20; 18 R418) -/

/-- 18 R418; 20 R437 to R446: ports and links. A frame goes into the entry at HEAD of the ring its classifier entry names, cut to CAP,
with LEN, FLOW, TRUNC, DONE and a timestamp; without an entry it is dropped and counted; a bad entry is returned with ERR. A
transmit entry is sent from its buffer. A RoCEv2 packet of a known queue pair is performed on the region that covers it, all
of it or none, or answered with a NAK, takes its sequence number and leaves a completion; a READ is answered with packets of the
queue pair's path MTU. That a port runs while it is enabled, its link is up and its die answers is the model's reading (log entry 69), and so
are what a bad entry keeps, and that a payload above the path MTU, a path MTU that is none of the three and more than 4,096 queue pairs
leave no packet (log entry 71). -/
def Obligations.PortsAndLinks : Prop :=
  (∀ (s : State) (p n : Nat) (bytes : List Nat) (qp region va : Nat),
    let bs := bytes.map (BitVec.ofNat 8)
    let x := s.port p n
    let len := bytes.length
    let now := (s.timeOf p).toNat
    let steady := s.soft = [] ∧ ∀ d ∈ s.dir, d.2.uop = none
    let plain := fun (a : Nat) => s.fwd a = a ∧ s.memCode p a false = none ∧ (s.dirOf (secOf a)).st ≠ .p
    let flat := fun (a k : Nat) => steady ∧ ∀ j < k, plain (a + j)
    let at_ := fun (r : Ring) => r.base + 32 * (r.head.toNat % 2 ^ r.log2n)
    let ready := fun (r : Ring) => r.en = true ∧ r.head ≠ r.tail
    let bad := fun (e : Nat) => let m := s.mem.readN (e + 8) 8
      m.testBit 32 = true ∨ s.mem.readN e 8 % 64 ≠ 0 ∨ 2 ^ 52 ≤ s.mem.readN e 8 ∨ m % 64 ≠ 0 ∨ m % 2 ^ 16 < 64 ∨ 16384 < m % 2 ^ 16
    let closed := fun (s' : State) (e k cap l flags flow : Nat) =>
      s'.mem.readN (e + 8) 8 = cap + l % 2 ^ 16 * 2 ^ 16 + 2 ^ 32 + flags * 2 ^ 33 + flow % 2 ^ 24 * 2 ^ 40 ∧
      ∃ t, s'.mem.readN (e + 16) 16 = t / 10 ^ 9 % 2 ^ 48 + t % 10 ^ 9 * 2 ^ 48 ∧ now ≤ t + 4 ∧ (tget x.stamps k).getD 0 ≤ t ∧
        t ≤ Nat.max (now + 4) ((tget x.stamps k).getD 0)
    (let i := Instr.frameReceive p n bytes
     let c := x.cls.find? fun c => c.2.takes bs
     let r := (c.map (·.2.ring.toNat)).getD 0
     let flow := (c.map (·.1)).getD 0xFFFFFF
     let q := (tget x.rx r).getD Ring.init
     let e := at_ q
     let buf := s.mem.readN e 8
     let cap := s.mem.readN (e + 8) 8 % 2 ^ 16
     let moves := fun (s' : State) => tget (s'.port p n).rx r = some { q with head := q.head + 1 } ∧
       (s'.port p n).irqs = x.irqs + (if x.irqMask.getLsbD r then 1 else 0) ∧ (s'.port p n).drop = x.drop
     ((s.portRuns p n = false ∨ isRoce bs = true) → exec i s = .next s) ∧
     (s.portRuns p n = true → isRoce bs = false →
       (¬ready q → Answers s i fun s' => (s'.port p n).drop = x.drop + 1 ∧ (s'.port p n).rx = x.rx ∧ s'.mem = s.mem) ∧
       (ready q → (s.memCode p (s.fwd e) false).isSome = true → Answers s i fun s' => moves s' ∧ s'.mem = s.mem) ∧
       (ready q → flat e 32 → bad e → Answers s i fun s' => moves s' ∧ closed s' e r cap len 2 flow ∧
         ∀ a, (a < e + 8 ∨ e + 32 ≤ a) → s'.mem.read a = s.mem.read a) ∧
       (ready q → flat e 32 → ¬bad e → flat buf (Nat.min len cap) → (buf + Nat.min len cap ≤ e ∨ e + 32 ≤ buf) →
         Answers s i fun s' => moves s' ∧ closed s' e r cap len (if cap < len then 1 else 0) flow ∧
           (∀ j < Nat.min len cap, s'.mem.read (buf + j) = bs[j]?.getD 0) ∧
           ∀ a, (a < e + 8 ∨ e + 32 ≤ a) → (a < buf ∨ buf + Nat.min len cap ≤ a) → s'.mem.read a = s.mem.read a))) ∧
    (∀ r, let i := Instr.frameTransmit p n r
     let q := (tget x.tx r).getD Ring.init
     let e := at_ q
     let m := s.mem.readN (e + 8) 8
     let buf := s.mem.readN e 8
     let l := m / 2 ^ 16 % 2 ^ 16
     let moves := fun (s' : State) => tget (s'.port p n).tx r = some { q with head := q.head + 1 } ∧
       ∀ a, (a < e + 8 ∨ e + 32 ≤ a) → s'.mem.read a = s.mem.read a
     ((s.portRuns p n = false ∨ 64 ≤ r ∨ ¬ready q) → exec i s = .next s) ∧
     (s.portRuns p n = true → r < 64 → ready q → flat e 32 →
       (bad e → Answers s i fun s' => moves s' ∧ (s'.port p n).sent = x.sent ∧ closed s' e (64 + r) (m % 2 ^ 16) l 2 (m / 2 ^ 40)) ∧
       (¬bad e → flat buf l → Answers s i fun s' => moves s' ∧ closed s' e (64 + r) (m % 2 ^ 16) l 0 (m / 2 ^ 40) ∧
         ∃ frame, (s'.port p n).sent = x.sent ++ [frame] ∧ frame.length = l ∧ ∀ j < l, frame[j]? = some (s.mem.read (buf + j))))) ∧
    (let ops := [Instr.roceSend p n qp bytes, .roceSendImm p n qp bytes, .roceRdmaWrite p n qp region va bytes,
       .roceRdmaWriteImm p n qp region va bytes, .roceReadResponse p n qp region va bytes]
     ((s.portRuns p n = false ∨ tget x.qps qp = none) → (∀ i ∈ ops, exec i s = .next s) ∧ exec (.roceAtomic p n qp) s = .next s ∧
       ∀ k, exec (.roceRdmaRead p n qp region va k) s = .next s) ∧
     let sized := fun (q : Qp) => q.mtu = 1024 ∨ q.mtu = 2048 ∨ q.mtu = 4096
     (∀ q, tget x.qps qp = some q → (q.mtu < len ∨ ¬sized q ∨ 4096 < x.qps.length) → ∀ i ∈ ops, exec i s = .next s) ∧
     ((4096 < x.qps.length ∨ ∃ q, tget x.qps qp = some q ∧ ¬sized q) → exec (.roceAtomic p n qp) s = .next s ∧ ∀ k, exec (.roceRdmaRead p n qp region va k) s = .next s) ∧
     (∀ q, s.portRuns p n = true → tget x.qps qp = some q → sized q → x.qps.length ≤ 4096 →
       let done := fun (s' : State) (code : Nat) (data : List (List Byte)) =>
         (s'.port p n).replies = x.replies ++ data.map (fun r => (qp, code, r)) ∧
         tget (s'.port p n).qps qp = some { q with psn := (q.psn + data.length) % 2 ^ 24 }
       let cr := (tget x.rx q.cq).getD Ring.init
       let naks := fun (i : Instr) => Answers s i fun s' => done s' 1 [[]] ∧ (¬ready cr → s'.mem = s.mem) ∧
         ((s.die (portDie p n)).errHead - (s.die (portDie p n)).errTail ≠ 256 →
           ∃ y, tget (s'.die (portDie p n)).errs ((s.die (portDie p n)).errHead.toNat % 256) = some y ∧ y.code = 9 ∧ y.addr = BitVec.ofNat 64 va)
       let covers := fun (g : Region) (k : Nat) => g.lo ≤ va ∧ va + k ≤ g.lo + g.len
       Answers s (.roceAtomic p n qp) (fun s' => done s' 2 [[]] ∧ (¬ready cr → s'.mem = s.mem) ∧
         (ready cr → flat (at_ cr) 32 → let e := at_ cr
           s'.mem.readN e 8 = 0 ∧ closed s' e q.cq (s.mem.readN (e + 8) 8 % 2 ^ 16) 0 2 qp ∧
           (∀ a, (a < e ∨ e + 32 ≤ a) → s'.mem.read a = s.mem.read a) ∧
           tget (s'.port p n).rx q.cq = some { cr with head := cr.head + 1 })) ∧
       (len ≤ q.mtu → ∀ i ∈ [Instr.roceSend p n qp bytes, .roceSendImm p n qp bytes], Answers s i fun s' => done s' 0 [[]] ∧
         let r := (tget x.rx q.rx).getD Ring.init
         let buf := s.mem.readN (at_ r) 8
         let cap := s.mem.readN (at_ r + 8) 8 % 2 ^ 16
         q.rx ≠ q.cq → ¬ready cr → ready r → flat (at_ r) 32 → ¬bad (at_ r) → flat buf (Nat.min len cap) →
           (buf + Nat.min len cap ≤ at_ r ∨ at_ r + 32 ≤ buf) →
           (∀ j < Nat.min len cap, s'.mem.read (buf + j) = bs[j]?.getD 0) ∧ closed s' (at_ r) q.rx cap len (if cap < len then 1 else 0) qp) ∧
       (len ≤ q.mtu → ∀ i ∈ [Instr.roceRdmaWrite p n qp region va bytes, .roceRdmaWriteImm p n qp region va bytes,
           .roceReadResponse p n qp region va bytes],
         ((∀ g, tget x.regions region = some g → ¬(covers g len ∧ g.w = true)) → naks i) ∧
         (∀ g, tget x.regions region = some g → covers g len → g.w = true →
           (∀ s1, s.roceMap (g.ctx p n) .store (piecesOf va len) = (s1, .wait) → exec i s = .next s) ∧
           (∀ s1 b, s.roceMap (g.ctx p n) .store (piecesOf va len) = (s1, .bad b) → Answers s i fun s' => done s' 1 [[]]) ∧
           (∀ s1 l, s.roceMap (g.ctx p n) .store (piecesOf va len) = (s1, .ok l) → Answers s i fun s' => done s' 0 [[]] ∧
             (¬ready cr → s'.mem = (s1.rocePut (portAgent p n) l bs).mem)))) ∧
       (∀ k, let i := Instr.roceRdmaRead p n qp region va k
         ((∀ g, tget x.regions region = some g → ¬(covers g k ∧ g.r = true)) → naks i) ∧
         (∀ g, tget x.regions region = some g → covers g k → g.r = true →
           (∀ s1, s.roceMap (g.ctx p n) .load (piecesOf va k) = (s1, .wait) → exec i s = .next s) ∧
           (∀ s1 b, s.roceMap (g.ctx p n) .load (piecesOf va k) = (s1, .bad b) → Answers s i fun s' => done s' 1 [[]]) ∧
           (∀ s1 l, s.roceMap (g.ctx p n) .load (piecesOf va k) = (s1, .ok l) →
             Answers s i fun s' => done s' 0 (splitAt q.mtu (Nat.max 1 ((k + q.mtu - 1) / q.mtu)) (s1.roceGet (portAgent p n) l).2))))))) ∧
  (∀ (s : State) (p n : Nat),
    let x := (tget (s.pkg p).links n).getD ⟨false, 0, 0, 0⟩
    let link := fun (s' : State) (y : Link) => tget (s'.pkg p).links n = some y ∧ s'.threads = s.threads ∧ s'.mem = s.mem ∧
      ∀ m, m ≠ n → tget (s'.pkg p).links m = tget (s.pkg p).links m
    exec (.flitReceive p n true) s = .next s ∧
    (s.present p = false → exec (.flitReceive p n false) s = .next s ∧ exec (.linkPortDown p n) s = .next s ∧
      ∀ up, exec (.ethernetLinkChange p n up) s = .next s) ∧
    (4 ≤ n → ∀ up, exec (.ethernetLinkChange p n up) s = .next s) ∧
    (s.present p = true →
      Answers s (.flitReceive p n false) (fun s' => link s' { x with replays := x.replays + 1 }) ∧
      Answers s (.linkPortDown p n) (fun s' => link s' { x with up := false } ∧
        ∀ d m, tget (s.pkg p).routes d = some m → ∃ m', tget (s'.pkg p).routes d = some m' ∧
          ∀ b, m'.testBit b = (m.testBit b && b != n)) ∧
      (n < 4 → ∀ up, Answers s (.ethernetLinkChange p n up) fun s' => s'.port p n = { s.port p n with up := up } ∧ s'.threads = s.threads ∧
        s'.mem = s.mem)) ∧
    (∀ k, (tget s.threads k = none → exec (.linkTimeout k) s = .next s) ∧
      (∀ t, tget s.threads k = some t → exec (.linkTimeout k) s = .next { s with late := some k })))

/-! ### Control space (chapters 15, 16, 18 to 20) -/

/-- 04 R76; 15 R342 to R345; 16 R358; 18 R409, R410, R412; 19 R424, R425, R428, R433; 20 R437, R439, R444; 21 R461: what a store to control
space leaves in a register, with its fields brought into range and read-only bits kept, and what the writes with an effect
of their own do: windows, rings, software interrupts, the clock. -/
def Obligations.ControlRegisterWrites : Prop :=
  (∀ (s : State) (p v : Nat), s.present p = true → p < 16 →
    let w := BitVec.ofNat 64 v
    let store := fun (o n : Nat) => Instr.controlRegisterWrite (p * 2 ^ 48 + 0xFF * 2 ^ 40 + o) n v
    let reads := fun (o : Nat) (r : Word) => Answers s (store o 8) fun s' => s'.ctrlGet p o = some r ∧ s'.mem = s.mem ∧ s'.cur = s.cur
    let ring := fun (o lo hi : Nat) => reads o (w &&& 0x000FFFFFFFFFF000) ∧ reads (o + 0x18) (w &&& 0xFFFFFFFF) ∧
      reads (o + 8) (if w.getLsbD 0 = true ∧ lo ≤ v / 2 % 32 ∧ v / 2 % 32 ≤ hi then w &&& 0x3F else w &&& 0x3E)
    (∀ c < 144, s.dieUp (p * 16 + c / 72) = true →
      let b := 0x00100000 + 0x100 * c
      let x := s.ctx (p * 256 + c)
      reads (b + 0x08) w ∧ reads (b + 0x10) (if x.hold = true ∧ w.getLsbD 0 = true then 1 else 0) ∧ reads (b + 0x18) w ∧
      reads (b + 0x30) w ∧ reads (b + 0x38) w ∧ reads (b + 0x80) (w &&& 0x7FFFFFFFFF) ∧ exec (store b 8) s = .next s ∧
      Answers s (store (b + 0x20) 8) (fun s' => ∀ j, 16 ≤ j → j < 32 →
        ((s'.ctrlGet p b).getD 0).getLsbD j = (((s.ctrlGet p b).getD 0).getLsbD j || w.getLsbD j)) ∧
      Answers s (store (b + 0x28) 8) (fun s' => ∀ j, 16 ≤ j → j < 32 →
        ((s'.ctrlGet p b).getD 0).getLsbD j = (((s.ctrlGet p b).getD 0).getLsbD j && !w.getLsbD j)) ∧
      Answers s (store (b + 0x0C) 4) (fun s' => s'.ctrlGet p (b + 8) = some ((x.irqEn &&& 0xFFFFFFFF) ||| (w <<< 32))) ∧
      Answers s (store (b + 0x08) 4) (fun s' => s'.ctrlGet p (b + 8) = some ((x.irqEn &&& 0xFFFFFFFF00000000) ||| (w &&& 0xFFFFFFFF)))) ∧
    (∀ d < 10, s.dieUp (p * 16 + d) = true →
      let b := 0x05000000 + 0x100000 * d
      let x := s.die (p * 16 + d)
      reads (b + 0x8) (w &&& 0xFFFFFFFF) ∧ reads (b + 0x40000) w ∧ reads (b + 0x40008) w ∧ reads (b + 0x60008) (w &&& 0xFFFF) ∧
      reads (b + 0x60010) w ∧ reads (b + 0x60018) (w &&& 0xFFFFFFFF) ∧ exec (store b 8) s = .next s ∧ exec (store (b + 0x10) 8) s = .next s ∧
      reads (b + 0x80010) (x.exq.head.setWidth 64) ∧
      (x.idwEn = true → reads (b + 0x60000) (BitVec.ofNat 64 ((if w.getLsbD 0 then 1 else 0) + x.idwTable))) ∧
      ring (b + 0x80000) 8 20 ∧ (d < 2 → ring (b + 0x90000) 4 16) ∧
      (2 ≤ d → reads (b + 0x50000) (BitVec.ofNat 64 (v % 2 + 2 * Nat.min 16 (v / 2 % 32))) ∧
        reads (b + 0xA0000) w ∧ reads (b + 0xA0008) (w &&& 0xFFFFFFFF) ∧ reads (b + 0xA0010) (w &&& 0xFF1F) ∧
        reads (b + 0xA0018) (w &&& 0xFFFFFFFF) ∧ ∀ q < 4, reads (b + 0x20000 + 0x40 * q) (w &&& 0xFFFF))) ∧
    (∀ k < 64, s.dieUp (p * 16 + 2 + k / 8) = true →
      let b := 0x04000000 + 0x100 * k
      reads b (BitVec.ofNat 64 (Nat.max 1 (Nat.min (v % 128) 122) + Nat.min (v / 256 % 4096) 2048 * 256) ||| (w &&& 0x300000)) ∧
      reads (b + 0x18) (BitVec.ofNat 64 (Nat.min 2300 (Nat.max 1900 (v % 4096)))) ∧ exec (store (b + 8) 8) s = .next s ∧
      exec (store (b + 0x10) 8) s = .next s) ∧
    (∀ n < 4, s.dieUp (portDie p n) = true → let b := 0x06000000 + 0x10000 * n
      reads b (w &&& 1) ∧ reads (b + 0x10) w ∧ (∀ k < 256, reads (b + 0x800 + 8 * k) (w &&& 0xFFFFFFFFF)) ∧
      ∀ k < 64, reads (b + 0x1000 + 0x20 * k) (w &&& 0x000FFFFFFFFFF000) ∧ reads (b + 0x2018 + 0x20 * k) (w &&& 0xFFFFFFFF)) ∧
    (s.dieUp (p * 16) = true → reads 0x08000000 (if 500000000 < w.toInt then 500000000 else if w.toInt < -500000000 then BitVec.ofInt 64 (-500000000) else w)) ∧
    exec (store 0 8) s = .next s ∧ (∀ o n, o < 2 ^ 40 → n ≠ 4 → n ≠ 8 → exec (store o n) s = .next s) ∧
    (∀ o, o < 2 ^ 40 → o % 8 = 0 → s.ctrlGet p o = none → exec (store o 8) s = .next s)) ∧
  (∀ (s : State) (d v : Nat),
    let w := BitVec.ofNat 64 v
    let x := s.die d
    let a := x.idwTable + 16 * x.idwAsid.toNat
    let steady := s.soft = [] ∧ ∀ r ∈ s.dir, r.2.uop = none
    let plain := fun (a : Nat) => s.fwd a = a ∧ s.memCode (d / 16) a false = none ∧ (s.dirOf (secOf a)).st ≠ .p
    let only := fun (s' : State) (y : Die) => s'.die d = y ∧ s'.mem = s.mem ∧ s'.threads = s.threads ∧ ∀ e, e ≠ d → s'.die e = s.die e
    (x.idwEn = false → exec (.idwCmdReplace d) s = .next s) ∧
    (x.idwEn = true → steady → a % 16 = 0 → (∀ j < 16, plain (a + j)) → Answers s (.idwCmdReplace d) fun s' =>
      s'.mem.readN a 8 = x.idwBase.toNat ∧ s'.mem.readN (a + 8) 8 = x.idwRemain.toNat ∧
      ∀ y, (y < a ∨ a + 16 ≤ y) → s'.mem.read y = s.mem.read y) ∧
    (x.idwEn = false → Answers s (.idwCmdRead d) fun s' => only s' { x with idwBase := 0, idwRemain := 0 }) ∧
    (x.idwEn = true → steady → a % 16 = 0 → (∀ j < 16, plain (a + j)) → Answers s (.idwCmdRead d) fun s' =>
      s'.die d = { x with idwBase := BitVec.ofNat 64 (s.mem.readN a 8), idwRemain := BitVec.ofNat 32 (s.mem.readN (a + 8) 4) } ∧ s'.mem = s.mem) ∧
    (x.idwEn = true → Answers s (.idwTableWrite d v) fun s' => only s' { x with idwEn := w.getLsbD 0 }) ∧
    (x.idwEn = false → Answers s (.idwTableWrite d v) fun s' =>
      let t := w.toNat % 2 ^ 52 / 2 ^ 20 * 2 ^ 20
      only s' { x with idwTable := t, idwEn := w.getLsbD 0 && isMem t && s.present (t / 2 ^ 48) }) ∧
    (isSDie d = false → exec (.migProfWrite d v) s = .next s) ∧
    (isSDie d = true → Answers s (.migProfWrite d v) fun s' => ∃ f,
      only s' { x with profile := ⟨f, w.toNat / 2 ^ 8 % 2 ^ 16, Nat.min 768 (w.toNat / 2 ^ 24 % 2 ^ 10), Nat.min 32 (w.toNat / 2 ^ 34 % 2 ^ 6),
        Nat.min 1024 (w.toNat / 2 ^ 40 % 2 ^ 11)⟩ } ∧
      f % 4 = 0 ∧ 4 ≤ f ∧ f ≤ 64 ∧ (4 ≤ w.toNat % 128 → w.toNat % 128 ≤ 64 → w.toNat % 128 ≤ f ∧ f < w.toNat % 128 + 4)) ∧
    Answers s (.exqCtlWrite d v) (fun s' =>
      only s' { x with exq := { x.exq with log2n := w.toNat / 2 % 32, en := w.getLsbD 0 && decide (8 ≤ w.toNat / 2 % 32 ∧ w.toNat / 2 % 32 ≤ 20) } }) ∧
    (isSDie d = true → exec (.arqCtlWrite d v) s = .next s) ∧
    (isSDie d = false → Answers s (.arqCtlWrite d v) fun s' =>
      only s' { x with arq := { x.arq with log2n := w.toNat / 2 % 32, en := w.getLsbD 0 && decide (4 ≤ w.toNat / 2 % 32 ∧ w.toNat / 2 % 32 ≤ 16) } })) ∧
  (∀ (s : State) (p k n r v : Nat),
    let w := BitVec.ofNat 64 v
    let rest := fun (s' : State) => s'.mem = s.mem ∧ s'.threads = s.threads ∧ s'.dies = s.dies
    (n < 4 → r < 64 → ∀ tx : Bool, (s.dieUp (portDie p n) = false →
        exec (.ringCtlWrite p (n * 128 + (if tx then 64 else 0) + r) v) s = .next s) ∧ (s.dieUp (portDie p n) = true →
      let get := fun (s : State) => (tget (if tx then (s.port p n).tx else (s.port p n).rx) r).getD Ring.init
      let q := get s
      Answers s (.ringCtlWrite p (n * 128 + (if tx then 64 else 0) + r) v) fun s' => rest s' ∧
        let y := { q with log2n := w.toNat / 2 % 32, en := w.getLsbD 0 && decide (4 ≤ w.toNat / 2 % 32 ∧ w.toNat / 2 % 32 ≤ 16) }
        get s' = if q.en then { q with en := y.en } else y)) ∧
    Answers s (.softSet k v) (fun s' => rest s' ∧ (∀ j, j ≠ k → s'.ctx j = s.ctx j) ∧
      s'.ctx k = { s.ctx k with irqSoft := (s.ctx k).irqSoft ||| BitVec.ofNat 16 (v / 65536) }) ∧
    Answers s (.softClr k v) (fun s' => rest s' ∧ (∀ j, j ≠ k → s'.ctx j = s.ctx j) ∧
      s'.ctx k = { s.ctx k with irqSoft := (s.ctx k).irqSoft &&& ~~~BitVec.ofNat 16 (v / 65536) }) ∧
    Answers s (.govCtlWrite k v) (fun s' => rest s' ∧ (∀ j, j ≠ k → s'.course j = s.course j) ∧
      s'.course k = { s.course k with govNext := some w }) ∧
    Answers s (.boostMaxWrite k v) (fun s' => rest s' ∧ (∀ j, j ≠ k → s'.course j = s.course j) ∧
      ∃ m, s'.course k = { s.course k with boostNext := some m } ∧ 1900 ≤ m ∧ m ≤ 2300 ∧
        (1900 ≤ w.toNat % 4096 → w.toNat % 4096 ≤ 2300 → m = w.toNat % 4096)) ∧
    (s.present p = false → exec (.timeStep p v) s = .next s) ∧
    (s.present p = true → Answers s (.timeStep p v) fun s' => rest s' ∧
      (0 ≤ w.toInt → s'.pkg p = { s.pkg p with time := (s.pkg p).time + w }) ∧
      (w.toInt < 0 → s'.pkg p = { s.pkg p with slew := (s.pkg p).slew + (-w.toInt).toNat })) ∧
    (let c := s.ctx k
     let late := s.present (k / 256) = true ∧ c.timecmp.toNat ≤ (s.timeOf (k / 256)).toNat
     (¬late → exec (.timecmpReached k) s = .next s) ∧
     (late → Answers s (.timecmpReached k) fun s' =>
      s'.pkgs = s.pkgs ∧ s'.mem = s.mem ∧
      (c.thread = none → s'.threads = s.threads) ∧
      ∀ m t, c.thread = some m → tget s.threads m = some t → t.place = .ctx (k / 256) (k % 256) →
        (t.wait ≠ some .wfi → s'.thr m = t) ∧
        (t.wait = some .wfi → c.irqEn.getLsbD 0 = true → MovesOn t (s'.thr m) 4 ∧ KeepsRegs t (s'.thr m) [] ∧ (s'.thr m).wait = none))))
end

