-- ==== Sys2Proof/Laws/Store.lean ====
section
/-!
SUPPORT. Tables and sparse memories: a read after a write, what a write leaves alone, and that every operation keeps the
canonical form (`Store.wf`).
-/

namespace Sys2Proof.Machine

/-! ### Tables -/

@[simp] theorem tget_tset_self {α : Type} (m : List (Nat × α)) (a : Nat) (x : α) : tget (tset m a x) a = some x := by
  induction m with
  | nil => simp [tset, tget]
  | cons c t ih =>
    obtain ⟨k, v⟩ := c
    simp only [tset]
    split
    · simp [tget]
    · split
      · simp [tget]
      · simp [tget, *]

theorem tget_tset_ne {α : Type} (m : List (Nat × α)) {a b : Nat} (x : α) (h : b ≠ a) :
    tget (tset m a x) b = tget m b := by
  induction m with
  | nil => simp [tset, tget, Ne.symm h]
  | cons c t ih =>
    obtain ⟨k, v⟩ := c
    simp only [tset]
    split
    · subst_vars; simp [tget, Ne.symm h]
    · split
      · simp [tget, Ne.symm h]
      · simp [tget, ih]

theorem tget_tset {α : Type} (m : List (Nat × α)) (a b : Nat) (x : α) :
    tget (tset m a x) b = if b = a then some x else tget m b := by
  split
  · subst_vars; simp
  · exact tget_tset_ne m x ‹_›

@[simp] theorem tget_tdel_self {α : Type} (m : List (Nat × α)) (a : Nat) : tget (tdel m a) a = none := by
  induction m with
  | nil => rfl
  | cons c t ih =>
    obtain ⟨k, v⟩ := c
    simp only [tdel]
    split
    · exact ih
    · simp [tget, *]

theorem tget_tdel_ne {α : Type} (m : List (Nat × α)) {a b : Nat} (h : b ≠ a) : tget (tdel m a) b = tget m b := by
  induction m with
  | nil => rfl
  | cons c t ih =>
    obtain ⟨k, v⟩ := c
    simp only [tdel]
    split
    · subst_vars; simp [tget, ih, Ne.symm h]
    · simp [tget, ih]

theorem tget_filter {α : Type} (m : List (Nat × α)) (p : Nat → Bool) (b : Nat) :
    tget (m.filter fun c => p c.1) b = if p b then tget m b else none := by
  induction m with
  | nil => simp [tget]
  | cons c t ih =>
    obtain ⟨k, v⟩ := c
    by_cases hk : p k
    · by_cases hb : k = b
      · subst hb; simp [tget, hk]
      · simp [tget, hk, hb, ih]
    · by_cases hb : k = b
      · subst hb; simp [hk, ih]
      · simp [tget, hk, hb, ih]

theorem tget_append {α : Type} (m n : List (Nat × α)) (b : Nat) : tget (m ++ n) b = (tget m b).or (tget n b) := by
  induction m with
  | nil => simp [tget]
  | cons c t ih =>
    obtain ⟨k, v⟩ := c
    by_cases hb : k = b <;> simp [tget, hb, ih]

theorem tget_map {α : Type} (m : List (Nat × α)) (f : Nat → α → α) (b : Nat) :
    tget (m.map fun c => (c.1, f c.1 c.2)) b = (tget m b).map (f b) := by
  induction m with
  | nil => rfl
  | cons c t ih =>
    obtain ⟨k, v⟩ := c
    by_cases hb : k = b
    · subst hb; simp [tget]
    · simp [tget, hb, ih]

/-! ### Single cells -/

@[simp] theorem Store.read_write_self {w : Nat} (m : Store w) (a : Nat) (v : BitVec w) : (m.write a v).read a = v := by
  simp only [Store.read, Store.write]
  split <;> simp_all

theorem Store.read_write_ne {w : Nat} (m : Store w) {a b : Nat} (v : BitVec w) (h : b ≠ a) :
    (m.write a v).read b = m.read b := by
  simp only [Store.read, Store.write]
  split
  · rw [tget_tdel_ne m h]
  · rw [tget_tset_ne m v h]

/-! ### Runs of cells -/

theorem tget_runCells_lt {w : Nat} (vs : List (BitVec w)) : ∀ (a b : Nat), b < a → tget (runCells a vs) b = none := by
  induction vs with
  | nil => intros; rfl
  | cons v t ih =>
    intro a b h
    simp only [runCells]
    split
    · exact ih _ _ (by omega)
    · simp [tget, ih (a + 1) b (by omega)]; omega

theorem tget_runCells {w : Nat} (vs : List (BitVec w)) :
    ∀ (a i : Nat), (tget (runCells a vs) (a + i)).getD 0 = vs[i]?.getD 0 := by
  induction vs with
  | nil => intros; rfl
  | cons v t ih =>
    intro a i
    cases i with
    | zero =>
      simp only [runCells, Nat.add_zero]
      split
      · simp [tget_runCells_lt t (a + 1) a (by omega), *]
      · simp [tget]
    | succ j =>
      have h := ih (a + 1) j
      rw [show a + 1 + j = a + (j + 1) by omega] at h
      simp only [runCells]
      split
      · simpa using h
      · simpa [tget] using h

theorem tget_runCells_ge {w : Nat} (vs : List (BitVec w)) :
    ∀ (a b : Nat), a + vs.length ≤ b → tget (runCells a vs) b = none := by
  induction vs with
  | nil => intros; rfl
  | cons v t ih =>
    intro a b h
    simp only [List.length_cons] at h
    simp only [runCells]
    split
    · exact ih _ _ (by omega)
    · simp [tget, ih (a + 1) b (by omega)]; omega

/-- A cell inside the run reads the value written there. -/
theorem Store.read_setRun_in {w : Nat} (m : Store w) (a i : Nat) (vs : List (BitVec w)) (h : i < vs.length) :
    (m.setRun a vs).read (a + i) = vs[i] := by
  have h1 : tget (m.filter fun c => decide (c.1 < a)) (a + i) = none := by
    rw [tget_filter m (fun k => decide (k < a))]; simp
  have h2 : tget (m.filter fun c => decide (a + vs.length ≤ c.1)) (a + i) = none := by
    rw [tget_filter m (fun k => decide (a + vs.length ≤ k))]; simp; omega
  have h3 := tget_runCells vs a i
  simp only [Store.read, Store.setRun, tget_append, h1, h2]
  simpa [h] using h3

/-- A cell outside the run reads as before. -/
theorem Store.read_setRun_out {w : Nat} (m : Store w) (a b : Nat) (vs : List (BitVec w))
    (h : b < a ∨ a + vs.length ≤ b) : (m.setRun a vs).read b = m.read b := by
  simp only [Store.read, Store.setRun, tget_append]
  rw [tget_filter m (fun k => decide (k < a)), tget_filter m (fun k => decide (a + vs.length ≤ k))]
  rcases h with h | h
  · rw [tget_runCells_lt vs a b h]
    simp [h, show ¬ a + vs.length ≤ b by omega]
  · rw [tget_runCells_ge vs a b h]
    simp [h, show ¬ b < a by omega]

@[simp] theorem bytesOf_length (n v : Nat) : (bytesOf n v).length = n := by
  induction n generalizing v with
  | zero => rfl
  | succ n ih => simp [bytesOf, ih]

@[simp] theorem natOf_bytesOf (n v : Nat) : natOf (bytesOf n v) = v % 256 ^ n := by
  induction n generalizing v with
  | zero => simp [bytesOf, natOf, Nat.mod_one]
  | succ n ih =>
    have h : v % 256 ^ (n + 1) = v % 256 + 256 * (v / 256 % 256 ^ n) := by
      rw [Nat.pow_succ, Nat.mul_comm (256 ^ n) 256, Nat.mod_mul]
    rw [bytesOf, natOf, ih, BitVec.toNat_ofNat, h]

theorem bytesOf_natOf (l : List Byte) : bytesOf l.length (natOf l) = l := by
  induction l with
  | nil => rfl
  | cons b t ih =>
    have hb := b.isLt
    have h1 : BitVec.ofNat 8 (b.toNat + 256 * natOf t) = b := by
      apply BitVec.eq_of_toNat_eq; simp; omega
    have h2 : (b.toNat + 256 * natOf t) / 256 = natOf t := by omega
    simp [bytesOf, natOf, h1, h2, ih]

theorem Store.run_eq {w : Nat} (m : Store w) (a n : Nat) : m.run a n = (List.range n).map fun i => m.read (a + i) := by
  simp only [Store.run]
  apply List.map_congr_left
  intro i hi
  simp only [List.mem_range] at hi
  simp only [Store.read]
  rw [tget_filter m (fun k => decide (a ≤ k ∧ k < a + n))]
  simp [hi]

/-- What was written is read back. -/
theorem Store.readN_writeN (m : Store 8) (a n v : Nat) : (m.writeN a n v).readN a n = v % 256 ^ n := by
  rw [Store.readN, Store.run_eq, Store.writeN]
  have h : ((List.range n).map fun i => (m.setRun a (bytesOf n v)).read (a + i)) = bytesOf n v := by
    apply List.ext_getElem (by simp)
    intro i h1 h2
    simp only [List.length_map, List.length_range] at h1
    simp [Store.read_setRun_in m a i (bytesOf n v) (by simpa using h1)]
  rw [h, natOf_bytesOf]

/-- A byte outside those written reads as before. -/
theorem Store.read_writeN_out (m : Store 8) (a n v b : Nat) (h : b < a ∨ a + n ≤ b) : (m.writeN a n v).read b = m.read b := by
  apply Store.read_setRun_out
  simpa using h

/-- Bytes outside those written read as before. -/
theorem Store.readN_writeN_out (m : Store 8) (a n v b k : Nat) (h : b + k ≤ a ∨ a + n ≤ b) :
    (m.writeN a n v).readN b k = m.readN b k := by
  rw [Store.readN, Store.readN, Store.run_eq, Store.run_eq]
  congr 1
  apply List.map_congr_left
  intro i hi
  simp only [List.mem_range] at hi
  exact Store.read_writeN_out m a n v (b + i) (by omega)

/-! ### The canonical form -/

theorem tsorted_iff {α : Type} (m : List (Nat × α)) : tsorted m = true ↔ m.Pairwise fun c d => c.1 < d.1 := by
  induction m with
  | nil => simp [tsorted]
  | cons c t ih =>
    cases t with
    | nil => simp [tsorted]
    | cons d u =>
      simp only [tsorted, Bool.and_eq_true, decide_eq_true_eq, ih]
      constructor
      · rintro ⟨h1, h2⟩
        refine List.Pairwise.cons ?_ h2
        intro e he
        rcases List.mem_cons.mp he with rfl | he
        · exact h1
        · exact Nat.lt_trans h1 ((List.pairwise_cons.mp h2).1 e he)
      · intro h
        exact ⟨(List.pairwise_cons.mp h).1 d (by simp), (List.pairwise_cons.mp h).2⟩

theorem Store.wf_iff {w : Nat} (m : Store w) :
    m.wf = true ↔ (m.Pairwise fun c d => c.1 < d.1) ∧ ∀ c ∈ m, c.2 ≠ 0 := by
  simp [Store.wf, tsorted_iff, List.all_eq_true]

theorem Store.wf_nil {w : Nat} : Store.wf ([] : Store w) = true := rfl

theorem Store.wf_filter {w : Nat} (m : Store w) (p : Nat × BitVec w → Bool) (h : m.wf = true) :
    Store.wf (w := w) (m.filter p) = true := by
  rw [Store.wf_iff] at *
  exact ⟨h.1.filter p, fun c hc => h.2 c (List.mem_of_mem_filter hc)⟩

theorem runCells_mem {w : Nat} (vs : List (BitVec w)) :
    ∀ (a : Nat), ∀ c ∈ runCells a vs, a ≤ c.1 ∧ c.1 < a + vs.length ∧ c.2 ≠ 0 := by
  induction vs with
  | nil => intro a c h; simp [runCells] at h
  | cons v t ih =>
    intro a c h
    simp only [runCells] at h
    simp only [List.length_cons]
    split at h
    · have := ih (a + 1) c h; exact ⟨by omega, by omega, this.2.2⟩
    · rcases List.mem_cons.mp h with rfl | h
      · exact ⟨Nat.le_refl _, by simp, ‹_›⟩
      · have := ih (a + 1) c h; exact ⟨by omega, by omega, this.2.2⟩

theorem runCells_sorted {w : Nat} (vs : List (BitVec w)) :
    ∀ (a : Nat), (runCells a vs).Pairwise fun c d => c.1 < d.1 := by
  induction vs with
  | nil => intro a; simp [runCells]
  | cons v t ih =>
    intro a
    simp only [runCells]
    split
    · exact ih _
    · refine List.Pairwise.cons ?_ (ih _)
      intro c hc
      have := runCells_mem t (a + 1) c hc
      show a < c.1
      omega

theorem Store.wf_setRun {w : Nat} (m : Store w) (a : Nat) (vs : List (BitVec w)) (h : m.wf = true) :
    (m.setRun a vs).wf = true := by
  rw [Store.wf_iff] at *
  constructor
  · rw [Store.setRun, List.pairwise_append, List.pairwise_append]
    refine ⟨h.1.filter _, ⟨runCells_sorted vs a, h.1.filter _, ?_⟩, ?_⟩
    · intro c hc d hd
      have h1 := runCells_mem vs a c hc
      have h2 := (List.mem_filter.mp hd).2
      simp only [decide_eq_true_eq] at h2
      omega
    · intro c hc d hd
      have h1 := (List.mem_filter.mp hc).2
      simp only [decide_eq_true_eq] at h1
      rcases List.mem_append.mp hd with hd | hd
      · have := runCells_mem vs a d hd; omega
      · have h2 := (List.mem_filter.mp hd).2
        simp only [decide_eq_true_eq] at h2
        omega
  · intro c hc
    simp only [Store.setRun, List.mem_append] at hc
    rcases hc with hc | hc | hc
    · exact h.2 c (List.mem_of_mem_filter hc)
    · exact (runCells_mem vs a c hc).2.2
    · exact h.2 c (List.mem_of_mem_filter hc)

theorem Store.wf_writeN (m : Store 8) (a n v : Nat) (h : m.wf = true) : (m.writeN a n v).wf = true :=
  Store.wf_setRun m a _ h

theorem Store.wf_clear {w : Nat} (m : Store w) (a n : Nat) (h : m.wf = true) : (m.clear a n).wf = true :=
  Store.wf_filter m _ h

theorem tdel_eq_filter {α : Type} (m : List (Nat × α)) (a : Nat) : tdel m a = m.filter fun c => c.1 != a := by
  induction m with
  | nil => rfl
  | cons c t ih =>
    obtain ⟨k, v⟩ := c
    by_cases h : k = a <;> simp [tdel, h, ih]

theorem tset_mem {α : Type} (m : List (Nat × α)) (a : Nat) (x : α) : ∀ c ∈ tset m a x, c = (a, x) ∨ c ∈ m := by
  induction m with
  | nil => intro c h; simp [tset] at h; simp [h]
  | cons d t ih =>
    obtain ⟨k, v⟩ := d
    intro c h
    simp only [tset] at h
    split at h
    · rcases List.mem_cons.mp h with h | h <;> simp [h]
    · split at h
      · rcases List.mem_cons.mp h with h | h
        · simp [h]
        · right; exact h
      · rcases List.mem_cons.mp h with h | h
        · simp [h]
        · rcases ih c h with h | h <;> simp [h]

theorem tset_sorted {α : Type} (m : List (Nat × α)) (a : Nat) (x : α) (h : m.Pairwise fun c d => c.1 < d.1) :
    (tset m a x).Pairwise fun c d => c.1 < d.1 := by
  induction m with
  | nil => simp [tset]
  | cons c t ih =>
    obtain ⟨k, v⟩ := c
    have h1 := List.pairwise_cons.mp h
    simp only [tset]
    split
    · subst_vars; exact List.Pairwise.cons h1.1 h1.2
    · split
      · refine List.Pairwise.cons ?_ h
        intro d hd
        rcases List.mem_cons.mp hd with rfl | hd
        · assumption
        · exact Nat.lt_trans ‹a < k› (h1.1 d hd)
      · refine List.Pairwise.cons ?_ (ih h1.2)
        intro d hd
        rcases tset_mem t a x d hd with rfl | hd
        · show k < a; omega
        · exact h1.1 d hd

theorem Store.wf_write {w : Nat} (m : Store w) (a : Nat) (v : BitVec w) (h : m.wf = true) : (m.write a v).wf = true := by
  rw [Store.write]
  split
  · rw [tdel_eq_filter]; exact Store.wf_filter m _ h
  · rw [Store.wf_iff] at *
    refine ⟨tset_sorted m a v h.1, ?_⟩
    intro c hc
    rcases tset_mem m a v c hc with rfl | hc
    · assumption
    · exact h.2 c hc

theorem applyPartial_wf (op : RedOp) (wide : Bool) (sec : Nat) (d : BitVec 512) (ws : BitVec 16) (m : Store 8) (h : m.wf = true) :
    (applyPartial op wide sec d ws m).wf = true := Store.wf_writeN m sec 64 _ h

end Sys2Proof.Machine
end

