-- ==== Sys2Proof/Laws/State.lean ====
section
/-!
SUPPORT. What each update of the state leaves alone, field by field, and what looking a unit up after changing it gives.
-/

namespace Sys2Proof.Machine

/-! ### setThr -/

@[simp] theorem State.setThr_mem (s : State) (k : Nat) (t : Thread) : (s.setThr k t).mem = s.mem := rfl
@[simp] theorem State.setThr_slabs (s : State) (k : Nat) (t : Thread) : (s.setThr k t).slabs = s.slabs := rfl
@[simp] theorem State.setThr_soft (s : State) (k : Nat) (t : Thread) : (s.setThr k t).soft = s.soft := rfl
@[simp] theorem State.setThr_poison (s : State) (k : Nat) (t : Thread) : (s.setThr k t).poison = s.poison := rfl
@[simp] theorem State.setThr_dir (s : State) (k : Nat) (t : Thread) : (s.setThr k t).dir = s.dir := rfl
@[simp] theorem State.setThr_copies (s : State) (k : Nat) (t : Thread) : (s.setThr k t).copies = s.copies := rfl
@[simp] theorem State.setThr_tlbs (s : State) (k : Nat) (t : Thread) : (s.setThr k t).tlbs = s.tlbs := rfl
@[simp] theorem State.setThr_walkCache (s : State) (k : Nat) (t : Thread) : (s.setThr k t).walkCache = s.walkCache := rfl
@[simp] theorem State.setThr_icache (s : State) (k : Nat) (t : Thread) : (s.setThr k t).icache = s.icache := rfl
@[simp] theorem State.setThr_locks (s : State) (k : Nat) (t : Thread) : (s.setThr k t).locks = s.locks := rfl
@[simp] theorem State.setThr_stores (s : State) (k : Nat) (t : Thread) : (s.setThr k t).stores = s.stores := rfl
@[simp] theorem State.setThr_views (s : State) (k : Nat) (t : Thread) : (s.setThr k t).views = s.views := rfl
@[simp] theorem State.setThr_delay (s : State) (k : Nat) (t : Thread) : (s.setThr k t).delay = s.delay := rfl
@[simp] theorem State.setThr_cur (s : State) (k : Nat) (t : Thread) : (s.setThr k t).cur = s.cur := rfl
@[simp] theorem State.setThr_gang (s : State) (k : Nat) (t : Thread) : (s.setThr k t).gang = s.gang := rfl
@[simp] theorem State.setThr_agenda (s : State) (k : Nat) (t : Thread) : (s.setThr k t).agenda = s.agenda := rfl
@[simp] theorem State.setThr_turn (s : State) (k : Nat) (t : Thread) : (s.setThr k t).turn = s.turn := rfl
@[simp] theorem State.setThr_wgs (s : State) (k : Nat) (t : Thread) : (s.setThr k t).wgs = s.wgs := rfl
@[simp] theorem State.setThr_groups (s : State) (k : Nat) (t : Thread) : (s.setThr k t).groups = s.groups := rfl
@[simp] theorem State.setThr_cores (s : State) (k : Nat) (t : Thread) : (s.setThr k t).cores = s.cores := rfl
@[simp] theorem State.setThr_courses (s : State) (k : Nat) (t : Thread) : (s.setThr k t).courses = s.courses := rfl
@[simp] theorem State.setThr_dies (s : State) (k : Nat) (t : Thread) : (s.setThr k t).dies = s.dies := rfl
@[simp] theorem State.setThr_ctxs (s : State) (k : Nat) (t : Thread) : (s.setThr k t).ctxs = s.ctxs := rfl
@[simp] theorem State.setThr_pkgs (s : State) (k : Nat) (t : Thread) : (s.setThr k t).pkgs = s.pkgs := rfl
@[simp] theorem State.setThr_units (s : State) (k : Nat) (t : Thread) : (s.setThr k t).units = s.units := rfl
@[simp] theorem State.setThr_walks (s : State) (k : Nat) (t : Thread) : (s.setThr k t).walks = s.walks := rfl
@[simp] theorem State.setThr_msgs (s : State) (k : Nat) (t : Thread) : (s.setThr k t).msgs = s.msgs := rfl
@[simp] theorem State.setThr_away (s : State) (k : Nat) (t : Thread) : (s.setThr k t).away = s.away := rfl
@[simp] theorem State.setThr_late (s : State) (k : Nat) (t : Thread) : (s.setThr k t).late = s.late := rfl
@[simp] theorem State.setThr_nextId (s : State) (k : Nat) (t : Thread) : (s.setThr k t).nextId = s.nextId := rfl
@[simp] theorem State.setThr_clk (s : State) (k : Nat) (t : Thread) : (s.setThr k t).clk = s.clk := rfl
@[simp] theorem State.setThr_seq (s : State) (k : Nat) (t : Thread) : (s.setThr k t).seq = s.seq := rfl

/-! ### updThr -/

@[simp] theorem State.updThr_mem (s : State) (k : Nat) (f : Thread → Thread) : (s.updThr k f).mem = s.mem := rfl
@[simp] theorem State.updThr_slabs (s : State) (k : Nat) (f : Thread → Thread) : (s.updThr k f).slabs = s.slabs := rfl
@[simp] theorem State.updThr_soft (s : State) (k : Nat) (f : Thread → Thread) : (s.updThr k f).soft = s.soft := rfl
@[simp] theorem State.updThr_poison (s : State) (k : Nat) (f : Thread → Thread) : (s.updThr k f).poison = s.poison := rfl
@[simp] theorem State.updThr_dir (s : State) (k : Nat) (f : Thread → Thread) : (s.updThr k f).dir = s.dir := rfl
@[simp] theorem State.updThr_copies (s : State) (k : Nat) (f : Thread → Thread) : (s.updThr k f).copies = s.copies := rfl
@[simp] theorem State.updThr_tlbs (s : State) (k : Nat) (f : Thread → Thread) : (s.updThr k f).tlbs = s.tlbs := rfl
@[simp] theorem State.updThr_walkCache (s : State) (k : Nat) (f : Thread → Thread) : (s.updThr k f).walkCache = s.walkCache := rfl
@[simp] theorem State.updThr_icache (s : State) (k : Nat) (f : Thread → Thread) : (s.updThr k f).icache = s.icache := rfl
@[simp] theorem State.updThr_locks (s : State) (k : Nat) (f : Thread → Thread) : (s.updThr k f).locks = s.locks := rfl
@[simp] theorem State.updThr_stores (s : State) (k : Nat) (f : Thread → Thread) : (s.updThr k f).stores = s.stores := rfl
@[simp] theorem State.updThr_views (s : State) (k : Nat) (f : Thread → Thread) : (s.updThr k f).views = s.views := rfl
@[simp] theorem State.updThr_delay (s : State) (k : Nat) (f : Thread → Thread) : (s.updThr k f).delay = s.delay := rfl
@[simp] theorem State.updThr_cur (s : State) (k : Nat) (f : Thread → Thread) : (s.updThr k f).cur = s.cur := rfl
@[simp] theorem State.updThr_gang (s : State) (k : Nat) (f : Thread → Thread) : (s.updThr k f).gang = s.gang := rfl
@[simp] theorem State.updThr_agenda (s : State) (k : Nat) (f : Thread → Thread) : (s.updThr k f).agenda = s.agenda := rfl
@[simp] theorem State.updThr_turn (s : State) (k : Nat) (f : Thread → Thread) : (s.updThr k f).turn = s.turn := rfl
@[simp] theorem State.updThr_wgs (s : State) (k : Nat) (f : Thread → Thread) : (s.updThr k f).wgs = s.wgs := rfl
@[simp] theorem State.updThr_groups (s : State) (k : Nat) (f : Thread → Thread) : (s.updThr k f).groups = s.groups := rfl
@[simp] theorem State.updThr_cores (s : State) (k : Nat) (f : Thread → Thread) : (s.updThr k f).cores = s.cores := rfl
@[simp] theorem State.updThr_courses (s : State) (k : Nat) (f : Thread → Thread) : (s.updThr k f).courses = s.courses := rfl
@[simp] theorem State.updThr_dies (s : State) (k : Nat) (f : Thread → Thread) : (s.updThr k f).dies = s.dies := rfl
@[simp] theorem State.updThr_ctxs (s : State) (k : Nat) (f : Thread → Thread) : (s.updThr k f).ctxs = s.ctxs := rfl
@[simp] theorem State.updThr_pkgs (s : State) (k : Nat) (f : Thread → Thread) : (s.updThr k f).pkgs = s.pkgs := rfl
@[simp] theorem State.updThr_units (s : State) (k : Nat) (f : Thread → Thread) : (s.updThr k f).units = s.units := rfl
@[simp] theorem State.updThr_walks (s : State) (k : Nat) (f : Thread → Thread) : (s.updThr k f).walks = s.walks := rfl
@[simp] theorem State.updThr_msgs (s : State) (k : Nat) (f : Thread → Thread) : (s.updThr k f).msgs = s.msgs := rfl
@[simp] theorem State.updThr_away (s : State) (k : Nat) (f : Thread → Thread) : (s.updThr k f).away = s.away := rfl
@[simp] theorem State.updThr_late (s : State) (k : Nat) (f : Thread → Thread) : (s.updThr k f).late = s.late := rfl
@[simp] theorem State.updThr_nextId (s : State) (k : Nat) (f : Thread → Thread) : (s.updThr k f).nextId = s.nextId := rfl
@[simp] theorem State.updThr_clk (s : State) (k : Nat) (f : Thread → Thread) : (s.updThr k f).clk = s.clk := rfl
@[simp] theorem State.updThr_seq (s : State) (k : Nat) (f : Thread → Thread) : (s.updThr k f).seq = s.seq := rfl

/-! ### updMe -/

@[simp] theorem State.updMe_mem (s : State) (f : Thread → Thread) : (s.updMe f).mem = s.mem := rfl
@[simp] theorem State.updMe_slabs (s : State) (f : Thread → Thread) : (s.updMe f).slabs = s.slabs := rfl
@[simp] theorem State.updMe_soft (s : State) (f : Thread → Thread) : (s.updMe f).soft = s.soft := rfl
@[simp] theorem State.updMe_poison (s : State) (f : Thread → Thread) : (s.updMe f).poison = s.poison := rfl
@[simp] theorem State.updMe_dir (s : State) (f : Thread → Thread) : (s.updMe f).dir = s.dir := rfl
@[simp] theorem State.updMe_copies (s : State) (f : Thread → Thread) : (s.updMe f).copies = s.copies := rfl
@[simp] theorem State.updMe_tlbs (s : State) (f : Thread → Thread) : (s.updMe f).tlbs = s.tlbs := rfl
@[simp] theorem State.updMe_walkCache (s : State) (f : Thread → Thread) : (s.updMe f).walkCache = s.walkCache := rfl
@[simp] theorem State.updMe_icache (s : State) (f : Thread → Thread) : (s.updMe f).icache = s.icache := rfl
@[simp] theorem State.updMe_locks (s : State) (f : Thread → Thread) : (s.updMe f).locks = s.locks := rfl
@[simp] theorem State.updMe_stores (s : State) (f : Thread → Thread) : (s.updMe f).stores = s.stores := rfl
@[simp] theorem State.updMe_views (s : State) (f : Thread → Thread) : (s.updMe f).views = s.views := rfl
@[simp] theorem State.updMe_delay (s : State) (f : Thread → Thread) : (s.updMe f).delay = s.delay := rfl
@[simp] theorem State.updMe_cur (s : State) (f : Thread → Thread) : (s.updMe f).cur = s.cur := rfl
@[simp] theorem State.updMe_gang (s : State) (f : Thread → Thread) : (s.updMe f).gang = s.gang := rfl
@[simp] theorem State.updMe_agenda (s : State) (f : Thread → Thread) : (s.updMe f).agenda = s.agenda := rfl
@[simp] theorem State.updMe_turn (s : State) (f : Thread → Thread) : (s.updMe f).turn = s.turn := rfl
@[simp] theorem State.updMe_wgs (s : State) (f : Thread → Thread) : (s.updMe f).wgs = s.wgs := rfl
@[simp] theorem State.updMe_groups (s : State) (f : Thread → Thread) : (s.updMe f).groups = s.groups := rfl
@[simp] theorem State.updMe_cores (s : State) (f : Thread → Thread) : (s.updMe f).cores = s.cores := rfl
@[simp] theorem State.updMe_courses (s : State) (f : Thread → Thread) : (s.updMe f).courses = s.courses := rfl
@[simp] theorem State.updMe_dies (s : State) (f : Thread → Thread) : (s.updMe f).dies = s.dies := rfl
@[simp] theorem State.updMe_ctxs (s : State) (f : Thread → Thread) : (s.updMe f).ctxs = s.ctxs := rfl
@[simp] theorem State.updMe_pkgs (s : State) (f : Thread → Thread) : (s.updMe f).pkgs = s.pkgs := rfl
@[simp] theorem State.updMe_units (s : State) (f : Thread → Thread) : (s.updMe f).units = s.units := rfl
@[simp] theorem State.updMe_walks (s : State) (f : Thread → Thread) : (s.updMe f).walks = s.walks := rfl
@[simp] theorem State.updMe_msgs (s : State) (f : Thread → Thread) : (s.updMe f).msgs = s.msgs := rfl
@[simp] theorem State.updMe_away (s : State) (f : Thread → Thread) : (s.updMe f).away = s.away := rfl
@[simp] theorem State.updMe_late (s : State) (f : Thread → Thread) : (s.updMe f).late = s.late := rfl
@[simp] theorem State.updMe_nextId (s : State) (f : Thread → Thread) : (s.updMe f).nextId = s.nextId := rfl
@[simp] theorem State.updMe_clk (s : State) (f : Thread → Thread) : (s.updMe f).clk = s.clk := rfl
@[simp] theorem State.updMe_seq (s : State) (f : Thread → Thread) : (s.updMe f).seq = s.seq := rfl

/-! ### setWg -/

@[simp] theorem State.setWg_mem (s : State) (k : Nat) (w : WG) : (s.setWg k w).mem = s.mem := rfl
@[simp] theorem State.setWg_slabs (s : State) (k : Nat) (w : WG) : (s.setWg k w).slabs = s.slabs := rfl
@[simp] theorem State.setWg_soft (s : State) (k : Nat) (w : WG) : (s.setWg k w).soft = s.soft := rfl
@[simp] theorem State.setWg_poison (s : State) (k : Nat) (w : WG) : (s.setWg k w).poison = s.poison := rfl
@[simp] theorem State.setWg_dir (s : State) (k : Nat) (w : WG) : (s.setWg k w).dir = s.dir := rfl
@[simp] theorem State.setWg_copies (s : State) (k : Nat) (w : WG) : (s.setWg k w).copies = s.copies := rfl
@[simp] theorem State.setWg_tlbs (s : State) (k : Nat) (w : WG) : (s.setWg k w).tlbs = s.tlbs := rfl
@[simp] theorem State.setWg_walkCache (s : State) (k : Nat) (w : WG) : (s.setWg k w).walkCache = s.walkCache := rfl
@[simp] theorem State.setWg_icache (s : State) (k : Nat) (w : WG) : (s.setWg k w).icache = s.icache := rfl
@[simp] theorem State.setWg_locks (s : State) (k : Nat) (w : WG) : (s.setWg k w).locks = s.locks := rfl
@[simp] theorem State.setWg_stores (s : State) (k : Nat) (w : WG) : (s.setWg k w).stores = s.stores := rfl
@[simp] theorem State.setWg_views (s : State) (k : Nat) (w : WG) : (s.setWg k w).views = s.views := rfl
@[simp] theorem State.setWg_delay (s : State) (k : Nat) (w : WG) : (s.setWg k w).delay = s.delay := rfl
@[simp] theorem State.setWg_threads (s : State) (k : Nat) (w : WG) : (s.setWg k w).threads = s.threads := rfl
@[simp] theorem State.setWg_cur (s : State) (k : Nat) (w : WG) : (s.setWg k w).cur = s.cur := rfl
@[simp] theorem State.setWg_gang (s : State) (k : Nat) (w : WG) : (s.setWg k w).gang = s.gang := rfl
@[simp] theorem State.setWg_agenda (s : State) (k : Nat) (w : WG) : (s.setWg k w).agenda = s.agenda := rfl
@[simp] theorem State.setWg_turn (s : State) (k : Nat) (w : WG) : (s.setWg k w).turn = s.turn := rfl
@[simp] theorem State.setWg_groups (s : State) (k : Nat) (w : WG) : (s.setWg k w).groups = s.groups := rfl
@[simp] theorem State.setWg_cores (s : State) (k : Nat) (w : WG) : (s.setWg k w).cores = s.cores := rfl
@[simp] theorem State.setWg_courses (s : State) (k : Nat) (w : WG) : (s.setWg k w).courses = s.courses := rfl
@[simp] theorem State.setWg_dies (s : State) (k : Nat) (w : WG) : (s.setWg k w).dies = s.dies := rfl
@[simp] theorem State.setWg_ctxs (s : State) (k : Nat) (w : WG) : (s.setWg k w).ctxs = s.ctxs := rfl
@[simp] theorem State.setWg_pkgs (s : State) (k : Nat) (w : WG) : (s.setWg k w).pkgs = s.pkgs := rfl
@[simp] theorem State.setWg_units (s : State) (k : Nat) (w : WG) : (s.setWg k w).units = s.units := rfl
@[simp] theorem State.setWg_walks (s : State) (k : Nat) (w : WG) : (s.setWg k w).walks = s.walks := rfl
@[simp] theorem State.setWg_msgs (s : State) (k : Nat) (w : WG) : (s.setWg k w).msgs = s.msgs := rfl
@[simp] theorem State.setWg_away (s : State) (k : Nat) (w : WG) : (s.setWg k w).away = s.away := rfl
@[simp] theorem State.setWg_late (s : State) (k : Nat) (w : WG) : (s.setWg k w).late = s.late := rfl
@[simp] theorem State.setWg_nextId (s : State) (k : Nat) (w : WG) : (s.setWg k w).nextId = s.nextId := rfl
@[simp] theorem State.setWg_clk (s : State) (k : Nat) (w : WG) : (s.setWg k w).clk = s.clk := rfl
@[simp] theorem State.setWg_seq (s : State) (k : Nat) (w : WG) : (s.setWg k w).seq = s.seq := rfl

/-! ### updWg -/

@[simp] theorem State.updWg_mem (s : State) (k : Nat) (f : WG → WG) : (s.updWg k f).mem = s.mem := rfl
@[simp] theorem State.updWg_slabs (s : State) (k : Nat) (f : WG → WG) : (s.updWg k f).slabs = s.slabs := rfl
@[simp] theorem State.updWg_soft (s : State) (k : Nat) (f : WG → WG) : (s.updWg k f).soft = s.soft := rfl
@[simp] theorem State.updWg_poison (s : State) (k : Nat) (f : WG → WG) : (s.updWg k f).poison = s.poison := rfl
@[simp] theorem State.updWg_dir (s : State) (k : Nat) (f : WG → WG) : (s.updWg k f).dir = s.dir := rfl
@[simp] theorem State.updWg_copies (s : State) (k : Nat) (f : WG → WG) : (s.updWg k f).copies = s.copies := rfl
@[simp] theorem State.updWg_tlbs (s : State) (k : Nat) (f : WG → WG) : (s.updWg k f).tlbs = s.tlbs := rfl
@[simp] theorem State.updWg_walkCache (s : State) (k : Nat) (f : WG → WG) : (s.updWg k f).walkCache = s.walkCache := rfl
@[simp] theorem State.updWg_icache (s : State) (k : Nat) (f : WG → WG) : (s.updWg k f).icache = s.icache := rfl
@[simp] theorem State.updWg_locks (s : State) (k : Nat) (f : WG → WG) : (s.updWg k f).locks = s.locks := rfl
@[simp] theorem State.updWg_stores (s : State) (k : Nat) (f : WG → WG) : (s.updWg k f).stores = s.stores := rfl
@[simp] theorem State.updWg_views (s : State) (k : Nat) (f : WG → WG) : (s.updWg k f).views = s.views := rfl
@[simp] theorem State.updWg_delay (s : State) (k : Nat) (f : WG → WG) : (s.updWg k f).delay = s.delay := rfl
@[simp] theorem State.updWg_threads (s : State) (k : Nat) (f : WG → WG) : (s.updWg k f).threads = s.threads := rfl
@[simp] theorem State.updWg_cur (s : State) (k : Nat) (f : WG → WG) : (s.updWg k f).cur = s.cur := rfl
@[simp] theorem State.updWg_gang (s : State) (k : Nat) (f : WG → WG) : (s.updWg k f).gang = s.gang := rfl
@[simp] theorem State.updWg_agenda (s : State) (k : Nat) (f : WG → WG) : (s.updWg k f).agenda = s.agenda := rfl
@[simp] theorem State.updWg_turn (s : State) (k : Nat) (f : WG → WG) : (s.updWg k f).turn = s.turn := rfl
@[simp] theorem State.updWg_groups (s : State) (k : Nat) (f : WG → WG) : (s.updWg k f).groups = s.groups := rfl
@[simp] theorem State.updWg_cores (s : State) (k : Nat) (f : WG → WG) : (s.updWg k f).cores = s.cores := rfl
@[simp] theorem State.updWg_courses (s : State) (k : Nat) (f : WG → WG) : (s.updWg k f).courses = s.courses := rfl
@[simp] theorem State.updWg_dies (s : State) (k : Nat) (f : WG → WG) : (s.updWg k f).dies = s.dies := rfl
@[simp] theorem State.updWg_ctxs (s : State) (k : Nat) (f : WG → WG) : (s.updWg k f).ctxs = s.ctxs := rfl
@[simp] theorem State.updWg_pkgs (s : State) (k : Nat) (f : WG → WG) : (s.updWg k f).pkgs = s.pkgs := rfl
@[simp] theorem State.updWg_units (s : State) (k : Nat) (f : WG → WG) : (s.updWg k f).units = s.units := rfl
@[simp] theorem State.updWg_walks (s : State) (k : Nat) (f : WG → WG) : (s.updWg k f).walks = s.walks := rfl
@[simp] theorem State.updWg_msgs (s : State) (k : Nat) (f : WG → WG) : (s.updWg k f).msgs = s.msgs := rfl
@[simp] theorem State.updWg_away (s : State) (k : Nat) (f : WG → WG) : (s.updWg k f).away = s.away := rfl
@[simp] theorem State.updWg_late (s : State) (k : Nat) (f : WG → WG) : (s.updWg k f).late = s.late := rfl
@[simp] theorem State.updWg_nextId (s : State) (k : Nat) (f : WG → WG) : (s.updWg k f).nextId = s.nextId := rfl
@[simp] theorem State.updWg_clk (s : State) (k : Nat) (f : WG → WG) : (s.updWg k f).clk = s.clk := rfl
@[simp] theorem State.updWg_seq (s : State) (k : Nat) (f : WG → WG) : (s.updWg k f).seq = s.seq := rfl

/-! ### updCore -/

@[simp] theorem State.updCore_mem (s : State) (k : Nat) (f : Core → Core) : (s.updCore k f).mem = s.mem := rfl
@[simp] theorem State.updCore_slabs (s : State) (k : Nat) (f : Core → Core) : (s.updCore k f).slabs = s.slabs := rfl
@[simp] theorem State.updCore_soft (s : State) (k : Nat) (f : Core → Core) : (s.updCore k f).soft = s.soft := rfl
@[simp] theorem State.updCore_poison (s : State) (k : Nat) (f : Core → Core) : (s.updCore k f).poison = s.poison := rfl
@[simp] theorem State.updCore_dir (s : State) (k : Nat) (f : Core → Core) : (s.updCore k f).dir = s.dir := rfl
@[simp] theorem State.updCore_copies (s : State) (k : Nat) (f : Core → Core) : (s.updCore k f).copies = s.copies := rfl
@[simp] theorem State.updCore_tlbs (s : State) (k : Nat) (f : Core → Core) : (s.updCore k f).tlbs = s.tlbs := rfl
@[simp] theorem State.updCore_walkCache (s : State) (k : Nat) (f : Core → Core) : (s.updCore k f).walkCache = s.walkCache := rfl
@[simp] theorem State.updCore_icache (s : State) (k : Nat) (f : Core → Core) : (s.updCore k f).icache = s.icache := rfl
@[simp] theorem State.updCore_locks (s : State) (k : Nat) (f : Core → Core) : (s.updCore k f).locks = s.locks := rfl
@[simp] theorem State.updCore_stores (s : State) (k : Nat) (f : Core → Core) : (s.updCore k f).stores = s.stores := rfl
@[simp] theorem State.updCore_views (s : State) (k : Nat) (f : Core → Core) : (s.updCore k f).views = s.views := rfl
@[simp] theorem State.updCore_delay (s : State) (k : Nat) (f : Core → Core) : (s.updCore k f).delay = s.delay := rfl
@[simp] theorem State.updCore_threads (s : State) (k : Nat) (f : Core → Core) : (s.updCore k f).threads = s.threads := rfl
@[simp] theorem State.updCore_cur (s : State) (k : Nat) (f : Core → Core) : (s.updCore k f).cur = s.cur := rfl
@[simp] theorem State.updCore_gang (s : State) (k : Nat) (f : Core → Core) : (s.updCore k f).gang = s.gang := rfl
@[simp] theorem State.updCore_agenda (s : State) (k : Nat) (f : Core → Core) : (s.updCore k f).agenda = s.agenda := rfl
@[simp] theorem State.updCore_turn (s : State) (k : Nat) (f : Core → Core) : (s.updCore k f).turn = s.turn := rfl
@[simp] theorem State.updCore_wgs (s : State) (k : Nat) (f : Core → Core) : (s.updCore k f).wgs = s.wgs := rfl
@[simp] theorem State.updCore_groups (s : State) (k : Nat) (f : Core → Core) : (s.updCore k f).groups = s.groups := rfl
@[simp] theorem State.updCore_courses (s : State) (k : Nat) (f : Core → Core) : (s.updCore k f).courses = s.courses := rfl
@[simp] theorem State.updCore_dies (s : State) (k : Nat) (f : Core → Core) : (s.updCore k f).dies = s.dies := rfl
@[simp] theorem State.updCore_ctxs (s : State) (k : Nat) (f : Core → Core) : (s.updCore k f).ctxs = s.ctxs := rfl
@[simp] theorem State.updCore_pkgs (s : State) (k : Nat) (f : Core → Core) : (s.updCore k f).pkgs = s.pkgs := rfl
@[simp] theorem State.updCore_units (s : State) (k : Nat) (f : Core → Core) : (s.updCore k f).units = s.units := rfl
@[simp] theorem State.updCore_walks (s : State) (k : Nat) (f : Core → Core) : (s.updCore k f).walks = s.walks := rfl
@[simp] theorem State.updCore_msgs (s : State) (k : Nat) (f : Core → Core) : (s.updCore k f).msgs = s.msgs := rfl
@[simp] theorem State.updCore_away (s : State) (k : Nat) (f : Core → Core) : (s.updCore k f).away = s.away := rfl
@[simp] theorem State.updCore_late (s : State) (k : Nat) (f : Core → Core) : (s.updCore k f).late = s.late := rfl
@[simp] theorem State.updCore_nextId (s : State) (k : Nat) (f : Core → Core) : (s.updCore k f).nextId = s.nextId := rfl
@[simp] theorem State.updCore_clk (s : State) (k : Nat) (f : Core → Core) : (s.updCore k f).clk = s.clk := rfl
@[simp] theorem State.updCore_seq (s : State) (k : Nat) (f : Core → Core) : (s.updCore k f).seq = s.seq := rfl

/-! ### updCourse -/

@[simp] theorem State.updCourse_mem (s : State) (k : Nat) (f : Course → Course) : (s.updCourse k f).mem = s.mem := rfl
@[simp] theorem State.updCourse_slabs (s : State) (k : Nat) (f : Course → Course) : (s.updCourse k f).slabs = s.slabs := rfl
@[simp] theorem State.updCourse_soft (s : State) (k : Nat) (f : Course → Course) : (s.updCourse k f).soft = s.soft := rfl
@[simp] theorem State.updCourse_poison (s : State) (k : Nat) (f : Course → Course) : (s.updCourse k f).poison = s.poison := rfl
@[simp] theorem State.updCourse_dir (s : State) (k : Nat) (f : Course → Course) : (s.updCourse k f).dir = s.dir := rfl
@[simp] theorem State.updCourse_copies (s : State) (k : Nat) (f : Course → Course) : (s.updCourse k f).copies = s.copies := rfl
@[simp] theorem State.updCourse_tlbs (s : State) (k : Nat) (f : Course → Course) : (s.updCourse k f).tlbs = s.tlbs := rfl
@[simp] theorem State.updCourse_walkCache (s : State) (k : Nat) (f : Course → Course) : (s.updCourse k f).walkCache = s.walkCache := rfl
@[simp] theorem State.updCourse_icache (s : State) (k : Nat) (f : Course → Course) : (s.updCourse k f).icache = s.icache := rfl
@[simp] theorem State.updCourse_locks (s : State) (k : Nat) (f : Course → Course) : (s.updCourse k f).locks = s.locks := rfl
@[simp] theorem State.updCourse_stores (s : State) (k : Nat) (f : Course → Course) : (s.updCourse k f).stores = s.stores := rfl
@[simp] theorem State.updCourse_views (s : State) (k : Nat) (f : Course → Course) : (s.updCourse k f).views = s.views := rfl
@[simp] theorem State.updCourse_delay (s : State) (k : Nat) (f : Course → Course) : (s.updCourse k f).delay = s.delay := rfl
@[simp] theorem State.updCourse_threads (s : State) (k : Nat) (f : Course → Course) : (s.updCourse k f).threads = s.threads := rfl
@[simp] theorem State.updCourse_cur (s : State) (k : Nat) (f : Course → Course) : (s.updCourse k f).cur = s.cur := rfl
@[simp] theorem State.updCourse_gang (s : State) (k : Nat) (f : Course → Course) : (s.updCourse k f).gang = s.gang := rfl
@[simp] theorem State.updCourse_agenda (s : State) (k : Nat) (f : Course → Course) : (s.updCourse k f).agenda = s.agenda := rfl
@[simp] theorem State.updCourse_turn (s : State) (k : Nat) (f : Course → Course) : (s.updCourse k f).turn = s.turn := rfl
@[simp] theorem State.updCourse_wgs (s : State) (k : Nat) (f : Course → Course) : (s.updCourse k f).wgs = s.wgs := rfl
@[simp] theorem State.updCourse_groups (s : State) (k : Nat) (f : Course → Course) : (s.updCourse k f).groups = s.groups := rfl
@[simp] theorem State.updCourse_cores (s : State) (k : Nat) (f : Course → Course) : (s.updCourse k f).cores = s.cores := rfl
@[simp] theorem State.updCourse_dies (s : State) (k : Nat) (f : Course → Course) : (s.updCourse k f).dies = s.dies := rfl
@[simp] theorem State.updCourse_ctxs (s : State) (k : Nat) (f : Course → Course) : (s.updCourse k f).ctxs = s.ctxs := rfl
@[simp] theorem State.updCourse_pkgs (s : State) (k : Nat) (f : Course → Course) : (s.updCourse k f).pkgs = s.pkgs := rfl
@[simp] theorem State.updCourse_units (s : State) (k : Nat) (f : Course → Course) : (s.updCourse k f).units = s.units := rfl
@[simp] theorem State.updCourse_walks (s : State) (k : Nat) (f : Course → Course) : (s.updCourse k f).walks = s.walks := rfl
@[simp] theorem State.updCourse_msgs (s : State) (k : Nat) (f : Course → Course) : (s.updCourse k f).msgs = s.msgs := rfl
@[simp] theorem State.updCourse_away (s : State) (k : Nat) (f : Course → Course) : (s.updCourse k f).away = s.away := rfl
@[simp] theorem State.updCourse_late (s : State) (k : Nat) (f : Course → Course) : (s.updCourse k f).late = s.late := rfl
@[simp] theorem State.updCourse_nextId (s : State) (k : Nat) (f : Course → Course) : (s.updCourse k f).nextId = s.nextId := rfl
@[simp] theorem State.updCourse_clk (s : State) (k : Nat) (f : Course → Course) : (s.updCourse k f).clk = s.clk := rfl
@[simp] theorem State.updCourse_seq (s : State) (k : Nat) (f : Course → Course) : (s.updCourse k f).seq = s.seq := rfl

/-! ### updDie -/

@[simp] theorem State.updDie_mem (s : State) (k : Nat) (f : Die → Die) : (s.updDie k f).mem = s.mem := rfl
@[simp] theorem State.updDie_slabs (s : State) (k : Nat) (f : Die → Die) : (s.updDie k f).slabs = s.slabs := rfl
@[simp] theorem State.updDie_soft (s : State) (k : Nat) (f : Die → Die) : (s.updDie k f).soft = s.soft := rfl
@[simp] theorem State.updDie_poison (s : State) (k : Nat) (f : Die → Die) : (s.updDie k f).poison = s.poison := rfl
@[simp] theorem State.updDie_dir (s : State) (k : Nat) (f : Die → Die) : (s.updDie k f).dir = s.dir := rfl
@[simp] theorem State.updDie_copies (s : State) (k : Nat) (f : Die → Die) : (s.updDie k f).copies = s.copies := rfl
@[simp] theorem State.updDie_tlbs (s : State) (k : Nat) (f : Die → Die) : (s.updDie k f).tlbs = s.tlbs := rfl
@[simp] theorem State.updDie_walkCache (s : State) (k : Nat) (f : Die → Die) : (s.updDie k f).walkCache = s.walkCache := rfl
@[simp] theorem State.updDie_icache (s : State) (k : Nat) (f : Die → Die) : (s.updDie k f).icache = s.icache := rfl
@[simp] theorem State.updDie_locks (s : State) (k : Nat) (f : Die → Die) : (s.updDie k f).locks = s.locks := rfl
@[simp] theorem State.updDie_stores (s : State) (k : Nat) (f : Die → Die) : (s.updDie k f).stores = s.stores := rfl
@[simp] theorem State.updDie_views (s : State) (k : Nat) (f : Die → Die) : (s.updDie k f).views = s.views := rfl
@[simp] theorem State.updDie_delay (s : State) (k : Nat) (f : Die → Die) : (s.updDie k f).delay = s.delay := rfl
@[simp] theorem State.updDie_threads (s : State) (k : Nat) (f : Die → Die) : (s.updDie k f).threads = s.threads := rfl
@[simp] theorem State.updDie_cur (s : State) (k : Nat) (f : Die → Die) : (s.updDie k f).cur = s.cur := rfl
@[simp] theorem State.updDie_gang (s : State) (k : Nat) (f : Die → Die) : (s.updDie k f).gang = s.gang := rfl
@[simp] theorem State.updDie_agenda (s : State) (k : Nat) (f : Die → Die) : (s.updDie k f).agenda = s.agenda := rfl
@[simp] theorem State.updDie_turn (s : State) (k : Nat) (f : Die → Die) : (s.updDie k f).turn = s.turn := rfl
@[simp] theorem State.updDie_wgs (s : State) (k : Nat) (f : Die → Die) : (s.updDie k f).wgs = s.wgs := rfl
@[simp] theorem State.updDie_groups (s : State) (k : Nat) (f : Die → Die) : (s.updDie k f).groups = s.groups := rfl
@[simp] theorem State.updDie_cores (s : State) (k : Nat) (f : Die → Die) : (s.updDie k f).cores = s.cores := rfl
@[simp] theorem State.updDie_courses (s : State) (k : Nat) (f : Die → Die) : (s.updDie k f).courses = s.courses := rfl
@[simp] theorem State.updDie_ctxs (s : State) (k : Nat) (f : Die → Die) : (s.updDie k f).ctxs = s.ctxs := rfl
@[simp] theorem State.updDie_pkgs (s : State) (k : Nat) (f : Die → Die) : (s.updDie k f).pkgs = s.pkgs := rfl
@[simp] theorem State.updDie_units (s : State) (k : Nat) (f : Die → Die) : (s.updDie k f).units = s.units := rfl
@[simp] theorem State.updDie_walks (s : State) (k : Nat) (f : Die → Die) : (s.updDie k f).walks = s.walks := rfl
@[simp] theorem State.updDie_msgs (s : State) (k : Nat) (f : Die → Die) : (s.updDie k f).msgs = s.msgs := rfl
@[simp] theorem State.updDie_away (s : State) (k : Nat) (f : Die → Die) : (s.updDie k f).away = s.away := rfl
@[simp] theorem State.updDie_late (s : State) (k : Nat) (f : Die → Die) : (s.updDie k f).late = s.late := rfl
@[simp] theorem State.updDie_nextId (s : State) (k : Nat) (f : Die → Die) : (s.updDie k f).nextId = s.nextId := rfl
@[simp] theorem State.updDie_clk (s : State) (k : Nat) (f : Die → Die) : (s.updDie k f).clk = s.clk := rfl
@[simp] theorem State.updDie_seq (s : State) (k : Nat) (f : Die → Die) : (s.updDie k f).seq = s.seq := rfl

/-! ### updCtx -/

@[simp] theorem State.updCtx_mem (s : State) (k : Nat) (f : Ctx → Ctx) : (s.updCtx k f).mem = s.mem := rfl
@[simp] theorem State.updCtx_slabs (s : State) (k : Nat) (f : Ctx → Ctx) : (s.updCtx k f).slabs = s.slabs := rfl
@[simp] theorem State.updCtx_soft (s : State) (k : Nat) (f : Ctx → Ctx) : (s.updCtx k f).soft = s.soft := rfl
@[simp] theorem State.updCtx_poison (s : State) (k : Nat) (f : Ctx → Ctx) : (s.updCtx k f).poison = s.poison := rfl
@[simp] theorem State.updCtx_dir (s : State) (k : Nat) (f : Ctx → Ctx) : (s.updCtx k f).dir = s.dir := rfl
@[simp] theorem State.updCtx_copies (s : State) (k : Nat) (f : Ctx → Ctx) : (s.updCtx k f).copies = s.copies := rfl
@[simp] theorem State.updCtx_tlbs (s : State) (k : Nat) (f : Ctx → Ctx) : (s.updCtx k f).tlbs = s.tlbs := rfl
@[simp] theorem State.updCtx_walkCache (s : State) (k : Nat) (f : Ctx → Ctx) : (s.updCtx k f).walkCache = s.walkCache := rfl
@[simp] theorem State.updCtx_icache (s : State) (k : Nat) (f : Ctx → Ctx) : (s.updCtx k f).icache = s.icache := rfl
@[simp] theorem State.updCtx_locks (s : State) (k : Nat) (f : Ctx → Ctx) : (s.updCtx k f).locks = s.locks := rfl
@[simp] theorem State.updCtx_stores (s : State) (k : Nat) (f : Ctx → Ctx) : (s.updCtx k f).stores = s.stores := rfl
@[simp] theorem State.updCtx_views (s : State) (k : Nat) (f : Ctx → Ctx) : (s.updCtx k f).views = s.views := rfl
@[simp] theorem State.updCtx_delay (s : State) (k : Nat) (f : Ctx → Ctx) : (s.updCtx k f).delay = s.delay := rfl
@[simp] theorem State.updCtx_threads (s : State) (k : Nat) (f : Ctx → Ctx) : (s.updCtx k f).threads = s.threads := rfl
@[simp] theorem State.updCtx_cur (s : State) (k : Nat) (f : Ctx → Ctx) : (s.updCtx k f).cur = s.cur := rfl
@[simp] theorem State.updCtx_gang (s : State) (k : Nat) (f : Ctx → Ctx) : (s.updCtx k f).gang = s.gang := rfl
@[simp] theorem State.updCtx_agenda (s : State) (k : Nat) (f : Ctx → Ctx) : (s.updCtx k f).agenda = s.agenda := rfl
@[simp] theorem State.updCtx_turn (s : State) (k : Nat) (f : Ctx → Ctx) : (s.updCtx k f).turn = s.turn := rfl
@[simp] theorem State.updCtx_wgs (s : State) (k : Nat) (f : Ctx → Ctx) : (s.updCtx k f).wgs = s.wgs := rfl
@[simp] theorem State.updCtx_groups (s : State) (k : Nat) (f : Ctx → Ctx) : (s.updCtx k f).groups = s.groups := rfl
@[simp] theorem State.updCtx_cores (s : State) (k : Nat) (f : Ctx → Ctx) : (s.updCtx k f).cores = s.cores := rfl
@[simp] theorem State.updCtx_courses (s : State) (k : Nat) (f : Ctx → Ctx) : (s.updCtx k f).courses = s.courses := rfl
@[simp] theorem State.updCtx_dies (s : State) (k : Nat) (f : Ctx → Ctx) : (s.updCtx k f).dies = s.dies := rfl
@[simp] theorem State.updCtx_pkgs (s : State) (k : Nat) (f : Ctx → Ctx) : (s.updCtx k f).pkgs = s.pkgs := rfl
@[simp] theorem State.updCtx_units (s : State) (k : Nat) (f : Ctx → Ctx) : (s.updCtx k f).units = s.units := rfl
@[simp] theorem State.updCtx_walks (s : State) (k : Nat) (f : Ctx → Ctx) : (s.updCtx k f).walks = s.walks := rfl
@[simp] theorem State.updCtx_msgs (s : State) (k : Nat) (f : Ctx → Ctx) : (s.updCtx k f).msgs = s.msgs := rfl
@[simp] theorem State.updCtx_away (s : State) (k : Nat) (f : Ctx → Ctx) : (s.updCtx k f).away = s.away := rfl
@[simp] theorem State.updCtx_late (s : State) (k : Nat) (f : Ctx → Ctx) : (s.updCtx k f).late = s.late := rfl
@[simp] theorem State.updCtx_nextId (s : State) (k : Nat) (f : Ctx → Ctx) : (s.updCtx k f).nextId = s.nextId := rfl
@[simp] theorem State.updCtx_clk (s : State) (k : Nat) (f : Ctx → Ctx) : (s.updCtx k f).clk = s.clk := rfl
@[simp] theorem State.updCtx_seq (s : State) (k : Nat) (f : Ctx → Ctx) : (s.updCtx k f).seq = s.seq := rfl

/-! ### updPkg -/

@[simp] theorem State.updPkg_mem (s : State) (k : Nat) (f : Pkg → Pkg) : (s.updPkg k f).mem = s.mem := rfl
@[simp] theorem State.updPkg_slabs (s : State) (k : Nat) (f : Pkg → Pkg) : (s.updPkg k f).slabs = s.slabs := rfl
@[simp] theorem State.updPkg_soft (s : State) (k : Nat) (f : Pkg → Pkg) : (s.updPkg k f).soft = s.soft := rfl
@[simp] theorem State.updPkg_poison (s : State) (k : Nat) (f : Pkg → Pkg) : (s.updPkg k f).poison = s.poison := rfl
@[simp] theorem State.updPkg_dir (s : State) (k : Nat) (f : Pkg → Pkg) : (s.updPkg k f).dir = s.dir := rfl
@[simp] theorem State.updPkg_copies (s : State) (k : Nat) (f : Pkg → Pkg) : (s.updPkg k f).copies = s.copies := rfl
@[simp] theorem State.updPkg_tlbs (s : State) (k : Nat) (f : Pkg → Pkg) : (s.updPkg k f).tlbs = s.tlbs := rfl
@[simp] theorem State.updPkg_walkCache (s : State) (k : Nat) (f : Pkg → Pkg) : (s.updPkg k f).walkCache = s.walkCache := rfl
@[simp] theorem State.updPkg_icache (s : State) (k : Nat) (f : Pkg → Pkg) : (s.updPkg k f).icache = s.icache := rfl
@[simp] theorem State.updPkg_locks (s : State) (k : Nat) (f : Pkg → Pkg) : (s.updPkg k f).locks = s.locks := rfl
@[simp] theorem State.updPkg_stores (s : State) (k : Nat) (f : Pkg → Pkg) : (s.updPkg k f).stores = s.stores := rfl
@[simp] theorem State.updPkg_views (s : State) (k : Nat) (f : Pkg → Pkg) : (s.updPkg k f).views = s.views := rfl
@[simp] theorem State.updPkg_delay (s : State) (k : Nat) (f : Pkg → Pkg) : (s.updPkg k f).delay = s.delay := rfl
@[simp] theorem State.updPkg_threads (s : State) (k : Nat) (f : Pkg → Pkg) : (s.updPkg k f).threads = s.threads := rfl
@[simp] theorem State.updPkg_cur (s : State) (k : Nat) (f : Pkg → Pkg) : (s.updPkg k f).cur = s.cur := rfl
@[simp] theorem State.updPkg_gang (s : State) (k : Nat) (f : Pkg → Pkg) : (s.updPkg k f).gang = s.gang := rfl
@[simp] theorem State.updPkg_agenda (s : State) (k : Nat) (f : Pkg → Pkg) : (s.updPkg k f).agenda = s.agenda := rfl
@[simp] theorem State.updPkg_turn (s : State) (k : Nat) (f : Pkg → Pkg) : (s.updPkg k f).turn = s.turn := rfl
@[simp] theorem State.updPkg_wgs (s : State) (k : Nat) (f : Pkg → Pkg) : (s.updPkg k f).wgs = s.wgs := rfl
@[simp] theorem State.updPkg_groups (s : State) (k : Nat) (f : Pkg → Pkg) : (s.updPkg k f).groups = s.groups := rfl
@[simp] theorem State.updPkg_cores (s : State) (k : Nat) (f : Pkg → Pkg) : (s.updPkg k f).cores = s.cores := rfl
@[simp] theorem State.updPkg_courses (s : State) (k : Nat) (f : Pkg → Pkg) : (s.updPkg k f).courses = s.courses := rfl
@[simp] theorem State.updPkg_dies (s : State) (k : Nat) (f : Pkg → Pkg) : (s.updPkg k f).dies = s.dies := rfl
@[simp] theorem State.updPkg_ctxs (s : State) (k : Nat) (f : Pkg → Pkg) : (s.updPkg k f).ctxs = s.ctxs := rfl
@[simp] theorem State.updPkg_units (s : State) (k : Nat) (f : Pkg → Pkg) : (s.updPkg k f).units = s.units := rfl
@[simp] theorem State.updPkg_walks (s : State) (k : Nat) (f : Pkg → Pkg) : (s.updPkg k f).walks = s.walks := rfl
@[simp] theorem State.updPkg_msgs (s : State) (k : Nat) (f : Pkg → Pkg) : (s.updPkg k f).msgs = s.msgs := rfl
@[simp] theorem State.updPkg_away (s : State) (k : Nat) (f : Pkg → Pkg) : (s.updPkg k f).away = s.away := rfl
@[simp] theorem State.updPkg_late (s : State) (k : Nat) (f : Pkg → Pkg) : (s.updPkg k f).late = s.late := rfl
@[simp] theorem State.updPkg_nextId (s : State) (k : Nat) (f : Pkg → Pkg) : (s.updPkg k f).nextId = s.nextId := rfl
@[simp] theorem State.updPkg_clk (s : State) (k : Nat) (f : Pkg → Pkg) : (s.updPkg k f).clk = s.clk := rfl
@[simp] theorem State.updPkg_seq (s : State) (k : Nat) (f : Pkg → Pkg) : (s.updPkg k f).seq = s.seq := rfl

/-! ### setService -/

@[simp] theorem State.setService_mem (s : State) (u : UnitId) (v : Nat × Nat) : (s.setService u v).mem = s.mem := rfl
@[simp] theorem State.setService_slabs (s : State) (u : UnitId) (v : Nat × Nat) : (s.setService u v).slabs = s.slabs := rfl
@[simp] theorem State.setService_soft (s : State) (u : UnitId) (v : Nat × Nat) : (s.setService u v).soft = s.soft := rfl
@[simp] theorem State.setService_poison (s : State) (u : UnitId) (v : Nat × Nat) : (s.setService u v).poison = s.poison := rfl
@[simp] theorem State.setService_dir (s : State) (u : UnitId) (v : Nat × Nat) : (s.setService u v).dir = s.dir := rfl
@[simp] theorem State.setService_copies (s : State) (u : UnitId) (v : Nat × Nat) : (s.setService u v).copies = s.copies := rfl
@[simp] theorem State.setService_tlbs (s : State) (u : UnitId) (v : Nat × Nat) : (s.setService u v).tlbs = s.tlbs := rfl
@[simp] theorem State.setService_walkCache (s : State) (u : UnitId) (v : Nat × Nat) : (s.setService u v).walkCache = s.walkCache := rfl
@[simp] theorem State.setService_icache (s : State) (u : UnitId) (v : Nat × Nat) : (s.setService u v).icache = s.icache := rfl
@[simp] theorem State.setService_locks (s : State) (u : UnitId) (v : Nat × Nat) : (s.setService u v).locks = s.locks := rfl
@[simp] theorem State.setService_stores (s : State) (u : UnitId) (v : Nat × Nat) : (s.setService u v).stores = s.stores := rfl
@[simp] theorem State.setService_views (s : State) (u : UnitId) (v : Nat × Nat) : (s.setService u v).views = s.views := rfl
@[simp] theorem State.setService_delay (s : State) (u : UnitId) (v : Nat × Nat) : (s.setService u v).delay = s.delay := rfl
@[simp] theorem State.setService_threads (s : State) (u : UnitId) (v : Nat × Nat) : (s.setService u v).threads = s.threads := rfl
@[simp] theorem State.setService_cur (s : State) (u : UnitId) (v : Nat × Nat) : (s.setService u v).cur = s.cur := rfl
@[simp] theorem State.setService_gang (s : State) (u : UnitId) (v : Nat × Nat) : (s.setService u v).gang = s.gang := rfl
@[simp] theorem State.setService_agenda (s : State) (u : UnitId) (v : Nat × Nat) : (s.setService u v).agenda = s.agenda := rfl
@[simp] theorem State.setService_turn (s : State) (u : UnitId) (v : Nat × Nat) : (s.setService u v).turn = s.turn := rfl
@[simp] theorem State.setService_wgs (s : State) (u : UnitId) (v : Nat × Nat) : (s.setService u v).wgs = s.wgs := rfl
@[simp] theorem State.setService_groups (s : State) (u : UnitId) (v : Nat × Nat) : (s.setService u v).groups = s.groups := rfl
@[simp] theorem State.setService_cores (s : State) (u : UnitId) (v : Nat × Nat) : (s.setService u v).cores = s.cores := rfl
@[simp] theorem State.setService_courses (s : State) (u : UnitId) (v : Nat × Nat) : (s.setService u v).courses = s.courses := rfl
@[simp] theorem State.setService_dies (s : State) (u : UnitId) (v : Nat × Nat) : (s.setService u v).dies = s.dies := rfl
@[simp] theorem State.setService_ctxs (s : State) (u : UnitId) (v : Nat × Nat) : (s.setService u v).ctxs = s.ctxs := rfl
@[simp] theorem State.setService_pkgs (s : State) (u : UnitId) (v : Nat × Nat) : (s.setService u v).pkgs = s.pkgs := rfl
@[simp] theorem State.setService_walks (s : State) (u : UnitId) (v : Nat × Nat) : (s.setService u v).walks = s.walks := rfl
@[simp] theorem State.setService_msgs (s : State) (u : UnitId) (v : Nat × Nat) : (s.setService u v).msgs = s.msgs := rfl
@[simp] theorem State.setService_away (s : State) (u : UnitId) (v : Nat × Nat) : (s.setService u v).away = s.away := rfl
@[simp] theorem State.setService_late (s : State) (u : UnitId) (v : Nat × Nat) : (s.setService u v).late = s.late := rfl
@[simp] theorem State.setService_nextId (s : State) (u : UnitId) (v : Nat × Nat) : (s.setService u v).nextId = s.nextId := rfl
@[simp] theorem State.setService_clk (s : State) (u : UnitId) (v : Nat × Nat) : (s.setService u v).clk = s.clk := rfl
@[simp] theorem State.setService_seq (s : State) (u : UnitId) (v : Nat × Nat) : (s.setService u v).seq = s.seq := rfl

/-! ### setCopy -/

@[simp] theorem State.setCopy_mem (s : State) (ag sec : Nat) (c : Copy) : (s.setCopy ag sec c).mem = s.mem := rfl
@[simp] theorem State.setCopy_slabs (s : State) (ag sec : Nat) (c : Copy) : (s.setCopy ag sec c).slabs = s.slabs := rfl
@[simp] theorem State.setCopy_soft (s : State) (ag sec : Nat) (c : Copy) : (s.setCopy ag sec c).soft = s.soft := rfl
@[simp] theorem State.setCopy_poison (s : State) (ag sec : Nat) (c : Copy) : (s.setCopy ag sec c).poison = s.poison := rfl
@[simp] theorem State.setCopy_dir (s : State) (ag sec : Nat) (c : Copy) : (s.setCopy ag sec c).dir = s.dir := rfl
@[simp] theorem State.setCopy_tlbs (s : State) (ag sec : Nat) (c : Copy) : (s.setCopy ag sec c).tlbs = s.tlbs := rfl
@[simp] theorem State.setCopy_walkCache (s : State) (ag sec : Nat) (c : Copy) : (s.setCopy ag sec c).walkCache = s.walkCache := rfl
@[simp] theorem State.setCopy_icache (s : State) (ag sec : Nat) (c : Copy) : (s.setCopy ag sec c).icache = s.icache := rfl
@[simp] theorem State.setCopy_locks (s : State) (ag sec : Nat) (c : Copy) : (s.setCopy ag sec c).locks = s.locks := rfl
@[simp] theorem State.setCopy_stores (s : State) (ag sec : Nat) (c : Copy) : (s.setCopy ag sec c).stores = s.stores := rfl
@[simp] theorem State.setCopy_views (s : State) (ag sec : Nat) (c : Copy) : (s.setCopy ag sec c).views = s.views := rfl
@[simp] theorem State.setCopy_delay (s : State) (ag sec : Nat) (c : Copy) : (s.setCopy ag sec c).delay = s.delay := rfl
@[simp] theorem State.setCopy_threads (s : State) (ag sec : Nat) (c : Copy) : (s.setCopy ag sec c).threads = s.threads := rfl
@[simp] theorem State.setCopy_cur (s : State) (ag sec : Nat) (c : Copy) : (s.setCopy ag sec c).cur = s.cur := rfl
@[simp] theorem State.setCopy_gang (s : State) (ag sec : Nat) (c : Copy) : (s.setCopy ag sec c).gang = s.gang := rfl
@[simp] theorem State.setCopy_agenda (s : State) (ag sec : Nat) (c : Copy) : (s.setCopy ag sec c).agenda = s.agenda := rfl
@[simp] theorem State.setCopy_turn (s : State) (ag sec : Nat) (c : Copy) : (s.setCopy ag sec c).turn = s.turn := rfl
@[simp] theorem State.setCopy_wgs (s : State) (ag sec : Nat) (c : Copy) : (s.setCopy ag sec c).wgs = s.wgs := rfl
@[simp] theorem State.setCopy_groups (s : State) (ag sec : Nat) (c : Copy) : (s.setCopy ag sec c).groups = s.groups := rfl
@[simp] theorem State.setCopy_cores (s : State) (ag sec : Nat) (c : Copy) : (s.setCopy ag sec c).cores = s.cores := rfl
@[simp] theorem State.setCopy_courses (s : State) (ag sec : Nat) (c : Copy) : (s.setCopy ag sec c).courses = s.courses := rfl
@[simp] theorem State.setCopy_dies (s : State) (ag sec : Nat) (c : Copy) : (s.setCopy ag sec c).dies = s.dies := rfl
@[simp] theorem State.setCopy_ctxs (s : State) (ag sec : Nat) (c : Copy) : (s.setCopy ag sec c).ctxs = s.ctxs := rfl
@[simp] theorem State.setCopy_pkgs (s : State) (ag sec : Nat) (c : Copy) : (s.setCopy ag sec c).pkgs = s.pkgs := rfl
@[simp] theorem State.setCopy_units (s : State) (ag sec : Nat) (c : Copy) : (s.setCopy ag sec c).units = s.units := rfl
@[simp] theorem State.setCopy_walks (s : State) (ag sec : Nat) (c : Copy) : (s.setCopy ag sec c).walks = s.walks := rfl
@[simp] theorem State.setCopy_msgs (s : State) (ag sec : Nat) (c : Copy) : (s.setCopy ag sec c).msgs = s.msgs := rfl
@[simp] theorem State.setCopy_away (s : State) (ag sec : Nat) (c : Copy) : (s.setCopy ag sec c).away = s.away := rfl
@[simp] theorem State.setCopy_late (s : State) (ag sec : Nat) (c : Copy) : (s.setCopy ag sec c).late = s.late := rfl
@[simp] theorem State.setCopy_nextId (s : State) (ag sec : Nat) (c : Copy) : (s.setCopy ag sec c).nextId = s.nextId := rfl
@[simp] theorem State.setCopy_clk (s : State) (ag sec : Nat) (c : Copy) : (s.setCopy ag sec c).clk = s.clk := rfl
@[simp] theorem State.setCopy_seq (s : State) (ag sec : Nat) (c : Copy) : (s.setCopy ag sec c).seq = s.seq := rfl

/-! ### send -/

@[simp] theorem State.send_mem (s : State) (m : Msg) : (s.send m).mem = s.mem := rfl
@[simp] theorem State.send_slabs (s : State) (m : Msg) : (s.send m).slabs = s.slabs := rfl
@[simp] theorem State.send_soft (s : State) (m : Msg) : (s.send m).soft = s.soft := rfl
@[simp] theorem State.send_poison (s : State) (m : Msg) : (s.send m).poison = s.poison := rfl
@[simp] theorem State.send_dir (s : State) (m : Msg) : (s.send m).dir = s.dir := rfl
@[simp] theorem State.send_copies (s : State) (m : Msg) : (s.send m).copies = s.copies := rfl
@[simp] theorem State.send_tlbs (s : State) (m : Msg) : (s.send m).tlbs = s.tlbs := rfl
@[simp] theorem State.send_walkCache (s : State) (m : Msg) : (s.send m).walkCache = s.walkCache := rfl
@[simp] theorem State.send_icache (s : State) (m : Msg) : (s.send m).icache = s.icache := rfl
@[simp] theorem State.send_locks (s : State) (m : Msg) : (s.send m).locks = s.locks := rfl
@[simp] theorem State.send_stores (s : State) (m : Msg) : (s.send m).stores = s.stores := rfl
@[simp] theorem State.send_views (s : State) (m : Msg) : (s.send m).views = s.views := rfl
@[simp] theorem State.send_delay (s : State) (m : Msg) : (s.send m).delay = s.delay := rfl
@[simp] theorem State.send_threads (s : State) (m : Msg) : (s.send m).threads = s.threads := rfl
@[simp] theorem State.send_cur (s : State) (m : Msg) : (s.send m).cur = s.cur := rfl
@[simp] theorem State.send_gang (s : State) (m : Msg) : (s.send m).gang = s.gang := rfl
@[simp] theorem State.send_agenda (s : State) (m : Msg) : (s.send m).agenda = s.agenda := rfl
@[simp] theorem State.send_turn (s : State) (m : Msg) : (s.send m).turn = s.turn := rfl
@[simp] theorem State.send_wgs (s : State) (m : Msg) : (s.send m).wgs = s.wgs := rfl
@[simp] theorem State.send_groups (s : State) (m : Msg) : (s.send m).groups = s.groups := rfl
@[simp] theorem State.send_cores (s : State) (m : Msg) : (s.send m).cores = s.cores := rfl
@[simp] theorem State.send_courses (s : State) (m : Msg) : (s.send m).courses = s.courses := rfl
@[simp] theorem State.send_dies (s : State) (m : Msg) : (s.send m).dies = s.dies := rfl
@[simp] theorem State.send_ctxs (s : State) (m : Msg) : (s.send m).ctxs = s.ctxs := rfl
@[simp] theorem State.send_pkgs (s : State) (m : Msg) : (s.send m).pkgs = s.pkgs := rfl
@[simp] theorem State.send_units (s : State) (m : Msg) : (s.send m).units = s.units := rfl
@[simp] theorem State.send_walks (s : State) (m : Msg) : (s.send m).walks = s.walks := rfl
@[simp] theorem State.send_away (s : State) (m : Msg) : (s.send m).away = s.away := rfl
@[simp] theorem State.send_late (s : State) (m : Msg) : (s.send m).late = s.late := rfl
@[simp] theorem State.send_nextId (s : State) (m : Msg) : (s.send m).nextId = s.nextId := rfl
@[simp] theorem State.send_clk (s : State) (m : Msg) : (s.send m).clk = s.clk := rfl
@[simp] theorem State.send_seq (s : State) (m : Msg) : (s.send m).seq = s.seq := rfl

/-! ### takeMsg -/

@[simp] theorem State.takeMsg_mem (s : State) (i : Nat) : (s.takeMsg i).mem = s.mem := rfl
@[simp] theorem State.takeMsg_slabs (s : State) (i : Nat) : (s.takeMsg i).slabs = s.slabs := rfl
@[simp] theorem State.takeMsg_soft (s : State) (i : Nat) : (s.takeMsg i).soft = s.soft := rfl
@[simp] theorem State.takeMsg_poison (s : State) (i : Nat) : (s.takeMsg i).poison = s.poison := rfl
@[simp] theorem State.takeMsg_dir (s : State) (i : Nat) : (s.takeMsg i).dir = s.dir := rfl
@[simp] theorem State.takeMsg_copies (s : State) (i : Nat) : (s.takeMsg i).copies = s.copies := rfl
@[simp] theorem State.takeMsg_tlbs (s : State) (i : Nat) : (s.takeMsg i).tlbs = s.tlbs := rfl
@[simp] theorem State.takeMsg_walkCache (s : State) (i : Nat) : (s.takeMsg i).walkCache = s.walkCache := rfl
@[simp] theorem State.takeMsg_icache (s : State) (i : Nat) : (s.takeMsg i).icache = s.icache := rfl
@[simp] theorem State.takeMsg_locks (s : State) (i : Nat) : (s.takeMsg i).locks = s.locks := rfl
@[simp] theorem State.takeMsg_stores (s : State) (i : Nat) : (s.takeMsg i).stores = s.stores := rfl
@[simp] theorem State.takeMsg_views (s : State) (i : Nat) : (s.takeMsg i).views = s.views := rfl
@[simp] theorem State.takeMsg_delay (s : State) (i : Nat) : (s.takeMsg i).delay = s.delay := rfl
@[simp] theorem State.takeMsg_threads (s : State) (i : Nat) : (s.takeMsg i).threads = s.threads := rfl
@[simp] theorem State.takeMsg_cur (s : State) (i : Nat) : (s.takeMsg i).cur = s.cur := rfl
@[simp] theorem State.takeMsg_gang (s : State) (i : Nat) : (s.takeMsg i).gang = s.gang := rfl
@[simp] theorem State.takeMsg_agenda (s : State) (i : Nat) : (s.takeMsg i).agenda = s.agenda := rfl
@[simp] theorem State.takeMsg_turn (s : State) (i : Nat) : (s.takeMsg i).turn = s.turn := rfl
@[simp] theorem State.takeMsg_wgs (s : State) (i : Nat) : (s.takeMsg i).wgs = s.wgs := rfl
@[simp] theorem State.takeMsg_groups (s : State) (i : Nat) : (s.takeMsg i).groups = s.groups := rfl
@[simp] theorem State.takeMsg_cores (s : State) (i : Nat) : (s.takeMsg i).cores = s.cores := rfl
@[simp] theorem State.takeMsg_courses (s : State) (i : Nat) : (s.takeMsg i).courses = s.courses := rfl
@[simp] theorem State.takeMsg_dies (s : State) (i : Nat) : (s.takeMsg i).dies = s.dies := rfl
@[simp] theorem State.takeMsg_ctxs (s : State) (i : Nat) : (s.takeMsg i).ctxs = s.ctxs := rfl
@[simp] theorem State.takeMsg_pkgs (s : State) (i : Nat) : (s.takeMsg i).pkgs = s.pkgs := rfl
@[simp] theorem State.takeMsg_units (s : State) (i : Nat) : (s.takeMsg i).units = s.units := rfl
@[simp] theorem State.takeMsg_walks (s : State) (i : Nat) : (s.takeMsg i).walks = s.walks := rfl
@[simp] theorem State.takeMsg_away (s : State) (i : Nat) : (s.takeMsg i).away = s.away := rfl
@[simp] theorem State.takeMsg_late (s : State) (i : Nat) : (s.takeMsg i).late = s.late := rfl
@[simp] theorem State.takeMsg_nextId (s : State) (i : Nat) : (s.takeMsg i).nextId = s.nextId := rfl
@[simp] theorem State.takeMsg_clk (s : State) (i : Nat) : (s.takeMsg i).clk = s.clk := rfl
@[simp] theorem State.takeMsg_seq (s : State) (i : Nat) : (s.takeMsg i).seq = s.seq := rfl

/-! ### finish -/

@[simp] theorem State.finish_mem (s : State) (len : Nat) : (s.finish len).mem = s.mem := rfl
@[simp] theorem State.finish_slabs (s : State) (len : Nat) : (s.finish len).slabs = s.slabs := rfl
@[simp] theorem State.finish_soft (s : State) (len : Nat) : (s.finish len).soft = s.soft := rfl
@[simp] theorem State.finish_poison (s : State) (len : Nat) : (s.finish len).poison = s.poison := rfl
@[simp] theorem State.finish_dir (s : State) (len : Nat) : (s.finish len).dir = s.dir := rfl
@[simp] theorem State.finish_copies (s : State) (len : Nat) : (s.finish len).copies = s.copies := rfl
@[simp] theorem State.finish_tlbs (s : State) (len : Nat) : (s.finish len).tlbs = s.tlbs := rfl
@[simp] theorem State.finish_walkCache (s : State) (len : Nat) : (s.finish len).walkCache = s.walkCache := rfl
@[simp] theorem State.finish_icache (s : State) (len : Nat) : (s.finish len).icache = s.icache := rfl
@[simp] theorem State.finish_locks (s : State) (len : Nat) : (s.finish len).locks = s.locks := rfl
@[simp] theorem State.finish_stores (s : State) (len : Nat) : (s.finish len).stores = s.stores := rfl
@[simp] theorem State.finish_views (s : State) (len : Nat) : (s.finish len).views = s.views := rfl
@[simp] theorem State.finish_delay (s : State) (len : Nat) : (s.finish len).delay = s.delay := rfl
@[simp] theorem State.finish_cur (s : State) (len : Nat) : (s.finish len).cur = s.cur := rfl
@[simp] theorem State.finish_gang (s : State) (len : Nat) : (s.finish len).gang = s.gang := rfl
@[simp] theorem State.finish_agenda (s : State) (len : Nat) : (s.finish len).agenda = s.agenda := rfl
@[simp] theorem State.finish_turn (s : State) (len : Nat) : (s.finish len).turn = s.turn := rfl
@[simp] theorem State.finish_wgs (s : State) (len : Nat) : (s.finish len).wgs = s.wgs := rfl
@[simp] theorem State.finish_groups (s : State) (len : Nat) : (s.finish len).groups = s.groups := rfl
@[simp] theorem State.finish_cores (s : State) (len : Nat) : (s.finish len).cores = s.cores := rfl
@[simp] theorem State.finish_courses (s : State) (len : Nat) : (s.finish len).courses = s.courses := rfl
@[simp] theorem State.finish_dies (s : State) (len : Nat) : (s.finish len).dies = s.dies := rfl
@[simp] theorem State.finish_ctxs (s : State) (len : Nat) : (s.finish len).ctxs = s.ctxs := rfl
@[simp] theorem State.finish_pkgs (s : State) (len : Nat) : (s.finish len).pkgs = s.pkgs := rfl
@[simp] theorem State.finish_units (s : State) (len : Nat) : (s.finish len).units = s.units := rfl
@[simp] theorem State.finish_walks (s : State) (len : Nat) : (s.finish len).walks = s.walks := rfl
@[simp] theorem State.finish_msgs (s : State) (len : Nat) : (s.finish len).msgs = s.msgs := rfl
@[simp] theorem State.finish_away (s : State) (len : Nat) : (s.finish len).away = s.away := rfl
@[simp] theorem State.finish_late (s : State) (len : Nat) : (s.finish len).late = s.late := rfl
@[simp] theorem State.finish_nextId (s : State) (len : Nat) : (s.finish len).nextId = s.nextId := rfl
@[simp] theorem State.finish_clk (s : State) (len : Nat) : (s.finish len).clk = s.clk := rfl
@[simp] theorem State.finish_seq (s : State) (len : Nat) : (s.finish len).seq = s.seq := rfl

/-! ### jump -/

@[simp] theorem State.jump_mem (s : State) (a : Word) : (s.jump a).mem = s.mem := rfl
@[simp] theorem State.jump_slabs (s : State) (a : Word) : (s.jump a).slabs = s.slabs := rfl
@[simp] theorem State.jump_soft (s : State) (a : Word) : (s.jump a).soft = s.soft := rfl
@[simp] theorem State.jump_poison (s : State) (a : Word) : (s.jump a).poison = s.poison := rfl
@[simp] theorem State.jump_dir (s : State) (a : Word) : (s.jump a).dir = s.dir := rfl
@[simp] theorem State.jump_copies (s : State) (a : Word) : (s.jump a).copies = s.copies := rfl
@[simp] theorem State.jump_tlbs (s : State) (a : Word) : (s.jump a).tlbs = s.tlbs := rfl
@[simp] theorem State.jump_walkCache (s : State) (a : Word) : (s.jump a).walkCache = s.walkCache := rfl
@[simp] theorem State.jump_icache (s : State) (a : Word) : (s.jump a).icache = s.icache := rfl
@[simp] theorem State.jump_locks (s : State) (a : Word) : (s.jump a).locks = s.locks := rfl
@[simp] theorem State.jump_stores (s : State) (a : Word) : (s.jump a).stores = s.stores := rfl
@[simp] theorem State.jump_views (s : State) (a : Word) : (s.jump a).views = s.views := rfl
@[simp] theorem State.jump_delay (s : State) (a : Word) : (s.jump a).delay = s.delay := rfl
@[simp] theorem State.jump_cur (s : State) (a : Word) : (s.jump a).cur = s.cur := rfl
@[simp] theorem State.jump_gang (s : State) (a : Word) : (s.jump a).gang = s.gang := rfl
@[simp] theorem State.jump_agenda (s : State) (a : Word) : (s.jump a).agenda = s.agenda := rfl
@[simp] theorem State.jump_turn (s : State) (a : Word) : (s.jump a).turn = s.turn := rfl
@[simp] theorem State.jump_wgs (s : State) (a : Word) : (s.jump a).wgs = s.wgs := rfl
@[simp] theorem State.jump_groups (s : State) (a : Word) : (s.jump a).groups = s.groups := rfl
@[simp] theorem State.jump_cores (s : State) (a : Word) : (s.jump a).cores = s.cores := rfl
@[simp] theorem State.jump_courses (s : State) (a : Word) : (s.jump a).courses = s.courses := rfl
@[simp] theorem State.jump_dies (s : State) (a : Word) : (s.jump a).dies = s.dies := rfl
@[simp] theorem State.jump_ctxs (s : State) (a : Word) : (s.jump a).ctxs = s.ctxs := rfl
@[simp] theorem State.jump_pkgs (s : State) (a : Word) : (s.jump a).pkgs = s.pkgs := rfl
@[simp] theorem State.jump_units (s : State) (a : Word) : (s.jump a).units = s.units := rfl
@[simp] theorem State.jump_walks (s : State) (a : Word) : (s.jump a).walks = s.walks := rfl
@[simp] theorem State.jump_msgs (s : State) (a : Word) : (s.jump a).msgs = s.msgs := rfl
@[simp] theorem State.jump_away (s : State) (a : Word) : (s.jump a).away = s.away := rfl
@[simp] theorem State.jump_late (s : State) (a : Word) : (s.jump a).late = s.late := rfl
@[simp] theorem State.jump_nextId (s : State) (a : Word) : (s.jump a).nextId = s.nextId := rfl
@[simp] theorem State.jump_clk (s : State) (a : Word) : (s.jump a).clk = s.clk := rfl
@[simp] theorem State.jump_seq (s : State) (a : Word) : (s.jump a).seq = s.seq := rfl

/-! ### finishX -/

@[simp] theorem State.finishX_mem (s : State) (len : Nat) (d : BitVec 5) (v : Word) : (s.finishX len d v).mem = s.mem := rfl
@[simp] theorem State.finishX_slabs (s : State) (len : Nat) (d : BitVec 5) (v : Word) : (s.finishX len d v).slabs = s.slabs := rfl
@[simp] theorem State.finishX_soft (s : State) (len : Nat) (d : BitVec 5) (v : Word) : (s.finishX len d v).soft = s.soft := rfl
@[simp] theorem State.finishX_poison (s : State) (len : Nat) (d : BitVec 5) (v : Word) : (s.finishX len d v).poison = s.poison := rfl
@[simp] theorem State.finishX_dir (s : State) (len : Nat) (d : BitVec 5) (v : Word) : (s.finishX len d v).dir = s.dir := rfl
@[simp] theorem State.finishX_copies (s : State) (len : Nat) (d : BitVec 5) (v : Word) : (s.finishX len d v).copies = s.copies := rfl
@[simp] theorem State.finishX_tlbs (s : State) (len : Nat) (d : BitVec 5) (v : Word) : (s.finishX len d v).tlbs = s.tlbs := rfl
@[simp] theorem State.finishX_walkCache (s : State) (len : Nat) (d : BitVec 5) (v : Word) : (s.finishX len d v).walkCache = s.walkCache := rfl
@[simp] theorem State.finishX_icache (s : State) (len : Nat) (d : BitVec 5) (v : Word) : (s.finishX len d v).icache = s.icache := rfl
@[simp] theorem State.finishX_locks (s : State) (len : Nat) (d : BitVec 5) (v : Word) : (s.finishX len d v).locks = s.locks := rfl
@[simp] theorem State.finishX_stores (s : State) (len : Nat) (d : BitVec 5) (v : Word) : (s.finishX len d v).stores = s.stores := rfl
@[simp] theorem State.finishX_views (s : State) (len : Nat) (d : BitVec 5) (v : Word) : (s.finishX len d v).views = s.views := rfl
@[simp] theorem State.finishX_delay (s : State) (len : Nat) (d : BitVec 5) (v : Word) : (s.finishX len d v).delay = s.delay := rfl
@[simp] theorem State.finishX_cur (s : State) (len : Nat) (d : BitVec 5) (v : Word) : (s.finishX len d v).cur = s.cur := rfl
@[simp] theorem State.finishX_gang (s : State) (len : Nat) (d : BitVec 5) (v : Word) : (s.finishX len d v).gang = s.gang := rfl
@[simp] theorem State.finishX_agenda (s : State) (len : Nat) (d : BitVec 5) (v : Word) : (s.finishX len d v).agenda = s.agenda := rfl
@[simp] theorem State.finishX_turn (s : State) (len : Nat) (d : BitVec 5) (v : Word) : (s.finishX len d v).turn = s.turn := rfl
@[simp] theorem State.finishX_wgs (s : State) (len : Nat) (d : BitVec 5) (v : Word) : (s.finishX len d v).wgs = s.wgs := rfl
@[simp] theorem State.finishX_groups (s : State) (len : Nat) (d : BitVec 5) (v : Word) : (s.finishX len d v).groups = s.groups := rfl
@[simp] theorem State.finishX_cores (s : State) (len : Nat) (d : BitVec 5) (v : Word) : (s.finishX len d v).cores = s.cores := rfl
@[simp] theorem State.finishX_courses (s : State) (len : Nat) (d : BitVec 5) (v : Word) : (s.finishX len d v).courses = s.courses := rfl
@[simp] theorem State.finishX_dies (s : State) (len : Nat) (d : BitVec 5) (v : Word) : (s.finishX len d v).dies = s.dies := rfl
@[simp] theorem State.finishX_ctxs (s : State) (len : Nat) (d : BitVec 5) (v : Word) : (s.finishX len d v).ctxs = s.ctxs := rfl
@[simp] theorem State.finishX_pkgs (s : State) (len : Nat) (d : BitVec 5) (v : Word) : (s.finishX len d v).pkgs = s.pkgs := rfl
@[simp] theorem State.finishX_units (s : State) (len : Nat) (d : BitVec 5) (v : Word) : (s.finishX len d v).units = s.units := rfl
@[simp] theorem State.finishX_walks (s : State) (len : Nat) (d : BitVec 5) (v : Word) : (s.finishX len d v).walks = s.walks := rfl
@[simp] theorem State.finishX_msgs (s : State) (len : Nat) (d : BitVec 5) (v : Word) : (s.finishX len d v).msgs = s.msgs := rfl
@[simp] theorem State.finishX_away (s : State) (len : Nat) (d : BitVec 5) (v : Word) : (s.finishX len d v).away = s.away := rfl
@[simp] theorem State.finishX_late (s : State) (len : Nat) (d : BitVec 5) (v : Word) : (s.finishX len d v).late = s.late := rfl
@[simp] theorem State.finishX_nextId (s : State) (len : Nat) (d : BitVec 5) (v : Word) : (s.finishX len d v).nextId = s.nextId := rfl
@[simp] theorem State.finishX_clk (s : State) (len : Nat) (d : BitVec 5) (v : Word) : (s.finishX len d v).clk = s.clk := rfl
@[simp] theorem State.finishX_seq (s : State) (len : Nat) (d : BitVec 5) (v : Word) : (s.finishX len d v).seq = s.seq := rfl

/-! ### finishF -/

@[simp] theorem State.finishF_mem (s : State) (len : Nat) (d : BitVec 5) (v : Word) : (s.finishF len d v).mem = s.mem := rfl
@[simp] theorem State.finishF_slabs (s : State) (len : Nat) (d : BitVec 5) (v : Word) : (s.finishF len d v).slabs = s.slabs := rfl
@[simp] theorem State.finishF_soft (s : State) (len : Nat) (d : BitVec 5) (v : Word) : (s.finishF len d v).soft = s.soft := rfl
@[simp] theorem State.finishF_poison (s : State) (len : Nat) (d : BitVec 5) (v : Word) : (s.finishF len d v).poison = s.poison := rfl
@[simp] theorem State.finishF_dir (s : State) (len : Nat) (d : BitVec 5) (v : Word) : (s.finishF len d v).dir = s.dir := rfl
@[simp] theorem State.finishF_copies (s : State) (len : Nat) (d : BitVec 5) (v : Word) : (s.finishF len d v).copies = s.copies := rfl
@[simp] theorem State.finishF_tlbs (s : State) (len : Nat) (d : BitVec 5) (v : Word) : (s.finishF len d v).tlbs = s.tlbs := rfl
@[simp] theorem State.finishF_walkCache (s : State) (len : Nat) (d : BitVec 5) (v : Word) : (s.finishF len d v).walkCache = s.walkCache := rfl
@[simp] theorem State.finishF_icache (s : State) (len : Nat) (d : BitVec 5) (v : Word) : (s.finishF len d v).icache = s.icache := rfl
@[simp] theorem State.finishF_locks (s : State) (len : Nat) (d : BitVec 5) (v : Word) : (s.finishF len d v).locks = s.locks := rfl
@[simp] theorem State.finishF_stores (s : State) (len : Nat) (d : BitVec 5) (v : Word) : (s.finishF len d v).stores = s.stores := rfl
@[simp] theorem State.finishF_views (s : State) (len : Nat) (d : BitVec 5) (v : Word) : (s.finishF len d v).views = s.views := rfl
@[simp] theorem State.finishF_delay (s : State) (len : Nat) (d : BitVec 5) (v : Word) : (s.finishF len d v).delay = s.delay := rfl
@[simp] theorem State.finishF_cur (s : State) (len : Nat) (d : BitVec 5) (v : Word) : (s.finishF len d v).cur = s.cur := rfl
@[simp] theorem State.finishF_gang (s : State) (len : Nat) (d : BitVec 5) (v : Word) : (s.finishF len d v).gang = s.gang := rfl
@[simp] theorem State.finishF_agenda (s : State) (len : Nat) (d : BitVec 5) (v : Word) : (s.finishF len d v).agenda = s.agenda := rfl
@[simp] theorem State.finishF_turn (s : State) (len : Nat) (d : BitVec 5) (v : Word) : (s.finishF len d v).turn = s.turn := rfl
@[simp] theorem State.finishF_wgs (s : State) (len : Nat) (d : BitVec 5) (v : Word) : (s.finishF len d v).wgs = s.wgs := rfl
@[simp] theorem State.finishF_groups (s : State) (len : Nat) (d : BitVec 5) (v : Word) : (s.finishF len d v).groups = s.groups := rfl
@[simp] theorem State.finishF_cores (s : State) (len : Nat) (d : BitVec 5) (v : Word) : (s.finishF len d v).cores = s.cores := rfl
@[simp] theorem State.finishF_courses (s : State) (len : Nat) (d : BitVec 5) (v : Word) : (s.finishF len d v).courses = s.courses := rfl
@[simp] theorem State.finishF_dies (s : State) (len : Nat) (d : BitVec 5) (v : Word) : (s.finishF len d v).dies = s.dies := rfl
@[simp] theorem State.finishF_ctxs (s : State) (len : Nat) (d : BitVec 5) (v : Word) : (s.finishF len d v).ctxs = s.ctxs := rfl
@[simp] theorem State.finishF_pkgs (s : State) (len : Nat) (d : BitVec 5) (v : Word) : (s.finishF len d v).pkgs = s.pkgs := rfl
@[simp] theorem State.finishF_units (s : State) (len : Nat) (d : BitVec 5) (v : Word) : (s.finishF len d v).units = s.units := rfl
@[simp] theorem State.finishF_walks (s : State) (len : Nat) (d : BitVec 5) (v : Word) : (s.finishF len d v).walks = s.walks := rfl
@[simp] theorem State.finishF_msgs (s : State) (len : Nat) (d : BitVec 5) (v : Word) : (s.finishF len d v).msgs = s.msgs := rfl
@[simp] theorem State.finishF_away (s : State) (len : Nat) (d : BitVec 5) (v : Word) : (s.finishF len d v).away = s.away := rfl
@[simp] theorem State.finishF_late (s : State) (len : Nat) (d : BitVec 5) (v : Word) : (s.finishF len d v).late = s.late := rfl
@[simp] theorem State.finishF_nextId (s : State) (len : Nat) (d : BitVec 5) (v : Word) : (s.finishF len d v).nextId = s.nextId := rfl
@[simp] theorem State.finishF_clk (s : State) (len : Nat) (d : BitVec 5) (v : Word) : (s.finishF len d v).clk = s.clk := rfl
@[simp] theorem State.finishF_seq (s : State) (len : Nat) (d : BitVec 5) (v : Word) : (s.finishF len d v).seq = s.seq := rfl

/-! ### finishP -/

@[simp] theorem State.finishP_mem (s : State) (len : Nat) (d : BitVec 3) (v : Bool) : (s.finishP len d v).mem = s.mem := rfl
@[simp] theorem State.finishP_slabs (s : State) (len : Nat) (d : BitVec 3) (v : Bool) : (s.finishP len d v).slabs = s.slabs := rfl
@[simp] theorem State.finishP_soft (s : State) (len : Nat) (d : BitVec 3) (v : Bool) : (s.finishP len d v).soft = s.soft := rfl
@[simp] theorem State.finishP_poison (s : State) (len : Nat) (d : BitVec 3) (v : Bool) : (s.finishP len d v).poison = s.poison := rfl
@[simp] theorem State.finishP_dir (s : State) (len : Nat) (d : BitVec 3) (v : Bool) : (s.finishP len d v).dir = s.dir := rfl
@[simp] theorem State.finishP_copies (s : State) (len : Nat) (d : BitVec 3) (v : Bool) : (s.finishP len d v).copies = s.copies := rfl
@[simp] theorem State.finishP_tlbs (s : State) (len : Nat) (d : BitVec 3) (v : Bool) : (s.finishP len d v).tlbs = s.tlbs := rfl
@[simp] theorem State.finishP_walkCache (s : State) (len : Nat) (d : BitVec 3) (v : Bool) : (s.finishP len d v).walkCache = s.walkCache := rfl
@[simp] theorem State.finishP_icache (s : State) (len : Nat) (d : BitVec 3) (v : Bool) : (s.finishP len d v).icache = s.icache := rfl
@[simp] theorem State.finishP_locks (s : State) (len : Nat) (d : BitVec 3) (v : Bool) : (s.finishP len d v).locks = s.locks := rfl
@[simp] theorem State.finishP_stores (s : State) (len : Nat) (d : BitVec 3) (v : Bool) : (s.finishP len d v).stores = s.stores := rfl
@[simp] theorem State.finishP_views (s : State) (len : Nat) (d : BitVec 3) (v : Bool) : (s.finishP len d v).views = s.views := rfl
@[simp] theorem State.finishP_delay (s : State) (len : Nat) (d : BitVec 3) (v : Bool) : (s.finishP len d v).delay = s.delay := rfl
@[simp] theorem State.finishP_cur (s : State) (len : Nat) (d : BitVec 3) (v : Bool) : (s.finishP len d v).cur = s.cur := rfl
@[simp] theorem State.finishP_gang (s : State) (len : Nat) (d : BitVec 3) (v : Bool) : (s.finishP len d v).gang = s.gang := rfl
@[simp] theorem State.finishP_agenda (s : State) (len : Nat) (d : BitVec 3) (v : Bool) : (s.finishP len d v).agenda = s.agenda := rfl
@[simp] theorem State.finishP_turn (s : State) (len : Nat) (d : BitVec 3) (v : Bool) : (s.finishP len d v).turn = s.turn := rfl
@[simp] theorem State.finishP_wgs (s : State) (len : Nat) (d : BitVec 3) (v : Bool) : (s.finishP len d v).wgs = s.wgs := rfl
@[simp] theorem State.finishP_groups (s : State) (len : Nat) (d : BitVec 3) (v : Bool) : (s.finishP len d v).groups = s.groups := rfl
@[simp] theorem State.finishP_cores (s : State) (len : Nat) (d : BitVec 3) (v : Bool) : (s.finishP len d v).cores = s.cores := rfl
@[simp] theorem State.finishP_courses (s : State) (len : Nat) (d : BitVec 3) (v : Bool) : (s.finishP len d v).courses = s.courses := rfl
@[simp] theorem State.finishP_dies (s : State) (len : Nat) (d : BitVec 3) (v : Bool) : (s.finishP len d v).dies = s.dies := rfl
@[simp] theorem State.finishP_ctxs (s : State) (len : Nat) (d : BitVec 3) (v : Bool) : (s.finishP len d v).ctxs = s.ctxs := rfl
@[simp] theorem State.finishP_pkgs (s : State) (len : Nat) (d : BitVec 3) (v : Bool) : (s.finishP len d v).pkgs = s.pkgs := rfl
@[simp] theorem State.finishP_units (s : State) (len : Nat) (d : BitVec 3) (v : Bool) : (s.finishP len d v).units = s.units := rfl
@[simp] theorem State.finishP_walks (s : State) (len : Nat) (d : BitVec 3) (v : Bool) : (s.finishP len d v).walks = s.walks := rfl
@[simp] theorem State.finishP_msgs (s : State) (len : Nat) (d : BitVec 3) (v : Bool) : (s.finishP len d v).msgs = s.msgs := rfl
@[simp] theorem State.finishP_away (s : State) (len : Nat) (d : BitVec 3) (v : Bool) : (s.finishP len d v).away = s.away := rfl
@[simp] theorem State.finishP_late (s : State) (len : Nat) (d : BitVec 3) (v : Bool) : (s.finishP len d v).late = s.late := rfl
@[simp] theorem State.finishP_nextId (s : State) (len : Nat) (d : BitVec 3) (v : Bool) : (s.finishP len d v).nextId = s.nextId := rfl
@[simp] theorem State.finishP_clk (s : State) (len : Nat) (d : BitVec 3) (v : Bool) : (s.finishP len d v).clk = s.clk := rfl
@[simp] theorem State.finishP_seq (s : State) (len : Nat) (d : BitVec 3) (v : Bool) : (s.finishP len d v).seq = s.seq := rfl

/-! ### finishLate -/

@[simp] theorem State.finishLate_mem (s : State) (len : Nat) (d : Dest) (la : BitVec 4) (v : Word) : (s.finishLate len d la v).mem = s.mem := rfl
@[simp] theorem State.finishLate_slabs (s : State) (len : Nat) (d : Dest) (la : BitVec 4) (v : Word) : (s.finishLate len d la v).slabs = s.slabs := rfl
@[simp] theorem State.finishLate_soft (s : State) (len : Nat) (d : Dest) (la : BitVec 4) (v : Word) : (s.finishLate len d la v).soft = s.soft := rfl
@[simp] theorem State.finishLate_poison (s : State) (len : Nat) (d : Dest) (la : BitVec 4) (v : Word) : (s.finishLate len d la v).poison = s.poison := rfl
@[simp] theorem State.finishLate_dir (s : State) (len : Nat) (d : Dest) (la : BitVec 4) (v : Word) : (s.finishLate len d la v).dir = s.dir := rfl
@[simp] theorem State.finishLate_copies (s : State) (len : Nat) (d : Dest) (la : BitVec 4) (v : Word) : (s.finishLate len d la v).copies = s.copies := rfl
@[simp] theorem State.finishLate_tlbs (s : State) (len : Nat) (d : Dest) (la : BitVec 4) (v : Word) : (s.finishLate len d la v).tlbs = s.tlbs := rfl
@[simp] theorem State.finishLate_walkCache (s : State) (len : Nat) (d : Dest) (la : BitVec 4) (v : Word) : (s.finishLate len d la v).walkCache = s.walkCache := rfl
@[simp] theorem State.finishLate_icache (s : State) (len : Nat) (d : Dest) (la : BitVec 4) (v : Word) : (s.finishLate len d la v).icache = s.icache := rfl
@[simp] theorem State.finishLate_locks (s : State) (len : Nat) (d : Dest) (la : BitVec 4) (v : Word) : (s.finishLate len d la v).locks = s.locks := rfl
@[simp] theorem State.finishLate_stores (s : State) (len : Nat) (d : Dest) (la : BitVec 4) (v : Word) : (s.finishLate len d la v).stores = s.stores := rfl
@[simp] theorem State.finishLate_views (s : State) (len : Nat) (d : Dest) (la : BitVec 4) (v : Word) : (s.finishLate len d la v).views = s.views := rfl
@[simp] theorem State.finishLate_delay (s : State) (len : Nat) (d : Dest) (la : BitVec 4) (v : Word) : (s.finishLate len d la v).delay = s.delay := rfl
@[simp] theorem State.finishLate_cur (s : State) (len : Nat) (d : Dest) (la : BitVec 4) (v : Word) : (s.finishLate len d la v).cur = s.cur := rfl
@[simp] theorem State.finishLate_gang (s : State) (len : Nat) (d : Dest) (la : BitVec 4) (v : Word) : (s.finishLate len d la v).gang = s.gang := rfl
@[simp] theorem State.finishLate_agenda (s : State) (len : Nat) (d : Dest) (la : BitVec 4) (v : Word) : (s.finishLate len d la v).agenda = s.agenda := rfl
@[simp] theorem State.finishLate_turn (s : State) (len : Nat) (d : Dest) (la : BitVec 4) (v : Word) : (s.finishLate len d la v).turn = s.turn := rfl
@[simp] theorem State.finishLate_wgs (s : State) (len : Nat) (d : Dest) (la : BitVec 4) (v : Word) : (s.finishLate len d la v).wgs = s.wgs := rfl
@[simp] theorem State.finishLate_groups (s : State) (len : Nat) (d : Dest) (la : BitVec 4) (v : Word) : (s.finishLate len d la v).groups = s.groups := rfl
@[simp] theorem State.finishLate_cores (s : State) (len : Nat) (d : Dest) (la : BitVec 4) (v : Word) : (s.finishLate len d la v).cores = s.cores := rfl
@[simp] theorem State.finishLate_courses (s : State) (len : Nat) (d : Dest) (la : BitVec 4) (v : Word) : (s.finishLate len d la v).courses = s.courses := rfl
@[simp] theorem State.finishLate_dies (s : State) (len : Nat) (d : Dest) (la : BitVec 4) (v : Word) : (s.finishLate len d la v).dies = s.dies := rfl
@[simp] theorem State.finishLate_ctxs (s : State) (len : Nat) (d : Dest) (la : BitVec 4) (v : Word) : (s.finishLate len d la v).ctxs = s.ctxs := rfl
@[simp] theorem State.finishLate_pkgs (s : State) (len : Nat) (d : Dest) (la : BitVec 4) (v : Word) : (s.finishLate len d la v).pkgs = s.pkgs := rfl
@[simp] theorem State.finishLate_units (s : State) (len : Nat) (d : Dest) (la : BitVec 4) (v : Word) : (s.finishLate len d la v).units = s.units := rfl
@[simp] theorem State.finishLate_walks (s : State) (len : Nat) (d : Dest) (la : BitVec 4) (v : Word) : (s.finishLate len d la v).walks = s.walks := rfl
@[simp] theorem State.finishLate_msgs (s : State) (len : Nat) (d : Dest) (la : BitVec 4) (v : Word) : (s.finishLate len d la v).msgs = s.msgs := rfl
@[simp] theorem State.finishLate_away (s : State) (len : Nat) (d : Dest) (la : BitVec 4) (v : Word) : (s.finishLate len d la v).away = s.away := rfl
@[simp] theorem State.finishLate_late (s : State) (len : Nat) (d : Dest) (la : BitVec 4) (v : Word) : (s.finishLate len d la v).late = s.late := rfl
@[simp] theorem State.finishLate_nextId (s : State) (len : Nat) (d : Dest) (la : BitVec 4) (v : Word) : (s.finishLate len d la v).nextId = s.nextId := rfl
@[simp] theorem State.finishLate_clk (s : State) (len : Nat) (d : Dest) (la : BitVec 4) (v : Word) : (s.finishLate len d la v).clk = s.clk := rfl
@[simp] theorem State.finishLate_seq (s : State) (len : Nat) (d : Dest) (la : BitVec 4) (v : Word) : (s.finishLate len d la v).seq = s.seq := rfl

/-! ### waitOn -/

@[simp] theorem State.waitOn_mem (s : State) (w : Wait) : (s.waitOn w).mem = s.mem := rfl
@[simp] theorem State.waitOn_slabs (s : State) (w : Wait) : (s.waitOn w).slabs = s.slabs := rfl
@[simp] theorem State.waitOn_soft (s : State) (w : Wait) : (s.waitOn w).soft = s.soft := rfl
@[simp] theorem State.waitOn_poison (s : State) (w : Wait) : (s.waitOn w).poison = s.poison := rfl
@[simp] theorem State.waitOn_dir (s : State) (w : Wait) : (s.waitOn w).dir = s.dir := rfl
@[simp] theorem State.waitOn_copies (s : State) (w : Wait) : (s.waitOn w).copies = s.copies := rfl
@[simp] theorem State.waitOn_tlbs (s : State) (w : Wait) : (s.waitOn w).tlbs = s.tlbs := rfl
@[simp] theorem State.waitOn_walkCache (s : State) (w : Wait) : (s.waitOn w).walkCache = s.walkCache := rfl
@[simp] theorem State.waitOn_icache (s : State) (w : Wait) : (s.waitOn w).icache = s.icache := rfl
@[simp] theorem State.waitOn_locks (s : State) (w : Wait) : (s.waitOn w).locks = s.locks := rfl
@[simp] theorem State.waitOn_stores (s : State) (w : Wait) : (s.waitOn w).stores = s.stores := rfl
@[simp] theorem State.waitOn_views (s : State) (w : Wait) : (s.waitOn w).views = s.views := rfl
@[simp] theorem State.waitOn_delay (s : State) (w : Wait) : (s.waitOn w).delay = s.delay := rfl
@[simp] theorem State.waitOn_cur (s : State) (w : Wait) : (s.waitOn w).cur = s.cur := rfl
@[simp] theorem State.waitOn_gang (s : State) (w : Wait) : (s.waitOn w).gang = s.gang := rfl
@[simp] theorem State.waitOn_agenda (s : State) (w : Wait) : (s.waitOn w).agenda = s.agenda := rfl
@[simp] theorem State.waitOn_turn (s : State) (w : Wait) : (s.waitOn w).turn = s.turn := rfl
@[simp] theorem State.waitOn_wgs (s : State) (w : Wait) : (s.waitOn w).wgs = s.wgs := rfl
@[simp] theorem State.waitOn_groups (s : State) (w : Wait) : (s.waitOn w).groups = s.groups := rfl
@[simp] theorem State.waitOn_cores (s : State) (w : Wait) : (s.waitOn w).cores = s.cores := rfl
@[simp] theorem State.waitOn_courses (s : State) (w : Wait) : (s.waitOn w).courses = s.courses := rfl
@[simp] theorem State.waitOn_dies (s : State) (w : Wait) : (s.waitOn w).dies = s.dies := rfl
@[simp] theorem State.waitOn_ctxs (s : State) (w : Wait) : (s.waitOn w).ctxs = s.ctxs := rfl
@[simp] theorem State.waitOn_pkgs (s : State) (w : Wait) : (s.waitOn w).pkgs = s.pkgs := rfl
@[simp] theorem State.waitOn_units (s : State) (w : Wait) : (s.waitOn w).units = s.units := rfl
@[simp] theorem State.waitOn_walks (s : State) (w : Wait) : (s.waitOn w).walks = s.walks := rfl
@[simp] theorem State.waitOn_msgs (s : State) (w : Wait) : (s.waitOn w).msgs = s.msgs := rfl
@[simp] theorem State.waitOn_away (s : State) (w : Wait) : (s.waitOn w).away = s.away := rfl
@[simp] theorem State.waitOn_late (s : State) (w : Wait) : (s.waitOn w).late = s.late := rfl
@[simp] theorem State.waitOn_nextId (s : State) (w : Wait) : (s.waitOn w).nextId = s.nextId := rfl
@[simp] theorem State.waitOn_clk (s : State) (w : Wait) : (s.waitOn w).clk = s.clk := rfl
@[simp] theorem State.waitOn_seq (s : State) (w : Wait) : (s.waitOn w).seq = s.seq := rfl

/-! ### Looking up what was changed -/

@[simp] theorem State.thr_setThr (s : State) (k : Nat) (t : Thread) : (s.setThr k t).thr k = t := by
  simp [State.thr, State.setThr]

theorem State.thr_setThr_ne (s : State) {k j : Nat} (t : Thread) (h : j ≠ k) : (s.setThr k t).thr j = s.thr j := by
  simp [State.thr, State.setThr, tget_tset_ne _ _ h]

@[simp] theorem State.thr_updThr (s : State) (k : Nat) (f : Thread → Thread) : (s.updThr k f).thr k = f (s.thr k) := by
  simp [State.updThr]

theorem State.thr_updThr_ne (s : State) {k j : Nat} (f : Thread → Thread) (h : j ≠ k) : (s.updThr k f).thr j = s.thr j := by
  simp [State.updThr, State.thr_setThr_ne _ _ h]

@[simp] theorem State.me_updMe (s : State) (f : Thread → Thread) : (s.updMe f).me = f s.me := by
  simp [State.me, State.updMe]

theorem State.thr_updMe_ne (s : State) {j : Nat} (f : Thread → Thread) (h : j ≠ s.cur) : (s.updMe f).thr j = s.thr j :=
  State.thr_updThr_ne s f h

@[simp] theorem State.wg_setWg (s : State) (k : Nat) (w : WG) : (s.setWg k w).wg k = w := by simp [State.wg, State.setWg]

theorem State.wg_setWg_ne (s : State) {k j : Nat} (w : WG) (h : j ≠ k) : (s.setWg k w).wg j = s.wg j := by
  simp [State.wg, State.setWg, tget_tset_ne _ _ h]

@[simp] theorem State.wg_updWg (s : State) (k : Nat) (f : WG → WG) : (s.updWg k f).wg k = f (s.wg k) := by
  simp [State.updWg]

@[simp] theorem State.core_updCore (s : State) (k : Nat) (f : Core → Core) : (s.updCore k f).core k = f (s.core k) := by
  simp [State.core, State.updCore]

theorem State.core_updCore_ne (s : State) {k j : Nat} (f : Core → Core) (h : j ≠ k) : (s.updCore k f).core j = s.core j := by
  simp [State.core, State.updCore, tget_tset_ne _ _ h]

@[simp] theorem State.course_updCourse (s : State) (k : Nat) (f : Course → Course) : (s.updCourse k f).course k = f (s.course k) := by
  simp [State.course, State.updCourse]

theorem State.course_updCourse_ne (s : State) {k j : Nat} (f : Course → Course) (h : j ≠ k) : (s.updCourse k f).course j = s.course j := by
  simp [State.course, State.updCourse, tget_tset_ne _ _ h]

@[simp] theorem State.die_updDie (s : State) (k : Nat) (f : Die → Die) : (s.updDie k f).die k = f (s.die k) := by
  simp [State.die, State.updDie]

theorem State.die_updDie_ne (s : State) {k j : Nat} (f : Die → Die) (h : j ≠ k) : (s.updDie k f).die j = s.die j := by
  simp [State.die, State.updDie, tget_tset_ne _ _ h]

@[simp] theorem State.ctx_updCtx (s : State) (k : Nat) (f : Ctx → Ctx) : (s.updCtx k f).ctx k = f (s.ctx k) := by
  simp [State.ctx, State.updCtx]

theorem State.ctx_updCtx_ne (s : State) {k j : Nat} (f : Ctx → Ctx) (h : j ≠ k) : (s.updCtx k f).ctx j = s.ctx j := by
  simp [State.ctx, State.updCtx, tget_tset_ne _ _ h]

@[simp] theorem State.pkg_updPkg (s : State) (k : Nat) (f : Pkg → Pkg) : (s.updPkg k f).pkg k = f (s.pkg k) := by
  simp [State.pkg, State.updPkg]

theorem State.pkg_updPkg_ne (s : State) {k j : Nat} (f : Pkg → Pkg) (h : j ≠ k) : (s.updPkg k f).pkg j = s.pkg j := by
  simp [State.pkg, State.updPkg, tget_tset_ne _ _ h]

/-! ### Looking up what was not changed -/

@[simp] theorem State.wg_setThr_other (s : State) (k : Nat) (t : Thread) (j : Nat) : (s.setThr k t).wg j = s.wg j := rfl
@[simp] theorem State.core_setThr_other (s : State) (k : Nat) (t : Thread) (j : Nat) : (s.setThr k t).core j = s.core j := rfl
@[simp] theorem State.course_setThr_other (s : State) (k : Nat) (t : Thread) (j : Nat) : (s.setThr k t).course j = s.course j := rfl
@[simp] theorem State.die_setThr_other (s : State) (k : Nat) (t : Thread) (j : Nat) : (s.setThr k t).die j = s.die j := rfl
@[simp] theorem State.ctx_setThr_other (s : State) (k : Nat) (t : Thread) (j : Nat) : (s.setThr k t).ctx j = s.ctx j := rfl
@[simp] theorem State.pkg_setThr_other (s : State) (k : Nat) (t : Thread) (j : Nat) : (s.setThr k t).pkg j = s.pkg j := rfl
@[simp] theorem State.wg_updThr_other (s : State) (k : Nat) (f : Thread → Thread) (j : Nat) : (s.updThr k f).wg j = s.wg j := rfl
@[simp] theorem State.core_updThr_other (s : State) (k : Nat) (f : Thread → Thread) (j : Nat) : (s.updThr k f).core j = s.core j := rfl
@[simp] theorem State.course_updThr_other (s : State) (k : Nat) (f : Thread → Thread) (j : Nat) : (s.updThr k f).course j = s.course j := rfl
@[simp] theorem State.die_updThr_other (s : State) (k : Nat) (f : Thread → Thread) (j : Nat) : (s.updThr k f).die j = s.die j := rfl
@[simp] theorem State.ctx_updThr_other (s : State) (k : Nat) (f : Thread → Thread) (j : Nat) : (s.updThr k f).ctx j = s.ctx j := rfl
@[simp] theorem State.pkg_updThr_other (s : State) (k : Nat) (f : Thread → Thread) (j : Nat) : (s.updThr k f).pkg j = s.pkg j := rfl
@[simp] theorem State.wg_updMe_other (s : State) (f : Thread → Thread) (j : Nat) : (s.updMe f).wg j = s.wg j := rfl
@[simp] theorem State.core_updMe_other (s : State) (f : Thread → Thread) (j : Nat) : (s.updMe f).core j = s.core j := rfl
@[simp] theorem State.course_updMe_other (s : State) (f : Thread → Thread) (j : Nat) : (s.updMe f).course j = s.course j := rfl
@[simp] theorem State.die_updMe_other (s : State) (f : Thread → Thread) (j : Nat) : (s.updMe f).die j = s.die j := rfl
@[simp] theorem State.ctx_updMe_other (s : State) (f : Thread → Thread) (j : Nat) : (s.updMe f).ctx j = s.ctx j := rfl
@[simp] theorem State.pkg_updMe_other (s : State) (f : Thread → Thread) (j : Nat) : (s.updMe f).pkg j = s.pkg j := rfl
@[simp] theorem State.thr_setWg_other (s : State) (k : Nat) (w : WG) (j : Nat) : (s.setWg k w).thr j = s.thr j := rfl
@[simp] theorem State.core_setWg_other (s : State) (k : Nat) (w : WG) (j : Nat) : (s.setWg k w).core j = s.core j := rfl
@[simp] theorem State.course_setWg_other (s : State) (k : Nat) (w : WG) (j : Nat) : (s.setWg k w).course j = s.course j := rfl
@[simp] theorem State.die_setWg_other (s : State) (k : Nat) (w : WG) (j : Nat) : (s.setWg k w).die j = s.die j := rfl
@[simp] theorem State.ctx_setWg_other (s : State) (k : Nat) (w : WG) (j : Nat) : (s.setWg k w).ctx j = s.ctx j := rfl
@[simp] theorem State.pkg_setWg_other (s : State) (k : Nat) (w : WG) (j : Nat) : (s.setWg k w).pkg j = s.pkg j := rfl
@[simp] theorem State.thr_updWg_other (s : State) (k : Nat) (f : WG → WG) (j : Nat) : (s.updWg k f).thr j = s.thr j := rfl
@[simp] theorem State.core_updWg_other (s : State) (k : Nat) (f : WG → WG) (j : Nat) : (s.updWg k f).core j = s.core j := rfl
@[simp] theorem State.course_updWg_other (s : State) (k : Nat) (f : WG → WG) (j : Nat) : (s.updWg k f).course j = s.course j := rfl
@[simp] theorem State.die_updWg_other (s : State) (k : Nat) (f : WG → WG) (j : Nat) : (s.updWg k f).die j = s.die j := rfl
@[simp] theorem State.ctx_updWg_other (s : State) (k : Nat) (f : WG → WG) (j : Nat) : (s.updWg k f).ctx j = s.ctx j := rfl
@[simp] theorem State.pkg_updWg_other (s : State) (k : Nat) (f : WG → WG) (j : Nat) : (s.updWg k f).pkg j = s.pkg j := rfl
@[simp] theorem State.thr_updCore_other (s : State) (k : Nat) (f : Core → Core) (j : Nat) : (s.updCore k f).thr j = s.thr j := rfl
@[simp] theorem State.wg_updCore_other (s : State) (k : Nat) (f : Core → Core) (j : Nat) : (s.updCore k f).wg j = s.wg j := rfl
@[simp] theorem State.course_updCore_other (s : State) (k : Nat) (f : Core → Core) (j : Nat) : (s.updCore k f).course j = s.course j := rfl
@[simp] theorem State.die_updCore_other (s : State) (k : Nat) (f : Core → Core) (j : Nat) : (s.updCore k f).die j = s.die j := rfl
@[simp] theorem State.ctx_updCore_other (s : State) (k : Nat) (f : Core → Core) (j : Nat) : (s.updCore k f).ctx j = s.ctx j := rfl
@[simp] theorem State.pkg_updCore_other (s : State) (k : Nat) (f : Core → Core) (j : Nat) : (s.updCore k f).pkg j = s.pkg j := rfl
@[simp] theorem State.thr_updCourse_other (s : State) (k : Nat) (f : Course → Course) (j : Nat) : (s.updCourse k f).thr j = s.thr j := rfl
@[simp] theorem State.wg_updCourse_other (s : State) (k : Nat) (f : Course → Course) (j : Nat) : (s.updCourse k f).wg j = s.wg j := rfl
@[simp] theorem State.core_updCourse_other (s : State) (k : Nat) (f : Course → Course) (j : Nat) : (s.updCourse k f).core j = s.core j := rfl
@[simp] theorem State.die_updCourse_other (s : State) (k : Nat) (f : Course → Course) (j : Nat) : (s.updCourse k f).die j = s.die j := rfl
@[simp] theorem State.ctx_updCourse_other (s : State) (k : Nat) (f : Course → Course) (j : Nat) : (s.updCourse k f).ctx j = s.ctx j := rfl
@[simp] theorem State.pkg_updCourse_other (s : State) (k : Nat) (f : Course → Course) (j : Nat) : (s.updCourse k f).pkg j = s.pkg j := rfl
@[simp] theorem State.thr_updDie_other (s : State) (k : Nat) (f : Die → Die) (j : Nat) : (s.updDie k f).thr j = s.thr j := rfl
@[simp] theorem State.wg_updDie_other (s : State) (k : Nat) (f : Die → Die) (j : Nat) : (s.updDie k f).wg j = s.wg j := rfl
@[simp] theorem State.core_updDie_other (s : State) (k : Nat) (f : Die → Die) (j : Nat) : (s.updDie k f).core j = s.core j := rfl
@[simp] theorem State.course_updDie_other (s : State) (k : Nat) (f : Die → Die) (j : Nat) : (s.updDie k f).course j = s.course j := rfl
@[simp] theorem State.ctx_updDie_other (s : State) (k : Nat) (f : Die → Die) (j : Nat) : (s.updDie k f).ctx j = s.ctx j := rfl
@[simp] theorem State.pkg_updDie_other (s : State) (k : Nat) (f : Die → Die) (j : Nat) : (s.updDie k f).pkg j = s.pkg j := rfl
@[simp] theorem State.thr_updCtx_other (s : State) (k : Nat) (f : Ctx → Ctx) (j : Nat) : (s.updCtx k f).thr j = s.thr j := rfl
@[simp] theorem State.wg_updCtx_other (s : State) (k : Nat) (f : Ctx → Ctx) (j : Nat) : (s.updCtx k f).wg j = s.wg j := rfl
@[simp] theorem State.core_updCtx_other (s : State) (k : Nat) (f : Ctx → Ctx) (j : Nat) : (s.updCtx k f).core j = s.core j := rfl
@[simp] theorem State.course_updCtx_other (s : State) (k : Nat) (f : Ctx → Ctx) (j : Nat) : (s.updCtx k f).course j = s.course j := rfl
@[simp] theorem State.die_updCtx_other (s : State) (k : Nat) (f : Ctx → Ctx) (j : Nat) : (s.updCtx k f).die j = s.die j := rfl
@[simp] theorem State.pkg_updCtx_other (s : State) (k : Nat) (f : Ctx → Ctx) (j : Nat) : (s.updCtx k f).pkg j = s.pkg j := rfl
@[simp] theorem State.thr_updPkg_other (s : State) (k : Nat) (f : Pkg → Pkg) (j : Nat) : (s.updPkg k f).thr j = s.thr j := rfl
@[simp] theorem State.wg_updPkg_other (s : State) (k : Nat) (f : Pkg → Pkg) (j : Nat) : (s.updPkg k f).wg j = s.wg j := rfl
@[simp] theorem State.core_updPkg_other (s : State) (k : Nat) (f : Pkg → Pkg) (j : Nat) : (s.updPkg k f).core j = s.core j := rfl
@[simp] theorem State.course_updPkg_other (s : State) (k : Nat) (f : Pkg → Pkg) (j : Nat) : (s.updPkg k f).course j = s.course j := rfl
@[simp] theorem State.die_updPkg_other (s : State) (k : Nat) (f : Pkg → Pkg) (j : Nat) : (s.updPkg k f).die j = s.die j := rfl
@[simp] theorem State.ctx_updPkg_other (s : State) (k : Nat) (f : Pkg → Pkg) (j : Nat) : (s.updPkg k f).ctx j = s.ctx j := rfl
@[simp] theorem State.thr_setService_other (s : State) (u : UnitId) (v : Nat × Nat) (j : Nat) : (s.setService u v).thr j = s.thr j := rfl
@[simp] theorem State.wg_setService_other (s : State) (u : UnitId) (v : Nat × Nat) (j : Nat) : (s.setService u v).wg j = s.wg j := rfl
@[simp] theorem State.core_setService_other (s : State) (u : UnitId) (v : Nat × Nat) (j : Nat) : (s.setService u v).core j = s.core j := rfl
@[simp] theorem State.course_setService_other (s : State) (u : UnitId) (v : Nat × Nat) (j : Nat) : (s.setService u v).course j = s.course j := rfl
@[simp] theorem State.die_setService_other (s : State) (u : UnitId) (v : Nat × Nat) (j : Nat) : (s.setService u v).die j = s.die j := rfl
@[simp] theorem State.ctx_setService_other (s : State) (u : UnitId) (v : Nat × Nat) (j : Nat) : (s.setService u v).ctx j = s.ctx j := rfl
@[simp] theorem State.pkg_setService_other (s : State) (u : UnitId) (v : Nat × Nat) (j : Nat) : (s.setService u v).pkg j = s.pkg j := rfl
@[simp] theorem State.thr_setCopy_other (s : State) (ag sec : Nat) (c : Copy) (j : Nat) : (s.setCopy ag sec c).thr j = s.thr j := rfl
@[simp] theorem State.wg_setCopy_other (s : State) (ag sec : Nat) (c : Copy) (j : Nat) : (s.setCopy ag sec c).wg j = s.wg j := rfl
@[simp] theorem State.core_setCopy_other (s : State) (ag sec : Nat) (c : Copy) (j : Nat) : (s.setCopy ag sec c).core j = s.core j := rfl
@[simp] theorem State.course_setCopy_other (s : State) (ag sec : Nat) (c : Copy) (j : Nat) : (s.setCopy ag sec c).course j = s.course j := rfl
@[simp] theorem State.die_setCopy_other (s : State) (ag sec : Nat) (c : Copy) (j : Nat) : (s.setCopy ag sec c).die j = s.die j := rfl
@[simp] theorem State.ctx_setCopy_other (s : State) (ag sec : Nat) (c : Copy) (j : Nat) : (s.setCopy ag sec c).ctx j = s.ctx j := rfl
@[simp] theorem State.pkg_setCopy_other (s : State) (ag sec : Nat) (c : Copy) (j : Nat) : (s.setCopy ag sec c).pkg j = s.pkg j := rfl

end Sys2Proof.Machine
end

