-- ==== Sys2Proof/Laws/Coherence.lean ====
section
/-!
SUPPORT. What an access to memory can change: memory itself, which keeps its canonical form, slab lines and their soft errors, poisoned
sectors, the directory, copies, instruction caches and translations, of the threads their wake events, and of the dies their counts of
corrected errors.
-/

namespace Sys2Proof.Machine

/-- A thread is the same but for its wake event. -/
def Thread.woken (t u : Thread) : Prop := ∃ r, u = { t with rel := r }

theorem Thread.woken_refl (t : Thread) : t.woken t := ⟨t.rel, rfl⟩

theorem Thread.woken_trans {t u v : Thread} (h : t.woken u) (k : u.woken v) : t.woken v := by
  obtain ⟨a, rfl⟩ := h
  obtain ⟨b, rfl⟩ := k
  exact ⟨b, rfl⟩

/-- Two lists of threads are alike but for wake events. -/
def wokenAll (a b : List (Nat × Thread)) : Prop := List.Forall₂ (fun x y => x.1 = y.1 ∧ x.2.woken y.2) a b

theorem wokenAll_refl (a : List (Nat × Thread)) : wokenAll a a :=
  List.forall₂_same.2 fun x _ => ⟨rfl, x.2.woken_refl⟩

theorem wokenAll_trans {a b c : List (Nat × Thread)} (h : wokenAll a b) (k : wokenAll b c) : wokenAll a c := by
  unfold wokenAll at *
  induction h generalizing c with
  | nil => cases k; exact .nil
  | cons hx _ ih =>
    cases k with
    | cons hy ht => exact .cons ⟨hx.1.trans hy.1, Thread.woken_trans hx.2 hy.2⟩ (ih ht)

theorem wokenAll_wakeIf (p : Nat → Thread → Bool) (a : List (Nat × Thread)) : wokenAll a (wakeIf p a) := by
  unfold wokenAll wakeIf
  rw [List.forall₂_map_right_iff]
  refine List.forall₂_same.2 fun x _ => ?_
  by_cases h : p x.1 x.2 = true
  · rw [if_pos h]; exact ⟨rfl, some 1, rfl⟩
  · rw [if_neg h]; exact ⟨rfl, x.2.woken_refl⟩

theorem wokenAll_tget {a b : List (Nat × Thread)} (h : wokenAll a b) (k : Nat) :
    (tget a k = none ∧ tget b k = none) ∨ ∃ t u, tget a k = some t ∧ tget b k = some u ∧ t.woken u := by
  unfold wokenAll at h
  induction h with
  | nil => exact .inl ⟨rfl, rfl⟩
  | @cons x y l m hx _ ih =>
    obtain ⟨i, t⟩ := x
    obtain ⟨j, u⟩ := y
    obtain ⟨hk, hw⟩ := hx
    simp only at hk hw
    subst hk
    by_cases h : i = k
    · exact .inr ⟨t, u, by simp [tget, h], by simp [tget, h], hw⟩
    · simpa [tget, h] using ih

/-- A die is the same but for its count of corrected errors. -/
def Die.counted (x y : Die) : Prop := ∃ n, y = { x with errCe := n }

theorem Die.counted_refl (x : Die) : x.counted x := ⟨x.errCe, rfl⟩

theorem Die.counted_trans {x y z : Die} (h : x.counted y) (k : y.counted z) : x.counted z := by
  obtain ⟨a, rfl⟩ := h
  obtain ⟨b, rfl⟩ := k
  exact ⟨b, rfl⟩

/-- What the memory system can change. -/
structure State.Mem (s s' : State) : Prop where
  same : s' = { s with
    mem := s'.mem, slabs := s'.slabs, soft := s'.soft, poison := s'.poison, dir := s'.dir, copies := s'.copies, tlbs := s'.tlbs,
    walkCache := s'.walkCache, icache := s'.icache, threads := s'.threads, dies := s'.dies }
  wf : Memory.wf s.mem = true → Memory.wf s'.mem = true
  woken : wokenAll s.threads s'.threads
  die : ∀ d, (s.die d).counted (s'.die d)

theorem State.Mem.refl (s : State) : s.Mem s := ⟨rfl, id, wokenAll_refl _, fun _ => Die.counted_refl _⟩

theorem State.Mem.trans {a b c : State} (h : a.Mem b) (k : b.Mem c) : a.Mem c := by
  refine ⟨?_, k.wf ∘ h.wf, wokenAll_trans h.woken k.woken, fun d => Die.counted_trans (h.die d) (k.die d)⟩
  have h1 := h.same
  have k1 := k.same
  rw [h1] at k1
  exact k1

theorem State.Mem.foldl {α : Type} (f : State → α → State) (hf : ∀ (s : State) (x : α), s.Mem (f s x)) (l : List α) :
    ∀ s : State, s.Mem (l.foldl f s) := by
  induction l with
  | nil => exact State.Mem.refl
  | cons x t ih => exact fun s => (hf s x).trans (ih _)

/-- A change of the tables of the memory system alone. -/
theorem State.Mem.tables (s : State) (b : List (Nat × SlabLine)) (e : List (Nat × Bool)) (p : List Nat) (d : List (Nat × Dir))
    (c : List (Nat × Copy)) (t : List Tlb) (w : List WalkEnt) (i : List (Nat × Nat × Nat)) :
    s.Mem { s with slabs := b, soft := e, poison := p, dir := d, copies := c, tlbs := t, walkCache := w, icache := i } :=
  ⟨rfl, id, wokenAll_refl _, fun _ => Die.counted_refl _⟩

theorem State.Mem.ite {s a b : State} (p : Prop) [Decidable p] (h : s.Mem a) (k : s.Mem b) : s.Mem (if p then a else b) := by
  split
  · exact h
  · exact k

theorem State.mem_dropCopy (s : State) (ag sec : Nat) : s.Mem (s.dropCopy ag sec) :=
  ⟨rfl, id, wokenAll_wakeIf (fun _ t => t.agent == ag && t.monitors sec) s.threads, fun _ => Die.counted_refl _⟩

theorem State.mem_setCopy (s : State) (ag sec : Nat) (c : Copy) : s.Mem (s.setCopy ag sec c) :=
  ⟨rfl, id, wokenAll_refl _, fun _ => Die.counted_refl _⟩

theorem State.mem_wakeWrite (s : State) (ag sec who : Nat) : s.Mem (s.wakeWrite ag sec who) :=
  ⟨rfl, id, wokenAll_wakeIf (fun k t => k != who && t.monitors sec && t.seesWrite ag) s.threads, fun _ => Die.counted_refl _⟩

theorem State.mem_setHome (s : State) (sec : Nat) (d : Dir) : s.Mem (s.setHome sec d) :=
  State.Mem.tables s s.slabs s.soft s.poison _ s.copies s.tlbs s.walkCache s.icache

theorem State.mem_withMem (s : State) (m : Memory) (h : Memory.wf s.mem = true → Memory.wf m = true) :
    s.Mem { s with mem := m } := ⟨rfl, h, wokenAll_refl _, fun _ => Die.counted_refl _⟩

theorem State.mem_withSlabs (s : State) (b : List (Nat × SlabLine)) : s.Mem { s with slabs := b } :=
  State.Mem.tables s b s.soft s.poison s.dir s.copies s.tlbs s.walkCache s.icache

theorem State.mem_withSoft (s : State) (e : List (Nat × Bool)) : s.Mem { s with soft := e } :=
  State.Mem.tables s s.slabs e s.poison s.dir s.copies s.tlbs s.walkCache s.icache

theorem State.mem_withPoison (s : State) (p : List Nat) : s.Mem { s with poison := p } :=
  State.Mem.tables s s.slabs s.soft p s.dir s.copies s.tlbs s.walkCache s.icache

theorem State.mem_withCode (s : State) (i : List (Nat × Nat × Nat)) : s.Mem { s with icache := i } :=
  State.Mem.tables s s.slabs s.soft s.poison s.dir s.copies s.tlbs s.walkCache i

theorem State.mem_withTlbs (s : State) (t : List Tlb) : s.Mem { s with tlbs := t } :=
  State.Mem.tables s s.slabs s.soft s.poison s.dir s.copies t s.walkCache s.icache

theorem State.mem_errCe (s : State) (d n : Nat) : s.Mem (s.updDie d fun x => { x with errCe := x.errCe + n }) := by
  refine ⟨rfl, id, wokenAll_refl _, fun e => ?_⟩
  by_cases h : e = d
  · subst h; rw [State.die_updDie]; exact ⟨_, rfl⟩
  · have : (s.updDie d fun x => { x with errCe := x.errCe + n }).die e = s.die e := by
      simp [State.updDie, State.die, tget_tset_ne _ _ h]
    rw [this]
    exact Die.counted_refl _

theorem foldl_applyPartial_wf (op : RedOp) (wide : Bool) (sec : Nat) (ps : List (Nat × Copy)) :
    ∀ m : Memory, Memory.wf m = true → Memory.wf (ps.foldl (fun m c => applyPartial op wide sec c.2.data c.2.words m) m) = true := by
  induction ps with
  | nil => exact fun _ h => h
  | cons x t ih => exact fun m h => ih _ (applyPartial_wf op wide sec _ _ m h)

/-! ### Slab lines -/

theorem State.mem_homeDirty (s : State) (sec : Nat) (old : BitVec 512) : s.Mem (s.homeDirty sec old) := by
  unfold State.homeDirty
  dsimp only
  split
  · split
    · exact State.Mem.refl s
    · exact s.mem_withSlabs _
  · exact State.Mem.refl s

theorem State.mem_dropReplica (s : State) (p sec : Nat) : s.Mem (s.dropReplica p sec) := by
  unfold State.dropReplica
  split
  · split
    · exact State.Mem.tables s _ _ s.poison s.dir s.copies s.tlbs s.walkCache s.icache
    · exact State.Mem.refl s
  · exact State.Mem.refl s

/-! ### The protocol -/

theorem State.mem_combine (s : State) (sec : Nat) : s.Mem (s.combine sec) := by
  unfold State.combine
  split
  · exact State.Mem.refl s
  · refine State.Mem.trans ?_ (State.mem_setHome _ _ _)
    refine State.Mem.trans ?_ (State.Mem.foldl _ (fun t _ => t.mem_dropCopy _ _) _ _)
    have h := s.mem_homeDirty sec (s.sector sec)
    exact h.trans (State.mem_withMem _ _ fun hw => by
      have e : (s.homeDirty sec (s.sector sec)).mem = s.mem := by
        unfold State.homeDirty
        dsimp only
        split
        · split <;> rfl
        · rfl
      rw [e] at hw
      exact foldl_applyPartial_wf _ _ _ _ _ hw)

theorem State.mem_purgePkg (s : State) (sec p : Nat) : s.Mem (s.purgePkg sec p) :=
  ((State.Mem.foldl _ (fun t _ => t.mem_dropCopy _ _) _ s).trans (State.mem_dropReplica _ _ _)).trans (State.mem_withCode _ _)

theorem State.mem_purgeIn (s : State) (sec : Nat) (p : Nat → Bool) : s.Mem (s.purgeIn sec p) :=
  (State.Mem.foldl _ (fun t i => .ite _ (t.mem_purgePkg sec i) (.refl t)) _ s).trans (State.mem_setHome _ _ _)

theorem State.mem_purgeWrite (s : State) (sec : Nat) : s.Mem (s.purgeWrite sec) := .ite _ (.refl s) (s.mem_purgeIn _ _)

theorem State.mem_giveBack (s : State) (sec : Nat) : s.Mem (s.giveBack sec) := by
  unfold State.giveBack
  split
  · exact (s.mem_homeDirty _ _).trans (State.mem_purgeWrite _ _)
  · exact State.Mem.refl s

theorem State.mem_recall (s : State) (sec : Nat) : s.Mem (s.recall sec) :=
  (((s.mem_combine sec).trans (State.mem_giveBack _ _)).trans (State.Mem.foldl _ (fun t _ => t.mem_dropCopy _ _) _ _)).trans
    (State.mem_setHome _ _ _)

theorem State.mem_meetSoft (s : State) (k : Nat) : s.Mem (s.meetSoft k) :=
  State.Mem.foldl _ (fun t e => .ite _ ((t.mem_withSoft _).trans (State.mem_withPoison _ _))
    ((t.mem_withSoft (t.soft.erase e)).trans (State.mem_errCe _ (k / 2 ^ 52) 1))) _ s

theorem State.mem_atReplica (s : State) (p sec : Nat) : s.Mem (s.atReplica p sec).1 := by
  unfold State.atReplica
  split
  · exact .ite _ (.refl s) (s.mem_meetSoft _)
  · exact State.Mem.refl s

theorem State.mem_evictLine (s : State) (k : Nat) : s.Mem (s.evictLine k) := by
  unfold State.evictLine
  split
  · refine State.Mem.trans (State.Mem.trans ?_ (.ite _ (.refl _) (.ite _ (State.mem_meetSoft _ _) (State.mem_withSoft _ _))))
      (State.mem_withSlabs _ _)
    exact .ite _ (.refl s) (State.Mem.foldl _ (fun t i => t.mem_recall _) _ s)
  · exact State.Mem.refl s

theorem State.mem_slabMake (s : State) (k : Nat) : s.Mem (s.slabMake k) := by
  unfold State.slabMake
  split
  · exact State.Mem.refl s
  · dsimp only
    split
    · exact s.mem_evictLine _
    · exact State.Mem.refl s

theorem State.mem_atSlab (s : State) (pa : Nat) : s.Mem (s.atSlab pa) := by
  have h : s.Mem (if (tget s.slabs (slabKey (slabOf pa) pa)).isSome = true then s else
      { s.slabMake (slabKey (slabOf pa) pa) with
        slabs := tset (s.slabMake (slabKey (slabOf pa) pa)).slabs (slabKey (slabOf pa) pa) ⟨false, 0, 0⟩ }) :=
    .ite _ (.refl s) ((s.mem_slabMake _).trans (State.mem_withSlabs _ _))
  exact h.trans (.ite _ (.refl _) (State.mem_meetSoft _ _))

theorem State.mem_reach (s : State) (pkg pa : Nat) (full : Bool) : s.Mem (s.reach pkg pa full).1 := by
  unfold State.reach
  split
  · exact State.Mem.refl s
  · exact s.mem_atSlab pa

theorem State.mem_probe (s : State) (sec : Nat) : s.Mem (s.probe sec) := by
  unfold State.probe
  split
  · exact .ite _ ((s.mem_setCopy _ _ _).trans (State.mem_setHome _ _ _)) ((s.mem_setCopy _ _ _).trans (State.mem_setHome _ _ _))
  · exact State.Mem.refl s

theorem State.mem_doGetS (s : State) (ag sec : Nat) : s.Mem (s.doGetS ag sec) := by
  unfold State.doGetS
  split
  · exact State.Mem.refl s
  · exact State.Mem.refl s
  · exact State.Mem.refl s
  · exact State.Mem.refl s
  · have h := (s.mem_combine sec).trans (State.mem_probe _ sec)
    exact .ite _ ((h.trans (State.mem_setCopy _ _ _ _)).trans (State.mem_setHome _ _ _))
      ((h.trans (State.mem_setCopy _ _ _ _)).trans (State.mem_setHome _ _ _))

theorem State.mem_doGetX (s : State) (ag sec : Nat) : s.Mem (s.doGetX ag sec) := by
  unfold State.doGetX
  split
  · exact State.Mem.refl s
  · exact s.mem_setCopy _ _ _
  · refine State.Mem.trans (State.Mem.trans ?_ (State.mem_setCopy _ _ _ _)) (State.mem_setHome _ _ _)
    refine State.Mem.trans ?_ (State.Mem.foldl _ (fun t c => .ite _ (.refl t) (t.mem_dropCopy _ _)) _ _)
    exact .ite _ ((s.mem_combine _).trans (State.mem_purgeWrite _ _))
      (((s.mem_combine _).trans (State.mem_purgeWrite _ _)).trans (State.mem_giveBack _ _))

theorem State.mem_doGetU (s : State) (ag sec : Nat) (op : RedOp) (wide : Bool) : s.Mem (s.doGetU ag sec op wide) := by
  unfold State.doGetU
  split
  · split
    · exact State.Mem.refl s
    · exact (s.mem_setCopy _ _ _).trans (State.mem_setHome _ _ _)
  · exact (((s.mem_recall _).trans (State.mem_purgeWrite _ _)).trans (State.mem_setCopy _ _ _ _)).trans (State.mem_setHome _ _ _)

theorem State.mem_claimPriv (s : State) (ag sec : Nat) : s.Mem (s.claimPriv ag sec) :=
  .ite _ (.refl s) ((s.mem_setCopy ag sec _).trans (State.mem_setHome _ _ _))

theorem State.mem_fillReplica (s : State) (p sec : Nat) (v : BitVec 512) : s.Mem (s.fillReplica p sec v) :=
  (s.mem_slabMake _).trans (State.mem_withSlabs _ _)

theorem State.mem_fill (s : State) (ag sec : Nat) (v : BitVec 512) : s.Mem (s.fill ag sec v) := s.mem_setCopy _ _ _

theorem State.mem_fillUntracked (s : State) (r : RegionKind) (ag sec : Nat) : s.Mem (s.fillUntracked r ag sec) := by
  have h : s.Mem (s.newest sec) := (s.mem_combine sec).trans (State.mem_probe _ sec)
  unfold State.fillUntracked
  split
  · exact (State.Mem.ite _ (s.mem_combine sec) (.refl s)).trans (State.mem_fill _ _ _ _)
  · dsimp only
    split
    · exact h.trans (State.mem_fill _ _ _ _)
    · exact ((h.trans (State.mem_setHome _ _ _)).trans (State.mem_fillReplica _ _ _ _)).trans (State.mem_fill _ _ _ _)

theorem State.mem_forLoad (s : State) (r : RegionKind) (ag sec : Nat) : s.Mem (s.forLoad r ag sec) := by
  cases r
  · exact s.mem_claimPriv _ _
  · exact s.mem_fillUntracked _ _ _
  · exact s.mem_doGetS _ _
  · exact s.mem_fillUntracked _ _ _

theorem State.mem_forStore (s : State) (r : RegionKind) (ag sec : Nat) : s.Mem (s.forStore r ag sec) := by
  cases r
  · exact s.mem_claimPriv _ _
  · exact s.mem_doGetX _ _
  · exact s.mem_doGetX _ _
  · exact s.mem_doGetX _ _

theorem State.mem_setMem (s : State) (ag pa n v who : Nat) : s.Mem (s.setMem ag pa n v who) :=
  (s.mem_wakeWrite ag (secOf pa) who).trans
    ⟨rfl, Store.wf_writeN _ _ _ _, wokenAll_refl _, fun _ => Die.counted_refl _⟩

theorem State.mem_setHomeMem (s : State) (ag pa n v who : Nat) : s.Mem (s.setHomeMem ag pa n v who) :=
  ((s.mem_purgeWrite _).trans (State.mem_homeDirty _ _ _)).trans (State.mem_setMem _ _ _ _ _ _)

/-! ### Accesses inside one sector -/

theorem State.mem_ask (s : State) (r : RegionKind) (ag pa : Nat) (full : Bool) : s.Mem (s.ask r ag pa full).1 := by
  have h := s.mem_reach (ag / 512) pa full
  unfold State.ask
  rcases e : s.reach (ag / 512) pa full with ⟨s1, _ | c⟩
  · rw [e] at h; exact h
  · rw [e] at h; exact h

theorem State.mem_secLoad (s : State) (r : RegionKind) (ag pa n : Nat) : s.Mem (s.secLoad r ag pa n).1 := by
  have h := s.mem_ask r ag (s.fwd pa) false
  unfold State.secLoad
  dsimp only
  split
  · exact State.Mem.refl s
  · have h0 : s.Mem (if r == .rdup && (s.hitCode (ag / 512) (s.fwd pa) false).isNone then s.atReplica (ag / 512) (secOf (s.fwd pa))
        else (s, none)).1 := by
      split
      · exact s.mem_atReplica _ _
      · exact State.Mem.refl s
    split
    · rename_i e0; rw [e0] at h0; exact h0.trans (State.mem_fill _ _ _ _)
    · rename_i e0; rw [e0] at h0; exact h0
    · rcases e : s.ask r ag (s.fwd pa) false with ⟨s1, _ | c⟩
      · rw [e] at h; exact h.trans (s1.mem_forLoad _ _ _)
      · rw [e] at h; exact h

theorem State.mem_secLoadNc (s : State) (r : RegionKind) (ag pa n : Nat) : s.Mem (s.secLoadNc r ag pa n).1 := by
  have h := s.mem_ask r ag (s.fwd pa) false
  unfold State.secLoadNc
  dsimp only
  split
  · exact State.Mem.refl s
  · have h0 : s.Mem (if r == .rdup && (s.hitCode (ag / 512) (s.fwd pa) false).isNone then s.atReplica (ag / 512) (secOf (s.fwd pa))
        else (s, none)).1 := by
      split
      · exact s.mem_atReplica _ _
      · exact State.Mem.refl s
    split
    · rename_i e0; rw [e0] at h0; exact h0
    · rename_i e0; rw [e0] at h0; exact h0
    · rcases e : s.ask r ag (s.fwd pa) false with ⟨s1, _ | c⟩
      · rw [e] at h
        dsimp only
        split
        · exact h.trans (.ite _ (s1.mem_combine _) (.refl s1))
        · exact h.trans (s1.mem_combine _)
      · rw [e] at h; exact h

theorem State.mem_secStore (s : State) (r : RegionKind) (ag pa n v who : Nat) : s.Mem (s.secStore r ag pa n v who).1 := by
  have h := s.mem_ask r ag (s.fwd pa) (n == 64)
  unfold State.secStore
  dsimp only
  split
  · split
    · exact State.Mem.refl s
    · exact (s.mem_forStore _ _ _).trans (State.mem_setMem _ _ _ _ _ _)
  · rcases e : s.ask r ag (s.fwd pa) (n == 64) with ⟨s1, _ | c⟩
    · rw [e] at h; exact (h.trans (s1.mem_forStore _ _ _)).trans (State.mem_setMem _ _ _ _ _ _)
    · rw [e] at h; exact h

theorem State.mem_secAtomic (s : State) (r : RegionKind) (ag pa n : Nat) (home : Bool) (f : Nat → Option Nat) (who : Nat) :
    s.Mem (s.secAtomic r ag pa n home f who).1 := by
  have hq : ∀ b : Bool, s.Mem (if b = true then (s, s.hitCode (ag / 512) (s.fwd pa) false)
      else s.ask r ag (s.fwd pa) false).1 := by
    intro b
    cases b
    · exact s.mem_ask _ _ _ _
    · exact State.Mem.refl s
  have hf : ∀ (b : Bool) (t : State) (sec : Nat), t.Mem (if b = true then t.recall sec else t.forStore r ag sec) :=
    fun b t sec => .ite _ (t.mem_recall sec) (t.mem_forStore r ag sec)
  unfold State.secAtomic
  dsimp only
  split
  · exact hq _
  · split
    · exact ((hq _).trans (hf _ _ _)).trans (.ite _ (State.mem_setHomeMem _ _ _ _ _ _) (State.mem_setMem _ _ _ _ _ _))
    · exact (hq _).trans (hf _ _ _)

theorem State.mem_redPartial (s : State) (ag pa : Nat) (op : RedOp) (wide : Bool) (v who : Nat) :
    s.Mem (s.redPartial ag pa op wide v who) := by
  unfold State.redPartial
  dsimp only
  split
  · exact (s.mem_setCopy _ _ _).trans (State.mem_wakeWrite _ _ _ _)
  · exact State.Mem.refl s

theorem State.mem_secRed (s : State) (r : RegionKind) (ag pa : Nat) (op : RedOp) (wide : Bool) (v who : Nat) :
    s.Mem (s.secRed r ag pa op wide v who).1 := by
  have hq : ∀ b : Bool, s.Mem (if b = true then (s, s.hitCode (ag / 512) (s.fwd pa) false)
      else s.ask r ag (s.fwd pa) false).1 := by
    intro b
    cases b
    · exact s.mem_ask _ _ _ _
    · exact State.Mem.refl s
  unfold State.secRed
  dsimp only
  split
  · exact hq _
  · split
    · exact ((hq _).trans (State.mem_forStore _ _ _ _)).trans (State.mem_setMem _ _ _ _ _ _)
    · exact ((hq _).trans (State.mem_doGetU _ _ _ _ _)).trans (State.mem_redPartial _ _ _ _ _ _ _)

theorem State.mem_homeLoad (s : State) (ag pa n : Nat) : s.Mem (s.homeLoad ag pa n).1 := by
  have h := s.mem_ask .coh ag (s.fwd pa) false
  unfold State.homeLoad
  dsimp only
  rcases e : s.ask .coh ag (s.fwd pa) false with ⟨s1, _ | c⟩
  · rw [e] at h; exact h.trans (s1.mem_combine _)
  · rw [e] at h; exact h

theorem State.mem_homeStore (s : State) (ag pa n v : Nat) : s.Mem (s.homeStore ag pa n v).1 := by
  have h := s.mem_ask .coh ag (s.fwd pa) (n == 64)
  unfold State.homeStore
  dsimp only
  rcases e : s.ask .coh ag (s.fwd pa) (n == 64) with ⟨s1, _ | c⟩
  · rw [e] at h; exact (h.trans (s1.mem_recall _)).trans (State.mem_setHomeMem _ _ _ _ _ _)
  · rw [e] at h; exact h

/-! ### Runs -/

theorem State.mem_runLoad (ld : State → Nat → Nat → State × Except Nat Nat) (h : ∀ (s : State) (a n : Nat), s.Mem (ld s a n).1)
    (l : List (Nat × Nat)) : ∀ s : State, s.Mem (State.runLoad ld s l).1 := by
  induction l with
  | nil => exact State.Mem.refl
  | cons x t ih =>
    intro s
    have h1 := h s x.1 x.2
    unfold State.runLoad
    rcases e : ld s x.1 x.2 with ⟨s1, c | v⟩
    · rw [e] at h1; exact h1
    · rw [e] at h1
      have h2 := ih s1
      dsimp only
      rcases e2 : State.runLoad ld s1 t with ⟨s2, c | v⟩
      · rw [e2] at h2; exact h1.trans h2
      · rw [e2] at h2; exact h1.trans h2

theorem State.mem_runStore (st : State → Nat → Nat → Nat → State × Option Nat) (h : ∀ (s : State) (a n v : Nat), s.Mem (st s a n v).1)
    (l : List (Nat × Nat)) : ∀ (s : State) (bs : List Byte), s.Mem (State.runStore st s l bs).1 := by
  induction l with
  | nil => exact fun s _ => State.Mem.refl s
  | cons x t ih =>
    intro s bs
    have h1 := h s x.1 x.2 (natOf (bs.take x.2))
    unfold State.runStore
    rcases e : st s x.1 x.2 (natOf (bs.take x.2)) with ⟨s1, _ | c⟩
    · rw [e] at h1; exact h1.trans (ih s1 _)
    · rw [e] at h1; exact h1

theorem State.mem_homeRead (s : State) (ag pa n : Nat) : s.Mem (s.homeRead ag pa n).1 :=
  State.mem_runLoad _ (fun s a k => s.mem_homeLoad ag a k) _ s

theorem State.mem_homeWrite (s : State) (ag pa : Nat) (bs : List Byte) : s.Mem (s.homeWrite ag pa bs).1 :=
  State.mem_runStore _ (fun s a k v => s.mem_homeStore ag a k v) _ s bs

/-! ### The walk -/

theorem State.mem_readGroup (n : Nat) : ∀ (s : State) (ag base : Nat), s.Mem (s.readGroup ag base n).1 := by
  induction n with
  | zero => exact fun s _ _ => State.Mem.refl s
  | succ n ih =>
    intro s ag base
    have h := s.mem_homeLoad ag base 8
    unfold State.readGroup
    split
    · rename_i e; rw [e] at h; exact h
    · rename_i s1 v e
      rw [e] at h
      have h2 := ih s1 ag (base + 8)
      split
      · rename_i e2; rw [e2] at h2; exact h.trans h2
      · rename_i e2; rw [e2] at h2; exact h.trans h2

theorem State.mem_keepWalk (s : State) (c : MCtx) (va lvl table : Nat) : s.Mem (s.keepWalk c va lvl table) := by
  unfold State.keepWalk
  split
  · exact State.Mem.refl s
  · exact State.Mem.tables s s.slabs s.soft s.poison s.dir s.copies s.tlbs _ s.icache

theorem State.mem_walk (c : MCtx) (va : Nat) (n : Nat) : ∀ (s : State) (table : Nat), s.Mem (s.walk c va n table).1 := by
  induction n with
  | zero => exact fun s _ => State.Mem.refl s
  | succ n ih =>
    intro s table
    unfold State.walk
    dsimp only
    split
    · exact State.Mem.refl s
    · have h := s.mem_homeLoad c.ag (table + 8 * ptIndex va (3 - n)) 8
      split
      · exact h
      · split
        · exact h
        · split
          · exact h
          · split
            · split
              · split
                · exact h
                · have h2 := (s.homeLoad c.ag (table + 8 * ptIndex va (3 - n)) 8).1.mem_readGroup (groupSize (3 - n)) c.ag
                    (table + 8 * (ptIndex va (3 - n) / groupSize (3 - n) * groupSize (3 - n)))
                  split
                  · rename_i e2
                    rw [e2] at h2
                    split
                    · exact h.trans h2
                    · exact h.trans h2
                  · rename_i e2; rw [e2] at h2; exact h.trans h2
              · exact h
            · exact (h.trans (State.mem_keepWalk _ _ _ _ _)).trans (ih _ _)

theorem State.mem_walkAll (s : State) (c : MCtx) (va : Word) : s.Mem (s.walkAll c va).1 := by
  unfold State.walkAll
  split
  · exact State.mem_walk _ _ _ _ _
  · split
    · exact State.Mem.refl s
    · exact State.mem_walk _ _ _ _ _

theorem State.mem_putTlb (s : State) (c : MCtx) (va : Word) (x : Tlb) : s.Mem (s.putTlb c va x) := s.mem_withTlbs _

theorem State.mem_keepTlb (s : State) (c : MCtx) (va : Word) (k : XKind) (e lvl : Nat) : s.Mem (s.keepTlb c va k e lvl) :=
  State.Mem.foldl _ (fun t _ => t.mem_putTlb _ _ _) _ s

end Sys2Proof.Machine
end

