-- ==== Sys2Proof/Laws/Access.lean ====
section
/-!
SUPPORT. What a translation, a load, an atomic or a reduction of a thread can change: what the memory system changes, error
logs of dies, and of the threads their wake events, ERRLOG and deferred errors.
-/

namespace Sys2Proof.Machine

/-- A thread is the same but for its wake event, its ERRLOG registers and its deferred error. -/
def Thread.noted (t u : Thread) : Prop :=
  ∃ r a c d, u = { t with rel := r, errAddr := a, errCause := c, deferred := d }

theorem Thread.noted_refl (t : Thread) : t.noted t := ⟨t.rel, t.errAddr, t.errCause, t.deferred, rfl⟩

theorem Thread.noted_trans {t u v : Thread} (h : t.noted u) (k : u.noted v) : t.noted v := by
  obtain ⟨_, _, _, _, rfl⟩ := h
  obtain ⟨a, b, c, d, rfl⟩ := k
  exact ⟨a, b, c, d, rfl⟩

theorem Thread.woken.noted {t u : Thread} (h : t.woken u) : t.noted u := by
  obtain ⟨r, rfl⟩ := h
  exact ⟨r, t.errAddr, t.errCause, t.deferred, rfl⟩

/-- A die is the same but for its error log and its count of corrected errors. -/
def Die.logged (x y : Die) : Prop := ∃ e h l n, y = { x with errs := e, errHead := h, errLost := l, errCe := n }

theorem Die.logged_refl (x : Die) : x.logged x := ⟨x.errs, x.errHead, x.errLost, x.errCe, rfl⟩

theorem Die.counted.logged {x y : Die} (h : x.counted y) : x.logged y := by
  obtain ⟨n, rfl⟩ := h
  exact ⟨x.errs, x.errHead, x.errLost, n, rfl⟩

theorem Die.logged_trans {x y z : Die} (h : x.logged y) (k : y.logged z) : x.logged z := by
  obtain ⟨_, _, _, _, rfl⟩ := h
  obtain ⟨a, b, c, d, rfl⟩ := k
  exact ⟨a, b, c, d, rfl⟩

/-- Where a thread is in two states: in neither, or in both and alike. -/
def notedAt (a b : List (Nat × Thread)) (k : Nat) : Prop :=
  (tget a k = none ∧ tget b k = none) ∨ ∃ t u, tget a k = some t ∧ tget b k = some u ∧ t.noted u

theorem notedAt_refl (a : List (Nat × Thread)) (k : Nat) : notedAt a a k := by
  cases h : tget a k with
  | none => exact .inl ⟨h, h⟩
  | some t => exact .inr ⟨t, t, h, h, t.noted_refl⟩

theorem notedAt_trans {a b c : List (Nat × Thread)} {k : Nat} (h : notedAt a b k) (g : notedAt b c k) : notedAt a c k := by
  rcases h with ⟨h1, h2⟩ | ⟨t, u, h1, h2, h3⟩
  · rcases g with ⟨_, g2⟩ | ⟨_, _, g1, _⟩
    · exact .inl ⟨h1, g2⟩
    · rw [h2] at g1; cases g1
  · rcases g with ⟨g1, _⟩ | ⟨x, v, g1, g2, g3⟩
    · rw [h2] at g1; cases g1
    · rw [h2] at g1
      cases g1
      exact .inr ⟨t, v, h1, g2, Thread.noted_trans h3 g3⟩

/-- What an access can change. -/
structure State.Seen (s s' : State) : Prop where
  same : s' = { s with
    mem := s'.mem, slabs := s'.slabs, soft := s'.soft, poison := s'.poison, dir := s'.dir, copies := s'.copies, tlbs := s'.tlbs,
    walkCache := s'.walkCache, icache := s'.icache, threads := s'.threads, dies := s'.dies }
  wf : Memory.wf s.mem = true → Memory.wf s'.mem = true
  thr : ∀ k, notedAt s.threads s'.threads k
  die : ∀ d, (s.die d).logged (s'.die d)

theorem State.Seen.refl (s : State) : s.Seen s := ⟨rfl, id, notedAt_refl _, fun d => (s.die d).logged_refl⟩

theorem State.Seen.trans {a b c : State} (h : a.Seen b) (k : b.Seen c) : a.Seen c := by
  refine ⟨?_, k.wf ∘ h.wf, fun i => notedAt_trans (h.thr i) (k.thr i), fun d => Die.logged_trans (h.die d) (k.die d)⟩
  have h1 := h.same
  have k1 := k.same
  rw [h1] at k1
  exact k1

theorem State.Mem.seen {s s' : State} (h : s.Mem s') : s.Seen s' := by
  refine ⟨h.same, h.wf, fun k => ?_, fun d => (h.die d).logged⟩
  · rcases wokenAll_tget h.woken k with g | ⟨t, u, h1, h2, h3⟩
    · exact .inl g
    · exact .inr ⟨t, u, h1, h2, h3.noted⟩

theorem State.seen_cur {s s' : State} (h : s.Seen s') : s'.cur = s.cur := by rw [h.same]

/-- A thread that is there is there afterwards, alike. -/
theorem State.seen_thr {s s' : State} (h : s.Seen s') {k : Nat} {t : Thread} (ht : tget s.threads k = some t) :
    ∃ u, tget s'.threads k = some u ∧ t.noted u := by
  rcases h.thr k with ⟨h1, _⟩ | ⟨x, u, h1, h2, h3⟩
  · rw [ht] at h1; cases h1
  · rw [ht] at h1
    cases h1
    exact ⟨u, h2, h3⟩

theorem State.seen_logErr (s : State) (die : Nat) (a : Word) (c x : Nat) (t : Word) : s.Seen (s.logErr die a c x t) := by
  refine ⟨rfl, id, notedAt_refl _, fun d => ?_⟩
  by_cases h : d = die
  · subst h
    unfold State.logErr
    rw [State.die_updDie]
    split
    · exact ⟨_, _, _, _, rfl⟩
    · exact ⟨_, _, _, _, rfl⟩
  · have : (s.logErr die a c x t).die d = s.die d := by
      simp [State.logErr, State.updDie, State.die, tget_tset_ne _ _ h]
    rw [this]
    exact Die.logged_refl _

/-- A change of one thread that is there in what an access may note. -/
theorem State.seen_updThr (s : State) (k : Nat) (f : Thread → Thread) (hk : (tget s.threads k).isSome = true)
    (hf : ∀ t : Thread, t.noted (f t)) : s.Seen (s.updThr k f) := by
  refine ⟨rfl, id, fun i => ?_, fun d => Die.logged_refl _⟩
  by_cases h : i = k
  · subst h
    obtain ⟨t, ht⟩ := Option.isSome_iff_exists.1 hk
    refine .inr ⟨t, f t, ht, ?_, hf t⟩
    simp [State.updThr, State.setThr, State.thr, ht]
  · have : tget (s.updThr k f).threads i = tget s.threads i := by
      simp [State.updThr, State.setThr, tget_tset_ne _ _ h]
    unfold notedAt
    rw [this]
    exact notedAt_refl _ _

theorem State.seen_respond (s : State) (c : MCtx) (pa code : Nat) : s.Seen (s.respond c pa code) := by
  have h := s.seen_logErr (respDie pa code c.die) (BitVec.ofNat 64 pa) code 0 (s.tidOf (s.thr c.who))
  unfold State.respond State.logResp
  dsimp only
  split
  · exact h.trans (State.seen_updThr _ _ _ (by assumption) fun t => ⟨t.rel, _, _, t.deferred, rfl⟩)
  · exact h

/-! ### Translation -/

theorem State.seen_xlateWalk (s : State) (c : MCtx) (va : Word) (k : XKind) : s.Seen (s.xlateWalk c va k).1 := by
  have h := (s.mem_walkAll c va).seen
  unfold State.xlateWalk
  rcases hw : s.walkAll c va with ⟨s1, r⟩
  rw [hw] at h
  cases r with
  | np => exact h
  | fmt => exact h
  | err code pa => exact h.trans (s1.seen_respond _ _ _)
  | locked => exact h
  | leaf e lvl pa =>
    have hs : ∀ b : Bool, s1.Seen (if b = true then s1 else (s1.homeStore c.ag pa 8 (withAD k e)).1) := by
      intro b
      cases b
      · exact (s1.mem_homeStore _ _ _ _).seen
      · exact State.Seen.refl _
    have h2 := hs (decide (withAD k e = e))
    simp only [decide_eq_true_eq] at h2
    dsimp only
    split
    · exact h
    · split
      · exact (h.trans h2).trans (State.mem_keepTlb _ _ _ _ _ _).seen
      · exact (h.trans h2).trans (State.mem_keepTlb _ _ _ _ _ _).seen

theorem State.seen_xlate (s : State) (c : MCtx) (va : Word) (k : XKind) : s.Seen (s.xlate c va k).1 := by
  unfold State.xlate
  split
  · exact State.Seen.refl s
  · split
    · exact State.Seen.refl s
    · split
      · split
        · exact State.Seen.refl s
        · split
          · exact State.Seen.refl s
          · exact State.Seen.refl s
      · split
        · dsimp only
          split
          · exact (s.mem_putTlb _ _ _).seen
          · exact (s.mem_withTlbs _).seen.trans (State.seen_xlateWalk _ _ _ _)
        · exact s.seen_xlateWalk _ _ _

theorem State.seen_xlateAcc (s : State) (c : MCtx) (va : Word) (k : XKind) (f : State → Nat → Nat → State × Acc)
    (hf : ∀ (s1 : State) (pa leaf : Nat), s.Seen s1 → s1.Seen (f s1 pa leaf).1) : s.Seen (s.xlateAcc c va k f).1 := by
  have h := s.seen_xlate c va k
  unfold State.xlateAcc
  rcases e : s.xlate c va k with ⟨s1, r⟩
  rw [e] at h
  cases r with
  | ok pa leaf => exact h.trans (hf s1 pa leaf h)
  | fault x => exact h
  | wait => exact h

/-! ### Loads, atomics and reductions -/

theorem State.seen_physLoad (s : State) (c : MCtx) (r : RegionKind) (pa n : Nat) (nc : Bool) : s.Seen (s.physLoad c r pa n nc).1 := by
  unfold State.physLoad
  split
  · exact State.Seen.refl s
  · split
    · exact (s.mem_secLoadNc _ _ _ _).seen
    · exact (s.mem_secLoad _ _ _ _).seen

theorem State.seen_ownLoad (s : State) (c : MCtx) (r : RegionKind) (pa n : Nat) (nc : Bool) : s.Seen (s.ownLoad c r pa n nc).1 := by
  have h := s.seen_physLoad c r pa n nc
  unfold State.ownLoad
  split
  · exact State.Seen.refl s
  · rcases e : s.physLoad c r pa n nc with ⟨s1, x | v⟩
    · rw [e] at h; exact h
    · rw [e] at h; exact h

/-- With no store behind and no value bound early, a load is a plain one. -/
theorem State.ownLoad_calm {s : State} (hc : s.Calm) (c : MCtx) (r : RegionKind) (pa n : Nat) (nc : Bool) :
    s.ownLoad c r pa n nc = s.physLoad c r pa n nc := by
  have hs := hc.stores
  have hv := hc.views
  have h := s.seen_physLoad c r pa n nc
  unfold State.ownLoad
  rcases e : s.physLoad c r pa n nc with ⟨s1, x | v⟩
  · simp [State.bound, hv]
  · rw [e] at h
    have h1 : s1.stores = [] := (congrArg State.stores h.same).trans hs
    simp [State.bound, hv, State.overlaid, h1]

/-- With no access behind, no value bound early and none asked to stay behind, a store is a plain one. -/
theorem State.ownStore_calm {s : State} (h : s.Calm) (c : MCtx) (r : RegionKind) (pa n v : Nat) (va : Word) :
    s.ownStore c r pa n v va = s.physStore c r pa n v := by
  obtain ⟨hs, hv, hd⟩ := h
  have h1 : s.staysBehind c pa n = false := by
    unfold State.staysBehind
    split <;> simp [hs, hd]
  have h2 : s.unbind c.who false pa n = s := by
    obtain ⟨⟩ := s
    simp only at hv
    subst hv
    rfl
  simp [State.ownStore, h1, h2]

/-- The same of a store to scratchpad. -/
theorem State.spadBehind_calm {s : State} (h : s.Calm) (o n : Nat) : s.spadBehind o n = false := by
  simp [State.spadBehind, h.stores, h.delay]

theorem State.unbind_calm {s : State} (h : s.Calm) (k : Nat) (spad : Bool) (a n : Nat) : s.unbind k spad a n = s := by
  obtain ⟨⟩ := s
  obtain ⟨_, hv, _⟩ := h
  simp only at hv
  subst hv
  rfl

/-- Without being asked, no load stays behind. -/
theorem State.loadBehind_calm {s : State} (h : s.Calm) (i : Instr) (spad : Bool) (ea : Word) (n : Nat) (nc : Bool) (d : Dest)
    (la : BitVec 4) : s.loadBehind i spad ea n nc d la = none := by
  unfold State.loadBehind
  simp [h.delay]

/-- Nor does an atomic or a `red`. -/
theorem State.rmwBehind_calm {s : State} (h : s.Calm) (i : Instr) (ea : Word) (n v w : Nat) (k : XKind) (f : Thread → Thread) :
    s.rmwBehind i ea n v w k f = none := by
  unfold State.rmwBehind
  simp [h.delay, h.stores]

/-- With no access out of its order, an instruction has nothing to order as it is issued. -/
theorem State.ordered_calm {s : State} (h : s.Calm) (i : Instr) : s.ordered i = s := by
  simp [State.ordered, h.stores, h.views, h.delay]

/-- Nor does it learn anything when it leaves no access out of its order. -/
theorem State.linked_calm {s u : State} (h : u.Calm) (i : Instr) : s.linked i u = u := by
  simp [State.linked, h.stores, h.views, h.delay]

theorem State.seen_dataLoad (s : State) (c : MCtx) (va : Word) (n : Nat) (nc : Bool) : s.Seen (s.dataLoad c va n nc).1 := by
  unfold State.dataLoad
  split
  · exact State.Seen.refl s
  · refine s.seen_xlateAcc _ _ _ _ fun s1 pa leaf _ => ?_
    have h := s1.seen_ownLoad c (regionOf leaf) pa n nc
    rcases e : s1.ownLoad c (regionOf leaf) pa n nc with ⟨s2, x | v⟩
    · rw [e] at h; exact h.trans (s2.seen_respond _ _ _)
    · rw [e] at h; exact h

theorem State.seen_readWords (c : MCtx) (n : Nat) : ∀ (s : State) (va : Word), s.Seen (s.readWords c va n).1 := by
  induction n with
  | zero => exact fun s _ => State.Seen.refl s
  | succ n ih =>
    intro s va
    have h := s.seen_dataLoad c va 8 false
    unfold State.readWords
    rcases e : s.dataLoad c va 8 false with ⟨s1, r⟩
    rw [e] at h
    cases r with
    | ok v =>
      have h2 := ih s1 (va + 8)
      dsimp only
      rcases e2 : State.readWords s1 c (va + 8) n with ⟨s2, x | l⟩
      · rw [e2] at h2; exact h.trans h2
      · rw [e2] at h2; exact h.trans h2
    | trap a b => exact h
    | wait => exact h

theorem State.seen_dataRmw (s : State) (c : MCtx) (va : Word) (n : Nat) (home : Bool) (f : Nat → Option Nat) :
    s.Seen (s.dataRmw c va n home f).1 := by
  unfold State.dataRmw
  split
  · exact State.Seen.refl s
  · refine s.seen_xlateAcc _ _ _ _ fun s1 pa leaf _ => ?_
    split
    · exact s1.seen_respond _ _ _
    · have h := (s1.mem_secAtomic (regionOf leaf) c.ag pa n home f c.who).seen
      rcases e : s1.secAtomic (regionOf leaf) c.ag pa n home f c.who with ⟨s2, x | v⟩
      · rw [e] at h; exact h.trans (s2.seen_respond _ _ _)
      · rw [e] at h; exact h

theorem State.seen_failStore (s : State) (c : MCtx) (pa code : Nat) (va : Word) : s.Seen (s.failStore c pa code va) := by
  have h := s.seen_respond c pa code
  unfold State.failStore
  dsimp only
  split
  · exact h.trans (State.seen_updThr _ _ _ (by assumption) fun t => ⟨t.rel, t.errAddr, t.errCause, _, rfl⟩)
  · exact h

theorem State.seen_dataRed (s : State) (c : MCtx) (va : Word) (op : RedOp) (wide : Bool) (v : Nat) :
    s.Seen (s.dataRed c va op wide v).1 := by
  unfold State.dataRed
  split
  · exact State.Seen.refl s
  · refine s.seen_xlateAcc _ _ _ _ fun s1 pa leaf hs => ?_
    split
    · exact s1.seen_failStore _ _ _ _
    · have h := (s1.mem_secRed (regionOf leaf) c.ag pa op wide v c.who).seen
      rcases e : s1.secRed (regionOf leaf) c.ag pa op wide v c.who with ⟨s2, _ | x⟩
      · rw [e] at h; exact h
      · rw [e] at h; exact h.trans (s2.seen_failStore _ _ _ _)

end Sys2Proof.Machine
end

