-- ==== Sys2Proof/Laws/Thread.lean ====
section
/-!
SUPPORT. Registers with results on their way (02 R40, R41), and what the end of an instruction leaves alone.
-/

namespace Sys2Proof.Machine

/-! ### One register -/

theorem Thread.get_x0 (t : Thread) : t.get (.x 0) = 0 := rfl

theorem Thread.get_raw (t : Thread) (d : Dest) (v : Word) : (t.raw d v).get d = d.holds v := by
  cases d with
  | x r =>
    by_cases h : r = 0
    · subst h; rfl
    · have hd : Dest.x r ≠ .x 0 := fun e => h (Dest.x.inj e)
      simp only [Thread.raw, Thread.rawX, Thread.get, Thread.getX, Dest.holds, if_neg h, if_neg hd, Vector.get_eq_getElem]
      exact Vector.getElem_set_self _
  | f r => simp [Thread.raw, Thread.rawF, Thread.get, Thread.getF, Dest.holds, Vector.get_eq_getElem]

theorem Thread.get_raw_ne (t : Thread) {d e : Dest} (v : Word) (h : e ≠ d) : (t.raw d v).get e = t.get e := by
  cases d with
  | x r =>
    cases e with
    | x q =>
      have hq : r.toNat ≠ q.toNat := fun hh => h (by rw [BitVec.eq_of_toNat_eq hh])
      by_cases hr : r = 0
      · simp [Thread.raw, Thread.rawX, hr]
      · by_cases h0 : q = 0
        · simp [Thread.get, Thread.getX, h0]
        · simp only [Thread.raw, Thread.rawX, Thread.get, Thread.getX, if_neg hr, if_neg h0, Vector.get_eq_getElem]
          exact Vector.getElem_set_ne _ _ hq
    | f q => simp only [Thread.raw, Thread.rawX, Thread.get, Thread.getF]; split <;> rfl
  | f r =>
    cases e with
    | x q => rfl
    | f q =>
      have hq : r.toNat ≠ q.toNat := fun hh => h (by rw [BitVec.eq_of_toNat_eq hh])
      simp [Thread.raw, Thread.rawF, Thread.get, Thread.getF, Vector.get_eq_getElem, Vector.getElem_set_ne, hq]

/-! ### What writes of registers leave alone -/

/-- Two threads are alike but for registers and results on their way. -/
structure Thread.Alike (t u : Thread) : Prop where
  rest : u.rest = t.rest
  p : u.p = t.p
  fflags : u.fflags = t.fflags
  pc : u.pc = t.pc
  lp0 : u.lp0 = t.lp0
  lp1 : u.lp1 = t.lp1
  mode : u.mode = t.mode
  wait : u.wait = t.wait
  restart : u.restart = t.restart

theorem Thread.Alike.refl (t : Thread) : t.Alike t := ⟨rfl, rfl, rfl, rfl, rfl, rfl, rfl, rfl, rfl⟩

theorem Thread.Alike.trans {t u v : Thread} (h : t.Alike u) (k : u.Alike v) : t.Alike v :=
  ⟨k.rest.trans h.rest, k.p.trans h.p, k.fflags.trans h.fflags, k.pc.trans h.pc, k.lp0.trans h.lp0, k.lp1.trans h.lp1,
    k.mode.trans h.mode, k.wait.trans h.wait, k.restart.trans h.restart⟩

theorem Thread.alike_raw (t : Thread) (d : Dest) (v : Word) : t.Alike (t.raw d v) := by
  cases d with
  | x r => simp only [Thread.raw, Thread.rawX]; split <;> exact ⟨rfl, rfl, rfl, rfl, rfl, rfl, rfl, rfl, rfl⟩
  | f r => exact ⟨rfl, rfl, rfl, rfl, rfl, rfl, rfl, rfl, rfl⟩

theorem Thread.raw_pend (t : Thread) (d : Dest) (v : Word) : (t.raw d v).pend = t.pend := by
  cases d with
  | x r => simp only [Thread.raw, Thread.rawX]; split <;> rfl
  | f r => rfl

theorem Thread.alike_pend (t : Thread) (l : List Pend) : t.Alike { t with pend := l } :=
  ⟨rfl, rfl, rfl, rfl, rfl, rfl, rfl, rfl, rfl⟩

theorem Thread.get_pend (t : Thread) (l : List Pend) (e : Dest) : ({ t with pend := l } : Thread).get e = t.get e := by
  cases e <;> rfl

/-! ### `put` and `post` -/

theorem Thread.alike_put (t : Thread) (d : Dest) (v : Word) : t.Alike (t.put d v) :=
  (t.alike_pend _).trans (Thread.alike_raw _ d v)

theorem Thread.get_put (t : Thread) (d : Dest) (v : Word) : (t.put d v).get d = d.holds v := Thread.get_raw _ d v

theorem Thread.get_put_ne (t : Thread) {d e : Dest} (v : Word) (h : e ≠ d) : (t.put d v).get e = t.get e := by
  rw [Thread.put, Thread.get_raw_ne _ _ h, Thread.get_pend]

theorem Thread.put_pend (t : Thread) (d : Dest) (v : Word) : (t.put d v).pend = t.pend.filter (·.dest != d) := by
  rw [Thread.put, Thread.raw_pend]

theorem Thread.quiet_put (t : Thread) (d : Dest) (v : Word) : (t.put d v).quiet d := by
  intro p hp
  rw [Thread.put_pend] at hp
  simpa using (List.mem_filter.1 hp).2

theorem Thread.quiet_put_ne (t : Thread) (d : Dest) (v : Word) {e : Dest} (h : t.quiet e) : (t.put d v).quiet e := by
  intro p hp
  rw [Thread.put_pend] at hp
  exact h p (List.mem_filter.1 hp).1

/-! ### `tick` -/

/-- What an entry brings to its register as an instruction completes. -/
def Pend.brings (p : Pend) : Option Word := if p.left ≤ 1 then p.val else none

theorem Thread.tickOne_brings (t : Thread) (p : Pend) : t.tickOne p = match p.brings with
    | some v => t.put p.dest v
    | none => { t with pend := t.pend ++ [{ p with left := p.left - 1 }] } := by
  obtain ⟨d, v, l, c⟩ := p
  simp only [Thread.tickOne, Pend.brings]
  by_cases h : l ≤ 1
  · simp only [if_pos h]
    cases v with
    | some v => rfl
    | none => rw [show l - 1 = 0 by omega]
  · simp only [if_neg h]

theorem brings_overtaken {l : List Pend} {d : Dest} {p : Pend} (h : p ∈ overtaken l d) (hd : p.dest = d) : p.brings = none := by
  have h2 := (List.mem_filter.1 h).2
  simp [hd] at h2
  simp only [Pend.brings]
  split
  · simp [h2.1]
  · rfl

theorem Thread.alike_tickOne (t : Thread) (e : Pend) : t.Alike (t.tickOne e) := by
  rw [t.tickOne_brings]
  split
  · exact t.alike_put _ _
  · exact t.alike_pend _

theorem Thread.get_tickOne (t : Thread) (p : Pend) {e : Dest} (h : p.dest ≠ e) : (t.tickOne p).get e = t.get e := by
  rw [t.tickOne_brings]
  split
  · exact t.get_put_ne _ (Ne.symm h)
  · exact t.get_pend _ _

theorem Thread.get_tickOne_keeps (t : Thread) (p : Pend) {d : Dest} {w : Word} (hg : t.get d = w)
    (h : p.dest = d → ∀ v, p.brings = some v → d.holds v = w) : (t.tickOne p).get d = w := by
  rw [t.tickOne_brings]
  split
  · rename_i v hv
    by_cases hd : p.dest = d
    · rw [hd, t.get_put, h hd v hv]
    · rw [t.get_put_ne _ (Ne.symm hd), hg]
  · rw [t.get_pend, hg]

theorem Thread.pend_tickOne (t : Thread) (p q : Pend) (h : q ∈ t.pend) (hp : p.dest = q.dest → p.brings = none) :
    q ∈ (t.tickOne p).pend := by
  rw [t.tickOne_brings]
  split
  · rename_i v hv
    rw [t.put_pend]
    refine List.mem_filter.2 ⟨h, ?_⟩
    simp only [bne_iff_ne]
    intro hd
    rw [hp hd.symm] at hv
    cases hv
  · exact List.mem_append_left _ h

theorem Thread.foldl_tickOne (l : List Pend) : ∀ t : Thread, t.Alike (l.foldl Thread.tickOne t) ∧
    (∀ e, (∀ p ∈ l, p.dest ≠ e) → (l.foldl Thread.tickOne t).get e = t.get e) ∧
    (∀ q ∈ t.pend, (∀ p ∈ l, p.dest = q.dest → p.brings = none) → q ∈ (l.foldl Thread.tickOne t).pend) ∧
    (∀ q ∈ l, (∀ p ∈ l, p.dest = q.dest → p.brings = none) → { q with left := q.left - 1 } ∈ (l.foldl Thread.tickOne t).pend) ∧
    (∀ d w, t.get d = w → (∀ p ∈ l, p.dest = d → ∀ v, p.brings = some v → d.holds v = w) → (l.foldl Thread.tickOne t).get d = w) ∧
    (∀ q ∈ l, ∀ v, q.brings = some v → (∀ p ∈ l, p.dest = q.dest → ∀ w, p.brings = some w → w = v) →
      (l.foldl Thread.tickOne t).get q.dest = q.dest.holds v) := by
  induction l with
  | nil => intro t; exact ⟨.refl t, fun _ _ => rfl, fun _ h _ => h, (by simp), fun _ _ h _ => h, (by simp)⟩
  | cons a l ih =>
    intro t
    obtain ⟨h1, h2, h3, h4, h5, h6⟩ := ih (t.tickOne a)
    refine ⟨(t.alike_tickOne a).trans h1, fun e he => ?_, fun q hq hp => ?_, fun q hq hp => ?_, fun d w hg hp => ?_, fun q hq v hv hp => ?_⟩
    · rw [List.foldl_cons, h2 e fun p hp => he p (List.mem_cons_of_mem _ hp), t.get_tickOne a (he a List.mem_cons_self)]
    · exact h3 q (t.pend_tickOne a q hq (hp a List.mem_cons_self)) fun p hm => hp p (List.mem_cons_of_mem _ hm)
    · rcases List.mem_cons.1 hq with rfl | hq
      · refine h3 _ ?_ fun p hm => hp p (List.mem_cons_of_mem _ hm)
        rw [t.tickOne_brings, hp q List.mem_cons_self rfl]
        simp
      · exact h4 q hq fun p hm => hp p (List.mem_cons_of_mem _ hm)
    · exact h5 d w (t.get_tickOne_keeps a hg (hp a List.mem_cons_self)) fun p hm => hp p (List.mem_cons_of_mem _ hm)
    · rcases List.mem_cons.1 hq with rfl | hq
      · refine h5 _ _ ?_ fun p hm hd w hw => by rw [hp p (List.mem_cons_of_mem _ hm) hd w hw]
        rw [t.tickOne_brings, hv]
        exact t.get_put _ _
      · exact h6 q hq v hv fun p hm => hp p (List.mem_cons_of_mem _ hm)

theorem Thread.alike_tick (t : Thread) : t.Alike t.tick := (t.alike_pend _).trans (Thread.foldl_tickOne t.pend _).1

theorem Thread.get_tick (t : Thread) {e : Dest} (h : t.quiet e) : t.tick.get e = t.get e :=
  (Thread.foldl_tickOne t.pend _).2.1 e h

/-- A result stays on its way while no other one reaches its register. -/
theorem Thread.mem_tick (t : Thread) (q : Pend) (h : q ∈ t.pend) (hp : ∀ p ∈ t.pend, p.dest = q.dest → p.brings = none) :
    { q with left := q.left - 1 } ∈ t.tick.pend := (Thread.foldl_tickOne t.pend _).2.2.2.1 q h hp

/-- A register that no result reaches keeps its value. -/
theorem Thread.get_tick_keeps (t : Thread) (d : Dest) (hp : ∀ p ∈ t.pend, p.dest = d → p.brings = none) : t.tick.get d = t.get d :=
  (Thread.foldl_tickOne t.pend _).2.2.2.2.1 d _ (t.get_pend [] d) fun p hm hd v hv => by rw [hp p hm hd] at hv; cases hv

/-! ### `complete` -/

/-- The end of an instruction: what it leaves alone, and where the program counter goes. -/
structure Thread.Over (t u : Thread) (n : Nat) : Prop where
  rest : u.rest = t.rest
  p : u.p = t.p
  fflags : u.fflags = t.fflags
  get : ∀ e, t.quiet e → u.get e = t.get e
  pend : u.pend = t.tick.pend
  moves : MovesOn t u n

theorem Thread.over_settle (t : Thread) : t.tick.settle.rest = t.rest ∧ t.tick.settle.p = t.p ∧ t.tick.settle.fflags = t.fflags ∧
    (∀ e, t.quiet e → t.tick.settle.get e = t.get e) ∧ t.tick.settle.pend = t.tick.pend := by
  refine ⟨?_, t.alike_tick.p, t.alike_tick.fflags, fun e h => ?_, rfl⟩
  · exact t.alike_tick.rest
  · rw [← t.get_tick h]; cases e <;> rfl

theorem Thread.loopEnd0_rest (u : Thread) (a : Word) : (u.loopEnd0 a).rest = u.rest ∧ (u.loopEnd0 a).p = u.p ∧
    (u.loopEnd0 a).fflags = u.fflags ∧ (∀ e, (u.loopEnd0 a).get e = u.get e) ∧ (u.loopEnd0 a).pend = u.pend := by
  simp only [Thread.loopEnd0]
  split <;> exact ⟨rfl, rfl, rfl, fun e => by cases e <;> rfl, rfl⟩

theorem Thread.loopEnd1_rest (u : Thread) (a : Word) : (u.loopEnd1 a).rest = u.rest ∧ (u.loopEnd1 a).p = u.p ∧
    (u.loopEnd1 a).fflags = u.fflags ∧ (∀ e, (u.loopEnd1 a).get e = u.get e) ∧ (u.loopEnd1 a).pend = u.pend := by
  simp only [Thread.loopEnd1]
  split
  · exact ⟨rfl, rfl, rfl, fun e => by cases e <;> rfl, rfl⟩
  · split
    · have h := Thread.loopEnd0_rest { u with lp1 := { u.lp1 with count := u.lp1.count - 1 } } a
      exact ⟨h.1.trans rfl, h.2.1, h.2.2.1, fun e => (h.2.2.2.1 e).trans (by cases e <;> rfl), h.2.2.2.2⟩
    · exact ⟨rfl, rfl, rfl, fun e => by cases e <;> rfl, rfl⟩

theorem Thread.over_complete (t : Thread) (n : Nat) : t.Over (t.complete n) n := by
  obtain ⟨h1, h2, h3, h4, h5⟩ := t.over_settle
  have hl0 : t.tick.settle.lp0 = t.lp0 := t.alike_tick.lp0
  have hl1 : t.tick.settle.lp1 = t.lp1 := t.alike_tick.lp1
  have plain : ∀ a : Word, ({ t.tick.settle with pc := a } : Thread).rest = t.rest ∧
      ∀ e, t.quiet e → ({ t.tick.settle with pc := a } : Thread).get e = t.get e :=
    fun a => ⟨h1, fun e he => (by rw [← h4 e he]; cases e <;> rfl)⟩
  by_cases hm : t.mode = true
  · simp only [Thread.complete, hm, if_true]
    exact ⟨(plain _).1, h2, h3, (plain _).2, h5, fun _ => ⟨rfl, hl0, hl1⟩⟩
  · simp only [Thread.complete, hm, Bool.false_eq_true, if_false]
    by_cases k1 : t.lp1.hit t.pc n = true
    · rw [if_pos k1]
      obtain ⟨q1, q2, q3, q4, q5⟩ := t.tick.settle.loopEnd1_rest (t.pc + BitVec.ofNat 64 n)
      exact ⟨q1.trans h1, q2.trans h2, q3.trans h3, fun e he => (q4 e).trans (h4 e he), q5.trans h5,
        fun h => by rcases h with h | h <;> simp_all⟩
    · rw [if_neg k1]
      by_cases k0 : t.lp0.hit t.pc n = true
      · rw [if_pos k0]
        obtain ⟨q1, q2, q3, q4, q5⟩ := t.tick.settle.loopEnd0_rest (t.pc + BitVec.ofNat 64 n)
        exact ⟨q1.trans h1, q2.trans h2, q3.trans h3, fun e he => (q4 e).trans (h4 e he), q5.trans h5,
          fun h => by rcases h with h | h <;> simp_all⟩
      · rw [if_neg k0]
        exact ⟨(plain _).1, h2, h3, (plain _).2, h5, fun _ => ⟨rfl, hl0, hl1⟩⟩

end Sys2Proof.Machine
end

