-- ==== Sys2Proof/Laws/Lane.lean ====
section
/-!
SUPPORT. The common frame of the encoded instructions, and the ends most of them share, in the terms of claims.
-/

namespace Sys2Proof.Machine

theorem State.thr_here {s : State} {k : Nat} {t : Thread} (h : tget s.threads k = some t) : s.thr k = t := by
  simp [State.thr, h]

theorem State.me_here {s : State} {t : Thread} (h : tget s.threads s.cur = some t) : s.me = t := State.thr_here h

theorem State.updMe_here {s : State} {t : Thread} (h : tget s.threads s.cur = some t) (f : Thread → Thread) :
    s.updMe f = s.setThr s.cur (f t) := by
  simp [State.updMe, State.updThr, State.thr_here h]

/-! ### The frame -/

theorem State.lane_runs {s : State} {t : Thread} {g : BitVec 4} {rs rd : List Dest} (h : Runs s t g rs rd) (i : Instr)
    (eng : Bool) (he : eng = true → t.onL = false) (eff : State → State) : s.lane i g eng rs rd eff = .next (eff s) := by
  have h1 : (eng && t.onL) = false := by cases eng <;> simp_all
  simp [State.lane, h.here, h1, h.budget, h.guard, h.ready]

theorem State.lane_engine {s : State} {t : Thread} (h : tget s.threads s.cur = some t) (hl : t.onL = true) (i : Instr)
    (g : BitVec 4) (rs rd : List Dest) (eff : State → State) :
    s.lane i g true rs rd eff = .next (s.trap 0x07 (parcels i)) := by
  simp [State.lane, h, hl]

theorem State.lane_budget {s : State} {t : Thread} (h : tget s.threads s.cur = some t) (i : Instr) (g : BitVec 4) (eng : Bool)
    (rs rd : List Dest) (eff : State → State) (he : eng = true → t.onL = false) (hb : rs.all t.inBudget = false) :
    s.lane i g eng rs rd eff = .next (s.trap 0x05 (parcels i)) := by
  have h1 : (eng && t.onL) = false := by cases eng <;> simp_all
  simp [State.lane, h, h1, hb]

theorem State.lane_false {s : State} {t : Thread} (h : tget s.threads s.cur = some t) (i : Instr) (g : BitVec 4) (eng : Bool)
    (rs rd : List Dest) (eff : State → State) (he : eng = true → t.onL = false) (hb : rs.all t.inBudget = true)
    (hg : t.guard g = false) : s.lane i g eng rs rd eff = .next (s.finish (encode i).1) := by
  have h1 : (eng && t.onL) = false := by cases eng <;> simp_all
  simp [State.lane, h, h1, hb, hg]

theorem State.lane_waits {s : State} {t : Thread} (h : tget s.threads s.cur = some t) (i : Instr) (g : BitVec 4) (eng : Bool)
    (rs rd : List Dest) (eff : State → State) (he : eng = true → t.onL = false) (hb : rs.all t.inBudget = true)
    (hg : t.guard g = true) (hz : t.hazard rd = true) : s.lane i g eng rs rd eff = .next (s.waitOn (.reg rd)) := by
  have h1 : (eng && t.onL) = false := by cases eng <;> simp_all
  simp [State.lane, h, h1, hb, hg, hz]

/-! ### Ends -/

/-- A thread changed in registers of a list, predicates and flags, whose instruction then completes. -/
theorem Ends.of_complete {s : State} {t w : Thread} {i : Instr} {n : Nat} (ds : List Dest)
    (h : tget s.threads s.cur = some t) (hx : exec i s = .next (s.updMe fun _ => w.complete n)) (hn : n = (encode i).1)
    (hr : w.rest = t.rest) (hpc : w.pc = t.pc) (hm : w.mode = t.mode) (h0 : w.lp0 = t.lp0) (h1 : w.lp1 = t.lp1)
    (hg : ∀ e, e ∉ ds → t.quiet e → w.quiet e ∧ w.get e = t.get e) : Ends s t (w.complete n) i ds := by
  have o := w.over_complete n
  subst hn
  refine ⟨by rw [hx, State.updMe_here h], o.rest.trans hr, fun e he hq => ?_, ?_⟩
  · obtain ⟨q1, q2⟩ := hg e he hq
    rw [o.get e q1, q2]
  · have hmv := o.moves
    simp only [MovesOn, hpc, hm, h0, h1] at hmv ⊢
    exact hmv

theorem Gives.of_put {s : State} {t : Thread} {i : Instr} {n : Nat} {d : Dest} {v : Word}
    (h : tget s.threads s.cur = some t) (hx : exec i s = .next (s.updMe fun t => (t.put d v).complete n))
    (hn : n = (encode i).1) : Gives s t i d v := by
  have a := t.alike_put d v
  have o := (t.put d v).over_complete n
  rw [State.updMe_here h] at hx
  refine ⟨(t.put d v).complete n, Ends.of_complete [d] h (by rw [State.updMe_here h]; exact hx) hn a.rest a.pc a.mode a.lp0 a.lp1
    fun e he hq => ⟨t.quiet_put_ne d v hq, t.get_put_ne v fun hh => he (by simp [hh])⟩, ?_, o.p.trans a.p, o.fflags.trans a.fflags⟩
  rw [o.get d (t.quiet_put d v), t.get_put]

/-- A write of a register after flags have been added. -/
theorem GivesFl.of_put {s : State} {t : Thread} {i : Instr} {n : Nat} {d : Dest} {r : Word × BitVec 5}
    (h : tget s.threads s.cur = some t) (hx : exec i s = .next (s.updMe fun t => ((t.raise r.2).put d r.1).complete n))
    (hn : n = (encode i).1) : GivesFl s t i d r := by
  have a := (t.raise r.2).alike_put d r.1
  have o := ((t.raise r.2).put d r.1).over_complete n
  have hq0 : ∀ e, t.quiet e → (t.raise r.2).quiet e := fun e he => he
  have hg0 : ∀ e, (t.raise r.2).get e = t.get e := fun e => by cases e <;> rfl
  rw [State.updMe_here h] at hx
  refine ⟨((t.raise r.2).put d r.1).complete n, Ends.of_complete [d] h (by rw [State.updMe_here h]; exact hx) hn (a.rest.trans rfl) a.pc a.mode
    a.lp0 a.lp1 fun e he hq => ⟨Thread.quiet_put_ne _ d _ (hq0 e hq), ?_⟩, ?_, o.p.trans a.p, o.fflags.trans a.fflags⟩
  · rw [Thread.get_put_ne _ _ fun hh => he (by simp [hh]), hg0]
  · rw [o.get d (Thread.quiet_put _ d _), Thread.get_put]

theorem GivesLate.of_post {s : State} {t : Thread} {i : Instr} {n : Nat} {d : Dest} {la : BitVec 4} {r : Word × BitVec 5}
    (h : tget s.threads s.cur = some t) (hx : exec i s = .next (s.updMe fun t => ((t.raise r.2).post d la r.1).complete n))
    (hn : n = (encode i).1) : GivesLate s t i d la r := by
  constructor
  · intro hc
    apply GivesFl.of_put h _ hn
    rw [hx]
    congr 1
    rw [State.updMe_here h, State.updMe_here h]
    congr 2
    have hl : (t.raise r.2).locked = t.locked := rfl
    rcases hc with hc | hc | hc <;> simp [Thread.post, hl, hc]
  · rintro ⟨hl, hla, hd⟩
    have hp : (t.raise r.2).post d la r.1 =
        { t.raise r.2 with pend := overtaken t.pend d ++ [⟨d, some r.1, la.toNat + 1, 0⟩] } := by
      have hl2 : (t.raise r.2).locked = false := hl
      simp only [Thread.post, hl2]
      rw [if_neg (by simp; exact ⟨hla, hd⟩)]
      rfl
    have hlan : 0 < la.toNat := by
      rcases Nat.eq_zero_or_pos la.toNat with h0 | h0
      · exact absurd (BitVec.eq_of_toNat_eq (by simpa using h0)) hla
      · exact h0
    let w : Thread := { t.raise r.2 with pend := overtaken t.pend d ++ [⟨d, some r.1, la.toNat + 1, 0⟩] }
    have hw : (t.raise r.2).post d la r.1 = w := hp
    have hget : ∀ e, w.get e = t.get e := fun e => by cases e <;> rfl
    have hq : ∀ e, e ≠ d → t.quiet e → w.quiet e := by
      intro e he hq p hp2
      rcases List.mem_append.1 hp2 with hp2 | hp2
      · exact hq p (List.mem_filter.1 hp2).1
      · simp only [List.mem_singleton] at hp2
        rw [hp2]; exact Ne.symm he
    have hb : ∀ p ∈ w.pend, p.dest = d → p.brings = none := by
      intro p hp2 hd2
      rcases List.mem_append.1 hp2 with hp2 | hp2
      · exact brings_overtaken hp2 hd2
      · rw [List.mem_singleton.1 hp2]
        exact if_neg (show ¬ la.toNat + 1 ≤ 1 by omega)
    have o := w.over_complete n
    refine ⟨w.complete n, Ends.of_complete [d] h ?_ hn rfl rfl rfl rfl rfl
      (fun e he hqe => ⟨hq e (fun hh => he (by simp [hh])) hqe, hget e⟩), ?_, o.p.trans rfl, o.fflags.trans rfl, ?_⟩
    · rw [hx, State.updMe_here h, State.updMe_here h, hw]
    · have h3 : (w.complete n).get d = w.tick.get d := by
        simp only [Thread.complete]
        have k0 := w.tick.settle.loopEnd0_rest (w.pc + BitVec.ofNat 64 n)
        have k1 := w.tick.settle.loopEnd1_rest (w.pc + BitVec.ofNat 64 n)
        have ks : ∀ e, w.tick.settle.get e = w.tick.get e := fun e => by cases e <;> rfl
        split
        · exact (by cases d <;> rfl : _ = w.tick.settle.get d).trans (ks d)
        · split
          · exact (k1.2.2.2.1 d).trans (ks d)
          · split
            · exact (k0.2.2.2.1 d).trans (ks d)
            · exact (by cases d <;> rfl : _ = w.tick.settle.get d).trans (ks d)
      rw [h3]
      exact (w.get_tick_keeps d hb).trans (hget d)
    · rw [o.pend]
      exact w.mem_tick ⟨d, some r.1, la.toNat + 1, 0⟩ (List.mem_append_right _ (by simp)) hb

theorem Thread.getP_setP (t : Thread) (d q : BitVec 3) (v : Bool) :
    (t.setP d v).getP q = if q = d then v || d == 7 else t.getP q := by
  simp only [Thread.getP, Thread.setP]
  by_cases h : q = d
  · subst h
    rw [if_pos rfl]
    by_cases h7 : q = 7
    · subst h7; simp
    · have hlt : q.toNat < 7 := by
        have h8 := q.isLt
        rcases Nat.lt_or_ge q.toNat 7 with h9 | h9
        · exact h9
        · exact absurd (BitVec.eq_of_toNat_eq (by simp; omega)) h7
      simp [hlt]
      intro hh; exact absurd hh h7
  · rw [if_neg h]
    have hne : d.toNat ≠ q.toNat := fun hh => h (BitVec.eq_of_toNat_eq hh.symm)
    simp [hne]

theorem GivesP.of_setP {s : State} {t : Thread} {i : Instr} {n : Nat} {d : BitVec 3} {v : Bool}
    (h : tget s.threads s.cur = some t) (hx : exec i s = .next (s.updMe fun t => (t.setP d v).complete n))
    (hn : n = (encode i).1) : GivesP s t i d v := by
  have o := (t.setP d v).over_complete n
  have hg : ∀ q, ((t.setP d v).complete n).getP q = (t.setP d v).getP q := fun q => by simp only [Thread.getP, o.p]
  refine ⟨(t.setP d v).complete n, Ends.of_complete [] h (by rw [hx, State.updMe_here h, State.updMe_here h]) hn rfl rfl rfl rfl rfl
    fun e _ hq => ⟨hq, by cases e <;> rfl⟩, ?_, fun q hq => ?_, o.fflags⟩
  · rw [hg, Thread.getP_setP, if_pos rfl]
  · rw [hg, Thread.getP_setP, if_neg hq]

end Sys2Proof.Machine
end

