-- ==== Sys2Proof/Laws/Layout.lean ====
section
/-!
SUPPORT. Reading the fields of a packed layout gives them back (02 R34 to R38).
-/

namespace Sys2Proof

theorem bfld_eq (w lo len n : Nat) (v : BitVec len) (h : w / 2 ^ lo % 2 ^ len = n) (hv : n = v.toNat) : bfld w lo len = v := by
  apply BitVec.eq_of_toNat_eq
  rw [bfld, BitVec.toNat_ofNat, h, hv]

theorem LayR.unpack_pack (r : LayR) (ho : r.op < 64) (hf : r.fn < 64) : LayR.unpack (r.pack % 2 ^ 32) = r := by
  obtain ⟨op, g, d, a, b, fn⟩ := r
  have hg := g.isLt; have hd := d.isLt; have ha := a.isLt; have hb := b.isLt
  simp only [LayR.unpack, LayR.pack, LayR.mk.injEq] at *
  refine ⟨?_, ?_, ?_, ?_, ?_, ?_⟩
  · simp only [fld]; omega
  · exact bfld_eq _ _ _ _ _ (by omega) rfl
  · exact bfld_eq _ _ _ _ _ (by omega) rfl
  · exact bfld_eq _ _ _ _ _ (by omega) rfl
  · exact bfld_eq _ _ _ _ _ (by omega) rfl
  · simp only [fld]; omega

theorem LayM.unpack_pack (r : LayM) (ho : r.op < 64) : LayM.unpack (r.pack % 2 ^ 32) = r := by
  obtain ⟨op, g, d, a, off, la⟩ := r
  have hg := g.isLt; have hd := d.isLt; have ha := a.isLt; have hb := off.isLt; have hl := la.isLt
  simp only [LayM.unpack, LayM.pack, LayM.mk.injEq] at *
  refine ⟨?_, ?_, ?_, ?_, ?_, ?_⟩
  · simp only [fld]; omega
  all_goals exact bfld_eq _ _ _ _ _ (by omega) rfl

theorem LayI.unpack_pack (r : LayI) (ho : r.op < 64) (hf : r.fn < 8) : LayI.unpack (r.pack % 2 ^ 32) = r := by
  obtain ⟨op, d, a, imm, fn⟩ := r
  have hd := d.isLt; have ha := a.isLt; have hb := imm.isLt
  simp only [LayI.unpack, LayI.pack, LayI.mk.injEq] at *
  refine ⟨?_, ?_, ?_, ?_, ?_⟩
  · simp only [fld]; omega
  · exact bfld_eq _ _ _ _ _ (by omega) rfl
  · exact bfld_eq _ _ _ _ _ (by omega) rfl
  · exact bfld_eq _ _ _ _ _ (by omega) rfl
  · simp only [fld]; omega

theorem LayU.unpack_pack (r : LayU) (ho : r.op < 64) : LayU.unpack (r.pack % 2 ^ 32) = r := by
  obtain ⟨op, d, imm⟩ := r
  have hd := d.isLt; have hb := imm.isLt
  simp only [LayU.unpack, LayU.pack, LayU.mk.injEq] at *
  refine ⟨?_, ?_, ?_⟩
  · simp only [fld]; omega
  all_goals exact bfld_eq _ _ _ _ _ (by omega) rfl

theorem LayJ.unpack_pack (r : LayJ) (ho : r.op < 64) : LayJ.unpack (r.pack % 2 ^ 32) = r := by
  obtain ⟨op, g, off⟩ := r
  have hd := g.isLt; have hb := off.isLt
  simp only [LayJ.unpack, LayJ.pack, LayJ.mk.injEq] at *
  refine ⟨?_, ?_, ?_⟩
  · simp only [fld]; omega
  all_goals exact bfld_eq _ _ _ _ _ (by omega) rfl

theorem LayL.unpack_pack (r : LayL) (ho : r.op < 64) (hf : r.fn < 2048) : LayL.unpack (r.pack % 2 ^ 64) = r := by
  obtain ⟨op, g, d, a, fn, imm⟩ := r
  have hg := g.isLt; have hd := d.isLt; have ha := a.isLt; have hb := imm.isLt
  simp only [LayL.unpack, LayL.pack, LayL.mk.injEq] at *
  refine ⟨?_, ?_, ?_, ?_, ?_, ?_⟩
  · simp only [fld]; omega
  · exact bfld_eq _ _ _ _ _ (by omega) rfl
  · exact bfld_eq _ _ _ _ _ (by omega) rfl
  · exact bfld_eq _ _ _ _ _ (by omega) rfl
  · simp only [fld]; omega
  · exact bfld_eq _ _ _ _ _ (by omega) rfl

theorem LayX.unpack_pack (r : LayX) (ho : r.op < 64) (hf : r.fn < 256) (hs : r.spare < 2) :
    LayX.unpack (r.pack % 2 ^ 64) = r := by
  obtain ⟨op, g, d, a, b, c, spare, la, ru, fn, imm⟩ := r
  have hg := g.isLt; have hd := d.isLt; have ha := a.isLt; have hb := b.isLt; have hc := c.isLt; have hl := la.isLt
  have hr := ru.isLt; have hi := imm.isLt
  simp only [LayX.unpack, LayX.pack, LayX.mk.injEq] at *
  refine ⟨?_, ?_, ?_, ?_, ?_, ?_, ?_, ?_, ?_, ?_, ?_⟩
  · simp only [fld]; omega
  · exact bfld_eq _ _ _ _ _ (by omega) rfl
  · exact bfld_eq _ _ _ _ _ (by omega) rfl
  · exact bfld_eq _ _ _ _ _ (by omega) rfl
  · exact bfld_eq _ _ _ _ _ (by omega) rfl
  · exact bfld_eq _ _ _ _ _ (by omega) rfl
  · simp only [fld]; omega
  · exact bfld_eq _ _ _ _ _ (by omega) rfl
  · exact bfld_eq _ _ _ _ _ (by omega) rfl
  · simp only [fld]; omega
  · exact bfld_eq _ _ _ _ _ (by omega) rfl

theorem LayP.unpack_pack (r : LayP) (ho : r.op < 64) (ha : r.afn < 64) (hs : r.spare < 8) (hd : r.dfn < 64) (ht : r.top < 2) :
    LayP.unpack (r.pack % 2 ^ 64) = r := by
  obtain ⟨op, g, afn, ad, aa, ab, aru, spare, dfn, dd, da, db, dc, top⟩ := r
  have h1 := g.isLt; have h2 := ad.isLt; have h3 := aa.isLt; have h4 := ab.isLt; have h5 := aru.isLt; have h6 := dd.isLt
  have h7 := da.isLt; have h8 := db.isLt; have h9 := dc.isLt
  simp only [LayP.unpack, LayP.pack, LayP.mk.injEq] at *
  refine ⟨?_, ?_, ?_, ?_, ?_, ?_, ?_, ?_, ?_, ?_, ?_, ?_, ?_, ?_⟩
  · simp only [fld]; omega
  · exact bfld_eq _ _ _ _ _ (by omega) rfl
  · simp only [fld]; omega
  · exact bfld_eq _ _ _ _ _ (by omega) rfl
  · exact bfld_eq _ _ _ _ _ (by omega) rfl
  · exact bfld_eq _ _ _ _ _ (by omega) rfl
  · exact bfld_eq _ _ _ _ _ (by omega) rfl
  · simp only [fld]; omega
  · simp only [fld]; omega
  · exact bfld_eq _ _ _ _ _ (by omega) rfl
  · exact bfld_eq _ _ _ _ _ (by omega) rfl
  · exact bfld_eq _ _ _ _ _ (by omega) rfl
  · exact bfld_eq _ _ _ _ _ (by omega) rfl
  · simp only [fld]; omega

end Sys2Proof
end

