-- ==== Sys2Proof/Laws/Ops.lean ====
section
/-!
SUPPORT. What the shared operations do to the thread that executes: a wait, the end of an instruction, and a trap.
-/

namespace Sys2Proof.Machine

theorem tset_tset {α : Type} (m : List (Nat × α)) (a : Nat) (x y : α) : tset (tset m a x) a y = tset m a y := by
  induction m with
  | nil => simp [tset]
  | cons c t ih =>
    obtain ⟨k, v⟩ := c
    by_cases h : k = a
    · simp [tset, h]
    · by_cases h2 : a < k
      · simp [tset, h, h2]
      · simp [tset, h, h2, ih]

@[simp] theorem State.setThr_setThr (s : State) (k : Nat) (t u : Thread) : (s.setThr k t).setThr k u = s.setThr k u := by
  simp [State.setThr, tset_tset]

@[simp] theorem State.thr_setThr_self (s : State) (k : Nat) (t : Thread) : (s.setThr k t).thr k = t := by
  simp [State.thr, State.setThr]

theorem State.thr_setThr_of_ne (s : State) {k j : Nat} (t : Thread) (h : j ≠ k) : (s.setThr k t).thr j = s.thr j := by
  simp [State.thr, State.setThr, tget_tset_ne _ _ h]

/-- A wait keeps the thread at its instruction. -/
theorem State.waitOn_here {s : State} {t : Thread} (h : tget s.threads s.cur = some t) (w : Wait) :
    s.waitOn w = s.setThr s.cur { t with wait := some w, since := if t.wait == some w then t.since else s.coreClock t } := by
  simp [State.waitOn, State.updMe_here h]

/-- The end of an instruction changes the thread alone. -/
theorem State.finish_here {s : State} {t : Thread} (h : tget s.threads s.cur = some t) (n : Nat) :
    s.finish n = s.setThr s.cur (t.complete n) := by
  simp [State.finish, State.updMe_here h]

theorem State.finishX_here {s : State} {t : Thread} (h : tget s.threads s.cur = some t) (n : Nat) (d : BitVec 5) (v : Word) :
    s.finishX n d v = s.setThr s.cur ((t.put (.x d) v).complete n) := by
  simp [State.finishX, State.updMe_here h]

/-- A trap of a thread that stands alone: it enters the handler, and an L-core context is held (18 R396). -/
theorem State.trap_alone {s : State} {t : Thread} (h : tget s.threads s.cur = some t) (ha : t.atTvec = false)
    (hl : t.laneWait = none) (hg : s.gang = none) (code : Nat) (tval : Word) :
    s.trap code tval =
      let s1 := s.setThr s.cur (t.enter (BitVec.ofNat 8 code) 0 true tval 1 (s.core t.core).tvec)
      if t.onL then s1.updCtx t.ctxKey fun c => { c with hold := true } else s1 := by
  have hu : s.unmeet s.cur = s := by simp [State.unmeet, State.thr_here h, hl]
  simp [State.trap, State.me_here h, ha, hu, hg, State.gangPos, State.updMe_here h]

/-- A trap of the first instruction of a handler ends the thread as a fatal trap (18 R397). -/
theorem State.trap_tvec {s : State} {t : Thread} (h : tget s.threads s.cur = some t) (ha : t.atTvec = true) (code : Nat)
    (tval : Word) :
    s.trap code tval =
      (s.setThr s.cur { t with ending := some .fatal, wait := some .exitQueue, pend := [] }).logErr t.die tval 16 code (s.tidOf t) := by
  simp [State.trap, State.me_here h, ha, State.updMe_here h]

/-- The registers of a thread that enters its handler (18 R396). -/
theorem Thread.enter_regs (t : Thread) (code : BitVec 8) (pos : Nat) (self : Bool) (tval mask tvec : Word) :
    let u := t.enter code pos self tval mask tvec
    u.epc = t.pc ∧ u.pc = tvec ∧ u.mode = true ∧ u.pmode = t.mode ∧ u.cause.code = code ∧ u.tval = tval ∧ u.faultMask = mask ∧
      u.wait = none ∧ u.laneWait = none ∧ u.atTvec = true := ⟨rfl, rfl, rfl, rfl, rfl, rfl, rfl, rfl, rfl, rfl⟩

/-- A return from a trap (18 R408). -/
theorem State.trapReturn_here {s : State} {t : Thread} (h : tget s.threads s.cur = some t) (hk : t.kin = 0) :
    s.trapReturn =
      let s1 := s.setThr s.cur { t.tick.settle with mode := t.pmode, pc := t.epc, entered := true, noBk := true }
      if t.onL then s1.updCtx t.ctxKey fun c => { c with hold := false } else s1 := by
  have hp : s.parted 0 = s := by simp [State.parted]
  simp [State.trapReturn, State.me_here h, hk, hp, State.updMe_here h]

end Sys2Proof.Machine
end

