-- ==== Sys2Proof/Laws/PerInstr.lean ====
section
/-!
SUPPORT. A statement about every instruction as syntax, one lemma per constructor: its length and the bounds of its words, which
tell a decoder how long it is (02 R28).
-/

namespace Sys2Proof

/-! ### The layouts -/

theorem LayR.sized (r : LayR) (ho : r.op < 64) (hf : r.fn < 64) : r.pack < 2 ^ 32 ∧ r.pack % 2 = 0 := by
  have := r.g.isLt; have := r.d.isLt; have := r.a.isLt; have := r.b.isLt
  unfold LayR.pack; omega

theorem LayM.sized (r : LayM) (ho : r.op < 64) : r.pack < 2 ^ 32 ∧ r.pack % 2 = 0 := by
  have := r.g.isLt; have := r.d.isLt; have := r.a.isLt; have := r.off.isLt; have := r.la.isLt
  unfold LayM.pack; omega

theorem LayI.sized (r : LayI) (ho : r.op < 64) (hf : r.fn < 8) : r.pack < 2 ^ 32 ∧ r.pack % 2 = 0 := by
  have := r.d.isLt; have := r.a.isLt; have := r.imm.isLt
  unfold LayI.pack; omega

theorem LayU.sized (r : LayU) (ho : r.op < 64) : r.pack < 2 ^ 32 ∧ r.pack % 2 = 0 := by
  have := r.d.isLt; have := r.imm.isLt
  unfold LayU.pack; omega

theorem LayJ.sized (r : LayJ) (ho : r.op < 64) : r.pack < 2 ^ 32 ∧ r.pack % 2 = 0 := by
  have := r.g.isLt; have := r.off.isLt
  unfold LayJ.pack; omega

theorem LayX.sized (r : LayX) (ho : r.op < 64) (hf : r.fn < 256) (hs : r.spare < 2) : r.pack < 2 ^ 64 ∧ r.pack % 2 = 1 := by
  have := r.g.isLt; have := r.d.isLt; have := r.a.isLt; have := r.b.isLt; have := r.c.isLt
  have := r.la.isLt; have := r.ru.isLt; have := r.imm.isLt
  unfold LayX.pack; omega

theorem LayL.sized (r : LayL) (ho : r.op < 64) (hf : r.fn < 2048) : r.pack < 2 ^ 64 ∧ r.pack % 2 = 1 := by
  have := r.g.isLt; have := r.d.isLt; have := r.a.isLt; have := r.imm.isLt
  unfold LayL.pack; omega

theorem LayP.sized (r : LayP) (ho : r.op < 64) (ha : r.afn < 64) (hd : r.dfn < 64) (hs : r.spare < 8) (ht : r.top < 2) :
    r.pack < 2 ^ 64 ∧ r.pack % 2 = 1 := by
  have := r.g.isLt; have := r.ad.isLt; have := r.aa.isLt; have := r.ab.isLt; have := r.aru.isLt
  have := r.dd.isLt; have := r.da.isLt; have := r.db.isLt; have := r.dc.isLt
  unfold LayP.pack; omega

/-! ### Codes of fields -/

theorem AOp.code_lt (x : AOp) : x.code < 64 := by cases x <;> first | decide | (rename_i c; cases c <;> decide)
theorem AmoOp.code_lt (x : AmoOp) : x.code < 16 := by cases x <;> decide
theorem CmpOp.code_lt (x : CmpOp) : x.code < 8 := by cases x <;> decide
theorem DOp.code_lt (x : DOp) : x.code < 64 := by cases x <;> decide
theorem FType.code_lt (x : FType) : x.code < 8 := by cases x <;> decide
theorem LdSize.code_lt (x : LdSize) : x.code < 8 := by cases x <;> decide
theorem LredOp.code_lt (x : LredOp) : x.code < 16 := by cases x <;> decide
theorem MFmt.code_lt (x : MFmt) : x.code < 8 := by cases x <;> decide
theorem RedOp.code_lt (x : RedOp) : x.code < 16 := by cases x <;> decide
theorem Scope.code_lt (x : Scope) : x.code < 8 := by cases x <;> decide
theorem StSize.code_lt (x : StSize) : x.code < 8 := by cases x <;> decide

end Sys2Proof

/-! ### Every constructor -/

namespace Sys2Proof.Laws.Sized

/-- A step has no encoding; an instruction of one parcel has bit 0 clear, one of two parcels has it set (02 R28). -/
def Statement (i : Instr) : Prop :=
  ((encode i).1 = 0 ∧ (encode i).2 = 0) ∨ ((encode i).1 = 4 ∧ (encode i).2 < 2 ^ 32 ∧ (encode i).2 % 2 = 0) ∨
    ((encode i).1 = 8 ∧ (encode i).2 < 2 ^ 64 ∧ (encode i).2 % 2 = 1)

end Sys2Proof.Laws.Sized

open Sys2Proof Sys2Proof.Laws.Sized

theorem Sys2Proof.Laws.Sized.add (g : BitVec 4) (d : BitVec 5) (a : BitVec 5) (b : BitVec 5) : Statement (.add g d a b) :=
  .inr (.inl ⟨rfl, LayR.sized _ (show 1 < 64 by decide) (show 0 < 64 by decide)⟩)
theorem Sys2Proof.Laws.Sized.sub (g : BitVec 4) (d : BitVec 5) (a : BitVec 5) (b : BitVec 5) : Statement (.sub g d a b) :=
  .inr (.inl ⟨rfl, LayR.sized _ (show 1 < 64 by decide) (show 1 < 64 by decide)⟩)
theorem Sys2Proof.Laws.Sized.and (g : BitVec 4) (d : BitVec 5) (a : BitVec 5) (b : BitVec 5) : Statement (.and g d a b) :=
  .inr (.inl ⟨rfl, LayR.sized _ (show 1 < 64 by decide) (show 2 < 64 by decide)⟩)
theorem Sys2Proof.Laws.Sized.or (g : BitVec 4) (d : BitVec 5) (a : BitVec 5) (b : BitVec 5) : Statement (.or g d a b) :=
  .inr (.inl ⟨rfl, LayR.sized _ (show 1 < 64 by decide) (show 3 < 64 by decide)⟩)
theorem Sys2Proof.Laws.Sized.xor (g : BitVec 4) (d : BitVec 5) (a : BitVec 5) (b : BitVec 5) : Statement (.xor g d a b) :=
  .inr (.inl ⟨rfl, LayR.sized _ (show 1 < 64 by decide) (show 4 < 64 by decide)⟩)
theorem Sys2Proof.Laws.Sized.andn (g : BitVec 4) (d : BitVec 5) (a : BitVec 5) (b : BitVec 5) : Statement (.andn g d a b) :=
  .inr (.inl ⟨rfl, LayR.sized _ (show 1 < 64 by decide) (show 5 < 64 by decide)⟩)
theorem Sys2Proof.Laws.Sized.orn (g : BitVec 4) (d : BitVec 5) (a : BitVec 5) (b : BitVec 5) : Statement (.orn g d a b) :=
  .inr (.inl ⟨rfl, LayR.sized _ (show 1 < 64 by decide) (show 6 < 64 by decide)⟩)
theorem Sys2Proof.Laws.Sized.xnor (g : BitVec 4) (d : BitVec 5) (a : BitVec 5) (b : BitVec 5) : Statement (.xnor g d a b) :=
  .inr (.inl ⟨rfl, LayR.sized _ (show 1 < 64 by decide) (show 7 < 64 by decide)⟩)
theorem Sys2Proof.Laws.Sized.sll (g : BitVec 4) (d : BitVec 5) (a : BitVec 5) (b : BitVec 5) : Statement (.sll g d a b) :=
  .inr (.inl ⟨rfl, LayR.sized _ (show 1 < 64 by decide) (show 8 < 64 by decide)⟩)
theorem Sys2Proof.Laws.Sized.srl (g : BitVec 4) (d : BitVec 5) (a : BitVec 5) (b : BitVec 5) : Statement (.srl g d a b) :=
  .inr (.inl ⟨rfl, LayR.sized _ (show 1 < 64 by decide) (show 9 < 64 by decide)⟩)
theorem Sys2Proof.Laws.Sized.sra (g : BitVec 4) (d : BitVec 5) (a : BitVec 5) (b : BitVec 5) : Statement (.sra g d a b) :=
  .inr (.inl ⟨rfl, LayR.sized _ (show 1 < 64 by decide) (show 10 < 64 by decide)⟩)
theorem Sys2Proof.Laws.Sized.rol (g : BitVec 4) (d : BitVec 5) (a : BitVec 5) (b : BitVec 5) : Statement (.rol g d a b) :=
  .inr (.inl ⟨rfl, LayR.sized _ (show 1 < 64 by decide) (show 11 < 64 by decide)⟩)
theorem Sys2Proof.Laws.Sized.ror (g : BitVec 4) (d : BitVec 5) (a : BitVec 5) (b : BitVec 5) : Statement (.ror g d a b) :=
  .inr (.inl ⟨rfl, LayR.sized _ (show 1 < 64 by decide) (show 12 < 64 by decide)⟩)
theorem Sys2Proof.Laws.Sized.min (g : BitVec 4) (d : BitVec 5) (a : BitVec 5) (b : BitVec 5) : Statement (.min g d a b) :=
  .inr (.inl ⟨rfl, LayR.sized _ (show 1 < 64 by decide) (show 13 < 64 by decide)⟩)
theorem Sys2Proof.Laws.Sized.max (g : BitVec 4) (d : BitVec 5) (a : BitVec 5) (b : BitVec 5) : Statement (.max g d a b) :=
  .inr (.inl ⟨rfl, LayR.sized _ (show 1 < 64 by decide) (show 14 < 64 by decide)⟩)
theorem Sys2Proof.Laws.Sized.minn (g : BitVec 4) (d : BitVec 5) (a : BitVec 5) (b : BitVec 5) : Statement (.minn g d a b) :=
  .inr (.inl ⟨rfl, LayR.sized _ (show 1 < 64 by decide) (show 15 < 64 by decide)⟩)
theorem Sys2Proof.Laws.Sized.maxn (g : BitVec 4) (d : BitVec 5) (a : BitVec 5) (b : BitVec 5) : Statement (.maxn g d a b) :=
  .inr (.inl ⟨rfl, LayR.sized _ (show 1 < 64 by decide) (show 16 < 64 by decide)⟩)
theorem Sys2Proof.Laws.Sized.lea (k : BitVec 2) (g : BitVec 4) (d : BitVec 5) (a : BitVec 5) (b : BitVec 5) : Statement (.lea k g d a b) :=
  .inr (.inl ⟨rfl, LayR.sized _ (show 1 < 64 by decide) (by have := k.isLt; simp only; omega)⟩)
theorem Sys2Proof.Laws.Sized.mul (g : BitVec 4) (d : BitVec 5) (a : BitVec 5) (b : BitVec 5) : Statement (.mul g d a b) :=
  .inr (.inl ⟨rfl, LayR.sized _ (show 2 < 64 by decide) (show 0 < 64 by decide)⟩)
theorem Sys2Proof.Laws.Sized.mulh (g : BitVec 4) (d : BitVec 5) (a : BitVec 5) (b : BitVec 5) : Statement (.mulh g d a b) :=
  .inr (.inl ⟨rfl, LayR.sized _ (show 2 < 64 by decide) (show 1 < 64 by decide)⟩)
theorem Sys2Proof.Laws.Sized.mulhn (g : BitVec 4) (d : BitVec 5) (a : BitVec 5) (b : BitVec 5) : Statement (.mulhn g d a b) :=
  .inr (.inl ⟨rfl, LayR.sized _ (show 2 < 64 by decide) (show 2 < 64 by decide)⟩)
theorem Sys2Proof.Laws.Sized.clz (g : BitVec 4) (d : BitVec 5) (a : BitVec 5) : Statement (.clz g d a) :=
  .inr (.inl ⟨rfl, LayR.sized _ (show 2 < 64 by decide) (show 8 < 64 by decide)⟩)
theorem Sys2Proof.Laws.Sized.ctz (g : BitVec 4) (d : BitVec 5) (a : BitVec 5) : Statement (.ctz g d a) :=
  .inr (.inl ⟨rfl, LayR.sized _ (show 2 < 64 by decide) (show 9 < 64 by decide)⟩)
theorem Sys2Proof.Laws.Sized.popc (g : BitVec 4) (d : BitVec 5) (a : BitVec 5) : Statement (.popc g d a) :=
  .inr (.inl ⟨rfl, LayR.sized _ (show 2 < 64 by decide) (show 10 < 64 by decide)⟩)
theorem Sys2Proof.Laws.Sized.brev (g : BitVec 4) (d : BitVec 5) (a : BitVec 5) : Statement (.brev g d a) :=
  .inr (.inl ⟨rfl, LayR.sized _ (show 2 < 64 by decide) (show 11 < 64 by decide)⟩)
theorem Sys2Proof.Laws.Sized.bswap (g : BitVec 4) (d : BitVec 5) (a : BitVec 5) : Statement (.bswap g d a) :=
  .inr (.inl ⟨rfl, LayR.sized _ (show 2 < 64 by decide) (show 12 < 64 by decide)⟩)
theorem Sys2Proof.Laws.Sized.cmp (c : CmpOp) (g : BitVec 4) (d : BitVec 3) (a : BitVec 5) (b : BitVec 5) : Statement (.cmp c g d a b) :=
  .inr (.inl ⟨rfl, LayR.sized _ (show 3 < 64 by decide) (by have := c.code_lt; simp only; omega)⟩)
theorem Sys2Proof.Laws.Sized.sel (g : BitVec 4) (d : BitVec 5) (a : BitVec 5) (b : BitVec 5) (p : BitVec 3) : Statement (.sel g d a b p) :=
  .inr (.inl ⟨rfl, LayR.sized _ (show 3 < 64 by decide) (by have := p.isLt; simp only; omega)⟩)
theorem Sys2Proof.Laws.Sized.pand (g : BitVec 4) (d : BitVec 3) (a : BitVec 3) (b : BitVec 3) : Statement (.pand g d a b) :=
  .inr (.inl ⟨rfl, LayR.sized _ (show 3 < 64 by decide) (show 16 < 64 by decide)⟩)
theorem Sys2Proof.Laws.Sized.por (g : BitVec 4) (d : BitVec 3) (a : BitVec 3) (b : BitVec 3) : Statement (.por g d a b) :=
  .inr (.inl ⟨rfl, LayR.sized _ (show 3 < 64 by decide) (show 17 < 64 by decide)⟩)
theorem Sys2Proof.Laws.Sized.pxor (g : BitVec 4) (d : BitVec 3) (a : BitVec 3) (b : BitVec 3) : Statement (.pxor g d a b) :=
  .inr (.inl ⟨rfl, LayR.sized _ (show 3 < 64 by decide) (show 18 < 64 by decide)⟩)
theorem Sys2Proof.Laws.Sized.pnot (g : BitVec 4) (d : BitVec 3) (a : BitVec 3) : Statement (.pnot g d a) :=
  .inr (.inl ⟨rfl, LayR.sized _ (show 3 < 64 by decide) (show 19 < 64 by decide)⟩)
theorem Sys2Proof.Laws.Sized.pget (g : BitVec 4) (d : BitVec 5) : Statement (.pget g d) :=
  .inr (.inl ⟨rfl, LayR.sized _ (show 3 < 64 by decide) (show 20 < 64 by decide)⟩)
theorem Sys2Proof.Laws.Sized.pset (g : BitVec 4) (a : BitVec 5) : Statement (.pset g a) :=
  .inr (.inl ⟨rfl, LayR.sized _ (show 3 < 64 by decide) (show 21 < 64 by decide)⟩)
theorem Sys2Proof.Laws.Sized.addX (g : BitVec 4) (d : BitVec 5) (a : BitVec 5) (b : BitVec 5) (ru : BitVec 3) : Statement (.addX g d a b ru) :=
  .inr (.inr ⟨rfl, LayX.sized _ (show 2 < 64 by decide) (show 0 < 256 by decide) (show 0 < 2 by decide)⟩)
theorem Sys2Proof.Laws.Sized.subX (g : BitVec 4) (d : BitVec 5) (a : BitVec 5) (b : BitVec 5) (ru : BitVec 3) : Statement (.subX g d a b ru) :=
  .inr (.inr ⟨rfl, LayX.sized _ (show 2 < 64 by decide) (show 1 < 256 by decide) (show 0 < 2 by decide)⟩)
theorem Sys2Proof.Laws.Sized.andX (g : BitVec 4) (d : BitVec 5) (a : BitVec 5) (b : BitVec 5) (ru : BitVec 3) : Statement (.andX g d a b ru) :=
  .inr (.inr ⟨rfl, LayX.sized _ (show 2 < 64 by decide) (show 2 < 256 by decide) (show 0 < 2 by decide)⟩)
theorem Sys2Proof.Laws.Sized.orX (g : BitVec 4) (d : BitVec 5) (a : BitVec 5) (b : BitVec 5) (ru : BitVec 3) : Statement (.orX g d a b ru) :=
  .inr (.inr ⟨rfl, LayX.sized _ (show 2 < 64 by decide) (show 3 < 256 by decide) (show 0 < 2 by decide)⟩)
theorem Sys2Proof.Laws.Sized.xorX (g : BitVec 4) (d : BitVec 5) (a : BitVec 5) (b : BitVec 5) (ru : BitVec 3) : Statement (.xorX g d a b ru) :=
  .inr (.inr ⟨rfl, LayX.sized _ (show 2 < 64 by decide) (show 4 < 256 by decide) (show 0 < 2 by decide)⟩)
theorem Sys2Proof.Laws.Sized.andnX (g : BitVec 4) (d : BitVec 5) (a : BitVec 5) (b : BitVec 5) (ru : BitVec 3) : Statement (.andnX g d a b ru) :=
  .inr (.inr ⟨rfl, LayX.sized _ (show 2 < 64 by decide) (show 5 < 256 by decide) (show 0 < 2 by decide)⟩)
theorem Sys2Proof.Laws.Sized.ornX (g : BitVec 4) (d : BitVec 5) (a : BitVec 5) (b : BitVec 5) (ru : BitVec 3) : Statement (.ornX g d a b ru) :=
  .inr (.inr ⟨rfl, LayX.sized _ (show 2 < 64 by decide) (show 6 < 256 by decide) (show 0 < 2 by decide)⟩)
theorem Sys2Proof.Laws.Sized.xnorX (g : BitVec 4) (d : BitVec 5) (a : BitVec 5) (b : BitVec 5) (ru : BitVec 3) : Statement (.xnorX g d a b ru) :=
  .inr (.inr ⟨rfl, LayX.sized _ (show 2 < 64 by decide) (show 7 < 256 by decide) (show 0 < 2 by decide)⟩)
theorem Sys2Proof.Laws.Sized.sllX (g : BitVec 4) (d : BitVec 5) (a : BitVec 5) (b : BitVec 5) (ru : BitVec 3) : Statement (.sllX g d a b ru) :=
  .inr (.inr ⟨rfl, LayX.sized _ (show 2 < 64 by decide) (show 8 < 256 by decide) (show 0 < 2 by decide)⟩)
theorem Sys2Proof.Laws.Sized.srlX (g : BitVec 4) (d : BitVec 5) (a : BitVec 5) (b : BitVec 5) (ru : BitVec 3) : Statement (.srlX g d a b ru) :=
  .inr (.inr ⟨rfl, LayX.sized _ (show 2 < 64 by decide) (show 9 < 256 by decide) (show 0 < 2 by decide)⟩)
theorem Sys2Proof.Laws.Sized.sraX (g : BitVec 4) (d : BitVec 5) (a : BitVec 5) (b : BitVec 5) (ru : BitVec 3) : Statement (.sraX g d a b ru) :=
  .inr (.inr ⟨rfl, LayX.sized _ (show 2 < 64 by decide) (show 10 < 256 by decide) (show 0 < 2 by decide)⟩)
theorem Sys2Proof.Laws.Sized.rolX (g : BitVec 4) (d : BitVec 5) (a : BitVec 5) (b : BitVec 5) (ru : BitVec 3) : Statement (.rolX g d a b ru) :=
  .inr (.inr ⟨rfl, LayX.sized _ (show 2 < 64 by decide) (show 11 < 256 by decide) (show 0 < 2 by decide)⟩)
theorem Sys2Proof.Laws.Sized.rorX (g : BitVec 4) (d : BitVec 5) (a : BitVec 5) (b : BitVec 5) (ru : BitVec 3) : Statement (.rorX g d a b ru) :=
  .inr (.inr ⟨rfl, LayX.sized _ (show 2 < 64 by decide) (show 12 < 256 by decide) (show 0 < 2 by decide)⟩)
theorem Sys2Proof.Laws.Sized.minX (g : BitVec 4) (d : BitVec 5) (a : BitVec 5) (b : BitVec 5) (ru : BitVec 3) : Statement (.minX g d a b ru) :=
  .inr (.inr ⟨rfl, LayX.sized _ (show 2 < 64 by decide) (show 13 < 256 by decide) (show 0 < 2 by decide)⟩)
theorem Sys2Proof.Laws.Sized.maxX (g : BitVec 4) (d : BitVec 5) (a : BitVec 5) (b : BitVec 5) (ru : BitVec 3) : Statement (.maxX g d a b ru) :=
  .inr (.inr ⟨rfl, LayX.sized _ (show 2 < 64 by decide) (show 14 < 256 by decide) (show 0 < 2 by decide)⟩)
theorem Sys2Proof.Laws.Sized.minnX (g : BitVec 4) (d : BitVec 5) (a : BitVec 5) (b : BitVec 5) (ru : BitVec 3) : Statement (.minnX g d a b ru) :=
  .inr (.inr ⟨rfl, LayX.sized _ (show 2 < 64 by decide) (show 15 < 256 by decide) (show 0 < 2 by decide)⟩)
theorem Sys2Proof.Laws.Sized.maxnX (g : BitVec 4) (d : BitVec 5) (a : BitVec 5) (b : BitVec 5) (ru : BitVec 3) : Statement (.maxnX g d a b ru) :=
  .inr (.inr ⟨rfl, LayX.sized _ (show 2 < 64 by decide) (show 16 < 256 by decide) (show 0 < 2 by decide)⟩)
theorem Sys2Proof.Laws.Sized.leaX (k : BitVec 2) (g : BitVec 4) (d : BitVec 5) (a : BitVec 5) (b : BitVec 5) (ru : BitVec 3) : Statement (.leaX k g d a b ru) :=
  .inr (.inr ⟨rfl, LayX.sized _ (show 2 < 64 by decide) (by have := k.isLt; simp only; omega) (show 0 < 2 by decide)⟩)
theorem Sys2Proof.Laws.Sized.mulX (g : BitVec 4) (d : BitVec 5) (a : BitVec 5) (b : BitVec 5) (ru : BitVec 3) : Statement (.mulX g d a b ru) :=
  .inr (.inr ⟨rfl, LayX.sized _ (show 2 < 64 by decide) (show 64 < 256 by decide) (show 0 < 2 by decide)⟩)
theorem Sys2Proof.Laws.Sized.mulhX (g : BitVec 4) (d : BitVec 5) (a : BitVec 5) (b : BitVec 5) (ru : BitVec 3) : Statement (.mulhX g d a b ru) :=
  .inr (.inr ⟨rfl, LayX.sized _ (show 2 < 64 by decide) (show 65 < 256 by decide) (show 0 < 2 by decide)⟩)
theorem Sys2Proof.Laws.Sized.mulhnX (g : BitVec 4) (d : BitVec 5) (a : BitVec 5) (b : BitVec 5) (ru : BitVec 3) : Statement (.mulhnX g d a b ru) :=
  .inr (.inr ⟨rfl, LayX.sized _ (show 2 < 64 by decide) (show 66 < 256 by decide) (show 0 < 2 by decide)⟩)
theorem Sys2Proof.Laws.Sized.clzX (g : BitVec 4) (d : BitVec 5) (a : BitVec 5) (ru : BitVec 3) : Statement (.clzX g d a ru) :=
  .inr (.inr ⟨rfl, LayX.sized _ (show 2 < 64 by decide) (show 72 < 256 by decide) (show 0 < 2 by decide)⟩)
theorem Sys2Proof.Laws.Sized.ctzX (g : BitVec 4) (d : BitVec 5) (a : BitVec 5) (ru : BitVec 3) : Statement (.ctzX g d a ru) :=
  .inr (.inr ⟨rfl, LayX.sized _ (show 2 < 64 by decide) (show 73 < 256 by decide) (show 0 < 2 by decide)⟩)
theorem Sys2Proof.Laws.Sized.popcX (g : BitVec 4) (d : BitVec 5) (a : BitVec 5) (ru : BitVec 3) : Statement (.popcX g d a ru) :=
  .inr (.inr ⟨rfl, LayX.sized _ (show 2 < 64 by decide) (show 74 < 256 by decide) (show 0 < 2 by decide)⟩)
theorem Sys2Proof.Laws.Sized.brevX (g : BitVec 4) (d : BitVec 5) (a : BitVec 5) (ru : BitVec 3) : Statement (.brevX g d a ru) :=
  .inr (.inr ⟨rfl, LayX.sized _ (show 2 < 64 by decide) (show 75 < 256 by decide) (show 0 < 2 by decide)⟩)
theorem Sys2Proof.Laws.Sized.bswapX (g : BitVec 4) (d : BitVec 5) (a : BitVec 5) (ru : BitVec 3) : Statement (.bswapX g d a ru) :=
  .inr (.inr ⟨rfl, LayX.sized _ (show 2 < 64 by decide) (show 76 < 256 by decide) (show 0 < 2 by decide)⟩)
theorem Sys2Proof.Laws.Sized.cmpX (c : CmpOp) (g : BitVec 4) (d : BitVec 3) (a : BitVec 5) (b : BitVec 5) (ru : BitVec 3) : Statement (.cmpX c g d a b ru) :=
  .inr (.inr ⟨rfl, LayX.sized _ (show 2 < 64 by decide) (by have := c.code_lt; simp only; omega) (show 0 < 2 by decide)⟩)
theorem Sys2Proof.Laws.Sized.selX (g : BitVec 4) (d : BitVec 5) (a : BitVec 5) (b : BitVec 5) (p : BitVec 3) (ru : BitVec 3) : Statement (.selX g d a b p ru) :=
  .inr (.inr ⟨rfl, LayX.sized _ (show 2 < 64 by decide) (by have := p.isLt; simp only; omega) (show 0 < 2 by decide)⟩)
theorem Sys2Proof.Laws.Sized.pandX (g : BitVec 4) (d : BitVec 3) (a : BitVec 3) (b : BitVec 3) (ru : BitVec 3) : Statement (.pandX g d a b ru) :=
  .inr (.inr ⟨rfl, LayX.sized _ (show 2 < 64 by decide) (show 144 < 256 by decide) (show 0 < 2 by decide)⟩)
theorem Sys2Proof.Laws.Sized.porX (g : BitVec 4) (d : BitVec 3) (a : BitVec 3) (b : BitVec 3) (ru : BitVec 3) : Statement (.porX g d a b ru) :=
  .inr (.inr ⟨rfl, LayX.sized _ (show 2 < 64 by decide) (show 145 < 256 by decide) (show 0 < 2 by decide)⟩)
theorem Sys2Proof.Laws.Sized.pxorX (g : BitVec 4) (d : BitVec 3) (a : BitVec 3) (b : BitVec 3) (ru : BitVec 3) : Statement (.pxorX g d a b ru) :=
  .inr (.inr ⟨rfl, LayX.sized _ (show 2 < 64 by decide) (show 146 < 256 by decide) (show 0 < 2 by decide)⟩)
theorem Sys2Proof.Laws.Sized.pnotX (g : BitVec 4) (d : BitVec 3) (a : BitVec 3) (ru : BitVec 3) : Statement (.pnotX g d a ru) :=
  .inr (.inr ⟨rfl, LayX.sized _ (show 2 < 64 by decide) (show 147 < 256 by decide) (show 0 < 2 by decide)⟩)
theorem Sys2Proof.Laws.Sized.pgetX (g : BitVec 4) (d : BitVec 5) (ru : BitVec 3) : Statement (.pgetX g d ru) :=
  .inr (.inr ⟨rfl, LayX.sized _ (show 2 < 64 by decide) (show 148 < 256 by decide) (show 0 < 2 by decide)⟩)
theorem Sys2Proof.Laws.Sized.psetX (g : BitVec 4) (a : BitVec 5) (ru : BitVec 3) : Statement (.psetX g a ru) :=
  .inr (.inr ⟨rfl, LayX.sized _ (show 2 < 64 by decide) (show 149 < 256 by decide) (show 0 < 2 by decide)⟩)
theorem Sys2Proof.Laws.Sized.addi (d : BitVec 5) (a : BitVec 5) (imm : BitVec 12) : Statement (.addi d a imm) :=
  .inr (.inl ⟨rfl, LayI.sized _ (show 4 < 64 by decide) (show 0 < 8 by decide)⟩)
theorem Sys2Proof.Laws.Sized.andi (d : BitVec 5) (a : BitVec 5) (imm : BitVec 12) : Statement (.andi d a imm) :=
  .inr (.inl ⟨rfl, LayI.sized _ (show 4 < 64 by decide) (show 1 < 8 by decide)⟩)
theorem Sys2Proof.Laws.Sized.ori (d : BitVec 5) (a : BitVec 5) (imm : BitVec 12) : Statement (.ori d a imm) :=
  .inr (.inl ⟨rfl, LayI.sized _ (show 4 < 64 by decide) (show 2 < 8 by decide)⟩)
theorem Sys2Proof.Laws.Sized.xori (d : BitVec 5) (a : BitVec 5) (imm : BitVec 12) : Statement (.xori d a imm) :=
  .inr (.inl ⟨rfl, LayI.sized _ (show 4 < 64 by decide) (show 3 < 8 by decide)⟩)
theorem Sys2Proof.Laws.Sized.slli (d : BitVec 5) (a : BitVec 5) (sh : BitVec 6) : Statement (.slli d a sh) :=
  .inr (.inl ⟨rfl, LayI.sized _ (show 4 < 64 by decide) (show 4 < 8 by decide)⟩)
theorem Sys2Proof.Laws.Sized.srli (d : BitVec 5) (a : BitVec 5) (sh : BitVec 6) : Statement (.srli d a sh) :=
  .inr (.inl ⟨rfl, LayI.sized _ (show 4 < 64 by decide) (show 5 < 8 by decide)⟩)
theorem Sys2Proof.Laws.Sized.srai (d : BitVec 5) (a : BitVec 5) (sh : BitVec 6) : Statement (.srai d a sh) :=
  .inr (.inl ⟨rfl, LayI.sized _ (show 4 < 64 by decide) (show 6 < 8 by decide)⟩)
theorem Sys2Proof.Laws.Sized.lih (d : BitVec 5) (imm : BitVec 20) : Statement (.lih d imm) :=
  .inr (.inl ⟨rfl, LayU.sized _ (show 5 < 64 by decide)⟩)
theorem Sys2Proof.Laws.Sized.lpc (d : BitVec 5) (imm : BitVec 20) : Statement (.lpc d imm) :=
  .inr (.inl ⟨rfl, LayU.sized _ (show 6 < 64 by decide)⟩)
theorem Sys2Proof.Laws.Sized.li (g : BitVec 4) (d : BitVec 5) (imm : BitVec 32) : Statement (.li g d imm) :=
  .inr (.inr ⟨rfl, LayL.sized _ (show 3 < 64 by decide) (show 0 < 2048 by decide)⟩)
theorem Sys2Proof.Laws.Sized.liZ (g : BitVec 4) (d : BitVec 5) (imm : BitVec 32) : Statement (.liZ g d imm) :=
  .inr (.inr ⟨rfl, LayL.sized _ (show 3 < 64 by decide) (show 1 < 2048 by decide)⟩)
theorem Sys2Proof.Laws.Sized.liHi (g : BitVec 4) (d : BitVec 5) (a : BitVec 5) (imm : BitVec 32) : Statement (.liHi g d a imm) :=
  .inr (.inr ⟨rfl, LayL.sized _ (show 3 < 64 by decide) (show 2 < 2048 by decide)⟩)
theorem Sys2Proof.Laws.Sized.div (g : BitVec 4) (d : BitVec 5) (a : BitVec 5) (b : BitVec 5) (la : BitVec 4) (ru : BitVec 3) : Statement (.div g d a b la ru) :=
  .inr (.inr ⟨rfl, LayX.sized _ (show 1 < 64 by decide) (show 0 < 256 by decide) (show 0 < 2 by decide)⟩)
theorem Sys2Proof.Laws.Sized.divn (g : BitVec 4) (d : BitVec 5) (a : BitVec 5) (b : BitVec 5) (la : BitVec 4) (ru : BitVec 3) : Statement (.divn g d a b la ru) :=
  .inr (.inr ⟨rfl, LayX.sized _ (show 1 < 64 by decide) (show 1 < 256 by decide) (show 0 < 2 by decide)⟩)
theorem Sys2Proof.Laws.Sized.rem (g : BitVec 4) (d : BitVec 5) (a : BitVec 5) (b : BitVec 5) (la : BitVec 4) (ru : BitVec 3) : Statement (.rem g d a b la ru) :=
  .inr (.inr ⟨rfl, LayX.sized _ (show 1 < 64 by decide) (show 2 < 256 by decide) (show 0 < 2 by decide)⟩)
theorem Sys2Proof.Laws.Sized.remn (g : BitVec 4) (d : BitVec 5) (a : BitVec 5) (b : BitVec 5) (la : BitVec 4) (ru : BitVec 3) : Statement (.remn g d a b la ru) :=
  .inr (.inr ⟨rfl, LayX.sized _ (show 1 < 64 by decide) (show 3 < 256 by decide) (show 0 < 2 by decide)⟩)
theorem Sys2Proof.Laws.Sized.bfext (g : BitVec 4) (d : BitVec 5) (a : BitVec 5) (pos : BitVec 6) (len : BitVec 6) (ru : BitVec 3) : Statement (.bfext g d a pos len ru) :=
  .inr (.inr ⟨rfl, LayX.sized _ (show 1 < 64 by decide) (show 4 < 256 by decide) (show 0 < 2 by decide)⟩)
theorem Sys2Proof.Laws.Sized.bfextN (g : BitVec 4) (d : BitVec 5) (a : BitVec 5) (pos : BitVec 6) (len : BitVec 6) (ru : BitVec 3) : Statement (.bfextN g d a pos len ru) :=
  .inr (.inr ⟨rfl, LayX.sized _ (show 1 < 64 by decide) (show 5 < 256 by decide) (show 0 < 2 by decide)⟩)
theorem Sys2Proof.Laws.Sized.bfins (g : BitVec 4) (d : BitVec 5) (a : BitVec 5) (pos : BitVec 6) (len : BitVec 6) (ru : BitVec 3) : Statement (.bfins g d a pos len ru) :=
  .inr (.inr ⟨rfl, LayX.sized _ (show 1 < 64 by decide) (show 6 < 256 by decide) (show 0 < 2 by decide)⟩)
theorem Sys2Proof.Laws.Sized.ld (z : LdSize) (g : BitVec 4) (d : BitVec 5) (a : BitVec 5) (off : BitVec 7) (la : BitVec 4) : Statement (.ld z g d a off la) :=
  .inr (.inl ⟨rfl, LayM.sized _ (by have := z.code_lt; simp only; omega)⟩)
theorem Sys2Proof.Laws.Sized.ldX (z : LdSize) (g : BitVec 4) (d : BitVec 5) (a : BitVec 5) (off : BitVec 17) (o : Order) (s : Scope) (la : BitVec 4) (ru : BitVec 3) : Statement (.ldX z g d a off o s la ru) :=
  .inr (.inr ⟨rfl, LayX.sized _ (show 6 < 64 by decide) (by have := z.code_lt; simp only; omega) (show 0 < 2 by decide)⟩)
theorem Sys2Proof.Laws.Sized.st (z : StSize) (g : BitVec 4) (d : BitVec 5) (a : BitVec 5) (off : BitVec 7) (la : BitVec 4) : Statement (.st z g d a off la) :=
  .inr (.inl ⟨rfl, LayM.sized _ (by have := z.code_lt; simp only; omega)⟩)
theorem Sys2Proof.Laws.Sized.stX (z : StSize) (g : BitVec 4) (d : BitVec 5) (a : BitVec 5) (off : BitVec 17) (o : Order) (s : Scope) (la : BitVec 4) (ru : BitVec 3) : Statement (.stX z g d a off o s la ru) :=
  .inr (.inr ⟨rfl, LayX.sized _ (show 6 < 64 by decide) (by have := z.code_lt; simp only; omega) (show 0 < 2 by decide)⟩)
theorem Sys2Proof.Laws.Sized.ldfF32 (g : BitVec 4) (d : BitVec 5) (a : BitVec 5) (off : BitVec 7) (la : BitVec 4) : Statement (.ldfF32 g d a off la) :=
  .inr (.inl ⟨rfl, LayM.sized _ (show 0x17 < 64 by decide)⟩)
theorem Sys2Proof.Laws.Sized.ldf64 (g : BitVec 4) (d : BitVec 5) (a : BitVec 5) (off : BitVec 7) (la : BitVec 4) : Statement (.ldf64 g d a off la) :=
  .inr (.inl ⟨rfl, LayM.sized _ (show 0x1C < 64 by decide)⟩)
theorem Sys2Proof.Laws.Sized.ldfX (dbl : Bool) (g : BitVec 4) (d : BitVec 5) (a : BitVec 5) (off : BitVec 17) (o : Order) (s : Scope) (la : BitVec 4) (ru : BitVec 3) : Statement (.ldfX dbl g d a off o s la ru) :=
  .inr (.inr ⟨rfl, LayX.sized _ (show 6 < 64 by decide) (by have := dbl.toNat_lt; simp only; omega) (show 0 < 2 by decide)⟩)
theorem Sys2Proof.Laws.Sized.stfF32 (g : BitVec 4) (d : BitVec 5) (a : BitVec 5) (off : BitVec 7) (la : BitVec 4) : Statement (.stfF32 g d a off la) :=
  .inr (.inl ⟨rfl, LayM.sized _ (show 0x1D < 64 by decide)⟩)
theorem Sys2Proof.Laws.Sized.stf64 (g : BitVec 4) (d : BitVec 5) (a : BitVec 5) (off : BitVec 7) (la : BitVec 4) : Statement (.stf64 g d a off la) :=
  .inr (.inl ⟨rfl, LayM.sized _ (show 0x1E < 64 by decide)⟩)
theorem Sys2Proof.Laws.Sized.stfX (dbl : Bool) (g : BitVec 4) (d : BitVec 5) (a : BitVec 5) (off : BitVec 17) (o : Order) (s : Scope) (la : BitVec 4) (ru : BitVec 3) : Statement (.stfX dbl g d a off o s la ru) :=
  .inr (.inr ⟨rfl, LayX.sized _ (show 6 < 64 by decide) (by have := dbl.toNat_lt; simp only; omega) (show 0 < 2 by decide)⟩)
theorem Sys2Proof.Laws.Sized.lds (z : LdSize) (g : BitVec 4) (d : BitVec 5) (a : BitVec 5) (off : BitVec 7) (la : BitVec 4) : Statement (.lds z g d a off la) :=
  .inr (.inl ⟨rfl, LayM.sized _ (by have := z.code_lt; simp only; omega)⟩)
theorem Sys2Proof.Laws.Sized.ldsX (z : LdSize) (g : BitVec 4) (d : BitVec 5) (a : BitVec 5) (off : BitVec 17) (o : Order) (s : Scope) (la : BitVec 4) (ru : BitVec 3) : Statement (.ldsX z g d a off o s la ru) :=
  .inr (.inr ⟨rfl, LayX.sized _ (show 6 < 64 by decide) (by have := z.code_lt; simp only; omega) (show 0 < 2 by decide)⟩)
theorem Sys2Proof.Laws.Sized.sts (z : StSize) (g : BitVec 4) (d : BitVec 5) (a : BitVec 5) (off : BitVec 7) (la : BitVec 4) : Statement (.sts z g d a off la) :=
  .inr (.inl ⟨rfl, LayM.sized _ (by have := z.code_lt; simp only; omega)⟩)
theorem Sys2Proof.Laws.Sized.stsX (z : StSize) (g : BitVec 4) (d : BitVec 5) (a : BitVec 5) (off : BitVec 17) (o : Order) (s : Scope) (la : BitVec 4) (ru : BitVec 3) : Statement (.stsX z g d a off o s la ru) :=
  .inr (.inr ⟨rfl, LayX.sized _ (show 6 < 64 by decide) (by have := z.code_lt; simp only; omega) (show 0 < 2 by decide)⟩)
theorem Sys2Proof.Laws.Sized.ldx (z : LdSize) (g : BitVec 4) (d : BitVec 5) (a : BitVec 5) (b : BitVec 5) (off : BitVec 17) (o : Order) (s : Scope) (la : BitVec 4) (ru : BitVec 3) : Statement (.ldx z g d a b off o s la ru) :=
  .inr (.inr ⟨rfl, LayX.sized _ (show 6 < 64 by decide) (by have := z.code_lt; simp only; omega) (show 0 < 2 by decide)⟩)
theorem Sys2Proof.Laws.Sized.stx (z : StSize) (g : BitVec 4) (d : BitVec 5) (a : BitVec 5) (b : BitVec 5) (off : BitVec 17) (o : Order) (s : Scope) (la : BitVec 4) (ru : BitVec 3) : Statement (.stx z g d a b off o s la ru) :=
  .inr (.inr ⟨rfl, LayX.sized _ (show 6 < 64 by decide) (by have := z.code_lt; simp only; omega) (show 0 < 2 by decide)⟩)
theorem Sys2Proof.Laws.Sized.ldnc (z : LdSize) (g : BitVec 4) (d : BitVec 5) (a : BitVec 5) (off : BitVec 17) (o : Order) (s : Scope) (la : BitVec 4) (ru : BitVec 3) : Statement (.ldnc z g d a off o s la ru) :=
  .inr (.inr ⟨rfl, LayX.sized _ (show 6 < 64 by decide) (by have := z.code_lt; simp only; omega) (show 0 < 2 by decide)⟩)
theorem Sys2Proof.Laws.Sized.amo (op : AmoOp) (wide : Bool) (g : BitVec 4) (d : BitVec 5) (a : BitVec 5) (b : BitVec 5) (off : BitVec 17) (o : Order) (s : Scope) (la : BitVec 4) (ru : BitVec 3) : Statement (.amo op wide g d a b off o s la ru) :=
  .inr (.inr ⟨rfl, LayX.sized _ (show 6 < 64 by decide) (by have := op.code_lt; simp only; split <;> omega) (show 0 < 2 by decide)⟩)
theorem Sys2Proof.Laws.Sized.cas (wide : Bool) (g : BitVec 4) (d : BitVec 5) (a : BitVec 5) (b : BitVec 5) (off : BitVec 17) (o : Order) (s : Scope) (la : BitVec 4) (ru : BitVec 3) : Statement (.cas wide g d a b off o s la ru) :=
  .inr (.inr ⟨rfl, LayX.sized _ (show 6 < 64 by decide) (by have := wide.toNat_lt; simp only; omega) (show 0 < 2 by decide)⟩)
theorem Sys2Proof.Laws.Sized.red (op : RedOp) (wide : Bool) (g : BitVec 4) (a : BitVec 5) (b : BitVec 5) (off : BitVec 17) (o : Order) (s : Scope) (la : BitVec 4) (ru : BitVec 3) : Statement (.red op wide g a b off o s la ru) :=
  .inr (.inr ⟨rfl, LayX.sized _ (show 6 < 64 by decide) (by have := op.code_lt; simp only; split <;> omega) (show 0 < 2 by decide)⟩)
theorem Sys2Proof.Laws.Sized.pfc (g : BitVec 4) (a : BitVec 5) (off : BitVec 17) (la : BitVec 4) (ru : BitVec 3) : Statement (.pfc g a off la ru) :=
  .inr (.inr ⟨rfl, LayX.sized _ (show 6 < 64 by decide) (show 0xD0 < 256 by decide) (show 0 < 2 by decide)⟩)
theorem Sys2Proof.Laws.Sized.wmon (g : BitVec 4) (d : BitVec 5) (a : BitVec 5) (b : BitVec 5) (off : BitVec 17) (o : Order) (s : Scope) (la : BitVec 4) (ru : BitVec 3) : Statement (.wmon g d a b off o s la ru) :=
  .inr (.inr ⟨rfl, LayX.sized _ (show 6 < 64 by decide) (show 0xD1 < 256 by decide) (show 0 < 2 by decide)⟩)
theorem Sys2Proof.Laws.Sized.wmonWake (a0 : Nat) : Statement (.wmonWake a0) :=
  .inl ⟨rfl, rfl⟩
theorem Sys2Proof.Laws.Sized.wmonTimeout (a0 : Nat) : Statement (.wmonTimeout a0) :=
  .inl ⟨rfl, rfl⟩
theorem Sys2Proof.Laws.Sized.fence (s : Scope) : Statement (.fence s) :=
  .inr (.inl ⟨rfl, LayI.sized _ (show 15 < 64 by decide) (show 1 < 8 by decide)⟩)
theorem Sys2Proof.Laws.Sized.fenceSc (s : Scope) : Statement (.fenceSc s) :=
  .inr (.inl ⟨rfl, LayI.sized _ (show 15 < 64 by decide) (show 2 < 8 by decide)⟩)
theorem Sys2Proof.Laws.Sized.fadd (ty : FType) (g : BitVec 4) (d : BitVec 5) (a : BitVec 5) (b : BitVec 5) (rm : RM) (ru : BitVec 3) : Statement (.fadd ty g d a b rm ru) :=
  .inr (.inr ⟨rfl, LayX.sized _ (show 4 < 64 by decide) (by have := ty.code_lt; simp only; omega) (show 0 < 2 by decide)⟩)
theorem Sys2Proof.Laws.Sized.fsub (ty : FType) (g : BitVec 4) (d : BitVec 5) (a : BitVec 5) (b : BitVec 5) (rm : RM) (ru : BitVec 3) : Statement (.fsub ty g d a b rm ru) :=
  .inr (.inr ⟨rfl, LayX.sized _ (show 4 < 64 by decide) (by have := ty.code_lt; simp only; omega) (show 0 < 2 by decide)⟩)
theorem Sys2Proof.Laws.Sized.fmul (ty : FType) (g : BitVec 4) (d : BitVec 5) (a : BitVec 5) (b : BitVec 5) (rm : RM) (ru : BitVec 3) : Statement (.fmul ty g d a b rm ru) :=
  .inr (.inr ⟨rfl, LayX.sized _ (show 4 < 64 by decide) (by have := ty.code_lt; simp only; omega) (show 0 < 2 by decide)⟩)
theorem Sys2Proof.Laws.Sized.fma (ty : FType) (g : BitVec 4) (d : BitVec 5) (a : BitVec 5) (b : BitVec 5) (c : BitVec 5) (rm : RM) (ru : BitVec 3) : Statement (.fma ty g d a b c rm ru) :=
  .inr (.inr ⟨rfl, LayX.sized _ (show 4 < 64 by decide) (by have := ty.code_lt; simp only; omega) (show 0 < 2 by decide)⟩)
theorem Sys2Proof.Laws.Sized.fms (ty : FType) (g : BitVec 4) (d : BitVec 5) (a : BitVec 5) (b : BitVec 5) (c : BitVec 5) (rm : RM) (ru : BitVec 3) : Statement (.fms ty g d a b c rm ru) :=
  .inr (.inr ⟨rfl, LayX.sized _ (show 4 < 64 by decide) (by have := ty.code_lt; simp only; omega) (show 0 < 2 by decide)⟩)
theorem Sys2Proof.Laws.Sized.fnma (ty : FType) (g : BitVec 4) (d : BitVec 5) (a : BitVec 5) (b : BitVec 5) (c : BitVec 5) (rm : RM) (ru : BitVec 3) : Statement (.fnma ty g d a b c rm ru) :=
  .inr (.inr ⟨rfl, LayX.sized _ (show 4 < 64 by decide) (by have := ty.code_lt; simp only; omega) (show 0 < 2 by decide)⟩)
theorem Sys2Proof.Laws.Sized.fdiv (ty : FType) (g : BitVec 4) (d : BitVec 5) (a : BitVec 5) (b : BitVec 5) (rm : RM) (la : BitVec 4) (ru : BitVec 3) : Statement (.fdiv ty g d a b rm la ru) :=
  .inr (.inr ⟨rfl, LayX.sized _ (show 4 < 64 by decide) (by have := ty.code_lt; simp only; omega) (show 0 < 2 by decide)⟩)
theorem Sys2Proof.Laws.Sized.fsqrt (ty : FType) (g : BitVec 4) (d : BitVec 5) (a : BitVec 5) (rm : RM) (la : BitVec 4) (ru : BitVec 3) : Statement (.fsqrt ty g d a rm la ru) :=
  .inr (.inr ⟨rfl, LayX.sized _ (show 4 < 64 by decide) (by have := ty.code_lt; simp only; omega) (show 0 < 2 by decide)⟩)
theorem Sys2Proof.Laws.Sized.frcp (ty : FType) (g : BitVec 4) (d : BitVec 5) (a : BitVec 5) (rm : RM) (la : BitVec 4) (ru : BitVec 3) : Statement (.frcp ty g d a rm la ru) :=
  .inr (.inr ⟨rfl, LayX.sized _ (show 4 < 64 by decide) (by have := ty.code_lt; simp only; omega) (show 0 < 2 by decide)⟩)
theorem Sys2Proof.Laws.Sized.frsqrt (ty : FType) (g : BitVec 4) (d : BitVec 5) (a : BitVec 5) (rm : RM) (la : BitVec 4) (ru : BitVec 3) : Statement (.frsqrt ty g d a rm la ru) :=
  .inr (.inr ⟨rfl, LayX.sized _ (show 4 < 64 by decide) (by have := ty.code_lt; simp only; omega) (show 0 < 2 by decide)⟩)
theorem Sys2Proof.Laws.Sized.fmin (ty : FType) (g : BitVec 4) (d : BitVec 5) (a : BitVec 5) (b : BitVec 5) (ru : BitVec 3) : Statement (.fmin ty g d a b ru) :=
  .inr (.inr ⟨rfl, LayX.sized _ (show 4 < 64 by decide) (by have := ty.code_lt; simp only; omega) (show 0 < 2 by decide)⟩)
theorem Sys2Proof.Laws.Sized.fmax (ty : FType) (g : BitVec 4) (d : BitVec 5) (a : BitVec 5) (b : BitVec 5) (ru : BitVec 3) : Statement (.fmax ty g d a b ru) :=
  .inr (.inr ⟨rfl, LayX.sized _ (show 4 < 64 by decide) (by have := ty.code_lt; simp only; omega) (show 0 < 2 by decide)⟩)
theorem Sys2Proof.Laws.Sized.fabs (ty : FType) (g : BitVec 4) (d : BitVec 5) (a : BitVec 5) (ru : BitVec 3) : Statement (.fabs ty g d a ru) :=
  .inr (.inr ⟨rfl, LayX.sized _ (show 4 < 64 by decide) (by have := ty.code_lt; simp only; omega) (show 0 < 2 by decide)⟩)
theorem Sys2Proof.Laws.Sized.fneg (ty : FType) (g : BitVec 4) (d : BitVec 5) (a : BitVec 5) (ru : BitVec 3) : Statement (.fneg ty g d a ru) :=
  .inr (.inr ⟨rfl, LayX.sized _ (show 4 < 64 by decide) (by have := ty.code_lt; simp only; omega) (show 0 < 2 by decide)⟩)
theorem Sys2Proof.Laws.Sized.fcpsgn (ty : FType) (g : BitVec 4) (d : BitVec 5) (a : BitVec 5) (b : BitVec 5) (ru : BitVec 3) : Statement (.fcpsgn ty g d a b ru) :=
  .inr (.inr ⟨rfl, LayX.sized _ (show 4 < 64 by decide) (by have := ty.code_lt; simp only; omega) (show 0 < 2 by decide)⟩)
theorem Sys2Proof.Laws.Sized.fcmp (c : FcmpOp) (ty : FType) (g : BitVec 4) (d : BitVec 3) (a : BitVec 5) (b : BitVec 5) (ru : BitVec 3) : Statement (.fcmp c ty g d a b ru) :=
  .inr (.inr ⟨rfl, LayX.sized _ (show 4 < 64 by decide) (by have := ty.code_lt; simp only; omega) (show 0 < 2 by decide)⟩)
theorem Sys2Proof.Laws.Sized.fclass (ty : FType) (g : BitVec 4) (d : BitVec 5) (a : BitVec 5) (ru : BitVec 3) : Statement (.fclass ty g d a ru) :=
  .inr (.inr ⟨rfl, LayX.sized _ (show 4 < 64 by decide) (by have := ty.code_lt; simp only; omega) (show 0 < 2 by decide)⟩)
theorem Sys2Proof.Laws.Sized.fround (ty : FType) (g : BitVec 4) (d : BitVec 5) (a : BitVec 5) (rm : RM) (ru : BitVec 3) : Statement (.fround ty g d a rm ru) :=
  .inr (.inr ⟨rfl, LayX.sized _ (show 4 < 64 by decide) (by have := ty.code_lt; simp only; omega) (show 0 < 2 by decide)⟩)
theorem Sys2Proof.Laws.Sized.fexp2 (ty : FType) (g : BitVec 4) (d : BitVec 5) (a : BitVec 5) (la : BitVec 4) (ru : BitVec 3) : Statement (.fexp2 ty g d a la ru) :=
  .inr (.inr ⟨rfl, LayX.sized _ (show 4 < 64 by decide) (by have := ty.code_lt; simp only; omega) (show 0 < 2 by decide)⟩)
theorem Sys2Proof.Laws.Sized.flog2 (ty : FType) (g : BitVec 4) (d : BitVec 5) (a : BitVec 5) (la : BitVec 4) (ru : BitVec 3) : Statement (.flog2 ty g d a la ru) :=
  .inr (.inr ⟨rfl, LayX.sized _ (show 4 < 64 by decide) (by have := ty.code_lt; simp only; omega) (show 0 < 2 by decide)⟩)
theorem Sys2Proof.Laws.Sized.fsinp (ty : FType) (g : BitVec 4) (d : BitVec 5) (a : BitVec 5) (la : BitVec 4) (ru : BitVec 3) : Statement (.fsinp ty g d a la ru) :=
  .inr (.inr ⟨rfl, LayX.sized _ (show 4 < 64 by decide) (by have := ty.code_lt; simp only; omega) (show 0 < 2 by decide)⟩)
theorem Sys2Proof.Laws.Sized.fcosp (ty : FType) (g : BitVec 4) (d : BitVec 5) (a : BitVec 5) (la : BitVec 4) (ru : BitVec 3) : Statement (.fcosp ty g d a la ru) :=
  .inr (.inr ⟨rfl, LayX.sized _ (show 4 < 64 by decide) (by have := ty.code_lt; simp only; omega) (show 0 < 2 by decide)⟩)
theorem Sys2Proof.Laws.Sized.frdx (ty : FType) (g : BitVec 4) (d : BitVec 5) (a : BitVec 5) (rm : RM) (la : BitVec 4) (ru : BitVec 3) : Statement (.frdx ty g d a rm la ru) :=
  .inr (.inr ⟨rfl, LayX.sized _ (show 4 < 64 by decide) (by have := ty.code_lt; simp only; omega) (show 0 < 2 by decide)⟩)
theorem Sys2Proof.Laws.Sized.fdot2 (ty : FType) (g : BitVec 4) (d : BitVec 5) (a : BitVec 5) (b : BitVec 5) (c : BitVec 5) (rm : RM) (ru : BitVec 3) : Statement (.fdot2 ty g d a b c rm ru) :=
  .inr (.inr ⟨rfl, LayX.sized _ (show 4 < 64 by decide) (by have := ty.code_lt; simp only; omega) (show 0 < 2 by decide)⟩)
theorem Sys2Proof.Laws.Sized.fcvt (ty : FType) (src : FType) (g : BitVec 4) (d : BitVec 5) (a : BitVec 5) (b : BitVec 5) (ovp : BitVec 2) (rm : RM) (ru : BitVec 3) : Statement (.fcvt ty src g d a b ovp rm ru) :=
  .inr (.inr ⟨rfl, LayX.sized _ (show 4 < 64 by decide) (by have := ty.code_lt; simp only; omega) (show 0 < 2 by decide)⟩)
theorem Sys2Proof.Laws.Sized.fcvtX (ty : FType) (sgn : Bool) (g : BitVec 4) (d : BitVec 5) (a : BitVec 5) (rm : RM) (ru : BitVec 3) : Statement (.fcvtX ty sgn g d a rm ru) :=
  .inr (.inr ⟨rfl, LayX.sized _ (show 4 < 64 by decide) (by have := ty.code_lt; simp only; omega) (show 0 < 2 by decide)⟩)
theorem Sys2Proof.Laws.Sized.xcvtF (ty : FType) (sgn : Bool) (g : BitVec 4) (d : BitVec 5) (a : BitVec 5) (rm : RM) (ru : BitVec 3) : Statement (.xcvtF ty sgn g d a rm ru) :=
  .inr (.inr ⟨rfl, LayX.sized _ (show 4 < 64 by decide) (by have := ty.code_lt; simp only; omega) (show 0 < 2 by decide)⟩)
theorem Sys2Proof.Laws.Sized.fmvX (ty : FType) (g : BitVec 4) (d : BitVec 5) (a : BitVec 5) (ru : BitVec 3) : Statement (.fmvX ty g d a ru) :=
  .inr (.inr ⟨rfl, LayX.sized _ (show 4 < 64 by decide) (by have := ty.code_lt; simp only; omega) (show 0 < 2 by decide)⟩)
theorem Sys2Proof.Laws.Sized.fmvF (ty : FType) (g : BitVec 4) (d : BitVec 5) (a : BitVec 5) (ru : BitVec 3) : Statement (.fmvF ty g d a ru) :=
  .inr (.inr ⟨rfl, LayX.sized _ (show 4 < 64 by decide) (by have := ty.code_lt; simp only; omega) (show 0 < 2 by decide)⟩)
theorem Sys2Proof.Laws.Sized.lxch (isF : Bool) (g : BitVec 4) (d : BitVec 5) (a : BitVec 5) (b : BitVec 5) (pc : BitVec 3) (ru : BitVec 3) : Statement (.lxch isF g d a b pc ru) :=
  .inr (.inr ⟨rfl, LayX.sized _ (show 5 < 64 by decide) (by have := isF.toNat_lt; simp only; omega) (show 0 < 2 by decide)⟩)
theorem Sys2Proof.Laws.Sized.lsel (isF : Bool) (g : BitVec 4) (d : BitVec 5) (a : BitVec 5) (b : BitVec 5) (pc : BitVec 3) (ru : BitVec 3) : Statement (.lsel isF g d a b pc ru) :=
  .inr (.inr ⟨rfl, LayX.sized _ (show 5 < 64 by decide) (by have := isF.toNat_lt; simp only; omega) (show 0 < 2 by decide)⟩)
theorem Sys2Proof.Laws.Sized.lvote (g : BitVec 4) (d : BitVec 5) (a : BitVec 3) (b : BitVec 5) (pc : BitVec 3) (ru : BitVec 3) : Statement (.lvote g d a b pc ru) :=
  .inr (.inr ⟨rfl, LayX.sized _ (show 5 < 64 by decide) (show 0x20 < 256 by decide) (show 0 < 2 by decide)⟩)
theorem Sys2Proof.Laws.Sized.lred (op : LredOp) (g : BitVec 4) (d : BitVec 5) (a : BitVec 5) (b : BitVec 5) (pc : BitVec 3) (ru : BitVec 3) : Statement (.lred op g d a b pc ru) :=
  .inr (.inr ⟨rfl, LayX.sized _ (show 5 < 64 by decide) (by have := op.code_lt; simp only; omega) (show 0 < 2 by decide)⟩)
theorem Sys2Proof.Laws.Sized.laneWaitCycle (a0 : Nat) : Statement (.laneWaitCycle a0) :=
  .inl ⟨rfl, rfl⟩
theorem Sys2Proof.Laws.Sized.pairWord (g : BitVec 4) (aop : AOp) (ad : BitVec 5) (aa : BitVec 5) (ab : BitVec 5) (aru : BitVec 2) (dop : DOp) (dd : BitVec 5) (da : BitVec 5) (db : BitVec 5) (dc : BitVec 5) : Statement (.pairWord g aop ad aa ab aru dop dd da db dc) :=
  .inr (.inr ⟨rfl, LayP.sized _ (show 8 < 64 by decide) (by have := aop.code_lt; simp only; omega) (by have := dop.code_lt; simp only; omega) (show 0 < 8 by decide) (show 0 < 2 by decide)⟩)
theorem Sys2Proof.Laws.Sized.br (g : BitVec 4) (off : BitVec 21) : Statement (.br g off) :=
  .inr (.inl ⟨rfl, LayJ.sized _ (show 7 < 64 by decide)⟩)
theorem Sys2Proof.Laws.Sized.call (g : BitVec 4) (off : BitVec 21) : Statement (.call g off) :=
  .inr (.inl ⟨rfl, LayJ.sized _ (show 8 < 64 by decide)⟩)
theorem Sys2Proof.Laws.Sized.callL (g : BitVec 4) (imm : BitVec 32) : Statement (.callL g imm) :=
  .inr (.inr ⟨rfl, LayL.sized _ (show 3 < 64 by decide) (show 17 < 2048 by decide)⟩)
theorem Sys2Proof.Laws.Sized.jmp (g : BitVec 4) (imm : BitVec 32) : Statement (.jmp g imm) :=
  .inr (.inr ⟨rfl, LayL.sized _ (show 3 < 64 by decide) (show 16 < 2048 by decide)⟩)
theorem Sys2Proof.Laws.Sized.jr (g : BitVec 4) (a : BitVec 5) : Statement (.jr g a) :=
  .inr (.inl ⟨rfl, LayR.sized _ (show 9 < 64 by decide) (show 1 < 64 by decide)⟩)
theorem Sys2Proof.Laws.Sized.callr (g : BitVec 4) (d : BitVec 5) (a : BitVec 5) : Statement (.callr g d a) :=
  .inr (.inl ⟨rfl, LayR.sized _ (show 9 < 64 by decide) (show 2 < 64 by decide)⟩)
theorem Sys2Proof.Laws.Sized.ret (g : BitVec 4) : Statement (.ret g) :=
  .inr (.inl ⟨rfl, LayR.sized _ (show 9 < 64 by decide) (show 3 < 64 by decide)⟩)
theorem Sys2Proof.Laws.Sized.loop (a : BitVec 5) (len : BitVec 12) : Statement (.loop a len) :=
  .inr (.inl ⟨rfl, LayI.sized _ (show 10 < 64 by decide) (show 0 < 8 by decide)⟩)
theorem Sys2Proof.Laws.Sized.loopx (g : BitVec 4) : Statement (.loopx g) :=
  .inr (.inl ⟨rfl, LayR.sized _ (show 9 < 64 by decide) (show 4 < 64 by decide)⟩)
theorem Sys2Proof.Laws.Sized.nop (g : BitVec 4) : Statement (.nop g) :=
  .inr (.inl ⟨rfl, LayR.sized _ (show 9 < 64 by decide) (show 0 < 64 by decide)⟩)
theorem Sys2Proof.Laws.Sized.spawn (g : BitVec 4) (d : BitVec 5) (a : BitVec 5) (b : BitVec 5) : Statement (.spawn g d a b) :=
  .inr (.inl ⟨rfl, LayR.sized _ (show 13 < 64 by decide) (show 0 < 64 by decide)⟩)
theorem Sys2Proof.Laws.Sized.migrate (g : BitVec 4) (d : BitVec 5) (a : BitVec 5) : Statement (.migrate g d a) :=
  .inr (.inl ⟨rfl, LayR.sized _ (show 13 < 64 by decide) (show 1 < 64 by decide)⟩)
theorem Sys2Proof.Laws.Sized.yield (g : BitVec 4) : Statement (.yield g) :=
  .inr (.inl ⟨rfl, LayR.sized _ (show 13 < 64 by decide) (show 2 < 64 by decide)⟩)
theorem Sys2Proof.Laws.Sized.exit (g : BitVec 4) : Statement (.exit g) :=
  .inr (.inl ⟨rfl, LayR.sized _ (show 13 < 64 by decide) (show 3 < 64 by decide)⟩)
theorem Sys2Proof.Laws.Sized.doneWait (g : BitVec 4) (d : BitVec 5) (a : BitVec 5) : Statement (.doneWait g d a) :=
  .inr (.inl ⟨rfl, LayR.sized _ (show 13 < 64 by decide) (show 4 < 64 by decide)⟩)
theorem Sys2Proof.Laws.Sized.cancel (g : BitVec 4) (d : BitVec 5) (a : BitVec 5) : Statement (.cancel g d a) :=
  .inr (.inl ⟨rfl, LayR.sized _ (show 13 < 64 by decide) (show 5 < 64 by decide)⟩)
theorem Sys2Proof.Laws.Sized.hbArr (g : BitVec 4) (a : BitVec 5) : Statement (.hbArr g a) :=
  .inr (.inl ⟨rfl, LayR.sized _ (show 13 < 64 by decide) (show 8 < 64 by decide)⟩)
theorem Sys2Proof.Laws.Sized.hbWait (g : BitVec 4) (a : BitVec 5) : Statement (.hbWait g a) :=
  .inr (.inl ⟨rfl, LayR.sized _ (show 13 < 64 by decide) (show 9 < 64 by decide)⟩)
theorem Sys2Proof.Laws.Sized.hbSync (g : BitVec 4) (a : BitVec 5) : Statement (.hbSync g a) :=
  .inr (.inl ⟨rfl, LayR.sized _ (show 13 < 64 by decide) (show 10 < 64 by decide)⟩)
theorem Sys2Proof.Laws.Sized.rinv (g : BitVec 4) (d : BitVec 5) (a : BitVec 5) (b : BitVec 5) : Statement (.rinv g d a b) :=
  .inr (.inl ⟨rfl, LayR.sized _ (show 14 < 64 by decide) (show 0 < 64 by decide)⟩)
theorem Sys2Proof.Laws.Sized.mkwait (g : BitVec 4) (d : BitVec 5) (a : BitVec 5) : Statement (.mkwait g d a) :=
  .inr (.inl ⟨rfl, LayR.sized _ (show 14 < 64 by decide) (show 1 < 64 by decide)⟩)
theorem Sys2Proof.Laws.Sized.mkget (g : BitVec 4) (d : BitVec 5) (a : BitVec 5) (b : BitVec 5) : Statement (.mkget g d a b) :=
  .inr (.inl ⟨rfl, LayR.sized _ (show 14 < 64 by decide) (show 2 < 64 by decide)⟩)
theorem Sys2Proof.Laws.Sized.mkgetT (g : BitVec 4) (d : BitVec 5) (a : BitVec 5) (b : BitVec 5) : Statement (.mkgetT g d a b) :=
  .inr (.inl ⟨rfl, LayR.sized _ (show 14 < 64 by decide) (show 3 < 64 by decide)⟩)
theorem Sys2Proof.Laws.Sized.mktest (g : BitVec 4) (d : BitVec 3) (a : BitVec 5) : Statement (.mktest g d a) :=
  .inr (.inl ⟨rfl, LayR.sized _ (show 14 < 64 by decide) (show 4 < 64 by decide)⟩)
theorem Sys2Proof.Laws.Sized.mkret (g : BitVec 4) : Statement (.mkret g) :=
  .inr (.inl ⟨rfl, LayR.sized _ (show 14 < 64 by decide) (show 5 < 64 by decide)⟩)
theorem Sys2Proof.Laws.Sized.mkdrop (g : BitVec 4) (a : BitVec 5) : Statement (.mkdrop g a) :=
  .inr (.inl ⟨rfl, LayR.sized _ (show 14 < 64 by decide) (show 6 < 64 by decide)⟩)
theorem Sys2Proof.Laws.Sized.sys (g : BitVec 4) : Statement (.sys g) :=
  .inr (.inl ⟨rfl, LayR.sized _ (show 12 < 64 by decide) (show 0 < 64 by decide)⟩)
theorem Sys2Proof.Laws.Sized.tret (g : BitVec 4) : Statement (.tret g) :=
  .inr (.inl ⟨rfl, LayR.sized _ (show 12 < 64 by decide) (show 1 < 64 by decide)⟩)
theorem Sys2Proof.Laws.Sized.brk (g : BitVec 4) : Statement (.brk g) :=
  .inr (.inl ⟨rfl, LayR.sized _ (show 12 < 64 by decide) (show 2 < 64 by decide)⟩)
theorem Sys2Proof.Laws.Sized.wfi (g : BitVec 4) : Statement (.wfi g) :=
  .inr (.inl ⟨rfl, LayR.sized _ (show 12 < 64 by decide) (show 3 < 64 by decide)⟩)
theorem Sys2Proof.Laws.Sized.wfiTimeout (a0 : Nat) : Statement (.wfiTimeout a0) :=
  .inl ⟨rfl, rfl⟩
theorem Sys2Proof.Laws.Sized.csrr (d : BitVec 5) (n : BitVec 12) : Statement (.csrr d n) :=
  .inr (.inl ⟨rfl, LayI.sized _ (show 11 < 64 by decide) (show 0 < 8 by decide)⟩)
theorem Sys2Proof.Laws.Sized.csrw (a : BitVec 5) (n : BitVec 12) : Statement (.csrw a n) :=
  .inr (.inl ⟨rfl, LayI.sized _ (show 11 < 64 by decide) (show 1 < 8 by decide)⟩)
theorem Sys2Proof.Laws.Sized.csrs (a : BitVec 5) (n : BitVec 12) : Statement (.csrs a n) :=
  .inr (.inl ⟨rfl, LayI.sized _ (show 11 < 64 by decide) (show 2 < 8 by decide)⟩)
theorem Sys2Proof.Laws.Sized.csrc (a : BitVec 5) (n : BitVec 12) : Statement (.csrc a n) :=
  .inr (.inl ⟨rfl, LayI.sized _ (show 11 < 64 by decide) (show 3 < 8 by decide)⟩)
theorem Sys2Proof.Laws.Sized.interrupt (a0 : Nat) : Statement (.interrupt a0) :=
  .inl ⟨rfl, rfl⟩
theorem Sys2Proof.Laws.Sized.signal (a0 : Nat) : Statement (.signal a0) :=
  .inl ⟨rfl, rfl⟩
theorem Sys2Proof.Laws.Sized.registerWriteback (a0 : Nat) (a1 : Nat) : Statement (.registerWriteback a0 a1) :=
  .inl ⟨rfl, rfl⟩
theorem Sys2Proof.Laws.Sized.cpyIn (g : BitVec 4) (d : BitVec 5) (a : BitVec 5) (b : BitVec 5) (c : BitVec 5) (ss : BitVec 13) (la : BitVec 4) (ru : BitVec 3) : Statement (.cpyIn g d a b c ss la ru) :=
  .inr (.inr ⟨rfl, LayX.sized _ (show 9 < 64 by decide) (show 0x00 < 256 by decide) (show 0 < 2 by decide)⟩)
theorem Sys2Proof.Laws.Sized.cpyMc (g : BitVec 4) (d : BitVec 5) (a : BitVec 5) (b : BitVec 5) (c : BitVec 5) (dmask : BitVec 4) (ss : BitVec 13) (la : BitVec 4) (ru : BitVec 3) : Statement (.cpyMc g d a b c dmask ss la ru) :=
  .inr (.inr ⟨rfl, LayX.sized _ (show 9 < 64 by decide) (show 0x01 < 256 by decide) (show 0 < 2 by decide)⟩)
theorem Sys2Proof.Laws.Sized.cpyGat (g : BitVec 4) (d : BitVec 5) (a : BitVec 5) (b : BitVec 5) (c : BitVec 5) (mo : BitVec 16) (la : BitVec 4) (ru : BitVec 3) : Statement (.cpyGat g d a b c mo la ru) :=
  .inr (.inr ⟨rfl, LayX.sized _ (show 9 < 64 by decide) (show 0x02 < 256 by decide) (show 0 < 2 by decide)⟩)
theorem Sys2Proof.Laws.Sized.cpyOut (s : Scope) (g : BitVec 4) (d : BitVec 5) (a : BitVec 5) (b : BitVec 5) (c : BitVec 5) (ss : BitVec 13) (la : BitVec 4) (ru : BitVec 3) : Statement (.cpyOut s g d a b c ss la ru) :=
  .inr (.inr ⟨rfl, LayX.sized _ (show 9 < 64 by decide) (by have := s.code_lt; simp only; omega) (show 0 < 2 by decide)⟩)
theorem Sys2Proof.Laws.Sized.cpySct (s : Scope) (g : BitVec 4) (d : BitVec 5) (a : BitVec 5) (b : BitVec 5) (c : BitVec 5) (mo : BitVec 16) (la : BitVec 4) (ru : BitVec 3) : Statement (.cpySct s g d a b c mo la ru) :=
  .inr (.inr ⟨rfl, LayX.sized _ (show 9 < 64 by decide) (by have := s.code_lt; simp only; omega) (show 0 < 2 by decide)⟩)
theorem Sys2Proof.Laws.Sized.copyAccept (a0 : Nat) : Statement (.copyAccept a0) :=
  .inl ⟨rfl, rfl⟩
theorem Sys2Proof.Laws.Sized.copyChunkLand (a0 : Nat) : Statement (.copyChunkLand a0) :=
  .inl ⟨rfl, rfl⟩
theorem Sys2Proof.Laws.Sized.copyChunkRead (a0 : Nat) : Statement (.copyChunkRead a0) :=
  .inl ⟨rfl, rfl⟩
theorem Sys2Proof.Laws.Sized.copyComplete (a0 : Nat) : Statement (.copyComplete a0) :=
  .inl ⟨rfl, rfl⟩
theorem Sys2Proof.Laws.Sized.barInit (g : BitVec 4) (d : BitVec 5) (a : BitVec 5) (b : BitVec 5) (c : BitVec 5) (la : BitVec 4) (ru : BitVec 3) : Statement (.barInit g d a b c la ru) :=
  .inr (.inr ⟨rfl, LayX.sized _ (show 9 < 64 by decide) (show 0x20 < 256 by decide) (show 0 < 2 by decide)⟩)
theorem Sys2Proof.Laws.Sized.barArr (g : BitVec 4) (d : BitVec 5) (a : BitVec 5) (la : BitVec 4) (ru : BitVec 3) : Statement (.barArr g d a la ru) :=
  .inr (.inr ⟨rfl, LayX.sized _ (show 9 < 64 by decide) (show 0x21 < 256 by decide) (show 0 < 2 by decide)⟩)
theorem Sys2Proof.Laws.Sized.barExp (arr : Bool) (out : Bool) (g : BitVec 4) (d : BitVec 5) (a : BitVec 5) (b : BitVec 5) (la : BitVec 4) (ru : BitVec 3) : Statement (.barExp arr out g d a b la ru) :=
  .inr (.inr ⟨rfl, LayX.sized _ (show 9 < 64 by decide) (show 0x22 < 256 by decide) (show 0 < 2 by decide)⟩)
theorem Sys2Proof.Laws.Sized.barWait (out : Bool) (g : BitVec 4) (d : BitVec 5) (a : BitVec 5) (b : BitVec 5) (la : BitVec 4) (ru : BitVec 3) : Statement (.barWait out g d a b la ru) :=
  .inr (.inr ⟨rfl, LayX.sized _ (show 9 < 64 by decide) (show 0x23 < 256 by decide) (show 0 < 2 by decide)⟩)
theorem Sys2Proof.Laws.Sized.barTest (out : Bool) (g : BitVec 4) (d : BitVec 5) (a : BitVec 5) (b : BitVec 5) (la : BitVec 4) (ru : BitVec 3) : Statement (.barTest out g d a b la ru) :=
  .inr (.inr ⟨rfl, LayX.sized _ (show 9 < 64 by decide) (show 0x24 < 256 by decide) (show 0 < 2 by decide)⟩)
theorem Sys2Proof.Laws.Sized.barInval (g : BitVec 4) (d : BitVec 5) (a : BitVec 5) (la : BitVec 4) (ru : BitVec 3) : Statement (.barInval g d a la ru) :=
  .inr (.inr ⟨rfl, LayX.sized _ (show 9 < 64 by decide) (show 0x25 < 256 by decide) (show 0 < 2 by decide)⟩)
theorem Sys2Proof.Laws.Sized.wcnt (k : CntClass) (n : BitVec 6) : Statement (.wcnt k n) :=
  .inr (.inl ⟨rfl, LayI.sized _ (show 15 < 64 by decide) (show 0 < 8 by decide)⟩)
theorem Sys2Proof.Laws.Sized.mcfg (g : BitVec 4) (d : BitVec 5) (rows : BitVec 2) (cols : BitVec 2) (la : BitVec 4) (ru : BitVec 3) : Statement (.mcfg g d rows cols la ru) :=
  .inr (.inr ⟨rfl, LayX.sized _ (show 10 < 64 by decide) (show 0x00 < 256 by decide) (show 0 < 2 by decide)⟩)
theorem Sys2Proof.Laws.Sized.mcfgApply (a0 : Nat) : Statement (.mcfgApply a0) :=
  .inl ⟨rfl, rfl⟩
theorem Sys2Proof.Laws.Sized.mclaim (g : BitVec 4) (d : BitVec 5) (a : BitVec 5) (b : BitVec 5) (pc : BitVec 3) (la : BitVec 4) (ru : BitVec 3) : Statement (.mclaim g d a b pc la ru) :=
  .inr (.inr ⟨rfl, LayX.sized _ (show 10 < 64 by decide) (show 0x01 < 256 by decide) (show 0 < 2 by decide)⟩)
theorem Sys2Proof.Laws.Sized.mclaimW (g : BitVec 4) (d : BitVec 5) (a : BitVec 5) (b : BitVec 5) (pc : BitVec 3) (la : BitVec 4) (ru : BitVec 3) : Statement (.mclaimW g d a b pc la ru) :=
  .inr (.inr ⟨rfl, LayX.sized _ (show 10 < 64 by decide) (show 0x02 < 256 by decide) (show 0 < 2 by decide)⟩)
theorem Sys2Proof.Laws.Sized.mclaimWGrant (a0 : Nat) : Statement (.mclaimWGrant a0) :=
  .inl ⟨rfl, rfl⟩
theorem Sys2Proof.Laws.Sized.claimDeadlock (a0 : Nat) : Statement (.claimDeadlock a0) :=
  .inl ⟨rfl, rfl⟩
theorem Sys2Proof.Laws.Sized.mrel (g : BitVec 4) (d : BitVec 5) (a : BitVec 5) (b : BitVec 5) (la : BitVec 4) (ru : BitVec 3) : Statement (.mrel g d a b la ru) :=
  .inr (.inr ⟨rfl, LayX.sized _ (show 10 < 64 by decide) (show 0x03 < 256 by decide) (show 0 < 2 by decide)⟩)
theorem Sys2Proof.Laws.Sized.mload (e8 : Bool) (g : BitVec 4) (d : BitVec 5) (a : BitVec 5) (b : BitVec 5) (c : BitVec 5) (la : BitVec 4) (ru : BitVec 3) : Statement (.mload e8 g d a b c la ru) :=
  .inr (.inr ⟨rfl, LayX.sized _ (show 10 < 64 by decide) (show 0x04 < 256 by decide) (show 0 < 2 by decide)⟩)
theorem Sys2Proof.Laws.Sized.mloadT (e8 : Bool) (g : BitVec 4) (d : BitVec 5) (a : BitVec 5) (b : BitVec 5) (c : BitVec 5) (la : BitVec 4) (ru : BitVec 3) : Statement (.mloadT e8 g d a b c la ru) :=
  .inr (.inr ⟨rfl, LayX.sized _ (show 10 < 64 by decide) (show 0x05 < 256 by decide) (show 0 < 2 by decide)⟩)
theorem Sys2Proof.Laws.Sized.mgath (e8 : Bool) (g : BitVec 4) (d : BitVec 5) (a : BitVec 5) (b : BitVec 5) (la : BitVec 4) (ru : BitVec 3) : Statement (.mgath e8 g d a b la ru) :=
  .inr (.inr ⟨rfl, LayX.sized _ (show 10 < 64 by decide) (show 0x06 < 256 by decide) (show 0 < 2 by decide)⟩)
theorem Sys2Proof.Laws.Sized.mmul (f : MFmt) (g : BitVec 4) (d : BitVec 5) (a : BitVec 5) (la : BitVec 4) (ru : BitVec 3) : Statement (.mmul f g d a la ru) :=
  .inr (.inr ⟨rfl, LayX.sized _ (show 10 < 64 by decide) (by have := f.code_lt; simp only; omega) (show 0 < 2 by decide)⟩)
theorem Sys2Proof.Laws.Sized.msacc (i32 : Bool) (z : Bool) (g : BitVec 4) (d : BitVec 5) (a : BitVec 5) (b : BitVec 5) (c : BitVec 5) (la : BitVec 4) (ru : BitVec 3) : Statement (.msacc i32 z g d a b c la ru) :=
  .inr (.inr ⟨rfl, LayX.sized _ (show 10 < 64 by decide) (show 0x14 < 256 by decide) (show 0 < 2 by decide)⟩)
theorem Sys2Proof.Laws.Sized.mstore (fmt : BitVec 3) (ovp : BitVec 2) (rm : BitVec 3) (z : Bool) (g : BitVec 4) (d : BitVec 5) (a : BitVec 5) (b : BitVec 5) (la : BitVec 4) (ru : BitVec 3) : Statement (.mstore fmt ovp rm z g d a b la ru) :=
  .inr (.inr ⟨rfl, LayX.sized _ (show 10 < 64 by decide) (show 0x18 < 256 by decide) (show 0 < 2 by decide)⟩)
theorem Sys2Proof.Laws.Sized.mzero (g : BitVec 4) (d : BitVec 5) (a : BitVec 5) (b : BitVec 5) (la : BitVec 4) (ru : BitVec 3) : Statement (.mzero g d a b la ru) :=
  .inr (.inr ⟨rfl, LayX.sized _ (show 10 < 64 by decide) (show 0x19 < 256 by decide) (show 0 < 2 by decide)⟩)
theorem Sys2Proof.Laws.Sized.mstat (g : BitVec 4) (d : BitVec 5) (a : BitVec 5) (la : BitVec 4) (ru : BitVec 3) : Statement (.mstat g d a la ru) :=
  .inr (.inr ⟨rfl, LayX.sized _ (show 10 < 64 by decide) (show 0x1A < 256 by decide) (show 0 < 2 by decide)⟩)
theorem Sys2Proof.Laws.Sized.macld (g : BitVec 4) (d : BitVec 5) (a : BitVec 5) (b : BitVec 5) (la : BitVec 4) (ru : BitVec 3) : Statement (.macld g d a b la ru) :=
  .inr (.inr ⟨rfl, LayX.sized _ (show 10 < 64 by decide) (show 0x1B < 256 by decide) (show 0 < 2 by decide)⟩)
theorem Sys2Proof.Laws.Sized.matrixPerform (a0 : Nat) : Statement (.matrixPerform a0) :=
  .inl ⟨rfl, rfl⟩
theorem Sys2Proof.Laws.Sized.enginePreempt (a0 : Nat) (a1 : Bool) : Statement (.enginePreempt a0 a1) :=
  .inl ⟨rfl, rfl⟩
theorem Sys2Proof.Laws.Sized.cwFlush (s : WScope) (bar : Bool) (g : BitVec 4) (d : BitVec 5) (a : BitVec 5) (b : BitVec 5) (c : BitVec 5) (la : BitVec 4) (ru : BitVec 3) : Statement (.cwFlush s bar g d a b c la ru) :=
  .inr (.inr ⟨rfl, LayX.sized _ (show 11 < 64 by decide) (show 0x0 < 256 by decide) (show 0 < 2 by decide)⟩)
theorem Sys2Proof.Laws.Sized.cwInval (s : WScope) (bar : Bool) (g : BitVec 4) (d : BitVec 5) (a : BitVec 5) (b : BitVec 5) (c : BitVec 5) (la : BitVec 4) (ru : BitVec 3) : Statement (.cwInval s bar g d a b c la ru) :=
  .inr (.inr ⟨rfl, LayX.sized _ (show 11 < 64 by decide) (show 0x1 < 256 by decide) (show 0 < 2 by decide)⟩)
theorem Sys2Proof.Laws.Sized.cwWalkComplete (a0 : Nat) : Statement (.cwWalkComplete a0) :=
  .inl ⟨rfl, rfl⟩
theorem Sys2Proof.Laws.Sized.pgMig (g : BitVec 4) (d : BitVec 5) (a : BitVec 5) (b : BitVec 5) (c : BitVec 5) (la : BitVec 4) (ru : BitVec 3) : Statement (.pgMig g d a b c la ru) :=
  .inr (.inr ⟨rfl, LayX.sized _ (show 11 < 64 by decide) (show 0x08 < 256 by decide) (show 0 < 2 by decide)⟩)
theorem Sys2Proof.Laws.Sized.pgMigLine (a0 : Nat) : Statement (.pgMigLine a0) :=
  .inl ⟨rfl, rfl⟩
theorem Sys2Proof.Laws.Sized.pgMigRel (g : BitVec 4) (d : BitVec 5) (a : BitVec 5) (la : BitVec 4) (ru : BitVec 3) : Statement (.pgMigRel g d a la ru) :=
  .inr (.inr ⟨rfl, LayX.sized _ (show 11 < 64 by decide) (show 0x08 < 256 by decide) (show 0 < 2 by decide)⟩)
theorem Sys2Proof.Laws.Sized.pgSplit (g : BitVec 4) (d : BitVec 5) (a : BitVec 5) (b : BitVec 5) (c : BitVec 5) (la : BitVec 4) (ru : BitVec 3) : Statement (.pgSplit g d a b c la ru) :=
  .inr (.inr ⟨rfl, LayX.sized _ (show 11 < 64 by decide) (show 0x09 < 256 by decide) (show 0 < 2 by decide)⟩)
theorem Sys2Proof.Laws.Sized.pgSplitComplete (a0 : Nat) : Statement (.pgSplitComplete a0) :=
  .inl ⟨rfl, rfl⟩
theorem Sys2Proof.Laws.Sized.pgColl (lvl : BitVec 2) (g : BitVec 4) (d : BitVec 5) (a : BitVec 5) (b : BitVec 5) (la : BitVec 4) (ru : BitVec 3) : Statement (.pgColl lvl g d a b la ru) :=
  .inr (.inr ⟨rfl, LayX.sized _ (show 11 < 64 by decide) (show 0x0A < 256 by decide) (show 0 < 2 by decide)⟩)
theorem Sys2Proof.Laws.Sized.pgCollComplete (a0 : Nat) : Statement (.pgCollComplete a0) :=
  .inl ⟨rfl, rfl⟩
theorem Sys2Proof.Laws.Sized.tlbInv (k : TlbKind) (s : WScope) (g : BitVec 4) (d : BitVec 5) (a : BitVec 5) (b : BitVec 5) (c : BitVec 5) (la : BitVec 4) (ru : BitVec 3) : Statement (.tlbInv k s g d a b c la ru) :=
  .inr (.inr ⟨rfl, LayX.sized _ (show 11 < 64 by decide) (show 0x10 < 256 by decide) (show 0 < 2 by decide)⟩)
theorem Sys2Proof.Laws.Sized.tlbInvComplete (a0 : Nat) : Statement (.tlbInvComplete a0) :=
  .inl ⟨rfl, rfl⟩
theorem Sys2Proof.Laws.Sized.getS (a0 : Nat) (a1 : Nat) : Statement (.getS a0 a1) :=
  .inl ⟨rfl, rfl⟩
theorem Sys2Proof.Laws.Sized.getX (a0 : Nat) (a1 : Nat) : Statement (.getX a0 a1) :=
  .inl ⟨rfl, rfl⟩
theorem Sys2Proof.Laws.Sized.upgrade (a0 : Nat) (a1 : Nat) : Statement (.upgrade a0 a1) :=
  .inl ⟨rfl, rfl⟩
theorem Sys2Proof.Laws.Sized.getU (a0 : Nat) (a1 : Nat) (a2 : RedOp) (a3 : Bool) : Statement (.getU a0 a1 a2 a3) :=
  .inl ⟨rfl, rfl⟩
theorem Sys2Proof.Laws.Sized.atHome (a0 : Nat) (a1 : Nat) : Statement (.atHome a0 a1) :=
  .inl ⟨rfl, rfl⟩
theorem Sys2Proof.Laws.Sized.putM (a0 : Nat) (a1 : Nat) : Statement (.putM a0 a1) :=
  .inl ⟨rfl, rfl⟩
theorem Sys2Proof.Laws.Sized.putO (a0 : Nat) (a1 : Nat) : Statement (.putO a0 a1) :=
  .inl ⟨rfl, rfl⟩
theorem Sys2Proof.Laws.Sized.putE (a0 : Nat) (a1 : Nat) : Statement (.putE a0 a1) :=
  .inl ⟨rfl, rfl⟩
theorem Sys2Proof.Laws.Sized.putU (a0 : Nat) (a1 : Nat) : Statement (.putU a0 a1) :=
  .inl ⟨rfl, rfl⟩
theorem Sys2Proof.Laws.Sized.privEvictReport (a0 : Nat) (a1 : Nat) : Statement (.privEvictReport a0 a1) :=
  .inl ⟨rfl, rfl⟩
theorem Sys2Proof.Laws.Sized.slabEvict (a0 : Nat) (a1 : Nat) : Statement (.slabEvict a0 a1) :=
  .inl ⟨rfl, rfl⟩
theorem Sys2Proof.Laws.Sized.migrateSend (a0 : Nat) : Statement (.migrateSend a0) :=
  .inl ⟨rfl, rfl⟩
theorem Sys2Proof.Laws.Sized.threadArrival (a0 : Nat) : Statement (.threadArrival a0) :=
  .inl ⟨rfl, rfl⟩
theorem Sys2Proof.Laws.Sized.binTimer (a0 : Nat) (a1 : Nat) : Statement (.binTimer a0 a1) :=
  .inl ⟨rfl, rfl⟩
theorem Sys2Proof.Laws.Sized.keystoneBlockRequest (a0 : Nat) (a1 : Nat) : Statement (.keystoneBlockRequest a0 a1) :=
  .inl ⟨rfl, rfl⟩
theorem Sys2Proof.Laws.Sized.keystoneElection (a0 : Nat) : Statement (.keystoneElection a0) :=
  .inl ⟨rfl, rfl⟩
theorem Sys2Proof.Laws.Sized.workgroupPlace (a0 : Nat) : Statement (.workgroupPlace a0) :=
  .inl ⟨rfl, rfl⟩
theorem Sys2Proof.Laws.Sized.arrivalQueueWrite (a0 : Nat) : Statement (.arrivalQueueWrite a0) :=
  .inl ⟨rfl, rfl⟩
theorem Sys2Proof.Laws.Sized.exitQueueWrite (a0 : Nat) : Statement (.exitQueueWrite a0) :=
  .inl ⟨rfl, rfl⟩
theorem Sys2Proof.Laws.Sized.rinvEnqueue (a0 : Nat) : Statement (.rinvEnqueue a0) :=
  .inl ⟨rfl, rfl⟩
theorem Sys2Proof.Laws.Sized.markResolve (a0 : Nat) : Statement (.markResolve a0) :=
  .inl ⟨rfl, rfl⟩
theorem Sys2Proof.Laws.Sized.markBreak (a0 : Nat) : Statement (.markBreak a0) :=
  .inl ⟨rfl, rfl⟩
theorem Sys2Proof.Laws.Sized.prqCmdIssue (a0 : Nat) : Statement (.prqCmdIssue a0) :=
  .inl ⟨rfl, rfl⟩
theorem Sys2Proof.Laws.Sized.workgroupStopped (a0 : Nat) : Statement (.workgroupStopped a0) :=
  .inl ⟨rfl, rfl⟩
theorem Sys2Proof.Laws.Sized.saveCommit (a0 : Nat) : Statement (.saveCommit a0) :=
  .inl ⟨rfl, rfl⟩
theorem Sys2Proof.Laws.Sized.drainDeadline (a0 : Nat) : Statement (.drainDeadline a0) :=
  .inl ⟨rfl, rfl⟩
theorem Sys2Proof.Laws.Sized.restoreStart (a0 : Nat) : Statement (.restoreStart a0) :=
  .inl ⟨rfl, rfl⟩
theorem Sys2Proof.Laws.Sized.restoreComplete (a0 : Nat) : Statement (.restoreComplete a0) :=
  .inl ⟨rfl, rfl⟩
theorem Sys2Proof.Laws.Sized.governorSample (a0 : Nat) : Statement (.governorSample a0) :=
  .inl ⟨rfl, rfl⟩
theorem Sys2Proof.Laws.Sized.syntheticGroutSlot (a0 : Nat) : Statement (.syntheticGroutSlot a0) :=
  .inl ⟨rfl, rfl⟩
theorem Sys2Proof.Laws.Sized.shuntTrip (a0 : Nat) : Statement (.shuntTrip a0) :=
  .inl ⟨rfl, rfl⟩
theorem Sys2Proof.Laws.Sized.coursePwrNtReq (a0 : Nat) : Statement (.coursePwrNtReq a0) :=
  .inl ⟨rfl, rfl⟩
theorem Sys2Proof.Laws.Sized.coursePwrBypReq (a0 : Nat) (a1 : Nat) : Statement (.coursePwrBypReq a0 a1) :=
  .inl ⟨rfl, rfl⟩
theorem Sys2Proof.Laws.Sized.coursePwrOffReq (a0 : Nat) : Statement (.coursePwrOffReq a0) :=
  .inl ⟨rfl, rfl⟩
theorem Sys2Proof.Laws.Sized.courseModeChange (a0 : Nat) : Statement (.courseModeChange a0) :=
  .inl ⟨rfl, rfl⟩
theorem Sys2Proof.Laws.Sized.quadrantOvercurrent (a0 : Nat) (a1 : Nat) : Statement (.quadrantOvercurrent a0 a1) :=
  .inl ⟨rfl, rfl⟩
theorem Sys2Proof.Laws.Sized.qstatClearOff (a0 : Nat) (a1 : Nat) : Statement (.qstatClearOff a0 a1) :=
  .inl ⟨rfl, rfl⟩
theorem Sys2Proof.Laws.Sized.monSnap (a0 : Nat) (a1 : Nat) : Statement (.monSnap a0 a1) :=
  .inl ⟨rfl, rfl⟩
theorem Sys2Proof.Laws.Sized.monSample (a0 : Nat) (a1 : Nat) (a2 : Nat) : Statement (.monSample a0 a1 a2) :=
  .inl ⟨rfl, rfl⟩
theorem Sys2Proof.Laws.Sized.unitDrain (a0 : UnitId) : Statement (.unitDrain a0) :=
  .inl ⟨rfl, rfl⟩
theorem Sys2Proof.Laws.Sized.unitOffline (a0 : UnitId) : Statement (.unitOffline a0) :=
  .inl ⟨rfl, rfl⟩
theorem Sys2Proof.Laws.Sized.unitOnline (a0 : UnitId) : Statement (.unitOnline a0) :=
  .inl ⟨rfl, rfl⟩
theorem Sys2Proof.Laws.Sized.unitRetire (a0 : UnitId) : Statement (.unitRetire a0) :=
  .inl ⟨rfl, rfl⟩
theorem Sys2Proof.Laws.Sized.firmwareUpdate (a0 : Nat) (a1 : Nat) : Statement (.firmwareUpdate a0 a1) :=
  .inl ⟨rfl, rfl⟩
theorem Sys2Proof.Laws.Sized.powerOn (a0 : Nat) : Statement (.powerOn a0) :=
  .inl ⟨rfl, rfl⟩
theorem Sys2Proof.Laws.Sized.frameReceive (a0 : Nat) (a1 : Nat) (a2 : List Nat) : Statement (.frameReceive a0 a1 a2) :=
  .inl ⟨rfl, rfl⟩
theorem Sys2Proof.Laws.Sized.frameTransmit (a0 : Nat) (a1 : Nat) (a2 : Nat) : Statement (.frameTransmit a0 a1 a2) :=
  .inl ⟨rfl, rfl⟩
theorem Sys2Proof.Laws.Sized.roceSend (a0 : Nat) (a1 : Nat) (a2 : Nat) (a3 : List Nat) : Statement (.roceSend a0 a1 a2 a3) :=
  .inl ⟨rfl, rfl⟩
theorem Sys2Proof.Laws.Sized.roceSendImm (a0 : Nat) (a1 : Nat) (a2 : Nat) (a3 : List Nat) : Statement (.roceSendImm a0 a1 a2 a3) :=
  .inl ⟨rfl, rfl⟩
theorem Sys2Proof.Laws.Sized.roceRdmaWrite (a0 : Nat) (a1 : Nat) (a2 : Nat) (a3 : Nat) (a4 : Nat) (a5 : List Nat) : Statement (.roceRdmaWrite a0 a1 a2 a3 a4 a5) :=
  .inl ⟨rfl, rfl⟩
theorem Sys2Proof.Laws.Sized.roceRdmaWriteImm (a0 : Nat) (a1 : Nat) (a2 : Nat) (a3 : Nat) (a4 : Nat) (a5 : List Nat) : Statement (.roceRdmaWriteImm a0 a1 a2 a3 a4 a5) :=
  .inl ⟨rfl, rfl⟩
theorem Sys2Proof.Laws.Sized.roceRdmaRead (a0 : Nat) (a1 : Nat) (a2 : Nat) (a3 : Nat) (a4 : Nat) (a5 : Nat) : Statement (.roceRdmaRead a0 a1 a2 a3 a4 a5) :=
  .inl ⟨rfl, rfl⟩
theorem Sys2Proof.Laws.Sized.roceReadResponse (a0 : Nat) (a1 : Nat) (a2 : Nat) (a3 : Nat) (a4 : Nat) (a5 : List Nat) : Statement (.roceReadResponse a0 a1 a2 a3 a4 a5) :=
  .inl ⟨rfl, rfl⟩
theorem Sys2Proof.Laws.Sized.roceAtomic (a0 : Nat) (a1 : Nat) (a2 : Nat) : Statement (.roceAtomic a0 a1 a2) :=
  .inl ⟨rfl, rfl⟩
theorem Sys2Proof.Laws.Sized.timeStep (a0 : Nat) (a1 : Nat) : Statement (.timeStep a0 a1) :=
  .inl ⟨rfl, rfl⟩
theorem Sys2Proof.Laws.Sized.flitReceive (a0 : Nat) (a1 : Nat) (a2 : Bool) : Statement (.flitReceive a0 a1 a2) :=
  .inl ⟨rfl, rfl⟩
theorem Sys2Proof.Laws.Sized.linkPortDown (a0 : Nat) (a1 : Nat) : Statement (.linkPortDown a0 a1) :=
  .inl ⟨rfl, rfl⟩
theorem Sys2Proof.Laws.Sized.linkTimeout (a0 : Nat) : Statement (.linkTimeout a0) :=
  .inl ⟨rfl, rfl⟩
theorem Sys2Proof.Laws.Sized.ucieRetrainFail (a0 : Nat) : Statement (.ucieRetrainFail a0) :=
  .inl ⟨rfl, rfl⟩
theorem Sys2Proof.Laws.Sized.idwCmdReplace (a0 : Nat) : Statement (.idwCmdReplace a0) :=
  .inl ⟨rfl, rfl⟩
theorem Sys2Proof.Laws.Sized.idwCmdRead (a0 : Nat) : Statement (.idwCmdRead a0) :=
  .inl ⟨rfl, rfl⟩
theorem Sys2Proof.Laws.Sized.idwTableWrite (a0 : Nat) (a1 : Nat) : Statement (.idwTableWrite a0 a1) :=
  .inl ⟨rfl, rfl⟩
theorem Sys2Proof.Laws.Sized.migProfWrite (a0 : Nat) (a1 : Nat) : Statement (.migProfWrite a0 a1) :=
  .inl ⟨rfl, rfl⟩
theorem Sys2Proof.Laws.Sized.exqCtlWrite (a0 : Nat) (a1 : Nat) : Statement (.exqCtlWrite a0 a1) :=
  .inl ⟨rfl, rfl⟩
theorem Sys2Proof.Laws.Sized.arqCtlWrite (a0 : Nat) (a1 : Nat) : Statement (.arqCtlWrite a0 a1) :=
  .inl ⟨rfl, rfl⟩
theorem Sys2Proof.Laws.Sized.ringCtlWrite (a0 : Nat) (a1 : Nat) (a2 : Nat) : Statement (.ringCtlWrite a0 a1 a2) :=
  .inl ⟨rfl, rfl⟩
theorem Sys2Proof.Laws.Sized.softSet (a0 : Nat) (a1 : Nat) : Statement (.softSet a0 a1) :=
  .inl ⟨rfl, rfl⟩
theorem Sys2Proof.Laws.Sized.softClr (a0 : Nat) (a1 : Nat) : Statement (.softClr a0 a1) :=
  .inl ⟨rfl, rfl⟩
theorem Sys2Proof.Laws.Sized.govCtlWrite (a0 : Nat) (a1 : Nat) : Statement (.govCtlWrite a0 a1) :=
  .inl ⟨rfl, rfl⟩
theorem Sys2Proof.Laws.Sized.boostMaxWrite (a0 : Nat) (a1 : Nat) : Statement (.boostMaxWrite a0 a1) :=
  .inl ⟨rfl, rfl⟩
theorem Sys2Proof.Laws.Sized.controlRegisterWrite (a0 : Nat) (a1 : Nat) (a2 : Nat) : Statement (.controlRegisterWrite a0 a1 a2) :=
  .inl ⟨rfl, rfl⟩
theorem Sys2Proof.Laws.Sized.silentEviction (a0 : Nat) (a1 : Nat) : Statement (.silentEviction a0 a1) :=
  .inl ⟨rfl, rfl⟩
theorem Sys2Proof.Laws.Sized.timecmpReached (a0 : Nat) : Statement (.timecmpReached a0) :=
  .inl ⟨rfl, rfl⟩
theorem Sys2Proof.Laws.Sized.ethernetLinkChange (a0 : Nat) (a1 : Nat) (a2 : Bool) : Statement (.ethernetLinkChange a0 a1 a2) :=
  .inl ⟨rfl, rfl⟩
theorem Sys2Proof.Laws.Sized.ucieFlitRetry (a0 : Nat) (a1 : Nat) : Statement (.ucieFlitRetry a0 a1) :=
  .inl ⟨rfl, rfl⟩
end

