-- ==== Sys2Proof/Tests/Slice0.lean ====
section
/-!
SUPPORT. Small checks of the model, with results taken from the spec: ill-formed terms that are refused, words of every encoded
constructor, single steps of small states, and for each claim states and operands that meet its hypotheses.
-/

namespace Sys2Proof.Tests

open Sys2Proof Sys2Proof.Machine

set_option maxRecDepth 100000
set_option exponentiation.threshold 600

/-! ### Small states -/

/-- The state a next outcome holds. -/
def nx (o : Host.Outcome State Fault Refusal) : State := match o with | .next s => s | _ => State.reset

/-- The state an instruction answers. -/
def did (i : Instr) (s : State) : State := nx (exec i s)

/-- The boot thread with values in x6, x7 and x8. -/
def tL (a b c : Word) : Thread := { bootThread with x := ((bootThread.x.set 6 a).set 7 b).set 8 c }

/-- The machine at reset with one thread instead of the boot thread. -/
def onL (t : Thread) : State := { State.reset with threads := [(1, t)] }

/-- The boot thread with values in f6, f7 and f8. -/
def tF (a b c : Word) : Thread := { bootThread with f := ((bootThread.f.set 6 a).set 7 b).set 8 c }

/-- A thread of workgroup 1 on lane 0 of the S-core with CORE_ID 0 on DIE_ID 2, in user mode. -/
def tS (a b c : Word) : Thread := { tL a b c with mode := false, place := .slot 128 0 0 0, wg := 1, tid := 77 }

/-- That workgroup: four threads, one page of scratchpad, four tiles, four named barriers. -/
def g1 : WG := { WG.init with core := 128, die := 2, size := 4, spPages := 1, grant := 4, hbarN := 4, slots := [(0, 0)], st := .run }

/-- A state with one thread of that workgroup. -/
def onS (t : Thread) (g : WG) : State := { State.reset with threads := [(1, t)], wgs := [(1, g)] }

/-- Whether a thread executes, as `Runs` says it. -/
def runs (s : State) (t : Thread) (g : BitVec 4) (rs rd : List Dest) : Bool :=
  decide (tget s.threads s.cur = some t) && rs.all t.inBudget && t.guard g && !t.hazard rd

theorem runs_of {s : State} {t : Thread} {g : BitVec 4} {rs rd : List Dest} (h : runs s t g rs rd = true) : Runs s t g rs rd := by
  simp only [runs, Bool.and_eq_true, decide_eq_true_eq, Bool.not_eq_true'] at h
  exact ⟨h.1.1.1, h.1.1.2, h.1.2, h.2⟩

/-- x5 after an instruction of the boot thread with values in x6 and x7. -/
def x5 (i : Instr) (a b : Word) : Word := (did i (onL (tL a b 0))).me.getX 5

/-- f5 and FFLAGS after an instruction of the boot thread with values in f6, f7 and f8. -/
def f5 (i : Instr) (a b c : Word) : Word × BitVec 5 :=
  let t := (did i (onL (tF a b c))).me
  (t.getF 5, t.fflags)

/-- Whether a word decodes to an instruction. -/
def reads (c : Nat × Instr) : Bool := match decode false c.1 with | .ok i => decide (i = c.2) | _ => false

/-- Whether a word is refused with a cause, first at an address that is a multiple of 8. -/
def refuses (odd : Bool) (w : Nat) (code : Nat) : Bool := match decode odd w with | .ill e => illCause e == code | _ => false


theorem pair_of {α β : Type} {p : α × β} {b : β} (h : p.2 = b) : p = (p.1, b) := by cases p; cases h; rfl

/-- Where no package has a descriptor, every address is its own. -/
theorem fwd_none (s : State) (a : Nat) (h : ∀ p, (s.pkg p).descs = []) : s.fwd a = a := by
  simp only [State.fwd, State.fwdOne, h, List.find?_nil]
  exact List.foldl_fixed _

/-! ### Ill-formed terms -/

/-- 02 R39, R46; 03 R67, R70, R71; 05 R117, R122; 06 R136; 07 R157; 11 R241, R242: one term for each check, refused. -/
theorem test_ill_formed_terms :
    [Instr.add 15 5 6 7,
     .ldX .d64 7 5 6 0 .rel .die 0 0, .stX .b64 7 5 6 0 .acq .die 0 0, .ldX .d64 7 5 6 0 .plain .die 0 0, .red .add true 7 6 7 0 .acqRel .die 0 0,
     .fadd .a8x8 7 5 6 7 .rne 0, .fdiv .f32x2 7 5 6 7 .rne 0 0, .frcp .f64 7 5 6 .rne 0 0, .fdot2 .f32 7 5 6 7 8 .rne 0, .fmvX .f16 7 5 6 0,
     .fcvt .f64 .f32x2 7 5 6 0 0 .rne 0, .fcvt .a8x8 .bf16x4 7 5 6 7 0 .rtz 0, .fcvt .f64 .f32 7 5 6 0 1 .rne 0,
     .fcvt .f32 .f64 7 5 6 1 0 .rne 0, .fcvt .f32x2 .a8x8 7 5 6 4 0 .rne 0].all (fun i => !i.wf) = true := by decide

theorem test_ill_formed_terms_2 :
    [Instr.pairWord 7 .add 5 6 7 0 .fmvX 5 6 0 0, .pairWord 7 (.cmp .eq) 8 6 7 0 .nop 0 0 0 0, .pairWord 7 .pand 1 8 2 0 .nop 0 0 0 0,
     .pairWord 7 .pnot 1 2 3 0 .nop 0 0 0 0, .pairWord 7 .nop 1 0 0 0 .nop 0 0 0 0, .pairWord 7 .nop 0 0 0 0 .faddS 5 6 7 8,
     .pairWord 7 .nop 0 0 0 0 .fabsS 5 6 7 0, .pairWord 7 .nop 0 0 0 0 .nop 5 0 0 0,
     .csrr 5 0x004, .csrw 6 0xC00, .csrs 6 0x809, .barExp true true 7 5 6 7 0 0, .barWait true 7 5 6 7 0 0, .cwFlush .die false 7 5 6 7 8 0 0,
     .pgColl 0 7 5 6 7 0 0, .tlbInv .all .die 7 5 6 0 0 0 0, .tlbInv .vag .die 7 5 6 7 0 0 0].all (fun i => !i.wf) = true := by decide

/-- 02 R49; 03 R58, R59, R61, R65, R70: causes of words that are no instruction: unassigned, reserved, ill-formed. -/
theorem test_refused_words :
    refuses false 0 0x03 = true ∧ refuses true 0xFFFFFFFF 0x03 = true ∧ refuses false 0xFC000382 0x03 = true ∧
    refuses false 0x60000382 0x02 = true ∧ refuses false (0x00E62B85 + 2 ^ 32 * (0x44 * 128)) 0x02 = true ∧
    refuses false 0x00E62F82 0x02 = true ∧ refuses true 0x00E62B85 0x04 = true ∧ refuses false 0x00E64386 0x04 = true ∧
    refuses false 0x0C062B8D 0x04 = true := by decide


/-- Encodings the spec works out or prints as examples. -/
theorem test_decode_worked_1 :
    [(0xE62D02, .add 10 5 6 7),
     (0x7F12428A, .lih 5 0x7F124),
     (0x1F505288, .addi 5 5 (-88)),
     (0x114C0B86, .cmp .lo 7 1 12 10),
     (0x1000E62B85, .addX 7 5 6 7 1),
     (0x400E62B83, .div 7 5 6 7 4 0),
     (0x164028000062B83, .bfextN 7 5 6 8 11 0),
     (0x200004000205387, .liZ 7 10 0x02000040),
     (0x8000004A5387, .liHi 7 10 10 0x8000),
     (0x1403032C062B8D, .ldX .d64 7 5 6 40 .acq .die 3 0),
     (0x2880000E62B97, .tlbInv .va .sys 7 5 6 7 0 0 0),
     (0x48020E62B97, .pgSplit 7 5 6 7 8 0 0),
     (0x18001E, .wcnt .copy 3),
     (0x18120296, .csrr 5 0xC09),
     (0x2006001E, .fence .die),
     (0x400A001E, .fenceSc .sys),
     (0xFC62BA8, .ld .s32 7 5 6 (-2) 0),
     (0x50802C0A2B8D, .cas true 7 5 10 0 0 .acq .die 0 0),
     (0x30630000E62B89, .fcvt .a8x8 .bf16x4 7 5 6 7 0 .rne 0),
     (0x20C8020E62B89, .fma .f32 7 5 6 7 8 .frm 0)].all reads = true := by decide

/-- Encodings the spec works out or prints as examples. -/
theorem test_decode_worked_2 :
    [(0x4E62B8B, .lxch false 7 5 6 7 1 0),
     (0xFFFFE18E, .br 3 (-4)),
     (0x80390, .call 7 0x100),
     (0x4000000002000387, .jmp 7 0x40000000),
     (0x4060392, .jr 7 6),
     (0x8060B92, .callr 7 1 6),
     (0xC000392, .ret 7),
     (0x10000392, .loopx 7),
     (0x67014, .loop 7 3),
     (0x392, .nop 7),
     (0x8004E62B95, .mclaim 7 5 6 7 1 0 0),
     (0x2805B172B95, .mloadT false 7 5 23 24 22 0 0),
     (0x80000092B95, .mmul .bf16 7 5 9 0 0),
     (0xE62B9A, .spawn 7 5 6 7),
     (0x4062B9A, .migrate 7 5 6),
     (0x800039A, .yield 7),
     (0xC00039A, .exit 7),
     (0x10062B9A, .doneWait 7 5 6),
     (0x14062B9A, .cancel 7 5 6),
     (0x2006039A, .hbArr 7 6)].all reads = true := by decide

/-- Encodings the spec works out or prints as examples. -/
theorem test_decode_worked_3 :
    [(0x2406039A, .hbWait 7 6),
     (0x2806039A, .hbSync 7 6),
     (0xE62B9C, .rinv 7 5 6 7),
     (0x4062B9C, .mkwait 7 5 6),
     (0x8E62B9C, .mkget 7 5 6 7),
     (0xCE62B9C, .mkgetT 7 5 6 7),
     (0x10060B9C, .mktest 7 1 6),
     (0x1400039C, .mkret 7),
     (0x1806039C, .mkdrop 7 6),
     (0x398, .sys 7),
     (0x4000398, .tret 7),
     (0x8000398, .brk 7),
     (0xC000398, .wfi 7),
     (0x30006016, .csrw 6 0x800),
     (0x40047016, .csrs 7 0x002),
     (0x60047016, .csrc 7 0x002),
     (0x2328C, .lpc 5 0x23),
     (0x1EE05288, .addi 5 5 (-144))].all reads = true := by decide

/-- Words put together from the layouts of 02 R35 to R38 and the tables of 03 R60 to R72. -/
theorem test_decode_integer_1 :
    [(0xE62D02, .add 10 5 6 7),
     (0x4E62D02, .sub 10 5 6 7),
     (0x8E62D02, .and 10 5 6 7),
     (0xCE62D02, .or 10 5 6 7),
     (0x10E62D02, .xor 10 5 6 7),
     (0x14E62D02, .andn 10 5 6 7),
     (0x18E62D02, .orn 10 5 6 7),
     (0x1CE62D02, .xnor 10 5 6 7),
     (0x20E62D02, .sll 10 5 6 7),
     (0x24E62D02, .srl 10 5 6 7),
     (0x28E62D02, .sra 10 5 6 7),
     (0x2CE62D02, .rol 10 5 6 7),
     (0x30E62D02, .ror 10 5 6 7),
     (0x34E62D02, .min 10 5 6 7),
     (0x38E62D02, .max 10 5 6 7),
     (0x3CE62D02, .minn 10 5 6 7),
     (0x40E62D02, .maxn 10 5 6 7),
     (0x50E62D02, .lea 0 10 5 6 7),
     (0x54E62D02, .lea 1 10 5 6 7),
     (0x58E62D02, .lea 2 10 5 6 7),
     (0x5CE62D02, .lea 3 10 5 6 7),
     (0xE62D04, .mul 10 5 6 7),
     (0x4E62D04, .mulh 10 5 6 7),
     (0x8E62D04, .mulhn 10 5 6 7)].all reads = true := by decide

/-- Words put together from the layouts of 02 R35 to R38 and the tables of 03 R60 to R72. -/
theorem test_decode_integer_2 :
    [(0x20062D04, .clz 10 5 6),
     (0x24062D04, .ctz 10 5 6),
     (0x28062D04, .popc 10 5 6),
     (0x2C062D04, .brev 10 5 6),
     (0x30062D04, .bswap 10 5 6)].all reads = true := by decide

/-- Words put together from the layouts of 02 R35 to R38 and the tables of 03 R60 to R72. -/
theorem test_decode_predicate :
    [(0xE61D06, .cmp .eq 10 3 6 7),
     (0x4E61D06, .cmp .ne 10 3 6 7),
     (0x8E61D06, .cmp .lt 10 3 6 7),
     (0xCE61D06, .cmp .ge 10 3 6 7),
     (0x10E61D06, .cmp .lo 10 3 6 7),
     (0x14E61D06, .cmp .hs 10 3 6 7),
     (0x20E62D06, .sel 10 5 6 7 0),
     (0x34E62D06, .sel 10 5 6 7 5),
     (0x3CE62D06, .sel 10 5 6 7 7),
     (0x40C41D06, .pand 10 3 4 6),
     (0x44C41D06, .por 10 3 4 6),
     (0x48C41D06, .pxor 10 3 4 6),
     (0x4C041D06, .pnot 10 3 4),
     (0x50002D06, .pget 10 5),
     (0x54060506, .pset 10 6)].all reads = true := by decide

/-- Words put together from the layouts of 02 R35 to R38 and the tables of 03 R60 to R72. -/
theorem test_decode_integer_x :
    [(0x5000E62D05, .addX 10 5 6 7 5),
     (0xD000E62D05, .subX 10 5 6 7 5),
     (0x15000E62D05, .andX 10 5 6 7 5),
     (0x1D000E62D05, .orX 10 5 6 7 5),
     (0x25000E62D05, .xorX 10 5 6 7 5),
     (0x2D000E62D05, .andnX 10 5 6 7 5),
     (0x35000E62D05, .ornX 10 5 6 7 5),
     (0x3D000E62D05, .xnorX 10 5 6 7 5),
     (0x45000E62D05, .sllX 10 5 6 7 5),
     (0x4D000E62D05, .srlX 10 5 6 7 5),
     (0x55000E62D05, .sraX 10 5 6 7 5),
     (0x5D000E62D05, .rolX 10 5 6 7 5),
     (0x65000E62D05, .rorX 10 5 6 7 5),
     (0x6D000E62D05, .minX 10 5 6 7 5),
     (0x75000E62D05, .maxX 10 5 6 7 5),
     (0x7D000E62D05, .minnX 10 5 6 7 5),
     (0x85000E62D05, .maxnX 10 5 6 7 5),
     (0xA5000E62D05, .leaX 0 10 5 6 7 5),
     (0xBD000E62D05, .leaX 3 10 5 6 7 5)].all reads = true := by decide

/-- Words put together from the layouts of 02 R35 to R38 and the tables of 03 R60 to R72. -/
theorem test_decode_predicate_x :
    [(0x205000E62D05, .mulX 10 5 6 7 5),
     (0x20D000E62D05, .mulhX 10 5 6 7 5),
     (0x215000E62D05, .mulhnX 10 5 6 7 5),
     (0x245000062D05, .clzX 10 5 6 5),
     (0x24D000062D05, .ctzX 10 5 6 5),
     (0x255000062D05, .popcX 10 5 6 5),
     (0x25D000062D05, .brevX 10 5 6 5),
     (0x265000062D05, .bswapX 10 5 6 5),
     (0x405000E61D05, .cmpX .eq 10 3 6 7 5),
     (0x40D000E61D05, .cmpX .ne 10 3 6 7 5),
     (0x415000E61D05, .cmpX .lt 10 3 6 7 5),
     (0x41D000E61D05, .cmpX .ge 10 3 6 7 5),
     (0x425000E61D05, .cmpX .lo 10 3 6 7 5),
     (0x42D000E61D05, .cmpX .hs 10 3 6 7 5),
     (0x475000E62D05, .selX 10 5 6 7 6 5),
     (0x485000C41D05, .pandX 10 3 4 6 5),
     (0x48D000C41D05, .porX 10 3 4 6 5),
     (0x495000C41D05, .pxorX 10 3 4 6 5),
     (0x49D000041D05, .pnotX 10 3 4 5),
     (0x4A5000002D05, .pgetX 10 5 5),
     (0x4AD000060505, .psetX 10 6 5)].all reads = true := by decide

/-- Words put together from the layouts of 02 R35 to R38 and the tables of 03 R60 to R72. -/
theorem test_decode_immediate :
    [(0x1F506288, .addi 5 6 (-88)),
     (0x3F506288, .andi 5 6 (-88)),
     (0x5F506288, .ori 5 6 (-88)),
     (0x7F506288, .xori 5 6 (-88)),
     (0x807E6288, .slli 5 6 63),
     (0xA07E6288, .srli 5 6 63),
     (0xC07E6288, .srai 5 6 63),
     (0x7F12428A, .lih 5 0x7F124),
     (0xFFFFE28C, .lpc 5 (-2)),
     (0xFFFFFFFD00002D07, .li 10 5 (-3)),
     (0x8200004000202D07, .liZ 10 5 0x82000040),
     (0x800000462D07, .liHi 10 5 6 0x8000),
     (0x2400E62D03, .div 10 5 6 7 4 2),
     (0xA400E62D03, .divn 10 5 6 7 4 2),
     (0x12400E62D03, .rem 10 5 6 7 4 2),
     (0x1A400E62D03, .remn 10 5 6 7 4 2),
     (0x164021000062D03, .bfext 10 5 6 8 11 1),
     (0x164029000062D03, .bfextN 10 5 6 8 11 1),
     (0x164031000062D03, .bfins 10 5 6 8 11 1)].all reads = true := by decide

/-- Words put together from the layouts of 02 R35 to R38 and the tables of 03 R60 to R72. -/
theorem test_decode_loads :
    [(0x3FC62D20, .ld .s8 10 5 6 (-2) 3),
     (0x3FC62D22, .ld .z8 10 5 6 (-2) 3),
     (0x3FC62D24, .ld .s16 10 5 6 (-2) 3),
     (0x3FC62D26, .ld .z16 10 5 6 (-2) 3),
     (0x3FC62D28, .ld .s32 10 5 6 (-2) 3),
     (0x3FC62D2A, .ld .z32 10 5 6 (-2) 3),
     (0x3FC62D2C, .ld .d64 10 5 6 (-2) 3),
     (0xFC62D30, .st .b8 10 5 6 (-2) 0),
     (0xFC62D32, .st .b16 10 5 6 (-2) 0),
     (0xFC62D34, .st .b32 10 5 6 (-2) 0),
     (0xFC62D36, .st .b64 10 5 6 (-2) 0),
     (0x3FC62D2E, .ldfF32 10 5 6 (-2) 3),
     (0x3FC62D38, .ldf64 10 5 6 (-2) 3),
     (0x3FC62D3A, .stfF32 10 5 6 (-2) 3),
     (0x3FC62D3C, .stf64 10 5 6 (-2) 3),
     (0x3FC62D40, .lds .s8 10 5 6 (-2) 3),
     (0x3FC62D46, .lds .z16 10 5 6 (-2) 3),
     (0x3FC62D4C, .lds .d64 10 5 6 (-2) 3),
     (0x3FC62D50, .sts .b8 10 5 6 (-2) 3),
     (0x3FC62D56, .sts .b64 10 5 6 (-2) 3)].all reads = true := by decide

/-- Words put together from the layouts of 02 R35 to R38 and the tables of 03 R60 to R72. -/
theorem test_decode_memory_x :
    [(0xFFEC02132C062D0D, .ldX .s32 10 5 6 (-40) .acq .die 3 1),
     (0xFFEC099354062D0D, .stX .b64 10 5 6 (-40) .rel .sys 3 1),
     (0xFFEC101300062D0D, .ldfX false 10 5 6 (-40) .plain .thread 3 1),
     (0xFFEC109328062D0D, .ldfX true 10 5 6 (-40) .acq .cl 3 1),
     (0xFFEC111350062D0D, .stfX false 10 5 6 (-40) .rel .pkg 3 1),
     (0xFFEC119350062D0D, .stfX true 10 5 6 (-40) .rel .pkg 3 1),
     (0xFFEC1B1324062D0D, .ldsX .d64 10 5 6 (-40) .acq .wg 3 1),
     (0xFFEC211300062D0D, .stsX .b32 10 5 6 (-40) .plain .thread 3 1),
     (0xFFEC289300E62D0D, .ldx .z8 10 5 6 7 (-40) .plain .thread 3 1),
     (0xFFEC309300E62D0D, .stx .b16 10 5 6 7 (-40) .plain .thread 3 1),
     (0xFFEC3A932C062D0D, .ldnc .z32 10 5 6 (-40) .acq .die 3 1),
     (0xFFEC40136CE62D0D, .amo .add true 10 5 6 7 (-40) .acqRel .die 3 1),
     (0xFFEC48936CE62D0D, .amo .and false 10 5 6 7 (-40) .acqRel .die 3 1),
     (0xFFEC41136CE62D0D, .amo .or true 10 5 6 7 (-40) .acqRel .die 3 1),
     (0xFFEC49936CE62D0D, .amo .xor false 10 5 6 7 (-40) .acqRel .die 3 1),
     (0xFFEC42136CE62D0D, .amo .min true 10 5 6 7 (-40) .acqRel .die 3 1),
     (0xFFEC4A936CE62D0D, .amo .max false 10 5 6 7 (-40) .acqRel .die 3 1),
     (0xFFEC43136CE62D0D, .amo .minn true 10 5 6 7 (-40) .acqRel .die 3 1),
     (0xFFEC4B936CE62D0D, .amo .maxn false 10 5 6 7 (-40) .acqRel .die 3 1),
     (0xFFEC44136CE62D0D, .amo .swap true 10 5 6 7 (-40) .acqRel .die 3 1)].all reads = true := by decide

/-- Words put together from the layouts of 02 R35 to R38 and the tables of 03 R60 to R72. -/
theorem test_decode_atomics :
    [(0xFFEC501308E62D0D, .cas false 10 5 6 7 (-40) .plain .cl 3 1),
     (0xFFEC509308E62D0D, .cas true 10 5 6 7 (-40) .plain .cl 3 1),
     (0xFFEC58134CE6050D, .red .add true 10 6 7 (-40) .rel .die 3 1),
     (0xFFEC60934CE6050D, .red .and false 10 6 7 (-40) .rel .die 3 1),
     (0xFFEC59134CE6050D, .red .or true 10 6 7 (-40) .rel .die 3 1),
     (0xFFEC61934CE6050D, .red .xor false 10 6 7 (-40) .rel .die 3 1),
     (0xFFEC5A134CE6050D, .red .min true 10 6 7 (-40) .rel .die 3 1),
     (0xFFEC62934CE6050D, .red .max false 10 6 7 (-40) .rel .die 3 1),
     (0xFFEC5B134CE6050D, .red .fadd true 10 6 7 (-40) .rel .die 3 1),
     (0xFFEC68130006050D, .pfc 10 6 (-40) 3 1),
     (0xFFEC68932CE62D0D, .wmon 10 5 6 7 (-40) .acq .die 3 1),
     (0x2006001E, .fence .die),
     (0x400A001E, .fenceSc .sys)].all reads = true := by decide

/-- Words put together from the layouts of 02 R35 to R38 and the tables of 03 R60 to R72. -/
theorem test_decode_float :
    [(0x1001000E62D09, .fadd .f64 10 5 6 7 .rup 1),
     (0x1049000E62D09, .fsub .f32 10 5 6 7 .rup 1),
     (0x1091000E62D09, .fmul .f32x2 10 5 6 7 .rup 1),
     (0x20D9020E62D09, .fma .bf16x4 10 5 6 7 8 .frm 1),
     (0x2121020E62D09, .fms .f16x4 10 5 6 7 8 .frm 1),
     (0x2169020E62D09, .fnma .f16 10 5 6 7 8 .frm 1),
     (0x981900E62D09, .fdiv .f64 10 5 6 7 .rtz 9 1),
     (0x19E9900062D09, .fsqrt .f16 10 5 6 .rdn 9 1),
     (0xA09900062D09, .frcp .f32 10 5 6 .rtz 9 1),
     (0xA51900062D09, .frsqrt .f32x2 10 5 6 .rtz 9 1),
     (0x299000E62D09, .fmin .bf16x4 10 5 6 7 1),
     (0x2E1000E62D09, .fmax .f16x4 10 5 6 7 1),
     (0x301000062D09, .fabs .f64 10 5 6 1),
     (0x349000062D09, .fneg .f32 10 5 6 1),
     (0x391000E62D09, .fcpsgn .f32x2 10 5 6 7 1)].all reads = true := by decide

/-- Words put together from the layouts of 02 R35 to R38 and the tables of 03 R60 to R72. -/
theorem test_decode_float_more :
    [(0x3C9000E61D09, .fcmp .eq .f32 10 3 6 7 1),
     (0x103C9000E61D09, .fcmp .ne .f32 10 3 6 7 1),
     (0x203C9000E61D09, .fcmp .lt .f32 10 3 6 7 1),
     (0x303C9000E61D09, .fcmp .le .f32 10 3 6 7 1),
     (0x403C9000E61D09, .fcmp .un .f32 10 3 6 7 1),
     (0x429000062D09, .fclass .f16 10 5 6 1),
     (0x1C41000062D09, .fround .f64 10 5 6 .rdn 1),
     (0x489900062D09, .fexp2 .f32 10 5 6 9 1),
     (0x4D1900062D09, .flog2 .f32x2 10 5 6 9 1),
     (0x509900062D09, .fsinp .f32 10 5 6 9 1),
     (0x551900062D09, .fcosp .f32x2 10 5 6 9 1),
     (0x2589900062D09, .frdx .f32 10 5 6 .frm 9 1),
     (0x15E1020E62D09, .fdot2 .f16x4 10 5 6 7 8 .rup 1),
     (0x28E19000E62D09, .fcvt .bf16x4 .f32x2 10 5 6 7 2 .rtz 1),
     (0x60611000662D09, .fcvt .f32x2 .a8x8 10 5 6 3 0 .rne 1),
     (0x10E41000062D09, .fcvtX .f64 true 10 5 6 .rtz 1),
     (0xE89000062D09, .xcvtF .f32 false 10 5 6 .rtz 1),
     (0x6C1000062D09, .fmvX .f64 10 5 6 1),
     (0x709000062D09, .fmvF .f32 10 5 6 1)].all reads = true := by decide

/-- Words put together from the layouts of 02 R35 to R38 and the tables of 03 R60 to R72. -/
theorem test_decode_lane_and_pair :
    [(0x4008E62D0B, .lxch false 10 5 6 7 2 4),
     (0xC008E62D0B, .lxch true 10 5 6 7 2 4),
     (0x84008E62D0B, .lsel false 10 5 6 7 2 4),
     (0x8C008E62D0B, .lsel true 10 5 6 7 2 4),
     (0x104008E32D0B, .lvote 10 5 3 7 2 4),
     (0x184008E62D0B, .lred .add 10 5 6 7 2 4),
     (0x18C008E62D0B, .lred .min 10 5 6 7 2 4),
     (0x194008E62D0B, .lred .max 10 5 6 7 2 4),
     (0x19C008E62D0B, .lred .minn 10 5 6 7 2 4),
     (0x1A4008E62D0B, .lred .maxn 10 5 6 7 2 4),
     (0x1AC008E62D0B, .lred .and 10 5 6 7 2 4),
     (0x1B4008E62D0B, .lred .or 10 5 6 7 2 4),
     (0x1BC008E62D0B, .lred .xor 10 5 6 7 2 4),
     (0x1C4008E62D0B, .lred .fadd 10 5 6 7 2 4),
     (0x1CC008E62D0B, .lred .fmin 10 5 6 7 2 4),
     (0x1D4008E62D0B, .lred .fmax 10 5 6 7 2 4),
     (0x316A4882398A0D11, .pairWord 10 .add 5 6 7 2 .fmaS 9 10 11 12),
     (0xA4A013986A511, .pairWord 10 (.cmp .lo) 3 6 7 1 .fmvX 9 10 0 0),
     (0x316A4A60398AE511, .pairWord 10 .mul 5 6 7 0 .fmaP 9 10 11 12),
     (0x106DD11, .pairWord 10 .pnot 3 4 0 0 .nop 0 0 0 0)].all reads = true := by decide

/-- Words put together from the layouts of 02 R35 to R38 and the tables of 03 R60 to R72. -/
theorem test_decode_control :
    [(0xFFFFE50E, .br 10 (-4)),
     (0x80510, .call 10 0x100),
     (0x4000000002000507, .jmp 10 0x40000000),
     (0xFFFFFFFB02200507, .callL 10 (-5)),
     (0x512, .nop 10),
     (0x4060512, .jr 10 6),
     (0x8060D12, .callr 10 1 6),
     (0xC000512, .ret 10),
     (0x10000512, .loopx 10),
     (0x67014, .loop 7 3),
     (0x518, .sys 10),
     (0x4000518, .tret 10),
     (0x8000518, .brk 10),
     (0xC000518, .wfi 10),
     (0x18120296, .csrr 5 0xC09),
     (0x20046016, .csrw 6 0x002),
     (0x40046016, .csrs 6 0x002),
     (0x60046016, .csrc 6 0x002)].all reads = true := by decide

/-- Words put together from the layouts of 02 R35 to R38 and the tables of 03 R60 to R72. -/
theorem test_decode_threads_and_marks :
    [(0xE62D1A, .spawn 10 5 6 7),
     (0x4062D1A, .migrate 10 5 6),
     (0x800051A, .yield 10),
     (0xC00051A, .exit 10),
     (0x10062D1A, .doneWait 10 5 6),
     (0x14062D1A, .cancel 10 5 6),
     (0x2006051A, .hbArr 10 6),
     (0x2406051A, .hbWait 10 6),
     (0x2806051A, .hbSync 10 6),
     (0xE62D1C, .rinv 10 5 6 7),
     (0x4062D1C, .mkwait 10 5 6),
     (0x8E62D1C, .mkget 10 5 6 7),
     (0xCE62D1C, .mkgetT 10 5 6 7),
     (0x10061D1C, .mktest 10 3 6),
     (0x1400051C, .mkret 10),
     (0x1806051C, .mkdrop 10 6)].all reads = true := by decide

/-- Words put together from the layouts of 02 R35 to R38 and the tables of 03 R60 to R72. -/
theorem test_decode_copies_and_barriers :
    [(0x48001220E62D13, .cpyIn 10 5 6 7 8 9 2 1),
     (0x4A809220E62D13, .cpyMc 10 5 6 7 8 5 9 2 1),
     (0x4811220E62D13, .cpyGat 10 5 6 7 8 9 2 1),
     (0x48059220E62D13, .cpyOut .die 10 5 6 7 8 9 2 1),
     (0x48A9220E62D13, .cpySct .sys 10 5 6 7 8 9 2 1),
     (0x101220E62D13, .barInit 10 5 6 7 8 2 1),
     (0x109200062D13, .barArr 10 5 6 2 1),
     (0x911200E62D13, .barExp true false 10 5 6 7 2 1),
     (0x1111200E62D13, .barExp false true 10 5 6 7 2 1),
     (0x119200E62D13, .barWait false 10 5 6 7 2 1),
     (0x919200062D13, .barWait true 10 5 6 0 2 1),
     (0x121200E62D13, .barTest false 10 5 6 7 2 1),
     (0x129200062D13, .barInval 10 5 6 2 1),
     (0x1F8001E, .wcnt .copy 63),
     (0x1FA001E, .wcnt .matrix 63),
     (0x1FC001E, .wcnt .walker 63),
     (0x1FE001E, .wcnt .remote 63)].all reads = true := by decide

/-- Words put together from the layouts of 02 R35 to R38 and the tables of 03 R60 to R72. -/
theorem test_decode_matrix :
    [(0x4801200002D15, .mcfg 10 5 1 2 2 1),
     (0x920CE62D15, .mclaim 10 5 6 7 3 2 1),
     (0x1120CE62D15, .mclaimW 10 5 6 7 3 2 1),
     (0x19200E62D15, .mrel 10 5 6 7 2 1),
     (0x821220E62D15, .mload true 10 5 6 7 8 2 1),
     (0x29220E62D15, .mloadT false 10 5 6 7 8 2 1),
     (0x831200E62D15, .mgath true 10 5 6 7 2 1),
     (0x81200062D15, .mmul .bf16 10 5 6 2 1),
     (0x89200062D15, .mmul .f16 10 5 6 2 1),
     (0x91200062D15, .mmul .a8 10 5 6 2 1),
     (0x99200062D15, .mmul .i8 10 5 6 2 1),
     (0x8A1220E62D15, .msacc true false 10 5 6 7 8 2 1),
     (0x10A1220E62D15, .msacc false true 10 5 6 7 8 2 1),
     (0xC88C1200E62D15, .mstore 1 2 4 true 10 5 6 7 2 1),
     (0xC9200E62D15, .mzero 10 5 6 7 2 1),
     (0xD1200062D15, .mstat 10 5 6 2 1),
     (0xD9200E62D15, .macld 10 5 6 7 2 1)].all reads = true := by decide

/-- Words put together from the layouts of 02 R35 to R38 and the tables of 03 R60 to R72. -/
theorem test_decode_walkers :
    [(0x1801220062D17, .cwFlush .die false 10 5 6 0 8 2 1),
     (0x6009220E62D17, .cwInval .pkg true 10 5 6 7 8 2 1),
     (0x41220E62D17, .pgMig 10 5 6 7 8 2 1),
     (0x841200062D17, .pgMigRel 10 5 6 2 1),
     (0x49220E62D17, .pgSplit 10 5 6 7 8 2 1),
     (0x1051200E62D17, .pgColl 2 10 5 6 7 2 1),
     (0x6881220E62D17, .tlbInv .rng .sys 10 5 6 7 8 2 1),
     (0xE081200002D17, .tlbInv .all .pkg 10 5 0 0 0 2 1)].all reads = true := by decide


/-! ### The first instruction after reset -/

/-- The parcel of `nop` is read from the table's word, stored where the next fetch is, and run. -/
theorem test_first_step :
    decodeTableWord 32 0x00000392 = some (.nop 7) ∧ (nx (step (State.reset.withFetchWord 32 0x00000392))).me.pc = 4 ∧
    decodeTableWord 64 (0x00E62B83 + 2 ^ 32 * 4) = some (.div 7 5 6 7 4 0) ∧
    (nx (step (State.reset.withFetchWord 64 (0x00E62B83 + 2 ^ 32 * 4)))).me.pc = 8 := by decide

/-- `add x5, x6, x7` with its sum, and an erased word with its cause, through a whole step. -/
theorem test_step_runs :
    (nx (step ((onL (tL 40 2 0)).withFetchWord 32 0x00E62B82))).me.getX 5 = 42 ∧
    (nx (step (State.reset.withFetchWord 32 0xFFFFFFFF))).me.cause = ⟨0x03, 0, true⟩ := by decide

/-! ### Integer, address and predicate instructions, with the values chapter 08 works out -/

theorem test_add : x5 (.add 7 5 6 7) 0xFFFFFFFFFFFFFFF0 0x20 = 0x10 ∧ x5 (.addX 7 5 6 7 1) 1 2 = 3 := by decide
theorem test_sub : x5 (.sub 7 5 6 7) 1 2 = 0xFFFFFFFFFFFFFFFF ∧ x5 (.subX 7 5 6 7 1) 5 2 = 3 := by decide
theorem test_and_or_xor :
    x5 (.and 7 5 6 7) 0xC 0xA = 8 ∧ x5 (.or 7 5 6 7) 0xC 0xA = 0xE ∧ x5 (.xor 7 5 6 7) 0xC 0xA = 6 ∧ x5 (.andX 7 5 6 7 0) 0xC 0xA = 8 ∧
    x5 (.orX 7 5 6 7 0) 0xC 0xA = 0xE ∧ x5 (.xorX 7 5 6 7 0) 0xC 0xA = 6 := by decide
theorem test_andn_orn_xnor :
    x5 (.andn 7 5 6 7) 0xC 0xA = 4 ∧ x5 (.orn 7 5 6 7) 0xC 0xA = 0xFFFFFFFFFFFFFFFD ∧ x5 (.xnor 7 5 6 7) 0xC 0xA = 0xFFFFFFFFFFFFFFF9 ∧
    x5 (.andnX 7 5 6 7 0) 0xC 0xA = 4 ∧ x5 (.ornX 7 5 6 7 0) 0xC 0xA = 0xFFFFFFFFFFFFFFFD ∧
    x5 (.xnorX 7 5 6 7 0) 0xC 0xA = 0xFFFFFFFFFFFFFFF9 := by decide
theorem test_shifts :
    x5 (.sll 7 5 6 7) 1 67 = 8 ∧ x5 (.srl 7 5 6 7) 0x8000000000000000 63 = 1 ∧ x5 (.sra 7 5 6 7) 0x8000000000000000 63 = 0xFFFFFFFFFFFFFFFF ∧
    x5 (.rol 7 5 6 7) 0x8000000000000001 4 = 0x18 ∧ x5 (.ror 7 5 6 7) 0x11 4 = 0x1000000000000001 ∧ x5 (.ror 7 5 6 7) 5 64 = 5 := by decide
theorem test_shifts_x :
    x5 (.sllX 7 5 6 7 0) 1 67 = 8 ∧ x5 (.srlX 7 5 6 7 0) 0x8000000000000000 63 = 1 ∧
    x5 (.sraX 7 5 6 7 0) 0x8000000000000000 63 = 0xFFFFFFFFFFFFFFFF ∧ x5 (.rolX 7 5 6 7 0) 0x8000000000000001 4 = 0x18 ∧
    x5 (.rorX 7 5 6 7 0) 0x11 4 = 0x1000000000000001 := by decide
theorem test_min_max :
    x5 (.min 7 5 6 7) (-1) 1 = -1 ∧ x5 (.max 7 5 6 7) (-1) 1 = 1 ∧ x5 (.minn 7 5 6 7) (-1) 1 = 1 ∧ x5 (.maxn 7 5 6 7) (-1) 1 = -1 ∧
    x5 (.minX 7 5 6 7 0) (-1) 1 = -1 ∧ x5 (.maxX 7 5 6 7 0) (-1) 1 = 1 ∧ x5 (.minnX 7 5 6 7 0) (-1) 1 = 1 ∧
    x5 (.maxnX 7 5 6 7 0) (-1) 1 = -1 := by decide
theorem test_lea_mul :
    x5 (.lea 3 7 5 6 7) 0x1000 2 = 0x1010 ∧ x5 (.leaX 1 7 5 6 7 0) 0x1000 2 = 0x1004 ∧ x5 (.mul 7 5 6 7) (-1) 5 = -5 ∧
    x5 (.mulh 7 5 6 7) (-1) 5 = 0xFFFFFFFFFFFFFFFF ∧ x5 (.mulhn 7 5 6 7) (-1) 5 = 4 ∧ x5 (.mulX 7 5 6 7 0) (-1) 5 = -5 ∧
    x5 (.mulhX 7 5 6 7 0) (-1) 5 = 0xFFFFFFFFFFFFFFFF ∧ x5 (.mulhnX 7 5 6 7 0) (-1) 5 = 4 := by decide
theorem test_bits :
    x5 (.clz 7 5 6) 0 0 = 64 ∧ x5 (.clz 7 5 6) 1 0 = 63 ∧ x5 (.ctz 7 5 6) 0x8000000000000000 0 = 63 ∧ x5 (.popc 7 5 6) 0xF0F0 0 = 8 ∧
    x5 (.brev 7 5 6) 1 0 = 0x8000000000000000 ∧ x5 (.bswap 7 5 6) 0x0102030405060708 0 = 0x0807060504030201 := by decide
theorem test_bits_x :
    x5 (.clzX 7 5 6 0) 1 0 = 63 ∧ x5 (.ctzX 7 5 6 0) 0 0 = 64 ∧ x5 (.popcX 7 5 6 0) 0xF0F0 0 = 8 ∧
    x5 (.brevX 7 5 6 0) 1 0 = 0x8000000000000000 ∧ x5 (.bswapX 7 5 6 0) 0x0102030405060708 0 = 0x0807060504030201 := by decide
theorem test_div :
    x5 (.div 7 5 6 7 0 0) (-7) 2 = -3 ∧ x5 (.div 7 5 6 7 0 0) 0x8000000000000000 (-1) = 0x8000000000000000 ∧ x5 (.div 7 5 6 7 0 0) 5 0 = -1 ∧
    x5 (.divn 7 5 6 7 0 0) (-7) 2 = 0x7FFFFFFFFFFFFFFC ∧ x5 (.divn 7 5 6 7 0 0) 5 0 = 0xFFFFFFFFFFFFFFFF := by decide
theorem test_rem :
    x5 (.rem 7 5 6 7 0 0) (-7) 2 = -1 ∧ x5 (.rem 7 5 6 7 0 0) 7 (-2) = 1 ∧ x5 (.rem 7 5 6 7 0 0) 0x8000000000000000 (-1) = 0 ∧
    x5 (.rem 7 5 6 7 0 0) 5 0 = 5 ∧ x5 (.remn 7 5 6 7 0 0) 7 (-2) = 7 ∧ x5 (.remn 7 5 6 7 0 0) 5 0 = 5 := by decide
theorem test_bit_fields :
    x5 (.bfextN 7 5 6 8 11 0) 0xABCDE 0 = 0xABC ∧ x5 (.bfext 7 5 6 8 11 0) 0xABCDE 0 = 0xFFFFFFFFFFFFFABC ∧
    x5 (.bfextN 7 5 6 60 63 0) 0xF000000000000000 0 = 0xF ∧ (did (.bfins 7 6 7 4 7 0) (onL (tL 0xFFFF 0x12 0))).me.getX 6 = 0xF12F := by decide
theorem test_cmp :
    (did (.cmp .lo 7 1 6 7) (onL (tL 0x10 0xFFFFFFFFFFFFFFF0 0))).me.getP 1 = true ∧
    (did (.cmp .lt 7 1 6 7) (onL (tL 0x10 0xFFFFFFFFFFFFFFF0 0))).me.getP 1 = false ∧
    (did (.cmpX .hs 7 1 6 7 0) (onL (tL 3 3 0))).me.getP 1 = true ∧ (did (.cmpX .ne 7 7 6 7 0) (onL (tL 3 3 0))).me.getP 7 = true := by decide
/-- Predicates p1 and p2 as 1 and 0. -/
def tP (a : Word) : Thread := (tL a 9 0).setP 1 true
theorem test_predicates :
    (did (.pand 7 3 1 2) (onL (tP 0))).me.getP 3 = false ∧ (did (.por 7 3 1 2) (onL (tP 0))).me.getP 3 = true ∧
    (did (.pxor 7 3 1 7) (onL (tP 0))).me.getP 3 = false ∧ (did (.pnot 7 3 2) (onL (tP 0))).me.getP 3 = true ∧
    (did (.pget 7 5) (onL (tP 0))).me.getX 5 = 0x82 ∧ (did (.pset 7 6) (onL (tP 0x1))).me.p.toList = [true, false, false, false, false, false, false] ∧
    (did (.sel 7 5 6 7 1) (onL (tP 4))).me.getX 5 = 4 ∧ (did (.sel 7 5 6 7 2) (onL (tP 4))).me.getX 5 = 9 := by decide
theorem test_predicates_x :
    (did (.pandX 7 3 1 7 0) (onL (tP 0))).me.getP 3 = true ∧ (did (.porX 7 3 1 2 0) (onL (tP 0))).me.getP 3 = true ∧
    (did (.pxorX 7 3 1 2 0) (onL (tP 0))).me.getP 3 = true ∧ (did (.pnotX 7 3 7 0) (onL (tP 0))).me.getP 3 = false ∧
    (did (.pgetX 7 5 0) (onL (tP 0))).me.getX 5 = 0x82 ∧ (did (.psetX 7 6 0) (onL (tP 0x4))).me.getP 2 = true ∧
    (did (.selX 7 5 6 7 2 0) (onL (tP 4))).me.getX 5 = 9 := by decide
theorem test_immediates :
    x5 (.addi 5 6 (-88)) 0x7F124000 0 = 0x7F123FA8 ∧ x5 (.andi 5 6 (-1)) 0xF0F 0 = 0xF0F ∧ x5 (.ori 5 6 0x7FF) 0x800 0 = 0xFFF ∧
    x5 (.xori 5 6 (-1)) 5 0 = 0xFFFFFFFFFFFFFFFA ∧ x5 (.slli 5 6 63) 3 0 = 0x8000000000000000 ∧ x5 (.srli 5 6 63) (-1) 0 = 1 ∧
    x5 (.srai 5 6 63) 0x8000000000000000 0 = -1 := by decide
theorem test_constants :
    x5 (.lih 5 0x7F124) 0 0 = 0x7F124000 ∧ x5 (.lih 5 0x80000) 0 0 = 0xFFFFFFFF80000000 ∧
    (did (.lpc 5 0x23) (onL { tL 0 0 0 with pc := 0x100 })).me.getX 5 = 0x23100 ∧ x5 (.li 7 5 0x80000000) 0 0 = 0xFFFFFFFF80000000 ∧
    x5 (.liZ 7 5 0x80000000) 0 0 = 0x80000000 ∧ x5 (.liHi 7 5 6 0x8000) 0xFFFFFFFF02000040 0 = 0x0000800002000040 := by decide


/-! ### Loads, stores and atomics -/

/-- The boot thread with values in x6 and x7, over memory with eight bytes at 0x1000. -/
def sM (a b : Word) : State := { onL (tL a b 0) with mem := Store.writeN [] 0x1000 8 0x8877665544332281 }

theorem test_loads :
    (did (.ld .s8 7 5 6 (-8) 0) (sM 0x1008 0)).me.getX 5 = 0xFFFFFFFFFFFFFF81 ∧ (did (.ld .z8 7 5 6 0 0) (sM 0x1000 0)).me.getX 5 = 0x81 ∧
    (did (.ldX .s16 7 5 6 6 .plain .thread 0 0) (sM 0x1000 0)).me.getX 5 = 0xFFFFFFFFFFFF8877 ∧
    (did (.ldnc .z16 7 5 6 0 .plain .thread 0 0) (sM 0x1000 0)).me.getX 5 = 0x2281 ∧
    (did (.ldx .s32 7 5 6 7 0 .plain .thread 0 0) (sM 0x1000 1)).me.getX 5 = 0xFFFFFFFF88776655 ∧
    (did (.ld .z32 7 5 6 (-2) 0) (sM 0x1008 0)).me.getX 5 = 0x44332281 ∧ (did (.ld .d64 7 5 6 0 0) (sM 0x1000 0)).me.getX 5 = 0x8877665544332281 := by
  decide
theorem test_stores :
    ((did (.st .b16 7 7 6 1 0) (sM 0x1000 0xABCD)).mem).readN 0x1000 8 = 0x88776655ABCD2281 ∧
    ((did (.stX .b8 7 7 6 (-1) .rel .sys 0 0) (sM 0x1001 0x5A)).mem).readN 0x1000 8 = 0x887766554433225A ∧
    ((did (.stx .b32 7 6 7 7 0 .plain .thread 0 0) (sM 0x12345678 0x400)).mem).readN 0x1400 4 = 0x12345678 ∧
    ((did (.st .b64 7 7 6 0 0) (sM 0x1000 0)).mem) = [] := by decide
theorem test_float_memory :
    (did (.ldfF32 7 5 6 1 0) (sM 0x1000 0)).me.getF 5 = 0x88776655 ∧ (did (.ldf64 7 5 6 0 0) (sM 0x1000 0)).me.getF 5 = 0x8877665544332281 ∧
    (did (.ldfX true 7 5 6 0 .plain .thread 0 0) (sM 0x1000 0)).me.getF 5 = 0x8877665544332281 ∧
    ((did (.stfF32 7 7 6 0 0) { onL { tF 0 0x1FFFFFFFF 0 with x := (tL 0x1000 0 0).x } with mem := [] }).mem).readN 0x1000 8 = 0xFFFFFFFF ∧
    ((did (.stfX true 7 7 6 0 .plain .thread 0 0) (onL { tF 0 0x1FFFFFFFF 0 with x := (tL 0x1000 0 0).x })).mem).readN 0x1000 8 = 0x1FFFFFFFF ∧
    ((did (.stf64 7 7 6 0 0) (onL { tF 0 3 0 with x := (tL 0x1000 0 0).x })).mem).readN 0x1000 8 = 3 := by decide
theorem test_misaligned :
    (did (.ld .d64 7 5 6 0 0) (sM 0x1004 0)).me.cause.code = 0x08 ∧ (did (.st .b16 7 5 6 0 0) (sM 0x1001 0)).me.cause.code = 0x09 ∧
    (did (.ld .d64 7 5 6 0 0) (sM 0x1004 0)).me.tval = 0x1004 ∧ (did (.ld .z8 7 5 6 0 0) (sM 0x10000000000000 0)).me.cause.code = 0x10 := by decide
/-- Scratchpad: bounds, the float window, and a barrier word. -/
theorem test_scratchpad :
    (did (.lds .d64 7 5 6 0 0) (onS (tS 0x10 0 0) { g1 with spad := Store.writeN [] 0x10 8 0x1122 })).me.getX 5 = 0x1122 ∧
    (did (.ldsX .z8 7 5 6 1 .plain .thread 0 0) (onS (tS 0x10 0 0) { g1 with spad := Store.writeN [] 0x10 8 0x1122 })).me.getX 5 = 0x11 ∧
    ((did (.sts .b64 7 7 6 0 0) (onS (tS 0xFF8 5 0) g1)).wg 1).spad.readN 0xFF8 8 = 5 ∧
    ((did (.stsX .b16 7 7 6 2 .plain .thread 0 0) (onS (tS 0 5 0) g1)).wg 1).spad.readN 0 8 = 0x50000 ∧
    (did (.sts .b64 7 7 6 0 0) (onS (tS 0x1000 5 0) g1)).me.cause.code = 0x22 ∧
    (did (.sts .b64 7 7 6 0 0) (onS (tS 0x18 5 0) { g1 with tags := [16] })).me.cause.code = 0x21 ∧
    (did (.ldf64 7 5 6 0 0) (onS (tS 0xFFFFFFFFFFC00010 0 0) { g1 with spad := Store.writeN [] 0x10 8 0x1122 })).me.getF 5 = 0x1122 ∧
    (did (.lds .d64 7 5 6 0 0) (onL (tL 0 0 0))).me.cause.code = 0x07 := by decide
theorem test_atomics :
    (did (.amo .add false 7 5 6 7 0 .plain .thread 0 0) (sM 0x1004 1)).me.getX 5 = 0xFFFFFFFF88776655 ∧
    ((did (.amo .add false 7 5 6 7 0 .plain .thread 0 0) (sM 0x1004 0x7788AAAB)).mem).readN 0x1000 8 = 0x0000110044332281 ∧
    ((did (.amo .swap true 7 5 6 7 0 .acqRel .sys 0 0) (sM 0x1000 9)).mem).readN 0x1000 8 = 9 ∧
    ((did (.amo .max false 7 5 6 7 0 .plain .cl 0 0) (sM 0x1004 0)).mem).readN 0x1004 4 = 0 ∧
    ((did (.amo .maxn false 7 5 6 7 0 .plain .cl 0 0) (sM 0x1004 0)).mem).readN 0x1004 4 = 0x88776655 := by decide
theorem test_cas_red :
    ((did (.cas true 7 8 6 7 0 .acq .die 0 0) (sM 0x1000 0x8877665544332281)).mem).readN 0x1000 8 = 0 ∧
    ((did (.cas true 7 8 6 7 0 .acq .die 0 0) (sM 0x1000 1)).mem).readN 0x1000 8 = 0x8877665544332281 ∧
    (did (.cas true 7 8 6 7 0 .acq .die 0 0) (sM 0x1000 1)).me.getX 8 = 0x8877665544332281 ∧
    (let s := did (.red .add true 7 6 7 0 .plain .sys 0 0) (sM 0x2000 7)
     (did (.ld .d64 7 5 6 0 0) (did (.red .add true 7 6 7 0 .plain .sys 0 0) s)).me.getX 5 = 14) := by decide
theorem test_prefetch_fence_wmon :
    (did (.pfc 7 6 0 0 0) (sM 0x1000 0)).me.pc = 8 ∧ (did (.fence .sys) (sM 0 0)).me.pc = 4 ∧ (did (.fenceSc .sys) (sM 0 0)).me.pc = 4 ∧
    (did (.wmon 7 5 6 7 0 .plain .die 0 0) (sM 0x1000 0)).me.getX 5 = 0x8877665544332281 ∧
    (did (.wmon 7 5 6 7 0 .plain .die 0 0) (sM 0x1000 0x8877665544332281)).me.wait = some (.wmon 0x1000 0x1000 false) ∧
    (did (.wmonWake 1) { onL { tL 0 0 0 with wait := some (.wmon 0x1000 0x1000 false), rel := some 1 } with mem := [] }).me.wait = some (.wmon 0x1000 0x1000 false) ∧
    (did (.wmonTimeout 1) { onL { tL 0 0 0 with wait := some (.wmon 0x1000 0x1000 false) } with pkgs := [(0, { Pkg.init with cycles := 65536 })] }).me.rel
      = some 2 := by decide

/-! ### Float instructions -/

theorem test_float_arithmetic :
    f5 (.fadd .f32 7 5 6 7 .rne 0) 0x3F800000 0x40000000 0 = (0x40400000, 0) ∧ f5 (.fsub .f64 7 5 6 7 .rne 0) 0x3FF0000000000000 0x3FF0000000000000 0 = (0, 0) ∧
    f5 (.fmul .bf16x4 7 5 6 7 .rne 0) 0x4000400040004000 0x3F803F803F804040 0 = (0x40004000400040C0, 0) ∧
    f5 (.fma .f16 7 5 6 7 8 .rne 0) 0x4000 0x4200 0x3C00 = (0x4700, 0) ∧ f5 (.fms .f32 7 5 6 7 8 .rne 0) 0x40000000 0x40400000 0x3F800000 = (0x40A00000, 0) ∧
    f5 (.fnma .f32 7 5 6 7 8 .rne 0) 0x40000000 0x40400000 0x3F800000 = (0xC0A00000, 0) ∧
    f5 (.fdiv .f32 7 5 6 7 .rtz 0 0) 0x3F800000 0x40400000 0 = (0x3EAAAAAA, flagNX) ∧ f5 (.fdiv .f32 7 5 6 7 .rne 0 0) 0x3F800000 0 0 = (0x7F800000, flagDZ) := by
  decide
theorem test_float_roots :
    f5 (.fsqrt .f32 7 5 6 .rne 0 0) 0x40800000 0 0 = (0x40000000, 0) ∧ f5 (.frcp .f32 7 5 6 .rne 0 0) 0x40800000 0 0 = (0x3E800000, 0) ∧
    f5 (.frsqrt .f32 7 5 6 .rne 0 0) 0x40800000 0 0 = (0x3F000000, 0) ∧
    f5 (.fdot2 .bf16x4 7 5 6 7 8 .rne 0) 0x3F803F8040004000 0x3F803F8040003F80 0x3F80000000000000 = (0x4040000040C00000, 0) := by decide
theorem test_float_bits :
    f5 (.fmin .f32 7 5 6 7 0) 0x80000000 0 0 = (0x80000000, 0) ∧ f5 (.fmax .f32 7 5 6 7 0) 0x7FC00000 0x3F800000 0 = (0x3F800000, 0) ∧
    f5 (.fabs .f32 7 5 6 0) 0xFFC00001 0 0 = (0x7FC00001, 0) ∧ f5 (.fneg .f32x2 7 5 6 0) 0x3F800000BF800000 0 0 = (0xBF8000003F800000, 0) ∧
    f5 (.fcpsgn .f32 7 5 6 7 0) 0x3F800000 0x80000000 0 = (0xBF800000, 0) ∧ f5 (.fround .f32 7 5 6 .rne 0) 0xBE99999A 0 0 = (0x80000000, flagNX) ∧
    f5 (.fround .f32 7 5 6 .rup 0) 0x40200000 0 0 = (0x40400000, flagNX) ∧
    (did (.fcmp .le .f32 7 1 6 7 0) (onL (tF 0x80000000 0 0))).me.getP 1 = true ∧ (did (.fcmp .un .f32 7 1 6 7 0) (onL (tF 0 0x7FC00000 0))).me.getP 1 = true ∧
    (did (.fclass .f32 7 5 6 0) (onL (tF 0x80000001 0 0))).me.getX 5 ≠ 0 := by decide
theorem test_float_conversions :
    f5 (.fcvt .a8x8 .bf16x4 7 5 6 7 0 .rne 0) 0x42204053C0003F80 0xBF8841E000003F00 0 = (0xD87E00507E65E058, flagOF ||| flagNX) ∧
    (did (.fcvtX .f64 false 7 5 6 .rne 0) (onL (tF 0xBFF0000000000000 0 0))).me.getX 5 = 0 ∧
    (did (.fcvtX .f32 true 7 5 6 .rtz 0) (onL (tF 0xC0200000 0 0))).me.getX 5 = -2 ∧
    (did (.xcvtF .f32 true 7 5 6 .rne 0) (onL (tL (-2) 0 0))).me.getF 5 = 0xC0000000 ∧
    (did (.fmvX .f32 7 5 6 0) (onL (tF 0x180000000 0 0))).me.getX 5 = 0xFFFFFFFF80000000 ∧
    (did (.fmvF .f32 7 5 6 0) (onL (tL 0x180000000 0 0))).me.getF 5 = 0x80000000 := by decide
/-- An overflow with policy 3 traps, with the lowest element that overflows. -/
theorem test_float_overflow_trap :
    (let t := (did (.fcvt .a8x8 .bf16x4 7 5 6 7 3 .rne 0) (onL (tF 0x42204053C0003F80 0 0))).me
     t.cause.code = 0x0C ∧ t.tval = 3 ∧ t.getF 5 = 0) := by decide
theorem test_float_approximations :
    f5 (.fexp2 .f32 7 5 6 0 0) 0x40400000 0 0 = (0x41000000, 0) ∧ f5 (.flog2 .f32 7 5 6 0 0) 0x41000000 0 0 = (0x40400000, 0) ∧
    f5 (.fsinp .f32 7 5 6 0 0) 0x3E800000 0 0 = (0x3F800000, 0) ∧ f5 (.fcosp .f32 7 5 6 0 0) 0x3F000000 0 0 = (0xBF800000, 0) ∧
    f5 (.flog2 .f32 7 5 6 0 0) 0 0 0 = (0xFF800000, flagDZ) ∧ (f5 (.frdx .f32 7 5 6 .rne 0 0) 0 0 0).1 = 0 := by decide
/-- Both slots read before either writes. -/
theorem test_pair_word :
    (let t := (did (.pairWord 7 .add 6 6 7 0 .fmvF 6 6 0 0) (onL (tL 40 2 0))).me
     t.getX 6 = 42 ∧ t.getF 6 = 40) ∧
    (let t := (did (.pairWord 7 (.cmp .lo) 1 6 7 0 .faddS 5 6 7 0) (onL { tF 0x3F800000 0x3F800000 0 with x := (tL 1 2 0).x })).me
     t.getP 1 = true ∧ t.getF 5 = 0x40000000 ∧ t.pc = 8) := by decide


/-! ### Lane operations -/

/-- Two lanes of workgroup 1: lane 0 executes, lane 1 has arrived at the same address with a value. -/
def sLanes (a : Word) (arr : Option Arrival) : State :=
  { onS (tS a 2 0) g1 with threads := [(1, tS a 2 0), (2, { tS 0 1 0 with lane := 1, place := .slot 128 0 1 0, arrival := arr })] }
/-- That arrival. -/
def sMet (a b : Word) : State := sLanes a (some ⟨0, true, b, []⟩)

theorem test_lxch_lsel :
    (did (.lxch false 7 5 6 7 1 0) (sMet 3 9)).me.getX 5 = 9 ∧ (did (.lsel false 7 5 6 7 1 0) (sMet 3 9)).me.getX 5 = 3 ∧
    (did (.lxch false 7 5 6 7 1 0) (sMet 3 9)).me.getP 1 = true ∧ ((did (.lxch false 7 5 6 7 1 0) (sMet 3 9)).thr 2).arrival = some ⟨0, true, 9, [0]⟩ ∧
    (did (.lxch false 7 5 6 7 1 0) (sLanes 3 none)).me.wait = some .lane ∧ (did (.lsel true 7 5 6 7 1 0) (onL (tF 8 0 0))).me.getF 5 = 8 := by decide
theorem test_lred_lvote :
    (did (.lred .add 7 5 6 7 1 0) (sMet 3 9)).me.getX 5 = 12 ∧ (did (.lred .max 7 5 6 7 1 0) (sMet 3 9)).me.getX 5 = 9 ∧
    (did (.lred .fadd 7 5 6 7 1 0) (onL (tF 0x3F800000 0 0))).me.getF 5 = 0x3F800000 ∧ (did (.lvote 7 5 7 7 1 0) (sMet 0 1)).me.getX 5 = 3 ∧
    (did (.lvote 7 5 2 7 1 0) (sMet 0 1)).me.getX 5 = 2 := by decide
theorem test_lane_wait_cycle :
    (let s := did (.laneWaitCycle 1) { did (.lxch false 7 5 6 7 1 0) (sLanes 3 none) with
        threads := (did (.lxch false 7 5 6 7 1 0) (sLanes 3 none)).threads.map fun x => if x.1 = 2 then (2, { x.2 with wait := some .lane, laneWait := some ⟨.lxch false 7 5 6 7 1 0, 8, [0], [], false, none, []⟩ }) else x }
     (s.thr 1).laneWait.map (·.absent) = some true ∧ (s.thr 2).laneWait.map (·.want) = some []) := by decide

/-! ### Transfers and loops -/

/-- A user thread of the S-core at an address, with loop levels. -/
def tLoop (pc : Word) (a b : Loop) (n : Word) : Thread := { tS n 0 0 with pc := pc, lp0 := a, lp1 := b }
/-- Its state. -/
def sLoop (pc : Word) (a b : Loop) (n : Word) : State := onS (tLoop pc a b n) g1

theorem test_branches :
    (did (.br 7 (-4)) (onL { tL 0 0 0 with pc := 0x100 })).me.pc = 0xF0 ∧ (did (.call 7 0x100) (onL { tL 0 0 0 with pc := 0x100 })).me.pc = 0x500 ∧
    (did (.call 7 0x100) (onL { tL 0 0 0 with pc := 0x100 })).me.getX 1 = 0x104 ∧ (did (.callL 7 (-1)) (onL { tL 0 0 0 with pc := 0x100 })).me.pc = 0xFC ∧
    (did (.callL 7 (-1)) (onL { tL 0 0 0 with pc := 0x100 })).me.getX 1 = 0x108 ∧
    (did (.jmp 7 0x40000000) (onL { tL 0 0 0 with pc := 0x100 })).me.pc = 0x100000100 ∧ (did (.br 2 (-4)) (onL (tL 0 0 0))).me.pc = 4 := by decide
theorem test_register_transfers :
    (did (.jr 7 6) (onL (tL 0x80 0 0))).me.pc = 0x80 ∧ (did (.callr 7 6 6) (onL (tL 0x80 0 0))).me.pc = 0x80 ∧
    (did (.callr 7 6 6) (onL (tL 0x80 0 0))).me.getX 6 = 4 ∧ (did (.ret 7) (onL { tL 0 0 0 with x := (tL 0 0 0).x.set 1 0x44 })).me.pc = 0x44 ∧
    (did (.nop 7) (onL (tL 0 0 0))).me.pc = 4 := by decide
theorem test_loop :
    (did (.loop 6 3) (sLoop 0x100 .none .none 2)).me.lp0 = ⟨0x104, 0x10C, 2⟩ ∧ (did (.loop 6 3) (sLoop 0x100 .none .none 0)).me.pc = 0x110 ∧
    (did (.loop 6 2) (sLoop 0x104 ⟨0x104, 0x10C, 2⟩ .none 5)).me.lp1 = ⟨0x108, 0x10C, 5⟩ ∧
    (did (.loop 6 3) (sLoop 0x104 ⟨0x104, 0x10C, 2⟩ .none 5)).me.tval = 2 ∧ (did (.loop 6 0) (sLoop 0x100 .none .none 2)).me.tval = 4 ∧
    (did (.loop 6 1) (sLoop 0x100 .none .none 0x100000000)).me.tval = 5 ∧ (did (.loop 6 3) (onL (tL 1 0 0))).me.tval = 3 ∧
    (did (.loop 6 1) (sLoop 0x104 ⟨0x104, 0x10C, 2⟩ ⟨0x104, 0x108, 1⟩ 5)).me.tval = 1 := by decide
theorem test_loop_ends :
    (did (.nop 7) (sLoop 0x10C ⟨0x104, 0x10C, 2⟩ .none 0)).me.pc = 0x104 ∧ (did (.nop 7) (sLoop 0x10C ⟨0x104, 0x10C, 1⟩ .none 0)).me.pc = 0x110 ∧
    (did (.nop 7) (sLoop 0x10C ⟨0x104, 0x10C, 2⟩ ⟨0x108, 0x10C, 1⟩ 0)).me.pc = 0x104 ∧
    (did (.nop 7) (sLoop 0x10C ⟨0x104, 0x10C, 2⟩ ⟨0x108, 0x10C, 1⟩ 0)).me.lp0.count = 1 ∧
    (did (.loopx 7) (sLoop 0x104 ⟨0x104, 0x10C, 2⟩ .none 0)).me.pc = 0x110 ∧ (did (.loopx 7) (sLoop 0x104 ⟨0x104, 0x10C, 2⟩ .none 0)).me.lp0.count = 0 ∧
    (did (.br 7 0x40) (sLoop 0x108 ⟨0x104, 0x10C, 2⟩ .none 0)).me.lp0.count = 0 := by decide

/-! ### Traps, control registers and system instructions -/

theorem test_traps :
    (did (.brk 7) (onS (tS 0 0 0) g1)).me.cause = ⟨0x0E, 0, true⟩ ∧ (did (.brk 7) (onS { tS 0 0 0 with pc := 0x40 } g1)).me.epc = 0x40 ∧
    (did (.brk 7) { onS (tS 0 0 0) g1 with cores := [(128, { Core.init with tvec := 0x800 })] }).me.pc = 0x800 ∧ (did (.brk 7) (onS (tS 0 0 0) g1)).me.mode = true ∧
    (did (.sys 7) (onL (tL 0 0 0))).me.cause.code = 0x0D ∧ (did (.sys 7) (onS (tS 0 0 0) g1)).me.wait = some .send ∧
    (did (.brk 7) (onL { tL 0 0 0 with atTvec := true })).me.ending = some .fatal := by decide
theorem test_tret_wfi :
    (did (.tret 7) (onL { tL 0 0 0 with epc := 0x44, pmode := false })).me.pc = 0x44 ∧ (did (.tret 7) (onL { tL 0 0 0 with epc := 0x44, pmode := false })).me.mode = false ∧
    (did (.tret 7) (onS (tS 0 0 0) g1)).me.cause.code = 0x01 ∧ (did (.wfi 7) (onS (tS 0 0 0) g1)).me.tval = 0x0C000398 ∧
    (did (.wfi 7) (onL (tL 0 0 0))).me.wait = some .wfi ∧ (did (.wfi 7) { onL (tL 0 0 0) with ctxs := [(0, { Ctx.init with thread := some 1, irqSoft := 4, irqEn := -1 })] }).me.pc = 4 ∧
    (did (.wfiTimeout 1) { onS { tS 0 0 0 with wait := some .wfi } g1 with courses := [(16, { Course.init with cycles := 65536 })] }).me.pc = 4 := by decide
theorem test_interrupt_signal_writeback :
    (let s := { onL { tL 0 0 0 with pc := 0x10 } with ctxs := [(0, { Ctx.init with thread := some 1, irqSoft := 4, irqEn := -1 })] }
     (did (.interrupt 0) s).me.cause = ⟨0x30, 0, true⟩ ∧ (did (.interrupt 0) s).me.tval = 18 ∧ (did (.interrupt 0) s).me.epc = 0x10 ∧
     ((did (.interrupt 0) s).ctx 0).hold = true) ∧
    (did (.signal 1) (onS (tS 0 0 0) g1)).me.cause.code = 0x29 ∧ (did (.signal 1) (onS { tS 0 0 0 with mode := true } g1)).me.signalled = true ∧
    (did (.registerWriteback 1 0) (onL { tL 0 0 0 with pend := [⟨.x 5, some 9, 3, 0⟩] })).me.getX 5 = 9 := by decide
theorem test_csr :
    (did (.csrr 5 0xC03) (onS (tS 0 0 0) g1)).me.getX 5 = 4 ∧ (did (.csrr 5 0xC00) (onS (tS 0 0 0) g1)).me.getX 5 = 77 ∧
    (did (.csrr 5 0x401) (onL (tL 0 0 0))).me.getX 5 = 0xDC ∧ (did (.csrr 5 0x801) (onS (tS 0 0 0) g1)).me.cause.code = 0x01 ∧
    (did (.csrs 6 0x002) (onL { tL 3 0 0 with fflags := 4 })).me.fflags = 7 ∧ (did (.csrc 6 0x002) (onL { tL 3 0 0 with fflags := 7 })).me.fflags = 4 ∧
    (did (.csrw 6 0x804) (onL (tL 0x807 0 0))).core 0 = { Core.init with tvec := 0x800 } ∧ (did (.csrw 6 0x402) (onS (tS 0 0 0) g1)).me.cause.code = 0x01 := by decide
/-- 02 R39, R49: a false guard only moves on; a register outside the budget traps. -/
theorem test_frame :
    (did (.brk 0) (onL (tL 0 0 0))).me.pc = 4 ∧ (did (.add 0 9 6 7) (onS { tS 0 0 0 with role := ⟨0, true, 0, 0⟩ } g1)).me.cause.code = 0x05 ∧
    (did (.add 7 5 6 7) (onL { tL 0 0 0 with pend := [⟨.x 6, none, 0, 1⟩] })).me.wait = some (.reg [.x 6, .x 7]) := by decide


/-! ### Barriers, copies and the matrix engine -/

/-- The workgroup with a barrier object at scratchpad offset 16. -/
def gBar (gen pend init inB outB : Nat) : WG :=
  { g1 with tags := [16], spad := Store.writeN [] 16 16 (BarObj.toNat ⟨gen, pend, init, false, false, inB, outB, 0⟩ true) }

/-- 06 R130, R131, R138: an object is set up, counts down, completes its phase, is tested and taken away. -/
theorem test_barriers :
    (let s := did (.barInit 7 5 6 7 8 0 0) (onS (tS 16 2 64) g1)
     (s.wg 1).bar 16 = ⟨0, 2, 2, false, false, 64, 0, 0⟩ ∧ (s.wg 1).tags = [16] ∧ s.me.getX 5 = 0) ∧
    (did (.barInit 7 5 6 7 8 0 0) (onS (tS 8 2 64) g1)).me.getX 5 = -1 ∧ (did (.barArr 7 5 6 0 0) (onS (tS 16 0 0) (gBar 3 2 2 0 0))).me.getX 5 = 3 ∧
    ((did (.barArr 7 5 6 0 0) (onS (tS 16 0 0) (gBar 15 1 2 0 0))).wg 1).bar 16 = ⟨0, 2, 2, false, false, 0, 0, 0⟩ ∧
    (did (.barArr 7 5 6 0 0) (onS (tS 16 0 0) (gBar 3 0 2 8 0))).me.getX 5 = -2 ∧ (did (.barArr 7 5 6 0 0) (onS (tS 32 0 0) g1)).me.getX 5 = -5 := by decide
theorem test_barrier_counts :
    ((did (.barExp true false 7 5 6 7 0 0) (onS (tS 16 64 0) (gBar 3 2 2 0 0))).wg 1).bar 16 = ⟨3, 1, 2, false, false, 64, 0, 0⟩ ∧
    (did (.barExp false true 7 5 6 7 0 0) (onS (tS 16 0x80000000 0) (gBar 3 2 2 0 0))).me.getX 5 = -1 ∧
    (did (.barWait false 7 5 6 7 0 0) (onS (tS 16 3 0) (gBar 3 2 2 0 0))).me.wait = some (.bar 1 16) ∧
    (did (.barWait false 7 5 6 7 0 0) (onS (tS 16 2 0) (gBar 3 2 2 0 0))).me.getX 5 = 0 ∧
    (did (.barWait true 7 5 6 0 0 0) (onS (tS 16 0 0) (gBar 3 2 2 0 9))).me.wait = some (.barOut 1 16) ∧
    (did (.barTest false 7 5 6 7 0 0) (onS (tS 16 2 0) (gBar 3 2 2 0 0))).me.getX 5 = 1 ∧ (did (.barTest true 7 5 6 0 0 0) (onS (tS 16 0 0) (gBar 3 2 2 0 9))).me.getX 5 = 0 ∧
    ((did (.barInval 7 5 6 0 0) (onS (tS 16 0 0) (gBar 3 2 2 0 0))).wg 1).tags = [] ∧
    (did (.barArr 7 5 6 0 0) (onL (tL 16 0 0))).me.cause.code = 0x07 := by decide

/-- A thread in system mode that issues copies of one row of 8 bytes at 0x1000, to scratchpad offset 32 and object 16. -/
def tCopy (mode : Bool) : Thread := { tS 0x1000 (32 + 16 * 2 ^ 32) (8 + 2 ^ 20) with mode := mode }
/-- Its state. -/
def sCopy (g : WG) : State := { onS (tCopy true) g with mem := Store.writeN [] 0x1000 8 0x1122334455667788 }
/-- The state with an inbound command accepted, and with it landed. -/
def sCopied : State := did (.cpyIn 7 5 6 7 8 0 0 0) (sCopy (gBar 0 0 1 8 0))

theorem test_copy_in :
    sCopied.me.getX 5 = 0 ∧ (sCopied.core 128).copyQ.length = 1 ∧ sCopied.count sCopied.me .copy = 1 ∧
    (let s := did (.copyChunkLand 128) sCopied
     (s.wg 1).spad.readN 32 8 = 0x1122334455667788 ∧ (s.wg 1).bar 16 = ⟨1, 1, 1, false, false, 0, 0, 0⟩ ∧
     (did (.copyComplete 128) s).count (did (.copyComplete 128) s).me .copy = 0) ∧
    (did (.cpyIn 7 5 6 7 8 0 0 0) (onS { tCopy true with role := ⟨0, false, 3, 3⟩ } g1)).me.cause.code = 0x20 := by decide
theorem test_copy_out_and_forms :
    (let s := did (.cpyOut .die 7 5 6 7 8 0 0 0) (onS { tS 0x1000 (32 + 0xFFFFFFFF * 2 ^ 32) (8 + 2 ^ 20) with mode := true } { g1 with spad := Store.writeN [] 32 8 0xAB })
     (did (.copyChunkRead 128) s).mem.readN 0x1000 8 = 0xAB) ∧
    (did (.cpyGat 7 5 6 7 8 1 0 0) (sCopy (gBar 0 0 1 8 0))).me.getX 5 = 0 ∧ (did (.cpySct .sys 7 5 6 7 8 64 0 0) (sCopy (gBar 0 0 1 8 0))).me.getX 5 = -1 ∧
    (did (.cpyMc 7 5 6 7 8 2 0 0 0) (sCopy (gBar 0 0 1 8 0))).me.getX 5 = -3 ∧ (did (.cpyIn 7 5 6 7 8 0 0 0) (onS { tCopy true with x := (tL 0 0 0).x } g1)).me.getX 5 = 0 ∧
    (did (.copyAccept 1) { sCopy (gBar 0 0 1 8 0) with threads := [(1, { tCopy true with wait := some (.accept (.cpyIn 7 5 6 7 8 0 0 0)) })] }).me.pc = 8 := by decide
theorem test_wcnt :
    (did (.wcnt .copy 0) sCopied).me.wait = some (.count .copy 0) ∧ (did (.wcnt .copy 1) sCopied).me.pc = 12 ∧
    (did (.wcnt .copy 0) (onS { tS 0 0 0 with deferred := some 0x40 } g1)).me.cause.code = 0x1B ∧
    (did (.wcnt .copy 0) (onS { tS 0 0 0 with reports := [(.copy, ⟨0x1C, 9, none⟩)] } g1)).me.cause.code = 0x1C := by decide

/-- The workgroup with matrix slots 0 and 1. -/
def gMat : WG := { g1 with held := [0, 1] }

theorem test_matrix_issue :
    (did (.mcfg 7 5 3 0 0 0) (onS (tS 0 0 0) g1)).me.getX 5 = -1 ∧ (did (.mcfg 7 5 2 2 0 0) (onS (tS 0 0 0) g1)).me.getX 5 = 0 ∧
    ((did (.mcfg 7 5 0 0 0 0) (onS (tS 0 0 0) g1)).core 128).matQ.map (·.op) = [.cfg 0] ∧ ((did (.mclaim 7 5 6 7 1 0 0) (onS (tS 62 2 0) g1)).wg 1).held = [62, 63] ∧
    (did (.mclaim 7 5 6 7 1 0 0) (onS (tS 62 2 0) g1)).me.getP 1 = true ∧ (did (.mclaim 7 5 6 7 1 0 0) (onS (tS 63 2 0) g1)).me.getX 5 = -1 ∧
    (did (.mclaimW 7 5 6 7 1 0 0) (onS (tS 0 1 0) gMat)).me.getX 5 = -4 ∧ ((did (.mrel 7 5 6 7 0 0) (onS (tS 0 2 0) gMat)).core 128).matQ.map (·.op) = [.rel 0 2] ∧
    (did (.mrel 7 5 6 7 0 0) (onS (tS 1 2 0) gMat)).me.getX 5 = -4 := by decide
theorem test_matrix_commands :
    ((did (.mload false 7 5 6 7 8 0 0) (onS (tS 0 0x101 64) gMat)).core 128).matQ.map (·.op) = [.load false false 0 1 1 64] ∧
    (did (.mload true 7 5 6 7 8 0 0) (onS (tS 0 0x102 64) gMat)).me.getX 5 = -4 ∧ (did (.mloadT true 7 5 6 7 8 0 0) (onS (tS 4095 0x100 64) gMat)).me.getX 5 = -1 ∧
    (did (.mgath false 7 5 6 7 0 0) (onS (tS 16 1 0) gMat)).me.getX 5 = 0 ∧ (did (.mmul .bf16 7 5 6 0 0) (onS (tS 4040 0 0) gMat)).me.getX 5 = -1 ∧
    (did (.mmul .bf16 7 5 6 0 0) (onS (tS 0 0 0) gMat)).me.getX 5 = 0 ∧ (did (.msacc false false 7 5 6 7 8 0 0) (onS (tS 0 0 0) gMat)).me.getX 5 = -1 ∧
    ((did (.msacc false true 7 5 6 7 8 0 0) (onS (tS 0 256 0x100) gMat)).core 128).matQ.map (·.op) = [.sacc false true 0 256 0 1] ∧
    (did (.mstore 0 0 0 false 7 5 6 7 0 0) (onS (tS 0 0 0) gMat)).me.getX 5 = -1 ∧ (did (.mzero 7 5 6 7 0 0) (onS (tS 4 1 0) gMat)).me.getX 5 = -1 ∧
    ((did (.mzero 7 5 6 7 0 0) (onS (tS 3 1 0) gMat)).core 128).matQ.map (·.op) = [.zero 3 1] ∧ (did (.macld 7 5 6 7 0 0) (onS (tS 0 0 0) gMat)).me.getX 5 = -1 ∧
    ((did (.mstat 7 5 6 0 0) (onS (tS 0x7F 0 0) gMat)).core 128).matQ.map (·.op) = [.stat 0x3F] := by decide

/-- A core with 16 by 16 tiles and one command. -/
def sMat (op : MatOp) (g : WG) : State := { onS (tS 0 0 0) g with cores := [(128, { Core.init with tcfg := 0, matQ := [⟨9, 1, 1, op, 0, 0, 0, 0, none⟩] })] }

/-- 12 R267 to R275: a fill, a product of INT8 elements, zeroes, releases and a shape change. -/
theorem test_matrix_performs :
    (((did (.matrixPerform 128) (sMat (.load false true 0 1 1 64) { gMat with spad := [(5, 7)] })).wg 1).slotMem.read 4101) = 7 ∧
    (((did (.matrixPerform 128) (sMat (.mul .i8 [⟨2, 0, 1, 1, 2, true⟩]) { gMat with slotMem := [(0, 3), (1, 4), (4096, 5), (4097, -1)] })).wg 1).tileMem.read 8192) = 11 ∧
    (((did (.matrixPerform 128) (sMat (.zero 2 1) { gMat with tileMem := [(8192, 3)] })).wg 1).tileMem) = [] ∧
    (((did (.matrixPerform 128) (sMat (.ld 0 0 64) { gMat with spad := [(4, 7)] })).wg 1).tileMem) = [(1, 7)] ∧
    (((did (.matrixPerform 128) (sMat (.rel 0 1) gMat)).wg 1).held) = [1] ∧ ((did (.mcfgApply 128) (sMat (.cfg 10) gMat)).core 128).tcfg = 10 ∧
    (((did (.matrixPerform 128) (sMat (.store 0 0 0 true 0 0xFFFFFFFF 0 64) { gMat with tileMem := [(1, 7)] })).wg 1).spad) = [(4, 7)] := by decide
theorem test_claims_granted :
    (let s : State := { onS { tS 0 0 0 with wait := some (.claim 5 1 0) } g1 with cores := [(128, { Core.init with claims := [⟨1, 1, 0, 2⟩] })] }
     ((did (.mclaimWGrant 128) s).wg 1).held = [0, 1] ∧ (did (.mclaimWGrant 128) s).me.getP 1 = true ∧ (did (.claimDeadlock 128) s).me.wait = some (.claim 5 1 0)) ∧
    (let s : State := { sMat (.zero 0 1) g1 with wgs := [(1, g1), (2, { g1 with sclass := 3 })], cores := [(128, { Core.init with matQ := [⟨9, 1, 1, .zero 0 1, 0, 0, 0, 0, none⟩, ⟨10, 2, 2, .zero 0 1, 0, 0, 0, 0, none⟩] })] }
     ((did (.enginePreempt 128 true) s).core 128).matQ.map (·.id) = if s.bestWg [1, 2] = some 1 then [9, 10] else [10, 9]) := by decide


/-! ### Walkers -/

/-- A state of the boot thread with a walker command. -/
def sWalk (op : WalkOp) : State :=
  { onL { tL 0 0 0 with ops := [⟨.walker, 9, false, none⟩], pend := [⟨.x 5, none, 0, 9⟩] } with walks := [⟨9, 1, 0, 0, op, 0, 0, true, 0, none, false, 0, none⟩] }

theorem test_walker_issue :
    (did (.cwFlush .sys false 7 5 6 7 8 0 0) (onL (tL 0x1000 0 64))).walks.map (·.op) = [.cw false .sys none 0x1000 64] ∧
    (did (.cwInval .die false 7 5 6 7 8 0 0) (onL (tL 0x1000 0 0))).me.getX 5 = 0 ∧
    (did (.cwFlush .die true 7 5 6 7 8 0 0) (onS (tS 0x1000 8 64) g1)).me.getX 5 = -1 ∧
    (did (.tlbInv .rng .pkg 7 5 6 7 8 0 0) (onL (tL 0x1000 3 2))).walks.map (·.op) = [.tlb .rng .pkg 0x1000 2 3] ∧
    (did (.tlbInv .va .pkg 7 5 6 7 8 0 0) (onL (tL 0x1000 0x10000 2))).me.getX 5 = -1 ∧
    (did (.pgMig 7 5 6 7 8 0 0) (onL (tL 0x100000000 0x100010000 0x1000))).walks.map (·.op) = [.mig 0 0] ∧
    (did (.pgMig 7 5 6 7 8 0 0) (onL (tL 0x1000 0x1800 0x1000))).me.getX 5 = -1 ∧
    (did (.pgMigRel 7 5 6 0 0) (onL (tL 0x1000 0 0))).me.getX 5 = -2 ∧ (did (.pgMigRel 7 5 6 0 0) (onS (tS 0 0 0) g1)).me.cause.code = 0x01 := by decide
theorem test_page_issue :
    ((did (.pgMigRel 7 5 6 0 0) { onL (tL 0x1000 0 0) with pkgs := [(0, { Pkg.init with descs := [(3, ⟨.forward, 0x1000, 0x8000, 0x1000, 0x1000⟩)] })] }).pkg 0).descs = [] ∧
    (did (.pgSplit 7 5 6 7 8 0 0) { onL (tL 0x200000 0x1008 0x4000) with mem := Store.writeN [] 0x1008 8 0x20000F }).walks.map (·.op) = [.split 0x200000 0x1008 0x4000 (some 0x20000F)] ∧
    (did (.pgSplit 7 5 6 7 8 0 0) { onL (tL 0x200000 0x1008 0x4000) with locks := [0x1000] }).me.wait = some .walk ∧
    (did (.pgColl 3 7 5 6 7 0 0) { onL (tL 0x200000 0x1008 0) with mem := Store.writeN [] 0x1008 8 0xC0F }).walks.length = 1 ∧
    (did (.pgColl 3 7 5 6 7 0 0) (onL (tL 0x200000 0x1004 0))).me.getX 5 = -1 := by decide
theorem test_walker_completion :
    (let s := did (.tlbInvComplete 0) { sWalk (.tlb .va .sys 0x1000 0 3) with tlbs := [⟨.data 0, 3, 0x1000, 0x1000, 0x3F, 0x1000, 0⟩, ⟨.data 0, 4, 0x1000, 0x1000, 0x3F, 0x1000, 0⟩] }
     s.tlbs.map (·.asid) = [4] ∧ s.walks = [] ∧ s.me.getX 5 = 0 ∧ s.me.ops = []) ∧
    (let s := did (.cwWalkComplete 0) { sWalk (.cw false .sys none 0x1000 64) with copies := [(0x1000, ⟨.m, 0, 0⟩)], dir := [(0x1000, ⟨.ex, 0, 1, 0, none⟩)] }
     s.walks = [] ∧ s.me.getX 5 = 0 ∧ (s.holds 0 0x1000) = some .e) ∧
    (let s := did (.cwWalkComplete 0) { sWalk (.cw true .sys none 0x1000 64) with copies := [(0x1000, ⟨.m, 0, 0⟩)], dir := [(0x1000, ⟨.ex, 0, 1, 0, none⟩)] }
     (s.holds 0 0x1000) = none) := by decide
theorem test_migration_line :
    (let s := did (.pgMigLine 0) { sWalk (.mig 0 2) with
       mem := [(0x100000005, 7)], pkgs := [(0, { Pkg.init with descs := [(2, ⟨.moving, 0x100000000, 0x100010000, 0x1000, 0xF00⟩)] })] }
     tget (s.pkg 0).descs 2 = some ⟨.forward, 0x100000000, 0x100010000, 0x1000, 0x1000⟩ ∧ s.walks = []) ∧
    (let s := did (.pgMigLine 0) { sWalk (.mig 0 2) with
       mem := [(0x100000005, 7)], pkgs := [(0, { Pkg.init with descs := [(2, ⟨.moving, 0x100000000, 0x100010000, 0x1000, 0⟩)] })] }
     s.mem.read 0x100010005 = 7 ∧ (tget (s.pkg 0).descs 2).map (·.bound) = some 256) := by decide
theorem test_table_writes :
    (let s := did (.pgCollComplete 0) { sWalk (.coll 0x1000 0x1008 3 [(0x1008, 0xC0F)] false) with mem := Store.writeN [] 0x1008 8 0xC0F, locks := [0x1000] }
     s.mem.readN 0x1008 8 = 0x80F ∧ s.locks = [] ∧ s.me.getX 5 = 0) ∧
    (did (.pgSplitComplete 0) (sWalk (.split 0x200000 0x1008 0x4000 none))).me.getX 5 = -4 := by decide

/-! ### Threads -/

/-- A launch of eight threads in workgroups of four, and a level of kind 1, as records at 0x2000 and 0x2080. -/
def memSpawn : Memory :=
  Store.writeN (Store.writeN (Store.writeN (Store.writeN [] 0x2000 8 0x100) 0x2008 8 (8 + 4 * 2 ^ 32)) 0x2018 8 (1 * 2 ^ 16)) 0x2090 8 0x80 |>.writeN 0x2010 8 8
/-- The boot thread before a spawn. -/
def sSpawn (va parent : Word) : State := { onL (tL va parent 0) with mem := (memSpawn.writeN 0x300000 8 100).writeN 0x300008 8 8, dies := [(2, { Die.init with idwEn := true, idwTable := 0x300000 })] }

theorem test_spawn :
    (did (.spawn 7 5 6 7) (sSpawn 0x2004 0)).me.getX 5 = -1 ∧ (did (.spawn 7 5 6 7) (sSpawn 0x2010 0)).me.getX 5 = -1 ∧
    (did (.spawn 7 5 6 7) (sSpawn 0x2000 5)).me.getX 5 = -3 ∧
    (did (.spawn 7 5 6 7) (sSpawn 0x2000 0)).mem.readN 0x300008 8 = 0 ∧
    (((did (.spawn 7 5 6 7) (sSpawn 0x2000 0)).die 2).levels.map fun l => (l.2.st, l.2.count, l.2.launch.map (·.tidBase))) = [(.sealed, 8, some 100)] ∧
    (((did (.spawn 7 5 6 7) (sSpawn 0x2080 0)).die 2).levels.map fun l => (l.2.st, l.2.kind, l.2.count)) = [(.open, 1, 0)] ∧
    (did (.spawn 7 5 6 7) { sSpawn 0x2000 0 with dies := [] }).me.cause.code = 0x28 := by decide

/-- The record of that launch. -/
def recSpawn : SpawnRec := SpawnRec.ofWords [0x100, 8 + 4 * 2 ^ 32, 8, 1 * 2 ^ 16, 0, 0, 0, 0, 0, 0, 0, 0, 0, 0, 0, 0]
/-- The launch as entry 7 of the table of DIE_ID 2, with its next index. -/
def sLaunch (next count : Nat) : State :=
  { onL (tL (levelHandle 2 7 0 0) 0 0) with
    dies := [(2, { Die.init with levels := [(7, ⟨0, 0, .sealed, count, 0, 0, some ⟨recSpawn, 100, 0, 2, next, [], 2, 2, 0, [], []⟩, false⟩)] })] }

theorem test_levels :
    (did (.doneWait 7 5 6) (sLaunch 8 1)).me.wait = some (.level 2 7 0) ∧ (did (.doneWait 7 5 6) (onL (tL 9 0 0))).me.getX 5 = -1 ∧
    (did (.cancel 7 5 6) (sLaunch 0 8)).me.getX 5 = 0 ∧ (((did (.cancel 7 5 6) (sLaunch 0 8)).die 2).levels.map fun l => (l.2.st, l.2.result)) = [(.cancelled, -5)] ∧
    (did (.cancel 7 5 6) (onL (tL 9 0 0))).me.getX 5 = -1 := by decide
theorem test_blocks :
    (let s := did (.keystoneBlockRequest (2 * 4096 + 7) 2) (sLaunch 4 8)
     (s.threads.map fun t => (t.2.tid, t.2.index, t.2.pc, t.2.getX 10)) = [(0, 0, 0, 0), (104, 4, 0x100, 4), (105, 5, 0x100, 5), (106, 6, 0x100, 6), (107, 7, 0x100, 7)]) ∧
    did (.keystoneBlockRequest (2 * 4096 + 7) 2) (sLaunch 8 8) = sLaunch 8 8 ∧
    did (.keystoneElection (2 * 4096 + 7)) (sLaunch 4 8) = sLaunch 4 8 := by decide
theorem test_thread_moves :
    (did (.migrate 7 5 6) (onL (tL 1 0 0))).me.wait = some .send ∧ (did (.migrate 7 5 6) (onL (tL 0 0 0))).me.getX 5 = 0 ∧
    (did (.migrate 7 5 6) (onL (tL 7 0 0))).me.getX 5 = -1 ∧ (did (.yield 7) (onL (tL 0 0 0))).me.wait = some (.yield []) ∧
    (did (.exit 7) (onL (tL 0 0 0))).me.cause.code = 0x2B ∧ (did (.exit 7) (onS (tS 0 0 0) g1)).me.ending = some .normal ∧
    (let s := did (.migrate 7 5 6) (onL (tL 0x202 0 0))
     (did (.migrateSend 1) s).msgs = [.thread 2 1] ∧ (did (.migrateSend 1) s).me.place = .flight) := by decide
theorem test_arrival_and_timer :
    (let s : State := { onL { tL 0 0 0 with place := .flight, pc := 8 } with msgs := [.thread 2 1], dies := [(2, { Die.init with profile := ⟨4, 5, 0, 0, 0⟩ })] }
     let s1 := did (.threadArrival 0) s
     let s2 : State := { s1 with pkgs := [(0, { Pkg.init with time := 3 })] }
     s1.msgs = [] ∧ ((s1.die 2).bins.map fun b => (b.2.entry, b.2.fill, b.2.threads)) = [(8, 0, [1])] ∧ did (.binTimer 2 0) s1 = s1 ∧
     (did (.binTimer 2 0) s2).wgs.map (fun g => (g.2.size, g.2.die)) = [(1, 2)] ∧ ((did (.binTimer 2 0) s2).die 2).bins.map (·.2.threads) = [[]]) := by decide
/-- The workgroup with four members at its named barrier 0. -/
def gHb : WG := { g1 with hbars := [(0, ⟨0, 4, 4, []⟩)] }

theorem test_named_barriers :
    ((did (.hbArr 7 6) (onS (tS 0 0 0) gHb)).hbarOf 1 false 0).pend = 3 ∧ (did (.hbWait 7 6) (onS (tS 0 0 0) g1)).me.pc = 4 ∧
    (did (.hbSync 7 6) (onS (tS 0 0 0) gHb)).me.wait = some (.hbar false 0) ∧ (did (.hbArr 7 6) (onS (tS 4 0 0) g1)).me.cause.code = 0x26 ∧
    (did (.hbArr 7 6) (onL (tL 0 0 0))).me.cause.code = 0x07 := by decide

/-- A workgroup of one thread that waits for its placement on DIE_ID 2. -/
def sReleased : State :=
  { onL { tL 0 0 0 with place := .queue 2, wg := 1 } with wgs := [(1, { WG.init with die := 2, size := 1, st := .released, regs := 4 * 128 })] }
theorem test_placement :
    (let s := did (.workgroupPlace 1) sReleased
     (s.wg 1).st = .run ∧ (s.wg 1).core / 64 = 2 ∧ (s.wg 1).slots.length = 1) := by decide
theorem test_queues :
    (let s : State := { onL { tL 9 0 0 with place := .flight, move := some ⟨0, 5, 4, 0⟩ } with
       msgs := [.thread 0 1], dies := [(0, { Die.init with arq := ⟨0x4000, true, 4, 2, 1⟩ })] }
     let s' := did (.arrivalQueueWrite 0) s
     s'.threads = [] ∧ s'.msgs = [] ∧ (s'.die 0).arq.head = 3 ∧ s'.mem.readN (0x4000 + 2 * 1024 + 48) 8 = 9) ∧
    (let s : State := { onS { tS 0 0 0 with ending := some .fatal, wait := some .exitQueue, left := true } g1 with
       dies := [(2, { Die.init with exq := ⟨0x4000, true, 8, 0, 0⟩ })] }
     let s' := did (.exitQueueWrite 1) s
     s'.threads = [] ∧ (s'.die 2).exq.head = 1 ∧ s'.mem.readN 0x4000 8 = 77 ∧ s'.mem.readN 0x4008 8 = 2 ^ 18) := by decide

/-! ### Coherence requests -/

theorem test_coherence :
    (let s := did (.getX 0 0x1008) State.reset
     s.holds 0 0x1000 = some .m ∧ (did (.getS 1 0x1000) s).holds 0 0x1000 = some .o ∧ (did (.getS 1 0x1000) s).holds 1 0x1000 = some .s ∧
     (did (.upgrade 1 0x1000) (did (.getS 1 0x1000) s)).holds 0 0x1000 = none ∧ (did (.putM 0 0x1000) s).holds 0 0x1000 = none ∧
     (did (.putO 0 0x1000) (did (.getS 1 0x1000) s)).holds 0 0x1000 = none ∧ did (.putE 0 0x1000) s = s ∧
     (did (.atHome 1 0x1000) s).copies = [] ∧ (did (.slabEvict (slabOf 0x1000) 0x1000) s).copies = []) ∧
    (did (.getS 3 0x1000) State.reset).holds 3 0x1000 = some .e ∧ (did (.putE 3 0x1000) (did (.getS 3 0x1000) State.reset)).copies = [] ∧
    (did (.silentEviction 3 0x1000) { State.reset with copies := [(copyKey 3 0x1000, ⟨.s, 0, 0⟩)] }).copies = [] ∧
    (let s := did (.getU 2 0x1000 .add true) State.reset
     s.copy 2 0x1000 = some ⟨.u, 0, 0⟩ ∧ (did (.putU 2 0x1000) s).copies = []) ∧
    (did (.privEvictReport 2 0x1000) { State.reset with copies := [(copyKey 2 0x1000, ⟨.m, 0, 0⟩)], dir := [(0x1000, ⟨.p, 2, 0, 0, none⟩)] }).copies = [] := by decide
/-- 05 R105: a partial of 5 at word 1 of the sector is added to what memory holds. -/
theorem test_partial_applied :
    ((did (.putU 2 0x1000) { State.reset with
       mem := [(0x1008, 3)], copies := [(copyKey 2 0x1000, ⟨.u, 5 * 2 ^ 64, 0xFFFF⟩)], dir := [(0x1000, ⟨.u, 0, 1, 0, some (.add, true)⟩)] }).mem.readN 0x1008 8) = 8 := by decide

/-! ### Marks -/

/-- Entry 3 of the mark table of DIE_ID 2. -/
def mk3 : Word := markWord 2 3 0
/-- A mark of ASID 0 held by nobody in particular. -/
def mark0 : Mark := ⟨.pending, 0, 0, true, 0, 2, 0, 0, [], [], none, false, 0⟩
/-- An invocation of ENTRY 0x100 with two arguments. -/
def inv0 : Inv := ⟨0x100, 0, false, 0, [5, 6, 0, 0, 0, 0], 0, 0, 0x202, 0, 0, none, none, 0, false⟩
/-- The boot thread with that mark in x6 and an index in x7. -/
def sMark (e : Mark) (k : Word) : State :=
  { onL (tL mk3 k 0) with dies := [(2, { Die.init with marks := [(3, e)], idwEn := true, idwTable := 0x300000 })], mem := Store.writeN (Store.writeN [] 0x300000 8 100) 0x300008 8 8 }

theorem test_mark_reads :
    (did (.mkwait 7 5 6) (sMark mark0 0)).me.wait = some (.mark 2 3 0) ∧ (did (.mktest 7 1 6) (sMark mark0 0)).me.getP 1 = false ∧
    (did (.mkget 7 5 6 7) (sMark { mark0 with st := .resolved, result := [10, 11, 12, 13, 14, 15, 16, 17] } 7)).me.getX 5 = 17 ∧
    (did (.mkget 7 5 6 7) (sMark { mark0 with st := .broken, cause := -4, origin := 99 } 9)).me.getX 5 = 99 ∧
    (did (.mkget 7 5 6 7) (sMark { mark0 with st := .broken, cause := -4, origin := 99 } 8)).me.getX 5 = -4 ∧
    (did (.mkgetT 7 5 6 7) (sMark { mark0 with st := .broken, cause := -4 } 0)).me.cause.code = 0x2C ∧
    (did (.mkwait 7 5 6) (sMark { mark0 with st := .resolved, result := [1] } 0)).me.getX 5 = 0 ∧
    (did (.mkwait 7 5 6) (sMark { mark0 with asid := 1 } 0)).me.getX 5 = -1 ∧ (did (.mktest 7 1 6) (sMark { mark0 with asid := 1 } 0)).me.getP 1 = true := by decide
theorem test_mark_drop :
    ((did (.mkdrop 7 6) (sMark mark0 0)).markAt mk3).map (·.held) = some false ∧ ((did (.mkdrop 7 6) (sMark { mark0 with holder := 8 } 0)).markAt mk3).map (·.held) = some true := by decide
theorem test_mkret :
    (let s := sMark mark0 0
     let s1 := did (.mkret 7) { s with threads := [(1, { tS 0 0 0 with mark := some mk3.toNat })] }
     (s1.markAt mk3).map (·.st) = some .resolved ∧ s1.me.pc = 4 ∧ s1.me.resolved = true ∧ s1.msgs = []) ∧
    (did (.mkret 7) (onL (tL 0 0 0))).me.pc = 4 ∧ (did (.rinv 7 5 6 7) (onS { tS 0 0x2000 0 with remote := List.replicate 63 (9, false) } g1)).me.wait = some (.accept (.rinv 7 5 6 7)) := by decide
theorem test_mark_messages :
    (let s := did (.markResolve 0) { sMark mark0 0 with msgs := [.resolve mk3 3 [7]] }
     (s.markAt mk3).map (fun e => (e.st, e.site, e.result)) = some (.resolved, 3, [7]) ∧ s.msgs = []) ∧
    (let s := did (.markBreak 0) { sMark mark0 0 with msgs := [.broke mk3 (-4) mk3] }
     (s.markAt mk3).map (fun e => (e.st, e.cause)) = some (.broken, -4)) ∧
    (let s := did (.rinvEnqueue 0) { sMark mark0 0 with
       dies := [(2, { Die.init with marks := [(3, mark0), (4, { mark0 with inv := some { inv0 with place := mk3 } })] })], msgs := [.enqueue (markWord 2 4 0) mk3] }
     (s.markAt mk3).map (·.queue) = some [markWord 2 4 0] ∧ s.msgs = []) ∧
    (let s := did (.threadArrival 0) { sMark { mark0 with inv := some inv0 } 0 with msgs := [.invoke 2 mk3] }
     (s.threads.map fun t => (t.2.tid, t.2.pc, t.2.getX 10, t.2.getX 11)) = [(0, 0, 0, 0), (100, 0x100, 5, 6)]) := by decide

/-! ### Pre-emption -/

/-- The workgroup in a state of pre-emption. -/
def sPre (st : WState) (m : Method) : State := onS (tS 5 0 0) { g1 with st := st, method := m, size := 1, spad := [(3, 4)] }
theorem test_preempt_request :
    (let s := did (.prqCmdIssue 2) { sPre .run .save with dies := [(2, { Die.init with prq := ⟨0, 0, BitVec.ofNat 64 (2 ^ 63), 0xFFFFFFFF, 0, 0, 0⟩ })] }
     (s.die 2).prq.state = 3 ∨ (s.die 2).prq.state = 1) ∧
    did (.prqCmdIssue 0) State.reset = State.reset ∧ ((did (.prqCmdIssue 2) State.reset).die 2).prq.state = 3 := by decide
theorem test_save_and_restore :
    ((did (.workgroupStopped 1) (sPre .stop .save)).wg 1).st = .save ∧ ((did (.saveCommit 1) (sPre .save .save)).wg 1).st = .saved ∧
    (did (.saveCommit 1) (sPre .save .save)).me.place = .saved ∧ ((did (.saveCommit 1) (sPre .save .save)).wg 1).spad = [(3, 4)] ∧
    (let s := did (.restoreStart 1) (did (.saveCommit 1) (sPre .save .save))
     (s.wg 1).st = .restore ∧ (s.wg 1).core / 64 = 2 ∧ ((did (.restoreComplete 1) s).wg 1).st = .run ∧ (did (.restoreComplete 1) s).me.getX 6 = 5) ∧
    did (.drainDeadline 1) (sPre .run .drain) = sPre .run .drain := by decide
theorem test_drain_deadline :
    ((did (.drainDeadline 1) (onS (tS 0 0 0) { g1 with st := .drain, method := .drain, bound := 10 })).wg 1).st = .stop ∧
    ((did (.drainDeadline 1) (onS (tS 0 0 0) { g1 with st := .drain, method := .drain, bound := 0xFFFFFFFF })).wg 1).st = .drain := by decide

/-! ### Governor, health, ports -/

theorem test_courses :
    ((did (.shuntTrip 16) State.reset).course 16).floorOnly = true ∧ did (.shuntTrip 3) State.reset = State.reset ∧
    ((did (.coursePwrOffReq 16) State.reset).course 16).pwr = 0x10 ∧ ((did (.coursePwrBypReq 16 2) State.reset).course 16).pwr = 0x0A ∧
    ((did (.coursePwrNtReq 16) State.reset).course 16).pwrWait = some 2 ∧
    ((did (.courseModeChange 16) { State.reset with courses := [(16, { Course.init with pwr := 0x10, pwrWait := some 0 })] }).course 16).mode = .offline ∧
    ((did (.syntheticGroutSlot 128) { State.reset with courses := [(16, { Course.init with want := [100, 0, 0, 0] })] }).course 16).groutCnt = 1 ∧
    did (.syntheticGroutSlot 128) State.reset = State.reset ∧
    ((did (.governorSample 16) { State.reset with courses := [(16, { Course.init with mode := .offline, clock := 64 })] }).course 16).clock = 0 := by decide
theorem test_units :
    (did (.unitDrain (.core 128)) State.reset).service (.core 128) = (1, 0) ∧ (did (.unitOffline (.core 128)) (did (.unitDrain (.core 128)) State.reset)).service (.core 128) = (2, 0) ∧
    (did (.unitOnline (.core 128)) { State.reset with units := [(.core 128, 2, 0)] }).service (.core 128) = (0, 0) ∧
    (did (.unitRetire (.core 128)) { State.reset with units := [(.core 128, 2, 0)] }).service (.core 128) = (3, 0) ∧
    did (.unitRetire (.core 128)) State.reset = State.reset ∧ (did (.unitRetire (.stack 0 1)) State.reset).service (.stack 0 1) = (3, 0) := by decide
theorem test_capture_units :
    (let s := did (.monSample 2 1 5) { State.reset with dies := [(2, { Die.init with mons := [(1, { Mon.init with ctl := 0x43 })] })] }
     ((s.die 2).mon 1).max = 5 ∧ ((s.die 2).mon 1).count = 1 ∧ tget ((s.die 2).mon 1).bins 5 = some 1 ∧
     ((did (.monSnap 2 1) s).die 2).mon 1 = { Mon.init with ctl := 0x43, shadow := (5, 5, 1, [(5, 1)]) }) ∧ did (.monSample 2 1 5) State.reset = State.reset := by decide
theorem test_quadrants_and_links :
    did (.quadrantOvercurrent 0 3) State.reset = State.reset ∧
    ((did (.qstatClearOff 2 3) { State.reset with dies := [(2, { Die.init with quads := [(3, ⟨0, true, true, 1⟩)] })] }).course 22).mode = .normal ∧
    ((did (.ucieFlitRetry 2 0) State.reset).die 2).errCe = 1 ∧ (did (.ucieRetrainFail 2) State.reset).service (.die 2) = (2, 0) ∧
    ((tget ((did (.flitReceive 0 5 false) State.reset).pkg 0).links 5).map (·.replays)) = some 1 ∧
    ((tget ((did (.linkPortDown 0 5) { State.reset with pkgs := [(0, { Pkg.init with links := [(5, ⟨true, 1, 2, 0⟩)] })] }).pkg 0).links 5).map (·.up)) = some false ∧
    ((did (.ethernetLinkChange 0 1 true) State.reset).port 0 1).up = true ∧ (did (.linkTimeout 1) State.reset).late = some 1 := by decide
/-- 19 R428, R435, R436: where an opaque value of the device decides, the test takes it as it comes. -/
theorem test_quadrant_shuts : Config.quadSaved 0 = true → ((did (.quadrantOvercurrent 2 3) State.reset).course 22).mode = .offline := by
  intro h
  simp only [did, exec, execQuadrantOvercurrent, show Config.quadSaved State.reset.seq = true from h]
  decide
theorem test_firmware : (did (.firmwareUpdate 1 7) State.reset) = State.reset := by decide
theorem test_power_on : (did (.powerOn 16) State.reset) = State.reset := by decide

/-- Port 0 of package 0, running, with a ring of 16 entries at 0x8000 and queue pair 9. -/
def sPort (e m : Nat) : State :=
  { State.reset with
    mem := Store.writeN (Store.writeN [] 0x8000 8 e) 0x8008 8 m
    pkgs := [(0, { Pkg.init with ports := [(0, { Port.init with
      en := true, up := true, rx := [(0, ⟨0x8000, true, 4, 0, 1⟩)], tx := [(0, ⟨0x8000, true, 4, 0, 1⟩)], qps := [(9, ⟨0, 1, 5, 4096⟩)] })] })] }
theorem test_ports :
    ((did (.frameReceive 0 0 [1, 2, 3]) { sPort 0 0 with pkgs := [(0, { Pkg.init with ports := [(0, { Port.init with en := true, up := true })] })] }).port 0 0).drop = 1 ∧
    ((tget ((did (.frameReceive 0 0 [1, 2, 3]) (sPort 0x9000 64)).port 0 0).rx 0).map (·.head)) = some 1 ∧
    ((did (.frameTransmit 0 0 0) (sPort 0x8000 (64 + 2 * 2 ^ 16))).port 0 0).sent = [[0x00, 0x80]] ∧ did (.frameTransmit 0 0 1) (sPort 0 0) = sPort 0 0 ∧
    ((did (.roceAtomic 0 0 9) (sPort 0 0)).port 0 0).replies = [(9, 2, [])] ∧ ((did (.roceSend 0 0 9 [1]) (sPort 0x9000 64)).port 0 0).replies = [(9, 0, [])] ∧
    ((did (.roceSendImm 0 0 9 [1]) (sPort 0x9000 64)).port 0 0).replies = [(9, 0, [])] ∧ ((did (.roceRdmaWrite 0 0 9 3 0 [1]) (sPort 0 0)).port 0 0).replies = [(9, 1, [])] := by decide
theorem test_rdma :
    (let s : State := { sPort 0x9000 64 with pkgs := [(0, { Pkg.init with ports := [(0, { Port.init with
       en := true, up := true, qps := [(9, ⟨0, 1, 5, 4096⟩)], regions := [(3, ⟨0, 0, 0x9000, 64, true, true⟩)] })] })] }
     ((did (.roceRdmaRead 0 0 9 3 0x9000 8) s).port 0 0).replies.map (·.2.1) = [1] ∧ ((did (.roceRdmaRead 0 0 9 3 0x9000 65) s).port 0 0).replies.map (·.2.1) = [1] ∧
     ((did (.roceReadResponse 0 0 9 2 0x9000 [1]) s).port 0 0).replies.map (·.2.1) = [1] ∧ did (.roceRdmaWriteImm 0 0 8 3 0 [1]) s = s) := by decide

/-! ### Control registers -/

theorem test_control_space :
    ((did (.controlRegisterWrite (0xFF * 2 ^ 40 + 0x00100008) 8 0x55) State.reset).ctx 0).irqEn = 0x55 ∧
    ((did (.softSet 0 0x40000) State.reset).ctx 0).irqSoft = 4 ∧ ((did (.softClr 0 0x40000) (did (.softSet 0 0x40000) State.reset)).ctx 0).irqSoft = 0 ∧
    ((did (.govCtlWrite 16 5) State.reset).course 16).govNext = some 5 ∧ ((did (.boostMaxWrite 16 9999) State.reset).course 16).boostNext = some 1900 ∧
    ((did (.migProfWrite 2 5) State.reset).die 2).profile.fill = 8 ∧ ((did (.exqCtlWrite 2 0x11) State.reset).die 2).exq.en = true ∧
    ((did (.arqCtlWrite 0 7) State.reset).die 0).arq.en = false ∧ ((did (.arqCtlWrite 0 9) State.reset).die 0).arq.en = true ∧
    (tget ((did (.ringCtlWrite 0 3 9) State.reset).port 0 0).rx 3).map (·.en) = some true ∧
    ((did (.timeStep 0 100) State.reset).pkg 0).time = 100 ∧ 
    (let s : State := { State.reset with
       threads := [(1, { tL 0 0 0 with wait := some .wfi })], ctxs := [(0, { Ctx.init with thread := some 1, timecmp := 7, irqEn := 2 ^ 63 - 1 })], pkgs := [(0, { Pkg.init with time := 7 })] }
     ((did (.timecmpReached 0) s).thr 1).wait = none ∧ ((did (.timecmpReached 0) { s with pkgs := [(0, { Pkg.init with time := 6 })] }).thr 1).wait = some .wfi) := by decide
theorem test_identifier_window :
    (let s : State := { State.reset with dies := [(2, { Die.init with idwEn := true, idwTable := 0x300000, idwAsid := 1, idwBase := 9, idwRemain := 3 })] }
     (did (.idwCmdReplace 2) s).mem = [(0x300010, 9), (0x300018, 3)] ∧ ((did (.idwCmdRead 2) s).die 2).idwBase = 0 ∧
     ((did (.idwTableWrite 2 0) s).die 2).idwEn = false) ∧
    ((did (.idwTableWrite 2 0x100001) State.reset).die 2).idwTable = 0x100000 := by decide

/-! ### States and operands that meet the hypotheses of the claims -/

/-- The boot thread with 9 in x6 and a divisor or count in x7. -/
def wL (b : Word) : State := onL (tL 9 b 0)
/-- Its float registers: 1.0 in f6, 2.0 in f7 and f8. -/
def wF : State := onL (tF 0x3F800000 0x40000000 0x40000000)
/-- The thread. -/
def uF : Thread := tF 0x3F800000 0x40000000 0x40000000

theorem witness_DecodeOfEncode :
    (Instr.add 7 5 6 7).wf = true ∧ (encode (.add 7 5 6 7)).1 = 4 ∧ (Instr.br 7 0x100000).wf = true ∧ (encode (.br 7 0x100000)).1 = 4 ∧
    (Instr.li 7 5 0x80000000).wf = true ∧ (encode (.li 7 5 0x80000000)).1 = 8 := by decide
theorem witness_EncodeOfDecode :
    decode false 0x00E62D02 = .ok (.add 0b1010 5 6 7) ∧ decode true 0x00067014 = .ok (.loop 7 3) ∧
    decode false 0x001403032C062B8D = .ok (.ldX .d64 7 5 6 40 .acq .die 3 0) := by decide
theorem witness_FalseGuardIsNop :
    tget (onS (tS 0 0 0) g1).threads 1 = some (tS 0 0 0) ∧ (tS 0 0 0).onL = false ∧ (tS 0 0 0).inBudget (.x 31) = true ∧ (tS 0 0 0).guard 0 = false ∧
    (tS 0 0 0).guard 15 = false := by decide
theorem witness_FrameChecksInOrder :
    (tL 0 0 0).onL = true ∧ (tS 0 0 0).onL = false ∧ ({ tS 0 0 0 with role := ⟨0, true, 0, 0⟩ } : Thread).inBudget (.x 8) = false ∧
    ({ tS 0 0 0 with role := ⟨0, true, 0, 0⟩ } : Thread).inBudget (.x 7) = true ∧
    ({ tL 0 0 0 with pend := [⟨.x 6, none, 0, 1⟩] } : Thread).hazard [.x 6] = true ∧ (tL 0 0 0).guard always = true := by decide
theorem witness_RegistersAndWindows :
    (Dest.x 31 ≠ .x 0) ∧ Thread.quiet (tL 0 0 0) (.x 31) ∧ (0 : BitVec 3) ≠ 7 ∧
    ({ tL 0 0 0 with pend := [⟨.x 6, some 4, 1, 0⟩] } : Thread).pend.find? (·.dest == .x 6) = some ⟨.x 6, some 4, 1, 0⟩ ∧
    ({ tL 0 0 0 with force := true } : Thread).locked = true :=
  ⟨by decide, fun _ h => (List.not_mem_nil h).elim, by decide, by decide, by decide⟩
theorem witness_LoopEnds :
    (tL 0 0 0).mode = true ∧
    (let t : Thread := { tS 0 0 0 with pc := 8, lp0 := ⟨4, 8, 1⟩ }
     t.mode = false ∧ t.lp1.hit t.pc 4 = false ∧ t.lp0.hit t.pc 4 = true) ∧
    (let t : Thread := { tS 0 0 0 with pc := 8, lp0 := ⟨4, 8, 2⟩, lp1 := ⟨8, 8, 1⟩ }
     t.lp1.hit t.pc 4 = true ∧ t.lp1.count = 1 ∧ t.lp0.active = true ∧ t.lp0.last = t.lp1.last) ∧
    (let t : Thread := { tS 0 0 0 with pc := 8, lp0 := ⟨4, 12, 2⟩, lp1 := ⟨8, 8, 1⟩ }
     t.lp1.hit t.pc 4 = true ∧ t.lp0.last ≠ t.lp1.last) ∧
    (let t : Thread := { tS 0 0 0 with pc := 8, lp1 := ⟨8, 8, 0xFFFFFFFF⟩ }
     t.lp1.hit t.pc 4 = true ∧ t.lp1.count ≠ 1) := by decide
theorem witness_IntegerArithmetic : Runs (wL 4) (tL 9 4 0) always [.x 5, .x 6, .x 7] [.x 6, .x 7] := runs_of (by decide)
theorem witness_ShiftsAndRotates : Runs (wL 63) (tL 9 63 0) always [.x 0, .x 6, .x 7] [.x 6, .x 7] := runs_of (by decide)
theorem witness_MinMaxMultiplyDivide :
    (Runs (wL 0) (tL 9 0 0) always [.x 5, .x 6, .x 7] [.x 6, .x 7] ∧ (wL 0).srcX 1 7 = 0) ∧
    (Runs (wL 4) (tL 9 4 0) always [.x 5, .x 6, .x 7] [.x 6, .x 7] ∧ (wL 4).srcX 1 7 ≠ 0 ∧ (wL 4).srcX 0 6 ≠ BitVec.intMin 64) ∧
    (let s := onL (tL (BitVec.intMin 64) (-1) 0)
     Runs s (tL (BitVec.intMin 64) (-1) 0) always [.x 5, .x 6, .x 7] [.x 6, .x 7] ∧ s.srcX 0 6 = BitVec.intMin 64 ∧ s.srcX 1 7 = BitVec.allOnes 64) :=
  ⟨⟨runs_of (by decide), by decide⟩, ⟨runs_of (by decide), by decide, by decide⟩, runs_of (by decide), by decide, by decide⟩
theorem witness_ComparesAndPredicates :
    Runs (wL 4) (tL 9 4 0) always [.x 6, .x 7] [.x 6, .x 7] ∧ Runs (wL 4) (tL 9 4 0) always [.x 5, .x 6, .x 7] [.x 6, .x 7] ∧
    Runs (wL 4) (tL 9 4 0) always [] [] ∧ Runs (wL 4) (tL 9 4 0) always [.x 5] [] ∧ Runs (wL 4) (tL 9 4 0) always [.x 6] [.x 6] :=
  ⟨runs_of (by decide), runs_of (by decide), runs_of (by decide), runs_of (by decide), runs_of (by decide)⟩
theorem witness_ImmediatesAndConstants :
    Runs (wL 4) (tL 9 4 0) always [.x 5, .x 6] [.x 6] ∧ Runs (wL 4) (tL 9 4 0) always [.x 5] [] :=
  ⟨runs_of (by decide), runs_of (by decide)⟩
theorem witness_BitCountsAndFields :
    Runs (wL 4) (tL 9 4 0) always [.x 5, .x 6] [.x 6] ∧ Runs (wL 4) (tL 9 4 0) always [.x 5, .x 5, .x 6] [.x 5, .x 6] ∧ (wL 4).srcX 0 6 ≠ 0 ∧
    (onL (tL 0 0 0)).srcX 0 6 = 0 :=
  ⟨runs_of (by decide), runs_of (by decide), by decide, by decide⟩
theorem witness_FloatArithmetic :
    Runs wF uF always [.f 5, .f 6, .f 7] [.f 6, .f 7] ∧ Runs wF uF always [.f 5, .f 6, .f 7, .f 8] [.f 6, .f 7, .f 8] ∧ Runs wF uF always [.f 5, .f 6] [.f 6] :=
  ⟨runs_of (by decide), runs_of (by decide), runs_of (by decide)⟩
theorem witness_FloatBitsAndCompares :
    Runs wF uF always [.f 5, .f 6, .f 7] [.f 6, .f 7] ∧ Runs wF uF always [.f 5, .f 6] [.f 6] ∧ Runs wF uF always [.f 6, .f 7] [.f 6, .f 7] ∧
    Runs wF uF always [.x 5, .f 6] [.f 6] :=
  ⟨runs_of (by decide), runs_of (by decide), runs_of (by decide), runs_of (by decide)⟩
theorem witness_FloatFormatsAndSpecialCases :
    Elem.decode .f32 0x7FA00000 = .nan true ∧ (Elem.decode .f32 0x3F800000).isNan = false ∧ Elem.decode .bf16 0x7FC0 = .nan false := by decide
theorem witness_RoundingIsFaithful :
    (Elem.f32 ≠ .a8) ∧ (roundVal .f32 .ne (.num false 3 (-1))).2 = 0 ∧ (roundVal .f16 .tz (.num true 1 100)).2 ≠ 0 := by decide
theorem witness_PackedElements : ∀ i, i < FType.count .bf16x4 → ((fun j => ((0xFFFF - j, 0) : FRes)) i).1 < 2 ^ (FType.elem .bf16x4).width := by decide
theorem witness_FloatConversionsAndApproximations :
    (Runs wF uF always (.f 5 :: cvtRegs .f16x4 .f32x2 6 7) (cvtRegs .f16x4 .f32x2 6 7) ∧
      ∀ j, j < FType.count .f16x4 → (cvtElem .f16x4 .f32x2 (rndFor .frm 0) 0 (wF.srcF 0 6) (wF.srcF 1 7) 7 j).2 = false) ∧
    (let t := tF 0x7149F2CA3F800000 0 0
     Runs (onL t) t always (.f 5 :: cvtRegs .f16x4 .f32x2 6 7) (cvtRegs .f16x4 .f32x2 6 7) ∧
       (cvtElem .f16x4 .f32x2 .ne 3 ((onL t).srcF 0 6) ((onL t).srcF 1 7) 7 1).2 = true ∧
       (cvtElem .f16x4 .f32x2 .ne 3 ((onL t).srcF 0 6) ((onL t).srcF 1 7) 7 0).2 = false) ∧
    Runs wF uF always [.x 5, .f 6] [.f 6] ∧ Runs wF uF always [.f 5, .x 6] [.x 6] ∧ Runs wF uF always [.f 5, .f 6] [.f 6] ∧
    (Elem.decode .f32 0x7149F2CA = .num false 13234890 76 ∧ (roundMag .f16 .ne false 13234890 76 false).2 = true ∧ convPolicy .f32 .f16 = true) ∧
    fexp2E ∈ [fexp2E, flog2E, sinpE false, sinpE true] :=
  ⟨⟨runs_of (by decide), by decide⟩, ⟨runs_of (by decide), by decide, by decide⟩, runs_of (by decide), runs_of (by decide), runs_of (by decide), by decide,
    List.mem_cons_self⟩
theorem witness_PairWordSlots :
    (Instr.pairWord 7 .add 5 6 7 0 .fmaS 5 6 7 8).wf = true ∧
    Runs wF uF always (slotARegs .add 5 6 7 ++ slotDRegs .fmaS 5 6 7 8) (slotASrc .add 6 7 ++ slotDSrc .fmaS 6 7 8) ∧
    (Instr.pairWord 7 (.cmp .lt) 1 6 7 0 .fmvX 5 6 0 0).wf = true ∧
    Runs wF uF always (slotARegs (.cmp .lt) 1 6 7 ++ slotDRegs .fmvX 5 6 0 0) (slotASrc (.cmp .lt) 6 7 ++ slotDSrc .fmvX 6 0 0) :=
  ⟨by decide, runs_of (by decide), by decide, runs_of (by decide)⟩

/-! #### Lane operations, transfers, traps and control registers -/

/-- Two threads of the workgroup, on lanes 0 and 1, the second with an arrival. -/
def sTwo (a : Option Arrival) : State :=
  { onS (tS 5 2 0) g1 with threads := [(1, tS 5 2 0), (2, { tS 9 1 0 with lane := 1, place := .slot 128 0 1 0, arrival := a })] }

theorem witness_LaneOpsAlone :
    (Runs (onL (tL 5 1 0)) (tL 5 1 0) always [.x 5, .x 6, .x 7] [.x 6, .x 7] ∧ (tL 5 1 0).onL = true ∧ ((onL (tL 5 1 0)).srcX 1 7).toNat < 2) ∧
    (Runs (onL (tL 5 2 0)) (tL 5 2 0) always [.x 5, .x 6, .x 7] [.x 6, .x 7] ∧ 2 ≤ ((onL (tL 5 2 0)).srcX 1 7).toNat) ∧
    (Runs (onS (tS 5 1 0) g1) (tS 5 1 0) always [.x 5, .x 6, .x 7] [.x 6, .x 7] ∧ (tS 5 1 0).onL = false ∧ (tS 5 1 0).laneWait = none ∧
      named (tS 5 1 0).lane ((onS (tS 5 1 0) g1).srcX 1 7) = []) ∧
    Runs (onS (tS 5 1 0) g1) (tS 5 1 0) always [.f 5, .f 6, .x 7] [.f 6, .x 7] ∧ Runs (onS (tS 5 1 0) g1) (tS 5 1 0) always [.x 5, .x 7] [.x 7] :=
  ⟨⟨runs_of (by decide), by decide, by decide⟩, ⟨runs_of (by decide), by decide⟩, ⟨runs_of (by decide), by decide, by decide, by decide⟩,
    runs_of (by decide), runs_of (by decide)⟩
theorem witness_LaneOpsMeetOrWait :
    (let s := sTwo (some ⟨0, true, 9, []⟩)
     Runs s (tS 5 2 0) always [.x 5, .x 6, .x 7] [.x 6, .x 7] ∧ named (tS 5 2 0).lane (s.srcX 1 7) = [1] ∧ s.laneOf 1 1 = some 2 ∧ (2 : Nat) ≠ s.cur ∧
     (s.thr 2).arrival = some ⟨(tS 5 2 0).pc, true, 9, []⟩ ∧ (tS 5 2 0).lane ∉ ([] : List Nat) ∧ (tS 5 2 0).laneWait = none ∧
     Runs s (tS 5 2 0) always [.f 5, .f 6, .x 7] [.f 6, .x 7] ∧ Runs s (tS 5 2 0) always [.x 5, .x 7] [.x 7]) ∧
    (sTwo none).laneOf 1 1 = some 2 ∧ ((sTwo none).thr 2).arrival = none ∧ Runs (sTwo none) (tS 5 2 0) always [.x 5, .x 6, .x 7] [.x 6, .x 7] ∧
    (tS 5 2 0).guard 0 = false ∧
    (let lw : LaneWait := ⟨.lxch false 7 5 6 7 1 0, 0, [1], [], false, none, []⟩
     let t : Thread := { tS 5 2 0 with wait := some .lane, laneWait := some lw }
     tget (onS t g1).threads 1 = some t ∧ t.laneWait = some lw) :=
  ⟨⟨runs_of (by decide), by decide, by decide, by decide, by decide, by decide, by decide, runs_of (by decide), runs_of (by decide)⟩,
    by decide, by decide, runs_of (by decide), by decide, by decide⟩
theorem witness_Transfers :
    (Runs (wL 4) (tL 9 4 0) always [] [] ∧ (tL 9 4 0).mode = true) ∧ Runs (wL 4) (tL 9 4 0) always [.x 6] [.x 6] ∧ Runs (wL 4) (tL 9 4 0) always [.x 1] [.x 1] ∧
    Runs (wL 4) (tL 9 4 0) always [.x 6, .x 6] [.x 6] ∧
    (Runs (onS (tS 0 0 0) g1) (tS 0 0 0) always [] [] ∧ (tS 0 0 0).mode = false) :=
  ⟨⟨runs_of (by decide), by decide⟩, runs_of (by decide), runs_of (by decide), runs_of (by decide), runs_of (by decide), by decide⟩
theorem witness_HardwareLoops :
    (Runs (wL 4) (tL 9 4 0) always [.x 6] [.x 6] ∧ (tL 9 4 0).mode = true) ∧
    (let t := tS 0 0 0
     Runs (onS t g1) t always [.x 6] [.x 6] ∧ t.mode = false ∧ t.lp0.count = 0 ∧ t.lp1.count = 0 ∧ ((onS t g1).srcX 0 6).toNat = 0) ∧
    (let t := tS 0xFFFFFFFF 0 0
     Runs (onS t g1) t always [.x 6] [.x 6] ∧ ((onS t g1).srcX 0 6).toNat < 2 ^ 32) ∧
    (let t := tS 0x100000000 0 0
     Runs (onS t g1) t always [.x 6] [.x 6] ∧ 2 ^ 32 ≤ ((onS t g1).srcX 0 6).toNat) ∧
    (let t : Thread := { tS 3 0 0 with lp0 := ⟨0, 20, 2⟩ }
     Runs (onS t g1) t always [.x 6] [.x 6] ∧ t.lp0.count ≠ 0 ∧ t.lp1.count = 0 ∧ t.pc + BitVec.ofNat 64 (4 * 5) ≤ t.lp0.last ∧
       t.lp0.last < t.pc + BitVec.ofNat 64 (4 * 6) ∧ t.lp0.last ≠ t.pc) ∧
    (let t : Thread := { tS 3 0 0 with lp0 := ⟨0, 20, 2⟩, lp1 := ⟨0, 8, 1⟩ }
     Runs (onS t g1) t always [.x 6] [.x 6] ∧ Runs (onS t g1) t always [] [] ∧ t.lp0.count ≠ 0 ∧ t.lp1.count ≠ 0) :=
  ⟨⟨runs_of (by decide), by decide⟩, ⟨runs_of (by decide), by decide⟩, ⟨runs_of (by decide), by decide⟩, ⟨runs_of (by decide), by decide⟩,
    ⟨runs_of (by decide), by decide⟩, runs_of (by decide), runs_of (by decide), by decide⟩
theorem witness_TrapEntry :
    (tget (wL 4).threads (wL 4).cur = some (tL 9 4 0) ∧ (tL 9 4 0).laneWait = none ∧ (tL 9 4 0).atTvec = false ∧ (wL 4).gang = none) ∧
    (let t : Thread := { tS 0 0 0 with atTvec := true }
     tget (onS t g1).threads 1 = some t ∧ t.atTvec = true ∧ ((onS t g1).die t.die).errHead - ((onS t g1).die t.die).errTail ≠ 256) ∧
    (({ Die.init with errHead := 256 } : Die).errHead - ({ Die.init with errHead := 256 } : Die).errTail = 256) ∧
    ({ onS (tS 0 0 0) g1 with gang := some ⟨[(1, 0)], [], [], 0, 0, 0, false, []⟩ } : State).gang = some ⟨[(1, 0)], [], [], 0, 0, 0, false, []⟩ := by decide
theorem witness_SystemCallsAndReturns :
    (Runs (wL 4) (tL 9 4 0) always [] [] ∧ (tL 9 4 0).onL = true ∧ (tL 9 4 0).mode = true ∧ (tL 9 4 0).deferred = none) ∧
    (let t := tS 0 0 0
     let s := onS t g1
     Runs s t always [] [] ∧ t.onL = false ∧ t.mode = false ∧ s.lCoreOn t.pkg = true ∧ t.reports = [] ∧ t.deferred = none ∧ t.ops = [] ∧ t.pend = [] ∧
       s.rinvOut t.tid = false) ∧
    (let t : Thread := { tS 0 0 0 with deferred := some 8 }
     Runs (onS t g1) t always [] [] ∧ t.deferred = some 8) :=
  ⟨⟨runs_of (by decide), by decide⟩, ⟨runs_of (by decide), by decide⟩, runs_of (by decide), by decide⟩
theorem witness_WaitsAndInterrupts :
    (Runs (onS (tS 0 0 0) g1) (tS 0 0 0) always [] [] ∧ (tS 0 0 0).mode = false) ∧ (Runs (wL 4) (tL 9 4 0) always [] [] ∧ (wL 4).wakes (tL 9 4 0) = false) ∧
    (let s : State := { wL 4 with ctxs := [(0, { Ctx.init with thread := some 1, irqSoft := 0x8000, irqEn := 0x80000000 })] }
     Runs s (tL 9 4 0) always [] [] ∧ s.wakes (tL 9 4 0) = true ∧ s.irqSource 0 = some 31 ∧ (s.ctx 0).thread = some 1 ∧ s.coreOn (coreOfCtx 0 0) = true ∧
       s.takesAsync 1 = true ∧ (s.ctx 0).hold = false) ∧
    ({ Ctx.init with hold := true } : Ctx).hold = true ∧
    (let t : Thread := { tS 0 0 0 with wait := some .wfi }
     let s : State := { onS t g1 with courses := [(16, { Course.init with cycles := 65536 })] }
     tget s.threads 1 = some t ∧ t.wait = some .wfi ∧ t.onL = false ∧ s.clocksLeft 1 = 0 ∧ (onS t g1).clocksLeft 1 ≠ 0 ∧ s.takesAsync 1 = true ∧ t.mode = false) ∧
    (({ tS 0 0 0 with mode := true } : Thread).mode = true) ∧
    (let t : Thread := { tL 0 0 0 with pend := [⟨.x 5, some 9, 3, 0⟩] }
     tget (onL t).threads 1 = some t ∧ t.pend[0]? = some ⟨.x 5, some 9, 3, 0⟩) :=
  ⟨⟨runs_of (by decide), by decide⟩, ⟨runs_of (by decide), by decide⟩, ⟨runs_of (by decide), by decide⟩, by decide, by decide, by decide, by decide⟩
theorem witness_ControlRegisterAccess :
    (Runs (wL 4) (tL 9 4 0) always [.x 5] [] ∧ Runs (wL 4) (tL 9 4 0) always [.x 6] [.x 6] ∧ (tL 9 4 0).mode = true) ∧
    (Runs (onS (tS 0 0 0) g1) (tS 0 0 0) always [.x 5] [] ∧ Runs (onS (tS 0 0 0) g1) (tS 0 0 0) always [.x 6] [.x 6] ∧ (tS 0 0 0).mode = false) ∧
    ((0x800 : BitVec 12).toNat / 1024 = 2 ∧ (0xBFF : BitVec 12).toNat / 1024 = 2 ∧ (0xC00 : BitVec 12).toNat / 1024 ≠ 2 ∧ (0x3FF : BitVec 12).toNat < 1024 ∧
      1024 ≤ (0x400 : BitVec 12).toNat) :=
  ⟨⟨runs_of (by decide), runs_of (by decide), by decide⟩, ⟨runs_of (by decide), runs_of (by decide), by decide⟩, by decide⟩
theorem witness_ControlRegisterFields :
    tget (wL 4).threads (wL 4).cur = some (tL 9 4 0) ∧ (tL 9 4 0).onL = true ∧ tget (onS (tS 0 0 0) g1).threads 1 = some (tS 0 0 0) ∧ (tS 0 0 0).onL = false ∧
    0xC00 ≤ (0xC00 : BitVec 12).toNat ∧ (Loop.checked ⟨4, 8, 1⟩).count ≠ 0 ∧ (Loop.mk 4 8 0).count = 0 := by decide

/-! #### Memory -/

theorem witness_LoadForms :
    Runs (onL (tL 0x1000 4 0)) (tL 0x1000 4 0) always [.x 5, .x 6] [.x 6] ∧ Runs (onL (tL 0x1000 4 0)) (tL 0x1000 4 0) always [.x 5, .x 6, .x 7] [.x 6, .x 7] ∧
    (255 < 256 ^ LdSize.s8.bytes ∧ 2 ^ 64 - 1 < 256 ^ LdSize.d64.bytes) :=
  ⟨runs_of (by decide), runs_of (by decide), by decide⟩
theorem witness_StoreForms :
    (let t := tL 0x1000 4 0
     Runs (onL t) t always [.x 5, .x 6] [.x 5, .x 6] ∧ Runs (onL t) t always [.x 5, .x 6, .x 7] [.x 5, .x 6, .x 7] ∧ t.deferred = none) ∧
    (let t : Thread := { tL 0x1000 4 0 with deferred := some 0x40 }
     Runs (onL t) t always [.x 5, .x 6] [.x 5, .x 6] ∧ t.deferred = some 0x40 ∧ (Order.acq ≠ .rel ∧ Order.acq ≠ .acqRel)) :=
  ⟨⟨runs_of (by decide), runs_of (by decide), by decide⟩, runs_of (by decide), by decide⟩
/-- The workgroup with a page of scratchpad and a barrier object at 16. -/
def gTag : WG := { g1 with tags := [16] }
theorem witness_FloatAndScratchpadForms :
    (let t := tL 0xFFFFFFFFFFC00000 0 0
     Runs (onL t) t always [.f 5, .x 6] [.x 6] ∧ Runs (onL t) t always [.f 5, .x 6] [.f 5, .x 6] ∧ t.onL = true ∧ t.deferred = none ∧ inWindow (t.getX 6) = true ∧
       (t.getX 6).toNat % 8 = 0 ∧ inWindow (t.getX 6 - 4) = false ∧ (t.getX 6 + 1).toNat % 4 ≠ 0 ∧ inWindow (t.getX 6 + 1) = true) ∧
    (let t := tS 0xFFFFFFFFFFFFFFF8 0 0
     Runs (onS t g1) t always [.f 5, .x 6] [.x 6] ∧ Runs (onS t g1) t always [.f 5, .x 6] [.f 5, .x 6] ∧ t.onL = false ∧ inWindow (t.getX 6) = true ∧
       (t.getX 6).toNat % 8 = 0) ∧
    (let t := tS 4088 0 0
     Runs (onS t gTag) t always [.x 5, .x 6] [.x 6] ∧ Runs (onS t gTag) t always [.x 5, .x 6] [.x 5, .x 6] ∧
       4088 + 8 ≤ ((onS t gTag).wg 1).spPages * 4096 ∧ ((onS t gTag).wg 1).spPages * 4096 < 4096 + 8 ∧
       4088 / 16 * 16 ∉ ((onS t gTag).wg 1).tags ∧ 24 / 16 * 16 ∈ ((onS t gTag).wg 1).tags) :=
  ⟨⟨runs_of (by decide), runs_of (by decide), by decide⟩, ⟨runs_of (by decide), runs_of (by decide), by decide⟩, runs_of (by decide), runs_of (by decide), by decide⟩
/-- The context of the boot thread, of a user thread without tables, and of one with the tables at 0x100000. -/
def cL : MCtx := (tL 0 0 0).mctx 1
def cU : MCtx := (tS 0 0 0).mctx 1
def cT : MCtx := { cU with ptBase := 0x100001 }
/-- Those tables: one table of each level, and a leaf at 0x1000 with R, W, X and U. -/
def mTab : Memory :=
  Store.writeN (Store.writeN (Store.writeN (Store.writeN [] 0x100000 8 0x1100001) 0x110000 8 0x1200001) 0x120000 8 0x1300001) 0x130008 8 0x140003F
/-- A state with them. -/
def sTab : State := { onS (tS 0x1000 7 0) g1 with mem := mTab }

theorem calm0 (t : Thread) : (onL t).Calm := ⟨rfl, rfl, rfl⟩
theorem witness_AccessChecksAndErrors :
    (wL 4).Calm ∧ (wL 4).hitLoad .coh cL.ag 0x1000000000000 = false ∧ (wL 4).hitStore .coh cL.ag 0x1000000000000 = false ∧
    (wL 4).replica 0 0x1000000000000 = none ∧
    ((0x1001 : Word).toNat % 8 ≠ 0 ∧ (0x1000 : Word).toNat % 8 = 0) ∧
    (∃ s1, sTab.xlate cU 0x1000 .load = (s1, .fault 0x12)) ∧ (∃ s1, sTab.xlate cU 0x1000 .store = (s1, .fault 0x13)) ∧
    (∃ s1, sTab.xlate cU 0x1000 .rmw = (s1, .fault 0x13)) ∧
    (let va : Word := 0x1000000000000
     (∃ s1, (wL 4).xlate cL va .load = (s1, .ok va.toNat bareLeaf) ∧ (wL 4).xlate cL va .store = (s1, .ok va.toNat bareLeaf) ∧
       (wL 4).xlate cL va .rmw = (s1, .ok va.toNat bareLeaf)) ∧
     (wL 4).atCtrl (cL.ag / 512) va.toNat = false ∧ tget (wL 4).threads cL.who = some (tL 9 4 0) ∧
       (wL 4).memCode (cL.ag / 512) ((wL 4).fwd va.toNat) false = some 3) :=
  ⟨calm0 _, by decide, by decide, by decide, by decide, ⟨_, pair_of (by decide)⟩, ⟨_, pair_of (by decide)⟩, ⟨_, pair_of (by decide)⟩, ⟨wL 4, rfl, rfl, rfl⟩,
    by decide⟩
theorem reaches0 : Reaches (wL 4) cL 0x1000 bareLeaf := ⟨by decide, by decide, by decide, by decide, by decide, by decide, by decide⟩
/-- A load of the boot thread from 0x1000 into x5 that stays behind, with a number. -/
def heldLoad (id : Nat) : Held := ⟨id, cL, 0, 0, some (.ld .d64 7 5 6 0 0), false, false, .coh, 0x1000, 8, 0, 0, 0x1000, [], [], [], [], []⟩
theorem witness_LoadsAndStoresOnMemory :
    (wL 4).xlate cL 0x1000 .store = (wL 4, .ok 0x1000 bareLeaf) ∧ (wL 4).xlate cL 0x1000 .load = (wL 4, .ok 0x1000 bareLeaf) ∧ Reaches (wL 4) cL 0x1000 bareLeaf ∧
    (wL 4).Calm ∧ (wL 4).fwd 0x1000 % 8 = 0 ∧ tsorted (wL 4).copies = true ∧
    (∀ d ws, (wL 4).copy cL.ag (secOf ((wL 4).fwd 0x1000)) ≠ some ⟨.r, d, ws⟩) ∧ regionOf bareLeaf = .coh ∧ regionOf 0x3F = .priv ∧ regionOf 0xC3F = .rdup ∧
    (({ wL 4 with copies := [(copyKey 0 0x1000, ⟨.r, 5, 0⟩)] } : State).copy 0 0x1000 = some ⟨.r, 5, 0⟩) ∧
    (let s : State := { wL 4 with slabs := [(replicaKey 0 0x1000, ⟨true, 1, 9⟩)] }
     s.replica 0 0x1000 = some 9 ∧ s.copy 0 0x1000 = none) ∧
    (let s : State := { wL 4 with delay := some 1 }
     s.xlate cL 0x1000 .store = (s, .ok 0x1000 bareLeaf) ∧ s.stores = [] ∧ s.views = [] ∧ s.delay = some cL.who ∧ s.atCtrl 0 0x1000 = false ∧
       s.memCode 0 0x1000 false = none) ∧ Scope.sys ∈ [Scope.cl, .die, .pkg, .sys] ∧
    (let t : Thread := { tL 9 4 0 with pend := [⟨.x 5, none, 0, 7⟩] }
     let h : Held := heldLoad 7
     let s : State := { onL t with stores := [h] }
     s.stores = [h] ∧ h.spad = false ∧ h.ctrl = false ∧ h.i = some (.ld .d64 7 5 6 0 0) ∧ tget s.threads h.c.who = some t ∧
       t.pend = [⟨.x 5, none, 0, h.id⟩] ∧ ∃ s1 v, ({ s with stores := [] } : State).secLoad h.r h.c.ag h.addr h.n = (s1, .ok v)) :=
  ⟨rfl, rfl, reaches0, calm0 _, by decide, by decide, fun d ws h => (by cases h), by decide, by decide, by decide, by decide, by decide,
    ⟨rfl, rfl, rfl, rfl, by decide, by decide⟩, by decide, ⟨rfl, rfl, rfl, rfl, rfl, rfl, _, _, rfl⟩⟩
theorem witness_LoadAfterStore :
    let t := tL 0x1000 7 0
    Runs (onL t) t always [.x 7, .x 6] [.x 7, .x 6] ∧ t.inBudget (.x 5) = true ∧ t.pend = [] ∧ t.mode = true ∧ ptEn t.ptBase = false ∧
    (t.getX 6).toNat % 8 = 0 ∧ (t.getX 6).toNat < 2 ^ 52 ∧ Reaches (onL t) (t.mctx 1) 0x1000 bareLeaf ∧ (onL t).Calm ∧
    ∃ s1, exec (.st .b64 always 7 6 0 0) (onL t) = .next s1 :=
  ⟨runs_of (by decide), by decide, by decide, by decide, by decide, by decide, by decide, ⟨by decide, by decide, by decide, by decide, by decide, by decide, by decide⟩, calm0 _,
    ⟨_, rfl⟩⟩
theorem witness_AtomicForms :
    (let t := tL 0x1000 7 0
     Runs (onL t) t always [.x 5, .x 6, .x 7] [.x 6, .x 7] ∧ Runs (onL t) t always [.x 5, .x 6, .x 7] [.x 5, .x 6, .x 7] ∧ Runs (onL t) t always [.x 7, .x 6] [.x 7, .x 6] ∧
       Runs (onL t) t always [.f 7, .x 6] [.f 7, .x 6] ∧ t.deferred = none) ∧ RedOp.add ≠ RedOp.fadd :=
  ⟨⟨runs_of (by decide), runs_of (by decide), runs_of (by decide), runs_of (by decide), by decide⟩, by decide⟩
theorem witness_AtomicsOnMemory :
    (wL 4).xlate cL 0x1000 .rmw = (wL 4, .ok 0x1000 bareLeaf) ∧ Reaches (wL 4) cL 0x1000 bareLeaf ∧ (wL 4).xlate cL 0x1000 .store = (wL 4, .ok 0x1000 bareLeaf) ∧
    regionOf bareLeaf = .coh ∧ (wL 4).atCtrl 0 0x1000 = false ∧ (wL 4).memCode 0 0x1000 false = none ∧ ((wL 4).dirOf 0x1000).st ≠ .p ∧
    (wL 4).copy 0 0x1000 = none ∧ ((wL 4).dirOf 0x1000).uop = none ∧
    (let s := did (.getX 0 0x1000) (wL 4)
     s.holds 0 0x1000 = some .m ∧ (s.dirOf 0x1000).uop = none ∧ tsorted s.copies = true) ∧
    (let s := did (.getU 0 0x1000 .add true) (wL 4)
     s.copy 0 0x1000 = some ⟨.u, 0, 0⟩ ∧ (s.dirOf 0x1000).uop = some (.add, true) ∧ tsorted s.copies = true) :=
  ⟨rfl, reaches0, rfl, by decide⟩
theorem witness_PrefetchMonitorFence :
    (let t : Thread := { tL 0x1000 7 0 with wait := some (.wmon 0x1000 0x1000 false) }
     Runs (onL t) t always [.x 5, .x 6, .x 7] [.x 6, .x 7] ∧ t.wait = some (.wmon 0x1000 0x1000 false)) ∧
    (let t := tL 0x1000 7 0
     Runs (onL t) t always [.x 6] [.x 6] ∧ Runs (onL t) t always [.x 5, .x 6, .x 7] [.x 6, .x 7] ∧ Runs (onL t) t always [] [] ∧ t.deferred = none ∧ t.rel = none ∧
       (onL t).xlate (t.mctx 1) 0x1000 .load = (onL t, .ok 0x1000 bareLeaf) ∧
       (∃ s2, (onL t).physLoad (t.mctx 1) (regionOf bareLeaf) 0x1000 8 false = (s2, .ok 0)) ∧ 0 ≠ ((onL t).srcX 1 7).toNat ∧ 0 = ((onL t).srcX 1 8).toNat) ∧
    ((0x1004 : Word).toNat % 8 ≠ 0) ∧
    (let t : Thread := { tL 0 0 0 with wait := some (.wmon 0x1000 0x1000 false), rel := some 0 }
     tget (onL t).threads 1 = some t ∧ t.wait = some (.wmon 0x1000 0x1000 false) ∧ t.rel.isSome = true ∧ (onL t).clocksLeft 1 ≠ 0) ∧
    (({ onL { tL 0 0 0 with wait := some (.wmon 0x1000 0x1000 false) } with pkgs := [(0, { Pkg.init with cycles := 65536 })] } : State).clocksLeft 1 = 0) :=
  ⟨⟨runs_of (by decide), rfl⟩,
    ⟨runs_of (by decide), runs_of (by decide), runs_of (by decide), by decide, by decide, rfl, ⟨_, pair_of (by decide)⟩, by decide, by decide⟩, by decide, by decide,
    by decide⟩
theorem witness_Translation :
    (2 ^ 64 - 2 ^ 22 ≤ (0xFFFFFFFFFFC00000 : Word).toNat ∧ 2 ^ 55 ≤ (0x80000000000000 : Word).toNat ∧ (0xFF7FFFFFFFFFFFFF : Word).toNat < 2 ^ 64 - 2 ^ 55 ∧
      (0x7FFFFFFFFFFFFF : Word).toNat < 2 ^ 55 ∧ cL.ptBase.getLsbD 0 = false ∧ cL.mode = true ∧ cU.mode = false ∧ (0xFFFFFFFFFFFFF : Word).toNat < 2 ^ 52) ∧
    (∃ s1, sTab.walkAll cT 0x1000 = (s1, .leaf 0x140003F 3 0x130008)) ∧ (∃ s1, sTab.walkAll cT 0x2000 = (s1, .np)) ∧
    (∃ s1, ({ sTab with mem := Store.writeN mTab 0x130010 8 0x1 } : State).walkAll cT 0x2000 = (s1, .fmt)) ∧
    (∃ s1, ({ sTab with locks := [0x130000] } : State).walkAll cT 0x1000 = (s1, .locked)) ∧
    ((0x140003F : Nat).testBit 5 = true ∧ 0x140003F / 1024 % 4 = 0 ∧ sTab.locks = []) ∧
    (∃ s1, sTab.homeLoad cT.ag 0x100000 8 = (s1, .ok 0x1100001) ∧ s1.entryOk 0x1100001 0 = true ∧ (0x1100001 : Nat).testBit 0 = true ∧
      (0x1100001 : Nat).testBit 1 = false) ∧
    (∃ s1, sTab.homeLoad cT.ag 0x130008 8 = (s1, .ok 0x140003F) ∧ s1.entryOk 0x140003F 3 = true ∧ (0x140003F : Nat).testBit 1 = true ∧
      (0x140003F : Nat).testBit 9 = false) :=
  ⟨by decide, ⟨_, pair_of (by decide)⟩, ⟨_, pair_of (by decide)⟩, ⟨_, pair_of (by decide)⟩, ⟨_, pair_of (by decide)⟩, by decide,
    ⟨_, pair_of (by decide), by decide⟩, ⟨_, pair_of (by decide), by decide⟩⟩
theorem witness_CoherenceRequests :
    ((wL 4).mayAsk 0 = true ∧ (wL 4).mayAsk 346 = false ∧ (∃ s1, (wL 4).ask .coh 0 ((wL 4).fwd (2 ^ 48)) false = (s1, some 3))) ∧
    (∃ s1, (wL 4).ask .coh 0 ((wL 4).fwd 0x1008) false = (s1, none) ∧ tsorted s1.copies = true ∧ (s1.dirOf 0x1000).uop = none ∧ s1.tracked 0x1000 = [] ∧
      (s1.dirOf 0x1000).st = .i ∧ s1.holds 0 0x1000 = none) ∧
    (let s := did (.getX 0 0x1000) (wL 4)
     s.mayAsk 1 = true ∧ s.holds 1 0x1000 = none ∧ s.tracked 0x1000 ≠ [] ∧ s.holds 0 0x1000 = some .m ∧ (s.dirOf 0x1000).st = .ex ∧
       (s.ask .coh 1 0x1000 false).2 = none) ∧
    (let s := did (.getS 1 0x1000) (did (.getX 0 0x1000) (wL 4))
     s.holds 0 0x1000 = some .o ∧ s.holds 1 0x1000 = some .s ∧ (s.dirOf 0x1000).st ≠ .p) ∧
    (did (.getS 0 0x1000) (wL 4)).holds 0 0x1000 = some .e ∧
    (let s : State := { wL 4 with copies := [(copyKey 2 0x1000, ⟨.m, 0, 0⟩)], dir := [(0x1000, ⟨.p, 2, 0, 0, none⟩)] }
     s.ownsPriv 2 0x1000 = true ∧ s.ownsPriv 3 0x1000 = false) :=
  ⟨⟨by decide, by decide, ⟨_, pair_of (by decide)⟩⟩, ⟨_, pair_of (by decide), by decide, by decide, by decide, by decide, by decide⟩, by decide, by decide,
    by decide, by decide⟩
theorem witness_UpdateOnlyHolders :
    ((wL 4).mayAsk 2 = true ∧ ∃ s1, (wL 4).ask .coh 2 ((wL 4).fwd 0x1000) false = (s1, none) ∧ s1.tracked 0x1000 = [] ∧ s1.holds 2 0x1000 = none ∧
      (s1.dirOf 0x1000).uop = none) ∧
    (let s := did (.getU 2 0x1000 .add true) (wL 4)
     s.copy 2 0x1000 = some ⟨.u, 0, 0⟩ ∧ (s.dirOf 0x1000).uop = some (.add, true) ∧ isMem 0x1000 = true ∧ s.dieUp (slabOf 0x1000) = true ∧
       tget s.slabs (slabKey (slabOf 0x1000) 0x1000) = some ⟨false, 0, 0⟩) ∧
    15 < (if false then 8 else 16) ∧ RedOp.max ≠ RedOp.fadd :=
  ⟨⟨by decide, _, pair_of (by decide), by decide, by decide, by decide⟩, by decide, by decide, by decide⟩

/-! #### The device as a whole -/

/-- The boot thread in an issue of one, with a block of memory at its program counter. -/
def sGang (t : Thread) (w : Nat) : State := { onL t with gang := some ⟨[(1, 0)], [(1, 0)], [], t.pc, w, 3, false, []⟩ }
/-- The boot thread before an issue, with the word of `add x5, x6, x7` at 0x1000. -/
def sFetch (pc : Word) : State :=
  { onL { tL 1 2 0 with pc := pc } with mem := Store.writeN [] 0x1000 8 (encode (.add 7 5 6 7)).2, agenda := [.issue [1]] }

theorem no_descs : ∀ p, ((sFetch 0x1004).pkg p).descs = [] := by
  intro p
  simp only [sFetch, State.pkg, State.reset, onL]
  unfold tget
  split <;> rfl
theorem witness_StepRunsDecoded :
    (let t := tL 1 2 0
     (sGang t (encode (.add 7 5 6 7)).2).gang = some ⟨[(1, 0)], [(1, 0)], [], t.pc, (encode (.add 7 5 6 7)).2, 3, false, []⟩ ∧
       tget (sGang t (encode (.add 7 5 6 7)).2).threads 1 = some t ∧ t.comparator = none ∧ t.mark = none ∧ t.onL = true ∧
       (sGang t (encode (.add 7 5 6 7)).2).Calm ∧ loads (.add 7 5 6 7) = false ∧
       decode (t.pc.toNat % 8 == 4) (encode (.add 7 5 6 7)).2 = .ok (.add 7 5 6 7) ∧ (∃ e, decode (t.pc.toNat % 8 == 4) 0 = .ill e) ∧
       ({ t with bk := t.bk.set 0 3 } : Thread).comparator = some 0) ∧
    (let s := sFetch 0x1000
     let s0 : State := { s.passTime with agenda := [] }
     s.gang = none ∧ s.agenda = .issue [1] :: [] ∧ s.passTime.due = none ∧ s0.mayIssue [1] = true ∧ (s0.thr 1).fresh = true ∧
       ∃ s1, State.fetch { s0 with cur := 1 } 1 = (s1, .ok (encode (.add 7 5 6 7)).2 false false) ∧ (s1.thr 1).comparator = none ∧ decode ((s0.thr 1).pc.toNat % 8 == 4) (encode (.add 7 5 6 7)).2 = .ok (.add 7 5 6 7)) ∧
    (let s := sFetch 0x1004
     ∃ t, tget s.threads 1 = some t ∧ t.mode = true ∧ ptEn t.ptBase = false ∧ t.pc.toNat % 4 = 0 ∧ t.pc.toNat < 2 ^ 52 ∧ t.pc.toNat % 8 = 4 ∧
       Reaches s (t.mctx 1) 0x1000 bareLeaf ∧ (∀ a, lineOf a = lineOf 0x1000 → s.fwd a = a) ∧ (∀ a, lineOf a = lineOf 0x1000 → (s.dirOf (secOf a)).uop = none) ∧
       (∀ e ∈ s.icache, e.1 = t.core → e.2.1 ≠ secOf 0x1000) ∧
       t.entered = false ∧ ({ t with entered := true } : Thread).entered = true ∧ (Store.readN (Store.writeN [] 0x1000 8 1) 0x1000 8) % 2 = 1) ∧
    (0x1002 : Word).toNat % 4 ≠ 0 :=
  ⟨⟨by decide, by decide, by decide, by decide, by decide, ⟨rfl, rfl, rfl⟩, rfl, by decide, ⟨_, rfl⟩, by decide⟩,
    ⟨by decide, by decide, by decide, by decide, by decide, _, pair_of (by decide), by decide, by decide⟩,
    ⟨_, rfl, by decide, by decide, by decide, by decide, by decide, ⟨by decide, by decide, by decide, by decide, by decide, by decide, by decide⟩, fun a _ => fwd_none (sFetch 0x1004) a no_descs, fun _ _ => rfl, by decide, by decide, by decide,
      by decide⟩, by decide⟩
theorem witness_StepKeepsInvariants : State.reset.memOk ∧ ∃ s', step State.reset = .next s' := ⟨rfl, _, rfl⟩

/-! #### Barriers, copies and the matrix engine -/

theorem witness_BarrierInstructions :
    (let t := tS 16 4095 0x7FFFFFFF
     let s := onS t (gBar 3 2 2 0 0)
     Runs s t always [.x 5, .x 6, .x 7, .x 8] [.x 6, .x 7, .x 8] ∧ t.onL = false ∧ (s.srcX 0 6).toNat % 16 = 0 ∧ (s.srcX 0 6).toNat + 16 ≤ (s.wg t.wg).spPages * 4096 ∧
       (s.srcX 1 7).toNat ≤ 4095 ∧ (s.srcX 2 8).toNat < 2 ^ 31 ∧ 16 ∈ (s.wg t.wg).tags ∧ (s.wg t.wg).bar 16 = ⟨3, 2, 2, false, false, 0, 0, 0⟩ ∧ t.rel = none) ∧
    (let t := tS 16 3 0
     let s := onS t (gBar 3 0 2 0x7FFFFFFC 5)
     Runs s t always [.x 5, .x 6] [.x 6] ∧ Runs s t always [.x 5, .x 6, .x 7] [.x 6, .x 7] ∧ ((s.wg t.wg).bar 16).pend = 0 ∧ ((s.wg t.wg).bar 16).gen = (s.srcX 1 7).toNat ∧
       ((s.wg t.wg).bar 16).inB + (s.srcX 1 7).toNat < 2 ^ 31 ∧ 2 ^ 31 ≤ ((s.wg t.wg).bar 16).inB + (s.srcX 1 7).toNat + 1 ∧ ((s.wg t.wg).bar 16).outB ≠ 0 ∧
       ((s.wg t.wg).bar 16).poison = false) ∧
    (let t := tS 8 4096 0x80000000
     let s := onS t g1
     Runs s t always [.x 5, .x 6, .x 7, .x 8] [.x 6, .x 7, .x 8] ∧ (s.srcX 0 6).toNat % 16 ≠ 0 ∧ ¬(s.srcX 1 7).toNat ≤ 4095 ∧ 32 ∉ (s.wg t.wg).tags ∧
       4096 + 16 > (s.wg t.wg).spPages * 4096) ∧
    (BarObj.ofNat (BarObj.toNat ⟨3, 2, 2, true, false, 0, 0, 0⟩ true)).poison = true ∧
    (let t : Thread := { tS 16 3 0 with rel := some (-6) }
     Runs (onS t g1) t always [.x 5, .x 6, .x 7] [.x 6, .x 7] ∧ t.rel = some (-6)) :=
  ⟨⟨runs_of (by decide), by decide⟩, ⟨runs_of (by decide), runs_of (by decide), by decide⟩, ⟨runs_of (by decide), by decide⟩, by decide, runs_of (by decide), by decide⟩

theorem witness_CopyCommands :
    (let s := sCopy (gBar 0 0 1 8 0)
     let t := tCopy true
     Runs s t always [.x 5, .x 6, .x 7, .x 8] [.x 6, .x 7, .x 8] ∧ t.onL = false ∧ t.role.copy = true ∧ s.copyRoom t = true ∧
       (s.srcX 2 8).toNat % 2 ^ 20 = 8 ∧ (s.srcX 2 8).toNat / 2 ^ 20 % 2 ^ 16 = 1 ∧ (s.srcX 1 7).toNat % 2 ^ 32 + 8 ≤ (s.wg t.wg).spPages * 4096 ∧
       (s.srcX 1 7).toNat / 2 ^ 32 % 16 = 0 ∧ (s.receiver t.wg 0).isSome = true ∧ (s.receiver t.wg 1).isSome = false ∧
       (∃ s1, s.xlate (t.mctx s.cur) 0x1000 .load = (s1, .ok 0x1000 bareLeaf) ∧ s1.cur = s.cur ∧ s1.copyRoom s1.me = true) ∧
       (∃ s1, s.xlate (t.mctx s.cur) 0x1000 .store = (s1, .ok 0x1000 bareLeaf))) ∧
    (let t : Thread := { tCopy true with role := ⟨0, false, 3, 3⟩ }
     Runs (onS t g1) t always [.x 5, .x 6, .x 7, .x 8] [.x 6, .x 7, .x 8] ∧ t.role.copy = false) ∧
    (let s := { sCopy (gBar 0 0 1 8 0) with threads := [(1, tCopy false)] }
     ∃ s1, s.xlate ((tCopy false).mctx s.cur) 0x1000 .load = (s1, .fault 0x12)) ∧
    (let t : Thread := { tCopy true with ops := List.replicate 63 ⟨.copy, 5, false, none⟩, wait := some (.accept (.cpyIn 7 5 6 7 8 0 0 0)) }
     tget (onS t g1).threads 1 = some t ∧ (onS t g1).copyRoom t = false ∧ t.wait = some (.accept (.cpyIn 7 5 6 7 8 0 0 0))) ∧
    ((gBar 0 0 1 8 0).spad.read 4000).getLsbD 0 = false ∧ (1 : BitVec 4) ≠ 0 :=
  ⟨⟨runs_of (by decide), by decide, by decide, by decide, by decide, by decide, by decide, by decide, by decide, by decide, ⟨_, rfl, by decide, by decide⟩, ⟨_, rfl⟩⟩,
    ⟨runs_of (by decide), by decide⟩, ⟨_, rfl⟩, by decide, by decide, by decide⟩
/-- The command of `sCopied`, and one that stores. -/
def mIn : CopyCmd := (sCopied.core 128).copyQ.headD ⟨0, 0, 0, .cin, 0, 0, 0, 0, 0, 0, 0, 0, [], 0, 0, false, 0, 0, 0, none, [], []⟩
def mOut : CopyCmd := { mIn with kind := .out }
/-- The state with that one. -/
def sOut : State := { sCopied with cores := [(128, { Core.init with copyQ := [mOut] })] }
theorem witness_CopyEngineAndWcnt :
    ((sCopied.core 128).copyQ = mIn :: [] ∧ mIn.row < mIn.rows ∧ rowSel mIn.mask mIn.row = true ∧ 0 < mIn.chunk ∧ mIn.boff % 16 = 0 ∧ mIn.kind = .cin ∧
      sCopied.copyRuns 128 = true ∧ sCopied.bestWg ((sCopied.core 128).copyQ.map (·.wg)) = some mIn.wg ∧ regionOf bareLeaf = .coh ∧
      Reaches sCopied (mIn.ctx 128) 0x1000 bareLeaf ∧ 0x1000 % 64 + mIn.chunk ≤ 64 ∧ mIn.boff + 16 ≤ mIn.so ∧
      sCopied.xlate (mIn.ctx 128) mIn.va .load = (sCopied, .ok 0x1000 bareLeaf) ∧ (∀ d ws, sCopied.copy (mIn.ctx 128).ag (secOf (sCopied.fwd 0x1000)) ≠ some ⟨.r, d, ws⟩) ∧
      (∀ j < mIn.chunk, (mIn.so + j) / 16 * 16 ∉ (sCopied.wg mIn.wg).tags) ∧ mIn.boff ∈ (sCopied.wg mIn.wg).tags ∧
      mIn.chunk ≤ ((sCopied.wg mIn.wg).bar mIn.boff).inB) ∧
    ((sOut.core 128).copyQ = mOut :: [] ∧ mOut.kind = .out ∧ sOut.xlate (mOut.ctx 128) mOut.va .store = (sOut, .ok 0x1000 bareLeaf) ∧
      Reaches sOut (mOut.ctx 128) 0x1000 bareLeaf) ∧
    (({ mIn with boff := noBar } : CopyCmd).boff = noBar) ∧
    (let m := { mIn with row := 1 }
     m.rows ≤ m.row ∧ tget sCopied.threads m.t = some sCopied.me ∧ sCopied.me.ops.filter (·.cls == .copy) = ⟨.copy, m.id, false, none⟩ :: []) ∧
    ((State.reset.core 128).copyQ = []) ∧
    (let t := tS 0 0 0
     Runs (onS t g1) t always [] [] ∧ t.deferred = none ∧ (onS t g1).count t .copy ≤ (0 : BitVec 6).toNat ∧ ∀ r ∈ t.reports, r.1 ≠ CntClass.copy) ∧
    (Runs sCopied sCopied.me always [] [] ∧ (0 : BitVec 6).toNat < sCopied.count sCopied.me .copy ∧ sCopied.count sCopied.me .copy ≤ (1 : BitVec 6).toNat) ∧
    (let t : Thread := { tS 0 0 0 with reports := [(.copy, ⟨0x1C, 9, none⟩)] }
     Runs (onS t g1) t always [] [] ∧ t.reports.find? (·.1 == CntClass.copy) = some (.copy, ⟨0x1C, 9, none⟩)) ∧
    (let t : Thread := { tS 0 0 0 with deferred := some 0x40 }
     Runs (onS t g1) t always [] [] ∧ t.deferred = some 0x40) :=
  ⟨⟨by decide, by decide, by decide, by decide, by decide, by decide, by decide, by decide, by decide, ⟨by decide, by decide, by decide, by decide, by decide, by decide, by decide⟩, by decide, by decide, rfl,
      fun d ws h => (by cases h), by decide, by decide, by decide⟩,
    ⟨by decide, by decide, rfl, ⟨by decide, by decide, by decide, by decide, by decide, by decide, by decide⟩⟩, by decide, by decide, by decide, ⟨runs_of (by decide), by decide⟩,
    ⟨runs_of (by decide), by decide⟩, ⟨runs_of (by decide), by decide⟩, runs_of (by decide), by decide⟩
theorem witness_MatrixCommands :
    (let t := tS 0 64 0
     let s := onS t gMat
     Runs s t always [.x 5] [] ∧ Runs s t always [.x 5, .x 6] [.x 6] ∧ Runs s t always [.x 5, .x 6, .x 7] [.x 6, .x 7] ∧
       Runs s t always [.x 5, .x 6, .x 7, .x 8] [.x 6, .x 7, .x 8] ∧ t.onL = false ∧ s.matRoom t = true ∧ s.shapeAt t.core = 10 ∧ (s.core t.core).tcfg = 10 ∧
       (∀ x ∈ s.onCore t.core, x.1 = t.wg) ∧ (s.wg t.wg).held = [0, 1] ∧ (s.core 128).matQ = [] ∧ 256 - s.slotsHeld t.core = 254 ∧ s.liveClaims t.core = [] ∧
       (s.srcX 0 6).toNat + (s.srcX 1 7).toNat ≤ 64 ∧ 0 ∈ (s.wg t.wg).held ∧ 2 ∉ (s.wg t.wg).held) ∧
    (let t : Thread := { tS 0 1 0 with ops := List.replicate 63 ⟨.matrix, 5, false, none⟩ }
     (onS t gMat).matRoom t = false) ∧
    (let s : State := { onS (tS 0 1 0) gMat with wgs := [(1, gMat), (2, { gMat with slots := [(0, 1)] })] }
     ∃ x ∈ s.onCore 128, x.1 ≠ 1 ∧ (x.2.held ≠ [] ∨ x.2.grant ≠ 0)) ∧
    ((1 + 2 ^ 40 + 2 ^ 24 + 2 ^ 32 : Nat).testBit 40 = true ∧ (0 : Nat).testBit 40 = false) :=
  ⟨⟨runs_of (by decide), runs_of (by decide), runs_of (by decide), runs_of (by decide), by decide, by decide, by decide, by decide, by decide, by decide, by decide,
    by decide, by decide, by decide, by decide, by decide⟩, by decide, by decide, by decide⟩
theorem witness_MatrixPerformance :
    (((sMat (.cfg 10) gMat).core 128).matQ = [⟨9, 1, 1, .cfg 10, 0, 0, 0, 0, none⟩] ∧ ((sMat (.rel 0 1) gMat).core 128).matQ = [⟨9, 1, 1, .rel 0 1, 0, 0, 0, 0, none⟩]) ∧
    (((sMat (.load true true 0 1 64 64) gMat).core 128).matQ = [⟨9, 1, 1, .load true true 0 1 64 64, 0, 0, 0, 0, none⟩] ∧
      ((sMat (.mul .i8 [⟨2, 0, 1, 1, 2, true⟩]) gMat).core 128).matQ = [⟨9, 1, 1, .mul .i8 [⟨2, 0, 1, 1, 2, true⟩], 0, 0, 0, 0, none⟩] ∧
      ((sMat (.sacc false true 0 256 0 1) gMat).core 128).matQ = [⟨9, 1, 1, .sacc false true 0 256 0 1, 0, 0, 0, 0, none⟩] ∧ (0 : Nat) ≠ 1 ∧
      ((sMat (.store 4 0 0 true 0 noBar 0 64) gMat).core 128).matQ = [⟨9, 1, 1, .store 4 0 0 true 0 noBar 0 64, 0, 0, 0, 0, none⟩] ∧ 16 * 4 ≤ 64 ∧ gMat.tags = []) ∧
    (let t : Thread := { tS 0 0 0 with pend := [⟨.x 5, none, 0, 9⟩] }
     let s := { sMat (.stat 63) gMat with threads := [(1, t)] }
     (s.core 128).matQ = [⟨9, 1, 1, .stat 63, 0, 0, 0, 0, none⟩] ∧ tget s.threads 1 = some t ∧ t.pend = [⟨.x 5, none, 0, 9⟩] ∧ Dest.x 5 ≠ .x 0) ∧
    (State.reset.core 128).matQ = [] ∧
    (let t : Thread := { tS 0 0 0 with wait := some (.claim 5 1 0) }
     let s : State := { onS t g1 with cores := [(128, { Core.init with claims := [⟨1, 1, 0, 64⟩] })] }
     s.liveClaims 128 = [⟨1, 1, 0, 64⟩] ∧ tget s.threads 1 = some t ∧ 64 ≤ 256 - s.slotsHeld 128 ∧ s.deadlocked 128 = none) ∧
    (let t : Thread := { tS 0 0 0 with wait := some (.claim 5 1 0) }
     let u : Thread := { t with wg := 2, place := .slot 128 0 0 1 }
     let full : List Nat := List.range 128
     let s : State := { onS t g1 with
       threads := [(1, t), (2, u)], wgs := [(1, { g1 with held := full }), (2, { g1 with held := full, slots := [(0, 1)] })],
       cores := [(128, { Core.init with claims := [⟨1, 1, 0, 1⟩, ⟨2, 2, 0, 1⟩] })] }
     s.liveClaims 128 = [⟨1, 1, 0, 1⟩, ⟨2, 2, 0, 1⟩] ∧ 256 - s.slotsHeld 128 < 1 ∧ (s.deadlocked 128).isSome = true ∧ t.atTvec = false) ∧
    (let s : State := sMat (.zero 0 1) gMat
     s.matRuns 128 = true ∧ s.bestWg ((s.core 128).matQ.map (·.wg)) = some 1 ∧ ({ s with units := [(UnitId.matrixEngine 128, 2, 0)] } : State).matRuns 128 = false) ∧
    (let m : MatCmd := ⟨9, 1, 1, .gath false 0 64 128 0 0 0, 0, 2, 5, 0, none⟩
     m.pos < m.stop ∧ 64 + 4 * m.pos + 4 ≤ gMat.spPages * 4096 ∧ 128 + 2 * m.pos + 2 ≤ gMat.spPages * 4096) ∧
    (0 + 1 < (16 : Nat) ∧ ¬15 + 1 < (16 : Nat)) ∧ sCopied.bestWg ((sCopied.core 128).copyQ.map (·.wg)) = some 1 := by decide

/-! #### Walkers -/

theorem witness_WalkerCommands :
    (let t := tL 0x1000 16 64
     let s := onL t
     Runs s t always [.x 5, .x 6, .x 7, .x 8] [.x 6, .x 7, .x 8] ∧ Runs s t always [.x 5, .x 6] [.x 6] ∧ Runs s t always [.x 5, .x 6, .x 7] [.x 6, .x 7] ∧ t.mode = true ∧
       s.walkRoom t = true ∧ (s.srcX 2 8) ≠ 0 ∧ s.xlate (t.mctx 1) (s.srcX 0 6) .load = (s, .ok 0x1000 bareLeaf) ∧ s.walks = [] ∧ s.locks = []) ∧
    (let t := tS 0x1000 16 64
     let s := onS t g1
     Runs s t always [.x 5, .x 6, .x 7, .x 8] [.x 6, .x 7, .x 8] ∧ t.onL = false ∧ t.mode = false ∧ (s.srcX 1 7).toNat % 16 = 0 ∧
       (s.srcX 1 7).toNat + 16 ≤ (s.wg t.wg).spPages * 4096 ∧ (∃ s1, s.xlate (t.mctx 1) (s.srcX 0 6) .load = (s1, .fault 0x12))) ∧
    (let t : Thread := { tL 0x1000 16 64 with ops := List.replicate 63 ⟨.walker, 5, false, none⟩ }
     (onL t).walkRoom t = false ∧ Runs (onL t) t always [.x 5, .x 6, .x 7, .x 8] [.x 6, .x 7, .x 8]) ∧
    (let s := onL (tL 0x100000000 0x200000000 0x1000)
     s.memRange 0x100000000 0x1000 = true ∧ s.memRange 0x200000000 0x1000 = true ∧
       ((List.range 16).find? fun k => (tget (s.pkg (paPkg 0x100000000)).descs k).isNone) = some 0) ∧
    (let s := { onL (tL 0x200000 0x1008 0x4000) with mem := Store.writeN [] 0x1008 8 0x20000F }
     s.tableOk 0x4000 = true ∧ secOf 0x1008 ∉ s.locks ∧ ∃ s1, s.readEnt (s.me.mctx 1) 0x1008 = (s1, some 0x20000F) ∧ s1.cur = s.cur ∧ s1.walks = s.walks) ∧
    ((0xFFFF : Nat) < 2 ^ 16 ∧ -(2 ^ 55 : Int) ≤ (0xFF80000000000000 : Word).toInt ∧ ¬((0x80000000000000 : Word).toInt < 2 ^ 55)) ∧
    (let s := { onL (tL 0x1000 0 0) with pkgs := [(0, { Pkg.init with descs := [(3, ⟨.forward, 0x1000, 0x8000, 0x1000, 0x1000⟩)] })] }
     (s.pkg 0).descs.find? (fun x => x.2.st == .forward && x.2.src == 0x1000) = some (3, ⟨.forward, 0x1000, 0x8000, 0x1000, 0x1000⟩)) ∧
    (let s := { onL (tL 0x200000 0x1008 0) with mem := Store.writeN [] 0x1008 8 0xC0F }
     ∃ s1, s.readEnt (s.me.mctx 1) 0x1008 = (s1, some 0xC0F) ∧ s.lockedAny (collEntries 0x1008 3 0xC0F) = false ∧
       (∃ s2, s1.readEnts (s.me.mctx 1) (collEntries 0x1008 3 0xC0F) = (s2, [(0x1008, 0xC0F)], true)) ∧
       ({ s with locks := [0x1000] } : State).lockedAny (collEntries 0x1008 3 0xC0F) = true) :=
  ⟨⟨runs_of (by decide), runs_of (by decide), runs_of (by decide), by decide, by decide, by decide, rfl, by decide, by decide⟩,
    ⟨runs_of (by decide), by decide, by decide, by decide, by decide, ⟨_, rfl⟩⟩, ⟨by decide, runs_of (by decide)⟩, by decide,
    ⟨by decide, by decide, _, rfl, by decide, by decide⟩, by decide, by decide, ⟨_, rfl, by decide, ⟨_, rfl⟩, by decide⟩⟩
theorem witness_WalkerCompletions :
    (let s := sWalk (.cw false .sys none 0x1000 64)
     s.walks[0]? = some ⟨9, 1, 0, 0, .cw false .sys none 0x1000 64, 0, 0, true, 0, none, false, 0, none⟩ ∧ (tget s.threads 1).isSome = true ∧
       s.walks.all s.walkTurn = true ∧ 0x1000 + 64 ≤ 0x1000 / 256 * 256 + 256 ∧ ¬0x1000 + 257 ≤ 0x1000 / 256 * 256 + 256 ∧
       (s.walks.map fun m => (s.xlate m.ctx 0x1000 .load).2) = [.ok 0x1000 bareLeaf] ∧ tsorted s.copies = true ∧
       (∀ x ∈ (List.range 4).map fun i => s.fwd (lineOf 0x1000 + 64 * i), s.memCode 0 x false = none ∧ (s.dirOf x).st ≠ .p ∧ (s.dirOf x).uop = none ∧ x < 2 ^ 52) ∧
       s.soft = [] ∧ s.dir = [] ∧ s.me.pend = [⟨.x 5, none, 0, 9⟩] ∧
       s.me.ops = [⟨.walker, 9, false, none⟩]) ∧
    (let s := { sWalk (.mig 0 2) with pkgs := [(0, { Pkg.init with descs := [(2, ⟨.moving, 0x100000000, 0x100010000, 0x1000, 0xF00⟩)] })] }
     tget (s.pkg 0).descs 2 = some ⟨.moving, 0x100000000, 0x100010000, 0x1000, 0xF00⟩ ∧ 0x100000000 + 0xF00 + 256 ≤ 0x100010000 + 0xF00 ∧ 0x100000F00 % 64 = 0 ∧
       0x100010F00 % 64 = 0 ∧ (∀ j < 4, s.memCode 0 (0x100000F00 + 64 * j) false = none ∧ s.memCode 0 (0x100010F00 + 64 * j) true = none) ∧ 0x1000 ≤ 0xF00 + 256) ∧
    (sWalk (.tlb .va .sys 0x1000 0 3)).walks.length = 1 ∧
    (let s := { sWalk (.split 0x200000 0x1008 0x4000 (some 0x2000000F)) with mem := Store.writeN [] 0x1008 8 0x2000000F }
     s.mem.readN 0x1008 8 = 0x2000000F ∧ (0x2000000F : Nat).testBit 0 = true ∧ (0x2000000F : Nat).testBit 1 = true ∧ (0x2000000F : Nat).testBit 9 = false ∧ 0x1008 + 8 ≤ 0x4000 ∧
       0x4000 / 4096 < 2 ^ 40 ∧ 0x1008 % 8 = 0 ∧ s.fwd 0x1008 = 0x1008 ∧ s.memCode 0 0x1008 false = none ∧ s.dir = [] ∧ s.memCode 0 0x4FF8 false = none) ∧
    (({ sWalk (.split 0x200000 0x1008 0x4000 (some 0x2000000F)) with mem := Store.writeN [] 0x1008 8 0x2000000F } : State).entryOk 0x2000000F 2 = true) ∧
    (let s := { sWalk (.coll 0x1000 0x1008 3 [(0x1008, 0xC0F)] false) with mem := Store.writeN [] 0x1008 8 0xC0F }
     s.mem.readN 0x1008 8 = 0xC0F ∧ (0xC0F : Nat).testBit 0 = true ∧ (0xC0F : Nat).testBit 1 = true ∧ 0xC0F / 2 ^ 10 % 4 = 3) ∧
    State.reset.walks[0]? = none :=
  ⟨by decide, by decide, by decide, by decide, by decide, by decide, by decide⟩

/-! #### Threads -/

theorem witness_ThreadInstructions :
    (let s := sSpawn 0x2000 0
     Runs s s.me always [.x 5, .x 6, .x 7] [.x 6, .x 7] ∧ (s.srcX 0 6).toNat % 8 = 0 ∧ (s.srcX 1 7) = 0 ∧
       (s.readWords (s.me.mctx 1) 0x2000 16).2 = .ok [0x100, 8 + 4 * 2 ^ 32, 8, 1 * 2 ^ 16, 0, 0, 0, 0, 0, 0, 0, 0, 0, 0, 0, 0] ∧
       (8 + 4 * 2 ^ 32 : Nat) / 2 ^ 32 % 2 ^ 16 = 4 ∧ 1024 ≤ 1024 ∧ s.homeDie s.me = some 2 ∧ (∃ j, s.freeLevel 2 = some j) ∧
       (∃ s2, s.takeIds 2 0 8 = (s2, some 100)) ∧ (∃ s2, s.takeIds 2 0 9 = (s2, none))) ∧
    (let s := sSpawn 0x2080 0
     (s.readWords (s.me.mctx 1) 0x2080 16).2 = .ok [0, 0, 0x80, 0, 0, 0, 0, 0, 0, 0, 0, 0, 0, 0, 0, 0]) ∧
    (let s : State := { onL (tL 0x2000 (levelHandle 2 7 3 0) 0) with dies := [(2, { Die.init with levels := [(7, ⟨0, 3, .open, 0, 0, 0, none, false⟩)] })] }
     s.levelOf (s.srcX 1 7) = some ⟨0, 3, .open, 0, 0, 0, none, false⟩) ∧
    (let s := { onS (tS 0x2000 0 0) g1 with mem := memSpawn }
     (s.readWords (s.me.mctx 1) 0x2000 16).2 = .error (.trap 0x12 0x2000)) ∧
    (let s := { sTab with locks := [0x130000], threads := [(1, { tS 0x1000 0 0 with ptBase := 0x100001 })] }
     (s.readWords (s.me.mctx 1) 0x1000 16).2 = .error .wait) ∧
    ({ onL (tL 0 0 0) with units := (List.range 8).map fun d => (.die (2 + d), 2, 0) } : State).homeDie (tL 0 0 0) = none ∧
    (let t := tL 0x202 0 0
     Runs (onL t) t always [.x 5, .x 6] [.x 6] ∧ t.deferred = none ∧ t.onL = true ∧ (onL t).sCoreOn t.pkg = true ∧ t.ops = [] ∧ t.reports = [] ∧
       t.flushAll.pend = [] ∧ (onL t).rinvOut ((onL t).tidOf t) = false ∧ ((onL t).srcX 0 6).toNat % 8 = 2 ∧ ((onL t).srcX 0 6).toNat / 2 ^ 8 % 2 ^ 4 = 2) ∧
    (let t : Thread := { tS 1 0 0 with deferred := some 8, ops := [⟨.copy, 9, false, none⟩], reports := [(.copy, ⟨0x1C, 9, none⟩)] }
     Runs (onS t g1) t always [.x 5, .x 6] [.x 6] ∧ t.deferred = some 8 ∧ t.onL = false ∧ t.ops ≠ [] ∧ t.reports ≠ []) ∧
    (let t := tS 0 0 0
     Runs (onS t g1) t always [] [] ∧ t.onL = false ∧ t.deferred = none ∧ t.flushAll.pend = [] ∧ t.place = .slot 128 0 0 0 ∧ t.left = false ∧ t.mode = false ∧
       tget (onS t gHb).wgs t.wg = some gHb ∧ tget gHb.hbars 0 = some ⟨0, 4, 4, []⟩) ∧
    (let t := tL 0 0 0
     Runs (onL t) t always [] [] ∧ t.onL = true ∧ t.place = .ctx 0 0 ∧ tget (onL t).away ((onL t).tidOf t).toNat = none ∧
       ({ t with pend := [⟨.x 5, none, 0, 9⟩] } : Thread).flushAll.pend ≠ []) ∧
    (let s : State := { onL (tL 0 0 0) with away := [(0, { Away.init with spawned := true })] }
     tget s.away (s.tidOf s.me).toNat = some { Away.init with spawned := true }) ∧
    (let s := sLaunch 8 1
     Runs s s.me always [.x 5, .x 6] [.x 6] ∧ ((s.levelOf (s.srcX 0 6)).map fun l => (l.asid, l.st, l.count)) = some (s.me.asid, .sealed, 1) ∧ s.me.cancelling = false) ∧
    (let s : State := { onL (tL (levelHandle 2 7 3 0) 0 0) with dies := [(2, { Die.init with levels := [(7, ⟨0, 3, .open, 0, 0, 0, none, false⟩)] })] }
     Runs s s.me always [.x 5, .x 6] [.x 6] ∧ s.levelOf (s.srcX 0 6) = some ⟨0, 3, .open, 0, 0, 0, none, false⟩) ∧
    (onL (tL 9 0 0)).levelOf 9 = none ∧
    (let t := tS 1024 0 0
     let s := onS t { gHb with hbcl := 1 }
     Runs s t always [.x 6] [.x 6] ∧ (s.srcX 0 6).getLsbD 10 = true ∧ (s.srcX 0 6).toNat < 2048 ∧ (s.srcX 0 6).toNat % 1024 < (s.wg t.wg).hbcl) ∧
    (let t : Thread := { tS 0 0 0 with restart := some 0 }
     let s := onS t { g1 with hbars := [(0, ⟨0, 4, 1, []⟩), (1, ⟨0, 4, 2, [1]⟩)] }
     Runs s t always [.x 6] [.x 6] ∧ (s.hbarOf 1 false 0).pend ≤ 1 ∧ s.cur ∉ (s.hbarOf 1 false 0).arrived ∧ s.cur ∈ (s.hbarOf 1 false 1).arrived ∧ t.restart = some t.pc ∧
       (s.srcX 0 6).toNat % 1024 < (s.wg t.wg).hbarN) :=
  ⟨⟨runs_of (by decide), by decide, by decide, by decide, by decide, by decide, by decide, ⟨_, rfl⟩, ⟨_, pair_of (by decide)⟩, ⟨_, pair_of (by decide)⟩⟩, by decide, by decide,
    by decide, by decide, by decide, ⟨runs_of (by decide), by decide⟩, ⟨runs_of (by decide), by decide⟩, ⟨runs_of (by decide), by decide⟩,
    ⟨runs_of (by decide), by decide⟩, by decide, ⟨runs_of (by decide), by decide⟩, ⟨runs_of (by decide), by decide⟩, by decide,
    ⟨runs_of (by decide), by decide⟩, runs_of (by decide), by decide⟩
theorem witness_ThreadEvents :
    (let t : Thread := { tL 0x202 0 0 with wait := some .send, move := some ⟨0x202, 5, 4, 0⟩ }
     let s := onL t
     tget s.threads 1 = some t ∧ t.wait = some .send ∧ t.move = some ⟨0x202, 5, 4, 0⟩ ∧ s.destOf t ⟨0x202, 5, 4, 0⟩ = some 2 ∧ isSDie 2 = true ∧
       (s.die 2).arrivals.length + s.inbound 2 < 4096 ∧ t.place = .ctx 0 0) ∧
    (let s : State := { onL { tL 0 0 0 with place := .flight, pc := 8 } with msgs := [.thread 2 1] }
     s.dieOn 2 = true ∧ (s.die 2).arrivals.length < 4096 ∧ tsorted (s.die 2).bins = true ∧ s.msgs[0]? = some (.thread 2 1) ∧ (tget s.threads 1).map (·.cancelled) = some false) ∧
    (let s := { sMark { mark0 with inv := some inv0 } 0 with msgs := [.invoke 2 mk3] }
     s.msgs[0]? = some (.invoke 2 mk3) ∧ s.markAt mk3 = some { mark0 with inv := some inv0 } ∧ mark0.final = false ∧ (∃ s1, s.takeIds 2 0 1 = (s1, some 100)) ∧
       ∃ s1, s.takeIds 2 1 1 = (s1, none)) ∧
    (let s : State := { onL { tL 0 0 0 with place := .bin 2 0, pc := 8 } with
       dies := [(2, { Die.init with bins := [(0, ⟨0, 8, 2, 0, none, 4, 5, [1]⟩)] })], pkgs := [(0, { Pkg.init with time := 3 })] }
     tget (s.die 2).bins 0 = some ⟨0, 8, 2, 0, none, 4, 5, [1]⟩ ∧ 5 * 10 ≤ ((s.timeOf (pkgOfDie 2)).toNat - (s.thr 1).since) * 19 ∧ [1].Nodup) ∧
    (let s := sLaunch 4 8
     s.levelOf (s.launchNamed (2 * 4096 + 7)) ≠ none ∧ s.canAsk (s.launchNamed (2 * 4096 + 7)) 2 = true ∧ s.canAsk (s.launchNamed (2 * 4096 + 7)) 3 = false) ∧
    (let s := { sLaunch 4 8 with units := [(.die 2, 2, 0)] }
     s.dieUp 2 = false ∧ (s.levelOf (s.launchNamed (2 * 4096 + 7))).isSome = true ∧ ∀ x ∈ s.threads, x.2.spawned = false) ∧
    (let s := sReleased
     (tget s.wgs 1).isSome = true ∧ s.placeable 1 = true ∧ s.placeTurn 1 = true ∧ (s.wg 1).course = false ∧ (s.thr 1).lane < (s.wg 1).size ∧
       ({ s with units := [(.die 2, 2, 0)] } : State).placeable 1 = false ∧ ({ s with units := [(.die 2, 2, 0)] } : State).nextVictim 1 = none) ∧
    (let t : Thread := { tL 9 0 0 with place := .flight, move := some ⟨0, 5, 4, 0⟩ }
     let s : State := { onL t with msgs := [.thread 0 1], dies := [(0, { Die.init with arq := ⟨0x4000, true, 4, 2, 1⟩ })] }
     s.msgs = .thread 0 1 :: [] ∧ 0 < (s.die 0).arq.room ∧ tget s.threads 1 = some t ∧ t.move = some ⟨0, 5, 4, 0⟩ ∧
       (∃ s1, s.homeWrite (dieAgent 0) 0x4800 (List.replicate 8 1) = (s1, none)) ∧ (∃ s1 c, s.homeWrite (dieAgent 0) (2 ^ 48) (List.replicate 8 1) = (s1, some c)) ∧
       (State.reset.die 0).arq.room = 0) ∧
    (let t : Thread := { tS 0 0 0 with ending := some .fatal, wait := some .exitQueue, left := true }
     let s : State := { onS t g1 with dies := [(2, { Die.init with exq := ⟨0x4000, true, 8, 0, 0⟩ })] }
     tget s.threads 1 = some t ∧ t.ending = some .fatal ∧ t.left = true ∧ t.onL = false ∧ (s.die t.die).exq.en = true ∧
       ((s.die t.die).exq.head - (s.die t.die).exq.tail).toNat < 2 ^ (s.die t.die).exq.log2n ∧ (∃ s1, s.homeWrite (dieAgent 2) 0x4000 (List.replicate 16 1) = (s1, none))) ∧
    (({ tL 0 0 0 with ending := some .normal } : Thread).onL = true) :=
  ⟨by decide, by decide, ⟨by decide, by decide, by decide, ⟨_, pair_of (by decide)⟩, ⟨_, pair_of (by decide)⟩⟩, by decide, by decide, by decide, by decide,
    ⟨by decide, by decide, by decide, by decide, ⟨_, pair_of (by decide)⟩, ⟨_, (3, 2 ^ 48), pair_of (by decide)⟩, by decide⟩,
    ⟨by decide, by decide, by decide, by decide, by decide, by decide, ⟨_, pair_of (by decide)⟩⟩, by decide⟩

/-! #### Marks, pre-emption, the governor, service, ports and control registers -/

/-- A record of an invocation at 0x2000: ENTRY 0x100, two arguments. -/
def memInv : Memory := Store.writeN (Store.writeN (Store.writeN (Store.writeN [] 0x2000 8 0x100) 0x2008 8 2) 0x2018 8 5) 0x2020 8 6
/-- The boot thread before an `rinv` to DIE_ID 2. -/
def sInv (va : Word) : State := { onL (tL 0x202 va 0) with mem := memInv }

theorem mark_of_index (i : Nat) (h : i < 2 ^ 24) : isMark (markWord 2 i 0) = true ∧ markDie (markWord 2 i 0) = 2 ∧ markIdx (markWord 2 i 0) = i := by
  have hd : dieId 2 = 2 := rfl
  have hp : pkgOfDie 2 = 0 := rfl
  have e : (markWord 2 i 0).toNat = 0x8A * 2 ^ 56 + 2 * 2 ^ 24 + i := by
    simp only [markWord, hd, hp, BitVec.toNat_ofNat]; omega
  refine ⟨?_, ?_, ?_⟩
  · simp only [isMark, e, beq_iff_eq]; omega
  · simp only [markDie, e]; omega
  · simp only [markIdx, e]; omega
theorem witness_Marks_rinv :
    (let s := sInv 0x2000
     Runs s s.me always [.x 5, .x 6, .x 7] [.x 6, .x 7] ∧ (s.remoteOf s.me).length ≠ 63 ∧ (s.srcX 1 7).toNat % 8 = 0 ∧
       (s.readWords (s.me.mctx 1) 0x2000 10).2 = .ok [0x100, 2, 0, 5, 6, 0, 0, 0, 0, 0] ∧ s.originDie s.me = some 2 ∧ s.remoteFull s.me = false ∧ isMark (s.srcX 0 6) = false ∧
       s.codeOk (s.srcX 0 6) = true ∧ s.codeDie 0 0 (s.srcX 0 6) inv0 = some 2 ∧ s.codeOk 7 = false ∧
       ({ s with units := [(.die 2, 2, 0)] } : State).codeDie 0 0 (s.srcX 0 6) inv0 = none) ∧
    (let t : Thread := { tS 0 0x2001 0 with remote := List.replicate 63 (9, false) }
     Runs (onS t g1) t always [.x 5, .x 6, .x 7] [.x 6, .x 7] ∧ ((onS t g1).remoteOf t).length = 63 ∧ ((onS t g1).srcX 1 7).toNat % 8 ≠ 0) ∧
    (let s := { onS (tS 0x202 0x2000 0) g1 with mem := memInv }
     (s.readWords (s.me.mctx 1) 0x2000 10).2 = .error (.trap 0x12 0x2000)) ∧
    (let s := { sTab with locks := [0x130000], threads := [(1, { tS 0x1000 0 0 with ptBase := 0x100001 })] }
     (s.readWords (s.me.mctx 1) 0x1000 10).2 = .error .wait) ∧
    ({ onL (tL 0 0 0) with units := (List.range 8).map fun d => (.die (2 + d), 2, 0) } : State).originDie (tL 0 0 0) = none ∧
    ∃ s2 m, (sInv 0x2000).allocMark 2 mark0 = some (s2, m) ∧ s2.markAt m = some mark0 := by
  refine ⟨⟨runs_of (by decide), by decide⟩, ⟨runs_of (by decide), by decide⟩, by decide, by decide, by decide, _, _, rfl, ?_⟩
  have h := mark_of_index (Config.freeStart 0 % 65536) (by omega)
  show State.markAt _ (markWord 2 (Config.freeStart 0 % 65536) 0) = _
  unfold State.markAt
  rw [h.1, h.2.1, h.2.2]
  simp [State.markGen, State.die, State.updDie, tget, tset, sInv, onL, State.reset, Die.init, Die.markSpace, spillEn]
theorem witness_Marks :
    (let s := sMark mark0 8
     Runs s s.me always [.x 5, .x 6] [.x 6] ∧ Runs s s.me always [.x 5, .x 6, .x 7] [.x 6, .x 7] ∧ Runs s s.me always [.x 6] [.x 6] ∧ s.markLost mk3 = false ∧
       s.liveMark mk3 0 = some mark0 ∧ mark0.spilled = false ∧ mark0.final = false ∧ s.liveMark mk3 1 = none ∧ mark0.holder = s.tidOf s.me) ∧
    ({ sMark mark0 8 with units := [(.die 2, 2, 0)] } : State).markLost mk3 = true ∧
    (let e : Mark := { mark0 with spilled := true }
     let s : State := { sMark e 8 with dies := [(2, { Die.init with marks := [(3, e)], mkspill := BitVec.ofNat 64 (2 ^ 48 + 33) })] }
     s.liveMark mk3 0 = some e ∧ e.spilled = true ∧ (s.spillIn 2 3).2 = true) ∧
    (let e : Mark := { mark0 with st := .broken, cause := -7, origin := 9 }
     (sMark e 8).liveMark mk3 0 = some e ∧ e.final = true) ∧
    (let s : State := { sMark mark0 0 with threads := [(1, { tS 0 0 0 with mark := some mk3.toNat })] }
     Runs s s.me always [] ((List.range 8).map fun j => .x (BitVec.ofNat 5 (10 + j))) ∧ (s.identify s.cur).me.mark = some mk3.toNat ∧ (s.identify s.cur).me.resolved = false ∧
       markDie mk3 = s.me.die ∧ s.markAt mk3 = some mark0) ∧
    Runs (onL (tL 0 0 0)) (tL 0 0 0) always [] ((List.range 8).map fun j => .x (BitVec.ofNat 5 (10 + j))) ∧
    (let m4 := markWord 2 4 0
     let f : Mark := { mark0 with inv := some { inv0 with place := mk3 } }
     let s : State := { sMark mark0 0 with dies := [(2, { Die.init with marks := [(3, { mark0 with queue := [m4] }), (4, f)] })], msgs := [.enqueue m4 mk3, .resolve mk3 2 [7], .broke mk3 (-4) mk3] }
     s.msgs[0]? = some (.enqueue m4 mk3) ∧ s.msgs[1]? = some (.resolve mk3 2 [7]) ∧ s.msgs[2]? = some (.broke mk3 (-4) mk3) ∧ s.msgs[3]? = none ∧ s.markAt m4 = some f ∧
       s.markAt mk3 = some { mark0 with queue := [m4] } ∧ s.markLost mk3 = false ∧ m4 ≠ mk3 ∧ s.dieOn 2 = true) :=
  ⟨⟨runs_of (by decide), runs_of (by decide), runs_of (by decide), by decide⟩, by decide, by decide, by decide, ⟨runs_of (by decide), by decide⟩, runs_of (by decide), by decide⟩
theorem witness_Preemption :
    (isSDie 2 = true ∧ (State.reset.die 2).prq.state ≠ 1 ∧ State.reset.prqTarget 2 = none) ∧
    (sPre .run .save).prqTarget 2 = some 1 ∧ ((sPre .run .save).wg 1).st = .run ∧
    (tget State.reset.wgs 1 = none) ∧
    (tget (sPre .stop .save).wgs 1).map (fun g => (g.st, g.method)) = some (.stop, .save) ∧
    (let s := onS (tS 0 0 0) { g1 with st := .drain, method := .drain, bound := 10 }
     (s.wg 1).bound ≠ 0xFFFFFFFF ∧ (s.wg 1).bound ≤ (s.wg 1).saveNs + ((s.timeOf (pkgOfDie 2)).toNat - (s.wg 1).asked)) ∧
    (let s : State := { sPre .stop .flush with threads := [(1, { tS 0 0 0 with spawned := true, launch := levelHandle 2 7 0 0 })], dies := (sLaunch 8 1).dies }
     (s.wg 1).st = .stop ∧ (s.wg 1).method = .flush ∧ 1 < s.nextId ∧ s.launchAt (s.thr 1).launch ≠ none ∧ (s.thr 1).spawned = true) ∧
    ((sPre .save .save).wg 1).st = .save ∧
    (let s := did (.saveCommit 1) (sPre .save .save)
     (s.wg 1).st = .saved ∧ (s.wg 1).group = 0 ∧ s.restorePlan 1 = some [(1, 128)]) ∧
    ((sPre .restore .save).wg 1).st = .restore := by decide
theorem witness_GovernorAndCourses :
    (let s := onS (tS 0 0 0) g1
     s.dieOn (16 / 8) = true ∧ isSDie (16 / 8) = true ∧ (s.course 16).mode ≠ .offline ∧ (s.course 16).floorOnly = false ∧ (s.course 16).govNext = none ∧
       (s.thr 1).onCourse 16 = true ∧ (s.thr 1).onCourse 17 = false) ∧
    (let s := { State.reset with courses := [(16, { Course.init with want := [100, 0, 0, 0] })] }
     courseOfCore 128 = 16 ∧ s.courseOn 16 = true ∧ 0 < s.idleSlices 128 ∧ (s.course 16).synEn = true ∧ tileN (s.course 16).grout 0 < tileN (s.course 16).want 0 ∧
       tileN (s.course 16).syn 0 < (s.course 16).groutBudget ∧ tileN (s.course 16).grout 0 * 64 < tileN (s.course 16).want 0 * Nat.min 64 ((s.course 16).clock + 1)) ∧
    isSDie (3 / 8) = false ∧ ({ Course.init with pwrWait := some 0 } : Course).pwrWait = some 0 ∧ Course.init.pwrWait ≠ some 0 ∧
    ((0x10 : BitVec 5).getLsbD 4 = true ∧ (0x01 : BitVec 5).getLsbD 0 = true ∧ (0x0A : BitVec 5).getLsbD 1 = true) := by decide
theorem witness_Health :
    (isSDie 2 = true ∧ (3 : Nat) < 4 ∧ ((tget (State.reset.die 2).quads 3).getD ⟨0, false, false, 0⟩).off = false ∧ (State.reset.die 2).errHead - (State.reset.die 2).errTail ≠ 256) ∧
    ((⟨0, true, true, 1⟩ : Quadrant).off = true ∧ tsorted (onS (tS 0 0 0) g1).wgs = true ∧ inQuad 2 0 128 = true ∧ g1.st = .run) ∧
    (({ Mon.init with ctl := 0x47 } : Mon).ctl.getLsbD 6 = true ∧ (0x47 : Word).toNat % 64 < 8) ∧
    ((State.reset.service (.core 128)).1 = 0 ∧ ((did (.unitDrain (.core 128)) State.reset).service (.core 128)).1 = 1 ∧
      (did (.unitDrain (.core 128)) State.reset).unitEmpty (.core 128) = true ∧ (({ State.reset with units := [(.core 128, 2, 0)] } : State).service (.core 128)).1 = 2 ∧
      unitHolds (.core 128) g1 = true) ∧
    (State.reset.dieUp 2 = true ∧ ({ State.reset with units := [(.die 2, 2, 0)] } : State).dieUp 2 = false ∧ State.reset.present 0 = true ∧ State.reset.present 1 = false) ∧
    ((sMark mark0 0).markAt mk3 = some mark0 ∧ markDie mk3 = 2 ∧ (tS 0 0 0).die = 2 ∧ (tS 0 0 0).spawned = false ∧ (tS 0 0 0).place ≠ .saved) ∧
    (({ Pkg.init with staged := some 7 } : Pkg).staged = some 7 ∧ (0 : Nat) < 16 ∧ tsorted State.reset.threads = true) := by decide
theorem witness_PortsAndLinks :
    (let s := sPort 0x9000 64
     let q : Ring := ⟨0x8000, true, 4, 0, 1⟩
     s.portRuns 0 0 = true ∧ isRoce [1, 2, 3] = false ∧ tget (s.port 0 0).rx 0 = some q ∧ tget (s.port 0 0).tx 0 = some q ∧ q.en = true ∧ q.head ≠ q.tail ∧
       s.mem.readN 0x8000 8 % 64 = 0 ∧ s.mem.readN 0x8008 8 = 64 ∧ tget (s.port 0 0).qps 9 = some ⟨0, 1, 5, 4096⟩ ∧ (0 : Nat) ≠ 1 ∧
       (tget (s.port 0 0).rx 1).isNone = true ∧ s.dir = [] ∧ (∀ j < 32, s.memCode 0 (0x8000 + j) false = none ∧ s.fwd (0x8000 + j) = 0x8000 + j)) ∧
    ((sPort 0x9001 64).mem.readN 0x8000 8 % 64 ≠ 0 ∧ (sPort 0x9000 (64 + 2 ^ 32)).mem.readN 0x8008 8 / 2 ^ 32 % 2 = 1) ∧
    State.reset.portRuns 0 0 = false ∧
    (let s : State := { sPort 0x9000 64 with pkgs := [(0, { Pkg.init with ports := [(0, { Port.init with
       en := true, up := true, qps := [(9, ⟨0, 1, 5, 4096⟩)], regions := [(3, ⟨0, 0x100001, 0x1000, 64, true, true⟩)] })] })], mem := mTab }
     let g : Region := ⟨0, 0x100001, 0x1000, 64, true, true⟩
     tget (s.port 0 0).regions 3 = some g ∧ g.lo ≤ 0x1000 ∧ 0x1000 + 64 ≤ g.lo + g.len ∧ ¬(0x1000 + 65 ≤ g.lo + g.len) ∧
       (match (s.roceMap (g.ctx 0 0) .store (piecesOf 0x1000 8)).2 with | .ok _ => true | _ => false) = true ∧
       (match (s.roceMap (g.ctx 0 0) .load (piecesOf 0x1000 8)).2 with | .ok _ => true | _ => false) = true ∧
       (match (s.roceMap (g.ctx 0 0) .load (piecesOf 0x2000 8)).2 with | .bad _ => true | _ => false) = true ∧
       (match (({ s with locks := [0x130000] } : State).roceMap (g.ctx 0 0) .load (piecesOf 0x1000 8)).2 with | .wait => true | _ => false) = true) ∧
    (State.reset.present 0 = true ∧ State.reset.present 1 = false ∧ (3 : Nat) < 4 ∧ tget State.reset.threads 1 ≠ none ∧ tget State.reset.threads 9 = none) := by decide
theorem witness_ControlRegisterWrites :
    (State.reset.present 0 = true ∧ State.reset.dieUp 0 = true ∧ State.reset.dieUp 1 = true ∧ State.reset.dieUp 9 = true ∧ State.reset.ctrlGet 0 4 = none) ∧
    (let x : Die := { Die.init with idwEn := true, idwTable := 0x300000, idwAsid := 1 }
     let s : State := { State.reset with dies := [(2, x)] }
     (s.die 2).idwEn = true ∧ (x.idwTable + 16 * x.idwAsid.toNat) % 16 = 0 ∧ s.dir = [] ∧
       ∀ j < 16, s.fwd (0x300010 + j) = 0x300010 + j ∧ s.memCode 0 (0x300010 + j) false = none) ∧
    (isSDie 2 = true ∧ isSDie 0 = false ∧ (State.reset.die 2).idwEn = false) ∧
    (let s : State := { wL 4 with ctxs := [(0, { Ctx.init with thread := some 1, irqEn := 1 })], threads := [(1, { tL 9 4 0 with wait := some .wfi })] }
     (s.ctx 0).thread = some 1 ∧ (s.thr 1).place = .ctx 0 0 ∧ (s.thr 1).wait = some .wfi ∧ (s.ctx 0).irqEn.getLsbD 0 = true) ∧
    ((0 : Int) ≤ (0x7FFFFFFFFFFFFFFF : Word).toInt ∧ (0x8000000000000000 : Word).toInt < 0) := by decide

/-! #### More of the states and operands that the claims speak of -/

/-- The thread of index 2 of the launch of `sLaunch`, waiting in a bin of DIE_ID 3, and one that has moved away. -/
def tChild : Thread := { tL 0 0 0 with mode := false, spawned := true, launch := levelHandle 2 7 0 0, link := levelHandle 2 7 0 0, index := 2, place := .bin 3 0, pc := 0x100 }
/-- The launch spans the package: KEYSTONE on DIE_ID 2, one copy on each of DIE_ID 2 and 3, a block of four on DIE_ID 3. -/
def sSpan (gone : List Nat) : State :=
  { onL (tL 0 0 0) with
    threads := [(1, tL 0 0 0), (2, tChild)], nextId := 3
    dies := [(2, { Die.init with levels := [(7, ⟨0, 0, .sealed, 8, 0, 0, some ⟨{ recSpawn with span := true, restartable := true }, 100, 0, 2, 4, [⟨3, 0, 4⟩], 2, 3, 0, [], []⟩, false⟩)] }),
      (3, { Die.init with bins := [(0, ⟨0, 0x100, 2, 1 + recSpawn.fixed, none, 4, 0, [2]⟩)] })]
    units := gone.map fun d => (.die d, 2, 0) }

theorem witness_ThreadInstructions_departures :
    (let s : State := { onL (tL 0x202 0 0) with units := (List.range 8).map fun d => (.die (2 + d), 2, 0) }
     Runs s s.me always [.x 5, .x 6] [.x 6] ∧ s.me.deferred = none ∧ s.sCoreOn 0 = false ∧ placeOk (s.srcX 0 6) = true) ∧
    (2 ∈ (sSpawn 0x2000 0).sDies (sSpawn 0x2000 0).me.pkg ∧ (sSpawn 0x2000 5).levelOf 5 = none) ∧
    (let s := sLaunch 8 1
     ∃ l, s.levelOf (s.srcX 0 6) = some l ∧ l.asid = s.me.asid ∧ l.st = .sealed ∧ l.count ≠ 0 ∧ s.me.cancelling = false ∧
       ∃ v : Thread, v.onL = false ∧ v.link = s.srcX 0 6) ∧
    (let s : State := { sLaunch 8 0 with dies := [(2, { Die.init with levels := [(7, ⟨0, 0, .done, 0, -6, 0, none, true⟩)] })] }
     ∃ l, s.levelOf (s.srcX 0 6) = some l ∧ l.asid = s.me.asid ∧ l.st = .done) ∧
    (let t : Thread := { tL 0 0 0 with stops := [levelHandle 2 7 0 0], wait := some (.cancel 2 7 0) }
     Runs (onL t) t always [.x 5, .x 6] [.x 6] ∧ t.cancelling = true) :=
  ⟨⟨runs_of (by decide), by decide⟩, by decide, ⟨_, rfl, by decide, by decide, by decide, by decide, tChild, by decide, by decide⟩, ⟨_, rfl, by decide, by decide⟩,
    runs_of (by decide), by decide⟩
theorem witness_ThreadEvents_moves :
    (let t : Thread := { tL 0 0 0 with wait := some .send, move := some ⟨0, 5, 4, 0⟩ }
     let s := onL t
     s.destOf t ⟨0, 5, 4, 0⟩ = some 0 ∧ isSDie 0 = false ∧ (s.die 0).arq.room ≤ s.inbound 0) ∧
    (let s : State := { onL { tL 0 0 0 with place := .flight, cancelled := true } with msgs := [.thread 2 1] }
     s.dieOn 2 = true ∧ (s.die 2).arrivals.length < 4096 ∧ s.msgs[0]? = some (.thread 2 1) ∧ (tget s.threads 1).map (·.cancelled) = some true) ∧
    (let v : Inv := { inv0 with place := markWord 2 9 0, seq := 5 }
     let e : Mark := { mark0 with inv := some v }
     let f : Mark := { mark0 with inv := some { v with seq := 4 } }
     let s : State := { sMark e 0 with dies := [(2, { Die.init with marks := [(3, f), (4, e)] })], msgs := [.invoke 2 mk3, .invoke 2 (markWord 2 4 0)] }
     s.msgs[1]? = some (.invoke 2 (markWord 2 4 0)) ∧ s.markAt (markWord 2 4 0) = some e ∧ e.discards = false ∧ s.cancelComes (markWord 2 4 0) = false ∧
       s.olderInvoke e = true ∧ s.olderInvoke f = false ∧ e.inv = some v) ∧
    ({ mark0 with st := .broken, cause := -5 } : Mark).discards = true ∧
    (let s : State := { sSpan [] with pkgs := [(0, { Pkg.init with time := 3 })] }
     ∃ e, tget (s.die 3).bins 0 = some e ∧ e.threads ≠ [] ∧ s.fillOf 3 e ≤ 64 ∧ 0 < s.fillOf 3 e ∧ e.threads.Nodup ∧
       s.timerOf 3 e * 10 ≤ ((s.timeOf (pkgOfDie 3)).toNat - (s.thr (e.threads.headD 0)).since) * 19 ∧ (∀ k ∈ e.threads, s.wants 3 (s.thr k) = (none, none)) ∧
       (s.thr 2).origin = .spawned ∧ (s.recordOf (s.thr 2)).map (·.roles) = some [(0, 0, 0), (0, 0, 0), (0, 0, 0), (0, 0, 0)]) ∧
    (let s : State := { onL { tL 0 0 0 with place := .bin 2 0, pc := 8 } with dies := [(2, { Die.init with bins := [(0, ⟨0, 8, 2, 0, none, 4, 5, [1]⟩)] })] }
     ∃ e, tget (s.die 2).bins 0 = some e ∧ ¬(s.timerOf 2 e * 10 ≤ ((s.timeOf (pkgOfDie 2)).toNat - (s.thr (e.threads.headD 0)).since) * 19)) :=
  ⟨by decide, by decide, by decide, by decide, ⟨_, rfl, by decide, by decide, by decide, by decide, by decide, by decide, by decide, by decide⟩, ⟨_, rfl, by decide⟩⟩
theorem witness_ThreadEvents_launches :
    (let h := (sSpan []).launchNamed (2 * 4096 + 7)
     (sSpan []).canAsk h 2 = true ∧ (∀ j < 4, (sSpan []).runsIndex h (4 + j) = false) ∧ ((sSpan []).launchAt h).map (·.redo) = some [] ∧
       ((sSpan []).launchAt h).map (fun x => (x.next, x.record.count, x.record.wgsize)) = some (4, 8, 4) ∧
       (∀ x ∈ (sSpan []).threads, ¬(x.2.spawned = true ∧ x.2.launch = h ∧ (sSpan []).stranded x.2 = true)) ∧ ((sSpan []).levelOf h).map (·.final) = some false) ∧
    (let s : State := { sSpan [] with dies := [(2, { Die.init with levels := [(7, ⟨0, 0, .sealed, 8, 0, 0, some ⟨recSpawn, 100, 0, 2, 8, [], 2, 2, 0, [⟨3, 0, 4⟩], []⟩, false⟩)] })] }
     s.canAsk (s.launchNamed (2 * 4096 + 7)) 2 = true) ∧
    (let s := sSpan [3]
     let h := s.launchNamed (2 * 4096 + 7)
     tsorted s.threads = true ∧ tget s.threads 2 = some tChild ∧ tChild.launch = h ∧ s.stranded tChild = true ∧
       ((s.launchAt h).map fun x => (x.record.restartable, s.dieUp x.copyA, (s.participants h x).isEmpty, s.dieUp x.keystone)) = some (true, true, false, true)) ∧
    (let s : State := { sSpan [2] with threads := [(1, tL 0 0 0)] }
     let h := s.launchNamed (2 * 4096 + 7)
     ((s.launchAt h).map fun x => (s.dieUp x.keystone, s.dieUp x.copyA, s.dieUp x.copyB, (s.participants h x).headD x.keystone)) = some (false, false, true, 3)) ∧
    (let s := sSpan [2, 3]
     ((s.levelOf (s.launchNamed (2 * 4096 + 7))).map fun l => (l.told, l.st, l.final)) = some (false, .sealed, false) ∧ s.dieUp 2 = false ∧ s.dieUp 3 = false) ∧
    (let v : WG := { g1 with sclass := 2, size := 4, spPages := 768 }
     let s : State := { onS (tS 0 0 0) g1 with
       wgs := [(1, { WG.init with die := 2, size := 1, sclass := 0, spPages := 1, regs := 512, wantCore := some 128 }), (2, v)] }
     s.placeable 1 = false ∧ s.nextVictim 1 ≠ none ∧ tsorted s.wgs = true ∧ tget s.wgs 1 ≠ none) ∧
    (let s : State := { State.reset with units := [(.die 0, 2, 0)] }
     s.dieUp 0 = false) ∧
    (let t : Thread := { tChild with place := .slot 128 0 0 0, wg := 1, ending := some .fatal, wait := some .exitQueue, left := true }
     let s : State := { onS t g1 with dies := [(2, { (sSpan []).die 2 with exq := ⟨0x4000, true, 8, 0, 0⟩ })] }
     (s.levelOf t.launch).map (fun l => (l.told, l.st, l.count)) = some (false, .sealed, 8) ∧ (t.onL = false ∨ t.spawned = true)) := by decide

/-- A mark of the same die with index 4, the two of them, and an entry whose invocation is addressed to `mk3`. -/
def mk4 : Word := markWord 2 4 0
def sChain (e f : Mark) (ms : List Msg) : State :=
  { sMark e 0 with dies := [(2, { Die.init with marks := [(3, e), (4, f)], idwEn := true, idwTable := 0x300000 })], msgs := ms }
def markTo3 : Mark := { mark0 with st := .forwarded, inv := some { inv0 with place := mk3 } }

theorem remoteFull_of (l : List (Nat × List (Nat × Bool))) (h : tget l 0 = none) (hl : 16384 ≤ l.length) :
    ({ onL (tL 0 0 0) with pkgs := [(0, { Pkg.init with remote := l })] } : State).remoteFull (tL 0 0 0) = true := by
  show (true && (tget l 0).isNone && decide (16384 ≤ l.length)) = true
  simp [h, hl]
theorem buffered_of (q : List Word) : (sMark { mark0 with queue := q } 0).buffered 2 = q.length := by
  show 0 + q.length + 0 = q.length
  omega
theorem tget_shift (l : List Nat) : tget (l.map fun k => (k + 1, ([] : List (Nat × Bool)))) 0 = none := by
  induction l with
  | nil => rfl
  | cons a l ih => simp [tget, ih]
theorem witness_Marks_limits :
    (∃ l, ({ onL (tL 0 0 0) with pkgs := [(0, { Pkg.init with remote := l })] } : State).remoteFull (tL 0 0 0) = true) ∧
    (∃ q x, 16384 ≤ (sMark { mark0 with queue := q } 0).buffered 2 ∧ (sMark { mark0 with queue := q } 0).upstream mk3 0 = some x) :=
  ⟨⟨(List.range 16384).map fun k => (k + 1, []), remoteFull_of _ (tget_shift _) (by simp)⟩,
    ⟨List.replicate 16384 0, _, by rw [buffered_of, List.length_replicate], rfl⟩⟩
theorem witness_Marks_more :
    (let f : Mark := { mark0 with st := .resolved, result := [7, 0, 0, 0, 0, 0, 0, 0] }
     let s := sMark f 0
     s.liveMark mk3 0 = some f ∧ s.markLost mk3 = false ∧ mk4 ≠ mk3 ∧ s.cancelComes mk4 = false ∧ s.forwardDie inv0 2 0 = some 2 ∧
       ({ s with units := [(.die 2, 2, 0)] } : State).forwardDie inv0 2 0 = none ∧
       ({ s with units := [(.die 2, 2, 0)] } : State).forwardDie { inv0 with restartable := true } 2 3 = some 3 ∧ f.spilled = false ∧ f.final = true) ∧
    (let s := sMark mark0 0
     s.liveMark mk3 0 = some mark0 ∧ mark0.final = false ∧ markDie mk3 ≠ s.me.die ∧ (tS 0 0 0).die = markDie mk3 ∧
       ∃ s1, s.readWords (s.me.mctx 1) 0x1000 10 = (s1, .ok [0, 0, 0, 0, 0, 0, 0, 0, 0, 0])) ∧
    (let s := sMark { mark0 with holder := 9 } 0
     Runs s s.me always [.x 6] [.x 6] ∧ ∀ e, s.liveMark mk3 0 = some e → e.holder ≠ s.tidOf s.me) ∧
    (let s : State := { sMark mark0 0 with threads := [(1, { tL 0 0 0 with mark := none })], away := [(0, { Away.init with mark := some mk3.toNat })] }
     Runs s s.me always [] ((List.range 8).map fun j => .x (BitVec.ofNat 5 (10 + j))) ∧ (s.identify s.cur).me.mark = some mk3.toNat ∧ markDie mk3 ≠ s.me.die) :=
  ⟨by decide, ⟨by decide, by decide, by decide, by decide, ⟨_, pair_of (by decide)⟩⟩, ⟨runs_of (by decide), by decide⟩, ⟨runs_of (by decide), by decide⟩⟩
theorem witness_Marks_messages :
    (let e : Mark := { mark0 with st := .broken, cause := -4, origin := mk3 }
     let s := sChain e markTo3 [.enqueue mk4 mk3]
     s.msgs[0]? = some (.enqueue mk4 mk3) ∧ s.markAt mk4 = some markTo3 ∧ markTo3.final = false ∧ s.markLost mk3 = false ∧ s.markAt mk3 = some e ∧
       ({ s with units := [(.die 2, 2, 0)] } : State).markLost mk3 = true ∧ ({ s with dies := [] } : State).markAt mk3 = none) ∧
    (let e : Mark := { mark0 with st := .resolved, site := 2, result := [7] }
     let s := sChain e markTo3 [.enqueue mk4 mk3]
     s.markAt mk3 = some e ∧ s.cancelComes mk4 = false ∧ s.forwardDie { inv0 with place := mk3 } e.site (markDie mk3) = some 2 ∧
       s.forwardDie { inv0 with place := mk3 } 32 (markDie mk3) = none) ∧
    (let e : Mark := { mark0 with queue := [mk4] }
     let s : State := { sChain e markTo3 [.resolve mk3 2 [7], .broke mk3 (-4) mk3, .cancel mk4 9] with threads := [(1, { tS 0 0 0 with remote := [(mk3.toNat, false)] })] }
     s.msgs[0]? = some (.resolve mk3 2 [7]) ∧ s.msgs[1]? = some (.broke mk3 (-4) mk3) ∧ s.markLost mk3 = false ∧ s.markAt mk3 = some e ∧ e.final = false ∧
       mk4 ≠ mk3 ∧ s.markAt mk4 = some markTo3 ∧ markTo3.final = false ∧ markTo3.inv.isSome = true ∧ s.dieOn 2 = true ∧
       (tget s.threads 1).map (·.remote) = some [(mk3.toNat, false)] ∧ s.msgs[2]? = some (.cancel mk4 9) ∧ s.markRuns mk4 = false ∧ s.cancelHeld mk4 = true) ∧
    (let s : State := { sChain { mark0 with queue := [mk4] } markTo3 [.resolve mk3 2 [7]] with threads := [(1, tS 0 0 0)] }
     s.cancelComes mk4 = false) ∧
    (let s := sMark mark0 0
     ({ s with msgs := [.cancel mk3 9] } : State).cancelHeld mk3 = false ∧ s.markRuns mk3 = false ∧
       ({ s with threads := [(1, { tS 0 0 0 with mark := some mk3.toNat })] } : State).markRuns mk3 = true) := by decide
theorem witness_Preemption_more :
    (let s := sPre .drain .drain
     s.prqTarget 2 = some 1 ∧ (s.wg 1).st ≠ .run ∧ (s.die 2).prq.state ≠ 1) ∧
    (let s := sPre .run .save
     s.leftOf (s.wg 1) = none ∧ ({ s with dies := [(2, { Die.init with hist := [⟨0, 0, 1, 100, 2⟩] })] } : State).leftOf (s.wg 1) = some 50 ∧
       2200 + (20736 + 1024 + 4128 + 16384 * 4 + 136 * 4) / 320 + 160 ≤ 10000) ∧
    (let s := sPre .stop .save
     tget s.wgs 1 = some (s.wg 1) ∧ s.canStop 1 = true ∧ s.saveTurn 1 = true ∧ (s.wg 1).method ≠ .flush ∧ s.me.ending = none ∧ s.me.wg = 1) ∧
    ({ sPre .stop .save with threads := [(1, { tS 5 0 0 with pend := [⟨.x 5, none, 0, 9⟩] })] } : State).canStop 1 = false ∧
    ({ tS 5 0 0 with wait := some .wfi } : Thread).wait.map Wait.restarts = some false ∧ ({ tS 5 0 0 with wait := some .lane } : Thread).wait.map Wait.restarts = some true ∧
    (let s : State := { sLaunch 8 1 with
       threads := [(1, { tS 0 0 0 with spawned := true, launch := levelHandle 2 7 0 0 })], wgs := [(1, { g1 with st := .stop, method := .flush, level := some (2, 7) })] }
     s.canStop 1 = true ∧ tsorted s.threads = true ∧ (s.thr 1).lane < 1024 ∧ s.launchAt (s.thr 1).launch ≠ none ∧ (s.thr 1).cancelled = false) ∧
    (let s := sPre .save .save
     (∀ t ∈ s.threads, t.2.wg = 1 → t.2.cancelled = false) ∧ ({ s with threads := [(1, { tS 5 0 0 with cancelled := true })] } : State).me.cancelled = true) ∧
    (let s := sPre .saved .save
     (s.wg 1).st = .saved ∧ (s.wg 1).group = 0 ∧ s.saving (s.wg 1).die < 16 ∧ s.restorePlan 1 = some [(1, 128)] ∧
       ({ s with units := (List.range 8).map fun d => (.die (2 + d), 2, 0) } : State).restorePlan 1 = none ∧
       16 ≤ ({ s with wgs := s.wgs ++ (List.range 16).map fun i => (2 + i, { g1 with st := .save }) } : State).saving 2) ∧
    (let s := sPre .restore .save
     (s.wg 1).fromPrq = false ∧ s.unitsStay (s.wg 1) = true ∧ ({ s with units := [(.core 128, 1, 0)] } : State).unitsStay (s.wg 1) = false ∧
       (s.wg 1).slots[(tS 5 0 0).lane / 4]? = some (0, 0)) := by decide
theorem witness_GovernorAndCourses_more :
    (let s := { State.reset with courses := [(16, { Course.init with clock := 64, want := [100, 0, 0, 0] })] }
     s.dieUp (16 / 8) = true ∧ isSDie (16 / 8) = true ∧ 64 ≤ (s.course 16).clock ∧ (s.course 16).mode ≠ .offline ∧ (s.course 16).clock < 65 ∧
       ({ s with courses := [(16, { Course.init with clock := 64, mode := .offline })] } : State).course 16 ≠ s.course 16 ∧ (State.reset.course 16).clock < 64) ∧
    (let s := { State.reset with courses := [(16, { Course.init with want := [100, 0, 0, 0] })] }
     s.coreRuns 128 = true ∧ 0 < s.idleSlices 128 ∧ (s.course 16).floorOnly = false ∧ tileN (s.course 16).grout 0 < tileN (s.course 16).want 0) ∧
    State.reset.managed (.course 16) = true ∧ ({ State.reset with units := [(.die 0, 2, 0)] } : State).managed (.course 16) = false ∧
    (let c : Course := { Course.init with pwrWait := some 0, pwr := 0x1E, mode := .offline }
     c.pwrWait = some 0 ∧ c.pwr.getLsbD 4 = true ∧ State.reset.quadOff 2 0 = false ∧ pwrMode 0x0E = .degraded ∧ (0x0E : BitVec 5).toNat / 4 % 4 = 3 ∧
       pwrMode 0x01 = .nearThreshold ∧ pwrMode 0 = .normal) := by decide
theorem witness_Health_more :
    (State.reset.stores = [] ∧ ∀ t ∈ State.reset.threads, t.2.cancelled = false) ∧
    (let m : Mon := { Mon.init with ctl := 0x243 }
     (3 : Nat) < 16 ∧ m.ctl.getLsbD 6 = true ∧ m.ctl.toNat % 64 = 3 ∧ m.ctl.toNat / 256 % 64 = 2 ∧ ¬(Mon.init.ctl.getLsbD 6 = true) ∧ (0x44 : Word).toNat % 64 = 4) ∧
    (State.reset.manages (.core 128) = true ∧ State.reset.managed (.quadrant 2 0) = true ∧ ({ State.reset with units := [(.die 0, 2, 0)] } : State).manages (.core 128) = false ∧
      ({ State.reset with units := [(.die 0, 2, 0)] } : State).manages (.die 0) = true) ∧
    (let t : Thread := { tS 0 0 0 with back := [⟨4, (tS 0 0 0).x, (tS 0 0 0).f, (tS 0 0 0).p, Loop.none, Loop.none, 0, []⟩] }
     ∃ b, ((t.back.take 1).takeWhile fun b => b.pend.all (·.val.isSome)).getLast? = some b ∧ b.pend = []) ∧
    ((tS 0 0 0).back = [] ∧ (tS 0 0 0).place ≠ .saved ∧ (tS 0 0 0).place ≠ .flight) ∧
    (let s : State := { State.reset with copies := [] }
     (∀ c ∈ s.copies, keyAgent c.1 / 512 ≠ 0) ∧ (∀ c ∈ s.copies, agentDie (keyAgent c.1) ≠ 2) ∧ (1 : Nat) ≠ s.nextId ∧ (onS (tS 0 0 0) g1).threadPkg 1 (tS 0 0 0) ≠ 3) ∧
    ((2 : Nat) ≠ 3 ∧ 2 / 16 = 3 / 16 ∧ State.reset.present (2 / 16) = true) ∧
    ((State.reset.pkg 0).rollback ≤ 7 ∧ (State.reset.pkg 0).staged = none ∧ ((unitsOf 0).map (·.1)).contains (UnitId.core 128) = true) :=
  ⟨by decide, by decide, by decide, ⟨_, rfl, rfl⟩, by decide, by decide, by decide, by decide⟩
theorem witness_PortsAndLinks_more :
    (let s := sPort 0x9000 64
     s.soft = [] ∧ (∀ d ∈ s.dir, d.2.uop = none) ∧ (∀ j < 32, s.memCode 0 (0x8000 + j) false = none ∧ (s.dirOf (secOf (0x8000 + j))).st ≠ .p) ∧
       s.mem.readN 0x8000 8 < 2 ^ 52 ∧ (s.port 0 0).qps.length ≤ 4096 ∧ [(1 : Nat), 2, 3].length ≤ 4096 ∧ s.memCode 0 (s.fwd 0x8000) false = none) ∧
    ((sPort (2 ^ 52) 64).mem.readN 0x8000 8 = 2 ^ 52 ∧ ¬(([0, 0, 0] : List Nat).length ≤ (⟨0, 1, 5, 2⟩ : Qp).mtu)) ∧
    (∀ q : Qp, 4096 < ((List.range 4097).map fun k => (k, q)).length) ∧
    ({ sPort 0x9000 64 with units := [(.die 0, 2, 0)] } : State).portRuns 0 0 = false ∧
    (let s := { sPort 0x9000 64 with poison := [0x8000] }
     (s.memCode 0 (s.fwd 0x8000) false).isSome = true) :=
  ⟨by decide, by decide, fun _ => by simp, by decide, by decide⟩
theorem witness_ControlRegisterWrites_more :
    (∀ n < 4, State.reset.dieUp (portDie 0 n) = true) ∧ State.reset.soft = [] ∧ (∀ r ∈ State.reset.dir, r.2.uop = none) ∧
    ((sPort 0 0).port 0 0).rx.map (fun r => r.2.en) = [true] := by decide

/-! #### Order of accesses (13 R288) -/

/-- The boot thread with a load into x5 from 0x1000 that stays behind. -/
def sLate : State :=
  { onL { tL 9 4 0 with pend := [⟨.x 5, none, 0, 7⟩] } with stores := [heldLoad 7], mem := Store.writeN [] 0x1000 8 9 }
theorem test_late_load_takes_newer_value : ((sLate.performOne 0).thr 1).getX 5 = 9 ∧ (sLate.performOne 0).stores = [] := by decide
theorem test_fence_performs_load : (sLate.ordered (.fence .sys)).stores = [] ∧ (sLate.ordered (.st .b64 7 7 6 0 0)).stores = [heldLoad 7] := by decide

/-! #### Accesses that stay behind, and results on their way -/

/-- The boot thread, and a thread of the workgroup, whose next access is to stay behind. -/
def sDelay : State := { onL (tL 0x1000 7 0) with delay := some 1 }
def sDelayS : State := { onS (tS 4088 7 0) gTag with delay := some 1 }

theorem witness_RegistersAndWindows_lists :
    (let t : Thread := { tL 0 0 0 with pend := [⟨.x 5, some 9, 1, 0⟩, ⟨.x 6, none, 1, 4⟩, ⟨.x 5, some 8, 2, 0⟩] }
     (∃ a b, t.pend = a ++ ⟨.x 5, some 9, 1, 0⟩ :: b ∧ ∀ p ∈ b, p.dest = .x 5 → 1 < p.left ∨ p.val = none) ∧
     (∃ a b, t.pend = a ++ ⟨.x 5, some 8, 0 + 2, 0⟩ :: b ∧ ∀ p ∈ b, p.dest = .x 5 → 1 < p.left ∨ p.val = none) ∧
     (∀ p ∈ t.pend, p.dest = .x 7 → 1 < p.left ∨ p.val = none) ∧
     (t.pend.filter (·.dest == .x 5)).getLast? = some ⟨.x 5, some 8, 2, 0⟩) :=
  ⟨⟨[], [⟨.x 6, none, 1, 4⟩, ⟨.x 5, some 8, 2, 0⟩], by decide⟩, ⟨[⟨.x 5, some 9, 1, 0⟩, ⟨.x 6, none, 1, 4⟩], [], by decide⟩, by decide, by decide⟩
/-- A user thread at the last word of the body of its inner loop. -/
def tEnd : Thread := { tS 5 6 0 with lp1 := ⟨64, 0, 2⟩ }
theorem tEnd_budget (d : Dest) : tEnd.inBudget d = true := by cases d <;> (rename_i r; revert r; decide)
theorem witness_LoopEnds_exec :
    (let t := tEnd
     tget (onS t g1).threads 1 = some t ∧ t.mode = false ∧ t.guard 0 = false ∧ t.onL = false ∧ (∀ d, t.inBudget d = true) ∧
       Runs (onS t g1) t always [.x 5, .x 6, .x 7] [.x 6, .x 7] ∧ t.lp1.hit t.pc 4 = true ∧ 1 < t.lp1.count.toNat) ∧
    (let t : Thread := { tS 5 6 0 with lp0 := ⟨64, 4, 3⟩, lp1 := ⟨64, 0, 2⟩, pc := 4 }
     t.lp1.hit t.pc 4 = false ∧ t.lp0.hit t.pc 4 = true ∧ 1 < t.lp0.count.toNat) :=
  ⟨⟨by decide, by decide, by decide, by decide, tEnd_budget, runs_of (by decide), by decide⟩, by decide⟩
theorem witness_accesses_stay_behind :
    (sDelay.delay = some sDelay.cur ∧ sDelay.stores = [] ∧ sDelay.views = [] ∧ (0x1000 : Word).toNat % 8 = 0 ∧ sDelay.atCtrl (cL.ag / 512) 0x1000 = false ∧
      (∀ k, sDelay.xlate cL 0x1000 k = (sDelay, .ok 0x1000 bareLeaf)) ∧ (∃ s2 v, sDelay.physLoad cL (regionOf bareLeaf) 0x1000 8 false = (s2, .ok v)) ∧
      sDelay.memCode (cL.ag / 512) 0x1000 false = none) ∧
    (onL (tL 0x1000 7 0)).prompt ∧
    (sDelayS.delay = some sDelayS.cur ∧ sDelayS.stores = [] ∧ sDelayS.views = [] ∧ (∃ v, sDelayS.spadLoad 4088 8 = (sDelayS, .ok v)) ∧
      4088 / 16 * 16 ∉ (sDelayS.wg 1).tags ∧ (7 : Nat) < 256 ^ 8 ∧ (tget sDelayS.wgs 1).isSome = true ∧ sDelayS.me.guard always = true ∧
      LdSize.d64.bytes = 8 ∧ sDelayS.srcX 0 6 + BitVec.ofInt 64 ((0 : BitVec 7).toInt * 8) = 4088) :=
  ⟨⟨rfl, rfl, rfl, by decide, by decide, fun _ => rfl, ⟨_, _, rfl⟩, by decide⟩, ⟨by decide, fun h hh => (by cases hh)⟩,
    rfl, rfl, rfl, ⟨0, rfl⟩, by decide⟩
theorem witness_AtomicsOnMemory_behind :
    let i := Instr.amo .add true 7 5 6 7 0 .plain .thread 0 0
    let h : Held := { heldLoad 7 with i := some i, v := 4 }
    let t : Thread := { tL 9 4 0 with pend := [⟨.x 5, none, 0, 7⟩] }
    let s : State := { onL t with stores := [h] }
    s.stores = [h] ∧ h.ctrl = false ∧ h.i = some i ∧ h.n = 8 ∧ tget s.threads h.c.who = some t ∧ t.pend = [⟨.x 5, none, 0, h.id⟩] ∧
    ∃ s1 old, ({ s with stores := [] } : State).secAtomic h.r h.c.ag h.addr h.n false (fun x => some (amoNew .add (8 * h.n) x h.v)) h.c.who = (s1, .ok old) :=
  ⟨rfl, rfl, rfl, rfl, by decide, rfl, _, _, rfl⟩
theorem witness_PrefetchMonitorFence_woken :
    (let t : Thread := { tL 0 0 0 with wait := some (.wmon 0x1000 0x1000 false), rel := some 1 }
     tget (onL t).threads 1 = some t ∧ t.wait = some (.wmon 0x1000 0x1000 false) ∧ t.rel = some 1) := by decide

/-- 13 R288: a load that stays behind is performed as its result is needed by a fence, and the fence's thread goes on. -/
theorem test_load_behind :
    (let s := did (.ld .d64 7 5 6 0 0) sDelay
     s.stores.length = 1 ∧ s.me.pc = 4 ∧ s.me.getX 5 = 0 ∧ (s.performOne 0).me.pend = []) := by decide

/-! #### Engines, the walkers and steps -/

/-- The command of `sCopied` as a gather, as a scatter, and as a multicast in a course group of one member. -/
def mGat : CopyCmd := { mIn with kind := .gat }
def mSct : CopyCmd := { mIn with kind := .sct }
def mMc : CopyCmd := { mIn with kind := .mc, dmask := 1 }
def sOf (m : CopyCmd) : State :=
  { sCopied with cores := [(128, { Core.init with copyQ := [m] })], groups := [(5, ⟨[1], [], []⟩)], wgs := [(1, { gBar 0 0 1 8 0 with group := if m.kind = .mc then 5 else 0 })] }
theorem witness_CopyEngineAndWcnt_kinds :
    (∀ m ∈ [mGat, mMc], ((sOf m).core 128).copyQ = m :: [] ∧ m.row < m.rows ∧ rowSel m.mask m.row = true ∧ 0 < m.chunk ∧ m.boff % 16 = 0 ∧ m.lost = [] ∧
      (sOf m).copyRuns 128 = true ∧ (sOf m).bestWg (((sOf m).core 128).copyQ.map (·.wg)) = some m.wg ∧ 0x1000 % 64 + m.chunk ≤ 64 ∧ m.boff + 16 ≤ m.so ∧
      (sOf m).xlate (m.ctx 128) m.va .load = (sOf m, .ok 0x1000 bareLeaf) ∧ (∀ j < m.chunk, (m.so + j) / 16 * 16 ∉ ((sOf m).wg 1).tags) ∧
      m.boff ∈ ((sOf m).wg 1).tags ∧ m.chunk ≤ (((sOf m).wg 1).bar m.boff).inB) ∧
    (∀ m ∈ [mGat, mMc], Reaches (sOf m) (m.ctx 128) 0x1000 bareLeaf) ∧ (mGat.kind = .gat ∧ [mGat.wg] = [1]) ∧
    (mMc.kind = .mc ∧ ((sOf mMc).wg 1).group ≠ 0 ∧ (tilesOf mMc.dmask).map ((sOf mMc).receiver 1) = [1].map some ∧ [1].Nodup) ∧
    (mSct.kind = .sct ∧ ((sOf mSct).core 128).copyQ = mSct :: [] ∧ (sOf mSct).xlate (mSct.ctx 128) mSct.va .store = (sOf mSct, .ok 0x1000 bareLeaf)) := by
  refine ⟨?_, ?_, by decide, by decide, by decide, by decide, rfl⟩
  · intro m hm
    simp only [List.mem_cons, List.not_mem_nil, or_false] at hm
    rcases hm with rfl | rfl <;> exact ⟨by decide, by decide, by decide, by decide, by decide, by decide, by decide, by decide, by decide, by decide, rfl, by decide, by decide, by decide⟩
  · intro m hm
    simp only [List.mem_cons, List.not_mem_nil, or_false] at hm
    rcases hm with rfl | rfl <;> exact ⟨by decide, by decide, by decide, by decide, by decide, by decide, by decide⟩
/-- A gather that starts its first row, whose pointers 3 and 5 stand at 64. -/
def sRow (lo hi : Nat) : State :=
  { sMat (.gath false 64 128 256 0 0 1) { gMat with spad := Store.writeN (Store.writeN [] 64 4 lo) 68 4 hi } with cur := 1 }
theorem witness_MatrixPerformance_rows :
    ((sRow 3 5).wg 1).spad.readN 64 4 = 3 ∧ ((sRow 3 5).wg 1).spad.readN 68 4 = 5 ∧ 64 + 8 ≤ gMat.spPages * 4096 ∧ (3 : Nat) ≤ 5 ∧ (sRow 5 3).matRuns 128 = true ∧
    (((sRow 5 3).core 128).matQ.map fun m => (m.stop, m.pos)) = [(0, 0)] ∧ ¬(5 : Nat) ≤ 3 ∧ gMat.spPages * 4096 < 4092 + 8 := by decide
/-- A store of BF16 elements whose object at 2048 has its bytes to come, and one of INT8 onto a tagged granule. -/
def gSt : WG := { gMat with tags := [2048], spad := Store.writeN [] 2048 16 (BarObj.toNat ⟨0, 0, 1, false, false, 32, 0, 0⟩ true) }
theorem witness_MatrixPerformance_stores :
    (let s := sMat (.store 1 0 0 true 0 2048 0 64) gSt
     ((s.core 128).matQ.map (·.op)) = [.store 1 0 0 true 0 2048 0 64] ∧ (s.core 128).tcfg.toNat = 0 ∧ 16 * 2 ≤ (gSt.bar 2048).inB ∧ 2048 % 16 = 0 ∧ 2048 ∈ gSt.tags ∧
       (∀ y < 32, (0 + y) / 16 * 16 ∉ gSt.tags) ∧ (fcvtE .bf16 .f32 (rndOf 0) 0 0).2 = false) ∧
    (let s := sMat (.store 5 0 0 false 2048 noBar 0 64) gSt
     ((s.core 128).matQ.map (·.op)) = [.store 5 0 0 false 2048 noBar 0 64] ∧ (∃ y < 16, (2048 + y) / 16 * 16 ∈ gSt.tags) ∧
       (((did (.matrixPerform 128) s).core 128).matQ.map (·.row)) = [1]) ∧
    (fcvtE .bf16 .f32 (rndOf 0) 3 0x7F7FFFFF).2 = true := by decide
/-- 02 R32: a thread that transferred to the second parcel of the 64-bit instruction at 0x1000. -/
def sMid (entered : Bool) : State :=
  { onL { tL 1 2 0 with pc := 0x1004, entered := entered } with mem := Store.writeN [] 0x1000 8 0x001403022C062B8D, agenda := [.issue [1]] }
theorem witness_StepRunsDecoded_mid :
    let s := sMid true
    let s0 : State := { s.passTime with agenda := [] }
    s.gang = none ∧ s.agenda = .issue [1] :: [] ∧ s.passTime.due = none ∧ s0.mayIssue [1] = true ∧ (s0.thr 1).fresh = true ∧
      ∃ s1 w, State.fetch { s0 with cur := 1 } 1 = (s1, .ok w false true) ∧ (s1.thr 1).entered = true :=
  ⟨by decide, by decide, by decide, by decide, by decide, _, 0x140302, pair_of (by decide), by decide⟩
theorem test_enter_middle : (nx (step (sMid true))).me.cause.code = 0x0B ∧ (nx (step (sMid false))).me.cause.code ≠ 0x0B := by decide
theorem witness_WalkerCompletions_turns :
    (let s := sWalk (.cw false .sys none 0x1000 64)
     (s.walks.map fun m => (m.sent, s.walkTurn m, s.framed m, s.lineAway m .sys 0x1000)) = [(false, true, false, false)]) ∧
    (let s := { sWalk (.cw false .sys none 0x1000 64) with copies := [(copyKey 512 0x1000, ⟨.s, 0, 0⟩)] }
     (s.walks.map fun m => (m.sent, s.walkTurn m, s.lineAway m .sys 0x1000)) = [(false, true, true)] ∧
       ((did (.cwWalkComplete 0) s).walks.map (·.sent)) = [true] ∧ (did (.cwWalkComplete 0) (did (.cwWalkComplete 0) s)).walks = []) ∧
    (let m : WalkCmd := ⟨9, 1, 0, 0, .cw false .sys none 0x1000 5000, 0, 0, true, 64, some 0x1000, false, 0, none⟩
     let s : State := { onL (tL 0 0 0) with walks := [⟨8, 1, 0, 0, .tlb .all .sys 0 0 0, 0, 0, true, 0, none, false, 0, none⟩, m] }
     (s.walks.map s.framed) = [true, false] ∧ (did (.tlbInvComplete 0) s).walks.length = 2) := by decide

/-- 06 R146: bytes of a row that the agenda moves ahead of their turn are counted then, and the command goes past them later. -/
theorem test_copy_ahead :
    (let s := sCopied.copyAhead 128 0 0 4 4
     let u := did (.copyChunkLand 128) s
     ((s.core 128).copyQ.map fun m => (m.row, m.pos, m.chunk, m.left)) = [(0, 0, 4, 4)] ∧
       ((s.wg mIn.wg).bar mIn.boff).inB + 4 = ((sCopied.wg mIn.wg).bar mIn.boff).inB ∧
       ((u.core 128).copyQ.map fun m => (m.row, m.pos, m.chunk, m.left)) = [(0, 4, 0, 0)] ∧
       (((did (.copyChunkLand 128) u).core 128).copyQ.map fun m => (m.row, m.moved)) = [(1, [])] ∧ mIn.mayMove 0 4 4 = true ∧
       mIn.mayMove 0 8 4 = false) := by decide

/-! #### Threads, marks, service and control registers -/

/-- The thread of `sPre`, whose wait at a barrier object is over, and one that waits in `cancel`. -/
def tServed : Thread := { tS 5 0 0 with wait := some (.bar 1 16), rel := some (-6) }
def tCancels : Thread := { tS 5 0 0 with wait := some (.cancel 2 7 0) }
theorem witness_Preemption_stops :
    (tServed.served = true ∧ tServed.cancelling = false ∧ tCancels.cancelling = true ∧ (tS 5 0 0).served = false ∧ (tS 5 0 0).cancelling = false) ∧
    (({ sPre .stop .save with threads := [(1, tServed)] } : State).canStop 1 = true ∧ ({ sPre .stop .save with threads := [(1, tCancels)] } : State).canStop 1 = true) ∧
    (let s : State := { sLaunch 8 1 with
       threads := [(1, { tS 0 0 0 with spawned := true, launch := levelHandle 2 7 0 0 })], wgs := [(1, { g1 with st := .stop, method := .flush, level := some (2, 7) })], nextId := 2 }
     s.canStop 1 = true ∧ 1 < s.nextId ∧ (∀ x ∈ s.threads, x.2.lane = (s.thr 1).lane → x.1 = 1) ∧ s.launchAt (s.thr 1).launch ≠ none) ∧
    (let s := sPre .saved .save
     s.restorePlan 1 = some [(1, 128)] ∧ s.restoreTurn 1 [(1, 128)] = true ∧
       (let u : State := { s with wgs := s.wgs ++ (List.range 16).map fun i => (2 + i, { g1 with st := .save }) }
        16 ≤ u.saving (dieOfCore 128) ∧ u.restoreTurn 1 [(1, 128)] = false)) := by decide
/-- 06 R138: a stop keeps the status of a wait that is over. -/
theorem test_stop_keeps_status :
    (let s := did (.workgroupStopped 1) { sPre .stop .save with threads := [(1, tServed)] }
     (s.me.wait, s.me.rel) = (some (.bar 1 16), some (-6))) ∧
    ((did (.workgroupStopped 1) { sPre .stop .save with threads := [(1, { tServed with rel := none })] }).me.wait = none) := by decide
theorem witness_Marks_touched :
    (let f : Mark := { mark0 with st := .resolved, result := [7] }
     ∃ g, ((sMark f 0).touchMark mk3).markAt mk3 = some g ∧ g.st = .resolved ∧ g.result = [7] ∧ ((sMark f 0).touchMark mk3).cancelComes mk4 = false) ∧
    (let s := sMark mark0 0
     ∃ g, (s.touchMark mk3).markAt mk3 = some g ∧ g.final = false) ∧ mk4 ≠ mk3 := by
  refine ⟨⟨_, rfl, by decide⟩, ⟨_, rfl, by decide⟩, by decide⟩
theorem witness_ThreadEvents_flushed :
    (let s : State := { onL { tL 0 0 0 with place := .bin 2 0, wg := 1, pc := 8 } with
       dies := [(2, { Die.init with bins := [(0, ⟨0, 8, 2, 0, none, 4, 5, [1]⟩)] })], wgs := [(1, { g1 with st := .flush, slots := [], size := 1 })],
       pkgs := [(0, { Pkg.init with time := 3 })] }
     s.flushedAll [1] = some 1 ∧ s.together 2 [1] = [1]) := by decide
theorem witness_GovernorAndCourses_slots :
    (let s := { State.reset with courses := [(16, { Course.init with want := [100, 0, 0, 0] })] }
     s.coreRuns 128 = true ∧ tileN (s.course 16).synNow 0 < s.idleSlices 128 ∧ (s.course 16).clock < 64 ∧
       tileN (s.course 16).grout 0 * 64 < tileN (s.course 16).want 0 * ((s.course 16).clock + 1)) := by decide
theorem witness_Health_still :
    (∀ x ∈ (onS (tS 0 0 0) g1).threads, x.2.cancelled = false ∧ x.2.settled = true) ∧ (∀ c, (onS (tS 0 0 0) g1).core c = Core.init) ∧
    (onS (tS 0 0 0) g1).stores = [] ∧ Core.init.matQ = [] ∧ (MatOp.zero 0 1).owes = false ∧
    ((1 : Nat) < State.reset.nextId ∧ ∀ e ∈ (sMark mark0 0).dies, ∀ m ∈ e.2.marks, m.1 < 2 ^ 24) :=
  ⟨by decide, fun _ => rfl, rfl, rfl, rfl, by decide⟩
theorem witness_PortsAndLinks_sizes :
    (let q : Qp := ⟨0, 1, 5, 4096⟩; q.mtu = 4096) ∧ (let q : Qp := ⟨0, 1, 5, 9000⟩; ¬(q.mtu = 1024 ∨ q.mtu = 2048 ∨ q.mtu = 4096)) := by decide
theorem witness_ControlRegisterWrites_clock :
    (let s : State := { wL 4 with
       ctxs := [(0, { Ctx.init with thread := some 1, irqEn := 1, timecmp := 0 })], threads := [(1, { tL 9 4 0 with wait := some .wfi })] }
     s.present 0 = true ∧ (s.ctx 0).timecmp.toNat ≤ (s.timeOf 0).toNat ∧ (s.ctx 0).thread = some 1 ∧ (s.thr 1).place = .ctx (0 / 256) (0 % 256) ∧
       (s.thr 1).wait = some .wfi ∧ (s.ctx 0).irqEn.getLsbD 0 = true) ∧
    ¬((State.reset.ctx 0).timecmp.toNat ≤ (State.reset.timeOf 0).toNat) := by decide

end Sys2Proof.Tests
end

namespace Sys2Proof.Machine

/-! ## Outcomes that are a next state

Every arm of `exec` answers a next state but the common frame `State.lane`, which does so once `State.cur` names a thread. -/

/-- The outcome is a next state: neither a fault nor a refusal. -/
def IsNext (o : Out) : Prop := ∃ s', o = .next s'

theorem isNext_next (s : State) : IsNext (.next s) := ⟨s, rfl⟩

theorem isNext_ite {c : Prop} [Decidable c] {a b : Out} (ha : IsNext a) (hb : IsNext b) : IsNext (if c then a else b) := by
  split
  · exact ha
  · exact hb

theorem isNext_andThen {o : Out} (f : State → State) (h : IsNext o) : IsNext (andThen o f) := by
  obtain ⟨s, rfl⟩ := h
  exact isNext_next (f s)

/-- There is a thread to execute the instruction. -/
def State.Manned (s : State) : Prop := (tget s.threads s.cur).isSome

theorem isNext_lane {s : State} (h : s.Manned) (i : Instr) (g : BitVec 4) (eng : Bool) (rs rd : List Dest) (eff : State → State) :
    IsNext (s.lane i g eng rs rd eff) := by
  obtain ⟨t, ht⟩ := Option.isSome_iff_exists.1 h
  unfold State.lane
  rw [ht]
  exact isNext_next _

theorem isNext_laneFrame {s : State} (h : s.Manned) (i : Instr) (g : BitVec 4) (rs rd : List Dest) (eff : State → State) :
    IsNext (laneFrame i g rs rd eff s) := by
  have hl := isNext_lane h i g false rs rd eff
  unfold laneFrame
  split
  · split
    · exact isNext_next _
    · exact hl
  · exact hl

theorem isNext_copyOp {s : State} (h : s.Manned) (i : Instr) (g : BitVec 4) (d a b c : BitVec 5) (la : BitVec 4) (kind : CopyKind)
    (ss dmask mo : Nat) : IsNext (s.copyOp i g d a b c la kind ss dmask mo) := isNext_lane h ..

/-- A thread that waits is there. -/
theorem State.manned_of_wait {s : State} {k : Nat} {w : Wait} (h : (s.thr k).wait = some w) :
    ({ s with cur := k, gang := none } : State).Manned := by
  unfold State.Manned
  cases hk : tget s.threads k with
  | some t => rfl
  | none => simp [State.thr, hk, Thread.init] at h

/-- Only a thread that waits to have a copy accepted executes it again. -/
theorem isNext_execCopyAccept (k : Nat) (s : State) : IsNext (execCopyAccept k s) := by
  unfold execCopyAccept
  dsimp only
  split
  case h_6 => exact isNext_next s
  all_goals
    have hm := State.manned_of_wait ‹_›
    split
    · exact isNext_copyOp hm ..
    · exact isNext_next s

/-- An instruction with an encoding runs in the common frame, and a step of the device answers by itself. -/
theorem isNext_exec (i : Instr) {s : State} (h : (encode i).1 ≠ 0 → s.Manned) : IsNext (exec i s) := by
  cases i with
  | copyAccept k => exact isNext_execCopyAccept k s
  | wmonWake | wmonTimeout | laneWaitCycle | wfiTimeout | interrupt | signal | registerWriteback | copyChunkLand |
    copyChunkRead | copyComplete | mcfgApply | mclaimWGrant | claimDeadlock | matrixPerform | enginePreempt |
    cwWalkComplete | pgMigLine | pgSplitComplete | pgCollComplete | tlbInvComplete | getS | getX | upgrade | getU | atHome |
    putM | putO | putE | putU | privEvictReport | slabEvict | migrateSend | threadArrival | binTimer |
    keystoneBlockRequest | keystoneElection | workgroupPlace | arrivalQueueWrite | exitQueueWrite | rinvEnqueue |
    markResolve | markBreak | prqCmdIssue | workgroupStopped | saveCommit | drainDeadline | restoreStart | restoreComplete |
    governorSample | syntheticGroutSlot | shuntTrip | coursePwrNtReq | coursePwrBypReq | coursePwrOffReq |
    courseModeChange | quadrantOvercurrent | qstatClearOff | monSnap | monSample | unitDrain | unitOffline | unitOnline |
    unitRetire | firmwareUpdate | powerOn | frameReceive | frameTransmit | roceSend | roceSendImm | roceRdmaWrite |
    roceRdmaWriteImm | roceRdmaRead | roceReadResponse | roceAtomic | timeStep | flitReceive | linkPortDown | linkTimeout |
    ucieRetrainFail | idwCmdReplace | idwCmdRead | idwTableWrite | migProfWrite | exqCtlWrite | arqCtlWrite | ringCtlWrite |
    softSet | softClr | govCtlWrite | boostMaxWrite | controlRegisterWrite | silentEviction | timecmpReached |
    ethernetLinkChange | ucieFlitRetry =>
    exact isNext_next _
  | lxch | lsel | lvote | lred => apply isNext_laneFrame (h (Nat.succ_ne_zero _))
  | _ => apply isNext_lane (h (Nat.succ_ne_zero _))

/-! ## The device's own next step -/

/-- An event that happens answers a next state. -/
def NextIfAny (e : Option Out) : Prop := ∀ o, e = some o → IsNext o

theorem nextIfAny_none : NextIfAny none := nofun

theorem nextIfAny_some {o : Out} (h : IsNext o) : NextIfAny (some o) := by
  rintro _ ⟨⟩
  exact h

theorem nextIfAny_next (s : State) : NextIfAny (some (.next s)) := nextIfAny_some (isNext_next s)

theorem nextIfAny_ite {c : Prop} [Decidable c] {a b : Option Out} (ha : NextIfAny a) (hb : NextIfAny b) :
    NextIfAny (if c then a else b) := by
  split
  · exact ha
  · exact hb

theorem nextIfAny_evIf (b : Bool) (s : State) : NextIfAny (evIf b (.next s)) :=
  nextIfAny_ite (nextIfAny_next s) nextIfAny_none

theorem nextIfAny_orElse {a b : Option Out} (ha : NextIfAny a) (hb : NextIfAny b) : NextIfAny (a <|> b) := by
  cases a with
  | none => exact hb
  | some o => exact ha

theorem nextIfAny_map {α : Type} {f : α → Out} (h : ∀ x, IsNext (f x)) (a : Option α) : NextIfAny (a.map f) := by
  cases a with
  | none => exact nextIfAny_none
  | some x => exact nextIfAny_some (h x)

theorem isNext_getD_of_nextIfAny {e : Option Out} (h : NextIfAny e) (s : State) : IsNext (e.getD (.next s)) := by
  cases e with
  | none => exact isNext_next s
  | some o => exact h o rfl

theorem nextIfAny_firstEv {α : Type} (l : List (Nat × α)) {f : Nat → α → Option Out} (h : ∀ k x, NextIfAny (f k x)) :
    NextIfAny (firstEv l f) := by
  intro o ho
  obtain ⟨x, _, hx⟩ := List.exists_of_findSome?_eq_some ho
  exact h _ _ o hx

theorem nextIfAny_irqEvent (s : State) : NextIfAny s.irqEvent :=
  nextIfAny_firstEv _ fun _ _ => nextIfAny_evIf _ _

theorem nextIfAny_threadEvent (s : State) : NextIfAny s.threadEvent :=
  nextIfAny_ite (nextIfAny_next _) <| nextIfAny_ite (nextIfAny_next _) <| nextIfAny_firstEv _ fun _ _ =>
    nextIfAny_ite (nextIfAny_next _) <| nextIfAny_ite (nextIfAny_next _) <| nextIfAny_ite (nextIfAny_next _) nextIfAny_none

theorem nextIfAny_msgEvent (s : State) : NextIfAny s.msgEvent := by
  refine nextIfAny_firstEv _ fun i m => ?_
  cases m with
  | thread | invoke | orphan => exact nextIfAny_ite (nextIfAny_evIf _ _) (nextIfAny_evIf _ _)
  | enqueue | resolve | broke => exact nextIfAny_next _
  | cancel => exact nextIfAny_evIf _ _

theorem nextIfAny_launchEvent (s : State) : NextIfAny s.launchEvent := by
  refine nextIfAny_firstEv _ fun d x => nextIfAny_firstEv _ fun i lv => ?_
  dsimp only
  split
  · exact nextIfAny_none
  · exact nextIfAny_ite (nextIfAny_next _) (nextIfAny_map (fun _ => isNext_next _) _)

theorem nextIfAny_wgEvent (s : State) : NextIfAny s.wgEvent := by
  refine nextIfAny_firstEv _ fun w g => ?_
  cases g.st with
  | released | stop | saved | run | drain => exact nextIfAny_evIf _ _
  | save | restore => exact nextIfAny_next _
  | flush | ended => exact nextIfAny_none

theorem nextIfAny_engineEvent (s : State) : NextIfAny s.engineEvent :=
  nextIfAny_firstEv _ fun _ _ =>
    nextIfAny_ite (nextIfAny_next _) <| nextIfAny_ite (nextIfAny_next _) <| nextIfAny_ite (nextIfAny_next _) <|
    nextIfAny_ite (nextIfAny_next _) <| nextIfAny_ite (nextIfAny_next _) <| nextIfAny_ite (nextIfAny_next _) <|
    nextIfAny_ite (nextIfAny_next _) <| nextIfAny_ite (nextIfAny_next _) <| nextIfAny_ite (nextIfAny_next _) nextIfAny_none

theorem nextIfAny_walkEvent (s : State) : NextIfAny s.walkEvent := by
  refine nextIfAny_firstEv _ fun i m => ?_
  cases m.op with
  | cw | mig | split | coll | tlb => exact nextIfAny_evIf _ _

theorem nextIfAny_courseEvent (s : State) : NextIfAny s.courseEvent := by
  refine nextIfAny_firstEv _ fun k c => nextIfAny_ite (nextIfAny_next _) (nextIfAny_orElse ?_ (nextIfAny_evIf _ _))
  cases s.synCore k with
  | none => exact nextIfAny_none
  | some x => exact nextIfAny_next _

theorem nextIfAny_portEvent (s : State) : NextIfAny s.portEvent :=
  nextIfAny_firstEv _ fun _ _ => nextIfAny_firstEv _ fun _ _ =>
    nextIfAny_ite (nextIfAny_firstEv _ fun _ _ => nextIfAny_evIf _ _) nextIfAny_none

theorem isNext_of_mem_timers {s : State} {x : Nat × Out} (h : x ∈ s.timers) : IsNext x.2 := by
  simp only [State.timers, List.mem_append, List.mem_filterMap, List.mem_flatMap] at h
  obtain (⟨t, _, ht⟩ | ⟨d, _, b, _, hb⟩ | ⟨w, _, hw⟩) | ⟨c, _, hc⟩ := h
  · split at ht
    · split at ht
      · cases ht
      · cases ht; exact isNext_next _
    · cases ht; exact isNext_next _
    · cases ht
  · obtain ⟨n, _, rfl⟩ := Option.map_eq_some_iff.1 hb
    exact isNext_next _
  · obtain ⟨n, _, rfl⟩ := Option.map_eq_some_iff.1 hw
    exact isNext_next _
  · split at hc
    · cases hc; exact isNext_next _
    · cases hc

theorem nextIfAny_timerEvent (s : State) : NextIfAny s.timerEvent := by
  intro o ho
  obtain ⟨x, hx, rfl⟩ := Option.map_eq_some_iff.1 ho
  exact isNext_of_mem_timers (List.mem_of_find?_eq_some hx)

theorem mem_of_mem_turned {α : Type} {n : Nat} {l : List α} {x : α} (h : x ∈ turned n l) : x ∈ l := by
  rcases List.mem_append.1 h with h | h
  · exact List.mem_of_mem_drop h
  · exact List.mem_of_mem_take h

theorem nextIfAny_eventKinds {f : State → Option Out} (h : f ∈ State.eventKinds) (s : State) : NextIfAny (f s) := by
  simp only [State.eventKinds, List.mem_cons, List.not_mem_nil, or_false] at h
  rcases h with rfl | rfl | rfl | rfl | rfl | rfl | rfl | rfl | rfl | rfl
  · exact nextIfAny_irqEvent s
  · exact nextIfAny_threadEvent s
  · exact nextIfAny_msgEvent s
  · exact nextIfAny_launchEvent s
  · exact nextIfAny_wgEvent s
  · exact nextIfAny_engineEvent s
  · exact nextIfAny_walkEvent s
  · exact nextIfAny_courseEvent s
  · exact nextIfAny_portEvent s
  · exact nextIfAny_timerEvent s

theorem nextIfAny_nextEvent (s : State) : NextIfAny s.nextEvent := by
  intro o ho
  obtain ⟨f, hf, ho⟩ := List.exists_of_findSome?_eq_some ho
  exact nextIfAny_eventKinds (mem_of_mem_turned hf) s o ho

/-! ## Threads that stay

What comes between the start of a thread's instruction and its execution takes no thread away. -/

/-- The current thread is the same, and every thread that was there still is. -/
structure State.Stays (s s' : State) : Prop where
  cur : s'.cur = s.cur
  here : ∀ k, (tget s.threads k).isSome → (tget s'.threads k).isSome

theorem State.Stays.refl (s : State) : s.Stays s := ⟨rfl, fun _ => id⟩

theorem State.Stays.trans {a b c : State} (h : a.Stays b) (k : b.Stays c) : a.Stays c :=
  ⟨k.cur.trans h.cur, fun i => k.here i ∘ h.here i⟩

theorem State.Stays.manned {s s' : State} (h : s.Stays s') (hm : s.Manned) : s'.Manned := by
  unfold State.Manned
  rw [h.cur]
  exact h.here _ hm

theorem State.Stays.foldl {α : Type} {f : State → α → State} (hf : ∀ (s : State) (x : α), s.Stays (f s x)) (l : List α) :
    ∀ s : State, s.Stays (l.foldl f s) := by
  induction l with
  | nil => exact State.Stays.refl
  | cons x t ih => exact fun s => (hf s x).trans (ih _)

theorem State.Stays.ite {s a b : State} {p : Prop} [Decidable p] (h : s.Stays a) (k : s.Stays b) : s.Stays (if p then a else b) := by
  split
  · exact h
  · exact k

/-- A change that concerns no thread. -/
theorem State.Stays.of_eq {s s' : State} (hc : s'.cur = s.cur) (ht : s'.threads = s.threads) : s.Stays s' :=
  ⟨hc, fun _ h => ht ▸ h⟩

theorem State.Stays.withViews {s s' : State} (h : s.Stays s') (l : List View) : s.Stays { s' with views := l } :=
  ⟨h.cur, h.here⟩

theorem State.Seen.stays {s s' : State} (h : s.Seen s') : s.Stays s' := by
  refine ⟨State.seen_cur h, fun k hk => ?_⟩
  obtain ⟨t, ht⟩ := Option.isSome_iff_exists.1 hk
  obtain ⟨u, hu, _⟩ := State.seen_thr h ht
  simp [hu]

theorem State.Mem.stays {s s' : State} (h : s.Mem s') : s.Stays s' := h.seen.stays

theorem State.stays_updThr (s : State) (k : Nat) (f : Thread → Thread) : s.Stays (s.updThr k f) := by
  refine ⟨rfl, fun i hi => ?_⟩
  unfold State.updThr State.setThr
  rw [tget_tset]
  split
  · rfl
  · exact hi

/-- A change of the threads one by one. -/
theorem State.stays_mapThreads (s : State) (f : Nat → Thread → Thread) :
    s.Stays { s with threads := s.threads.map fun t => (t.1, f t.1 t.2) } := by
  refine ⟨rfl, fun k hk => ?_⟩
  rw [tget_map]
  simpa using hk

/-! ### Accesses that are performed -/

theorem State.stays_failStore (s : State) (c : MCtx) (pa code : Nat) (va : Word) : s.Stays (s.failStore c pa code va) :=
  (s.seen_failStore c pa code va).stays

theorem State.stays_giveTo (s : State) (h : Held) (v : Word) : s.Stays (s.giveTo h v) :=
  .ite (s.stays_updThr _ _) (.refl s)

theorem State.stays_performLoad (s : State) (h : Held) (nc : Bool) (f : Nat → Word) : s.Stays (s.performLoad h nc f) := by
  have hl : s.Stays (if nc then s.secLoadNc h.r h.c.ag h.addr h.n else s.secLoad h.r h.c.ag h.addr h.n).1 := by
    split
    · exact (s.mem_secLoadNc _ _ _ _).stays
    · exact (s.mem_secLoad _ _ _ _).stays
  unfold State.performLoad
  split
  · exact s.stays_giveTo _ _
  · split
    next he => rw [he] at hl; exact hl.trans (State.stays_giveTo _ _ _)
    next he => rw [he] at hl; exact hl.trans (State.stays_giveTo _ _ _)

theorem State.stays_performRmw (s : State) (h : Held) (home : Bool) (f : Nat → Option Nat) : s.Stays (s.performRmw h home f) := by
  have ha := (s.mem_secAtomic h.r h.c.ag h.addr h.n home f h.c.who).stays
  unfold State.performRmw
  split
  next he => rw [he] at ha; exact ha.trans (State.stays_giveTo _ _ _)
  next he => rw [he] at ha; exact (ha.trans (State.stays_failStore _ _ _ _ _)).trans (State.stays_giveTo _ _ _)

theorem State.stays_stored {s : State} {r : State × Option Nat} (hr : s.Stays r.1) (h : Held) : s.Stays (State.stored r h) := by
  unfold State.stored
  split
  · exact hr
  · exact hr.trans (State.stays_failStore _ _ _ _ _)

theorem State.stays_performHeld (s : State) (h : Held) : s.Stays (s.performHeld h) := by
  unfold State.performHeld
  split
  · exact s.stays_performRmw _ _ _
  · exact s.stays_performRmw _ _ _
  · exact State.stays_stored (s.mem_secRed _ _ _ _ _ _ _).stays h
  · split
    · exact s.stays_performLoad _ _ _
    · exact .refl s
  · split
    · exact .ite (.of_eq rfl rfl) (.refl s)
    · exact State.stays_stored (s.mem_secStore _ _ _ _ _ _).stays h

theorem State.stays_perform (s : State) (f : Held → Bool) : s.Stays (s.perform f) := by
  unfold State.perform
  refine State.Stays.trans ?_ (State.Stays.foldl State.stays_performHeld _ _)
  exact .of_eq rfl rfl

/-! ### Writes of control registers -/

/-- A write of a register, where there is one, takes no thread away. -/
def State.StaysIf (s : State) (r : Option State) : Prop := ∀ s', r = some s' → s.Stays s'

theorem State.staysIf_none (s : State) : s.StaysIf none := nofun

theorem State.staysIf_some {s s' : State} (h : s.Stays s') : s.StaysIf (some s') := by
  rintro _ ⟨⟩
  exact h

theorem State.staysIf_ite {s : State} {p : Prop} [Decidable p] {a b : Option State} (ha : s.StaysIf a) (hb : s.StaysIf b) :
    s.StaysIf (if p then a else b) := by
  split
  · exact ha
  · exact hb

/-- A register that keeps what it holds. -/
theorem State.staysIf_read {α : Type} (s : State) (r : Option α) : s.StaysIf (r.map fun _ => s) := by
  cases r with
  | none => exact s.staysIf_none
  | some x => exact State.staysIf_some (.refl s)

theorem State.stays_updDie (s : State) (d : Nat) (f : Die → Die) : s.Stays (s.updDie d f) := .of_eq rfl rfl

theorem State.staysIf_updDie (s : State) (d : Nat) (f : Die → Die) : s.StaysIf (some (s.updDie d f)) :=
  State.staysIf_some (s.stays_updDie d f)

theorem State.stays_bkSet (s : State) (k : Option Nat) (i : Nat) (v : Word) : s.Stays (s.bkSet k i v) := by
  unfold State.bkSet
  split
  · exact s.stays_updThr _ _
  · exact .refl s

theorem State.staysIf_ctxWrite (s : State) (key o : Nat) (v : Word) : s.StaysIf (s.ctxWrite key o v) := by
  unfold State.ctxWrite
  dsimp only
  split
  case h_1 => exact State.staysIf_some (.refl s)
  case h_10 => exact State.staysIf_ite (State.staysIf_some (s.stays_bkSet _ _ _)) s.staysIf_none
  all_goals exact State.staysIf_some (.of_eq rfl rfl)

theorem State.stays_noteResp (s : State) (d : Nat) (r : Option (Nat × Nat)) : s.Stays (s.noteResp d r) := by
  unfold State.noteResp
  split
  · exact (s.seen_logErr _ _ _ _ _).stays
  · exact .refl s

theorem State.stays_dieStore (s : State) (d a n v : Nat) : s.Stays (s.dieStore d a n v) :=
  (s.mem_homeStore _ _ _ _).stays.trans (State.stays_noteResp _ _ _)

theorem State.stays_dieLoad (s : State) (d a n : Nat) : s.Stays (s.dieLoad d a n).1 := by
  have h := (s.mem_homeLoad (dieAgent d) a n).stays
  unfold State.dieLoad
  split
  next he => rw [he] at h; exact h
  next s1 _ he =>
    replace h : s.Stays s1 := by rwa [he] at h
    refine h.trans ?_
    dsimp only
    exact s1.stays_noteResp _ _

theorem State.stays_writeWindow (s : State) (d : Nat) (asid : BitVec 16) (base : Word) (remain : Nat) :
    s.Stays (s.writeWindow d asid base remain) :=
  (s.stays_dieStore _ _ _ _).trans (State.stays_dieStore _ _ _ _ _)

theorem State.stays_readWindow (s : State) (d : Nat) (asid : BitVec 16) : s.Stays (s.readWindow d asid).1 := by
  have h := fun a b => (s.stays_dieLoad d a 8).trans ((s.dieLoad d a 8).1.stays_dieLoad d b 4)
  unfold State.readWindow
  split
  · exact .refl s
  · dsimp only
    split
    · exact h _ _
    · exact h _ _

theorem State.stays_idwReplace (s : State) (d : Nat) : s.Stays (s.idwReplace d) :=
  .ite (s.stays_writeWindow _ _ _ _) (.refl s)

theorem State.stays_idwRead (s : State) (d : Nat) : s.Stays (s.idwRead d) := by
  unfold State.idwRead
  exact (s.stays_readWindow _ _).trans (State.stays_updDie _ _ _)

theorem State.staysIf_idwWrite (s : State) (d o : Nat) (v : Word) : s.StaysIf (s.idwWrite d o v) := by
  unfold State.idwWrite
  split
  · exact s.staysIf_updDie _ _
  · exact s.staysIf_updDie _ _
  · exact s.staysIf_updDie _ _
  · exact s.staysIf_updDie _ _
  · exact State.staysIf_some (.ite (s.stays_idwReplace d) (.ite (s.stays_idwRead d) (.refl s)))
  · exact s.staysIf_none

theorem State.stays_wakeRequest (s : State) (w : Nat) : s.Stays (s.wakeRequest w) :=
  s.stays_mapThreads fun _ t => if t.wg = w then t.requested else t

theorem State.stays_setWg (s : State) (w : Nat) (g : WG) : s.Stays (s.setWg w g) := .of_eq rfl rfl

theorem State.stays_preempt (s : State) (w bound : Nat) (prq : Bool) : s.Stays (s.preempt w bound prq) :=
  .ite (.refl s) ((s.stays_wakeRequest w).trans (State.stays_setWg _ _ _))

theorem State.stays_request (s : State) (w bound : Nat) : s.Stays (s.request w bound) :=
  .ite (s.stays_preempt _ _ _) ((s.stays_wakeRequest w).trans (State.stays_setWg _ _ _))

theorem State.stays_prqIssue (s : State) (d : Nat) : s.Stays (s.prqIssue d) := by
  unfold State.prqIssue
  dsimp only
  split
  · exact .refl s
  · split
    · exact s.stays_updDie _ _
    · exact (s.stays_request _ _).trans (State.stays_updDie _ _ _)

theorem State.staysIf_prqWrite (s : State) (d o : Nat) (v : Word) : s.StaysIf (s.prqWrite d o v) := by
  unfold State.prqWrite
  dsimp only
  split
  · exact s.staysIf_updDie _ _
  · exact s.staysIf_updDie _ _
  · exact s.staysIf_updDie _ _
  · exact s.staysIf_updDie _ _
  · exact State.staysIf_some (.ite (s.stays_prqIssue d) (.refl s))
  · exact s.staysIf_none

theorem State.staysIf_monWrite (s : State) (d o : Nat) (v : Word) : s.StaysIf (s.monWrite d o v) := by
  unfold State.monWrite
  refine State.staysIf_ite (State.staysIf_some (.refl s)) (State.staysIf_ite ?_ s.staysIf_none)
  split
  · exact s.staysIf_updDie _ _
  · exact s.staysIf_updDie _ _
  · exact State.staysIf_some (.refl s)

theorem State.staysIf_errWrite (s : State) (d o : Nat) (v : Word) : s.StaysIf (s.errWrite d o v) :=
  State.staysIf_ite (s.staysIf_updDie _ _) (s.staysIf_read _)

theorem State.staysIf_dieWrite (s : State) (d o : Nat) (v : Word) : s.StaysIf (s.dieWrite d o v) := by
  have hw : ∀ (p : Prop) [Decidable p] (f : Die → Die), s.StaysIf (if p then some (s.updDie d f) else none) :=
    fun _ _ f => State.staysIf_ite (s.staysIf_updDie d f) s.staysIf_none
  unfold State.dieWrite
  dsimp only
  split
  · exact s.staysIf_errWrite _ _ _
  · exact s.staysIf_monWrite _ _ _
  · exact State.staysIf_ite s.staysIf_none (State.staysIf_ite (s.staysIf_updDie _ _) (s.staysIf_read _))
  · exact s.staysIf_read _
  · exact State.staysIf_ite (s.staysIf_updDie _ _) (hw _ _)
  · exact hw _ _
  · exact s.staysIf_idwWrite _ _ _
  · exact hw _ _
  · exact hw _ _
  · exact hw _ _
  · exact State.staysIf_ite (s.staysIf_prqWrite _ _ _) s.staysIf_none
  · exact s.staysIf_none

theorem State.staysIf_courseWrite (s : State) (k o : Nat) (v : Word) : s.StaysIf (s.courseWrite k o v) := by
  unfold State.courseWrite
  split
  · exact State.staysIf_some (.of_eq rfl rfl)
  · exact State.staysIf_some (.refl s)
  · exact State.staysIf_some (.of_eq rfl rfl)
  · exact s.staysIf_none

theorem State.stays_updPkg (s : State) (p : Nat) (f : Pkg → Pkg) : s.Stays (s.updPkg p f) := .of_eq rfl rfl

theorem State.stays_timeStepOp (s : State) (p : Nat) (v : Word) : s.Stays (s.timeStepOp p v) := s.stays_updPkg p _

theorem State.staysIf_ctrlSet (s : State) (p o : Nat) (v : Word) : s.StaysIf (s.ctrlSet p o v) := by
  unfold State.ctrlSet
  dsimp only
  refine State.staysIf_ite (State.staysIf_ite (s.staysIf_ctxWrite _ _ _) s.staysIf_none) <|
    State.staysIf_ite (State.staysIf_ite (State.staysIf_some (s.stays_bkSet _ _ _)) s.staysIf_none) <|
    State.staysIf_ite (State.staysIf_ite (s.staysIf_courseWrite _ _ _) s.staysIf_none) <|
    State.staysIf_ite (State.staysIf_ite (s.staysIf_dieWrite _ _ _) s.staysIf_none) <|
    State.staysIf_ite (State.staysIf_ite s.staysIf_none ?_) <|
    State.staysIf_ite (State.staysIf_some (s.stays_updPkg _ _)) <|
    State.staysIf_ite (State.staysIf_some (s.stays_timeStepOp _ _)) (s.staysIf_read _)
  intro s' hs
  obtain ⟨q, _, rfl⟩ := Option.map_eq_some_iff.1 hs
  exact s.stays_updPkg _ _

theorem State.stays_ctrlStore (s : State) (pa n v : Nat) : s.Stays (s.ctrlStore pa n v).1 := by
  unfold State.ctrlStore
  dsimp only
  split
  · exact s.staysIf_ctrlSet _ _ _ _ ‹_›
  · exact .refl s

theorem State.stays_physStore (s : State) (c : MCtx) (r : RegionKind) (pa n v : Nat) : s.Stays (s.physStore c r pa n v).1 := by
  unfold State.physStore
  split
  · split
    · exact .refl s
    · split
      · exact s.stays_ctrlStore _ _ _
      · exact .refl s
  · exact (s.mem_secStore _ _ _ _ _ _).stays

theorem State.stays_performCtrl (s : State) (k : Nat) : s.Stays (s.performCtrl k) := by
  unfold State.performCtrl
  refine State.Stays.trans ?_
    (State.Stays.foldl (fun s h => State.stays_stored (s.stays_physStore h.c h.r h.addr h.n h.v) h) _ _)
  exact .of_eq rfl rfl

/-! ### What an instruction orders as it is issued -/

theorem State.stays_fresh (s : State) (k : Nat) : s.Stays (s.fresh k) := .of_eq rfl rfl

theorem State.stays_arriving (s : State) (k : Nat) (x : Sync) : s.Stays (s.arriving k x) := .of_eq rfl rfl

theorem State.stays_publish (s : State) (k : Nat) (sc : Scope) (after : List (Nat × Option Scope)) :
    s.Stays (s.publish k sc after) := by
  cases sc with
  | thread => exact .refl s
  | wg => exact (s.stays_perform _).trans (.of_eq rfl rfl)
  | cl | die | pkg | sys => exact s.stays_perform _

theorem State.stays_conflicts (s : State) (i : Instr) : s.Stays (s.conflicts i) := by
  unfold State.conflicts
  split
  · exact s.stays_perform _
  · generalize s.placeOf _ = place
    rcases place with _ | ⟨spad, a, n, kind⟩
    · exact .refl s
    · refine .ite (.ite (.refl s) (s.stays_performCtrl _)) (State.Stays.withViews ?_ _)
      split
      all_goals exact .ite (.refl s) (s.stays_perform _)

/-- The cases are those of `State.orders`: acquires, releases, fences, arrivals at barrier objects and at named barriers, commands of
the engines, and what publishes to all (13 R289, R293, R295). -/
theorem State.stays_orders (s : State) (i : Instr) : s.Stays (s.orders i) := by
  have hpub := fun sc after => (s.stays_fresh s.cur).trans (State.stays_publish _ s.cur sc after)
  unfold State.orders
  dsimp only
  split
  · refine .ite (State.Stays.trans ?_ (State.stays_publish _ _ _ _)) ?_ <;> exact .of_eq rfl rfl
  · exact .ite (.of_eq rfl rfl) (.refl s)
  · split
    case h_1 | h_2 => exact .ite (.refl s) (.ite ((hpub _ _).trans (State.stays_performCtrl _ _)) (hpub _ _))
    case h_3 | h_4 =>
      generalize s.arrivesAt _ = x
      cases x with
      | none => exact .refl s
      | some x => exact s.stays_arriving _ x
    case h_5 | h_6 => exact .ite (s.stays_publish _ _ _) (s.stays_arriving _ _)
    case h_15 =>
      split
      · exact s.stays_publish _ _ _
      · exact .refl s
    all_goals exact s.stays_publish _ _ _

theorem State.stays_ordered (s : State) (i : Instr) : s.Stays (s.ordered i) :=
  .ite (.refl s) (.ite (.refl s) ((s.stays_orders i).trans (State.stays_conflicts _ i)))

/-! ### The start of an instruction -/

theorem State.stays_markStarted (s : State) (m : Word) : s.Stays (s.markStarted m) := by
  unfold State.markStarted
  split
  · exact s.stays_updDie _ _
  · exact .refl s

theorem State.stays_measure (s : State) (d src n : Nat) (v : Int) : s.Stays (s.measure d src n v) :=
  State.Stays.foldl (fun s _ => .ite (s.stays_updDie _ _) (.refl s)) _ s

theorem State.stays_measureIssue (s : State) (t : Thread) (i : Instr) : s.Stays (s.measureIssue t i) := by
  unfold State.measureIssue
  refine .ite (.trans ?_ (State.stays_measure _ _ _ _ _)) ?_ <;> exact .ite (s.stays_measure _ _ _ _) (.refl s)

theorem State.stays_spend (s : State) (core w eu : Nat) : s.Stays (s.spend core w eu) :=
  .ite (.of_eq rfl rfl) (.of_eq rfl rfl)

/-- An instruction that a lane runs is executed by a thread. -/
theorem State.manned_of_runMember {s s1 : State} {g : Gang} {m : Nat × Nat} {rest : List (Nat × Nat)} {i : Instr}
    (h : s.runMember g m rest = .run i s1) : s1.Manned := by
  unfold State.runMember at h
  dsimp only at h
  split at h
  · cases h
  next hk =>
  have hm : State.Manned { s with cur := m.1, gang := some { g with rest := rest } } := by
    rwa [Bool.not_eq_true, Option.isNone_eq_false_iff] at hk
  generalize ({ s with cur := m.1, gang := some { g with rest := rest } } : State) = s0 at h hm
  split at h
  · cases h
  · split at h
    · cases h
    · split at h
      · cases h
        exact (s0.stays_ordered i).manned hm
      · cases h
        refine (State.stays_ordered _ i).manned (State.Stays.manned (.trans ?_ (.ite (State.stays_measureIssue _ _ _)
          ((State.stays_measureIssue _ _ _).trans (State.stays_spend _ _ _ _)))) hm)
        split
        · exact s0.stays_markStarted _
        · exact .refl s0

/-! ## One step -/

theorem State.isNext_runLane (s : State) (g : Gang) (m : Nat × Nat) (rest : List (Nat × Nat)) : IsNext (s.runLane g m rest) := by
  unfold State.runLane
  split
  · exact isNext_next _
  · exact isNext_andThen _ (isNext_exec _ fun _ => State.manned_of_runMember ‹_›)

theorem State.isNext_issue (s : State) (ks : List Nat) : IsNext (s.issue ks) := by
  unfold State.issue
  dsimp only
  split
  · split
    · exact State.isNext_runLane _ _ _ _
    · exact isNext_next _
  · exact isNext_next _

/-- An event of the agenda has no encoding, so it needs no thread. -/
theorem State.isNext_takeTurn (s : State) : IsNext s.takeTurn := by
  unfold State.takeTurn
  split
  case h_1 i _ _ =>
    dsimp only
    split
    next h0 => exact isNext_exec i fun h => absurd h0 h
    · exact isNext_next _
  case h_2 => exact isNext_ite (State.isNext_issue _ _) (isNext_next _)
  case h_9 =>
    have hd := nextIfAny_nextEvent { s with turn := !s.turn }
    have ht := nextIfAny_map (State.isNext_issue { s with turn := !s.turn }) (State.nextIssue { s with turn := !s.turn })
    exact isNext_getD_of_nextIfAny (nextIfAny_ite (nextIfAny_orElse hd ht) (nextIfAny_orElse ht hd)) _
  all_goals exact isNext_next _

/-- Settles O44: an instruction is only ever executed by a thread that is there, and no other arm of `exec` fails. -/
theorem stepAnswers : Obligations.StepAnswers := by
  intro s
  unfold step
  apply isNext_andThen
  split
  · exact State.isNext_runLane _ _ _ _
  · split
    · exact isNext_next _
    · exact State.isNext_takeTurn _

end Sys2Proof.Machine

namespace Sys2Proof.Machine

/-! ## Translation before and after a walk (04 R73, R77 to R90) -/

theorem inWindow_iff (va : Word) : inWindow va = true ↔ 2 ^ 64 - 2 ^ 22 ≤ va.toNat := by simp [inWindow]

theorem canonical_iff (va : Word) : canonical va = true ↔ va.toNat < 2 ^ 55 ∨ 2 ^ 64 - 2 ^ 55 ≤ va.toNat := by
  have := va.isLt
  simp only [canonical, Bool.or_eq_true, beq_iff_eq]
  omega

theorem State.xlate_window {s : State} {c : MCtx} {va : Word} {k : XKind} (h : inWindow va = true) :
    s.xlate c va k = (s, .fault k.notPresent) := by
  simp [State.xlate, h]

theorem State.xlate_noncanonical {s : State} {c : MCtx} {va : Word} {k : XKind} (hw : inWindow va = false)
    (hc : canonical va = false) : s.xlate c va k = (s, .fault 0x10) := by
  simp [State.xlate, hw, hc]

/-- Without tables: user mode finds nothing present, and system mode uses the address as it is (04 R78). -/
theorem State.xlate_untabled {s : State} {c : MCtx} {va : Word} {k : XKind} (hw : inWindow va = false)
    (hc : canonical va = true) (he : ptEn c.ptBase = false) :
    s.xlate c va k = (s, if c.mode = false then .fault k.notPresent
      else if 2 ^ 52 ≤ va.toNat then .fault 0x10 else .ok va.toNat bareLeaf) := by
  have hdiv : va.toNat / 2 ^ 52 ≠ 0 ↔ 2 ^ 52 ≤ va.toNat := by omega
  simp only [State.xlate, hw, hc, he, Bool.not_true, Bool.not_false, Bool.false_eq_true, if_false, if_true, hdiv]
  cases c.mode <;> simp only [Bool.not_true, Bool.not_false, Bool.false_eq_true, reduceCtorEq, if_false, if_true]
  split <;> rfl

/-- The bits of a leaf that let an access in (04 R85). -/
def XKind.granted (k : XKind) (e : Nat) : Bool :=
  match k with
  | .fetch => e.testBit 4
  | .load => e.testBit 2
  | .store => e.testBit 3
  | .rmw => e.testBit 2 && e.testBit 3

/-- The protection cause, for a page that the mode may not use or a leaf that does not grant the access (04 R85). -/
theorem permCause_eq (k : XKind) (mode : Bool) (e : Nat) :
    permCause k mode e = if (mode = false ∧ e.testBit 5 = false) ∨ (k = .fetch ∧ mode = true ∧ e.testBit 5 = true) ∨
      k.granted e = false then some k.prot else none := by
  cases k <;> simp [permCause, XKind.granted, entBit, or_assoc, imp_iff_not_or]

theorem XKind.writes_iff (k : XKind) : k.writes = true ↔ k = .store ∨ k = .rmw := by cases k <;> decide

theorem withAD_eq (k : XKind) (e : Nat) : withAD k e = e ||| 2 ^ 7 ||| (if k = .store ∨ k = .rmw then 2 ^ 8 else 0) := by
  simp only [withAD, XKind.writes_iff]

/-- The A and D bits stand below REGION and PPN. -/
theorem withAD_div (k : XKind) (e : Nat) {n : Nat} (hn : 9 ≤ n) : withAD k e / 2 ^ n = e / 2 ^ n := by
  have hlt : ∀ m, m < 2 ^ 9 → m / 2 ^ n = 0 := fun m hm =>
    Nat.div_eq_of_lt (Nat.lt_of_lt_of_le hm (Nat.pow_le_pow_right (by decide) hn))
  have hd : (if k = .store ∨ k = .rmw then 2 ^ 8 else 0) / 2 ^ n = 0 := hlt _ (by split <;> decide)
  rw [withAD_eq, Nat.or_div_two_pow, Nat.or_div_two_pow, hlt (2 ^ 7) (by decide), hd, Nat.or_zero, Nat.or_zero]

@[simp] theorem entPpn_withAD (k : XKind) (e : Nat) : entPpn (withAD k e) = entPpn e := by
  rw [entPpn, entPpn, withAD_div k e (by decide)]

@[simp] theorem regionOf_withAD (k : XKind) (e : Nat) : regionOf (withAD k e) = regionOf e := by
  have h : withAD k e / 1024 = e / 1024 := withAD_div k e (n := 10) (by decide)
  rw [regionOf, regionOf, h]

@[simp] theorem leafPa_withAD (k : XKind) (e lvl : Nat) (va : Word) : leafPa (withAD k e) lvl va = leafPa e lvl va := by
  simp [leafPa]

/-- Only a store into memory meets a region cause (05 R107; 04 R76). -/
theorem regionCause_eq_none {k : XKind} {e pa : Nat}
    (h : k = .fetch ∨ k = .load ∨ e / 1024 % 4 = 0 ∨ e / 1024 % 4 = 2 ∨ areaOf pa = .ctrl) : regionCause k e pa = none := by
  rcases h with rfl | rfl | h | h | h
  · rfl
  · rfl
  all_goals simp [regionCause, regionOf, h]

theorem regionCause_rsh {k : XKind} {e pa : Nat} (hk : k = .store ∨ k = .rmw) (ha : areaOf pa ≠ .ctrl) (h : e / 1024 % 4 = 1) :
    regionCause k e pa = some 0x18 := by
  simp [regionCause, regionOf, h, ha, k.writes_iff.2 hk]

theorem regionCause_rdup {k : XKind} {e pa : Nat} (hk : k = .store ∨ k = .rmw) (ha : areaOf pa ≠ .ctrl) (h : e / 1024 % 4 = 3) :
    regionCause k e pa = some 0x19 := by
  simp [regionCause, regionOf, h, ha, k.writes_iff.2 hk]

theorem regionCause_withAD (k : XKind) (e pa : Nat) : regionCause k (withAD k e) pa = regionCause k e pa := by
  simp only [regionCause, regionOf_withAD]

theorem State.xlateWalk_withheld {s s1 : State} {c : MCtx} {va : Word} {k : XKind} {e lvl pa x : Nat}
    (h : s.walkAll c va = (s1, .leaf e lvl pa)) (hx : permCause k c.mode e = some x) : s.xlateWalk c va k = (s1, .fault x) := by
  simp [State.xlateWalk, h, hx]

/-- A leaf that lets the access in gives its page's address, or the cause of its region (04 R86; 05 R107). -/
theorem State.xlateWalk_granted {s s1 : State} {c : MCtx} {va : Word} {k : XKind} {e lvl pa : Nat}
    (h : s.walkAll c va = (s1, .leaf e lvl pa)) (hp : permCause k c.mode e = none) :
    (s.xlateWalk c va k).2 = (regionCause k e (leafPa e lvl va)).elim (.ok (leafPa e lvl va) (withAD k e)) .fault := by
  simp only [State.xlateWalk, h, hp, leafPa_withAD, regionCause_withAD]
  cases regionCause k e (leafPa e lvl va) <;> rfl

/-- One level of a walk that reads an entry of no contiguity group (04 R79, R84). -/
theorem State.walk_succ {s s1 : State} {c : MCtx} {va n table e : Nat} (hl : s.locks = [])
    (he : s.homeLoad c.ag (table + 8 * ptIndex va (3 - n)) 8 = (s1, .ok e))
    (hc : entV e = true → s1.entryOk e (3 - n) = true → entLeaf e = true → entCont e = false) :
    s.walk c va (n + 1) table =
      if entV e = false then (s1, .np)
      else if s1.entryOk e (3 - n) = false then (s1, .fmt)
      else if entLeaf e = true then (s1, .leaf e (3 - n) (table + 8 * ptIndex va (3 - n)))
      else (s1.keepWalk c va (3 - n) (entPpn e * 2 ^ 12)).walk c va n (entPpn e * 2 ^ 12) := by
  simp only [State.walk, hl, he, List.contains_nil, Bool.false_eq_true, if_false, Bool.not_eq_true']
  split
  · rfl
  next hv =>
  split
  · rfl
  next ho =>
  split
  next hleaf => rw [if_neg (by simp [hc (by simpa using hv) (by simpa using ho) hleaf])]
  · rfl

/-- What translation answers before any table is read. -/
theorem State.xlate_before_walk (s : State) (c : MCtx) (va : Word) (k : XKind) :
    (2 ^ 64 - 2 ^ 22 ≤ va.toNat → s.xlate c va k = (s, .fault k.notPresent)) ∧
    (2 ^ 55 ≤ va.toNat → va.toNat < 2 ^ 64 - 2 ^ 55 → s.xlate c va k = (s, .fault 0x10)) ∧
    (va.toNat < 2 ^ 55 → c.ptBase.getLsbD 0 = false →
      (c.mode = false → s.xlate c va k = (s, .fault k.notPresent)) ∧
      (c.mode = true → 2 ^ 52 ≤ va.toNat → s.xlate c va k = (s, .fault 0x10)) ∧
      (c.mode = true → va.toNat < 2 ^ 52 → s.xlate c va k = (s, .ok va.toNat bareLeaf))) := by
  have window : va.toNat < 2 ^ 64 - 2 ^ 22 → inWindow va = false := fun h => by
    rw [← Bool.not_eq_true, inWindow_iff]; omega
  refine ⟨fun h => State.xlate_window ((inWindow_iff va).2 h), fun h1 h2 => ?_, fun h he => ?_⟩
  · refine State.xlate_noncanonical (window (by omega)) ?_
    rw [← Bool.not_eq_true, canonical_iff]
    omega
  · rw [State.xlate_untabled (window (by omega)) ((canonical_iff va).2 (.inl h)) he]
    refine ⟨fun hm => by simp [hm], fun hm h2 => ?_, fun hm h2 => ?_⟩
    · rw [if_neg (by simp [hm]), if_pos h2]
    · rw [if_neg (by simp [hm]), if_neg (by omega)]

/-- Settles O38: the three parts are the tests before a walk, the checks on a leaf, and one level of a walk. -/
theorem translation : Obligations.Translation := by
  refine ⟨fun s c va k => ?_, fun s s1 c va k e lvl pa => ?_, fun s s1 c va n table e hn => ?_⟩
  · have h := s.xlate_before_walk c va k
    cases k <;> exact h
  · refine ⟨fun h => ?_, fun h => ?_, fun h => ?_, fun h => ?_⟩
    · cases k <;> simp only [State.xlateWalk, h] <;> rfl
    · simp only [State.xlateWalk, h]
    · simp only [State.xlateWalk, h]
    intro user may bad
    have hmay : may = k.granted e := by cases k <;> rfl
    have hperm : permCause k c.mode e = if bad then some k.prot else none := by
      rw [permCause_eq, ← hmay]
    refine ⟨fun hbad => ?_, fun hbad => ?_⟩
    · rw [State.xlateWalk_withheld h (by rw [hperm, if_pos hbad])]
      cases k <;> rfl
    · have hw := State.xlateWalk_granted h (by rw [hperm, if_neg hbad])
      intro e2 at'
      have he2 : withAD k e = e2 := withAD_eq k e
      have hat : leafPa e lvl va = at' := rfl
      rw [hat, he2] at hw
      refine ⟨fun hk ha hr => ?_, fun hk ha hr => ?_, fun hr => ?_⟩
      · rw [hw, regionCause_rsh hk ha hr]; rfl
      · rw [hw, regionCause_rdup hk ha hr]; rfl
      · rw [hw, regionCause_eq_none hr]; rfl
  · intro lvl idx pa hl he
    have hw := State.walk_succ hl (show s.homeLoad c.ag (table + 8 * ptIndex va (3 - n)) 8 = (s1, .ok e) from he)
    have absent : e.testBit 0 = true → ¬entV e = false := fun hv h => absurd (hv.symm.trans h) (by decide)
    have malformed : s1.entryOk e lvl = true → ¬s1.entryOk e lvl = false := fun ho h => absurd (ho.symm.trans h) (by decide)
    refine ⟨fun hv => ?_, fun hv ho => ?_, fun hv ho hf => ?_, fun hv ho hf hg => ?_⟩
    · exact (hw fun h => absurd hv (absent h)).trans (if_pos hv)
    · rw [hw fun _ h => absurd ho (malformed h), if_neg (absent hv), if_pos ho]
    · have notLeaf : ¬entLeaf e = true := fun h => absurd (hf.symm.trans h) (by decide)
      rw [hw fun _ _ h => absurd h notLeaf, if_neg (absent hv), if_neg (malformed ho), if_neg notLeaf]
      rfl
    · rw [hw fun _ _ _ => hg, if_neg (absent hv), if_neg (malformed ho)]
      exact if_pos hf

end Sys2Proof.Machine

namespace Sys2Proof.Machine

/-! ## Fields of a written word -/

/-- A mask of `len` bits from bit `lo` keeps that field at its place. -/
theorem and_fieldMask (w : Word) (lo len : Nat) :
    w &&& BitVec.ofNat 64 ((2 ^ len - 1) * 2 ^ lo) = BitVec.ofNat 64 (w.toNat / 2 ^ lo % 2 ^ len * 2 ^ lo) := by
  refine BitVec.eq_of_getLsbD_eq fun i hi => ?_
  simp only [BitVec.getLsbD_and, BitVec.getLsbD_ofNat, hi, decide_true, Bool.true_and, Nat.testBit_mul_two_pow,
    Nat.testBit_two_pow_sub_one, Nat.testBit_mod_two_pow, Nat.testBit_div_two_pow]
  by_cases h : lo ≤ i
  · simp [h, BitVec.getLsbD, Bool.and_comm]
  · simp [h]

/-- The low bits of a word. -/
theorem and_lowMask (w : Word) (len : Nat) : w &&& BitVec.ofNat 64 (2 ^ len - 1) = BitVec.ofNat 64 (w.toNat % 2 ^ len) := by
  simpa using and_fieldMask w 0 len

theorem setWidth_setWidth_eq_and (w : Word) (n : Nat) :
    (w.setWidth n).setWidth 64 = w &&& BitVec.ofNat 64 (2 ^ n - 1) := by
  rw [and_lowMask]
  refine BitVec.eq_of_toNat_eq ?_
  rw [BitVec.toNat_setWidth, BitVec.toNat_setWidth, BitVec.toNat_ofNat]

/-- A bit of a word, as a number. -/
theorem ite_getLsbD (w : Word) (i : Nat) : (if w.getLsbD i = true then 1 else 0) = w.toNat / 2 ^ i % 2 := by
  rw [BitVec.getLsbD, Nat.testBit_eq_decide_div_mod_eq]
  have := Nat.mod_two_eq_zero_or_one (w.toNat / 2 ^ i)
  split <;> simp_all

/-- Numbers at places that do not meet add up to a word's bits. -/
theorem ofNat_add_mul (a b i : Nat) (h : a < 2 ^ i) :
    BitVec.ofNat 64 (a + b * 2 ^ i) = BitVec.ofNat 64 a ||| BitVec.ofNat 64 (b * 2 ^ i) := by
  rw [← BitVec.ofNat_or, Nat.add_comm a, Nat.mul_comm b, Nat.two_pow_add_eq_or_of_lt h, Nat.or_comm]

/-! ## A store of a register of control space (04 R76) -/

/-- An address of control space: a package's register at an offset. -/
structure AtCtrl (pa p o : Nat) : Prop where
  area : areaOf pa = .ctrl
  pkg : paPkg pa = p
  off : paOff pa % 2 ^ 40 = o
  mod : pa % 8 = o % 8

theorem atCtrl_of_lt {p o : Nat} (hp : p < 16) (ho : o < 2 ^ 40) : AtCtrl (p * 2 ^ 48 + 0xFF * 2 ^ 40 + o) p o := by
  generalize hpa : p * 2 ^ 48 + 0xFF * 2 ^ 40 + o = pa
  have h1 : paOff pa / 2 ^ 40 = 0xFF := by unfold paOff; omega
  refine ⟨by simp only [areaOf, h1]; rfl, by unfold paPkg; omega, by unfold paOff; omega, by omega⟩

/-- A store of another size than four or eight bytes does nothing. -/
theorem exec_ctrlStore_size (s : State) (pa v : Nat) {n : Nat} (h4 : n ≠ 4) (h8 : n ≠ 8) :
    exec (.controlRegisterWrite pa n v) s = .next s := by
  have hsz : ctrlSize n = false := by simp [ctrlSize, h4, h8]
  change Host.Outcome.next _ = _
  rw [hsz]
  rfl

section
variable {s s1 : State} {pa p o : Nat}

theorem exec_ctrlStore (h : AtCtrl pa p o) (hs : s.present p = true) {n : Nat} (hn : ctrlSize n = true) (hd : pa % n = 0) (v : Nat) :
    exec (.controlRegisterWrite pa n v) s = .next (s.ctrlStore pa n v).1 := by
  change Host.Outcome.next _ = _
  rw [hn, hd, h.area, h.pkg, hs]
  rfl

theorem ctrlStore_eight (h : AtCtrl pa p o) (hd : o % 8 = 0) (v : Nat) :
    (s.ctrlStore pa 8 v).1 = (s.ctrlSet p o (BitVec.ofNat 64 v)).getD s := by
  have hr : o / 8 * 8 = o := by omega
  unfold State.ctrlStore
  simp only [h.off, h.pkg, hr, hd]
  generalize hold : (if ctrlCommand o = true then 0 else ((s.ctrlGet p o).getD 0).toNat) = old
  have hlt : old < 2 ^ 64 := by
    rw [← hold]
    split
    · decide
    · exact BitVec.isLt _
  have hv : BitVec.ofNat 64 (old - old / 2 ^ (8 * 0) % 2 ^ (8 * 8) * 2 ^ (8 * 0) + v % 2 ^ (8 * 8) * 2 ^ (8 * 0)) = BitVec.ofNat 64 v := by
    refine BitVec.eq_of_toNat_eq ?_
    simp only [BitVec.toNat_ofNat]
    omega
  rw [hv]
  cases s.ctrlSet p o (BitVec.ofNat 64 v) <;> rfl

/-- A store of four bytes keeps the other half of a register that is no command: the low half is written. -/
theorem ctrlStore_low (h : AtCtrl pa p o) (hd : o % 8 = 0) (hc : ctrlCommand o = false) {r : Word} (hr : s.ctrlGet p o = some r)
    (v : Nat) : (s.ctrlStore pa 4 v).1 =
      (s.ctrlSet p o ((r &&& BitVec.ofNat 64 0xFFFFFFFF00000000) ||| (BitVec.ofNat 64 v &&& BitVec.ofNat 64 0xFFFFFFFF))).getD s := by
  have hr8 : o / 8 * 8 = o := by omega
  have hw : r.toNat - r.toNat / 2 ^ (8 * 0) % 2 ^ (8 * 4) * 2 ^ (8 * 0) + v % 2 ^ (8 * 4) * 2 ^ (8 * 0) =
      v % 2 ^ 32 + r.toNat / 2 ^ 32 % 2 ^ 32 * 2 ^ 32 := by
    have := r.isLt
    omega
  have hhi : r &&& BitVec.ofNat 64 0xFFFFFFFF00000000 = BitVec.ofNat 64 (r.toNat / 2 ^ 32 % 2 ^ 32 * 2 ^ 32) := and_fieldMask r 32 32
  have hlo : BitVec.ofNat 64 v &&& BitVec.ofNat 64 0xFFFFFFFF = BitVec.ofNat 64 (v % 2 ^ 32) := by
    refine (and_lowMask (BitVec.ofNat 64 v) 32).trans (congrArg (BitVec.ofNat 64) ?_)
    rw [BitVec.toNat_ofNat]
    omega
  unfold State.ctrlStore
  simp only [h.off, h.pkg, hr8, hd, hc, hr, Option.getD_some, Bool.false_eq_true, if_false]
  rw [hw, ofNat_add_mul _ _ _ (by omega), hhi, hlo, BitVec.or_comm]
  cases s.ctrlSet p o _ <;> rfl

/-- The high half likewise. -/
theorem ctrlStore_high (h : AtCtrl pa p (o + 4)) (hd : o % 8 = 0) (hc : ctrlCommand o = false) {r : Word}
    (hr : s.ctrlGet p o = some r) (v : Nat) :
    (s.ctrlStore pa 4 v).1 = (s.ctrlSet p o ((r &&& BitVec.ofNat 64 0xFFFFFFFF) ||| (BitVec.ofNat 64 v <<< 32))).getD s := by
  have hr8 : (o + 4) / 8 * 8 = o := by omega
  have h4 : (o + 4) % 8 = 4 := by omega
  have hw : r.toNat - r.toNat / 2 ^ (8 * 4) % 2 ^ (8 * 4) * 2 ^ (8 * 4) + v % 2 ^ (8 * 4) * 2 ^ (8 * 4) =
      r.toNat % 2 ^ 32 + v % 2 ^ 32 * 2 ^ 32 := by
    have := r.isLt
    omega
  have hlo : r &&& BitVec.ofNat 64 0xFFFFFFFF = BitVec.ofNat 64 (r.toNat % 2 ^ 32) := and_lowMask r 32
  have hhi : BitVec.ofNat 64 v <<< 32 = BitVec.ofNat 64 (v % 2 ^ 32 * 2 ^ 32) := by
    refine BitVec.eq_of_toNat_eq ?_
    simp only [BitVec.toNat_shiftLeft, BitVec.toNat_ofNat, Nat.shiftLeft_eq]
    omega
  unfold State.ctrlStore
  simp only [h.off, h.pkg, hr8, h4, hc, hr, Option.getD_some, Bool.false_eq_true, if_false]
  rw [hw, ofNat_add_mul _ _ _ (by omega), hlo, hhi]
  cases s.ctrlSet p o _ <;> rfl

theorem exec_ctrlSet (h : AtCtrl pa p o) (hs : s.present p = true) (hd : o % 8 = 0) {v : Nat}
    (hw : s.ctrlSet p o (BitVec.ofNat 64 v) = some s1) : exec (.controlRegisterWrite pa 8 v) s = .next s1 := by
  rw [exec_ctrlStore h hs rfl (h.mod.trans hd), ctrlStore_eight h hd, hw]
  rfl

/-- A register that is not there keeps everything as it is. -/
theorem exec_ctrlSet_none (h : AtCtrl pa p o) (hs : s.present p = true) (hd : o % 8 = 0) {v : Nat}
    (hw : s.ctrlSet p o (BitVec.ofNat 64 v) = none) : exec (.controlRegisterWrite pa 8 v) s = .next s := by
  rw [exec_ctrlStore h hs rfl (h.mod.trans hd), ctrlStore_eight h hd, hw]
  rfl

end

/-! ## The blocks of control space (19 R423) -/

theorem State.present_updPkg {s : State} {p q : Nat} (f : Pkg → Pkg) (h : s.present q = true) :
    (s.updPkg p f).present q = true := by
  unfold State.present State.updPkg at *
  rw [tget_tset]
  split
  · rfl
  · exact h

theorem State.dieUp_updPkg {s : State} {p d : Nat} (f : Pkg → Pkg) (h : s.dieUp d = true) : (s.updPkg p f).dieUp d = true := by
  unfold State.dieUp at *
  rw [Bool.and_eq_true] at h ⊢
  exact ⟨State.present_updPkg f h.1, h.2⟩

section
variable {s : State} {p : Nat}

theorem State.ctrlSet_ctx {c r : Nat} (hc : c < 144) (hr : r < 0x100) (hup : s.dieUp (p * 16 + c / 72) = true) (w : Word) :
    s.ctrlSet p (0x00100000 + 0x100 * c + r) w = s.ctxWrite (p * 256 + c) r w := by
  have h1 : ctxOf (0x00100000 + 0x100 * c + r) = c := by unfold ctxOf; omega
  have h2 : (0x00100000 + 0x100 * c + r) % 0x100 = r := by omega
  have h3 : c / 2 / 36 = c / 72 := Nat.div_div_eq_div_mul c 2 36
  unfold State.ctrlSet
  rw [if_pos (by omega), h1, h2, h3, if_pos hup]

theorem State.ctrlGet_ctx {c r : Nat} (hc : c < 144) (hr : r < 0x100) (hup : s.dieUp (p * 16 + c / 72) = true) :
    s.ctrlGet p (0x00100000 + 0x100 * c + r) = s.ctxRead (p * 256 + c) r := by
  have h1 : ctxOf (0x00100000 + 0x100 * c + r) = c := by unfold ctxOf; omega
  have h2 : (0x00100000 + 0x100 * c + r) % 0x100 = r := by omega
  have h3 : c / 2 / 36 = c / 72 := Nat.div_div_eq_div_mul c 2 36
  unfold State.ctrlGet
  rw [if_neg (by omega), if_pos (by omega), h1, h2, h3, if_pos hup]

theorem State.ctrlSet_course {k r : Nat} (hk : k < 64) (hr : r < 0x100) (hup : s.dieUp (p * 16 + 2 + k / 8) = true) (w : Word) :
    s.ctrlSet p (0x04000000 + 0x100 * k + r) w = s.courseWrite ((p * 16 + 2 + k / 8) * 8 + k % 8) r w := by
  have h1 : (0x04000000 + 0x100 * k + r - 0x04000000) / 0x100 = k := by omega
  have h2 : (0x04000000 + 0x100 * k + r) % 0x100 = r := by omega
  have h3 : dieOfCourse ((p * 16 + 2 + k / 8) * 8 + k % 8) = p * 16 + 2 + k / 8 := by unfold dieOfCourse; omega
  unfold State.ctrlSet
  rw [if_neg (by omega), if_neg (by omega), if_pos (by omega)]
  simp only [h1, h2, h3, hup, if_true]

theorem State.ctrlGet_course {k r : Nat} (hk : k < 64) (hr : r < 0x100) (hup : s.dieUp (p * 16 + 2 + k / 8) = true) :
    s.ctrlGet p (0x04000000 + 0x100 * k + r) = s.courseRead ((p * 16 + 2 + k / 8) * 8 + k % 8) r := by
  have h1 : (0x04000000 + 0x100 * k + r - 0x04000000) / 0x100 = k := by omega
  have h2 : (0x04000000 + 0x100 * k + r) % 0x100 = r := by omega
  have h3 : dieOfCourse ((p * 16 + 2 + k / 8) * 8 + k % 8) = p * 16 + 2 + k / 8 := by unfold dieOfCourse; omega
  unfold State.ctrlGet
  rw [if_neg (by omega), if_neg (by omega), if_neg (by omega), if_pos (by omega)]
  simp only [h1, h2, h3, hup, if_true]

theorem State.ctrlSet_die {d r : Nat} (hd : d < 10) (hr : r < 0x100000) (hup : s.dieUp (p * 16 + d) = true) (w : Word) :
    s.ctrlSet p (0x05000000 + 0x100000 * d + r) w = s.dieWrite (p * 16 + d) r w := by
  have h1 : (0x05000000 + 0x100000 * d + r - 0x05000000) / 0x100000 = d := by omega
  have h2 : (0x05000000 + 0x100000 * d + r) % 0x100000 = r := by omega
  unfold State.ctrlSet
  rw [if_neg (by omega), if_neg (by omega), if_neg (by omega), if_pos (by omega)]
  simp only [h1, h2, hup, if_true]

theorem State.ctrlGet_die {d r : Nat} (hd : d < 10) (hr : r < 0x100000) (hup : s.dieUp (p * 16 + d) = true) :
    s.ctrlGet p (0x05000000 + 0x100000 * d + r) = s.dieRead (p * 16 + d) r := by
  have h1 : (0x05000000 + 0x100000 * d + r - 0x05000000) / 0x100000 = d := by omega
  have h2 : (0x05000000 + 0x100000 * d + r) % 0x100000 = r := by omega
  unfold State.ctrlGet
  rw [if_neg (by omega), if_neg (by omega), if_neg (by omega), if_neg (by omega), if_pos (by omega)]
  simp only [h1, h2, hup, if_true]

theorem State.ctrlSet_port {n r : Nat} (hn : n < 4) (hr : r < 0x10000) (hup : s.dieUp (portDie p n) = true) (w : Word) :
    s.ctrlSet p (0x06000000 + 0x10000 * n + r) w = ((s.port p n).write r w).map fun q => s.updPort p n fun _ => q := by
  have h1 : (0x06000000 + 0x10000 * n + r - 0x06000000) / 0x10000 = n := by omega
  have h2 : (0x06000000 + 0x10000 * n + r) % 0x10000 = r := by omega
  unfold State.ctrlSet
  rw [if_neg (by omega), if_neg (by omega), if_neg (by omega), if_neg (by omega), if_pos (by omega)]
  simp only [h1, h2, hup, Bool.not_true, Bool.false_eq_true, if_false]
  rfl

theorem State.ctrlGet_port {n r : Nat} (hn : n < 4) (hr : r < 0x10000) (hup : s.dieUp (portDie p n) = true) :
    s.ctrlGet p (0x06000000 + 0x10000 * n + r) = (s.port p n).read r := by
  have h1 : (0x06000000 + 0x10000 * n + r - 0x06000000) / 0x10000 = n := by omega
  have h2 : (0x06000000 + 0x10000 * n + r) % 0x10000 = r := by omega
  unfold State.ctrlGet
  rw [if_neg (by omega), if_neg (by omega), if_neg (by omega), if_neg (by omega), if_neg (by omega), if_pos (by omega)]
  simp only [h1, h2, hup, if_true]
  rfl

@[simp] theorem State.port_updPort (s : State) (p n : Nat) (f : Port → Port) : (s.updPort p n f).port p n = f (s.port p n) := by
  simp [State.port, State.updPort]

end

/-! ## Registers that are not there -/

theorem State.ctxWrite_none {s : State} {key o : Nat} (w : Word) (h : s.ctxRead key o = none) : s.ctxWrite key o w = none := by
  unfold State.ctxRead at h
  dsimp only at h
  split at h
  case h_10 =>
    unfold State.ctxWrite
    simp_all
  all_goals cases h

theorem State.courseWrite_none {s : State} {k o : Nat} (w : Word) (h : s.courseRead k o = none) : s.courseWrite k o w = none := by
  unfold State.courseRead at h
  dsimp only at h
  split at h
  case h_5 =>
    unfold State.courseWrite
    simp_all
  all_goals cases h

/-- Two choices on one condition, branch by branch. -/
theorem ite_none_of_ite_none {α β : Type} {c : Prop} [Decidable c] {a b : Option α} {a' b' : Option β} (ha : a = none → a' = none)
    (hb : b = none → b' = none) (h : (if c then a else b) = none) : (if c then a' else b') = none := by
  by_cases hc : c
  · rw [if_pos hc] at h ⊢
    exact ha h
  · rw [if_neg hc] at h ⊢
    exact hb h

theorem none_of_some {α β : Type} {a : α} {x : Option β} (h : some a = none) : x = none := nomatch h

theorem State.errWrite_none {s : State} {d o : Nat} (w : Word) (h : s.errRead d o = none) : s.errWrite d o w = none := by
  unfold State.errWrite
  split
  next h8 => subst h8; cases h
  · rw [h]; rfl

theorem State.monWrite_none {s : State} {d o : Nat} (w : Word) (h : s.monRead d o = none) : s.monWrite d o w = none := by
  unfold State.monRead at h
  refine ite_none_of_ite_none none_of_some (ite_none_of_ite_none (fun h => ?_) (fun _ => rfl)) h
  dsimp only at h
  split at h
  case h_9 => split at h <;> cases h
  all_goals cases h

theorem State.idwWrite_none {s : State} {d o : Nat} (w : Word) (h : s.idwRegs d o = none) : s.idwWrite d o w = none := by
  unfold State.idwRegs at h
  dsimp only at h
  split at h
  case h_6 =>
    unfold State.idwWrite
    simp_all
  all_goals cases h

theorem State.prqWrite_none {s : State} {d o : Nat} (w : Word) (h : (s.die d).prq.read o = none) : s.prqWrite d o w = none := by
  unfold Prq.read at h
  split at h
  case h_6 =>
    unfold State.prqWrite
    simp_all
  all_goals cases h

theorem State.quadRead_none {s : State} {d o : Nat} (h : s.quadRead d o = none) : ¬(o % 0x40 = 0 ∧ o < 0x100) := by
  rintro ⟨h0, h1⟩
  simp [State.quadRead, h0, h1] at h

theorem State.dieWrite_none {s : State} {d o : Nat} (w : Word) (h : s.dieRead d o = none) : s.dieWrite d o w = none := by
  unfold State.dieRead at h
  unfold State.dieWrite
  dsimp only at h ⊢
  split at h
  · exact s.errWrite_none w h
  · exact s.monWrite_none w h
  · cases hs : isSDie d
    · rfl
    · rw [hs, if_pos rfl] at h
      simp only [Bool.not_true, Bool.false_eq_true, if_false, if_neg (State.quadRead_none h), h, Option.map_none]
  · rw [h]; rfl
  · exact ite_none_of_ite_none none_of_some (ite_none_of_ite_none none_of_some (fun _ => rfl)) h
  · exact ite_none_of_ite_none none_of_some (fun _ => rfl) h
  · exact s.idwWrite_none w h
  · exact ite_none_of_ite_none none_of_some (fun _ => rfl) h
  · exact ite_none_of_ite_none none_of_some (fun _ => rfl) h
  · exact ite_none_of_ite_none none_of_some (fun _ => rfl) h
  · exact ite_none_of_ite_none (s.prqWrite_none w) (fun _ => rfl) h
  · rfl

theorem Port.write_none {q : Port} {o : Nat} (w : Word) (h : q.read o = none) : q.write o w = none := by
  unfold Port.read at h
  exact ite_none_of_ite_none none_of_some (ite_none_of_ite_none none_of_some (ite_none_of_ite_none none_of_some
    (ite_none_of_ite_none none_of_some (ite_none_of_ite_none none_of_some (ite_none_of_ite_none none_of_some (fun _ => rfl)))))) h

/-- What has no register to read has none to write. -/
theorem State.ctrlSet_none {s : State} {p o : Nat} (w : Word) (h : s.ctrlGet p o = none) : s.ctrlSet p o w = none := by
  have hread : (s.ctrlGet p o).map (fun _ => s) = none := by rw [h]; rfl
  unfold State.ctrlGet at h
  by_cases h0 : o = 0
  · subst h0; exact hread
  rw [if_neg h0] at h
  dsimp only at h
  refine ite_none_of_ite_none (ite_none_of_ite_none (s.ctxWrite_none w) (fun _ => rfl))
    (ite_none_of_ite_none (ite_none_of_ite_none none_of_some (fun _ => rfl)) <|
    ite_none_of_ite_none (ite_none_of_ite_none (s.courseWrite_none w) (fun _ => rfl)) <|
    ite_none_of_ite_none (ite_none_of_ite_none (s.dieWrite_none w) (fun _ => rfl)) <| ite_none_of_ite_none (fun h => ?_) (fun h => ?_)) h
  · dsimp only
    split at h
    next hup => rw [hup, Port.write_none w h]; rfl
    next hup => rw [Bool.not_eq_true] at hup; rw [hup]; rfl
  · rw [if_neg, if_neg, hread]
    · rintro ⟨rfl, hup⟩; simp [hup] at h
    · rintro ⟨rfl, hup⟩; simp [hup] at h

/-! ## Registers that a store leaves -/

/-- A store of eight bytes to a register of a package's control space leaves it so that it reads as `r`. -/
def State.Leaves (s : State) (p v o : Nat) (r : Word) : Prop :=
  Answers s (.controlRegisterWrite (p * 2 ^ 48 + 0xFF * 2 ^ 40 + o) 8 v) fun s' =>
    s'.ctrlGet p o = some r ∧ s'.mem = s.mem ∧ s'.cur = s.cur

section
variable {s : State} {p v o r : Nat} {x : Word} (hs : s.present p = true) (hp : p < 16)
include hs hp

/-- A register of a context's block that is written by `f` and read by `g`. -/
theorem State.leaves_ctx {c : Nat} (hc : c < 144) (hup : s.dieUp (p * 16 + c / 72) = true) (f : Ctx → Ctx) (g : Ctx → Word)
    (ho : o = 0x00100000 + 0x100 * c + r) (hr : r < 0x100 ∧ r % 8 = 0)
    (hw : s.ctxWrite (p * 256 + c) r (BitVec.ofNat 64 v) = some (s.updCtx (p * 256 + c) f))
    (hg : ∀ t : State, t.ctxRead (p * 256 + c) r = some (g (t.ctx (p * 256 + c)))) (hx : g (f (s.ctx (p * 256 + c))) = x) :
    s.Leaves p v o x := by
  subst ho hx
  refine ⟨_, exec_ctrlSet (atCtrl_of_lt hp (by omega)) hs (by omega) ((State.ctrlSet_ctx hc hr.1 hup _).trans hw), ?_, rfl, rfl⟩
  refine (State.ctrlGet_ctx (s := s.updCtx (p * 256 + c) f) hc hr.1 hup).trans ?_
  rw [hg, State.ctx_updCtx]

/-- A register of a course's block likewise. -/
theorem State.leaves_course {k : Nat} (hk : k < 64) (hup : s.dieUp (p * 16 + 2 + k / 8) = true)
    (f : Course → Course) (g : Course → Word) (ho : o = 0x04000000 + 0x100 * k + r) (hr : r < 0x100 ∧ r % 8 = 0)
    (hw : ∀ n, s.courseWrite n r (BitVec.ofNat 64 v) = some (s.updCourse n f))
    (hg : ∀ (t : State) (n : Nat), t.courseRead n r = some (g (t.course n)))
    (hx : g (f (s.course ((p * 16 + 2 + k / 8) * 8 + k % 8))) = x) : s.Leaves p v o x := by
  subst ho hx
  refine ⟨_, exec_ctrlSet (atCtrl_of_lt hp (by omega)) hs (by omega) ((State.ctrlSet_course hk hr.1 hup _).trans (hw _)), ?_, rfl, rfl⟩
  refine (State.ctrlGet_course (s := s.updCourse _ f) hk hr.1 hup).trans ?_
  rw [hg, State.course_updCourse]

/-- A register of a die's block likewise. -/
theorem State.leaves_die {d : Nat} (hd : d < 10) (hup : s.dieUp (p * 16 + d) = true) (f : Die → Die) (g : Die → Word)
    (ho : o = 0x05000000 + 0x100000 * d + r) (hr : r < 0x100000 ∧ r % 8 = 0)
    (hw : s.dieWrite (p * 16 + d) r (BitVec.ofNat 64 v) = some (s.updDie (p * 16 + d) f))
    (hg : ∀ t : State, t.dieRead (p * 16 + d) r = some (g (t.die (p * 16 + d)))) (hx : g (f (s.die (p * 16 + d))) = x) :
    s.Leaves p v o x := by
  subst ho hx
  refine ⟨_, exec_ctrlSet (atCtrl_of_lt hp (by omega)) hs (by omega) ((State.ctrlSet_die hd hr.1 hup _).trans hw), ?_, rfl, rfl⟩
  refine (State.ctrlGet_die (s := s.updDie (p * 16 + d) f) hd hr.1 hup).trans ?_
  rw [hg, State.die_updDie]

/-- A register of a port's block likewise. -/
theorem State.leaves_port {n : Nat} (hn : n < 4) (hup : s.dieUp (portDie p n) = true) (f : Port → Port) (g : Port → Word)
    (ho : o = 0x06000000 + 0x10000 * n + r) (hr : r < 0x10000 ∧ r % 8 = 0)
    (hw : ∀ q : Port, q.write r (BitVec.ofNat 64 v) = some (f q)) (hg : ∀ q : Port, q.read r = some (g q))
    (hx : g (f (s.port p n)) = x) : s.Leaves p v o x := by
  subst ho hx
  have hup' : (s.updPort p n fun _ => f (s.port p n)).dieUp (portDie p n) = true := State.dieUp_updPkg _ hup
  refine ⟨s.updPort p n fun _ => f (s.port p n), exec_ctrlSet (atCtrl_of_lt hp (by omega)) hs (by omega) ?_, ?_, rfl, rfl⟩
  · rw [State.ctrlSet_port hn hr.1 hup, hw]; rfl
  · rw [State.ctrlGet_port hn hr.1 hup', State.port_updPort, hg]

/-- TIME_FREQ is limited to five hundred million either way (20 R444). -/
theorem State.leaves_freq (hup : s.dieUp (p * 16) = true) : s.Leaves p v 0x08000000 (clampFreq (BitVec.ofNat 64 v)) := by
  have hup' : (s.updPkg p fun x => { x with freq := clampFreq (BitVec.ofNat 64 v) }).dieUp (p * 16) = true := State.dieUp_updPkg _ hup
  refine ⟨s.updPkg p fun x => { x with freq := clampFreq (BitVec.ofNat 64 v) },
    exec_ctrlSet (atCtrl_of_lt hp (by decide)) hs (by decide) ?_, ?_, rfl, rfl⟩
  · simp [State.ctrlSet, hup]
  · simp [State.ctrlGet, hup']

end

/-! ### Fields of the registers -/

/-- PA[51:12] of a ring's base (15 R344; 20 R439). -/
theorem ofNat_ringBase (w : Word) : BitVec.ofNat 64 (ringBase w) = w &&& 0x000FFFFFFFFFF000 := by
  refine Eq.trans (congrArg (BitVec.ofNat 64) ?_) (and_fieldMask w 12 40).symm
  unfold ringBase
  omega

theorem ringRead_base (q : Ring) (w : Word) (ctl : Ring → Word → Ring) :
    ringRead (ringWrite q 0 w ctl) 0 = w &&& 0x000FFFFFFFFFF000 := ofNat_ringBase w

theorem ringRead_tail (q : Ring) (w : Word) (ctl : Ring → Word → Ring) :
    ringRead (ringWrite q 0x18 w ctl) 0x18 = w &&& 0xFFFFFFFF := setWidth_setWidth_eq_and w 32

/-- EN of a written control register stays only with LOG2N in range (15 R344, R345). -/
theorem ringRead_ctl (q : Ring) (v lo hi : Nat) :
    ringRead (ringWrite q 8 (BitVec.ofNat 64 v) fun q v => setRingCtl q v lo hi) 8 =
      if (BitVec.ofNat 64 v).getLsbD 0 = true ∧ lo ≤ v / 2 % 32 ∧ v / 2 % 32 ≤ hi then BitVec.ofNat 64 v &&& 0x3F
      else BitVec.ofNat 64 v &&& 0x3E := by
  have hn : (BitVec.ofNat 64 v).toNat / 2 % 32 = v / 2 % 32 := by rw [BitVec.toNat_ofNat]; omega
  have hodd : BitVec.ofNat 64 v &&& 0x3F = BitVec.ofNat 64 (v % 64) := by
    refine (and_lowMask _ 6).trans (congrArg _ ?_)
    rw [BitVec.toNat_ofNat]
    omega
  have heven : BitVec.ofNat 64 v &&& 0x3E = BitVec.ofNat 64 (v / 2 % 32 * 2) := by
    refine (and_fieldMask _ 1 5).trans (congrArg _ ?_)
    rw [BitVec.toNat_ofNat]
    omega
  change ringCtl (setRingCtl q (BitVec.ofNat 64 v) lo hi) = _
  rw [hodd, heven]
  simp only [ringCtl, setRingCtl, hn, Bool.and_eq_true, decide_eq_true_eq]
  split
  next h =>
    have hbit := ite_getLsbD (BitVec.ofNat 64 v) 0
    rw [if_pos h.1, BitVec.toNat_ofNat] at hbit
    exact congrArg _ (by omega)
  · rw [Nat.zero_add]

/-- A bit at its place, as a number. -/
theorem ite_bit (w : Word) (i : Nat) {b : Bool} (hb : b = w.getLsbD i) {c : Nat} (hc : c = 2 ^ i) :
    (if b = true then c else 0) = w.toNat / c % 2 * c := by
  rw [hb, hc, ← ite_getLsbD]
  split <;> simp

theorem word_ofWord (w : Word) : (Cls.ofWord w).word = w &&& 0xFFFFFFFFF := by
  refine Eq.trans ?_ (and_lowMask w 36).symm
  unfold Cls.word
  rw [ite_bit w 28 (b := (Cls.ofWord w).vmatch) rfl rfl, ite_bit w 29 (b := (Cls.ofWord w).valid) rfl rfl]
  simp only [Cls.ofWord, BitVec.toNat_setWidth, BitVec.toNat_ushiftRight, Nat.shiftRight_eq_div_pow]
  exact congrArg _ (by omega)

/-- GOV_CTL reads as it will be (16 R358). -/
theorem ctlWord_govNext (c : Course) (v : Nat) : ({ c with govNext := some (BitVec.ofNat 64 v) } : Course).ctlWord =
    BitVec.ofNat 64 (Nat.max 1 (Nat.min (v % 128) 122) + Nat.min (v / 256 % 4096) 2048 * 256) ||| (BitVec.ofNat 64 v &&& 0x300000) := by
  have hm : BitVec.ofNat 64 v &&& 0x300000 = BitVec.ofNat 64 (v / 2 ^ 20 % 4 * 2 ^ 20) := by
    refine (and_fieldMask _ 20 2).trans (congrArg _ ?_)
    rw [BitVec.toNat_ofNat]
    omega
  have hl : (if (BitVec.ofNat 64 v).toNat % 2 ^ 7 = 0 then 1 else Nat.min ((BitVec.ofNat 64 v).toNat % 2 ^ 7) 122) =
      Nat.max 1 (Nat.min (v % 128) 122) := by
    have hv : (BitVec.ofNat 64 v).toNat % 2 ^ 7 = v % 128 := by rw [BitVec.toNat_ofNat]; omega
    rw [hv]
    simp only [Nat.max_def, Nat.min_def]
    split_ifs <;> omega
  have hg : Nat.min ((BitVec.ofNat 64 v).toNat / 2 ^ 8 % 2 ^ 12) 2048 = Nat.min (v / 256 % 4096) 2048 := by
    rw [BitVec.toNat_ofNat]
    exact congrArg (Nat.min · 2048) (by omega)
  have h1 : Nat.max 1 (Nat.min (v % 128) 122) ≤ 122 := Nat.max_le.2 ⟨by decide, Nat.min_le_right _ _⟩
  have h2 : Nat.min (v / 256 % 4096) 2048 ≤ 2048 := Nat.min_le_right _ _
  rw [hm, ← ofNat_add_mul _ _ 20 (by omega)]
  simp only [Course.ctlWord, Course.applyCtl, hl, hg]
  rw [ite_bit _ 20 rfl rfl, ite_bit _ 21 rfl rfl, BitVec.toNat_ofNat]
  exact congrArg _ (by omega)

/-- The software bits of IRQ_PEND (18 R410). -/
theorem State.irqPend_soft (s : State) (key : Nat) {j : Nat} (h16 : 16 ≤ j) (h32 : j < 32) :
    (s.irqPend key).getLsbD j = (s.ctx key).irqSoft.getLsbD (j - 16) := by
  have hb : ∀ (b : Bool) (n : Nat), n < 16 → (bitIf b n).getLsbD j = false := by
    intro b n hn
    cases b
    · exact BitVec.getLsbD_zero
    · simp only [bitIf, if_true, BitVec.getLsbD_ofNat, Nat.testBit_two_pow]
      simp
      omega
  have hr : List.range 4 = [0, 1, 2, 3] := rfl
  simp only [State.irqPend, hr, List.foldl, BitVec.getLsbD_or, hb _ 0 (by decide), hb _ (0 + 1) (by decide), hb _ (1 + 1) (by decide),
    hb _ (2 + 1) (by decide), hb _ (3 + 1) (by decide), hb _ 8 (by decide), hb _ 9 (by decide), hb _ 10 (by decide), Bool.false_or,
    BitVec.getLsbD_shiftLeft, BitVec.getLsbD_setWidth]
  have h1 : j < 64 := by omega
  have h2 : ¬j < 16 := by omega
  have h3 : j - 16 < 64 := by omega
  simp [h1, h2, h3]

/-! ### The tables of a port -/

section
variable (q : Port) (w : Word) {k r : Nat}

theorem Port.write_cls (hk : k < 256) : q.write (0x800 + 8 * k) w = some { q with cls := tset q.cls k (Cls.ofWord w) } := by
  have h : (0x800 + 8 * k - 0x800) / 8 = k := by omega
  unfold Port.write
  rw [if_neg (by omega), if_neg (by omega), if_neg (by omega), if_pos (by omega), h]

theorem Port.read_cls (hk : k < 256) : q.read (0x800 + 8 * k) = some (((tget q.cls k).map Cls.word).getD 0) := by
  have h : (0x800 + 8 * k - 0x800) / 8 = k := by omega
  unfold Port.read
  rw [if_neg (by omega), if_neg (by omega), if_neg (by omega), if_pos (by omega), h]

theorem Port.write_rx (hk : k < 64) (hr : r < 0x20) : q.write (0x1000 + 0x20 * k + r) w =
    some { q with rx := tmod q.rx k Ring.init fun x => ringWrite x r w setPortCtl } := by
  have h1 : (0x1000 + 0x20 * k + r - 0x1000) / 0x20 = k := by omega
  have h2 : (0x1000 + 0x20 * k + r) % 0x20 = r := by omega
  unfold Port.write
  rw [if_neg (by omega), if_neg (by omega), if_neg (by omega), if_neg (by omega), if_pos (by omega), h1, h2]

theorem Port.read_rx (hk : k < 64) (hr : r < 0x20) :
    q.read (0x1000 + 0x20 * k + r) = some (ringRead ((tget q.rx k).getD Ring.init) r) := by
  have h1 : (0x1000 + 0x20 * k + r - 0x1000) / 0x20 = k := by omega
  have h2 : (0x1000 + 0x20 * k + r) % 0x20 = r := by omega
  unfold Port.read
  rw [if_neg (by omega), if_neg (by omega), if_neg (by omega), if_neg (by omega), if_pos (by omega), h1, h2]

theorem Port.write_tx (hk : k < 64) (hr : r < 0x20) : q.write (0x2000 + 0x20 * k + r) w =
    some { q with tx := tmod q.tx k Ring.init fun x => ringWrite x r w setPortCtl } := by
  have h1 : (0x2000 + 0x20 * k + r - 0x2000) / 0x20 = k := by omega
  have h2 : (0x2000 + 0x20 * k + r) % 0x20 = r := by omega
  unfold Port.write
  rw [if_neg (by omega), if_neg (by omega), if_neg (by omega), if_neg (by omega), if_neg (by omega), if_pos (by omega), h1, h2]

theorem Port.read_tx (hk : k < 64) (hr : r < 0x20) :
    q.read (0x2000 + 0x20 * k + r) = some (ringRead ((tget q.tx k).getD Ring.init) r) := by
  have h1 : (0x2000 + 0x20 * k + r - 0x2000) / 0x20 = k := by omega
  have h2 : (0x2000 + 0x20 * k + r) % 0x20 = r := by omega
  unfold Port.read
  rw [if_neg (by omega), if_neg (by omega), if_neg (by omega), if_neg (by omega), if_neg (by omega), if_pos (by omega), h1, h2]

end

theorem tget_tmod_self {α : Type} (m : List (Nat × α)) (a : Nat) (d : α) (f : α → α) :
    (tget (tmod m a d f) a).getD d = f ((tget m a).getD d) := by
  simp [tmod]

/-! ### Contexts -/

section
variable {s : State} {p c : Nat} (hs : s.present p = true) (hp : p < 16) (hc : c < 144) (hup : s.dieUp (p * 16 + c / 72) = true)
include hs hp hc hup

/-- IRQ_PEND after a store that changes the software bits (18 R410). -/
theorem State.store_soft {o v r : Nat} (f : Ctx → Ctx) (ho : o = 0x00100000 + 0x100 * c + r) (hr : r < 0x100 ∧ r % 8 = 0)
    (hw : s.ctxWrite (p * 256 + c) r (BitVec.ofNat 64 v) = some (s.updCtx (p * 256 + c) f)) (g : Bool → Bool → Bool)
    (hg : ∀ j, 16 ≤ j → j < 32 →
      (f (s.ctx (p * 256 + c))).irqSoft.getLsbD (j - 16) =
        g ((s.ctx (p * 256 + c)).irqSoft.getLsbD (j - 16)) ((BitVec.ofNat 64 v).getLsbD j)) :
    Answers s (.controlRegisterWrite (p * 2 ^ 48 + 0xFF * 2 ^ 40 + o) 8 v) fun s' => ∀ j, 16 ≤ j → j < 32 →
      ((s'.ctrlGet p (0x00100000 + 0x100 * c)).getD 0).getLsbD j =
        g (((s.ctrlGet p (0x00100000 + 0x100 * c)).getD 0).getLsbD j) ((BitVec.ofNat 64 v).getLsbD j) := by
  subst ho
  refine ⟨_, exec_ctrlSet (atCtrl_of_lt hp (by omega)) hs (by omega) ((State.ctrlSet_ctx hc hr.1 hup _).trans hw), fun j h16 h32 => ?_⟩
  have hget : ∀ t : State, t.dieUp (p * 16 + c / 72) = true →
      ((t.ctrlGet p (0x00100000 + 0x100 * c)).getD 0).getLsbD j = (t.ctx (p * 256 + c)).irqSoft.getLsbD (j - 16) := by
    intro t ht
    rw [← t.irqPend_soft _ h16 h32]
    exact congrArg (fun r : Option Word => (r.getD 0).getLsbD j) (State.ctrlGet_ctx (r := 0) hc (by decide) ht)
  rw [hget s hup, hget (s.updCtx _ f) hup, State.ctx_updCtx, hg j h16 h32]

omit hp in
/-- IRQ_EN after a store that leaves a value there. -/
theorem State.store_irqEn {pa n v : Nat} {x : Word} (hn : ctrlSize n = true) (hd : pa % n = 0)
    (h : AtCtrl pa p (0x00100000 + 0x100 * c + 8) ∨ AtCtrl pa p (0x00100000 + 0x100 * c + 8 + 4))
    (hst : (s.ctrlStore pa n v).1 = (s.ctrlSet p (0x00100000 + 0x100 * c + 8) x).getD s) :
    Answers s (.controlRegisterWrite pa n v) fun s' => s'.ctrlGet p (0x00100000 + 0x100 * c + 8) = some x := by
  have hset : s.ctrlSet p (0x00100000 + 0x100 * c + 8) x = some (s.updCtx (p * 256 + c) fun y => { y with irqEn := x }) :=
    (State.ctrlSet_ctx hc (by decide) hup x).trans rfl
  have hexec : exec (.controlRegisterWrite pa n v) s = .next (s.ctrlStore pa n v).1 := by
    rcases h with h | h
    · exact exec_ctrlStore h hs hn hd v
    · exact exec_ctrlStore h hs hn hd v
  refine ⟨s.updCtx (p * 256 + c) fun y => { y with irqEn := x }, by rw [hexec, hst, hset]; rfl, ?_⟩
  refine (State.ctrlGet_ctx (s := s.updCtx (p * 256 + c) fun y => { y with irqEn := x }) hc (by decide) hup).trans ?_
  change some ((s.updCtx (p * 256 + c) _).ctx (p * 256 + c)).irqEn = some x
  rw [State.ctx_updCtx]

omit hs hp in
theorem State.ctrlGet_irqEn : s.ctrlGet p (0x00100000 + 0x100 * c + 8) = some (s.ctx (p * 256 + c)).irqEn :=
  State.ctrlGet_ctx hc (by decide) hup

omit hs hp hup in
theorem ctrlCommand_irqEn : ctrlCommand (0x00100000 + 0x100 * c + 8) = false := by
  simp [ctrlCommand]
  omega

/-- A store of four bytes to the low half of IRQ_EN. -/
theorem State.store_irqEn_low (v : Nat) :
    Answers s (.controlRegisterWrite (p * 2 ^ 48 + 0xFF * 2 ^ 40 + (0x00100000 + 0x100 * c + 8)) 4 v) fun s' =>
      s'.ctrlGet p (0x00100000 + 0x100 * c + 8) = some (((s.ctx (p * 256 + c)).irqEn &&& BitVec.ofNat 64 0xFFFFFFFF00000000) |||
        (BitVec.ofNat 64 v &&& BitVec.ofNat 64 0xFFFFFFFF)) := by
  have h := atCtrl_of_lt (o := 0x00100000 + 0x100 * c + 8) hp (by omega)
  exact State.store_irqEn hs hc hup rfl (by have := h.mod; omega) (.inl h)
    (ctrlStore_low h (by omega) (ctrlCommand_irqEn hc) (State.ctrlGet_irqEn hc hup) v)

/-- A store of four bytes to its high half. -/
theorem State.store_irqEn_high (v : Nat) :
    Answers s (.controlRegisterWrite (p * 2 ^ 48 + 0xFF * 2 ^ 40 + (0x00100000 + 0x100 * c + 0xC)) 4 v) fun s' =>
      s'.ctrlGet p (0x00100000 + 0x100 * c + 8) =
        some (((s.ctx (p * 256 + c)).irqEn &&& BitVec.ofNat 64 0xFFFFFFFF) ||| (BitVec.ofNat 64 v <<< 32)) := by
  have h := atCtrl_of_lt (o := 0x00100000 + 0x100 * c + 0xC) hp (by omega)
  exact State.store_irqEn hs hc hup rfl (by have := h.mod; omega) (.inr h)
    (ctrlStore_high h (by omega) (ctrlCommand_irqEn hc) (State.ctrlGet_irqEn hc hup) v)

end

/-! ### Dies -/

section
variable {s : State} {p d v : Nat} (hs : s.present p = true) (hp : p < 16) (hd : d < 10) (hup : s.dieUp (p * 16 + d) = true)
include hs hp hd hup

/-- The registers of a ring that a store may change, at its place in a die's block. -/
theorem State.leaves_ring (at' lo hi : Nat) (get : Die → Ring) (put : Ring → Die → Die) (hat : at' ≤ 0xFFFE0 ∧ at' % 8 = 0)
    (hput : ∀ q x, get (put q x) = q)
    (hw : ∀ r < 0x20, s.dieWrite (p * 16 + d) (at' + r) (BitVec.ofNat 64 v) =
      some (s.updDie (p * 16 + d) fun x => put (ringWrite (get x) r (BitVec.ofNat 64 v) fun q v => setRingCtl q v lo hi) x))
    (hg : ∀ r < 0x20, ∀ t : State, t.dieRead (p * 16 + d) (at' + r) = some (ringRead (get (t.die (p * 16 + d))) r)) :
    s.Leaves p v (0x05000000 + 0x100000 * d + at') (BitVec.ofNat 64 v &&& 0x000FFFFFFFFFF000) ∧
    s.Leaves p v (0x05000000 + 0x100000 * d + at' + 0x18) (BitVec.ofNat 64 v &&& 0xFFFFFFFF) ∧
    s.Leaves p v (0x05000000 + 0x100000 * d + at' + 8)
      (if (BitVec.ofNat 64 v).getLsbD 0 = true ∧ lo ≤ v / 2 % 32 ∧ v / 2 % 32 ≤ hi then BitVec.ofNat 64 v &&& 0x3F
        else BitVec.ofNat 64 v &&& 0x3E) := by
  have reg := fun r (h20 : r < 0x20) (h8 : r % 8 = 0) x
      (hx : ringRead (ringWrite (get (s.die (p * 16 + d))) r (BitVec.ofNat 64 v) fun q v => setRingCtl q v lo hi) r = x) =>
    State.leaves_die (o := 0x05000000 + 0x100000 * d + at' + r) (x := x) hs hp hd hup _ (fun x => ringRead (get x) r)
      (Nat.add_assoc _ _ _) (by omega) (hw r h20) (hg r h20) (by rw [hput]; exact hx)
  exact ⟨reg 0 (by decide) rfl _ (ringRead_base _ _ _), reg 0x18 (by decide) rfl _ (ringRead_tail _ _ _),
    reg 8 (by decide) rfl _ (ringRead_ctl _ _ _ _)⟩

end

theorem isSDie_at (p : Nat) {d : Nat} (hd : d < 10) : isSDie (p * 16 + d) = decide (2 ≤ d) := by
  have h : dieId (p * 16 + d) = d := by unfold dieId; omega
  simp [isSDie, h, hd]

section
variable {s : State} {d r : Nat} (w : Word)

theorem State.dieWrite_exq (hr : r < 0x20) : s.dieWrite d (0x80000 + r) w =
    some (s.updDie d fun x => { x with exq := ringWrite x.exq r w fun q v => setRingCtl q v 8 20 }) := by
  have h1 : (0x80000 + r) / 0x10000 = 8 := by omega
  have h2 : (0x80000 + r) % 0x10000 = r := by omega
  simp only [State.dieWrite, h1, h2, if_pos hr]

theorem State.dieRead_exq (hr : r < 0x20) : s.dieRead d (0x80000 + r) = some (ringRead (s.die d).exq r) := by
  have h1 : (0x80000 + r) / 0x10000 = 8 := by omega
  have h2 : (0x80000 + r) % 0x10000 = r := by omega
  simp only [State.dieRead, h1, h2, if_pos hr]

theorem State.dieWrite_arq (hd : isSDie d = false) (hr : r < 0x20) : s.dieWrite d (0x90000 + r) w =
    some (s.updDie d fun x => { x with arq := ringWrite x.arq r w fun q v => setRingCtl q v 4 16 }) := by
  have h1 : (0x90000 + r) / 0x10000 = 9 := by omega
  have h2 : (0x90000 + r) % 0x10000 = r := by omega
  simp [State.dieWrite, h1, h2, hd, hr]

theorem State.dieRead_arq (hd : isSDie d = false) (hr : r < 0x20) : s.dieRead d (0x90000 + r) = some (ringRead (s.die d).arq r) := by
  have h1 : (0x90000 + r) / 0x10000 = 9 := by omega
  have h2 : (0x90000 + r) % 0x10000 = r := by omega
  simp [State.dieRead, h1, h2, hd, hr]

theorem State.dieWrite_quad {q : Nat} (hd : isSDie d = true) (hq : q < 4) : s.dieWrite d (0x20000 + 0x40 * q) w =
    some (s.updDie d fun x => { x with quads := tmod x.quads q ⟨0, false, false, 0⟩ fun y => { y with qlim := w.setWidth 16 } }) := by
  have h1 : (0x20000 + 0x40 * q) / 0x10000 = 2 := by omega
  have h2 : (0x20000 + 0x40 * q) % 0x10000 = 0x40 * q := by omega
  have h3 : 0x40 * q / 0x40 = q := by omega
  simp only [State.dieWrite, h1, h2, h3, hd]
  rw [if_neg (by decide), if_pos (by omega)]

theorem State.dieRead_quad {q : Nat} (hd : isSDie d = true) (hq : q < 4) :
    s.dieRead d (0x20000 + 0x40 * q) = some ((((tget (s.die d).quads q).getD ⟨0, false, false, 0⟩).qlim).setWidth 64) := by
  have h1 : (0x20000 + 0x40 * q) / 0x10000 = 2 := by omega
  have h2 : (0x20000 + 0x40 * q) % 0x10000 = 0x40 * q := by omega
  have h3 : 0x40 * q / 0x40 = q := by omega
  have h4 : 0x40 * q % 0x40 = 0 := by omega
  simp only [State.dieRead, State.quadRead, h1, h2, h3, h4, hd, if_true]
  rw [if_pos (by omega)]

theorem State.dieWrite_fetch (hd : isSDie d = true) : s.dieWrite d 0x50000 w =
    some (s.updDie d fun x => { x with fetchCtl := BitVec.ofNat 64 (w.toNat % 2 + 2 * Nat.min 16 (w.toNat / 2 % 32)) }) := by
  simp [State.dieWrite, hd]

theorem State.dieRead_fetch (hd : isSDie d = true) : s.dieRead d 0x50000 = some (s.die d).fetchCtl := by
  simp [State.dieRead, hd]

theorem State.dieWrite_prq (hd : isSDie d = true) (hr : r < 0x10000) : s.dieWrite d (0xA0000 + r) w = s.prqWrite d r w := by
  have h1 : (0xA0000 + r) / 0x10000 = 10 := by omega
  have h2 : (0xA0000 + r) % 0x10000 = r := by omega
  simp only [State.dieWrite, h1, h2, hd, if_true]

theorem State.dieRead_prq (hd : isSDie d = true) (hr : r < 0x10000) : s.dieRead d (0xA0000 + r) = (s.die d).prq.read r := by
  have h1 : (0xA0000 + r) / 0x10000 = 10 := by omega
  have h2 : (0xA0000 + r) % 0x10000 = r := by omega
  simp only [State.dieRead, h1, h2, hd, if_true]

end

section
variable {s : State} {p v : Nat} (hs : s.present p = true) (hp : p < 16)
include hs hp

/-- The registers of a context's block (18 R409, R410; 19 R424). -/
theorem State.stores_ctx {c : Nat} (hc : c < 144) (hup : s.dieUp (p * 16 + c / 72) = true) :
    let w := BitVec.ofNat 64 v
    let b := 0x00100000 + 0x100 * c
    let store := fun (o n : Nat) => Instr.controlRegisterWrite (p * 2 ^ 48 + 0xFF * 2 ^ 40 + o) n v
    let bit := fun (t : State) (j : Nat) => ((t.ctrlGet p b).getD 0).getLsbD j
    s.Leaves p v (b + 0x08) w ∧
    s.Leaves p v (b + 0x10) (if (s.ctx (p * 256 + c)).hold = true ∧ w.getLsbD 0 = true then 1 else 0) ∧
    s.Leaves p v (b + 0x18) w ∧ s.Leaves p v (b + 0x30) w ∧ s.Leaves p v (b + 0x38) w ∧
    s.Leaves p v (b + 0x80) (w &&& 0x7FFFFFFFFF) ∧
    exec (store b 8) s = .next s ∧
    Answers s (store (b + 0x20) 8) (fun s' => ∀ j, 16 ≤ j → j < 32 → bit s' j = (bit s j || w.getLsbD j)) ∧
    Answers s (store (b + 0x28) 8) (fun s' => ∀ j, 16 ≤ j → j < 32 → bit s' j = (bit s j && !w.getLsbD j)) := by
  intro w b store bit
  have reg := fun r (hr : r < 0x100 ∧ r % 8 = 0) (f : Ctx → Ctx) (g : Ctx → Word) y =>
    State.leaves_ctx (v := v) (o := b + r) (x := y) hs hp hc hup f g rfl hr
  have hw : ∀ j, 16 ≤ j → j < 32 → ((w >>> 16).setWidth 16).getLsbD (j - 16) = w.getLsbD j := by
    intro j h16 h32
    rw [BitVec.getLsbD_setWidth, BitVec.getLsbD_ushiftRight, show 16 + (j - 16) = j by omega, decide_eq_true (by omega), Bool.true_and]
  refine ⟨reg 0x08 (by decide) (fun y => { y with irqEn := w }) (·.irqEn) _ rfl (fun _ => rfl) rfl,
    reg 0x10 (by decide) (fun y => { y with hold := y.hold && w.getLsbD 0 }) (fun y => if y.hold then 1 else 0) _ rfl (fun _ => rfl)
      (by simp only [Bool.and_eq_true]),
    reg 0x18 (by decide) (fun y => { y with timecmp := w }) (·.timecmp) _ rfl (fun _ => rfl) rfl,
    reg 0x30 (by decide) (fun y => { y with tid := w }) (·.tid) _ rfl (fun _ => rfl) rfl,
    reg 0x38 (by decide) (fun y => { y with launch := w }) (·.launch) _ rfl (fun _ => rfl) rfl,
    reg 0x80 (by decide) (fun y => { y with tok := w &&& 0x7FFFFFFFFF }) (·.tok) _ rfl (fun _ => rfl) rfl,
    exec_ctrlSet (atCtrl_of_lt hp (by omega)) hs (by omega) ((State.ctrlSet_ctx (r := 0) hc (by decide) hup w).trans rfl), ?_, ?_⟩
  · refine State.store_soft hs hp hc hup (fun y => { y with irqSoft := y.irqSoft ||| (w >>> 16).setWidth 16 }) rfl (by decide) rfl
      (· || ·) fun j h16 h32 => ?_
    rw [BitVec.getLsbD_or, hw j h16 h32]
  · refine State.store_soft hs hp hc hup (fun y => { y with irqSoft := y.irqSoft &&& ~~~(w >>> 16).setWidth 16 }) rfl (by decide) rfl
      (fun a b => a && !b) fun j h16 h32 => ?_
    rw [BitVec.getLsbD_and, BitVec.getLsbD_not, hw j h16 h32, decide_eq_true (by omega), Bool.true_and]

/-- The registers of every die's block (15 R342, R344; 19 R433; 21 R461). -/
theorem State.stores_die {d : Nat} (hd : d < 10) (hup : s.dieUp (p * 16 + d) = true) :
    let w := BitVec.ofNat 64 v
    let b := 0x05000000 + 0x100000 * d
    let x := s.die (p * 16 + d)
    s.Leaves p v (b + 0x8) (w &&& 0xFFFFFFFF) ∧ s.Leaves p v (b + 0x40000) w ∧ s.Leaves p v (b + 0x40008) w ∧
    s.Leaves p v (b + 0x60008) (w &&& 0xFFFF) ∧ s.Leaves p v (b + 0x60010) w ∧ s.Leaves p v (b + 0x60018) (w &&& 0xFFFFFFFF) ∧
    s.Leaves p v (b + 0x80010) (x.exq.head.setWidth 64) ∧
    (x.idwEn = true → s.Leaves p v (b + 0x60000) (BitVec.ofNat 64 ((if w.getLsbD 0 then 1 else 0) + x.idwTable))) := by
  intro w b x
  have reg := fun r (hr : r < 0x100000 ∧ r % 8 = 0) (f : Die → Die) (g : Die → Word) y =>
    State.leaves_die (v := v) (o := b + r) (x := y) hs hp hd hup f g rfl hr
  have low := setWidth_setWidth_eq_and w
  have hidw : x.idwEn = true → s.updDie (p * 16 + d) (fun y => { y with idwEn := w.getLsbD 0 }) = s.idwTableWrite (p * 16 + d) w := by
    intro hen
    simp only [State.idwTableWrite, State.updDie]
    rw [if_pos hen]
  exact ⟨reg 0x8 (by decide) (fun y => { y with errTail := w.setWidth 32 }) (·.errTail.setWidth 64) _ rfl (fun _ => rfl) (low 32),
    reg 0x40000 (by decide) (fun y => { y with bktBase := w }) (·.bktBase) _ rfl (fun _ => rfl) rfl,
    reg 0x40008 (by decide) (fun y => { y with perThread := w }) (·.perThread) _ rfl (fun _ => rfl) rfl,
    reg 0x60008 (by decide) (fun y => { y with idwAsid := w.setWidth 16 }) (·.idwAsid.setWidth 64) _ rfl (fun _ => rfl) (low 16),
    reg 0x60010 (by decide) (fun y => { y with idwBase := w }) (·.idwBase) _ rfl (fun _ => rfl) rfl,
    reg 0x60018 (by decide) (fun y => { y with idwRemain := w.setWidth 32 }) (·.idwRemain.setWidth 64) _ rfl (fun _ => rfl) (low 32),
    reg 0x80010 (by decide) id (·.exq.head.setWidth 64) _ rfl (fun _ => rfl) rfl,
    fun hen => reg 0x60000 (by decide) (fun y => { y with idwEn := w.getLsbD 0 })
      (fun y => BitVec.ofNat 64 ((if y.idwEn then 1 else 0) + y.idwTable)) _ (by rw [hidw hen]; rfl) (fun _ => rfl) rfl⟩

/-- The registers of an S-die's block alone (18 R412; 19 R428; 21 R461). -/
theorem State.stores_sDie {d : Nat} (hd : d < 10) (h2 : 2 ≤ d) (hup : s.dieUp (p * 16 + d) = true) :
    let w := BitVec.ofNat 64 v
    let b := 0x05000000 + 0x100000 * d
    s.Leaves p v (b + 0x50000) (BitVec.ofNat 64 (v % 2 + 2 * Nat.min 16 (v / 2 % 32))) ∧
    s.Leaves p v (b + 0xA0000) w ∧ s.Leaves p v (b + 0xA0008) (w &&& 0xFFFFFFFF) ∧ s.Leaves p v (b + 0xA0010) (w &&& 0xFF1F) ∧
    s.Leaves p v (b + 0xA0018) (w &&& 0xFFFFFFFF) ∧ ∀ q < 4, s.Leaves p v (b + 0x20000 + 0x40 * q) (w &&& 0xFFFF) := by
  intro w b
  have hsd : isSDie (p * 16 + d) = true := by rw [isSDie_at p hd, decide_eq_true h2]
  have reg := fun r (hr : r < 0x100000 ∧ r % 8 = 0) (f : Die → Die) (g : Die → Word) y =>
    State.leaves_die (v := v) (o := b + r) (x := y) hs hp hd hup f g rfl hr
  have hfetch : BitVec.ofNat 64 (w.toNat % 2 + 2 * Nat.min 16 (w.toNat / 2 % 32)) =
      BitVec.ofNat 64 (v % 2 + 2 * Nat.min 16 (v / 2 % 32)) := by
    have h1 : w.toNat % 2 = v % 2 := by rw [BitVec.toNat_ofNat]; omega
    have h5 : w.toNat / 2 % 32 = v / 2 % 32 := by rw [BitVec.toNat_ofNat]; omega
    rw [h1, h5]
  refine ⟨reg 0x50000 (by decide) (fun y => { y with fetchCtl := BitVec.ofNat 64 (w.toNat % 2 + 2 * Nat.min 16 (w.toNat / 2 % 32)) })
      (·.fetchCtl) _ (State.dieWrite_fetch w hsd) (fun _ => State.dieRead_fetch hsd) hfetch,
    reg 0xA0000 (by decide) (fun y => { y with prq := { y.prq with launch := w } }) (·.prq.launch) _
      (State.dieWrite_prq (r := 0) w hsd (by decide)) (fun _ => State.dieRead_prq (r := 0) hsd (by decide)) rfl,
    reg 0xA0008 (by decide) (fun y => { y with prq := { y.prq with wg := w &&& 0xFFFFFFFF } }) (·.prq.wg) _
      (State.dieWrite_prq (r := 8) w hsd (by decide)) (fun _ => State.dieRead_prq (r := 8) hsd (by decide)) rfl,
    reg 0xA0010 (by decide) (fun y => { y with prq := { y.prq with loc := w &&& 0xFF1F } }) (·.prq.loc) _
      (State.dieWrite_prq (r := 0x10) w hsd (by decide)) (fun _ => State.dieRead_prq (r := 0x10) hsd (by decide)) rfl,
    reg 0xA0018 (by decide) (fun y => { y with prq := { y.prq with bound := w.toNat % 2 ^ 32 } }) (fun y => BitVec.ofNat 64 y.prq.bound) _
      (State.dieWrite_prq (r := 0x18) w hsd (by decide)) (fun _ => State.dieRead_prq (r := 0x18) hsd (by decide))
      (and_lowMask w 32).symm, fun q hq => ?_⟩
  refine State.leaves_die hs hp hd hup _ (fun y => (((tget y.quads q).getD ⟨0, false, false, 0⟩).qlim).setWidth 64)
    (Nat.add_assoc _ _ _) (by omega) (State.dieWrite_quad w hsd hq) (fun t => State.dieRead_quad hsd hq) ?_
  rw [tget_tmod_self]
  exact setWidth_setWidth_eq_and w 16

/-- The registers of a course's block (16 R358; 19 R425). -/
theorem State.stores_course {k : Nat} (hk : k < 64) (hup : s.dieUp (p * 16 + 2 + k / 8) = true) :
    let w := BitVec.ofNat 64 v
    let b := 0x04000000 + 0x100 * k
    s.Leaves p v b (BitVec.ofNat 64 (Nat.max 1 (Nat.min (v % 128) 122) + Nat.min (v / 256 % 4096) 2048 * 256) ||| (w &&& 0x300000)) ∧
    s.Leaves p v (b + 0x18) (BitVec.ofNat 64 (Nat.min 2300 (Nat.max 1900 (v % 4096)))) := by
  intro w b
  have reg := fun r (hr : r < 0x100 ∧ r % 8 = 0) (f : Course → Course) (g : Course → Word) y =>
    State.leaves_course (v := v) (o := b + r) (x := y) hs hp hk hup f g rfl hr
  have hv : w.toNat % 4096 = v % 4096 := by rw [BitVec.toNat_ofNat]; omega
  exact ⟨reg 0 (by decide) (fun y => { y with govNext := some w }) (·.ctlWord) _ (fun _ => rfl) (fun _ _ => rfl) (ctlWord_govNext _ v),
    reg 0x18 (by decide) (fun y => { y with boostNext := some (Nat.min 2300 (Nat.max 1900 (w.toNat % 4096))) })
      (fun y => BitVec.ofNat 64 (y.boostNext.getD y.boostMax)) _ (fun _ => rfl) (fun _ _ => rfl) (by rw [hv]; rfl)⟩

/-- The registers of an Ethernet port's block (20 R437, R439). -/
theorem State.stores_port {n : Nat} (hn : n < 4) (hup : s.dieUp (portDie p n) = true) :
    let w := BitVec.ofNat 64 v
    let b := 0x06000000 + 0x10000 * n
    s.Leaves p v b (w &&& 1) ∧ s.Leaves p v (b + 0x10) w ∧ (∀ k < 256, s.Leaves p v (b + 0x800 + 8 * k) (w &&& 0xFFFFFFFFF)) ∧
    ∀ k < 64, s.Leaves p v (b + 0x1000 + 0x20 * k) (w &&& 0x000FFFFFFFFFF000) ∧
      s.Leaves p v (b + 0x2018 + 0x20 * k) (w &&& 0xFFFFFFFF) := by
  intro w b
  have hen : (if w.getLsbD 0 = true then 1 else 0) = w &&& 1 := by
    refine Eq.trans ?_ (and_lowMask w 1).symm
    have h := ite_getLsbD w 0
    rw [Nat.pow_zero, Nat.div_one] at h
    rw [Nat.pow_one, ← h]
    split <;> rfl
  refine ⟨State.leaves_port hs hp hn hup (r := 0) (fun q => { q with en := w.getLsbD 0 }) (fun q => if q.en then 1 else 0) rfl (by decide)
      (fun _ => rfl) (fun _ => rfl) hen,
    State.leaves_port hs hp hn hup (r := 0x10) (fun q => { q with irqMask := w }) (·.irqMask) rfl (by decide)
      (fun _ => rfl) (fun _ => rfl) rfl,
    fun k hk => ?_, fun k hk => ⟨?_, ?_⟩⟩
  · refine State.leaves_port hs hp hn hup _ _ (Nat.add_assoc _ _ _) (by omega) (fun q => q.write_cls w hk) (fun q => q.read_cls hk) ?_
    simp [word_ofWord, w]
  · refine State.leaves_port hs hp hn hup _ _ (Nat.add_assoc _ _ _) (by omega) (fun q => q.write_rx (r := 0) w hk (by decide))
      (fun q => q.read_rx (r := 0) hk (by decide)) ?_
    rw [tget_tmod_self]
    exact ringRead_base _ _ _
  · refine State.leaves_port hs hp hn hup _ _ (r := 0x2000 + 0x20 * k + 0x18) (by omega) (by omega) (fun q => q.write_tx w hk (by decide))
      (fun q => q.read_tx hk (by decide)) ?_
    rw [tget_tmod_self]
    exact ringRead_tail _ _ _
end

/-! ## Records of the directory -/

/-- Every record of a sector: the home's and the guests'. -/
def dirKeys (sec : Nat) : List Nat := sec :: (List.range 16).map (guestKey · sec)

theorem tget_putDir_ne (m : List (Nat × Dir)) {k a : Nat} (x : Dir) (h : a ≠ k) : tget (putDir m k x) a = tget m a := by
  unfold putDir
  split
  · exact tget_tdel_ne m h
  · exact tget_tset_ne m x h

theorem getD_tget_putDir_self (m : List (Nat × Dir)) (k : Nat) (x : Dir) : (tget (putDir m k x) k).getD Dir.none = x := by
  unfold putDir
  split
  next h => rw [tget_tdel_self, h]; rfl
  · rw [tget_tset_self]; rfl

theorem mem_putDir {m : List (Nat × Dir)} {k : Nat} {x : Dir} {r : Nat × Dir} (h : r ∈ putDir m k x) : r = (k, x) ∨ r ∈ m := by
  unfold putDir at h
  split at h
  · rw [tdel_eq_filter] at h
    exact .inr (List.mem_of_mem_filter h)
  · exact tset_mem m k x r h

theorem mem_of_tget {α : Type} {m : List (Nat × α)} {k : Nat} {x : α} (h : tget m k = some x) : (k, x) ∈ m := by
  induction m with
  | nil => cases h
  | cons c t ih =>
    obtain ⟨j, y⟩ := c
    by_cases hj : j = k
    · subst hj
      simp only [tget, if_true, Option.some.injEq] at h
      subst h
      exact List.mem_cons_self
    · simp only [tget, if_neg hj] at h
      exact List.mem_cons_of_mem _ (ih h)

/-- No partial of an update-only sector is outstanding. -/
def NoPartial (m : List (Nat × Dir)) : Prop := ∀ r ∈ m, r.2.uop = none

/-- A sector is not held in P by the record at a key. -/
def Free (m : List (Nat × Dir)) (k : Nat) : Prop := ((tget m k).getD Dir.none).st ≠ .p

theorem noPartial_putDir {m : List (Nat × Dir)} (h : NoPartial m) (k : Nat) {x : Dir} (hx : x.uop = none) : NoPartial (putDir m k x) := by
  intro r hr
  rcases mem_putDir hr with rfl | hr
  · exact hx
  · exact h r hr

theorem free_putDir {m : List (Nat × Dir)} {k a : Nat} {x : Dir} (hx : x.st ≠ .p) (h : Free m a ∨ a = k) : Free (putDir m k x) a := by
  unfold Free at *
  by_cases ha : a = k
  · subst ha; rwa [getD_tget_putDir_self]
  · rw [tget_putDir_ne m x ha]
    exact h.resolve_right ha

theorem guestDir_uop {d old : Dir} {cs : List (Nat × Copy)} {p : Nat} (h : d.uop = none) : (guestDir d old cs p).uop = none := by
  unfold guestDir
  dsimp only
  split_ifs <;> simp [Dir.none, h]

theorem dirState_ne_p (cs : List (Nat × Copy)) : dirState cs ≠ .p := by
  unfold dirState
  split_ifs <;> decide

theorem guestDir_st {d old : Dir} {cs : List (Nat × Copy)} {p : Nat} (h : d.st ≠ .p) : (guestDir d old cs p).st ≠ .p := by
  have hs := dirState_ne_p cs
  unfold guestDir
  dsimp only
  split_ifs <;> simp_all [Dir.none]

section
variable (sec : Nat) (g : List (Nat × Dir) → Nat → Dir)

theorem noPartial_guests (hg : ∀ m p, (g m p).uop = none) (ps : List Nat) : ∀ m, NoPartial m →
    NoPartial (ps.foldl (fun m p => putDir m (guestKey p sec) (g m p)) m) := by
  induction ps with
  | nil => exact fun _ h => h
  | cons p t ih => exact fun m h => ih _ (noPartial_putDir h _ (hg m p))

theorem free_guests (hg : ∀ m p, (g m p).st ≠ .p) (a : Nat) (ps : List Nat) : ∀ m, (Free m a ∨ ∃ p ∈ ps, a = guestKey p sec) →
    Free (ps.foldl (fun m p => putDir m (guestKey p sec) (g m p)) m) a := by
  induction ps with
  | nil => rintro m (h | ⟨p, hp, _⟩); exacts [h, nomatch hp]
  | cons p t ih =>
    refine fun m h => ih _ ?_
    rcases h with h | ⟨q, hq, rfl⟩
    · exact .inl (free_putDir (hg m p) (.inl h))
    · rcases List.mem_cons.1 hq with rfl | hq
      · exact .inl (free_putDir (hg m q) (.inr rfl))
      · exact .inr ⟨q, hq, rfl⟩

theorem tget_guests (a : Nat) (ps : List Nat) : ∀ m, (∀ p ∈ ps, a ≠ guestKey p sec) →
    tget (ps.foldl (fun m p => putDir m (guestKey p sec) (g m p)) m) a = tget m a := by
  induction ps with
  | nil => exact fun _ _ => rfl
  | cons p t ih =>
    exact fun m h => (ih _ fun q hq => h q (List.mem_cons_of_mem p hq)).trans (tget_putDir_ne m _ (h p List.mem_cons_self))

end

theorem State.setHome_noPartial {s : State} (h : NoPartial s.dir) (sec : Nat) {d : Dir} (hd : d.uop = none) :
    NoPartial (s.setHome sec d).dir :=
  noPartial_guests sec _ (fun _ _ => guestDir_uop hd) _ _ (noPartial_putDir h sec hd)

theorem State.setHome_free {s : State} {sec a : Nat} {d : Dir} (hd : d.st ≠ .p) (h : Free s.dir a ∨ a ∈ dirKeys sec) :
    Free (s.setHome sec d).dir a := by
  refine free_guests sec _ (fun _ _ => guestDir_st hd) a _ _ ?_
  rcases h with h | h
  · exact .inl (free_putDir hd (.inl h))
  · rcases List.mem_cons.1 h with h | h
    · exact .inl (free_putDir hd (.inr h))
    · obtain ⟨p, hp, rfl⟩ := List.mem_map.1 h
      exact .inr ⟨p, hp, rfl⟩

theorem State.setHome_frame (s : State) {sec a : Nat} (d : Dir) (h : a ∉ dirKeys sec) : tget (s.setHome sec d).dir a = tget s.dir a := by
  rw [dirKeys, List.mem_cons, not_or] at h
  have hg : ∀ p ∈ List.range 16, a ≠ guestKey p sec := fun p hp e => h.2 (List.mem_map.2 ⟨p, hp, e.symm⟩)
  unfold State.setHome
  dsimp only
  rw [tget_guests sec _ a _ _ hg, tget_putDir_ne _ _ h.1]

/-! ## Work at homes that meets no partial and no soft error (05 R104 to R106) -/

/-- No soft error stands unmet and no partial is outstanding. -/
structure State.Steady (s : State) : Prop where
  soft : s.soft = []
  whole : NoPartial s.dir

/-- Memory keeps its bytes, and the dies and poisoned sectors stay as they are. -/
structure State.Quiet (s s' : State) : Prop where
  mem : s'.mem = s.mem
  poison : s'.poison = s.poison
  dies : s'.dies = s.dies
  steady : s'.Steady

/-- What is done for one sector leaves the records of others. -/
structure State.QuietAt (sec : Nat) (s s' : State) : Prop extends State.Quiet s s' where
  frame : ∀ a, a ∉ dirKeys sec → tget s'.dir a = tget s.dir a

/-- No record that is free comes to be held in P. -/
structure State.Settles (s s' : State) : Prop extends State.Quiet s s' where
  free : ∀ a, Free s.dir a → Free s'.dir a

theorem State.Quiet.trans {a b c : State} (h : a.Quiet b) (k : b.Quiet c) : a.Quiet c :=
  ⟨k.mem.trans h.mem, k.poison.trans h.poison, k.dies.trans h.dies, k.steady⟩

theorem State.QuietAt.trans {sec : Nat} {a b c : State} (h : a.QuietAt sec b) (k : b.QuietAt sec c) : a.QuietAt sec c :=
  ⟨h.toQuiet.trans k.toQuiet, fun i hi => (k.frame i hi).trans (h.frame i hi)⟩

theorem State.Settles.trans {a b c : State} (h : a.Settles b) (k : b.Settles c) : a.Settles c :=
  ⟨h.toQuiet.trans k.toQuiet, fun i hi => k.free i (h.free i hi)⟩

theorem State.QuietAt.refl {s : State} (hs : s.Steady) (sec : Nat) : s.QuietAt sec s := ⟨⟨rfl, rfl, rfl, hs⟩, fun _ _ => rfl⟩

theorem State.Settles.refl {s : State} (hs : s.Steady) : s.Settles s := ⟨⟨rfl, rfl, rfl, hs⟩, fun _ => id⟩

theorem State.QuietAt.foldl {α : Type} {sec : Nat} {f : State → α → State}
    (hf : ∀ (s : State) (x : α), s.Steady → s.QuietAt sec (f s x))
    (l : List α) : ∀ s : State, s.Steady → s.QuietAt sec (l.foldl f s) := by
  induction l with
  | nil => exact fun s hs => .refl hs sec
  | cons x t ih => exact fun s hs => (hf s x hs).trans (ih _ (hf s x hs).steady)

theorem State.Settles.foldl {α : Type} {f : State → α → State} (hf : ∀ (s : State) (x : α), s.Steady → s.Settles (f s x))
    (l : List α) : ∀ s : State, s.Steady → s.Settles (l.foldl f s) := by
  induction l with
  | nil => exact fun s hs => .refl hs
  | cons x t ih => exact fun s hs => (hf s x hs).trans (ih _ (hf s x hs).steady)

/-- Work that touches no record of the directory. -/
theorem State.QuietAt.settles {sec : Nat} {s s' : State} (h : s.QuietAt sec s') (hd : s'.dir = s.dir) : s.Settles s' :=
  ⟨h.toQuiet, fun a ha => by rwa [hd]⟩

theorem State.quietAt_dropCopy {s : State} (hs : s.Steady) (sec ag x : Nat) : s.QuietAt sec (s.dropCopy ag x) :=
  ⟨⟨rfl, rfl, rfl, hs.1, hs.2⟩, fun _ _ => rfl⟩

theorem State.quietAt_setHome {s : State} (hs : s.Steady) (sec : Nat) {d : Dir} (hd : d.uop = none) : s.QuietAt sec (s.setHome sec d) :=
  ⟨⟨rfl, rfl, rfl, hs.1, State.setHome_noPartial hs.2 sec hd⟩, fun _ ha => s.setHome_frame d ha⟩

theorem State.settles_setHome {s : State} (hs : s.Steady) (sec : Nat) {d : Dir} (hd : d.uop = none) (hp : d.st ≠ .p) :
    s.Settles (s.setHome sec d) :=
  ⟨(s.quietAt_setHome hs sec hd).toQuiet, fun _ ha => State.setHome_free hp (.inl ha)⟩

theorem State.quietAt_withSlabs {s : State} (hs : s.Steady) (sec : Nat) (b : List (Nat × SlabLine)) :
    s.QuietAt sec { s with slabs := b } :=
  ⟨⟨rfl, rfl, rfl, hs.1, hs.2⟩, fun _ _ => rfl⟩

theorem State.quietAt_homeDirty {s : State} (hs : s.Steady) (sec x : Nat) (old : BitVec 512) : s.QuietAt sec (s.homeDirty x old) := by
  unfold State.homeDirty
  dsimp only
  split
  · split
    · exact .refl hs sec
    · exact s.quietAt_withSlabs hs sec _
  · exact .refl hs sec

theorem State.homeDirty_dir (s : State) (x : Nat) (old : BitVec 512) : (s.homeDirty x old).dir = s.dir := by
  unfold State.homeDirty
  dsimp only
  split
  · split <;> rfl
  · rfl

theorem State.quietAt_dropReplica {s : State} (hs : s.Steady) (sec p x : Nat) : s.QuietAt sec (s.dropReplica p x) := by
  unfold State.dropReplica
  split
  · split
    · exact ⟨⟨rfl, rfl, rfl, by simp [hs.soft], hs.whole⟩, fun _ _ => rfl⟩
    · exact .refl hs sec
  · exact .refl hs sec

theorem State.dropReplica_dir (s : State) (p x : Nat) : (s.dropReplica p x).dir = s.dir := by
  unfold State.dropReplica
  split
  · split <;> rfl
  · rfl

theorem State.quietAt_purgePkg {s : State} (hs : s.Steady) (sec x p : Nat) : s.QuietAt sec (s.purgePkg x p) := by
  have h1 := State.QuietAt.foldl (fun (s : State) (c : Nat × Copy) hs => s.quietAt_dropCopy hs sec (keyAgent c.1) x)
    (s.copies.filter fun c => keySec c.1 == x && c.2.st == .r && keyAgent c.1 / 512 == p) s hs
  have h2 := h1.trans (State.quietAt_dropReplica h1.steady sec p x)
  exact ⟨⟨h2.mem, h2.poison, h2.dies, h2.steady.soft, h2.steady.whole⟩, h2.frame⟩

theorem State.foldl_dir {α : Type} {f : State → α → State} (hf : ∀ (s : State) (x : α), (f s x).dir = s.dir) (l : List α) :
    ∀ s : State, (l.foldl f s).dir = s.dir := by
  induction l with
  | nil => exact fun _ => rfl
  | cons x t ih => exact fun s => (ih _).trans (hf s x)

theorem State.purgePkg_dir (s : State) (x p : Nat) : (s.purgePkg x p).dir = s.dir := by
  unfold State.purgePkg
  dsimp only
  rw [State.dropReplica_dir]
  refine State.foldl_dir (fun t c => ?_) _ s
  rfl

theorem State.dirOf_uop {s : State} (hs : s.Steady) (sec : Nat) : (s.dirOf sec).uop = none := by
  unfold State.dirOf
  cases h : tget s.dir sec with
  | none => rfl
  | some d => exact hs.whole _ (mem_of_tget h)

/-- The packages that a purge names lose their untracked copies first; then the home's record changes. -/
theorem State.purgeIn_eq (s : State) (sec : Nat) (p : Nat → Bool) : ∃ (s1 : State) (b : BitVec 16),
    s1 = (List.range 16).foldl (fun s i => if p i then s.purgePkg sec i else s) s ∧
    s.purgeIn sec p = s1.setHome sec { s1.dirOf sec with pkgs := b } := ⟨_, _, rfl, rfl⟩

theorem State.quietAt_purges {s : State} (hs : s.Steady) (sec : Nat) (p : Nat → Bool) (l : List Nat) :
    s.QuietAt sec (l.foldl (fun s i => if p i then s.purgePkg sec i else s) s) := by
  refine State.QuietAt.foldl (fun s i hs => ?_) l s hs
  split
  · exact s.quietAt_purgePkg hs sec sec i
  · exact .refl hs sec

theorem State.purges_dir (s : State) (sec : Nat) (p : Nat → Bool) (l : List Nat) :
    (l.foldl (fun s i => if p i then s.purgePkg sec i else s) s).dir = s.dir := by
  refine State.foldl_dir (fun s i => ?_) l s
  split
  · exact s.purgePkg_dir sec i
  · rfl

theorem State.quietAt_purgeIn {s : State} (hs : s.Steady) (sec : Nat) (p : Nat → Bool) : s.QuietAt sec (s.purgeIn sec p) := by
  obtain ⟨s1, b, h1, h2⟩ := s.purgeIn_eq sec p
  have hq : s.QuietAt sec s1 := h1 ▸ s.quietAt_purges hs sec p _
  rw [h2]
  exact hq.trans (s1.quietAt_setHome hq.steady sec (State.dirOf_uop hq.steady sec))

theorem State.settles_purgeIn {s : State} (hs : s.Steady) {sec : Nat} (hf : Free s.dir sec) (p : Nat → Bool) :
    s.Settles (s.purgeIn sec p) := by
  obtain ⟨s1, b, h1, h2⟩ := s.purgeIn_eq sec p
  have hd : s1.dir = s.dir := h1 ▸ s.purges_dir sec p _
  have hq : s.Settles s1 := (show s.QuietAt sec s1 from h1 ▸ s.quietAt_purges hs sec p _).settles hd
  rw [h2]
  exact hq.trans (s1.settles_setHome hq.steady sec (State.dirOf_uop hq.steady sec) (hq.free sec hf))

theorem State.quietAt_purgeWrite {s : State} (hs : s.Steady) (sec : Nat) : s.QuietAt sec (s.purgeWrite sec) := by
  unfold State.purgeWrite
  dsimp only
  split
  · exact .refl hs sec
  · exact s.quietAt_purgeIn hs sec _

theorem State.settles_purgeWrite {s : State} (hs : s.Steady) {sec : Nat} (hf : Free s.dir sec) : s.Settles (s.purgeWrite sec) := by
  unfold State.purgeWrite
  dsimp only
  split
  · exact .refl hs
  · exact s.settles_purgeIn hs hf _

theorem State.quietAt_giveBack {s : State} (hs : s.Steady) (sec : Nat) : s.QuietAt sec (s.giveBack sec) := by
  unfold State.giveBack
  split
  next c _ =>
    have h := s.quietAt_homeDirty hs sec sec c.2.data
    exact h.trans (State.quietAt_purgeWrite h.steady sec)
  · exact .refl hs sec

theorem State.combine_steady {s : State} (hs : s.Steady) (sec : Nat) : s.combine sec = s := by
  unfold State.combine
  rw [State.dirOf_uop hs sec]

/-- A recall leaves each record of its sector free. -/
theorem State.settles_recall {s : State} (hs : s.Steady) (sec : Nat) : s.Settles (s.recall sec) := by
  have h1 := s.quietAt_giveBack hs sec
  have h2 := h1.trans (State.QuietAt.foldl (fun (t : State) (c : Nat × Copy) ht => t.quietAt_dropCopy ht sec (keyAgent c.1) sec)
    ((s.giveBack sec).tracked sec) _ h1.steady)
  unfold State.recall
  rw [State.combine_steady hs]
  dsimp only
  generalize ((s.giveBack sec).tracked sec).foldl _ (s.giveBack sec) = s2 at h2
  refine ⟨(h2.trans (s2.quietAt_setHome h2.steady sec rfl)).toQuiet, fun a ha => State.setHome_free (by simp) ?_⟩
  by_cases hk : a ∈ dirKeys sec
  · exact .inr hk
  · refine .inl ?_
    unfold Free
    rwa [h2.frame a hk]

theorem State.meetSoft_steady {s : State} (hs : s.Steady) (k : Nat) : s.meetSoft k = s := by
  unfold State.meetSoft
  rw [hs.soft]
  rfl

theorem State.settles_withSlabs {s : State} (hs : s.Steady) (b : List (Nat × SlabLine)) : s.Settles { s with slabs := b } :=
  (s.quietAt_withSlabs hs 0 b).settles rfl

theorem State.settles_evictLine {s : State} (hs : s.Steady) (k : Nat) : s.Settles (s.evictLine k) := by
  unfold State.evictLine
  split
  next l _ =>
    have h1 : s.Settles (if l.replica then s else (List.range 4).foldl (fun (s : State) i => s.recall (k % 2 ^ 52 + 64 * i)) s) := by
      split
      · exact .refl hs
      · exact State.Settles.foldl (fun s i hs => s.settles_recall hs _) _ s hs
    dsimp only
    generalize (if l.replica then s else (List.range 4).foldl (fun (s : State) i => s.recall (k % 2 ^ 52 + 64 * i)) s) = s1 at h1
    rw [if_pos (show s1.soft.isEmpty = true by rw [h1.steady.soft]; rfl)]
    exact h1.trans (s1.settles_withSlabs h1.steady _)
  · exact .refl hs

theorem State.settles_slabMake {s : State} (hs : s.Steady) (k : Nat) : s.Settles (s.slabMake k) := by
  unfold State.slabMake
  split
  · exact .refl hs
  · dsimp only
    split
    · exact s.settles_evictLine hs _
    · exact .refl hs

theorem State.settles_atSlab {s : State} (hs : s.Steady) (pa : Nat) : s.Settles (s.atSlab pa) := by
  have h1 : s.Settles (if (tget s.slabs (slabKey (slabOf pa) pa)).isSome = true then s else
      { s.slabMake (slabKey (slabOf pa) pa) with
        slabs := tset (s.slabMake (slabKey (slabOf pa) pa)).slabs (slabKey (slabOf pa) pa) ⟨false, 0, 0⟩ }) := by
    split
    · exact .refl hs
    · exact (s.settles_slabMake hs _).trans (State.settles_withSlabs (s.settles_slabMake hs _).steady _)
  unfold State.atSlab
  dsimp only
  rw [if_pos (by rw [h1.steady.soft]; rfl)]
  exact h1

/-! ## A device's access to memory that answers -/

/-- An address that is forwarded nowhere, answers, and is in no sector held in P. -/
structure State.Plain (s : State) (pkg a : Nat) : Prop where
  here : s.fwd a = a
  answers : s.memCode pkg a false = none
  free : Free s.dir (secOf a)

/-- What an address draws depends on packages, units, poison and the late thread alone. -/
theorem State.memCode_congr {s s' : State} (hp : s'.pkgs = s.pkgs) (hu : s'.units = s.units) (hx : s'.poison = s.poison)
    (hl : s'.late = s.late) (hc : s'.cur = s.cur) (pkg a : Nat) (full : Bool) : s'.memCode pkg a full = s.memCode pkg a full := by
  unfold State.memCode State.present State.reaches State.routeMask State.lateTo State.homeGone State.gone State.service State.pkg
  rw [hp, hu, hx, hl, hc]

theorem State.fwd_congr {s s' : State} (hp : s'.pkgs = s.pkgs) (a : Nat) : s'.fwd a = s.fwd a := by
  unfold State.fwd State.fwdOne State.pkg
  rw [hp]

theorem State.Plain.mono {s s' : State} {pkg a : Nat} (h : s.Plain pkg a) (hm : s.Mem s') (hx : s'.poison = s.poison)
    (hf : Free s.dir (secOf a) → Free s'.dir (secOf a)) : s'.Plain pkg a := by
  have hs := hm.same
  have hp : s'.pkgs = s.pkgs := by rw [hs]
  refine ⟨(State.fwd_congr hp a).trans h.here, ?_, hf h.free⟩
  rw [State.memCode_congr hp (by rw [hs]) hx (by rw [hs]) (by rw [hs])]
  exact h.answers

/-- An address that answers is not poisoned (05 R101). -/
theorem State.poison_of_memCode {s : State} {pkg a : Nat} (h : s.memCode pkg a false = none) : s.poison.contains (secOf a) = false := by
  rw [← Bool.not_eq_true]
  intro hc
  unfold State.memCode at h
  rw [hc] at h
  split at h
  next => cases h
  next =>
    split at h
    next => cases h
    next =>
      split at h
      next => cases h
      next => cases h
      next =>
        split at h
        · cases h
        · exact nomatch h

/-- A request at a home that answers, in a steady state, is granted. -/
theorem State.ask_plain {s : State} (hs : s.Steady) {ag a : Nat} (h : s.Plain (ag / 512) a) :
    s.ask .coh ag a false = (s.atSlab a, none) := by
  have hq := s.settles_atSlab hs a
  have hpo : (s.atSlab a).poison.contains (secOf a) = false := by rw [hq.poison]; exact State.poison_of_memCode h.answers
  have hfree : (s.atSlab a).privOther .coh ag (secOf a) = false := beq_false_of_ne (hq.free _ h.free)
  unfold State.ask State.reach
  rw [h.answers]
  simp only [Bool.not_false, Bool.true_and, hpo, hfree, Bool.false_eq_true, if_false]

theorem State.homeLoad_plain {s : State} (hs : s.Steady) {ag a : Nat} (n : Nat) (h : s.Plain (ag / 512) a) :
    s.homeLoad ag a n = (s.atSlab a, .ok (s.mem.readN a n)) := by
  have hq := s.settles_atSlab hs a
  unfold State.homeLoad
  rw [h.here]
  dsimp only
  rw [s.ask_plain hs h]
  simp only [State.combine_steady hq.steady, hq.mem]

/-- A device's write of less than a sector: every copy is recalled, and the bytes change (05 R114). -/
theorem State.homeStore_plain {s : State} (hs : s.Steady) {ag a : Nat} (n v : Nat) (hn : n ≠ 64) (h : s.Plain (ag / 512) a) :
    ∃ t, s.Settles t ∧ s.homeStore ag a n v = (t.setMem ag a n v 0, none) := by
  have h1 := s.settles_atSlab hs a
  have h2 := h1.trans (State.settles_recall h1.steady (secOf a))
  have h3 := h2.trans (State.settles_purgeWrite h2.steady (h2.free _ h.free))
  have h4 := h3.trans ((State.quietAt_homeDirty h3.steady 0 (secOf a)
    ((((s.atSlab a).recall (secOf a)).purgeWrite (secOf a)).sector (secOf a))).settles (State.homeDirty_dir _ _ _))
  refine ⟨_, h4, ?_⟩
  unfold State.homeStore
  rw [h.here, beq_false_of_ne hn]
  dsimp only
  rw [s.ask_plain hs h]
  rfl

/-- What a device's write leaves: the bytes, the poison of other sectors, and a steady state. -/
structure State.Written (s s' : State) (a n v : Nat) : Prop where
  mem : s'.mem = s.mem.writeN a n v
  poison : s'.poison = s.poison
  steady : s'.Steady
  free : ∀ k, Free s.dir k → Free s'.dir k

theorem State.dieAgent_pkg (d : Nat) : dieAgent d / 512 = d / 16 := by
  unfold dieAgent pkgOfDie dieId
  omega

theorem State.dieLoad_plain {s : State} (hs : s.Steady) {d a : Nat} (n : Nat) (h : s.Plain (d / 16) a) :
    s.dieLoad d a n = (s.atSlab a, some (s.mem.readN a n)) := by
  rw [← State.dieAgent_pkg d] at h
  unfold State.dieLoad
  rw [s.homeLoad_plain hs n h]

theorem State.dieStore_plain {s : State} (hs : s.Steady) {d a : Nat} (n v : Nat) (hn : n ≠ 64) (h : s.Plain (d / 16) a) :
    s.Mem (s.dieStore d a n v) ∧ s.Written (s.dieStore d a n v) a n v := by
  rw [← State.dieAgent_pkg d] at h
  have hm := s.mem_homeStore (dieAgent d) a n v
  obtain ⟨t, ht, he⟩ := s.homeStore_plain hs n v hn h
  have hd : s.dieStore d a n v = t.setMem (dieAgent d) a n v 0 := by
    unfold State.dieStore
    rw [he]
    rfl
  rw [hd]
  rw [he] at hm
  refine ⟨hm, ?_, ?_, ⟨ht.steady.soft, ht.steady.whole⟩, ht.free⟩
  · change t.mem.writeN a n v = _
    rw [ht.mem]
  · change (if n = 64 then t.poison.erase (secOf a) else t.poison) = _
    rw [if_neg hn, ht.poison]

/-! ## The identifier window (15 R342) -/

/-- The window's entry of an ASID: sixteen bytes at one place of memory that answers. -/
structure State.WindowPlain (s : State) (d a : Nat) : Prop where
  steady : s.Steady
  base : s.Plain (d / 16) a
  remain : s.Plain (d / 16) (a + 8)

theorem State.idwReplace_off {s : State} {d : Nat} (h : (s.die d).idwEn = false) : s.idwReplace d = s := by
  simp [State.idwReplace, h]

/-- The window is replaced: BASE, REMAIN, and no other byte. -/
theorem State.idwReplace_on {s : State} {d : Nat} (hen : (s.die d).idwEn = true)
    (h : s.WindowPlain d ((s.die d).idwEntry (s.die d).idwAsid)) :
    (s.idwReplace d).mem = (s.mem.writeN ((s.die d).idwEntry (s.die d).idwAsid) 8 (s.die d).idwBase.toNat).writeN
      ((s.die d).idwEntry (s.die d).idwAsid + 8) 8 ((s.die d).idwRemain.toNat % 2 ^ 32) := by
  unfold State.idwReplace State.writeWindow
  dsimp only
  rw [if_pos hen]
  obtain ⟨hm, hw⟩ := s.dieStore_plain h.steady 8 (s.die d).idwBase.toNat (by decide) h.base
  have h8 := h.remain.mono hm hw.poison (hw.free _)
  obtain ⟨_, hw2⟩ := State.dieStore_plain hw.steady 8 ((s.die d).idwRemain.toNat % 2 ^ 32) (by decide) h8
  rw [hw2.mem, hw.mem]

theorem State.idwRead_off {s : State} {d : Nat} (h : (s.die d).idwEn = false) :
    s.idwRead d = s.updDie d fun x => { x with idwBase := 0, idwRemain := 0 } := by
  simp [State.idwRead, State.readWindow, h]

/-- The window is copied into IDW_BASE and IDW_REMAIN. -/
theorem State.idwRead_on {s : State} {d : Nat} (hen : (s.die d).idwEn = true)
    (h : s.WindowPlain d ((s.die d).idwEntry (s.die d).idwAsid)) :
    (s.idwRead d).mem = s.mem ∧ (s.idwRead d).die d = { s.die d with
      idwBase := BitVec.ofNat 64 (s.mem.readN ((s.die d).idwEntry (s.die d).idwAsid) 8)
      idwRemain := BitVec.ofNat 32 (s.mem.readN ((s.die d).idwEntry (s.die d).idwAsid + 8) 4) } := by
  generalize ha : (s.die d).idwEntry (s.die d).idwAsid = a at h ⊢
  have hq := s.settles_atSlab h.steady a
  have h8 := h.remain.mono (s.mem_atSlab a) hq.poison (hq.free _)
  have hq2 := hq.trans (State.settles_atSlab hq.steady (a + 8))
  have hw : s.readWindow d (s.die d).idwAsid =
      ((s.atSlab a).atSlab (a + 8), BitVec.ofNat 64 (s.mem.readN a 8), s.mem.readN (a + 8) 4) := by
    unfold State.readWindow
    rw [hen, ha]
    simp [s.dieLoad_plain h.steady 8 h.base, State.dieLoad_plain hq.steady 4 h8, hq.mem]
  have hdie : ((s.atSlab a).atSlab (a + 8)).die d = s.die d := by
    unfold State.die
    rw [hq2.dies]
  unfold State.idwRead
  rw [hw]
  refine ⟨hq2.mem, ?_⟩
  dsimp only
  rw [State.die_updDie, hdie]

/-! ## Writes with an effect of their own -/

/-- The end of an instruction ends its thread's wait. -/
theorem Thread.loopEnd0_wait (u : Thread) (a : Word) : (u.loopEnd0 a).wait = u.wait := by
  simp only [Thread.loopEnd0]
  split <;> rfl

theorem Thread.loopEnd1_wait (u : Thread) (a : Word) : (u.loopEnd1 a).wait = u.wait := by
  simp only [Thread.loopEnd1]
  split
  · rfl
  · split
    · exact Thread.loopEnd0_wait _ a
    · rfl

theorem Thread.complete_wait (t : Thread) (n : Nat) : (t.complete n).wait = none := by
  simp only [Thread.complete]
  split
  · rfl
  · split
    · exact Thread.loopEnd1_wait _ _
    · split
      · exact Thread.loopEnd0_wait _ _
      · rfl

/-- Only one die changes, into `y`. -/
def State.OnlyDie (s s' : State) (d : Nat) (y : Die) : Prop :=
  s'.die d = y ∧ s'.mem = s.mem ∧ s'.threads = s.threads ∧ ∀ e, e ≠ d → s'.die e = s.die e

theorem State.onlyDie_updDie {s : State} {d : Nat} {y : Die} (f : Die → Die) (h : f (s.die d) = y) : s.OnlyDie (s.updDie d f) d y :=
  ⟨(s.die_updDie d f).trans h, rfl, rfl, fun _ he => s.die_updDie_ne f he⟩

/-- FILL of a written MIG_PROF is the next multiple of 4 of what is in range (15 R343). -/
theorem fill_ofWord (w : Word) :
    (Profile.ofWord w).fill % 4 = 0 ∧ 4 ≤ (Profile.ofWord w).fill ∧ (Profile.ofWord w).fill ≤ 64 ∧
    (4 ≤ w.toNat % 128 → w.toNat % 128 ≤ 64 →
      w.toNat % 128 ≤ (Profile.ofWord w).fill ∧ (Profile.ofWord w).fill < w.toNat % 128 + 4) := by
  have h1 : Nat.min 64 (Nat.max 4 (w.toNat % 128)) = min 64 (max 4 (w.toNat % 128)) := rfl
  change (Nat.min 64 (Nat.max 4 (w.toNat % 128)) + 3) / 4 * 4 % 4 = 0 ∧ 4 ≤ (Nat.min 64 (Nat.max 4 (w.toNat % 128)) + 3) / 4 * 4 ∧
    (Nat.min 64 (Nat.max 4 (w.toNat % 128)) + 3) / 4 * 4 ≤ 64 ∧ (4 ≤ w.toNat % 128 → w.toNat % 128 ≤ 64 →
      w.toNat % 128 ≤ (Nat.min 64 (Nat.max 4 (w.toNat % 128)) + 3) / 4 * 4 ∧
      (Nat.min 64 (Nat.max 4 (w.toNat % 128)) + 3) / 4 * 4 < w.toNat % 128 + 4)
  rw [h1]
  omega

/-- Source 0 pends once TIME has reached TIMECMP (18 R410). -/
theorem State.irqPend_time {s : State} {key : Nat} (h : (s.ctx key).timecmp.toNat ≤ (s.timeOf (key / 256)).toNat) :
    (s.irqPend key).getLsbD 0 = true := by
  have hule : (s.ctx key).timecmp.ule (s.timeOf (key / 256)) = true := by simpa [BitVec.ule] using h
  simp only [State.irqPend, BitVec.getLsbD_or, hule]
  rfl

/-- A thread on a context wakes once its source 0 pends and is enabled (18 R409). -/
theorem State.wakes_time {s : State} {t : Thread} {key : Nat} (hp : t.place = .ctx (key / 256) (key % 256))
    (h : (s.ctx key).timecmp.toNat ≤ (s.timeOf (key / 256)).toNat) (hen : (s.ctx key).irqEn.getLsbD 0 = true) : s.wakes t = true := by
  have hl : t.onL = true := by simp [Thread.onL, hp]
  have hk : t.ctxKey = key := by simp only [Thread.ctxKey, hp]; omega
  have h0 : (s.ctx key).irqEn ≠ 0 := fun e => by rw [e] at hen; cases hen
  unfold State.wakes State.irqSource
  rw [if_pos hl, hk, if_neg h0]
  dsimp only
  rw [List.find?_isSome]
  exact ⟨0, by decide, by rw [BitVec.getLsbD_and, State.irqPend_time h, hen]; rfl⟩

/-- What TIME reaching a context's TIMECMP does (18 R409, R410). -/
theorem State.timecmpReached_late {s : State} {k : Nat}
    (h : s.present (k / 256) = true ∧ (s.ctx k).timecmp.toNat ≤ (s.timeOf (k / 256)).toNat) :
    exec (.timecmpReached k) s = .next ((s.ctx k).thread.elim s fun m =>
      if (s.thr m).wait == some .wfi && s.wakes (s.thr m) then s.updThr m (·.complete 4) else s) := by
  have hult : (s.timeOf (k / 256)).ult (s.ctx k).timecmp = false := by simpa [BitVec.ult] using h.2
  change Host.Outcome.next _ = _
  dsimp only
  rw [h.1, hult]
  cases (s.ctx k).thread <;> rfl

theorem State.timecmpReached_early {s : State} {k : Nat}
    (h : ¬(s.present (k / 256) = true ∧ (s.ctx k).timecmp.toNat ≤ (s.timeOf (k / 256)).toNat)) :
    exec (.timecmpReached k) s = .next s := by
  have hc : (!s.present (k / 256) || (s.timeOf (k / 256)).ult (s.ctx k).timecmp) = true := by
    cases hp : s.present (k / 256)
    · rfl
    · simpa [hp, BitVec.ult] using h
  change Host.Outcome.next _ = _
  dsimp only
  rw [hc]
  rfl

/-- The window's sixteen bytes after its replacement, and no other byte changed. -/
theorem State.idwReplace_window {s : State} {d : Nat} (hen : (s.die d).idwEn = true)
    (h : s.WindowPlain d ((s.die d).idwEntry (s.die d).idwAsid)) :
    let a := (s.die d).idwEntry (s.die d).idwAsid
    (s.idwReplace d).mem.readN a 8 = (s.die d).idwBase.toNat ∧ (s.idwReplace d).mem.readN (a + 8) 8 = (s.die d).idwRemain.toNat ∧
      ∀ y, (y < a ∨ a + 16 ≤ y) → (s.idwReplace d).mem.read y = s.mem.read y := by
  intro a
  have hb := (s.die d).idwBase.isLt
  have hr := (s.die d).idwRemain.isLt
  have hm : (s.idwReplace d).mem = (s.mem.writeN a 8 (s.die d).idwBase.toNat).writeN (a + 8) 8 ((s.die d).idwRemain.toNat % 2 ^ 32) :=
    State.idwReplace_on hen h
  rw [hm]
  refine ⟨?_, ?_, fun y hy => ?_⟩
  · rw [Store.readN_writeN_out _ _ _ _ _ _ (by omega), Store.readN_writeN]
    omega
  · rw [Store.readN_writeN]
    omega
  · rw [Store.read_writeN_out _ _ _ _ _ (by omega), Store.read_writeN_out _ _ _ _ _ (by omega)]

theorem State.windowPlain_of {s : State} {d a : Nat} (hs : s.soft = [] ∧ ∀ r ∈ s.dir, r.2.uop = none)
    (h : ∀ j < 16, s.fwd (a + j) = a + j ∧ s.memCode (d / 16) (a + j) false = none ∧ (s.dirOf (secOf (a + j))).st ≠ .p) :
    s.WindowPlain d a := by
  have hp : ∀ j < 16, s.Plain (d / 16) (a + j) := fun j hj => ⟨(h j hj).1, (h j hj).2.1, (h j hj).2.2⟩
  exact ⟨⟨hs.1, hs.2⟩, hp 0 (by decide), hp 8 (by decide)⟩

/-- IDW_TABLE while EN is 0: a table outside present memory leaves EN at 0 (15 R342). -/
theorem State.idwTableWrite_off {s : State} {d : Nat} (w : Word) (h : (s.die d).idwEn = false) :
    let t := w.toNat % 2 ^ 52 / 2 ^ 20 * 2 ^ 20
    s.OnlyDie (s.idwTableWrite d w) d
      { s.die d with idwTable := t, idwEn := w.getLsbD 0 && isMem t && s.present (t / 2 ^ 48) } := by
  intro t
  have ht : paPkg t = t / 2 ^ 48 := by unfold paPkg; omega
  refine State.onlyDie_updDie _ ((if_neg (by simp [h])).trans ?_)
  rw [← ht]

/-- The ring that a number of RING_CTL_WRITE names, of a port whose die answers or does not (20 R439). -/
theorem State.ringCtlWrite_down {s : State} {p n i v : Nat} (hi : i / 128 % 4 = n) (h : s.dieUp (portDie p n) = false) :
    exec (.ringCtlWrite p i v) s = .next s := by
  change Host.Outcome.next _ = _
  rw [hi, h]
  rfl

theorem State.ringCtlWrite_up {s : State} {p n i v : Nat} (hi : i / 128 % 4 = n) (h : s.dieUp (portDie p n) = true) :
    exec (.ringCtlWrite p i v) s = .next (s.updPort p n fun q =>
      if i % 128 < 64 then { q with rx := tmod q.rx (i % 128) Ring.init fun y => setPortCtl y (BitVec.ofNat 64 v) }
      else { q with tx := tmod q.tx (i % 128 - 64) Ring.init fun y => setPortCtl y (BitVec.ofNat 64 v) }) := by
  change Host.Outcome.next _ = _
  rw [hi, h]
  rfl

theorem State.ringCtlWrite_rx {s : State} {p n r v : Nat} (hn : n < 4) (hr : r < 64) (h : s.dieUp (portDie p n) = true) :
    Answers s (.ringCtlWrite p (n * 128 + 0 + r) v) fun s' => (s'.mem = s.mem ∧ s'.threads = s.threads ∧ s'.dies = s.dies) ∧
      (tget (s'.port p n).rx r).getD Ring.init = setPortCtl ((tget (s.port p n).rx r).getD Ring.init) (BitVec.ofNat 64 v) := by
  refine ⟨_, State.ringCtlWrite_up (by omega) h, ⟨rfl, rfl, rfl⟩, ?_⟩
  have hm : (n * 128 + 0 + r) % 128 = r := by omega
  rw [State.port_updPort, hm, if_pos hr, tget_tmod_self]

theorem State.ringCtlWrite_tx {s : State} {p n r v : Nat} (hn : n < 4) (hr : r < 64) (h : s.dieUp (portDie p n) = true) :
    Answers s (.ringCtlWrite p (n * 128 + 64 + r) v) fun s' => (s'.mem = s.mem ∧ s'.threads = s.threads ∧ s'.dies = s.dies) ∧
      (tget (s'.port p n).tx r).getD Ring.init = setPortCtl ((tget (s.port p n).tx r).getD Ring.init) (BitVec.ofNat 64 v) := by
  refine ⟨_, State.ringCtlWrite_up (by omega) h, ⟨rfl, rfl, rfl⟩, ?_⟩
  have hm : (n * 128 + 64 + r) % 128 = 64 + r := by omega
  rw [State.port_updPort, hm, if_neg (by omega), Nat.add_sub_cancel_left, tget_tmod_self]

theorem State.ctrlSet_zero (s : State) (p : Nat) (w : Word) : s.ctrlSet p 0 w = (s.ctrlGet p 0).map fun _ => s := by
  simp [State.ctrlSet]

/-- Offset 0 holds the stepping, which no store changes. -/
theorem State.exec_ctrlSet_zero {s : State} {p : Nat} (hs : s.present p = true) (hp : p < 16) (v : Nat) :
    exec (.controlRegisterWrite (p * 2 ^ 48 + 0xFF * 2 ^ 40 + 0) 8 v) s = .next s := by
  have h := atCtrl_of_lt (o := 0) hp (by decide)
  cases hget : s.ctrlGet p 0 with
  | none => exact exec_ctrlSet_none h hs rfl (State.ctrlSet_none _ hget)
  | some x =>
    refine exec_ctrlSet h hs rfl ((State.ctrlSet_zero s p _).trans ?_)
    rw [hget, Option.map_some]

/-- BOOST_MAX is brought into 1,900 to 2,300 (19 R425). -/
theorem boost_range (n : Nat) : 1900 ≤ Nat.min 2300 (Nat.max 1900 n) ∧ Nat.min 2300 (Nat.max 1900 n) ≤ 2300 ∧
    (1900 ≤ n → n ≤ 2300 → Nat.min 2300 (Nat.max 1900 n) = n) := by
  have h : Nat.min 2300 (Nat.max 1900 n) = min 2300 (max 1900 n) := rfl
  rw [h]
  omega

/-- TIME at a context's TIMECMP ends its thread's `wfi`, where source 0 is enabled, and changes nothing else (18 R409, R410). -/
theorem State.timecmpReached_answers {s : State} {k : Nat}
    (h : s.present (k / 256) = true ∧ (s.ctx k).timecmp.toNat ≤ (s.timeOf (k / 256)).toNat) :
    Answers s (.timecmpReached k) fun s' => s'.pkgs = s.pkgs ∧ s'.mem = s.mem ∧ ((s.ctx k).thread = none → s'.threads = s.threads) ∧
      ∀ m t, (s.ctx k).thread = some m → tget s.threads m = some t → t.place = .ctx (k / 256) (k % 256) →
        (t.wait ≠ some .wfi → s'.thr m = t) ∧
        (t.wait = some .wfi → (s.ctx k).irqEn.getLsbD 0 = true →
          MovesOn t (s'.thr m) 4 ∧ KeepsRegs t (s'.thr m) [] ∧ (s'.thr m).wait = none) := by
  refine ⟨_, State.timecmpReached_late h, ?_⟩
  cases hc : (s.ctx k).thread with
  | none => exact ⟨rfl, rfl, fun _ => rfl, fun _ _ e => nomatch e⟩
  | some m =>
    rw [Option.elim_some]
    refine ⟨by split <;> rfl, by split <;> rfl, (fun e => nomatch e), fun m' t hm' ht hp => ?_⟩
    cases hm'
    have hm : s.thr m = t := State.thr_here ht
    refine ⟨fun hw => ?_, fun hw hen => ?_⟩
    · rw [hm, beq_false_of_ne hw]
      exact hm
    · rw [hm, hw, State.wakes_time hp h.2 hen, beq_self_eq_true, Bool.and_self, if_pos rfl, State.thr_updThr, hm]
      have hdone := t.over_complete 4
      exact ⟨hdone.moves, fun e _ he => hdone.get e he, t.complete_wait 4⟩

/-- Settles O60: a store finds its block, whose registers are written and read back field by field; then the writes
with an effect of their own. -/
theorem controlRegisterWrites : Obligations.ControlRegisterWrites := by
  refine ⟨fun s p v hs hp => ?_, fun s d v => ?_, fun s p k n r v => ?_⟩
  · intro w store reads ring
    refine ⟨fun c hc hup => ?_, fun d hd hup => ?_, fun k hk hup => ?_, fun n hn hup => State.stores_port hs hp hn hup, fun hup => ?_, ?_,
      fun o n _ h4 h8 => exec_ctrlStore_size s _ v h4 h8, fun o ho h8 hget => ?_⟩
    · obtain ⟨irqEn, hold, timecmp, tid, launch, tok, pend, set, clr⟩ := State.stores_ctx (v := v) hs hp hc hup
      exact ⟨irqEn, hold, timecmp, tid, launch, tok, pend, set, clr, State.store_irqEn_high hs hp hc hup v,
        State.store_irqEn_low hs hp hc hup v⟩
    · obtain ⟨tail, bkt, thr, asid, base, remain, head, table⟩ := State.stores_die (v := v) hs hp hd hup
      have keeps := fun r (hr : r < 0x100000 ∧ r % 8 = 0) (h : s.dieWrite (p * 16 + d) r w = some s) =>
        exec_ctrlSet (atCtrl_of_lt (o := 0x05000000 + 0x100000 * d + r) hp (by omega)) hs (by omega)
          ((State.ctrlSet_die hd hr.1 hup w).trans h)
      refine ⟨tail, bkt, thr, asid, base, remain, keeps 0 (by decide) rfl, keeps 0x10 (by decide) rfl, head, table, ?_, fun h2 => ?_,
        fun h2 => State.stores_sDie hs hp hd h2 hup⟩
      · exact State.leaves_ring hs hp hd hup 0x80000 8 20 Die.exq (fun q x => { x with exq := q }) (by decide) (fun _ _ => rfl)
          (fun r hr => State.dieWrite_exq w hr) (fun r hr t => State.dieRead_exq hr)
      · have hl : isSDie (p * 16 + d) = false := by rw [isSDie_at p hd, decide_eq_false (by omega)]
        exact State.leaves_ring hs hp hd hup 0x90000 4 16 Die.arq (fun q x => { x with arq := q }) (by decide) (fun _ _ => rfl)
          (fun r hr => State.dieWrite_arq w hl hr) (fun r hr t => State.dieRead_arq hl hr)
    · obtain ⟨ctl, boost⟩ := State.stores_course (v := v) hs hp hk hup
      refine ⟨ctl, boost, ?_, ?_⟩
      · exact exec_ctrlSet (atCtrl_of_lt hp (by omega)) hs (by omega) ((State.ctrlSet_course (r := 8) hk (by decide) hup w).trans rfl)
      · exact exec_ctrlSet_none (atCtrl_of_lt hp (by omega)) hs (by omega)
          ((State.ctrlSet_course (r := 0x10) hk (by decide) hup w).trans rfl)
    · exact State.leaves_freq hs hp hup
    · exact State.exec_ctrlSet_zero hs hp v
    · exact exec_ctrlSet_none (atCtrl_of_lt hp ho) hs h8 (State.ctrlSet_none w hget)
  · intro w x a steady plain only
    have window : steady → a % 16 = 0 → (∀ j < 16, plain (a + j)) → s.WindowPlain d a := fun h _ hj =>
      State.windowPlain_of h hj
    refine ⟨fun h => ?_, fun h hs h16 hj => ?_, fun h => ?_, fun h hs h16 hj => ?_, fun h => ?_, fun h => ?_, fun h => ?_,
      fun h => ?_, ?_, fun h => ?_, fun h => ?_⟩
    · exact congrArg Host.Outcome.next (State.idwReplace_off h)
    · exact ⟨_, rfl, s.idwReplace_window h (window hs h16 hj)⟩
    · exact ⟨_, congrArg Host.Outcome.next (State.idwRead_off h), State.onlyDie_updDie _ rfl⟩
    · exact ⟨_, rfl, (State.idwRead_on h (window hs h16 hj)).symm⟩
    · exact ⟨_, rfl, State.onlyDie_updDie _ (if_pos h)⟩
    · exact ⟨_, rfl, State.idwTableWrite_off w h⟩
    · exact congrArg Host.Outcome.next (if_neg (by simp [h]))
    · obtain ⟨h4, hlo, hhi, hnear⟩ := fill_ofWord w
      exact ⟨_, congrArg Host.Outcome.next (if_pos h), _, State.onlyDie_updDie _ rfl, h4, hlo, hhi, hnear⟩
    · exact ⟨_, rfl, State.onlyDie_updDie _ rfl⟩
    · exact congrArg Host.Outcome.next (if_pos h)
    · exact ⟨_, congrArg Host.Outcome.next (if_neg (by simp [h])), State.onlyDie_updDie _ rfl⟩
  · intro w rest
    refine ⟨fun hn hr tx => ?_, ?_, ?_, ?_, ?_, fun h => ?_, fun h => ?_, ?_⟩
    · have hi : (n * 128 + (if tx then 64 else 0) + r) / 128 % 4 = n := by split <;> omega
      refine ⟨State.ringCtlWrite_down hi, fun h => ?_⟩
      cases tx
      · exact State.ringCtlWrite_rx hn hr h
      · exact State.ringCtlWrite_tx hn hr h
    · exact ⟨_, rfl, ⟨rfl, rfl, rfl⟩, fun j hj => s.ctx_updCtx_ne _ hj, s.ctx_updCtx _ _⟩
    · exact ⟨_, rfl, ⟨rfl, rfl, rfl⟩, fun j hj => s.ctx_updCtx_ne _ hj, s.ctx_updCtx _ _⟩
    · exact ⟨_, rfl, ⟨rfl, rfl, rfl⟩, fun j hj => s.course_updCourse_ne _ hj, s.course_updCourse _ _⟩
    · exact ⟨_, rfl, ⟨rfl, rfl, rfl⟩, fun j hj => s.course_updCourse_ne _ hj, _, s.course_updCourse _ _, boost_range _⟩
    · exact congrArg Host.Outcome.next (if_neg (by simp [h]))
    · refine ⟨_, congrArg Host.Outcome.next (if_pos h), ⟨rfl, rfl, rfl⟩, fun hw => ?_, fun hw => ?_⟩
      · exact (s.pkg_updPkg p _).trans (if_neg (Int.not_lt.2 hw))
      · refine (s.pkg_updPkg p _).trans ((if_pos hw).trans ?_)
        rw [show (-w.toInt).toNat = w.toInt.natAbs by omega]
    · exact ⟨State.timecmpReached_early, State.timecmpReached_answers⟩

end Sys2Proof.Machine

namespace Sys2Proof.Machine

/-! ## Homes and copies: what each part of the protocol leaves alone (05 R104, R111) -/

/-- In a table whose keys rise, an entry is what its key reads. -/
theorem tget_of_mem {α : Type} {m : List (Nat × α)} (hs : tsorted m = true) {c : Nat × α} (h : c ∈ m) : tget m c.1 = some c.2 := by
  rw [tsorted_iff] at hs
  induction m with
  | nil => cases h
  | cons x t ih =>
    obtain ⟨hx, ht⟩ := List.pairwise_cons.1 hs
    rcases List.mem_cons.1 h with rfl | h
    · exact if_pos rfl
    · exact (if_neg (Nat.ne_of_lt (hx c h))).trans (ih ht h)

/-- Two entries of one key are the same. -/
theorem eq_of_mem_of_key {α : Type} {m : List (Nat × α)} (hs : tsorted m = true) {c d : Nat × α} (hc : c ∈ m) (hd : d ∈ m)
    (h : c.1 = d.1) : c = d := by
  have hv := (tget_of_mem hs hc).symm.trans ((congrArg (tget m) h).trans (tget_of_mem hs hd))
  exact Prod.ext h (Option.some.inj hv)

theorem tsorted_filter {α : Type} {m : List (Nat × α)} (hs : tsorted m = true) (q : Nat × α → Bool) :
    tsorted (m.filter q) = true := by
  rw [tsorted_iff] at *
  exact hs.filter q

theorem tsorted_tset {α : Type} {m : List (Nat × α)} (hs : tsorted m = true) (k : Nat) (x : α) : tsorted (tset m k x) = true := by
  rw [tsorted_iff] at *
  exact tset_sorted m k x hs

/-- What some entries of a table read. -/
theorem tget_filter_sorted {α : Type} {m : List (Nat × α)} (hs : tsorted m = true) (q : Nat × α → Bool) (k : Nat) :
    tget (m.filter q) k = (tget m k).filter fun x => q (k, x) := by
  cases h : tget m k with
  | none =>
    cases h2 : tget (m.filter q) k with
    | none => rfl
    | some y =>
      have hy := tget_of_mem hs (List.mem_of_mem_filter (mem_of_tget h2))
      rw [h] at hy
      cases hy
  | some x =>
    cases hq : q (k, x) with
    | true => exact (tget_of_mem (tsorted_filter hs q) (List.mem_filter.2 ⟨mem_of_tget h, hq⟩)).trans (by rw [Option.filter_some, hq]; rfl)
    | false =>
      rw [Option.filter_some, hq]
      cases h2 : tget (m.filter q) k with
      | none => rfl
      | some y =>
        obtain ⟨hm, hy⟩ := List.mem_filter.1 (mem_of_tget h2)
        have hx := tget_of_mem hs hm
        rw [h] at hx
        cases hx
        rw [hq] at hy
        cases hy

/-! ### Keys of copies -/

theorem keySec_lt (k : Nat) : keySec k < 2 ^ 52 := Nat.mod_lt _ (by decide)

theorem copyKey_key (k : Nat) : copyKey (keyAgent k) (keySec k) = k := by
  unfold copyKey keyAgent keySec
  omega

theorem keySec_copyKey (ag : Nat) {sec : Nat} (h : sec < 2 ^ 52) : keySec (copyKey ag sec) = sec := by
  unfold keySec copyKey
  omega

theorem keyAgent_copyKey (ag : Nat) {sec : Nat} (h : sec < 2 ^ 52) : keyAgent (copyKey ag sec) = ag := by
  unfold keyAgent copyKey
  omega

theorem copyKey_inj {ag b sec : Nat} : copyKey ag sec = copyKey b sec ↔ ag = b := by
  unfold copyKey
  omega

theorem State.mem_tracked {s : State} {sec : Nat} {c : Nat × Copy} :
    c ∈ s.tracked sec ↔ c ∈ s.copies ∧ keySec c.1 = sec ∧ c.2.st ≠ .r := by
  simp [State.tracked, List.mem_filter]

/-! ### What a home's work leaves alone -/

/-- A sector's record that names no partial and no PRIV owner. -/
def Dir.Open (d : Dir) : Prop := d.uop = Option.none ∧ d.st ≠ .p

/-- Work for one sector at its home that combines nothing: memory, poisoned sectors, and records that are open, if the sector's own is. -/
structure State.Tends (sec : Nat) (s s' : State) : Prop where
  mem : s'.mem = s.mem
  poison : s'.poison = s.poison
  sound : s.soft = [] → s'.soft = []
  opened : (s.dirOf sec).Open → ∀ a, (s.dirOf a).Open → (s'.dirOf a).Open

theorem State.Tends.refl (s : State) (sec : Nat) : s.Tends sec s := ⟨rfl, rfl, id, fun _ _ => id⟩

theorem State.Tends.trans {sec : Nat} {a b c : State} (h : a.Tends sec b) (k : b.Tends sec c) : a.Tends sec c :=
  ⟨k.mem.trans h.mem, k.poison.trans h.poison, k.sound ∘ h.sound, fun ho x hx => k.opened (h.opened ho sec ho) x (h.opened ho x hx)⟩

theorem State.Tends.foldl {α : Type} {sec : Nat} {f : State → α → State} (hf : ∀ (s : State) (x : α), s.Tends sec (f s x))
    (l : List α) :
    ∀ s : State, s.Tends sec (l.foldl f s) := by
  induction l with
  | nil => exact fun s => .refl s sec
  | cons x t ih => exact fun s => (hf s x).trans (ih _)

theorem State.Tends.ite {sec : Nat} {s a b : State} {p : Prop} [Decidable p] (h : s.Tends sec a) (k : s.Tends sec b) :
    s.Tends sec (if p then a else b) := by
  split
  · exact h
  · exact k

/-- Work that leaves the directory alone. -/
theorem State.Tends.of_dir {sec : Nat} {s s' : State} (hm : s'.mem = s.mem) (hp : s'.poison = s.poison) (hs : s.soft = [] → s'.soft = [])
    (hd : s'.dir = s.dir) : s.Tends sec s' := by
  refine ⟨hm, hp, hs, fun _ a h => ?_⟩
  unfold State.dirOf at *
  rwa [hd]

theorem State.tends_dropCopy (s : State) (x ag sec : Nat) : s.Tends x (s.dropCopy ag sec) := .of_dir rfl rfl id rfl

theorem State.tends_drops (s : State) (x sec : Nat) (cs : List (Nat × Copy)) :
    s.Tends x (cs.foldl (fun s c => s.dropCopy (keyAgent c.1) sec) s) :=
  State.Tends.foldl (fun t (c : Nat × Copy) => t.tends_dropCopy x (keyAgent c.1) sec) cs s

theorem State.tends_setCopy (s : State) (x ag sec : Nat) (c : Copy) : s.Tends x (s.setCopy ag sec c) := .of_dir rfl rfl id rfl

theorem State.tends_homeDirty (s : State) (x sec : Nat) (old : BitVec 512) : s.Tends x (s.homeDirty sec old) := by
  unfold State.homeDirty
  dsimp only
  split
  · exact .ite (.refl s x) (.of_dir rfl rfl id rfl)
  · exact .refl s x

theorem State.tends_dropReplica (s : State) (x p sec : Nat) : s.Tends x (s.dropReplica p sec) := by
  unfold State.dropReplica
  split
  · exact .ite (.of_dir rfl rfl (fun h => by simp [h]) rfl) (.refl s x)
  · exact .refl s x

theorem open_putDir {m : List (Nat × Dir)} {k a : Nat} {x : Dir} (hx : x.Open) (h : ((tget m a).getD Dir.none).Open) :
    ((tget (putDir m k x) a).getD Dir.none).Open := by
  by_cases ha : a = k
  · subst ha
    rwa [getD_tget_putDir_self]
  · rwa [tget_putDir_ne m x ha]

theorem open_guests {sec a : Nat} {g : List (Nat × Dir) → Nat → Dir} (hg : ∀ m p, (g m p).Open) (ps : List Nat) :
    ∀ m, ((tget m a).getD Dir.none).Open →
      ((tget (ps.foldl (fun m p => putDir m (guestKey p sec) (g m p)) m) a).getD Dir.none).Open := by
  induction ps with
  | nil => exact fun _ h => h
  | cons p t ih => exact fun m h => ih _ (open_putDir (hg m p) h)

/-- An open record of a home leaves open the records that are. -/
theorem State.open_setHome {s : State} {sec a : Nat} {d : Dir} (hd : d.Open) (h : (s.dirOf a).Open) : ((s.setHome sec d).dirOf a).Open :=
  open_guests (fun _ _ => ⟨guestDir_uop hd.1, guestDir_st hd.2⟩) _ _ (open_putDir hd h)

/-- The home's own record is the one that is put. -/
theorem State.dirOf_setHome (s : State) (sec : Nat) (d : Dir) : (s.setHome sec d).dirOf sec = d := by
  have hk : ∀ p ∈ List.range 16, sec ≠ guestKey p sec := fun p _ => by
    unfold guestKey
    omega
  have h := tget_guests sec
    (fun m p => guestDir d ((tget m (guestKey p sec)).getD Dir.none)
      (((s.tracked sec).filter fun c => keyAgent c.1 / 512 != paPkg sec).filter fun c => keyAgent c.1 / 512 == p) p) sec
    (List.range 16) (putDir s.dir sec d) hk
  exact (congrArg (Option.getD · Dir.none) h).trans (getD_tget_putDir_self s.dir sec d)

theorem State.tends_setHome (s : State) (sec : Nat) {d : Dir} (hd : (s.dirOf sec).Open → d.Open) : s.Tends sec (s.setHome sec d) :=
  ⟨rfl, rfl, id, fun ho _ h => State.open_setHome (hd ho) h⟩

theorem State.tends_purgePkg (s : State) (x sec p : Nat) : s.Tends x (s.purgePkg sec p) := by
  have h := (s.tends_drops x sec (s.copies.filter fun c => keySec c.1 == sec && c.2.st == .r && keyAgent c.1 / 512 == p)).trans
    (State.tends_dropReplica _ x p sec)
  exact ⟨h.mem, h.poison, h.sound, h.opened⟩

theorem State.tends_purgeIn (s : State) (sec : Nat) (p : Nat → Bool) : s.Tends sec (s.purgeIn sec p) := by
  obtain ⟨s1, b, h1, h2⟩ := s.purgeIn_eq sec p
  have h : s.Tends sec s1 := h1 ▸ State.Tends.foldl (fun t i => .ite (t.tends_purgePkg sec sec i) (.refl t sec)) _ s
  rw [h2]
  exact h.trans (s1.tends_setHome sec fun ho => ho)

theorem State.tends_purgeWrite (s : State) (sec : Nat) : s.Tends sec (s.purgeWrite sec) := .ite (.refl s sec) (s.tends_purgeIn sec _)

theorem State.tends_giveBack (s : State) (sec : Nat) : s.Tends sec (s.giveBack sec) := by
  unfold State.giveBack
  split
  · exact (s.tends_homeDirty _ _ _).trans (State.tends_purgeWrite _ _)
  · exact .refl s sec

/-- Nothing is combined where no operation is granted (05 R106). -/
theorem State.combine_whole {s : State} {sec : Nat} (h : (s.dirOf sec).uop = none) : s.combine sec = s := by
  unfold State.combine
  rw [h]

/-! ### Copies -/

@[simp] theorem State.copies_homeDirty (s : State) (sec : Nat) (old : BitVec 512) : (s.homeDirty sec old).copies = s.copies := by
  unfold State.homeDirty
  dsimp only
  split
  · split <;> rfl
  · rfl

@[simp] theorem State.copies_dropReplica (s : State) (p sec : Nat) : (s.dropReplica p sec).copies = s.copies := by
  unfold State.dropReplica
  split
  · split <;> rfl
  · rfl

theorem State.holds_copies {s s' : State} (h : s'.copies = s.copies) (ag sec : Nat) : s'.holds ag sec = s.holds ag sec := by
  unfold State.holds State.copy
  rw [h]

@[simp] theorem State.holds_setHome (s : State) (x : Nat) (d : Dir) (ag sec : Nat) : (s.setHome x d).holds ag sec = s.holds ag sec := rfl

@[simp] theorem State.holds_setCopy (s : State) (ag sec : Nat) (c : Copy) : (s.setCopy ag sec c).holds ag sec = some c.st := by
  simp [State.holds, State.copy, State.setCopy]

theorem State.holds_setCopy_ne (s : State) {ag b sec : Nat} (c : Copy) (h : b ≠ ag) :
    (s.setCopy ag sec c).holds b sec = s.holds b sec := by
  unfold State.holds State.copy State.setCopy
  rw [tget_tset_ne _ _ fun e => h (copyKey_inj.1 e)]

@[simp] theorem State.holds_dropCopy (s : State) (ag sec : Nat) : (s.dropCopy ag sec).holds ag sec = none := by
  simp [State.holds, State.copy, State.dropCopy]

/-- Copies of a sector that are dropped one after the other: those of their keys go. -/
theorem State.copies_drops {sec : Nat} (cs : List (Nat × Copy)) : ∀ s : State, (∀ c ∈ cs, keySec c.1 = sec) →
    (cs.foldl (fun s c => s.dropCopy (keyAgent c.1) sec) s).copies = s.copies.filter fun x => !(cs.map Prod.fst).contains x.1 := by
  induction cs with
  | nil => exact fun s _ => (List.filter_eq_self.2 fun _ _ => rfl).symm
  | cons c t ih =>
    intro s h
    have hk : copyKey (keyAgent c.1) sec = c.1 := by rw [← h c List.mem_cons_self, copyKey_key]
    rw [List.foldl_cons, ih _ fun x hx => h x (List.mem_cons_of_mem c hx)]
    change List.filter _ (tdel s.copies (copyKey (keyAgent c.1) sec)) = _
    rw [hk, tdel_eq_filter, List.filter_filter]
    congr 1
    funext x
    by_cases hx : x.1 = c.1 <;> simp [hx, bne, Bool.and_comm]

/-- Dropping entries of the table takes away exactly them. -/
theorem State.copies_drop_filter {s : State} (hs : tsorted s.copies = true) {sec : Nat} {p : Nat × Copy → Bool}
    (hp : ∀ c, p c = true → keySec c.1 = sec) :
    ((s.copies.filter p).foldl (fun s c => s.dropCopy (keyAgent c.1) sec) s).copies = s.copies.filter fun x => !p x := by
  rw [State.copies_drops _ s fun c hc => hp c (List.mem_filter.1 hc).2]
  refine List.filter_congr fun x hx => congrArg not (Bool.eq_iff_iff.2 ?_)
  rw [List.contains_iff_mem, List.mem_map]
  constructor
  · rintro ⟨c, hc, he⟩
    obtain ⟨hm, hpc⟩ := List.mem_filter.1 hc
    rwa [← eq_of_mem_of_key hs hm hx he]
  · exact fun h => ⟨x, List.mem_filter.2 ⟨hx, h⟩, rfl⟩

/-- Of the copies, only untracked ones of one sector go. -/
def State.Thins (sec : Nat) (s s' : State) : Prop :=
  ∃ q : Nat × Copy → Bool, s'.copies = s.copies.filter q ∧ ∀ c, q c = false → keySec c.1 = sec ∧ c.2.st = .r

theorem State.Thins.of_eq {s s' : State} (sec : Nat) (h : s'.copies = s.copies) : s.Thins sec s' :=
  ⟨fun _ => true, h.trans (List.filter_eq_self.2 fun _ _ => rfl).symm, fun _ h => nomatch h⟩

theorem State.Thins.trans {sec : Nat} {a b c : State} (h : a.Thins sec b) (k : b.Thins sec c) : a.Thins sec c := by
  obtain ⟨q, hq, h⟩ := h
  obtain ⟨r, hr, k⟩ := k
  refine ⟨fun x => r x && q x, by rw [hr, hq, List.filter_filter], fun x hx => ?_⟩
  rcases Bool.and_eq_false_iff.1 hx with hx | hx
  · exact k x hx
  · exact h x hx

theorem State.Thins.sorted {sec : Nat} {s s' : State} (h : s.Thins sec s') (hs : tsorted s.copies = true) : tsorted s'.copies = true := by
  obtain ⟨q, hq, _⟩ := h
  rw [hq]
  exact tsorted_filter hs q

theorem State.Thins.foldl {α : Type} {sec : Nat} {f : State → α → State}
    (hf : ∀ (s : State) (x : α), tsorted s.copies = true → s.Thins sec (f s x)) (l : List α) :
    ∀ s : State, tsorted s.copies = true → s.Thins sec (l.foldl f s) := by
  induction l with
  | nil => exact fun s _ => .of_eq sec rfl
  | cons x t ih => exact fun s hs => (hf s x hs).trans (ih _ ((hf s x hs).sorted hs))

/-- A copy that is no untracked copy of the sector stays. -/
theorem State.Thins.keeps {sec : Nat} {s s' : State} (h : s.Thins sec s') (hs : tsorted s.copies = true) {k : Nat} {c : Copy}
    (hc : tget s.copies k = some c) (hk : keySec k ≠ sec ∨ c.st ≠ .r) : tget s'.copies k = some c := by
  obtain ⟨q, hq, hr⟩ := h
  have hqc : q (k, c) = true := by
    rw [← Bool.not_eq_false]
    exact fun hf => hk.elim (absurd (hr _ hf).1) (absurd (hr _ hf).2)
  rw [hq, tget_filter_sorted hs, hc, Option.filter_some, hqc]
  rfl

/-- No copy comes. -/
theorem State.Thins.none {sec : Nat} {s s' : State} (h : s.Thins sec s') (hs : tsorted s.copies = true) {k : Nat}
    (hc : tget s.copies k = none) : tget s'.copies k = none := by
  obtain ⟨q, hq, _⟩ := h
  rw [hq, tget_filter_sorted hs, hc]
  rfl

theorem State.thins_purgePkg {s : State} (hs : tsorted s.copies = true) (sec p : Nat) : s.Thins sec (s.purgePkg sec p) := by
  refine ⟨fun c => !(keySec c.1 == sec && c.2.st == .r && keyAgent c.1 / 512 == p), ?_, fun c hc => ?_⟩
  · refine (State.copies_dropReplica _ p sec).trans (State.copies_drop_filter hs fun c hc => ?_)
    simp only [Bool.and_eq_true, beq_iff_eq] at hc
    exact hc.1.1
  · simp only [Bool.not_eq_false', Bool.and_eq_true, beq_iff_eq] at hc
    exact hc.1

theorem State.thins_purgeIn {s : State} (hs : tsorted s.copies = true) (sec : Nat) (p : Nat → Bool) : s.Thins sec (s.purgeIn sec p) := by
  obtain ⟨s1, b, h1, h2⟩ := s.purgeIn_eq sec p
  have h : s.Thins sec s1 := by
    rw [h1]
    refine State.Thins.foldl (fun t i ht => ?_) _ s hs
    split
    · exact State.thins_purgePkg ht sec i
    · exact .of_eq sec rfl
  rw [h2]
  exact h.trans (.of_eq sec rfl)

theorem State.thins_purgeWrite {s : State} (hs : tsorted s.copies = true) (sec : Nat) : s.Thins sec (s.purgeWrite sec) := by
  unfold State.purgeWrite
  dsimp only
  split
  · exact .of_eq sec rfl
  · exact State.thins_purgeIn hs sec _

end Sys2Proof.Machine

namespace Sys2Proof.Machine

/-! ## The requests of the protocol (05 R104, R109) -/

/-- Once every tracked copy that a test names is dropped, those that are left are others. -/
theorem State.tracked_drops {s : State} {sec : Nat} {p : Nat × Copy → Bool} {c : Nat × Copy}
    (h : c ∈ (((s.tracked sec).filter p).foldl (fun s c => s.dropCopy (keyAgent c.1) sec) s).tracked sec) :
    c ∈ s.tracked sec ∧ p c = false := by
  rw [State.mem_tracked, State.copies_drops _ s fun c hc => (State.mem_tracked.1 (List.mem_of_mem_filter hc)).2.1] at h
  obtain ⟨hc, hk, hr⟩ := h
  obtain ⟨hm, hn⟩ := List.mem_filter.1 hc
  have ht : c ∈ s.tracked sec := State.mem_tracked.2 ⟨hm, hk, hr⟩
  refine ⟨ht, ?_⟩
  rw [← Bool.not_eq_true]
  intro hp
  have : c.1 ∈ ((s.tracked sec).filter p).map Prod.fst := List.mem_map.2 ⟨c, List.mem_filter.2 ⟨ht, hp⟩, rfl⟩
  rw [← List.contains_iff_mem] at this
  rw [this] at hn
  cases hn

/-- The copies of other agents go. -/
theorem State.foldl_dropOthers (l : List (Nat × Copy)) (s : State) (ag sec : Nat) :
    l.foldl (fun s c => if keyAgent c.1 = ag then s else s.dropCopy (keyAgent c.1) sec) s =
      (l.filter fun c => keyAgent c.1 != ag).foldl (fun s c => s.dropCopy (keyAgent c.1) sec) s := by
  rw [List.foldl_filter]
  congr 1
  funext s c
  by_cases h : keyAgent c.1 = ag <;> simp [h]

/-- GetX of an agent that has to ask the home: the others' copies go, and it has the sector in M. -/
theorem State.doGetX_asks {s : State} {ag sec : Nat} (hu : (s.dirOf sec).uop = none) (hm : s.holds ag sec ≠ some .m)
    (he : s.holds ag sec ≠ some .e) : ∃ (s1 : State) (d : BitVec 512), s1.mem = s.mem ∧ (∀ c ∈ s1.tracked sec, c.1 = copyKey ag sec) ∧
      s.doGetX ag sec = (s1.setCopy ag sec ⟨.m, d, 0⟩).setHome sec ⟨.ex, agNum sec ag, 0, 0, none⟩ := by
  have ht : s.Tends sec (if s.holds ag sec == some .o then s.purgeWrite sec else (s.purgeWrite sec).giveBack sec) :=
    .ite (s.tends_purgeWrite sec) ((s.tends_purgeWrite sec).trans (State.tends_giveBack _ sec))
  unfold State.doGetX
  split
  next h => exact absurd h hm
  next h => exact absurd h he
  · rw [State.combine_whole hu]
    dsimp only
    generalize (if s.holds ag sec == some .o then s.purgeWrite sec else (s.purgeWrite sec).giveBack sec) = s2 at ht
    rw [State.foldl_dropOthers]
    refine ⟨_, _, (s2.tends_drops sec sec _).mem.trans ht.mem, fun c hc => ?_, rfl⟩
    obtain ⟨hc, ha⟩ := State.tracked_drops hc
    have hk := (State.mem_tracked.1 hc).2.1
    rw [bne_eq_false_iff_eq] at ha
    rw [← copyKey_key c.1, ha, hk]

/-- A recall leaves no tracked copy (05 R104). -/
theorem State.recall_takes {s : State} {sec : Nat} (hu : (s.dirOf sec).uop = none) :
    (s.recall sec).tracked sec = [] ∧ (s.recall sec).mem = s.mem ∧ ((s.recall sec).dirOf sec).st = .i := by
  have ht := s.tends_giveBack sec
  unfold State.recall
  rw [State.combine_whole hu]
  dsimp only
  generalize s.giveBack sec = s1 at ht
  refine ⟨List.eq_nil_iff_forall_not_mem.2 fun c hc => ?_, ?_, by rw [State.dirOf_setHome]⟩
  · have hall : s1.tracked sec = (s1.tracked sec).filter fun _ => true := (List.filter_eq_self.2 fun _ _ => rfl).symm
    change c ∈ State.tracked (List.foldl _ s1 (s1.tracked sec)) sec at hc
    rw [hall] at hc
    exact nomatch (State.tracked_drops hc).2
  · exact (s1.tends_drops sec sec _).mem.trans ht.mem

/-- GetS where no agent has a tracked copy and the home is in I: E is granted. -/
theorem State.doGetS_first {s : State} {ag sec : Nat} (hu : (s.dirOf sec).uop = none) (hh : s.holds ag sec = none)
    (hd : (s.dirOf sec).st = .i) (ht : s.tracked sec = []) :
    s.doGetS ag sec = (s.setCopy ag sec ⟨.e, 0, 0⟩).setHome sec { s.dirOf sec with st := .ex, owner := agNum sec ag } := by
  have hp : s.probe sec = s := by simp [State.probe, ht]
  simp [State.doGetS, hh, State.combine_whole hu, hp, hd]

/-- A holder in M or E. -/
def CacheSt.sole : CacheSt → Bool
  | .m | .e => true
  | _ => false

theorem CacheSt.sole_eq (st : CacheSt) : (st == .m || st == .e) = st.sole := by cases st <;> rfl

/-- What an owner in M or E keeps when a shared read finds it (05 R104). -/
def CacheSt.shared : CacheSt → CacheSt
  | .m => .o
  | _ => .s

/-- A probe that finds an owner leaves it what it keeps. -/
theorem State.probe_owner {s : State} {sec : Nat} {c : Nat × Copy}
    (h : (s.tracked sec).find? (fun c => c.2.st.sole) = some c) :
    ∃ (x : Copy) (d : Dir), x.st = c.2.st.shared ∧ (d.st = .o ∨ d.st = .s) ∧
      s.probe sec = (s.setCopy (keyAgent c.1) sec x).setHome sec d := by
  have hs := List.find?_some h
  unfold State.probe
  simp only [CacheSt.sole_eq, h]
  split
  next hm => exact ⟨_, _, by rw [beq_iff_eq.1 hm]; rfl, .inl rfl, rfl⟩
  next hm =>
    have he : c.2.st = .e := by
      cases h : c.2.st <;> simp_all [CacheSt.sole]
    refine ⟨_, _, by rw [he]; rfl, .inr ?_, rfl⟩
    unfold Dir.share
    split <;> rfl

theorem State.probe_none {s : State} {sec : Nat} (h : (s.tracked sec).find? (fun c => c.2.st.sole) = none) : s.probe sec = s := by
  simp only [State.probe, CacheSt.sole_eq, h]

theorem State.tends_probe_mem (s : State) (sec : Nat) : (s.probe sec).mem = s.mem := by
  unfold State.probe
  split
  · dsimp only
    split <;> rfl
  · rfl

theorem State.mem_doGetS_eq {s : State} {ag sec : Nat} (hu : (s.dirOf sec).uop = none) : (s.doGetS ag sec).mem = s.mem := by
  unfold State.doGetS
  rw [State.combine_whole hu]
  split
  case h_5 =>
    dsimp only
    split <;> exact s.tends_probe_mem sec
  all_goals rfl

/-- GetS at a home in S, EX or O: S is granted beside what the probe leaves. -/
theorem State.doGetS_beside {s : State} {ag sec : Nat} (hu : (s.dirOf sec).uop = none) (hh : s.holds ag sec = none)
    (hd : ((s.probe sec).dirOf sec).st ≠ .i) :
    s.doGetS ag sec = ((s.probe sec).setCopy ag sec ⟨.s, 0, 0⟩).setHome sec (((s.probe sec).dirOf sec).share sec ag) := by
  unfold State.doGetS
  simp only [hh, State.combine_whole hu, beq_false_of_ne hd]
  rfl

/-- A probe of a home that is not in I leaves it so. -/
theorem State.probe_st {s : State} {sec : Nat} (h : (s.dirOf sec).st ≠ .i) : ((s.probe sec).dirOf sec).st ≠ .i := by
  cases hf : (s.tracked sec).find? (fun c => c.2.st.sole) with
  | none => rwa [State.probe_none hf]
  | some c =>
    obtain ⟨x, d, _, hd, hp⟩ := State.probe_owner hf
    rw [hp, State.dirOf_setHome]
    rcases hd with hd | hd <;> simp [hd]

/-- The only agent that can hold a sector in M or E keeps of it what a probe leaves. -/
theorem State.holds_probe {s : State} (hs : tsorted s.copies = true) {b sec : Nat} (hsec : sec < 2 ^ 52) {st : CacheSt}
    (hb : s.holds b sec = some st) (hst : st.sole = true)
    (only : ∀ c, c ≠ b → s.holds c sec ≠ some .m ∧ s.holds c sec ≠ some .e) : (s.probe sec).holds b sec = some st.shared := by
  obtain ⟨x, hx, rfl⟩ := Option.map_eq_some_iff.1 hb
  have hmem : (copyKey b sec, x) ∈ s.tracked sec :=
    State.mem_tracked.2 ⟨mem_of_tget hx, keySec_copyKey b hsec, fun h => absurd hst (by rw [show x.st = .r from h]; decide)⟩
  cases hf : (s.tracked sec).find? (fun c => c.2.st.sole) with
  | none => exact absurd hst (List.find?_eq_none.1 hf _ hmem)
  | some c =>
    obtain ⟨hc, hk, _⟩ := State.mem_tracked.1 (List.mem_of_find?_eq_some hf)
    have hkey : copyKey (keyAgent c.1) sec = c.1 := by rw [← hk, copyKey_key]
    have hheld : s.holds (keyAgent c.1) sec = some c.2.st := by
      unfold State.holds State.copy
      rw [hkey, tget_of_mem hs hc]
      rfl
    have hag : keyAgent c.1 = b := by
      by_contra hne
      have hsole : c.2.st.sole = true := by simpa using List.find?_some hf
      obtain ⟨h1, h2⟩ := only _ hne
      rw [hheld] at h1 h2
      cases hcs : c.2.st <;> simp_all [CacheSt.sole]
    obtain ⟨y, d, hy, _, hp⟩ := State.probe_owner hf
    rw [hag, hb] at hheld
    rw [hp, hag, State.holds_setHome, State.holds_setCopy, hy, ← Option.some.inj hheld]

/-! ### Copies given up -/

/-- PutM, PutO and PutE: the owner's copy goes, and memory stays (05 R104). -/
theorem State.putOwned_gives (s : State) (ag sec : Nat) : (s.putOwned ag sec).holds ag sec = none ∧ (s.putOwned ag sec).mem = s.mem := by
  have ht : ∀ c : Copy, s.Tends sec (if c.st == .m then (s.homeDirty sec c.data).purgeWrite sec else
      if c.st == .o then s.homeDirty sec c.data else s) := fun c =>
    .ite ((s.tends_homeDirty _ _ _).trans (State.tends_purgeWrite _ _)) (.ite (s.tends_homeDirty _ _ _) (.refl s sec))
  unfold State.putOwned
  refine ⟨by rw [State.holds_setHome, State.holds_dropCopy], ?_⟩
  split
  · exact (ht _).mem
  · rfl

/-- The report of a PRIV owner: its copy and the record of it go (05 R109). -/
theorem State.putPriv_gives {s : State} {ag sec : Nat} (h : s.ownsPriv ag sec = true) :
    (s.putPriv ag sec).holds ag sec = none ∧ (s.putPriv ag sec).mem = s.mem ∧ ((s.putPriv ag sec).dirOf sec).st = .i := by
  unfold State.putPriv
  rw [if_pos h]
  exact ⟨by rw [State.holds_setHome, State.holds_dropCopy], (s.tends_giveBack sec).mem, by rw [State.dirOf_setHome]⟩

/-! ### The requests as instructions -/

theorem State.cohRequest_may {s s1 : State} {ag pa : Nat} {r : Option Nat} (h : s.mayAsk ag = true)
    (ha : s.ask .coh ag (s.fwd pa) false = (s1, r)) (f : State → Nat → Nat → State) :
    s.cohRequest ag pa f = if r.isNone then f s1 ag (secOf (s.fwd pa)) else s1 := by
  unfold State.cohRequest
  rw [h, ha]
  cases r <;> rfl

theorem State.cohRequest_mayNot {s : State} {ag : Nat} (h : s.mayAsk ag = false) (pa : Nat) (f : State → Nat → Nat → State) :
    s.cohRequest ag pa f = s := by
  unfold State.cohRequest
  rw [h]
  rfl

/-- A request that is not made, or is refused, changes nothing more than its way to the home (05 R116). -/
theorem exec_cohRequest_refused {s s1 : State} {ag pa code : Nat} {i : Instr} (f : State → Nat → Nat → State)
    (hi : exec i s = .next (s.cohRequest ag pa f)) :
    (s.mayAsk ag = false → exec i s = .next s) ∧
    (s.mayAsk ag = true → s.ask .coh ag (s.fwd pa) false = (s1, some code) → exec i s = .next s1) := by
  refine ⟨fun h => ?_, fun h ha => ?_⟩
  · rw [hi, State.cohRequest_mayNot h]
  · rw [hi, State.cohRequest_may h ha]
    rfl

/-- An agent gives up a sector it has in the state named, unless it is a PRIV sector. -/
theorem State.putBack_eq {s : State} {ag pa : Nat} {st : CacheSt} (hp : (s.dirOf (secOf pa)).st ≠ .p) :
    s.putBack ag pa st = if s.holds ag (secOf pa) = some st then s.putOwned ag (secOf pa) else s := by
  have hb : ((s.dirOf (secOf pa)).st != .p) = true := bne_iff_ne.2 hp
  simp only [State.putBack, hb, Bool.and_true, beq_iff_eq]

/-- Settles O39: each request is what the home's work for it leaves. -/
theorem coherenceRequests : Obligations.CoherenceRequests := by
  refine ⟨fun s s1 ag pa code i hi => ?_, fun s s1 ag pa hmay hask => ?_, fun s ag pa => ?_⟩
  · simp only [List.mem_cons, List.not_mem_nil, or_false] at hi
    rcases hi with rfl | rfl | rfl | rfl | rfl <;> exact exec_cohRequest_refused _ rfl
  · intro sec hsec hsort hu
    have asked : ∀ f : State → Nat → Nat → State, s.cohRequest ag pa f = f s1 ag sec := State.cohRequest_may hmay hask
    refine ⟨fun i hi => ?_, ⟨fun st hst hh => ?_, fun hh => ⟨_, rfl, ?_⟩⟩, ⟨_, rfl, ?_⟩⟩
    · have hx : exec i s = .next (s1.doGetX ag sec) := by
        simp only [List.mem_cons, List.not_mem_nil, or_false] at hi
        rcases hi with rfl | rfl <;> exact congrArg Host.Outcome.next (asked _)
      refine ⟨fun h => ?_, fun h => ?_, fun hm he => ⟨_, hx, ?_⟩⟩
      · rw [hx, State.doGetX, h]
      · rw [hx, State.doGetX, h]
      · obtain ⟨s2, d, hmem, ht, heq⟩ := State.doGetX_asks hu hm he
        rw [heq]
        refine ⟨by rw [State.holds_setHome, State.holds_setCopy], fun c hc => ?_, hmem, by rw [State.dirOf_setHome]⟩
        obtain ⟨hc, hk, hr⟩ := State.mem_tracked.1 hc
        rcases tset_mem _ _ _ _ hc with rfl | hc
        · rfl
        · exact ht c (State.mem_tracked.2 ⟨hc, hk, hr⟩)
    · refine congrArg Host.Outcome.next ((asked _).trans ?_)
      simp only [List.mem_cons, List.not_mem_nil, or_false] at hst
      rcases hst with rfl | rfl | rfl | rfl <;> rw [State.doGetS, hh]
    · rw [asked]
      refine ⟨State.mem_doGetS_eq hu, fun hd ht => ?_, fun hd => ?_⟩
      · rw [State.doGetS_first hu hh hd ht]
        exact ⟨by rw [State.holds_setHome, State.holds_setCopy], by rw [State.dirOf_setHome]⟩
      · have hi : (s1.dirOf sec).st ≠ .i := fun h => by simp [h] at hd
        rw [State.doGetS_beside hu hh (State.probe_st hi)]
        refine ⟨by rw [State.holds_setHome, State.holds_setCopy], fun b hb only => ?_⟩
        rw [State.holds_setHome, State.holds_setCopy_ne _ _ hb]
        exact ⟨fun h => State.holds_probe hsort hsec h rfl only, fun h => State.holds_probe hsort hsec h rfl only⟩
    · rw [asked]
      exact State.recall_takes hu
  · intro sec _ _
    refine ⟨fun hp i st hi => ?_, fun h => ⟨_, rfl, ?_⟩, fun h => ⟨_, rfl, State.putPriv_gives h⟩, fun h => ?_⟩
    · have hx : exec i s = .next (s.putBack ag pa st) := by
        simp only [List.mem_cons, List.not_mem_nil, or_false, Prod.mk.injEq] at hi
        rcases hi with ⟨rfl, rfl⟩ | ⟨rfl, rfl⟩ | ⟨rfl, rfl⟩ <;> rfl
      rw [State.putBack_eq hp] at hx
      refine ⟨fun h => ⟨_, hx, ?_⟩, fun h => by rw [hx, if_neg h]⟩
      rw [if_pos h]
      exact s.putOwned_gives ag sec
    · have hb : (s.holds ag sec == some .s || s.holds ag sec == some .r) = true := by
        rcases h with h | h <;> simp [h]
      rw [if_pos hb]
      exact ⟨s.holds_dropCopy ag sec, rfl, rfl⟩
    · refine congrArg Host.Outcome.next ?_
      unfold State.putPriv
      rw [if_neg (by simp [show s.ownsPriv ag (secOf pa) = false from h])]

end Sys2Proof.Machine

namespace Sys2Proof.Machine

/-! ## A thread whose instruction completes with a result to come (02 R40, R41; 05 R125) -/

/-- A register that no result reaches keeps its value through the end of an instruction. -/
theorem Thread.get_complete_keeps (w : Thread) (n : Nat) (d : Dest) (h : ∀ p ∈ w.pend, p.dest = d → p.brings = none) :
    (w.complete n).get d = w.get d := by
  have hs : w.tick.settle.get d = w.tick.get d := by cases d <;> rfl
  have hp : ∀ a : Word, ({ w.tick.settle with pc := a } : Thread).get d = w.tick.settle.get d := fun a => by cases d <;> rfl
  rw [← w.get_tick_keeps d h, ← hs, Thread.complete]
  split
  · exact hp _
  · split
    · exact (w.tick.settle.loopEnd1_rest _).2.2.2.1 d
    · split
      · exact (w.tick.settle.loopEnd0_rest _).2.2.2.1 d
      · exact hp _

/-- A thread with another result on its way to a register. -/
def Thread.awaits (t : Thread) (q : Pend) : Thread := { t with pend := overtaken t.pend q.dest ++ [q] }

/-- An instruction that leaves a result on its way to a register: it has its old value, and the window begins. -/
theorem Thread.awaits_complete (t : Thread) (q : Pend) (n : Nat) (hq : q.brings = none) :
    let u := (t.awaits q).complete n
    u.rest = t.rest ∧ KeepsRegs t u [q.dest] ∧ MovesOn t u n ∧ u.p = t.p ∧ u.fflags = t.fflags ∧ u.get q.dest = t.get q.dest ∧
      { q with left := q.left - 1 } ∈ u.pend := by
  intro u
  have ho : (t.awaits q).Over u n := (t.awaits q).over_complete n
  have hb : ∀ p ∈ (t.awaits q).pend, p.dest = q.dest → p.brings = none := fun p hp hd => by
    rcases List.mem_append.1 hp with hp | hp
    · exact brings_overtaken hp hd
    · rwa [List.mem_singleton.1 hp]
  have hget : ∀ e, (t.awaits q).get e = t.get e := fun e => t.get_pend _ e
  refine ⟨ho.rest, fun e he hquiet => ?_, ho.moves, ho.p, ho.fflags, ?_, ?_⟩
  · refine (ho.get e fun p hp => ?_).trans (hget e)
    rcases List.mem_append.1 hp with hp | hp
    · exact hquiet p (List.mem_of_mem_filter hp)
    · rw [List.mem_singleton.1 hp]
      exact fun h => he (by simp [h])
  · exact (Thread.get_complete_keeps _ n q.dest hb).trans (hget q.dest)
  · rw [ho.pend]
    exact (t.awaits q).mem_tick q (List.mem_append_right _ List.mem_cons_self) hb

/-- An instruction that writes a register at once. -/
theorem Thread.put_complete (t : Thread) (d : Dest) (v : Word) (n : Nat) :
    let u := (t.put d v).complete n
    u.rest = t.rest ∧ KeepsRegs t u [d] ∧ MovesOn t u n ∧ u.p = t.p ∧ u.fflags = t.fflags ∧ u.get d = d.holds v := by
  intro u
  have ha := t.alike_put d v
  have ho : (t.put d v).Over u n := (t.put d v).over_complete n
  have hm := ho.moves
  refine ⟨ho.rest.trans ha.rest, fun e he hq => ?_, ?_, ho.p.trans ha.p, ho.fflags.trans ha.fflags, ?_⟩
  · rw [ho.get e (t.quiet_put_ne d v hq), t.get_put_ne v fun h => he (by simp [h])]
  · simp only [MovesOn, ha.pc, ha.mode, ha.lp0, ha.lp1] at hm ⊢
    exact hm
  · rw [ho.get d (t.quiet_put d v), t.get_put]

theorem toNat_pos {n : Nat} {x : BitVec n} (h : x ≠ 0) : 0 < x.toNat :=
  Nat.pos_of_ne_zero fun h0 => h (BitVec.eq_of_toNat_eq (by simp [h0]))

/-- A long-latency result whose value is known. -/
theorem Thread.lateEnd_post (t : Thread) (i : Instr) (d : Dest) (la : BitVec 4) (v : Word) :
    LateEnd t ((t.post d la v).complete (lenOf i)) i d la v := by
  by_cases h : t.locked = true ∨ la = 0 ∨ d = .x 0
  · have hp : t.post d la v = t.put d v := by
      rcases h with h | h | h <;> simp [Thread.post, h]
    obtain ⟨rest, regs, moves, hpp, hff, hget⟩ := t.put_complete d v (lenOf i)
    rw [hp]
    exact ⟨rest, regs, moves, hpp, hff, fun _ => hget, fun ⟨h1, h2, h3⟩ => by
      rcases h with h | h | h
      · rw [h1] at h
        cases h
      · exact absurd h h2
      · exact absurd h h3⟩
  · have hp : t.post d la v = t.awaits ⟨d, some v, la.toNat + 1, 0⟩ := by
      simp only [not_or, Bool.not_eq_true] at h
      obtain ⟨h1, h2, h3⟩ := h
      rw [Thread.post, h1, beq_false_of_ne h2, beq_false_of_ne h3]
      rfl
    have hla : 0 < la.toNat := toNat_pos fun h0 => h (.inr (.inl h0))
    obtain ⟨rest, regs, moves, hpp, hff, hget, hpend⟩ := t.awaits_complete ⟨d, some v, la.toNat + 1, 0⟩ (lenOf i)
      (if_neg (show ¬la.toNat + 1 ≤ 1 by omega))
    rw [hp]
    exact ⟨rest, regs, moves, hpp, hff, fun hn => absurd hn h, fun _ => ⟨hget, hpend⟩⟩

theorem State.finishLate_eq (s : State) (i : Instr) (d : Dest) (la : BitVec 4) (v : Word) :
    ∃ u, s.finishLate (lenOf i) d la v = s.setThr s.cur u ∧ LateEnd s.me u i d la v :=
  ⟨_, rfl, s.me.lateEnd_post i d la v⟩

/-! ## Walker commands as they are issued (05 R117 to R125; 04 R95) -/

theorem State.updMe_updMe (s : State) (f g : Thread → Thread) : (s.updMe f).updMe g = s.updMe fun t => g (f t) := by
  simp [State.updMe, State.updThr]

/-- The command that a thread's instruction becomes (05 R125). -/
def Thread.walkCmd (t : Thread) (id k : Nat) (op : WalkOp) : WalkCmd :=
  ⟨id, k, t.wg, t.die, op, t.asid, t.ptBase, t.mode, 0, none, false, 0, none⟩

/-- The state once a command is listed. -/
def State.listWalk (s : State) (op : WalkOp) : State :=
  { s with nextId := s.nextId + 1, walks := s.walks ++ [s.me.walkCmd s.nextId s.cur op] }

/-- A command is accepted: it is listed and counted, and its status is to come. -/
theorem State.acceptWalk_eq (s : State) (i : Instr) (d : BitVec 5) (la : BitVec 4) (op : WalkOp) : ∃ u : Thread,
    s.acceptWalk i d la op = (s.listWalk op).setThr s.cur u ∧
    u.ops = s.me.ops ++ [⟨.walker, s.nextId, false, none⟩] ∧
    (d = 0 ∨ ⟨.x d, none, if s.me.locked then 0 else la.toNat, s.nextId⟩ ∈ u.pend) ∧ KeepsRegs s.me u [.x d] ∧
    u.get (.x d) = s.me.get (.x d) ∧ MovesOn s.me u (lenOf i) := by
  refine ⟨((s.me.accept .walker s.nextId).expect (.x d) la s.nextId).complete (lenOf i),
    (s.listWalk op).updMe_updMe (fun t => (t.accept .walker s.nextId).expect (.x d) la s.nextId) (·.complete (lenOf i)), ?_⟩
  have hops : ∀ {t u : Thread}, u.rest = t.rest → u.ops = t.ops := fun h => (congrArg Thread.ops h :)
  by_cases hd : d = 0
  · subst hd
    have ho := (s.me.accept .walker s.nextId).over_complete (lenOf i)
    exact ⟨hops ho.rest, .inl rfl, fun e _ he => ho.get e he, rfl, ho.moves⟩
  · have hx : Dest.x d ≠ .x 0 := fun h => hd (Dest.x.inj h)
    generalize hl : (if s.me.locked then 1 else la.toNat + 1) = l
    have hexp : (s.me.accept .walker s.nextId).expect (.x d) la s.nextId =
        (s.me.accept .walker s.nextId).awaits ⟨.x d, none, l, s.nextId⟩ := by
      rw [Thread.expect, beq_false_of_ne hx, ← hl]
      rfl
    have hleft : l - 1 = if s.me.locked then 0 else la.toNat := by
      rw [← hl]
      split <;> rfl
    obtain ⟨rest, regs, moves, _, _, hget, hpend⟩ := (s.me.accept .walker s.nextId).awaits_complete ⟨.x d, none, l, s.nextId⟩
      (lenOf i) (by simp [Pend.brings])
    rw [hexp]
    rw [hleft] at hpend
    exact ⟨hops rest, .inr hpend, regs, hget, moves⟩

section
variable {s s0 : State} {t : Thread} {i : Instr} {d : BitVec 5} {la : BitVec 4}

/-- An instruction that writes its status at issue. -/
theorem refused_walk {v : Word} (h : tget s.threads s.cur = some t) (hx : exec i s = .next (s.finishLate (lenOf i) (.x d) la v)) :
    ∃ u, exec i s = .next (s.setThr s.cur u) ∧ LateEnd t u i (.x d) la v := by
  rw [← State.me_here h]
  obtain ⟨u, hu, he⟩ := s.finishLate_eq i (.x d) la v
  exact ⟨u, hx.trans (congrArg _ hu), he⟩

/-- An instruction that is accepted as a walker command, in a state that a check of it has left. -/
theorem accepted_walk {op : WalkOp} {p : State → Prop} (hx : exec i s = .next (s0.acceptWalk i d la op)) (hc : s0.cur = s.cur)
    (hw : s0.walks = s.walks) (h8 : lenOf i = 8) (hp : p (s0.listWalk op)) :
    ∃ (s1 : State) (u : Thread) (id : Nat), exec i s = .next (s1.setThr s.cur u) ∧ p s1 ∧
      s1.walks = s.walks ++ [s0.me.walkCmd id s.cur op] ∧ u.ops = s0.me.ops ++ [⟨.walker, id, false, none⟩] ∧
      (d = 0 ∨ ⟨.x d, none, if s0.me.locked then 0 else la.toNat, id⟩ ∈ u.pend) ∧ KeepsRegs s0.me u [.x d] ∧
      u.get (.x d) = s0.me.get (.x d) ∧ MovesOn s0.me u 8 := by
  obtain ⟨u, hu, hops, hpend, hregs, hget, hmoves⟩ := s0.acceptWalk_eq i d la op
  rw [hc] at hu
  rw [h8] at hmoves
  refine ⟨_, u, s0.nextId, hx.trans (congrArg _ hu), hp, ?_, hops, hpend, hregs, hget, hmoves⟩
  rw [← hw, ← hc]
  rfl

end

/-! ### Ranges of addresses -/

/-- A range with canonical addresses only (04 R73). -/
theorem canonicalRange_iff (va : Word) (n : Nat) : (canonical va = true ∧ canonicalRange va n = true) ↔
    -(2 ^ 55 : Int) ≤ va.toInt ∧ va.toInt < 2 ^ 55 ∧ va.toInt + n ≤ 2 ^ 55 := by
  have h := va.isLt
  have hi := va.toInt_eq_toNat_cond
  rw [canonical_iff, canonicalRange, decide_eq_true_eq]
  split at hi <;> omega

theorem lockSecs_one (a : Nat) : lockSecs [a] = [secOf a] := rfl

theorem mem_lockSecs {es : List Nat} {x : Nat} : x ∈ lockSecs es ↔ ∃ a ∈ es, secOf a = x := by
  simp [lockSecs]

theorem State.lockedAny_one (s : State) (a : Nat) : s.lockedAny [a] = true ↔ secOf a ∈ s.locks := by
  simp [State.lockedAny, lockSecs_one]

theorem State.mem_lock {s : State} {es : List Nat} {a : Nat} (h : a ∈ es) : secOf a ∈ (s.lock es).locks :=
  List.mem_append_right _ (mem_lockSecs.2 ⟨a, h, rfl⟩)

theorem State.foldl_mem {α : Type} {f : State → α → State} (hf : ∀ (s : State) (x : α), (f s x).mem = s.mem) (l : List α) :
    ∀ s : State, (l.foldl f s).mem = s.mem := by
  induction l with
  | nil => exact fun _ => rfl
  | cons x t ih => exact fun s => (ih _).trans (hf s x)

/-- A purge of a range moves no byte of memory (05 R111). -/
theorem State.purgeRange_mem (s : State) (pa len : Nat) : (s.purgeRange pa len).mem = s.mem :=
  State.foldl_mem (fun t x => (t.tends_purgeIn x fun _ => true).mem) _ s

theorem State.mem_purgeRange (s : State) (pa len : Nat) : s.Mem (s.purgeRange pa len) :=
  State.Mem.foldl _ (fun t x => t.mem_purgeIn x fun _ => true) _ s

end Sys2Proof.Machine

namespace Sys2Proof.Machine

section
variable {s : State} {t : Thread} {i : Instr} {d : BitVec 5} {la : BitVec 4}

theorem State.issueWalk_room {op : WalkOp} (h : s.walkRoom s.me = true) : s.issueWalk i d la op = s.acceptWalk i d la op := if_pos h

theorem State.issueWalk_full {op : WalkOp} (h : s.walkRoom s.me = false) : s.issueWalk i d la op = s.waitOn (.accept i) :=
  if_neg (by simp [h])

theorem State.check_ok (s k : State) (code : Nat) (v : Word) (h : s.me.mode = true) : s.check (!s.me.mode) code v k = k := by
  simp [State.check, h]

theorem State.check_fails (s k : State) (code : Nat) (v : Word) (h : s.me.mode = false) :
    s.check (!s.me.mode) code v k = s.trap code v := by
  simp [State.check, h]

theorem WG.barOffset_iff (g : WG) (b : Nat) : g.barOffset b = true ↔ b % 16 = 0 ∧ b + 16 ≤ g.spPages * 4096 := by
  rw [WG.barOffset, Bool.and_eq_true, beq_iff_eq, decide_eq_true_eq]
  rfl

end

section
variable {s : State} {i : Instr} {inval bar : Bool} {sc : WScope} {d : BitVec 5} {la : BitVec 4} {xa xb xc : Word}

/-- `cw.*` with a barrier offset that is none. -/
theorem State.cwIssue_offset (h : bar = true) (hb : (s.wg s.me.wg).barOffset xb.toNat = false) :
    s.cwIssue i inval sc bar d la xa xb xc = s.finishLate (lenOf i) (.x d) la (-1) := by
  simp [State.cwIssue, h, hb]

/-- `cw.*` of an empty range. -/
theorem State.cwIssue_empty (h : bar = true → (s.wg s.me.wg).barOffset xb.toNat = true) (hc : xc = 0) :
    s.cwIssue i inval sc bar d la xa xb xc = s.finishLate (lenOf i) (.x d) la 0 := by
  cases bar <;> simp_all [State.cwIssue]

/-- `cw.*` of a range that is not canonical. -/
theorem State.cwIssue_range (h : bar = true → (s.wg s.me.wg).barOffset xb.toNat = true) (hc : xc ≠ 0)
    (hr : ¬(canonical xa = true ∧ canonicalRange xa xc.toNat = true)) :
    s.cwIssue i inval sc bar d la xa xb xc = s.finishLate (lenOf i) (.x d) la (-1) := by
  have hr' : (!canonical xa || !canonicalRange xa xc.toNat) = true := by
    rwa [← Bool.not_and, Bool.not_eq_true', ← Bool.not_eq_true, Bool.and_eq_true]
  cases bar <;> simp_all [State.cwIssue]

/-- `cw.*` of a range that passes its checks is translated at its start. -/
theorem State.cwIssue_walks (h : bar = true → (s.wg s.me.wg).barOffset xb.toNat = true) (hc : xc ≠ 0)
    (hr : canonical xa = true ∧ canonicalRange xa xc.toNat = true) {s1 : State} {x : XRes}
    (hx : s.xlate (s.me.mctx s.cur) xa .load = (s1, x)) :
    s.cwIssue i inval sc bar d la xa xb xc = match (motive := XRes → State) x with
      | .wait => s1.waitOn .walk
      | .fault code => s1.trap code xa
      | .ok _ _ => s1.issueWalk i d la (.cw inval sc (if bar then some xb.toNat else none) xa.toNat xc.toNat) := by
  have h1 : (bar && !(s.wg s.me.wg).barOffset xb.toNat) = false := by cases bar <;> simp_all
  unfold State.cwIssue
  rw [h1, hr.1, hr.2, hx]
  simp only [if_neg hc, Bool.false_eq_true, if_false, Bool.not_true, Bool.or_self]
  cases x <;> rfl

end

section
variable {s : State} {t : Thread} {g : BitVec 4} {bar : Bool} {d a b c : BitVec 5}

theorem exec_cwFlush (hr : Runs s t g [.x d, .x a, .x b, .x c] [.x a, .x b, .x c]) (hon : bar = true → t.onL = false) (sc : WScope)
    (la : BitVec 4) (ru : BitVec 3) : exec (.cwFlush sc bar g d a b c la ru) s =
      .next (s.cwIssue (.cwFlush sc bar g d a b c la ru) false sc bar d la (s.srcX 0 a) (s.srcX 1 b) (s.srcX 2 c)) := by
  change execCwFlush sc bar g d a b c la ru s = _
  exact State.lane_runs hr _ bar hon _

theorem exec_cwInval (hr : Runs s t g [.x d, .x a, .x b, .x c] [.x a, .x b, .x c]) (hon : bar = true → t.onL = false) (sc : WScope)
    (la : BitVec 4) (ru : BitVec 3) : exec (.cwInval sc bar g d a b c la ru) s =
      .next (s.cwIssue (.cwInval sc bar g d a b c la ru) true sc bar d la (s.srcX 0 a) (s.srcX 1 b) (s.srcX 2 c)) := by
  change execCwInval sc bar g d a b c la ru s = _
  exact State.lane_runs hr _ bar hon _

/-- An empty range is canonical where its address is. -/
theorem canonicalRange_zero (va : Word) : (canonical va = true ∧ canonicalRange va 0 = true) ↔ canonical va = true := by
  have h := va.isLt
  have hi := va.toInt_eq_toNat_cond
  rw [canonicalRange_iff, canonical_iff]
  split at hi <;> omega

/-- Two ranges of one length do not meet. -/
theorem apart_iff (a b n : Nat) : (a + n ≤ b ∨ b + n ≤ a) ↔ ¬(a < b + n ∧ b < a + n) := by omega

theorem State.desc_setDesc (s : State) (p k : Nat) (x : Desc) : tget ((s.setDesc p k x).pkg p).descs k = some x := by
  rw [State.setDesc, State.pkg_updPkg, tget_tset_self]

/-- `pg.mig` in system mode: its checks, then a descriptor that is free, then room (05 R120, R125). -/
theorem exec_pgMig (hr : Runs s t g [.x d, .x a, .x b, .x c] [.x a, .x b, .x c]) (hm : t.mode = true) (la : BitVec 4) (ru : BitVec 3)
    {src dst len : Nat} (hsrc : (s.srcX 0 a).toNat = src) (hdst : (s.srcX 1 b).toNat = dst) (hlen : (s.srcX 2 c).toNat = len) :
    exec (.pgMig g d a b c la ru) s = .next (
      if src % 4096 = 0 ∧ dst % 4096 = 0 ∧ len % 4096 = 0 ∧ len ≠ 0 ∧ len ≤ 2 ^ 32 ∧ (src + len ≤ dst ∨ dst + len ≤ src) ∧
          s.memRange src len = true ∧ s.memRange dst len = true then
        (s.freeDesc (paPkg src)).elim (s.finishLate 8 (.x d) la (-2)) fun k =>
          if s.walkRoom t = true then
            (s.setDesc (paPkg src) k ⟨.moving, src, dst, len, 0⟩).acceptWalk (.pgMig g d a b c la ru) d la (.mig (paPkg src) k)
          else s.waitOn (.accept (.pgMig g d a b c la ru))
      else s.finishLate 8 (.x d) la (-1)) := by
  have hx : exec (.pgMig g d a b c la ru) s = _ := show execPgMig g d a b c la ru s = _ from State.lane_runs hr _ false nofun _
  have hme := State.me_here hr.here
  rw [hx]
  dsimp only
  rw [State.check_ok _ _ _ _ (hme ▸ hm), hsrc, hdst, hlen, hme]
  refine congrArg _ ((ite_congr ?_ (fun _ => rfl) fun _ => ?_).trans (ite_not ..))
  · simp only [apart_iff, Bool.not_eq_true', ← Bool.not_eq_true, not_and_or, not_or, not_not, not_le, ne_eq]
  · cases s.freeDesc (paPkg src) <;> rfl

/-- `pg.split` in system mode (05 R122, R124). -/
theorem exec_pgSplit (hr : Runs s t g [.x d, .x a, .x b, .x c] [.x a, .x b, .x c]) (hm : t.mode = true) (la : BitVec 4) (ru : BitVec 3)
    {va leaf table : Nat} (hva : (s.srcX 0 a).toNat = va) (hleaf : (s.srcX 1 b).toNat = leaf) (htable : (s.srcX 2 c).toNat = table) :
    exec (.pgSplit g d a b c la ru) s = .next (
      if leaf % 8 = 0 ∧ table % 4096 = 0 ∧ s.memRange table 4096 = true then
        if s.walkRoom t = true then
          if secOf leaf ∈ s.locks then s.waitOn .walk
          else ((s.readEnt (t.mctx s.cur) leaf).1.lock [leaf]).acceptWalk (.pgSplit g d a b c la ru) d la
            (.split va leaf table (s.readEnt (t.mctx s.cur) leaf).2)
        else s.waitOn (.accept (.pgSplit g d a b c la ru))
      else s.finishLate 8 (.x d) la (-1)) := by
  have hx : exec (.pgSplit g d a b c la ru) s = _ := show execPgSplit g d a b c la ru s = _ from State.lane_runs hr _ false nofun _
  have hme := State.me_here hr.here
  rw [hx]
  dsimp only
  rw [State.check_ok _ _ _ _ (hme ▸ hm), hva, hleaf, htable, hme]
  refine congrArg _ ((ite_congr ?_ (fun _ => rfl) fun _ => ?_).trans (ite_not ..))
  · simp only [Bool.not_eq_true', ← Bool.not_eq_true, not_and_or, ne_eq]
  · refine (ite_congr ?_ (fun _ => rfl) fun _ => ?_).trans (ite_not ..)
    · simp only [Bool.not_eq_true', ← Bool.not_eq_true]
    · simp only [State.lockedAny_one]

/-- `tlb.inv` in system mode: its checks, then its issue (04 R95). -/
theorem exec_tlbInv (hr : Runs s t g [.x d, .x a, .x b, .x c] [.x a, .x b, .x c]) (hm : t.mode = true) (k : TlbKind) (sc : WScope)
    (la : BitVec 4) (ru : BitVec 3) {xa xb xc : Word} (ha : s.srcX 0 a = xa) (hb : s.srcX 1 b = xb) (hc : s.srcX 2 c = xc) :
    exec (.tlbInv k sc g d a b c la ru) s = .next (
      if (k = .va ∨ k = .rng ∨ k = .asid) ∧ 2 ^ 16 ≤ xb.toNat then s.finishLate 8 (.x d) la (-1)
      else if ((k = .va ∨ k = .vag) ∧ ¬(canonical xa = true ∧ canonicalRange xa 0 = true)) ∨
          (k = .rng ∧ ¬(canonical xa = true ∧ canonicalRange xa (xc.toNat * 4096) = true)) then s.finishLate 8 (.x d) la (-2)
      else if k = .rng ∧ xc = 0 then s.finishLate 8 (.x d) la 0
      else s.issueWalk (.tlbInv k sc g d a b c la ru) d la (.tlb k sc xa.toNat xc.toNat (xb.setWidth 16))) := by
  have hx : exec (.tlbInv k sc g d a b c la ru) s = _ := show execTlbInv k sc g d a b c la ru s = _ from State.lane_runs hr _ false nofun _
  have hme := State.me_here hr.here
  have hdiv : (xb.toNat / 2 ^ 16 != 0) = true ↔ 2 ^ 16 ≤ xb.toNat := by
    rw [bne_iff_ne]
    omega
  rw [hx]
  dsimp only
  rw [State.check_ok _ _ _ _ (hme ▸ hm), ha, hb, hc]
  refine congrArg _ (ite_congr ?_ (fun _ => rfl) fun _ => ite_congr ?_ (fun _ => rfl) fun _ => ite_congr ?_ (fun _ => rfl) fun _ => rfl)
  · simp only [Bool.and_eq_true, Bool.or_eq_true, beq_iff_eq, hdiv, or_assoc]
  · rw [canonicalRange_zero]
    cases k <;> simp [imp_iff_not_or]
  · simp only [Bool.and_eq_true, beq_iff_eq]

/-- `pg.mig.rel` in system mode (05 R120, R125). -/
theorem exec_pgMigRel (hr : Runs s t g [.x d, .x a] [.x a]) (hm : t.mode = true) (la : BitVec 4) (ru : BitVec 3) {src : Nat}
    (hsrc : (s.srcX 0 a).toNat = src) : exec (.pgMigRel g d a la ru) s = .next (
      ((s.pkg (paPkg src)).descs.find? fun x => x.2.st == .forward && x.2.src == src).elim (s.finishLate 8 (.x d) la (-2)) fun x =>
        if s.walkRoom t = true then
          ((s.purgeRange x.2.src x.2.len).updPkg (paPkg src) fun p => { p with descs := tdel p.descs x.1 }).finishLate 8 (.x d) la 0
        else s.waitOn (.accept (.pgMigRel g d a la ru))) := by
  have hx : exec (.pgMigRel g d a la ru) s = _ := show execPgMigRel g d a la ru s = _ from State.lane_runs hr _ false nofun _
  have hme := State.me_here hr.here
  rw [hx]
  dsimp only
  rw [State.check_ok _ _ _ _ (hme ▸ hm), hsrc, hme]
  cases (s.pkg (paPkg src)).descs.find? _ <;> rfl

/-- `pg.coll` in system mode (05 R123, R124). -/
theorem exec_pgColl (lvl : BitVec 2) (hr : Runs s t g [.x d, .x a, .x b] [.x a, .x b]) (hm : t.mode = true) (la : BitVec 4)
    (ru : BitVec 3) {va leaf : Nat} (hva : (s.srcX 0 a).toNat = va) (hleaf : (s.srcX 1 b).toNat = leaf) {r : State × Option Nat}
    (hread : s.readEnt (t.mctx s.cur) leaf = r) {es : List Nat} (hes : collEntries leaf lvl.toNat (r.2.getD 0) = es)
    {q : State × List (Nat × Nat) × Bool} (hq : r.1.readEnts (t.mctx s.cur) es = q) :
    exec (.pgColl lvl g d a b la ru) s = .next (
      if leaf % 8 = 0 then
        if s.walkRoom t = true then
          if s.lockedAny es = true then s.waitOn .walk
          else (q.1.lock es).acceptWalk (.pgColl lvl g d a b la ru) d la (.coll va leaf lvl.toNat q.2.1 (r.2.isNone || !q.2.2))
        else s.waitOn (.accept (.pgColl lvl g d a b la ru))
      else s.finishLate 8 (.x d) la (-1)) := by
  have hx : exec (.pgColl lvl g d a b la ru) s = _ := show execPgColl lvl g d a b la ru s = _ from State.lane_runs hr _ false nofun _
  have hme := State.me_here hr.here
  rw [hx]
  dsimp only
  rw [State.check_ok _ _ _ _ (hme ▸ hm), hva, hleaf, hme, hread, hes, hq]
  refine congrArg _ ((ite_congr rfl (fun _ => rfl) fun _ => ?_).trans (ite_not ..))
  refine (ite_congr ?_ (fun _ => rfl) fun _ => rfl).trans (ite_not ..)
  simp only [Bool.not_eq_true', ← Bool.not_eq_true]

/-- A walker instruction of system mode in user mode (04 R95). -/
theorem exec_privileged {i : Instr} {rs rd : List Dest} {eff : State → State} (hr : Runs s t g rs rd) (hm : t.mode = false)
    (hx : exec i s = s.lane i g false rs rd eff) (he : ∃ k, eff s = s.check (!s.me.mode) 0x01 (parcels i) k) :
    exec i s = .next (s.trap 0x01 (parcels i)) := by
  obtain ⟨k, he⟩ := he
  rw [hx, State.lane_runs hr i false nofun, he, State.check_fails _ _ _ _ (State.me_here hr.here ▸ hm)]

end

/-- Settles O51: each command at issue is its checks in their order, and then its acceptance. -/
theorem walkerCommands : Obligations.WalkerCommands := by
  intro s t g d a b c la ru sc xa xb xc only accepted range
  have refused := fun (i : Instr) (v : Word) (h : tget s.threads s.cur = some t)
    (hx : exec i s = .next (s.finishLate (lenOf i) (.x d) la v)) => show only i v from refused_walk h hx
  have rangeIff : ∀ n, range n ↔ canonical xa = true ∧ canonicalRange xa n = true := fun n => (canonicalRange_iff xa n).symm
  refine ⟨fun bar inval hr hon => ?_, fun hr => ?_, fun hr => ?_, fun lvl hr => ?_⟩
  · intro i at_ x
    have hme := State.me_here hr.here
    have hx : exec i s = .next (s.cwIssue i inval sc bar d la xa xb xc) := by
      cases inval
      · exact exec_cwFlush hr hon sc la ru
      · exact exec_cwInval hr hon sc la ru
    have h8 : lenOf i = 8 := by cases inval <;> rfl
    have atIff : at_ ↔ (bar = true → (s.wg s.me.wg).barOffset xb.toNat = true) := by
      rw [WG.barOffset_iff, hme]
    rw [atIff]
    refine ⟨fun hb => ?_, fun hb hc => ?_, fun hb hc hn => ?_, fun hb hc hn => ?_⟩
    · rw [Classical.not_imp, Bool.not_eq_true] at hb
      exact refused i _ hr.here (hx.trans (congrArg _ (State.cwIssue_offset hb.1 hb.2)))
    · exact refused i _ hr.here (hx.trans (congrArg _ (State.cwIssue_empty hb hc)))
    · exact refused i _ hr.here (hx.trans (congrArg _ (State.cwIssue_range hb hc fun h => hn ((rangeIff _).2 h))))
    · have walks := fun {s1 : State} {r : XRes} (h : x = (s1, r)) =>
        have hx1 : s.xlate (s.me.mctx s.cur) xa .load = (s1, r) := by
          rw [hme]
          exact h
        hx.trans (congrArg Host.Outcome.next (State.cwIssue_walks hb hc ((rangeIff _).1 hn) hx1))
      refine ⟨fun s1 e h => walks h, fun s1 h => walks h, fun s1 pa leaf h hcur hw => ⟨fun room => ?_, fun room => ?_⟩⟩
      · exact accepted_walk ((walks h).trans (congrArg _ (State.issueWalk_room room))) hcur hw h8 rfl
      · exact (walks h).trans (congrArg _ (State.issueWalk_full room))
  · intro i j len free ok split
    have hme := State.me_here hr.here
    refine ⟨fun hm => ⟨exec_privileged hr hm (show execPgMig g d a b c la ru s = _ from rfl) ⟨_, rfl⟩,
      exec_privileged hr hm (show execPgSplit g d a b c la ru s = _ from rfl) ⟨_, rfl⟩,
      fun k => exec_privileged hr hm (show execTlbInv k sc g d a b c la ru s = _ from rfl) ⟨_, rfl⟩⟩, fun hm => ?_⟩
    have hi := exec_pgMig hr hm la ru rfl rfl rfl
    have hj := exec_pgSplit hr hm la ru rfl rfl rfl
    refine ⟨fun hn => ?_, fun h hf => ?_, fun k h hf => ⟨fun room => ?_, fun room => ?_⟩, fun hn => ?_, fun h room => ?_,
      fun h room hl => ?_, fun h room hl s1 e hread hcur hw => ?_, fun k => ?_⟩
    · exact refused i _ hr.here (hi.trans (congrArg _ (if_neg hn)))
    · refine refused i _ hr.here (hi.trans (congrArg _ ((if_pos h).trans ?_)))
      rw [show s.freeDesc (paPkg xa.toNat) = none from hf]
      rfl
    · rw [if_pos h, show s.freeDesc (paPkg xa.toNat) = some k from hf, Option.elim_some, if_pos room] at hi
      rw [← hme]
      let s0 := s.setDesc (paPkg xa.toNat) k ⟨.moving, xa.toNat, xb.toNat, len, 0⟩
      exact accepted_walk (s0 := s0) hi rfl rfl rfl
        (p := fun s1 => s1.mem = s.mem ∧ tget (s1.pkg (paPkg xa.toNat)).descs k = some ⟨.moving, xa.toNat, xb.toNat, len, 0⟩)
        ⟨rfl, s.desc_setDesc (paPkg xa.toNat) k _⟩
    · rw [if_pos h, show s.freeDesc (paPkg xa.toNat) = some k from hf, Option.elim_some, if_neg (by simp [room])] at hi
      exact hi
    · exact refused j _ hr.here (hj.trans (congrArg _ (if_neg hn)))
    · rw [if_pos h, if_neg (by simp [room])] at hj
      exact hj
    · rw [if_pos h, if_pos room, if_pos hl] at hj
      exact hj
    · rw [if_pos h, if_pos room, if_neg hl, hread] at hj
      exact accepted_walk (s0 := s1.lock [xb.toNat]) hj hcur hw rfl
        (p := fun s2 => s2.mem = s1.mem ∧ secOf xb.toNat ∈ s2.locks) ⟨rfl, State.mem_lock (s := s1) List.mem_cons_self⟩
    · intro i r1 r2
      have hk := exec_tlbInv hr hm k sc la ru rfl rfl rfl
      refine ⟨fun h1 => ?_, fun h1 h2 => ?_, fun h1 h2 hk0 h0 => ?_, fun h1 h2 hk0 => ?_⟩
      · exact refused i _ hr.here (hk.trans (congrArg _ (if_pos h1)))
      all_goals
        rw [show r2 ↔ _ from or_congr (and_congr_right' (not_congr (rangeIff _))) (and_congr_right' (not_congr (rangeIff _)))] at h2
      · exact refused i _ hr.here (hk.trans (congrArg _ ((if_neg h1).trans (if_pos h2))))
      · exact refused i _ hr.here (hk.trans (congrArg _ ((if_neg h1).trans ((if_neg h2).trans (if_pos ⟨hk0, h0⟩)))))
      · rw [if_neg h1, if_neg h2, if_neg fun h => hk0 h.1 h.2] at hk
        rw [← hme]
        refine ⟨fun room => ?_, fun room => ?_⟩
        · exact accepted_walk (hk.trans (congrArg _ (State.issueWalk_room room))) rfl rfl rfl ⟨rfl, rfl⟩
        · exact hk.trans (congrArg _ (State.issueWalk_full room))
  · intro i
    refine ⟨fun hm => exec_privileged hr hm (show execPgMigRel g d a la ru s = _ from rfl) ⟨_, rfl⟩, fun hm => ?_⟩
    have hi := exec_pgMigRel hr hm la ru rfl
    refine ⟨fun hn => ?_, fun x hx => ⟨fun room => ?_, fun room => ?_⟩⟩
    · have hnone : (s.pkg (paPkg xa.toNat)).descs.find? (fun x => x.2.st == .forward && x.2.src == xa.toNat) = none :=
        List.find?_eq_none.2 fun x hx => by
          rw [Bool.and_eq_true, beq_iff_eq, beq_iff_eq]
          exact hn x hx
      rw [hnone] at hi
      exact refused i _ hr.here hi
    · rw [hx, Option.elim_some, if_neg (by simp [room])] at hi
      exact hi
    · rw [hx, Option.elim_some, if_pos room] at hi
      have hm' := s.mem_purgeRange x.2.src x.2.len
      obtain ⟨u, hu, hl⟩ := State.finishLate_eq ((s.purgeRange x.2.src x.2.len).updPkg (paPkg xa.toNat) fun p =>
        { p with descs := tdel p.descs x.1 }) i (.x d) la 0
      have hc : (s.purgeRange x.2.src x.2.len).cur = s.cur := by rw [hm'.same]
      have hpk : (s.purgeRange x.2.src x.2.len).pkgs = s.pkgs := by rw [hm'.same]
      refine ⟨_, u, hi.trans (congrArg _ (hu.trans (congrArg (State.setThr _ · u) hc))), s.purgeRange_mem _ _, hl, ?_⟩
      rw [State.pkg_updPkg, State.pkg, hpk]
      rfl
  · intro i
    refine ⟨fun hm => exec_privileged hr hm (show execPgColl lvl g d a b la ru s = _ from rfl) ⟨_, rfl⟩, fun hm => ⟨
      fun hn => ?_, fun h room => ?_, fun h room s1 s2 e q ok hread => ?_⟩⟩
    · exact refused i _ hr.here ((exec_pgColl lvl hr hm la ru rfl rfl rfl rfl rfl).trans (congrArg _ (if_neg hn)))
    · exact (exec_pgColl lvl hr hm la ru rfl rfl rfl rfl rfl).trans (congrArg _ ((if_pos h).trans (if_neg (by simp [room]))))
    · intro es
      have hi := fun q hq => exec_pgColl lvl hr hm la ru rfl rfl hread (es := es) rfl (q := q) hq
      refine ⟨fun hl => ?_, fun hl hq hcur hw => ?_⟩
      · exact (hi _ rfl).trans (congrArg _ ((if_pos h).trans ((if_pos room).trans (if_pos hl))))
      · have hi := (hi _ hq).trans (congrArg _ ((if_pos h).trans ((if_pos room).trans (if_neg (by simp [hl])))))
        exact accepted_walk (s0 := s2.lock es) hi hcur hw rfl (p := fun s3 => s3.mem = s2.mem ∧ ∀ a ∈ es, secOf a ∈ s3.locks)
          ⟨rfl, fun a ha => State.mem_lock (s := s2) ha⟩

end Sys2Proof.Machine

namespace Sys2Proof.Machine

/-! ## The end of a walker command (05 R125) -/

/-- A command is out of the list, and its thread has its status and counts it no more. -/
def State.Done (s : State) (m : WalkCmd) (u : Thread) (v : Word) : Prop :=
  m ∉ s.walks ∧ (∀ d, u.pend = [⟨d, none, 0, m.id⟩] → d ≠ .x 0 → (s.thr m.t).get d = v) ∧
    (u.ops = [⟨.walker, m.id, false, none⟩] → (s.thr m.t).ops = [])

theorem Thread.produce_ops (t : Thread) (id : Nat) (v : Word) : (t.produce id v).ops = t.ops := by
  refine List.foldlRecOn (motive := fun x : Thread => x.ops = t.ops) _ _ rfl fun x hx e _ => ?_
  split
  · split
    · exact (congrArg Thread.ops (x.alike_put e.dest v).rest :).trans hx
    · exact hx
  · exact hx

/-- A result that a thread waits for, its window over, is written as it is produced. -/
theorem Thread.produce_get {t : Thread} {d : Dest} {id : Nat} (v : Word) (h : t.pend = [⟨d, none, 0, id⟩]) (hd : d ≠ .x 0) :
    (t.produce id v).get d = v := by
  have hp : t.produce id v = ({ t with pend := [] } : Thread).put d v := by
    rw [Thread.produce, h]
    exact (if_pos ⟨rfl, rfl⟩).trans (if_pos rfl)
  rw [hp, Thread.get_put, Dest.holds, if_neg hd]

/-- The only operation outstanding is done. -/
theorem Thread.finishOp_ops {t : Thread} {k : CntClass} {id : Nat} (p : Option Report) (h : t.ops = [⟨k, id, false, none⟩]) :
    (t.finishOp k id p).ops = [] := by
  rw [Thread.finishOp, h]
  simp [popDone]

theorem State.endWalk_done {s : State} {m : WalkCmd} {u : Thread} (v : Word) (p : Option Report)
    (h : ∃ x, tget s.threads m.t = some x ∧ u.noted x) : (s.endWalk m v p).Done m u v := by
  obtain ⟨x, hx, hn⟩ := h
  have hpend : x.pend = u.pend := by
    obtain ⟨_, _, _, _, rfl⟩ := hn
    rfl
  have hops : x.ops = u.ops := by
    obtain ⟨_, _, _, _, rfl⟩ := hn
    rfl
  have he : s.endWalk m v p = ({ s with walks := s.walks.filter (·.id != m.id) } : State).updThr m.t fun t =>
      (t.produce m.id v).finishOp .walker m.id p := if_pos (by rw [hx]; rfl)
  have hthr : (s.endWalk m v p).thr m.t = (x.produce m.id v).finishOp .walker m.id p := by
    rw [he, State.thr_updThr]
    exact congrArg (fun t => Thread.finishOp (t.produce m.id v) .walker m.id p) (State.thr_here hx)
  refine ⟨fun hm => ?_, fun d hd h0 => ?_, fun ho => ?_⟩
  · rw [he] at hm
    simpa using (List.mem_filter.1 hm).2
  · have hg := x.produce_get v (hpend.trans hd) h0
    rw [hthr]
    cases d <;> exact hg
  · rw [hthr]
    exact Thread.finishOp_ops p ((x.produce_ops _ _).trans (hops.trans ho))

@[simp] theorem State.endWalk_mem (s : State) (m : WalkCmd) (v : Word) (p : Option Report) : (s.endWalk m v p).mem = s.mem := by
  unfold State.endWalk
  dsimp only
  split <;> rfl

@[simp] theorem State.endWalk_copies (s : State) (m : WalkCmd) (v : Word) (p : Option Report) :
    (s.endWalk m v p).copies = s.copies := by
  unfold State.endWalk
  dsimp only
  split <;> rfl

theorem State.setWalk_here {s : State} {n : Nat} {m x : WalkCmd} (h : s.walks[n]? = some m) (hx : x.id = m.id) :
    (s.setWalk x).walks[n]? = some x := by
  rw [State.setWalk, List.getElem?_map, h, Option.map_some, if_pos hx.symm]

/-! ## Instructions of the walkers that leave all as it is (04 R96; 18 R417) -/

theorem next_of_none {s : State} {o : Option State} (h : o = none) : (Host.Outcome.next (o.getD s) : Out) = .next s := by
  rw [h, Option.getD_none]

theorem next_of_some {s s' : State} {o : Option State} (h : o = some s') : (Host.Outcome.next (o.getD s) : Out) = .next s' := by
  rw [h, Option.getD_some]

section
variable {s : State} {n : Nat} {m : WalkCmd}

/-- A command that has not the walker of its die stays as it is. -/
theorem exec_walk_turnless (h : s.walks[n]? = some m) (hsent : m.sent = false) (ht : s.walkTurn m = false) :
    ∀ i ∈ [Instr.cwWalkComplete n, .pgMigLine n, .pgSplitComplete n, .pgCollComplete n], exec i s = .next s := by
  have cw : s.cwDone n = none := by
    unfold State.cwDone
    rw [h]
    dsimp only
    cases m.op <;> simp [hsent, ht]
  have mig : s.migLine n = none := by
    unfold State.migLine
    rw [h]
    dsimp only
    cases m.op <;> simp [ht]
  have split : s.splitDone n = none := by
    unfold State.splitDone
    rw [h]
    dsimp only
    cases m.op <;> simp [ht]
  have coll : s.collDone n = none := by
    unfold State.collDone
    rw [h]
    dsimp only
    cases m.op <;> simp [ht]
  simp only [List.forall_mem_cons, List.not_mem_nil, false_implies, implies_true, and_true]
  exact ⟨next_of_none cw, next_of_none mig, next_of_none split, next_of_none coll⟩

/-- A command that removes a translation which a `cw.*` is within stays as it is. -/
theorem exec_walk_framed (h : s.walks[n]? = some m) (hf : s.framed m = true) :
    ∀ i ∈ [Instr.pgSplitComplete n, .pgCollComplete n, .tlbInvComplete n], exec i s = .next s := by
  have split : s.splitDone n = none := by
    unfold State.splitDone
    rw [h]
    dsimp only
    cases m.op <;> simp [hf]
  have coll : s.collDone n = none := by
    unfold State.collDone
    rw [h]
    dsimp only
    cases m.op <;> simp [hf]
  have tlb : s.tlbDone n = none := by
    unfold State.tlbDone
    rw [h]
    dsimp only
    cases m.op <;> simp [hf]
  simp only [List.forall_mem_cons, List.not_mem_nil, false_implies, implies_true, and_true]
  exact ⟨next_of_none split, next_of_none coll, next_of_none tlb⟩

/-- A number that names no command. -/
theorem exec_walk_none (h : s.walks[n]? = none) :
    ∀ i ∈ [Instr.cwWalkComplete n, .pgMigLine n, .pgSplitComplete n, .pgCollComplete n, .tlbInvComplete n], exec i s = .next s := by
  simp only [List.forall_mem_cons, List.not_mem_nil, false_implies, implies_true, and_true]
  refine ⟨next_of_none ?_, next_of_none ?_, next_of_none ?_, next_of_none ?_, next_of_none ?_⟩
  · unfold State.cwDone
    rw [h]
  · unfold State.migLine
    rw [h]
  · unfold State.splitDone
    rw [h]
  · unfold State.collDone
    rw [h]
  · unfold State.tlbDone
    rw [h]

/-- Where other packages have copies, the recalls go out first. -/
theorem exec_cwWalkComplete_sends {inval : Bool} {sc : WScope} {bar : Option Nat} {va len : Nat} (h : s.walks[n]? = some m)
    (hop : m.op = .cw inval sc bar va len) (hsent : m.sent = false) (ht : s.walkTurn m = true) (ha : s.lineAway m sc va = true) :
    exec (.cwWalkComplete n) s = .next (s.setWalk { m with sent := true }) := by
  have hd : s.cwDone n = some (s.setWalk { m with sent := true }) := by
    unfold State.cwDone
    rw [h]
    dsimp only
    rw [hop]
    simp [hsent, ht, ha]
  exact next_of_some hd

/-! ## `tlb.inv` (04 R95, R96) -/

theorem scopeHolds_iff (sc : WScope) (d e : Nat) :
    scopeHolds sc d e = true ↔ sc = .sys ∨ (sc = .pkg ∧ e / 16 = d / 16) ∨ (sc = .die ∧ e = d) := by
  cases sc with
  | die => simpa [scopeHolds] using eq_comm
  | pkg => simpa [scopeHolds, pkgOfDie] using eq_comm
  | sys => simp [scopeHolds]

theorem exec_tlbInvComplete {k : TlbKind} {sc : WScope} {va len : Nat} {asid : BitVec 16} (h : s.walks[n]? = some m)
    (hop : m.op = .tlb k sc va len asid) (hf : s.framed m = false) :
    exec (.tlbInvComplete n) s = .next ((s.dropTlbs sc m.die fun x => x.named k va len asid).endWalk m 0 none) := by
  have hd : s.tlbDone n = some ((s.dropTlbs sc m.die fun x => x.named k va len asid).endWalk m 0 none) := by
    unfold State.tlbDone
    rw [h]
    dsimp only
    rw [hop]
    simp [hf]
  exact next_of_some hd

/-- Where no store is held back, translations go and nothing else does. -/
theorem State.dropTlbs_idle {s : State} (h : s.stores = []) (sc : WScope) (die : Nat) (f : Tlb → Bool) :
    s.dropTlbs sc die f = { s with
      tlbs := s.tlbs.filter fun x => !(scopeHolds sc die x.held.onDie && f x)
      walkCache := s.walkCache.filter fun x => !scopeHolds sc die x.die } := by
  unfold State.dropTlbs
  rw [if_pos (by rw [h]; rfl)]

end

end Sys2Proof.Machine

namespace Sys2Proof.Machine

/-! ## Bytes of memory -/

theorem Store.readN_lt (m : Store 8) (a n : Nat) : m.readN a n < 256 ^ n := by
  have h : natOf (m.run a n) = natOf (m.run a n) % 256 ^ (m.run a n).length := by
    rw [← natOf_bytesOf, bytesOf_natOf]
  have hl : (m.run a n).length = n := by rw [Store.run_eq, List.length_map, List.length_range]
  rw [Store.readN, h, hl]
  exact Nat.mod_lt _ (Nat.pow_pos (by decide))

/-- What a run of bytes reads depends on those bytes alone. -/
theorem Store.readN_eq {m m' : Store 8} {a b n : Nat} (h : ∀ i < n, m'.read (b + i) = m.read (a + i)) : m'.readN b n = m.readN a n := by
  rw [Store.readN, Store.readN, Store.run_eq, Store.run_eq]
  exact congrArg natOf (List.map_congr_left fun i hi => h i (List.mem_range.1 hi))

/-! ## A walker's access to entries that answer (05 R117, R122, R123) -/

/-- What work at homes leaves that combines nothing and meets no error: the answers of other addresses. -/
structure State.Serves (s s' : State) : Prop where
  same : s.Mem s'
  poison : s'.poison = s.poison
  steady : s'.Steady
  free : ∀ k, Free s.dir k → Free s'.dir k

theorem State.Serves.trans {a b c : State} (h : a.Serves b) (k : b.Serves c) : a.Serves c :=
  ⟨h.same.trans k.same, k.poison.trans h.poison, k.steady, fun x hx => k.free x (h.free x hx)⟩

theorem State.Serves.refl {s : State} (h : s.Steady) : s.Serves s := ⟨.refl s, rfl, h, fun _ => id⟩

theorem State.Plain.serves {s s' : State} {pkg a : Nat} (h : s.Plain pkg a) (k : s.Serves s') : s'.Plain pkg a :=
  h.mono k.same k.poison (k.free _)

theorem State.readEnt_plain {s : State} (hs : s.Steady) {c : MCtx} {a : Nat} (h : s.Plain (c.die / 16) a) :
    ∃ t, s.readEnt c a = (t, some (s.mem.readN a 8)) ∧ s.Serves t ∧ t.mem = s.mem := by
  rw [← State.dieAgent_pkg] at h
  have hq := s.settles_atSlab hs a
  refine ⟨s.atSlab a, ?_, ⟨s.mem_atSlab a, hq.poison, hq.steady, hq.free⟩, hq.mem⟩
  unfold State.readEnt
  rw [s.homeLoad_plain hs 8 h]

theorem State.writeEnt_plain {s : State} (hs : s.Steady) {c : MCtx} {a : Nat} (v : Nat) (h : s.Plain (c.die / 16) a) :
    ∃ t, s.writeEnt c a v = (t, true) ∧ s.Serves t ∧ t.mem = s.mem.writeN a 8 v := by
  obtain ⟨hm, hw⟩ := s.dieStore_plain hs 8 v (by decide) h
  rw [← State.dieAgent_pkg] at h
  obtain ⟨t, _, he⟩ := s.homeStore_plain hs 8 v (by decide) h
  have hd : s.dieStore c.die a 8 v = t.setMem (dieAgent c.die) a 8 v 0 := by
    unfold State.dieStore
    rw [he]
    rfl
  refine ⟨s.dieStore c.die a 8 v, ?_, ⟨hm, hw.poison, hw.steady, hw.free⟩, hw.mem⟩
  unfold State.writeEnt
  rw [he, hd]

/-- The entries of a table are written in order. -/
theorem State.writeTable_plain {s : State} (hs : s.Steady) (c : MCtx) (base : Nat) (f : Nat → Nat) (n : Nat) :
    (∀ i < n, s.Plain (c.die / 16) (base + 8 * i)) → ∃ t,
      (List.range n).foldl (fun (r : State × Bool) i =>
        let q := r.1.writeEnt c (base + 8 * i) (f i)
        (q.1, r.2 && q.2)) (s, true) = (t, true) ∧ s.Serves t ∧
      (∀ i < n, t.mem.readN (base + 8 * i) 8 = f i % 256 ^ 8) ∧
      ∀ y, (y < base ∨ base + 8 * n ≤ y) → t.mem.read y = s.mem.read y := by
  induction n with
  | zero => exact fun _ => ⟨s, rfl, .refl hs, fun i hi => absurd hi i.not_lt_zero, fun _ _ => rfl⟩
  | succ n ih =>
    intro h
    obtain ⟨t, hf, ht, hin, hout⟩ := ih fun i hi => h i (by omega)
    obtain ⟨t1, hw, ht1, hm⟩ := State.writeEnt_plain ht.steady (f n) ((h n (by omega)).serves ht)
    refine ⟨t1, ?_, ht.trans ht1, fun i hi => ?_, fun y hy => ?_⟩
    · rw [List.range_succ, List.foldl_append, hf, List.foldl_cons, List.foldl_nil, hw]
      rfl
    · rw [hm]
      rcases Nat.lt_succ_iff_lt_or_eq.1 hi with hi | rfl
      · rw [Store.readN_writeN_out _ _ _ _ _ _ (by omega), hin i hi]
      · exact Store.readN_writeN _ _ _ _
    · rw [hm, Store.read_writeN_out _ _ _ _ _ (by omega), hout y (by omega)]

/-! ## `pg.split` and `pg.coll` at their end (05 R122, R123) -/

/-- A walker command's last work on translations and replicas: it writes no byte of memory. -/
structure State.Tidies (s s' : State) : Prop where
  same : s.Mem s'
  mem : s'.mem = s.mem

theorem State.tidies_dropRange {s : State} (h : s.stores = []) (va len : Nat) (asid : BitVec 16) (glob : Bool) :
    s.Tidies (s.dropRange va len asid glob) := by
  rw [State.dropRange, State.dropTlbs_idle h]
  exact ⟨State.Mem.tables s s.slabs s.soft s.poison s.dir s.copies _ _ s.icache, rfl⟩

/-- A command that ends, and whose lock goes. -/
theorem State.endWalk_unlocks {s s1 : State} {m : WalkCmd} {u : Thread} {leaf : Nat} (v : Word) (p : Option Report) (h : s.Mem s1)
    (hu : tget s.threads m.t = some u) :
    ((s1.unlock [leaf]).endWalk m v p).Done m u v ∧ secOf leaf ∉ ((s1.unlock [leaf]).endWalk m v p).locks := by
  refine ⟨State.endWalk_done v p (State.seen_thr h.seen hu), fun hl => ?_⟩
  have hk : ((s1.unlock [leaf]).endWalk m v p).locks = (s1.unlock [leaf]).locks := by
    unfold State.endWalk
    dsimp only
    split <;> rfl
  rw [hk] at hl
  simpa [lockSecs_one] using (List.mem_filter.1 hl).2

/-- A split that finds its entry as it was read: the table is filled, and then the entry is swapped. -/
theorem State.splitEnd_plain {s : State} (hs : s.Steady) {m : WalkCmd} {va leaf table e : Nat} (hst : s.stores = [])
    (he : s.mem.readN leaf 8 = e) (hok : s.entryOk e 2 = true) (h0 : e.testBit 0 = true) (h1 : e.testBit 1 = true)
    (h9 : e.testBit 9 = false) (hap : leaf + 8 ≤ table ∨ table + 4096 ≤ leaf) (hb : table / 4096 < 2 ^ 40)
    (hl : s.Plain (m.die / 16) leaf) (ht : ∀ i < 512, s.Plain (m.die / 16) (table + 8 * i)) :
    ∃ t, s.splitEnd m va leaf table e = (t, 0) ∧ s.Mem t ∧ t.mem.readN leaf 8 = 1 + table / 4096 * 2 ^ 16 ∧
      (∀ i < 512, t.mem.readN (table + 8 * i) 8 = splitEntry e va i % 2 ^ 64) ∧
      ∀ y, (y < leaf ∨ leaf + 8 ≤ y) → (y < table ∨ table + 4096 ≤ y) → t.mem.read y = s.mem.read y := by
  obtain ⟨t1, hf, ht1, hin, hout⟩ := s.writeTable_plain hs m.ctx table (splitEntry e va) 512 ht
  obtain ⟨t2, hr, ht2, hm2⟩ := t1.readEnt_plain (c := m.ctx) ht1.steady (hl.serves ht1)
  have hread : t1.mem.readN leaf 8 = e := (Store.readN_eq fun i hi => hout _ (by omega)).trans he
  obtain ⟨t3, hw, ht3, hm3⟩ := t2.writeEnt_plain (c := m.ctx) ht2.steady (1 + table / 4096 * 2 ^ 16) (hl.serves (ht1.trans ht2))
  have h13 := (ht1.trans ht2).trans ht3
  have hst3 : t3.stores = [] := by
    rw [h13.same.same]
    exact hst
  have hd := t3.tidies_dropRange hst3 (va / 2 ^ 21 * 2 ^ 21) (2 ^ 21) m.asid (entBit e 6)
  generalize hs4 : t3.dropRange (va / 2 ^ 21 * 2 ^ 21) (2 ^ 21) m.asid (entBit e 6) = t4 at hd
  have hp : t4.Tidies (if regionOf e == .rdup then t4.purgeRange (entPpn e * 4096 + va / 2 ^ 16 % 32 * 2 ^ 16) (2 ^ 16) else t4) := by
    split
    · exact ⟨State.mem_purgeRange _ _ _, State.purgeRange_mem _ _ _⟩
    · exact ⟨.refl t4, rfl⟩
  refine ⟨_, ?_, h13.same.trans (hd.same.trans hp.same), ?_, fun i hi => ?_, fun y hy hy' => ?_⟩
  · unfold State.splitEnd
    rw [if_neg (by simp [entV, entLeaf, entCont, entBit, h0, h1, h9, hok])]
    dsimp only
    rw [hf]
    dsimp only
    rw [hr, hread, if_neg (by simp), if_neg (by simp)]
    dsimp only
    rw [hw, if_neg (by simp), hs4]
  · rw [hp.mem, hd.mem, hm3, Store.readN_writeN, Nat.mod_eq_of_lt (by omega)]
  · rw [hp.mem, hd.mem, hm3, Store.readN_writeN_out _ _ _ _ _ _ (by omega), hm2, hin i hi]
    rfl
  · rw [hp.mem, hd.mem, hm3, Store.read_writeN_out _ _ _ _ _ hy, hm2, hout y hy']

/-- A collapse of one leaf of region RDUP that is as it was read. -/
theorem State.collEnd_plain {s : State} (hs : s.Steady) {m : WalkCmd} {va leaf lvl e : Nat} (hst : s.stores = [])
    (he : s.mem.readN leaf 8 = e) (h0 : e.testBit 0 = true) (h1 : e.testBit 1 = true) (hreg : e / 2 ^ 10 % 4 = 3)
    (hl : s.Plain (m.die / 16) leaf) :
    ∃ t, s.collEnd m va leaf lvl [(leaf, e)] false = (t, 0) ∧ s.Mem t ∧ t.mem.readN leaf 8 = e - 2 ^ 10 ∧
      ∀ y, (y < leaf ∨ leaf + 8 ≤ y) → t.mem.read y = s.mem.read y := by
  obtain ⟨t1, hr, ht1, hm1⟩ := s.readEnt_plain (c := m.ctx) hs hl
  obtain ⟨t2, hw, ht2, hm2⟩ := t1.writeEnt_plain (c := m.ctx) ht1.steady (cohLeaf e) (hl.serves ht1)
  have h12 := ht1.trans ht2
  have hst2 : t2.stores = [] := by
    rw [h12.same.same]
    exact hst
  have hd := t2.tidies_dropRange hst2 (va / (pageSize lvl * 1) * (pageSize lvl * 1)) (pageSize lvl * 1) m.asid (entBit e 6)
  have hbound : e < 256 ^ 8 := he ▸ s.mem.readN_lt leaf 8
  have hcoh : cohLeaf e = e - 2 ^ 10 := by
    unfold cohLeaf
    omega
  have hrdup : regionOf e = .rdup := by
    unfold regionOf
    rw [show e / 1024 % 4 = 3 from hreg]
    rfl
  refine ⟨_, ?_, h12.same.trans (hd.same.trans (State.mem_purgeRange _ (entPpn e * 4096) (pageSize lvl))), ?_, fun y hy => ?_⟩
  · have hreads : s.readEnts m.ctx [leaf] = (t1, [(leaf, e)], true) := by
      simp only [State.readEnts, hr, he, Option.getD_some, Option.isSome_some, Bool.and_self]
    unfold State.collEnd
    rw [if_neg (by decide)]
    simp only [List.map_cons, List.map_nil, hreads, tget, if_true, Option.getD_some, entV, entLeaf, entBit, h0, h1, hrdup,
      List.length_singleton, List.foldl_cons, List.foldl_nil, hw, beq_self_eq_true, bne_self_eq_false, Bool.and_self, Bool.not_true,
      Bool.or_self, Bool.false_eq_true, if_false]
  · rw [State.purgeRange_mem, hd.mem, hm2, Store.readN_writeN, hcoh, Nat.mod_eq_of_lt (by omega)]
  · rw [State.purgeRange_mem, hd.mem, hm2, Store.read_writeN_out _ _ _ _ _ hy, hm1]

section
variable {s t : State} {n : Nat} {m : WalkCmd} {va leaf table e lvl : Nat} {v : Word}

theorem exec_pgSplitComplete (h : s.walks[n]? = some m) (hop : m.op = .split va leaf table (some e)) (hf : s.framed m = false)
    (ht : s.walkTurn m = true) (hr : s.splitEnd m va leaf table e = (t, v)) :
    exec (.pgSplitComplete n) s = .next ((t.unlock [leaf]).endWalk m v (t.errReport m v)) := by
  refine next_of_some (o := s.splitDone n) ?_
  unfold State.splitDone
  rw [h]
  dsimp only
  rw [hop]
  dsimp only
  rw [hf, ht, hr]
  rfl

/-- A split whose entry could not be read. -/
theorem exec_pgSplitComplete_none (h : s.walks[n]? = some m) (hop : m.op = .split va leaf table none) (hf : s.framed m = false)
    (ht : s.walkTurn m = true) :
    exec (.pgSplitComplete n) s = .next ((s.unlock [leaf]).endWalk m (-4) (s.errReport m (-4))) := by
  refine next_of_some (o := s.splitDone n) ?_
  unfold State.splitDone
  rw [h]
  dsimp only
  rw [hop]
  dsimp only
  rw [hf, ht]
  rfl

theorem exec_pgCollComplete (h : s.walks[n]? = some m) (hop : m.op = .coll va leaf lvl [(leaf, e)] false) (hf : s.framed m = false)
    (ht : s.walkTurn m = true) (hr : s.collEnd m va leaf lvl [(leaf, e)] false = (t, v)) :
    exec (.pgCollComplete n) s = .next ((t.unlock [leaf]).endWalk m v (t.errReport m v)) := by
  refine next_of_some (o := s.collDone n) ?_
  unfold State.collDone
  rw [h]
  dsimp only
  rw [hop]
  dsimp only
  rw [hf, ht, hr]
  rfl

end

end Sys2Proof.Machine

namespace Sys2Proof.Machine

/-! ## Bytes that are moved -/

/-- Bytes copied from one place to another. -/
theorem Store.read_copy (m : Store 8) (a b n y : Nat) :
    (m.writeN b n (m.readN a n)).read y = if b ≤ y ∧ y < b + n then m.read (a + (y - b)) else m.read y := by
  have hl : (m.run a n).length = n := by rw [Store.run_eq, List.length_map, List.length_range]
  have hw : m.writeN b n (m.readN a n) = m.setRun b (m.run a n) := by
    have h := bytesOf_natOf (m.run a n)
    rw [hl] at h
    rw [Store.writeN, Store.readN, h]
  split
  next h =>
    obtain ⟨i, rfl⟩ := Nat.exists_eq_add_of_le h.1
    rw [hw, Store.read_setRun_in m b i _ (by omega), Nat.add_sub_cancel_left]
    simp only [Store.run_eq, List.getElem_map, List.getElem_range]
  next h => exact Store.read_writeN_out _ _ _ _ _ (by omega)

/-! ## A migration engine's line (05 R119, R120) -/

/-- What a home that stands answers of a sector, as `memCode` orders its checks. -/
theorem answer_mono : ∀ gone bad bad' : Bool, (bad = false → bad' = false) →
    (if gone = true then some 1 else if bad = true then some 5 else none : Option Nat) = none →
    (if gone = true then some 1 else if bad' = true then some 5 else none : Option Nat) = none := by decide

/-- An address that answers does so still where fewer sectors are poisoned. -/
theorem State.memCode_mono {s s' : State} (hm : s.Mem s') (hx : ∀ x ∈ s'.poison, x ∈ s.poison) {pkg a : Nat} {full : Bool}
    (h : s.memCode pkg a full = none) : s'.memCode pkg a full = none := by
  have hs := hm.same
  have hp : s'.pkgs = s.pkgs := by rw [hs]
  have hu : s'.units = s.units := by rw [hs]
  have hl : s'.late = s.late := by rw [hs]
  have hcur : s'.cur = s.cur := by rw [hs]
  have hc : s'.memCode pkg a full = ({ s with poison := s'.poison } : State).memCode pkg a full :=
    State.memCode_congr (s := { s with poison := s'.poison }) hp hu rfl hl hcur pkg a full
  have hclean : (!full && s.poison.contains (secOf a)) = false → (!full && s'.poison.contains (secOf a)) = false := fun hn => by
    rcases Bool.and_eq_false_iff.1 hn with hn | hn
    · exact Bool.and_eq_false_iff.2 (.inl hn)
    · refine Bool.and_eq_false_iff.2 (.inr ?_)
      rw [← Bool.not_eq_true, List.contains_iff_mem] at hn ⊢
      exact fun h => hn (hx _ h)
  have hcode : ∀ p : List Nat, ({ s with poison := p } : State).memCode pkg a full =
      if (!s.present (paPkg a) || !s.reaches pkg (paPkg a)) = true then some 3
      else if s.lateTo pkg a = true then some 8
      else match areaOf a with
        | .hole => some 1
        | .ctrl => some 2
        | _ => if s.homeGone a = true then some 1 else if (!full && p.contains (secOf a)) = true then some 5 else none := fun _ => rfl
  rw [hc, hcode]
  rw [show s.memCode pkg a full = _ from hcode s.poison] at h
  split at h
  · cases h
  next h1 =>
  split at h
  · cases h
  next h2 =>
  rw [if_neg h1, if_neg h2]
  revert h
  cases areaOf a with
  | hbm _ | lpd _ => exact answer_mono _ _ _ hclean
  | hole | ctrl => exact fun h => nomatch h

/-- What the moves of sectors leave: fewer sectors poisoned, and a steady state. -/
structure State.Shifts (s s' : State) : Prop where
  same : s.Mem s'
  poison : ∀ x ∈ s'.poison, x ∈ s.poison
  steady : s'.Steady

theorem State.Shifts.trans {a b c : State} (h : a.Shifts b) (k : b.Shifts c) : a.Shifts c :=
  ⟨h.same.trans k.same, fun x hx => h.poison x (k.poison x hx), k.steady⟩

/-- A sector that answers is reached at its home, without more. -/
theorem State.reach_plain {s : State} (hs : s.Steady) {pkg a : Nat} {full : Bool} (h : s.memCode pkg a full = none)
    (hp : full = false → s.poison.contains (secOf a) = false) : s.reach pkg a full = (s.atSlab a, none) := by
  unfold State.reach
  rw [h]
  dsimp only
  rw [(s.settles_atSlab hs a).poison, if_neg]
  cases full <;> simp_all

/-- A sector whose two places answer moves with its bytes. -/
theorem State.moveSec_plain {s : State} (hs : s.Steady) {pkg src dst : Nat} (ha : s.memCode pkg src false = none)
    (hb : s.memCode pkg dst true = none) :
    ∃ t, s.moveSec pkg src dst = (t, []) ∧ s.Shifts t ∧ t.mem = s.mem.writeN dst 64 (s.mem.readN src 64) := by
  have hra := s.reach_plain hs ha fun _ => State.poison_of_memCode ha
  have q1 := s.settles_atSlab hs src
  have hb1 := State.memCode_mono (s.mem_atSlab src) (fun x hx => by rwa [q1.poison] at hx) hb
  have hrb := (s.atSlab src).reach_plain q1.steady hb1 nofun
  have q2 := q1.toQuiet.trans (State.settles_atSlab q1.steady dst).toQuiet
  have m2 := (s.mem_atSlab src).trans (State.mem_atSlab _ dst)
  have q3 := q2.trans (State.settles_recall q2.steady src).toQuiet
  have q4 := q3.trans (State.quietAt_purgeWrite q3.steady dst).toQuiet
  have m4 := (m2.trans (State.mem_recall _ src)).trans (State.mem_purgeWrite _ dst)
  unfold State.moveSec
  rw [hra]
  dsimp only
  rw [hrb]
  generalize (((s.atSlab src).atSlab dst).recall src).purgeWrite dst = s1 at q4 m4
  have q5 := q4.trans (State.QuietAt.foldl (fun (t : State) (c : Nat × Copy) ht => t.quietAt_dropCopy ht dst (keyAgent c.1) dst)
    (s1.tracked dst) s1 q4.steady).toQuiet
  have m5 := m4.trans (State.Mem.foldl _ (fun (t : State) (c : Nat × Copy) => t.mem_dropCopy (keyAgent c.1) dst) (s1.tracked dst) s1)
  dsimp only
  generalize (s1.tracked dst).foldl (fun s c => s.dropCopy (keyAgent c.1) dst) s1 = s2 at q5 m5
  have q6 := q5.trans (State.quietAt_homeDirty q5.steady dst dst (s2.sector dst)).toQuiet
  have q7 := q6.trans (State.quietAt_setHome q6.steady dst (d := Dir.none) rfl).toQuiet
  have m7 := (m5.trans (State.mem_homeDirty _ dst (s2.sector dst))).trans (State.mem_setHome _ dst Dir.none)
  generalize (s2.homeDirty dst (s2.sector dst)).setHome dst Dir.none = s3 at q7 m7
  refine ⟨{ s3 with mem := s3.mem.writeN dst 64 (s3.mem.readN src 64), poison := s3.poison.erase dst }, rfl, ⟨?_, ?_, ?_⟩, ?_⟩
  · exact (m7.trans (s3.mem_withMem _ (Store.wf_writeN _ _ _ _))).trans (State.mem_withPoison _ _)
  · intro x hx
    rw [← q7.poison]
    exact List.mem_of_mem_erase hx
  · exact ⟨q7.steady.soft, q7.steady.whole⟩
  · rw [← q7.mem]

/-- The sectors of a line, whose two places answer and do not meet, move in order. -/
theorem State.moveSecs_plain {s : State} (hs : s.Steady) (c : MCtx) {p a b : Nat} (hap : a + 256 ≤ b ∨ b + 256 ≤ a)
    (hm : ∀ j < 4, s.memCode p (a + 64 * j) false = none ∧ s.memCode p (b + 64 * j) true = none) (st : Word) (po : Option Report)
    (k : Nat) : k ≤ 4 → ∃ t,
      (List.range k).foldl (fun (r : State × Word × Option Report) j =>
        let q := r.1.moveSec p (a + 64 * j) (b + 64 * j)
        q.2.foldl (fun (r : State × Word × Option Report) e =>
          (r.1.respond c e.2 e.1, -4, r.2.2.or (walkReport e.2 e.1 (BitVec.ofNat 64 e.2)))) (q.1, r.2)) (s, st, po) = (t, st, po) ∧
      s.Shifts t ∧ ∀ y, t.mem.read y = if b ≤ y ∧ y < b + 64 * k then s.mem.read (a + (y - b)) else s.mem.read y := by
  induction k with
  | zero => exact fun _ => ⟨s, rfl, ⟨.refl s, fun _ => id, hs⟩, fun y => (if_neg (by omega)).symm⟩
  | succ k ih =>
    intro hk
    obtain ⟨t, hf, ht, hread⟩ := ih (by omega)
    obtain ⟨ha, hb⟩ := hm k (by omega)
    obtain ⟨t1, hq, ht1, hmem⟩ := t.moveSec_plain ht.steady (State.memCode_mono ht.same ht.poison ha)
      (State.memCode_mono ht.same ht.poison hb)
    refine ⟨t1, ?_, ht.trans ht1, fun y => ?_⟩
    · rw [List.range_succ, List.foldl_append, hf, List.foldl_cons, List.foldl_nil]
      dsimp only
      rw [hq]
      rfl
    · rw [hmem, Store.read_copy]
      by_cases hy : b + 64 * k ≤ y ∧ y < b + 64 * k + 64
      · rw [if_pos hy, if_pos (by omega), hread, if_neg (by omega)]
        congr 1
        omega
      · rw [if_neg hy, hread]
        exact if_congr (by omega) rfl rfl

@[simp] theorem State.endWalk_pkgs (s : State) (m : WalkCmd) (v : Word) (p : Option Report) : (s.endWalk m v p).pkgs = s.pkgs := by
  unfold State.endWalk
  dsimp only
  split <;> rfl

section
variable {s : State} {n : Nat} {m : WalkCmd} {p k : Nat} {x : Desc}

theorem exec_pgMigLine {t : State} (h : s.walks[n]? = some m) (hop : m.op = .mig p k) (ht : s.walkTurn m = true)
    (hx : tget (s.pkg p).descs k = some x) (hr : s.moveLine m x = (t, m.status, m.poison)) :
    exec (.pgMigLine n) s = .next (
      if x.len ≤ x.bound + 256 then (t.setDesc p k { x with bound := x.len, st := .forward }).endWalk m m.status m.poison
      else (t.setDesc p k { x with bound := x.bound + 256 }).setWalk m) := by
  have hme : ({ m with op := .mig p k, status := m.status, poison := m.poison } : WalkCmd) = m := by rw [← hop]
  refine next_of_some (o := s.migLine n) ?_
  unfold State.migLine
  rw [h]
  dsimp only
  rw [hop]
  dsimp only
  rw [ht, hx]
  dsimp only
  rw [hr]
  dsimp only
  rw [hme]
  exact (if_neg (by decide)).trans (apply_ite some (x.len ≤ x.bound + 256) _ _).symm

/-- A migration engine moves a line that answers, and BOUND advances (05 R120). -/
theorem pgMigLine_answers {u : Thread} (h : s.walks[n]? = some m) (hu : tget s.threads m.t = some u) (hop : m.op = .mig p k)
    (ht : s.walkTurn m = true) (hx : tget (s.pkg p).descs k = some x) (hs : s.Steady) {a b : Nat} (ha : x.src + x.bound = a)
    (hb : x.dst + x.bound = b) (hap : a + 256 ≤ b ∨ b + 256 ≤ a)
    (hm : ∀ j < 4, s.memCode (paPkg x.src) (a + 64 * j) false = none ∧ s.memCode (paPkg x.src) (b + 64 * j) true = none) :
    Answers s (.pgMigLine n) fun s' => s'.mem.readN b 256 = s.mem.readN a 256 ∧
      (∀ y, (y < b ∨ b + 256 ≤ y) → s'.mem.read y = s.mem.read y) ∧
      tget (s'.pkg p).descs k = some (if x.len ≤ x.bound + 256 then { x with bound := x.len, st := .forward }
        else { x with bound := x.bound + 256 }) ∧
      (x.len ≤ x.bound + 256 → s'.Done m u m.status) ∧ (x.bound + 256 < x.len → s'.walks[n]? = some m) := by
  obtain ⟨t, hf, hsh, hread⟩ := s.moveSecs_plain hs m.ctx hap hm m.status m.poison 4 le_rfl
  have hr : s.moveLine m x = (t, m.status, m.poison) := by
    unfold State.moveLine
    rw [ha, hb]
    exact hf
  refine ⟨_, exec_pgMigLine h hop ht hx hr, ?_⟩
  have hin : t.mem.readN b 256 = s.mem.readN a 256 := Store.readN_eq fun i hi => by
    rw [hread, if_pos (by omega), Nat.add_sub_cancel_left]
  have hout : ∀ y, (y < b ∨ b + 256 ≤ y) → t.mem.read y = s.mem.read y := fun y hy => by
    rw [hread, if_neg (by omega)]
  have hw : t.walks = s.walks := by rw [hsh.same.same]
  by_cases hlen : x.len ≤ x.bound + 256
  · rw [if_pos hlen, if_pos hlen]
    refine ⟨?_, fun y hy => ?_, ?_, fun _ => State.endWalk_done _ _ (State.seen_thr hsh.same.seen hu), fun hlt => absurd hlt (by omega)⟩
    · rw [State.endWalk_mem]
      exact hin
    · rw [State.endWalk_mem]
      exact hout y hy
    · rw [State.pkg, State.endWalk_pkgs]
      exact t.desc_setDesc p k _
  · rw [if_neg hlen, if_neg hlen]
    exact ⟨hin, hout, t.desc_setDesc p k _, fun hle => absurd hle hlen, fun _ => State.setWalk_here (hw ▸ h) rfl⟩

end

end Sys2Proof.Machine

namespace Sys2Proof.Machine

/-! ## What a cache-walker command does with one sector (05 R117) -/

theorem State.holds_setCopy_sec (s : State) {ag b x sec : Nat} (c : Copy) (hx : x < 2 ^ 52) (hsec : sec < 2 ^ 52) (h : x ≠ sec) :
    (s.setCopy ag sec c).holds b x = s.holds b x := by
  unfold State.holds State.copy State.setCopy
  rw [tget_tset_ne _ _ fun e => h (by rw [← keySec_copyKey b hx, e, keySec_copyKey ag hsec])]

/-- Where only untracked copies of a sector go, those of another sector stay. -/
theorem State.Thins.holds_ne {sec : Nat} {s s' : State} (h : s.Thins sec s') (hs : tsorted s.copies = true) (ag : Nat) {x : Nat}
    (hx : x < 2 ^ 52) (hne : x ≠ sec) : s'.holds ag x = s.holds ag x := by
  unfold State.holds State.copy
  cases hc : tget s.copies (copyKey ag x) with
  | none => rw [h.none hs hc]
  | some c => rw [h.keeps hs hc (.inl (by rwa [keySec_copyKey ag hx]))]

/-- The tracked ones stay too. -/
theorem State.Thins.holds_tracked {sec : Nat} {s s' : State} (h : s.Thins sec s') (hs : tsorted s.copies = true) {ag x : Nat}
    {v : CacheSt} (hv : s.holds ag x = some v) (hr : v ≠ .r) : s'.holds ag x = some v := by
  unfold State.holds State.copy at *
  obtain ⟨c, hc, rfl⟩ := Option.map_eq_some_iff.1 hv
  rw [h.keeps hs hc (.inr hr)]
  rfl

/-- Work for one sector that moves no byte of memory, and leaves the copies of other sectors. -/
structure State.Cleans (sec : Nat) (s s' : State) : Prop where
  same : s.Mem s'
  tends : s.Tends sec s'
  sorted : tsorted s.copies = true → tsorted s'.copies = true
  others : tsorted s.copies = true → ∀ ag x, x < 2 ^ 52 → x ≠ sec → s'.holds ag x = s.holds ag x

theorem State.Cleans.trans {sec : Nat} {a b c : State} (h : a.Cleans sec b) (k : b.Cleans sec c) : a.Cleans sec c :=
  ⟨h.same.trans k.same, h.tends.trans k.tends, k.sorted ∘ h.sorted, fun hs ag x hx hne =>
    (k.others (h.sorted hs) ag x hx hne).trans (h.others hs ag x hx hne)⟩

theorem State.Cleans.of_copies {sec : Nat} {s s' : State} (hm : s.Mem s') (ht : s.Tends sec s') (hc : s'.copies = s.copies) :
    s.Cleans sec s' :=
  ⟨hm, ht, fun h => by rwa [hc], fun _ ag x _ _ => State.holds_copies hc ag x⟩

theorem State.Cleans.refl (sec : Nat) (s : State) : s.Cleans sec s := .of_copies (.refl s) (.refl s sec) rfl

theorem State.cleans_homeDirty (s : State) (sec : Nat) (old : BitVec 512) : s.Cleans sec (s.homeDirty sec old) :=
  .of_copies (s.mem_homeDirty sec old) (s.tends_homeDirty sec sec old) (s.copies_homeDirty sec old)

theorem State.cleans_setHome (s : State) (sec : Nat) {d : Dir} (hd : (s.dirOf sec).Open → d.Open) : s.Cleans sec (s.setHome sec d) :=
  .of_copies (s.mem_setHome sec d) (s.tends_setHome sec hd) rfl

theorem State.cleans_setCopy (s : State) (ag : Nat) {sec : Nat} (c : Copy) (hsec : sec < 2 ^ 52) : s.Cleans sec (s.setCopy ag sec c) :=
  ⟨s.mem_setCopy ag sec c, s.tends_setCopy sec ag sec c, fun h => tsorted_tset h _ _, fun _ _ _ hx hne =>
    s.holds_setCopy_sec c hx hsec hne⟩

theorem State.cleans_purgeWrite {s : State} (hs : tsorted s.copies = true) (sec : Nat) : s.Cleans sec (s.purgeWrite sec) :=
  have h := State.thins_purgeWrite hs sec
  ⟨s.mem_purgeWrite sec, s.tends_purgeWrite sec, h.sorted, fun hs ag _ hx hne => h.holds_ne hs ag hx hne⟩

/-! ### Dirty copies -/

/-- What a dirty copy's state is once it is clean: E from M, S from O. -/
def CacheSt.clean (v : CacheSt) : CacheSt := if v = .m then .e else .s

theorem Dir.share_open {d : Dir} (h : d.Open) (sec ag : Nat) : (d.share sec ag).Open := by
  unfold Dir.share
  split <;> exact h

/-- A dirty copy of a sector that no PRIV agent owns is clean afterwards, and the tracked ones of others stay. -/
theorem State.cleans_cleanCopy {s : State} (hs : tsorted s.copies = true) {sec : Nat} (ho : (s.dirOf sec).Open) {c : Nat × Copy}
    (hc : keySec c.1 = sec) : s.Cleans sec (s.cleanCopy sec c) ∧ (s.cleanCopy sec c).holds (keyAgent c.1) sec = some c.2.st.clean ∧
      ∀ ag v, ag ≠ keyAgent c.1 → s.holds ag sec = some v → v ≠ .r → (s.cleanCopy sec c).holds ag sec = some v := by
  have hsec : sec < 2 ^ 52 := hc ▸ keySec_lt c.1
  have h1 := s.cleans_homeDirty sec c.2.data
  have hold : ∀ ag, (s.homeDirty sec c.2.data).holds ag sec = s.holds ag sec := fun ag => State.holds_copies (s.copies_homeDirty _ _) ag sec
  have hp : ((s.dirOf sec).st == DirSt.p) = false := beq_false_of_ne ho.2
  by_cases hm : c.2.st = .m
  · have he : s.cleanCopy sec c = ((s.homeDirty sec c.2.data).purgeWrite sec).setCopy (keyAgent c.1) sec ⟨.e, 0, 0⟩ := by
      unfold State.cleanCopy
      dsimp only
      rw [hp, hm]
      rfl
    have hth := State.thins_purgeWrite (h1.sorted hs) sec
    rw [he]
    refine ⟨(h1.trans (State.cleans_purgeWrite (h1.sorted hs) sec)).trans (State.cleans_setCopy _ _ _ hsec), ?_, fun ag v hne hv hr => ?_⟩
    · rw [State.holds_setCopy, CacheSt.clean, if_pos hm]
    · rw [State.holds_setCopy_ne _ _ hne]
      exact hth.holds_tracked (h1.sorted hs) ((hold ag).trans hv) hr
  · have he : s.cleanCopy sec c = ((s.homeDirty sec c.2.data).setCopy (keyAgent c.1) sec ⟨.s, 0, 0⟩).setHome sec
        (({ s.dirOf sec with st := .s, owner := 0 } : Dir).share sec (keyAgent c.1)) := by
      unfold State.cleanCopy
      dsimp only
      rw [hp, beq_false_of_ne hm]
      rfl
    have hd : (({ s.dirOf sec with st := .s, owner := 0 } : Dir).share sec (keyAgent c.1)).Open :=
      Dir.share_open (d := { s.dirOf sec with st := .s, owner := 0 }) ⟨ho.1, (nofun : DirSt.s ≠ .p)⟩ sec _
    rw [he]
    refine ⟨(h1.trans (State.cleans_setCopy _ _ _ hsec)).trans (State.cleans_setHome _ sec fun _ => hd), ?_, fun ag v hne hv _ => ?_⟩
    · rw [State.holds_setHome, State.holds_setCopy, CacheSt.clean, if_neg hm]
    · rw [State.holds_setHome, State.holds_setCopy_ne _ _ hne]
      exact (hold ag).trans hv

theorem CacheSt.clean_tracked (v : CacheSt) : v.clean ≠ .r := by
  unfold CacheSt.clean
  split <;> decide

/-- Dirty copies of a sector are cleaned one after the other. -/
theorem State.cleans_cleanCopies {sec : Nat} (cs : List (Nat × Copy)) : ∀ s : State, tsorted s.copies = true → (s.dirOf sec).Open →
    (∀ c ∈ cs, keySec c.1 = sec) → cs.Pairwise (fun a b => a.1 ≠ b.1) →
    let s' := cs.foldl (fun s c => s.cleanCopy sec c) s
    s.Cleans sec s' ∧ (∀ c ∈ cs, s'.holds (keyAgent c.1) sec = some c.2.st.clean) ∧
      ∀ ag v, (∀ c ∈ cs, ag ≠ keyAgent c.1) → s.holds ag sec = some v → v ≠ .r → s'.holds ag sec = some v := by
  induction cs with
  | nil => exact fun s _ _ _ _ => ⟨.refl sec s, fun c hc => absurd hc List.not_mem_nil, fun _ _ _ hv _ => hv⟩
  | cons c t ih =>
    intro s hs ho hsec hne
    obtain ⟨hct, ht⟩ := List.pairwise_cons.1 hne
    obtain ⟨h1, hclean, hrest⟩ := State.cleans_cleanCopy hs ho (hsec c List.mem_cons_self)
    obtain ⟨h2, hcleans, hrests⟩ := ih (s.cleanCopy sec c) (h1.sorted hs) (h1.tends.opened ho sec ho)
      (fun x hx => hsec x (List.mem_cons_of_mem c hx)) ht
    refine ⟨h1.trans h2, fun x hx => ?_, fun ag v hag hv hr => ?_⟩
    · rcases List.mem_cons.1 hx with rfl | hx
      · refine hrests _ _ (fun y hy he => hct y hy ?_) hclean (CacheSt.clean_tracked _)
        rw [← copyKey_key x.1, ← copyKey_key y.1, he, hsec x List.mem_cons_self, hsec y (List.mem_cons_of_mem x hy)]
      · exact hcleans x hx
    · exact hrests ag v (fun x hx => hag x (List.mem_cons_of_mem c hx)) (hrest ag v (hag c List.mem_cons_self) hv hr) hr

/-! ### Slabs, and copies that are removed -/

theorem State.slabClean_eq {s : State} (h : s.soft = []) (sec : Nat) : ∃ b, s.slabClean sec = { s with slabs := b } := by
  unfold State.slabClean
  dsimp only
  split
  · rw [if_pos (by rw [h]; rfl)]
    exact ⟨_, rfl⟩
  · exact ⟨s.slabs, rfl⟩

theorem State.slabDrop_eq (s : State) (sec : Nat) : ∃ b, s.slabDrop sec = { s with slabs := b } := by
  unfold State.slabDrop
  dsimp only
  split
  · split
    · exact ⟨_, rfl⟩
    · exact ⟨s.slabs, rfl⟩
  · exact ⟨s.slabs, rfl⟩

theorem State.cleans_withSlabs (s : State) (sec : Nat) (b : List (Nat × SlabLine)) : s.Cleans sec { s with slabs := b } :=
  .of_copies (s.mem_withSlabs b) (.of_dir rfl rfl id rfl) rfl

theorem Dir.outside_open {d : Dir} (h : d.Open) (sc : WScope) (die sec : Nat) : (d.outside sc die sec).Open := h

/-- The record of a sector once copies of it are removed. -/
def Dir.afterInval (d : Dir) (owner : Bool) : Dir :=
  let none_ := d.dies == 0 && d.pkgs == 0
  match d.st with
  | .p | .ex => if owner then { d with st := .i, owner := 0 } else d
  | .o => if owner then { d with st := if none_ then .i else .s, owner := 0 } else d
  | .s => if none_ then Dir.none else d
  | _ => d

theorem Dir.afterInval_open {d : Dir} (h : d.Open) (owner : Bool) : (d.afterInval owner).Open := by
  have hst : ∀ st, st ≠ DirSt.p → ({ d with st := st, owner := 0 } : Dir).Open := fun _ hst => ⟨h.1, hst⟩
  have hn : Dir.none.Open := ⟨rfl, nofun⟩
  unfold Dir.afterInval
  dsimp only
  split
  case h_1 | h_2 =>
    split
    · exact hst _ nofun
    · exact h
  case h_3 =>
    split
    · refine hst _ ?_
      split <;> exact nofun
    · exact h
  case h_4 =>
    split
    · exact hn
    · exact h
  case h_5 => exact h

/-- The copies of a sector within a scope. -/
def copyInScope (sc : WScope) (die sec : Nat) (c : Nat × Copy) : Bool := keySec c.1 == sec && scopeHolds sc die (agentDie (keyAgent c.1))

/-- The removal of a sector's copies within a scope, in its parts. -/
theorem State.invalSec_eq (s : State) (sc : WScope) (die sec : Nat) : ∃ (s1 s2 s3 : State) (owner : Bool),
    s1 = (s.copies.filter (copyInScope sc die sec)).foldl (fun s c => s.dropCopy (keyAgent c.1) sec) s ∧
    s2 = (List.range 16).foldl (fun s p => if scopeHolds sc die (p * 16 + slabOf sec % 16) then s.dropReplica p sec else s) s1 ∧
    s3 = { s2 with icache := s3.icache } ∧
    s.invalSec sc die sec = s3.setHome sec (((s3.dirOf sec).outside sc die sec).afterInval owner) :=
  ⟨_, _, _, _, rfl, rfl, rfl, rfl⟩

/-- A sector's copies within a scope go, and no others. -/
theorem State.cleans_invalSec {s : State} (hs : tsorted s.copies = true) (sc : WScope) (die sec : Nat) :
    s.Cleans sec (s.invalSec sc die sec) ∧
      (sec < 2 ^ 52 → ∀ ag, scopeHolds sc die (agentDie ag) = true → (s.invalSec sc die sec).holds ag sec = none) := by
  obtain ⟨s1, s2, s3, owner, h1, h2, h3, he⟩ := s.invalSec_eq sc die sec
  have hkey : ∀ c, copyInScope sc die sec c = true → keySec c.1 = sec := fun c hc => beq_iff_eq.1 (Bool.and_eq_true_iff.1 hc).1
  have hcopies : s1.copies = s.copies.filter fun x => !copyInScope sc die sec x := h1 ▸ State.copies_drop_filter hs hkey
  have hget : ∀ ag x, s1.holds ag x = ((s.copy ag x).filter fun c => !copyInScope sc die sec (copyKey ag x, c)).map (·.st) := fun ag x => by
    unfold State.holds State.copy
    rw [hcopies, tget_filter_sorted hs]
  have c1 : s.Cleans sec s1 := by
    refine ⟨?_, ?_, fun _ => ?_, fun _ ag x hx hne => ?_⟩
    · rw [h1]
      exact State.Mem.foldl _ (fun (t : State) (c : Nat × Copy) => t.mem_dropCopy (keyAgent c.1) sec) _ s
    · rw [h1]
      exact s.tends_drops sec sec _
    · rw [hcopies]
      exact tsorted_filter hs _
    · have hout : ∀ c, copyInScope sc die sec (copyKey ag x, c) = false := fun c => by
        rw [copyInScope, keySec_copyKey ag hx, beq_false_of_ne hne, Bool.false_and]
      rw [hget, State.holds]
      cases s.copy ag x with
      | none => rfl
      | some c => rw [Option.filter_some, hout]; rfl
  have h12 : s1.Mem s2 ∧ s1.Tends sec s2 ∧ s2.copies = s1.copies := by
    rw [h2]
    refine List.foldlRecOn (motive := fun t => s1.Mem t ∧ s1.Tends sec t ∧ t.copies = s1.copies) _ _
      ⟨.refl s1, .refl s1 sec, rfl⟩ fun t ⟨hm, ht, hc⟩ p _ => ?_
    split
    · exact ⟨hm.trans (t.mem_dropReplica p sec), ht.trans (t.tends_dropReplica sec p sec), (t.copies_dropReplica p sec).trans hc⟩
    · exact ⟨hm, ht, hc⟩
  obtain ⟨m2, t2, hc2⟩ := h12
  have hc3 : s3.copies = s2.copies := by rw [h3]
  have c3 : s2.Cleans sec s3 := by
    rw [h3]
    exact .of_copies (s2.mem_withCode _) (.of_dir rfl rfl id rfl) rfl
  have c4 := s3.cleans_setHome sec (d := ((s3.dirOf sec).outside sc die sec).afterInval owner) fun h =>
    Dir.afterInval_open (Dir.outside_open h sc die sec) owner
  rw [he]
  refine ⟨((c1.trans (.of_copies m2 t2 hc2)).trans c3).trans c4, fun hsec ag hag => ?_⟩
  have hin : ∀ c, copyInScope sc die sec (copyKey ag sec, c) = true := fun c => by
    rw [copyInScope, keySec_copyKey ag hsec, keyAgent_copyKey ag hsec, beq_self_eq_true, hag, Bool.and_self]
  rw [State.holds_setHome, State.holds_copies (hc3.trans hc2), hget]
  cases s.copy ag sec with
  | none => rfl
  | some c => rw [Option.filter_some, hin]; rfl

end Sys2Proof.Machine

namespace Sys2Proof.Machine

/-! ## A sector, and a line, of a cache-walker command (05 R117) -/

/-- What an agent's copy of a sector comes to be: gone, or clean. -/
def FlushTo (inval : Bool) (h v : Option CacheSt) : Prop :=
  if inval then v = none
  else ((h = some .m ∨ h = some .e) ∧ v = some .e) ∨ ((h = some .o ∨ h = some .s) ∧ v = some .s)

theorem FlushTo.again {inval : Bool} {h v : Option CacheSt} (k : FlushTo inval h v) : FlushTo inval v v := by
  cases inval with
  | true => exact k
  | false =>
    rcases k with ⟨_, rfl⟩ | ⟨_, rfl⟩
    · exact .inl ⟨.inr rfl, rfl⟩
    · exact .inr ⟨.inr rfl, rfl⟩

/-- The dirty copies of a sector within a scope. -/
def State.dirtyIn (s : State) (sc : WScope) (die sec : Nat) : List (Nat × Copy) :=
  (s.tracked sec).filter fun c => c.2.st.dirty && scopeHolds sc die (agentDie (keyAgent c.1))

theorem State.mem_dirtyIn {s : State} {sc : WScope} {die sec : Nat} {c : Nat × Copy} :
    c ∈ s.dirtyIn sc die sec ↔
      c ∈ s.copies ∧ keySec c.1 = sec ∧ c.2.st ≠ .r ∧ c.2.st.dirty = true ∧ scopeHolds sc die (agentDie (keyAgent c.1)) = true := by
  rw [State.dirtyIn, List.mem_filter, State.mem_tracked, Bool.and_eq_true]
  tauto

theorem State.dirtyIn_keys {s : State} (hs : tsorted s.copies = true) (sc : WScope) (die sec : Nat) :
    (s.dirtyIn sc die sec).Pairwise fun a b => a.1 ≠ b.1 :=
  ((((tsorted_iff _).1 hs).filter _).filter _).imp fun h => Nat.ne_of_lt h

/-- Once the dirty copies within a scope are clean, those within it are. -/
theorem State.cleans_dirtyIn {s : State} (hs : tsorted s.copies = true) {sec : Nat} (ho : (s.dirOf sec).Open) (sc : WScope) (die : Nat) :
    let s' := (s.dirtyIn sc die sec).foldl (fun s c => s.cleanCopy sec c) s
    s.Cleans sec s' ∧ (sec < 2 ^ 52 → ∀ ag, scopeHolds sc die (agentDie ag) = true → ∀ v, FlushTo false (s.holds ag sec) v →
      s'.holds ag sec = v) := by
  obtain ⟨hc, hclean, hrest⟩ := State.cleans_cleanCopies (s.dirtyIn sc die sec) s hs ho
    (fun c hc => (State.mem_dirtyIn.1 hc).2.1) (s.dirtyIn_keys hs sc die sec)
  refine ⟨hc, fun hsec ag hag v hv => ?_⟩
  have dirty : ∀ st, s.holds ag sec = some st → st ≠ .r → st.dirty = true →
      ((s.dirtyIn sc die sec).foldl (fun s c => s.cleanCopy sec c) s).holds ag sec = some st.clean := fun st hst hr hd => by
    obtain ⟨c, hget, rfl⟩ := Option.map_eq_some_iff.1 hst
    have h := hclean (copyKey ag sec, c) (State.mem_dirtyIn.2 ⟨mem_of_tget hget, keySec_copyKey ag hsec, hr, hd, by
      rwa [keyAgent_copyKey ag hsec]⟩)
    rwa [keyAgent_copyKey ag hsec] at h
  have tidy : ∀ st, s.holds ag sec = some st → st ≠ .r → st.dirty = false →
      ((s.dirtyIn sc die sec).foldl (fun s c => s.cleanCopy sec c) s).holds ag sec = some st := fun st hst hr hd => by
    refine hrest ag st (fun c hc he => ?_) hst hr
    obtain ⟨hmem, hks, _, hcd, _⟩ := State.mem_dirtyIn.1 hc
    obtain ⟨x, hget, rfl⟩ := Option.map_eq_some_iff.1 hst
    have hkey : c.1 = copyKey ag sec := by rw [he, ← hks, copyKey_key]
    have hx : tget s.copies c.1 = some x := hkey ▸ hget
    rw [tget_of_mem hs hmem] at hx
    rw [Option.some.inj hx, hd] at hcd
    cases hcd
  rcases hv with ⟨hm | he, rfl⟩ | ⟨ho | hs, rfl⟩
  · exact dirty .m hm nofun rfl
  · exact tidy .e he nofun rfl
  · exact dirty .o ho nofun rfl
  · exact tidy .s hs nofun rfl

/-- A sector is processed within a scope. -/
theorem State.cleans_flushSec {s : State} (hs : tsorted s.copies = true) (hsoft : s.soft = []) {sec : Nat} (ho : (s.dirOf sec).Open)
    (inval : Bool) (sc : WScope) (die : Nat) :
    s.Cleans sec (s.flushSec inval sc die sec) ∧ (sec < 2 ^ 52 → ∀ ag, scopeHolds sc die (agentDie ag) = true →
      ∀ v, FlushTo inval (s.holds ag sec) v → (s.flushSec inval sc die sec).holds ag sec = v) := by
  obtain ⟨h1, hclean⟩ := State.cleans_dirtyIn hs ho sc die
  generalize hs1 : (s.dirtyIn sc die sec).foldl (fun s c => s.cleanCopy sec c) s = s1 at h1 hclean
  obtain ⟨b, hb⟩ : ∃ b, (if (scopeHolds sc die (slabOf sec) || !(s.dirtyIn sc die sec).isEmpty) = true then s1.slabClean sec else s1) =
      { s1 with slabs := b } := by
    split
    · exact State.slabClean_eq (h1.tends.sound hsoft) sec
    · exact ⟨s1.slabs, rfl⟩
  have h2 := h1.trans (s1.cleans_withSlabs sec b)
  have he : s.flushSec inval sc die sec = if inval then
      (if scopeHolds sc die (slabOf sec) then (({ s1 with slabs := b } : State).invalSec sc die sec).slabDrop sec
        else ({ s1 with slabs := b } : State).invalSec sc die sec)
      else { s1 with slabs := b } := by
    rw [← hb, ← hs1]
    unfold State.flushSec
    rw [State.combine_whole ho.1]
    rfl
  rw [he]
  cases inval with
  | false => exact ⟨h2, hclean⟩
  | true =>
    obtain ⟨h3, hnone⟩ := State.cleans_invalSec (h2.sorted hs) sc die sec
    generalize ({ s1 with slabs := b } : State).invalSec sc die sec = s3 at h3 hnone
    obtain ⟨b', hb'⟩ := s3.slabDrop_eq sec
    rw [if_pos rfl, hb']
    split
    · exact ⟨(h2.trans h3).trans (s3.cleans_withSlabs sec b'), fun hx ag hag v hv => (hnone hx ag hag).trans (Eq.symm hv)⟩
    · exact ⟨h2.trans h3, fun hx ag hag v hv => (hnone hx ag hag).trans (Eq.symm hv)⟩

end Sys2Proof.Machine

namespace Sys2Proof.Machine

/-- A sector of a line that answers: no partial is outstanding in it and no PRIV agent owns it. -/
def State.Answering (s : State) (pkg sec : Nat) : Prop := s.memCode pkg sec false = none ∧ (s.dirOf sec).Open

theorem State.Cleans.answering {s s' : State} {sec : Nat} (h : s.Cleans sec s') (ho : (s.dirOf sec).Open) {pkg x : Nat}
    (hx : s.Answering pkg x) : s'.Answering pkg x := by
  have hs := h.same.same
  have hp : s'.pkgs = s.pkgs := by rw [hs]
  have hu : s'.units = s.units := by rw [hs]
  have hl : s'.late = s.late := by rw [hs]
  exact ⟨(State.memCode_congr hp hu h.tends.poison hl (State.seen_cur h.same.seen) pkg x false).trans hx.1, h.tends.opened ho x hx.2⟩

/-- Some sectors of a line, each where it is forwarded to, are processed in order. -/
theorem State.flushSecs_plain (c : MCtx) (inval : Bool) (sc : WScope) (base : Nat) (va st : Word) (p : Option Report) (f : Nat → Nat)
    (l : List Nat) : ∀ s : State, tsorted s.copies = true → s.soft = [] → (∀ i, s.fwd (base + 64 * i) = f i) →
    (∀ i ∈ l, s.Answering (pkgOfDie c.die) (f i)) → ∃ t,
      l.foldl (fun (r : State × Word × Option Report) i =>
        let sec := r.1.fwd (base + 64 * i)
        let s1 := r.1.flushSec inval sc c.die sec
        match s1.memCode (pkgOfDie c.die) sec false with
        | some code => (s1.respond c sec code, -4, r.2.2.or (walkReport sec code (va + BitVec.ofNat 64 (64 * i))))
        | none => (s1, r.2)) (s, st, p) = (t, st, p) ∧ s.Mem t ∧ t.mem = s.mem ∧
      ∀ x < 2 ^ 52, ∀ ag, scopeHolds sc c.die (agentDie ag) = true → ∀ v, FlushTo inval (s.holds ag x) v →
        (x ∈ l.map f ∨ s.holds ag x = v) → t.holds ag x = v := by
  induction l with
  | nil => exact fun s _ _ _ _ => ⟨s, rfl, .refl s, rfl, fun x _ ag _ v _ h => h.resolve_left List.not_mem_nil⟩
  | cons i l ih =>
    intro s hs hsoft hfwd hans
    have hi := hans i List.mem_cons_self
    obtain ⟨hc, hto⟩ := State.cleans_flushSec hs hsoft hi.2 inval sc c.die
    have hpk : (s.flushSec inval sc c.die (f i)).pkgs = s.pkgs := by rw [hc.same.same]
    obtain ⟨t, hf, hm, hmem, hres⟩ := ih (s.flushSec inval sc c.die (f i)) (hc.sorted hs) (hc.tends.sound hsoft)
      (fun j => (State.fwd_congr hpk _).trans (hfwd j)) fun j hj => hc.answering hi.2 (hans j (List.mem_cons_of_mem i hj))
    refine ⟨t, ?_, hc.same.trans hm, hmem.trans hc.tends.mem, fun x hx ag hag v hv h => ?_⟩
    · rw [List.foldl_cons]
      dsimp only
      rw [hfwd, (hc.answering hi.2 hi).1]
      exact hf
    · by_cases hxi : x = f i
      · subst hxi
        have hv' := hto hx ag hag v hv
        exact hres _ hx ag hag v (by rw [hv']; exact hv.again) (.inr hv')
      · have hsame := hc.others hs ag x hx hxi
        refine hres x hx ag hag v (by rwa [hsame]) (h.imp (fun h => ?_) fun h => hsame.trans h)
        exact (List.mem_cons.1 h).resolve_left hxi

/-- A line whose sectors answer is processed within a scope. -/
theorem State.flushLine_plain {s : State} (hs : tsorted s.copies = true) (hsoft : s.soft = []) (c : MCtx) (inval : Bool) (sc : WScope)
    (pa : Nat) (va st : Word) (p : Option Report)
    (h : ∀ x ∈ (List.range 4).map fun i => s.fwd (lineOf pa + 64 * i), s.Answering (pkgOfDie c.die) x) :
    ∃ t, s.flushLine c inval sc pa va st p = (t, st, p) ∧ s.Mem t ∧ t.mem = s.mem ∧
      ∀ x ∈ (List.range 4).map fun i => s.fwd (lineOf pa + 64 * i), x < 2 ^ 52 →
        ∀ ag, scopeHolds sc c.die (agentDie ag) = true → ∀ v, FlushTo inval (s.holds ag x) v → t.holds ag x = v := by
  obtain ⟨t, hf, hm, hmem, hres⟩ := State.flushSecs_plain c inval sc (lineOf pa) va st p (fun i => s.fwd (lineOf pa + 64 * i))
    (List.range 4) s hs hsoft (fun _ => rfl) fun i hi => h _ (List.mem_map_of_mem hi)
  exact ⟨t, hf, hm, hmem, fun x hx hlt ag hag v hv => hres x hlt ag hag v hv (.inl hx)⟩

section
variable {s s1 t : State} {n : Nat} {m : WalkCmd} {inval : Bool} {sc : WScope} {va len pa leaf : Nat}

/-- A walk whose turn it is, and whose page is translated, flushes a line and goes on with the next, or ends (05 R117). -/
theorem exec_cwWalkComplete (h : s.walks[n]? = some m) (hop : m.op = .cw inval sc none va len)
    (hgo : m.sent = true ∨ (s.walkTurn m = true ∧ s.lineAway m sc va = false)) (hx : s.walkXlate m va = (s1, .ok pa leaf))
    (hr : s1.flushLine m.ctx inval sc pa (BitVec.ofNat 64 ((va + m.pos) / 256 * 256)) m.status m.poison = (t, m.status, m.poison)) :
    exec (.cwWalkComplete n) s = .next (
      if va + len ≤ (va + m.pos) / 256 * 256 + 256 then t.endWalk m m.status m.poison
      else t.setWalk { m with
        pos := (va + m.pos) / 256 * 256 + 256 - va, sent := false
        frame := if ((va + m.pos) / 256 * 256 + 256) % 4096 = 0 then none else some (pa / 4096 * 4096) }) := by
  have hturn : (!m.sent && !s.walkTurn m) = false := by rcases hgo with hgo | ⟨hgo, _⟩ <;> simp [hgo]
  have haway : (!m.sent && s.lineAway m sc va) = false := by rcases hgo with hgo | ⟨_, hgo⟩ <;> simp [hgo]
  refine next_of_some (o := s.cwDone n) ?_
  unfold State.cwDone
  rw [h]
  dsimp only
  split
  next i sc' bar va' len' hop' =>
    rw [hop] at hop'
    cases hop'
    rw [hturn, haway]
    simp only [Bool.false_eq_true, if_false, State.walkLine, hx, hr]
    by_cases hlen : va + len ≤ (va + m.pos) / 256 * 256 + 256
    · simp only [if_pos hlen]
    · simp only [if_neg hlen]
  next hne => exact absurd hop (hne _ _ _ _ _)

end

end Sys2Proof.Machine

namespace Sys2Proof.Machine

/-! ## Walker commands as they complete -/

theorem State.seen_walkXlate (s : State) (m : WalkCmd) (va : Nat) : s.Seen (s.walkXlate m va).1 := by
  unfold State.walkXlate
  split
  · exact .refl s
  · exact s.seen_xlate m.ctx _ .load

@[simp] theorem State.endWalk_holds (s : State) (m : WalkCmd) (v : Word) (p : Option Report) (ag x : Nat) :
    (s.endWalk m v p).holds ag x = s.holds ag x := State.holds_copies (s.endWalk_copies m v p) ag x

@[simp] theorem State.endWalk_tlbs (s : State) (m : WalkCmd) (v : Word) (p : Option Report) :
    (s.endWalk m v p).tlbs = s.tlbs ∧ (s.endWalk m v p).walkCache = s.walkCache := by
  unfold State.endWalk
  dsimp only
  split <;> exact ⟨rfl, rfl⟩

section
variable {s s1 : State} {n : Nat} {m : WalkCmd} {u : Thread} {inval : Bool} {sc : WScope} {va len pa leaf table e lvl : Nat}

/-- A line of a cache-walker command whose sectors answer (05 R117). -/
theorem cwWalkComplete_answers (h : s.walks[n]? = some m) (hu : tget s.threads m.t = some u) (hop : m.op = .cw inval sc none va len)
    (hgo : m.sent = true ∨ (s.walkTurn m = true ∧ s.lineAway m sc va = false)) (hx : s.walkXlate m va = (s1, .ok pa leaf))
    (hs : tsorted s1.copies = true) (hsoft : s1.soft = [])
    (hans : ∀ x ∈ (List.range 4).map fun i => s1.fwd (lineOf pa + 64 * i), s1.Answering (pkgOfDie m.die) x) :
    Answers s (.cwWalkComplete n) fun s' => s'.mem = s1.mem ∧
      (va + len ≤ (va + m.pos) / 256 * 256 + 256 → s'.Done m u m.status) ∧
      ((va + m.pos) / 256 * 256 + 256 < va + len → s'.walks[n]? = some { m with
        pos := (va + m.pos) / 256 * 256 + 256 - va, sent := false
        frame := if ((va + m.pos) / 256 * 256 + 256) % 4096 = 0 then none else some (pa / 4096 * 4096) }) ∧
      ∀ x ∈ (List.range 4).map fun i => s1.fwd (lineOf pa + 64 * i), x < 2 ^ 52 →
        ∀ ag, scopeHolds sc m.die (agentDie ag) = true → ∀ v, FlushTo inval (s1.holds ag x) v → s'.holds ag x = v := by
  obtain ⟨t, hf, hm, hmem, hres⟩ := State.flushLine_plain hs hsoft m.ctx inval sc pa
    (BitVec.ofNat 64 ((va + m.pos) / 256 * 256)) m.status m.poison hans
  have hseen : s.Seen t := by
    have h1 := s.seen_walkXlate m va
    rw [hx] at h1
    exact h1.trans hm.seen
  have hw : t.walks = s.walks := by rw [hseen.same]
  refine ⟨_, exec_cwWalkComplete h hop hgo hx hf, ?_⟩
  split
  next hlen =>
    refine ⟨(t.endWalk_mem _ _ _).trans hmem, fun _ => State.endWalk_done _ _ (State.seen_thr hseen hu), fun hlt => absurd hlt (by omega),
      fun x hx hlt ag hag v hv => ?_⟩
    rw [State.endWalk_holds]
    exact hres x hx hlt ag hag v hv
  next hlen => exact ⟨hmem, fun hle => absurd hle hlen, fun _ => State.setWalk_here ((congrArg (·[n]?) hw).trans h) rfl, hres⟩

/-- A translation that an invalidation names, by its fields (04 R95). -/
theorem Tlb.named_iff (x : Tlb) (k : TlbKind) (va n : Nat) (asid : BitVec 16) : x.named k va n asid = true ↔
    let meets := fun (n : Nat) => (x.va < va % 2 ^ 56 + n ∧ va % 2 ^ 56 < x.va + x.size) ∨ x.va + 2 ^ 56 < va % 2 ^ 56 + n
    match k with
    | .va => x.leaf.getLsbD 6 = false ∧ x.asid = asid ∧ meets 1
    | .rng => x.leaf.getLsbD 6 = false ∧ x.asid = asid ∧ meets (n * 4096)
    | .asid => x.leaf.getLsbD 6 = false ∧ x.asid = asid
    | .all => True
    | .vag => meets 1 := by
  have hg : entBit x.leaf.toNat 6 = x.leaf.getLsbD 6 := rfl
  cases k <;> simp only [Tlb.named, Tlb.meets, hg, Bool.and_eq_true, Bool.or_eq_true, Bool.not_eq_true', beq_iff_eq, decide_eq_true_eq,
    and_assoc]

/-- An invalidation removes the translations that it names, and with them the walk caches of its scope (04 R95, R96). -/
theorem tlbInvComplete_answers {k : TlbKind} {asid : BitVec 16} (h : s.walks[n]? = some m) (hu : tget s.threads m.t = some u)
    (hop : m.op = .tlb k sc va len asid) (hf : s.framed m = false) (hst : s.stores = []) :
    Answers s (.tlbInvComplete n) fun s' => s'.Done m u 0 ∧ s'.mem = s.mem ∧
      (∀ x, x ∈ s'.walkCache ↔ x ∈ s.walkCache ∧ ¬scopeHolds sc m.die x.die = true) ∧
      ∀ x, x ∈ s'.tlbs ↔ x ∈ s.tlbs ∧ ¬(scopeHolds sc m.die x.held.onDie = true ∧ x.named k va len asid = true) := by
  refine ⟨_, exec_tlbInvComplete h hop hf, ?_⟩
  rw [State.dropTlbs_idle hst]
  obtain ⟨htlbs, hcache⟩ := State.endWalk_tlbs { s with
    tlbs := s.tlbs.filter fun x => !(scopeHolds sc m.die x.held.onDie && x.named k va len asid)
    walkCache := s.walkCache.filter fun x => !scopeHolds sc m.die x.die } m 0 none
  refine ⟨State.endWalk_done _ _ ⟨u, hu, u.noted_refl⟩, State.endWalk_mem _ _ _ _, fun x => ?_, fun x => ?_⟩
  · rw [hcache, List.mem_filter, Bool.not_eq_true', Bool.not_eq_true]
  · rw [htlbs, List.mem_filter, Bool.not_eq_true', ← Bool.not_eq_true, Bool.and_eq_true]

end

/-- Settles O52: a command's turn and its part, each part's work on memory and copies, and the end of the command. -/
theorem walkerCompletions : Obligations.WalkerCompletions := by
  refine ⟨fun s n m u h hu => ?_, fun s n h => exec_walk_none h⟩
  intro pkg steady plain ends within
  have hscope : ∀ sc e, within sc e ↔ scopeHolds sc m.die e = true := fun sc e => (scopeHolds_iff sc m.die e).symm
  have hplain : ∀ {a}, plain a → s.Plain (m.die / 16) a := fun ⟨hf, hc, hp⟩ => ⟨hf, hc, hp⟩
  have hsteady : steady → s.Steady := fun ⟨h1, h2⟩ => ⟨h1, h2⟩
  refine ⟨exec_walk_turnless h, exec_walk_framed h, fun inval sc bar va len hop hsent ht ha => ?_,
    fun inval sc va len s1 pa leaf hop hgo hx hs hsoft hsecs => ?_,
    fun p k x hop ht hx hst hap _ _ hm => pgMigLine_answers h hu hop ht hx (hsteady hst) rfl rfl hap hm,
    fun k sc va len asid hop hf hst => ?_, fun va leaf table e hop hf ht hst hsd he hok h0 h1 h9 hap hb _ _ hl htab => ?_,
    fun va leaf lvl e hop hf ht hst hsd he h0 h1 hreg _ hl => ?_, fun va leaf e hop hf ht => ?_⟩
  · exact ⟨_, exec_cwWalkComplete_sends h hop hsent ht ha, State.setWalk_here h rfl, rfl, rfl⟩
  · obtain ⟨s', hexec, hmem, hend, hnext, hres⟩ := cwWalkComplete_answers h hu hop hgo hx hs hsoft fun x hx =>
      ⟨(hsecs x hx).1, (hsecs x hx).2.2, (hsecs x hx).2.1⟩
    refine ⟨s', hexec, hmem, hend, hnext, fun x hx hlt ag hag => ?_⟩
    have hto := hres x hx hlt ag ((hscope sc _).1 hag)
    refine ⟨fun hi => ?_, fun hi hv => ?_, fun hi hv => ?_⟩ <;> subst hi
    · exact hto none rfl
    · exact hto _ (.inl ⟨hv, rfl⟩)
    · exact hto _ (.inr ⟨hv, rfl⟩)
  · obtain ⟨s', hexec, hdone, hmem, hcache, htlbs⟩ := tlbInvComplete_answers h hu hop hf hst
    refine ⟨s', hexec, hdone, hmem, fun x => ?_, fun x => ?_⟩
    · rw [hcache, hscope]
    · exact (htlbs x).trans (and_congr_right' (not_congr (and_congr (hscope sc _).symm (x.named_iff k va len asid))))
  · obtain ⟨t, hend, hm, hleaf, htable, hrest⟩ := State.splitEnd_plain (m := m) (va := va) (hsteady hsd) hst he hok h0 h1 h9 hap hb
      (hplain hl) fun i hi => hplain (htab i hi)
    obtain ⟨hdone, hlock⟩ := State.endWalk_unlocks (leaf := leaf) 0 (t.errReport m 0) hm hu
    refine ⟨_, exec_pgSplitComplete h hop hf ht hend, hdone, hlock, ?_⟩
    rw [State.endWalk_mem]
    exact ⟨hleaf, htable, hrest⟩
  · obtain ⟨t, hend, hm, hleaf, hrest⟩ := State.collEnd_plain (m := m) (va := va) (lvl := lvl) (hsteady hsd) hst he h0 h1 hreg (hplain hl)
    obtain ⟨hdone, hlock⟩ := State.endWalk_unlocks (leaf := leaf) 0 (t.errReport m 0) hm hu
    refine ⟨_, exec_pgCollComplete h hop hf ht hend, hdone, hlock, ?_⟩
    rw [State.endWalk_mem]
    exact ⟨hleaf, hrest⟩
  · exact ⟨_, exec_pgSplitComplete_none h hop hf ht, (State.endWalk_unlocks (leaf := leaf) _ _ (.refl s) hu).1, State.endWalk_mem _ _ _ _⟩

end Sys2Proof.Machine

namespace Sys2Proof.Machine

/-! ## A chunk whose bytes a migration descriptor forwards to two sectors (05 R108, R119; 06 R143)

R143 has a chunk bring the bytes of memory. The claim keeps a chunk inside one 64-byte sector of the address that translation gives; the
bytes stand at the address that this one is forwarded to, which is in one sector only where a descriptor's DST and SRC agree modulo 64.
No `pg.mig` makes a descriptor that does not (05 R120), but the claim is of every state, and an RDUP read takes bytes of one sector. -/

/-- A copy of four bytes at 0x1000 into scratchpad offset 32, with no object to count them. -/
def straddleCmd : CopyCmd :=
  { id := 2, t := 1, wg := 1, kind := .cin, maddr := 0x1000, soff := 32, boff := noBar, rowBytes := 4, rows := 1, mstride := 0, ss := 4,
    dmask := 0, mask := [], asid := 0, ptBase := 1, mode := true, row := 0, pos := 0, packed := 0, poison := none, lost := [], moved := [] }

/-- A state in which the page of 0x1000 is mapped RDUP (leaf 0xC07, which a TLB serves to the issue in progress), and its first sector is
forwarded to 0x203E: of the copy's four bytes two stand in the sector before 0x2040 and two in the one after, of which the first is 1. -/
def straddle : State :=
  { State.reset with
    mem := [(0x2040, 1)]
    pkgs := [(0, { Pkg.init with descs := [(0, ⟨.forward, 0x1000, 0x203E, 64, 64⟩)] })]
    tlbs := [⟨.data 128, 0, 0x1000, 4096, 0xC07, 0x1000, 1⟩]
    gang := some ⟨[], [], [], 0, 0, 1, false, []⟩
    wgs := [(1, { WG.init with core := 128, die := 2, spPages := 1, st := .run })]
    cores := [(128, { Core.init with copyQ := [straddleCmd] })] }

/-- The state once the chunk's address is translated. -/
def straddled : State := (straddle.xlate (straddleCmd.ctx 128) straddleCmd.va .load).1

theorem straddle_xlate : straddle.xlate (straddleCmd.ctx 128) straddleCmd.va .load = (straddled, .ok 0x1000 0xC07) := rfl

theorem straddled_reaches : Reaches straddled (straddleCmd.ctx 128) 0x1000 0xC07 :=
  ⟨by decide, by decide, by decide, by decide, by decide, by decide, by decide⟩

/-- The bytes of memory that the chunk is to bring. -/
theorem straddled_bytes : bytesOf 4 (straddled.mem.readN (straddled.fwd 0x1000) 4) = [0, 0, 1, 0] := by decide

/-- What lands: zeros for the bytes past the end of the first sector. -/
theorem straddle_lands : Answers straddle (.copyChunkLand 128) fun s' => (s'.wg 1).spad.run 32 4 = [0, 0, 0, 0] :=
  ⟨_, rfl, by decide +kernel⟩

/-- Refutes O48: an inbound chunk of RDUP memory, inside one sector at its translated address, that is forwarded across the end of a
sector lands other bytes than memory holds there. -/
theorem not_copyEngineAndWcnt : ¬ Obligations.CopyEngineAndWcnt := by
  rintro ⟨hengine, _⟩
  obtain ⟨hin, _⟩ := hengine straddle straddled 128 0x1000 0xC07 straddleCmd [] rfl (by decide) (by decide) (by decide) (.inl rfl)
    (by decide) (by decide) straddled_reaches (by decide) (by decide)
  have hcopy : straddled.copy (straddleCmd.ctx 128).ag (secOf (straddled.fwd 0x1000)) = none := by decide
  obtain ⟨s', hx, _, _, _, hland⟩ := hin [1] (.inl ⟨.inl rfl, rfl⟩) rfl (by decide) straddle_xlate (by decide) (fun _ => by decide)
    (fun _ _ => by rw [hcopy]; exact nofun) (by decide) (.inl rfl)
  obtain ⟨t, ht, hzero⟩ := straddle_lands
  obtain ⟨hrun, _⟩ := hland 1 (by decide)
  cases hx.symm.trans ht
  have hn : straddleCmd.chunk = 4 := by decide
  have hso : straddleCmd.so = 32 := by decide
  rw [hn, hso, hzero, straddled_bytes] at hrun
  exact absurd hrun (by decide)

end Sys2Proof.Machine

namespace Sys2Proof.Machine

/-! ## Barrier objects in sixteen bytes (06 R130) -/

/-- Every field fits its bits. -/
structure BarObj.Fits (o : BarObj) : Prop where
  gen : o.gen < 2 ^ 4
  pend : o.pend < 2 ^ 12
  init : o.init < 2 ^ 12
  inB : o.inB < 2 ^ 32
  outB : o.outB < 2 ^ 32
  packed : o.packed < 2 ^ 32

theorem BarObj.fits_ofNat (v : Nat) : (BarObj.ofNat v).Fits :=
  ⟨Nat.mod_lt _ (by decide), Nat.mod_lt _ (by decide), Nat.mod_lt _ (by decide), Nat.mod_lt _ (by decide), Nat.mod_lt _ (by decide),
    Nat.mod_lt _ (by decide)⟩

theorem WG.fits_bar (g : WG) (b : Nat) : (g.bar b).Fits := BarObj.fits_ofNat _

theorem BarObj.toNat_lt {o : BarObj} (h : o.Fits) (valid : Bool) : o.toNat valid < 256 ^ 16 := by
  obtain ⟨hg, hp, hi, hin, hout, hpk⟩ := h
  unfold BarObj.toNat
  split <;> split <;> split <;> omega

/-- A flag in its bit. -/
theorem flag_eq_toNat_mul (b : Bool) (n : Nat) : (if b then n else 0) = b.toNat * n := by
  cases b
  · exact (Nat.zero_mul n).symm
  · exact (Nat.one_mul n).symm

theorem BarObj.ofNat_toNat {o : BarObj} (h : o.Fits) (valid : Bool) : BarObj.ofNat (o.toNat valid) = o := by
  obtain ⟨hg, hp, hi, hin, hout, hpk⟩ := h
  obtain ⟨gen, pend, init, poison, reset, inB, outB, packed⟩ := o
  simp only at hg hp hi hin hout hpk
  have hv : valid.toNat ≤ 1 := valid.toNat_le
  have hpo : poison.toNat ≤ 1 := poison.toNat_le
  have hre : reset.toNat ≤ 1 := reset.toNat_le
  have hbit : ∀ {v i : Nat} {b : Bool}, v / 2 ^ i % 2 = b.toNat → v.testBit i = b := fun hb => by
    rw [Nat.testBit_eq_decide_div_mod_eq, hb]
    simp
  simp only [BarObj.ofNat, BarObj.toNat, flag_eq_toNat_mul, BarObj.mk.injEq]
  exact ⟨by omega, by omega, by omega, hbit (by omega), hbit (by omega), by omega, by omega, by omega⟩

/-- An object reads as it was written. -/
theorem BarObj.read_write {o : BarObj} (h : o.Fits) (valid : Bool) (m : Store 8) (b : Nat) :
    BarObj.ofNat ((m.writeN b 16 (o.toNat valid)).readN b 16) = o := by
  rw [Store.readN_writeN, Nat.mod_eq_of_lt (BarObj.toNat_lt h valid), BarObj.ofNat_toNat h]

/-! ## What a change of an object leaves alone (06 R130, R131) -/

/-- A wake event is no part of what the end of an instruction is told by. -/
theorem LateEnd.of_woken {t y u : Thread} {i : Instr} {d : Dest} {la : BitVec 4} {v : Word} (h : LateEnd y u i d la v) (hw : t.woken y) :
    LateEnd t u i d la v := by
  obtain ⟨r, rfl⟩ := hw
  have hget : ∀ e, ({ t with rel := r } : Thread).get e = t.get e := fun e => by cases e <;> rfl
  exact ⟨h.rest, fun e he hq => (h.regs e he hq).trans (hget e), h.moves, h.p, h.fflags, h.now,
    fun hl => by rw [← hget]; exact h.later hl⟩

/-- Of the machine at most the sixteen bytes of one object and its workgroup's tags change, and of the threads their wake events. -/
structure State.Bars (s s' : State) (w b : Nat) : Prop where
  cur : s'.cur = s.cur
  mem : s'.mem = s.mem
  others : ∀ k, k ≠ w → s'.wg k = s.wg k
  spad : ∀ j, (j < b ∨ b + 16 ≤ j) → (s'.wg w).spad.read j = (s.wg w).spad.read j
  threads : ∀ {k t}, tget s.threads k = some t → ∃ y, tget s'.threads k = some y ∧ t.woken y

theorem State.Bars.refl (s : State) (w b : Nat) : s.Bars s w b :=
  ⟨rfl, rfl, fun _ _ => rfl, fun _ _ => rfl, fun {_ t} ht => ⟨t, ht, t.woken_refl⟩⟩

theorem State.Bars.trans {a b c : State} {w o : Nat} (h : a.Bars b w o) (k : b.Bars c w o) : a.Bars c w o :=
  ⟨k.cur.trans h.cur, k.mem.trans h.mem, fun i hi => (k.others i hi).trans (h.others i hi), fun j hj => (k.spad j hj).trans (h.spad j hj),
    fun ht => by
      obtain ⟨y, hy, hw⟩ := h.threads ht
      obtain ⟨z, hz, hv⟩ := k.threads hy
      exact ⟨z, hz, Thread.woken_trans hw hv⟩⟩

theorem State.bars_updWg (s : State) (w b : Nat) {f : WG → WG} {v : Nat} (hf : ∀ g, (f g).spad = g.spad.writeN b 16 v) :
    s.Bars (s.updWg w f) w b :=
  ⟨rfl, rfl, fun _ hk => s.wg_setWg_ne _ hk, fun j hj => by rw [State.wg_updWg, hf, Store.read_writeN_out _ _ _ _ _ hj],
    fun {_ t} ht => ⟨t, ht, t.woken_refl⟩⟩

/-! ### Threads that wait at an object -/

@[simp] theorem State.wg_releaseWait (s : State) (x : Wait) (v : Word) (k : Nat) : (s.releaseWait x v).wg k = s.wg k := rfl

theorem State.tget_releaseWait (s : State) (x : Wait) (v : Word) (k : Nat) : tget (s.releaseWait x v).threads k =
    (tget s.threads k).map fun t => if t.wait == some x && t.rel.isNone then { t with rel := some v } else t :=
  tget_map s.threads (fun _ t => if t.wait == some x && t.rel.isNone then { t with rel := some v } else t) k

theorem State.bars_releaseWait (s : State) (x : Wait) (v : Word) (w b : Nat) : s.Bars (s.releaseWait x v) w b :=
  ⟨rfl, rfl, fun _ _ => rfl, fun _ _ => rfl, fun {k t} ht => by
    rw [s.tget_releaseWait, ht, Option.map_some]
    refine ⟨_, rfl, ?_⟩
    split
    · exact ⟨_, rfl⟩
    · exact t.woken_refl⟩

section
variable {s : State} {k : Nat} {y : Thread} {x : Wait} {v : Word} (hy : tget s.threads k = some y)
include hy

/-- A thread that waits so, and that nothing has released, gets its status. -/
theorem State.releaseWait_frees (hw : y.wait = some x) (hr : y.rel = none) :
    tget (s.releaseWait x v).threads k = some { y with rel := some v } := by
  rw [s.tget_releaseWait, hy]
  simp [hw, hr]

/-- A thread that waits otherwise stays as it is. -/
theorem State.releaseWait_keeps (hw : y.wait ≠ some x) : tget (s.releaseWait x v).threads k = some y := by
  rw [s.tget_releaseWait, hy]
  simp [hw]

/-- A thread that has been released stays as it is. -/
theorem State.releaseWait_released (hr : y.rel ≠ none) : tget (s.releaseWait x v).threads k = some y := by
  rw [s.tget_releaseWait, hy]
  simp [hr]

end

/-- Everyone who waits at an object is released. -/
def State.releaseBoth (s : State) (w b : Nat) (v : Word) : State := (s.releaseWait (.bar w b) v).releaseWait (.barOut w b) v

theorem State.bars_releaseBoth (s : State) (w b : Nat) (v : Word) : s.Bars (s.releaseBoth w b v) w b :=
  (s.bars_releaseWait _ v w b).trans (State.bars_releaseWait _ _ v w b)

@[simp] theorem State.wg_releaseBoth (s : State) (w b : Nat) (v : Word) (k : Nat) : (s.releaseBoth w b v).wg k = s.wg k := rfl

theorem State.releaseBoth_frees {s : State} {k w b : Nat} {y : Thread} {v : Word} (hy : tget s.threads k = some y)
    (hw : y.wait = some (.bar w b) ∨ y.wait = some (.barOut w b)) (hr : y.rel = none) : ((s.releaseBoth w b v).thr k).rel = some v := by
  rcases hw with hw | hw
  · exact congrArg Thread.rel (State.thr_here (State.releaseWait_released (State.releaseWait_frees hy hw hr) nofun))
  · exact congrArg Thread.rel (State.thr_here (State.releaseWait_frees (State.releaseWait_keeps hy (by simp [hw])) hw hr))

/-! ### The test for completion (06 R131) -/

/-- An object after an event: with nothing left to arrive or to land its phase completes. -/
def BarObj.tested (x : BarObj) : BarObj :=
  if x.pend = 0 ∧ x.inB = 0 then { x with gen := (x.gen + 1) % 16, pend := x.init, reset := false } else x

theorem BarObj.fits_tested {x : BarObj} (h : x.Fits) : x.tested.Fits := by
  unfold BarObj.tested
  split
  · exact ⟨Nat.mod_lt _ (by decide), h.init, h.init, h.inB, h.outB, h.packed⟩
  · exact h

/-- A release on a condition. -/
def State.releaseIf (s : State) (p : Prop) [Decidable p] (x : Wait) (v : Word) : State := if p then s.releaseWait x v else s

theorem State.bars_releaseIf (s : State) (p : Prop) [Decidable p] (x : Wait) (v : Word) (w b : Nat) : s.Bars (s.releaseIf p x v) w b := by
  unfold State.releaseIf
  split
  · exact s.bars_releaseWait x v w b
  · exact .refl s w b

@[simp] theorem State.wg_releaseIf (s : State) (p : Prop) [Decidable p] (x : Wait) (v : Word) (k : Nat) :
    (s.releaseIf p x v).wg k = s.wg k := by
  unfold State.releaseIf
  split <;> rfl

/-- An event: the object is written, the threads that wait for its phase leave where it completes, and those that wait for its source
bytes where none is left. -/
theorem State.putBar_event (s : State) (w b : Nat) (x : BarObj) : s.putBar w b x true =
    (State.releaseIf (s.updWg w fun g => { g with spad := g.spad.writeN b 16 (x.tested.toNat true) }) (x.pend = 0 ∧ x.inB = 0)
      (.bar w b) x.status).releaseIf (x.outB = 0) (.barOut w b) x.status := by
  simp only [State.putBar, State.releaseIf, BarObj.tested, Bool.true_and, Bool.and_eq_true, beq_iff_eq]

theorem State.bars_putBar (s : State) (w b : Nat) (x : BarObj) : s.Bars (s.putBar w b x true) w b := by
  rw [State.putBar_event]
  exact ((s.bars_updWg w b fun _ => rfl).trans (State.bars_releaseIf ..)).trans (State.bars_releaseIf ..)

theorem State.wg_putBar (s : State) (w b : Nat) (x : BarObj) :
    (s.putBar w b x true).wg w = { s.wg w with spad := (s.wg w).spad.writeN b 16 (x.tested.toNat true) } := by
  rw [State.putBar_event, State.wg_releaseIf, State.wg_releaseIf, State.wg_updWg]

/-- Who waits for a phase that completes leaves with the object's status. -/
theorem State.putBar_frees {s : State} {w b k : Nat} {x : BarObj} {y : Thread} (hx : x.pend = 0 ∧ x.inB = 0)
    (hy : tget s.threads k = some y) (hw : y.wait = some (.bar w b)) (hr : y.rel = none) :
    ((s.putBar w b x true).thr k).rel = some x.status := by
  rw [State.putBar_event, State.releaseIf.eq_1 _ _ (.bar w b), if_pos hx, State.releaseIf]
  have h := State.releaseWait_frees (s := s.updWg w fun g => { g with spad := g.spad.writeN b 16 (x.tested.toNat true) }) (v := x.status)
    hy hw hr
  split
  · exact congrArg Thread.rel (State.thr_here (State.releaseWait_released h nofun))
  · exact congrArg Thread.rel (State.thr_here h)

/-- What an event leaves of an object and of the threads that wait for its phase. -/
theorem State.putBar_after {s : State} {w b : Nat} {x : BarObj} (hx : x.Fits) :
    ((s.putBar w b x true).wg w).tags = (s.wg w).tags ∧ ((s.putBar w b x true).wg w).bar b = x.tested ∧
      (x.pend = 0 → x.inB = 0 → ∀ k y, k ≠ s.cur → tget s.threads k = some y → y.wait = some (.bar w b) → y.rel = none →
        ((s.putBar w b x true).thr k).rel = some x.status) := by
  rw [State.wg_putBar]
  exact ⟨rfl, BarObj.read_write (BarObj.fits_tested hx) true _ b, fun hp hi k y _ => State.putBar_frees ⟨hp, hi⟩⟩

/-! ### Arrivals and armed bytes (06 R138) -/

/-- An object with bytes armed, and with an arrival where ARR is 1 (06 R138). -/
def BarObj.arm (o : BarObj) (arr out : Bool) (n : Nat) : BarObj :=
  { o with
    inB := if out then o.inB else o.inB + n
    outB := if out then o.outB + n else o.outB
    pend := if arr then o.pend - 1 else o.pend }

theorem BarObj.Fits.fewer {o : BarObj} (h : o.Fits) : ({ o with pend := o.pend - 1 } : BarObj).Fits :=
  ⟨h.gen, (Nat.sub_le _ _).trans_lt h.pend, h.init, h.inB, h.outB, h.packed⟩

theorem BarObj.Fits.arm {o : BarObj} (h : o.Fits) (arr out : Bool) {n : Nat} (hn : (if out then o.outB else o.inB) + n < 2 ^ 31) :
    (o.arm arr out n).Fits := by
  obtain ⟨hg, hp, hi, hin, hout, hpk⟩ := h
  refine ⟨hg, ?_, hi, ?_, ?_, hpk⟩
  · cases arr
    · exact hp
    · exact (Nat.sub_le _ _).trans_lt hp
  · cases out
    · exact hn.trans (by decide)
    · exact hin
  · cases out
    · exact hout
    · exact hn.trans (by decide)

/-! ### Initialisation and invalidation (06 R138) -/

/-- A fresh object of `n` arrivals with `m` bytes armed. -/
def WG.initBar (was : Bool) (b n m : Nat) (g : WG) : WG :=
  { g with spad := g.spad.writeN b 16 (BarObj.toNat ⟨0, n, n, false, was, m, 0, 0⟩ true), tags := if was then g.tags else b :: g.tags }

theorem WG.bar_initBar {was : Bool} {b n m : Nat} {g : WG} (hn : n ≤ 4095) (hm : m < 2 ^ 31) :
    (g.initBar was b n m).bar b = ⟨0, n, n, false, was, m, 0, 0⟩ :=
  BarObj.read_write ⟨Nat.two_pow_pos 4, Nat.lt_succ_of_le hn, Nat.lt_succ_of_le hn, hm.trans (by decide), Nat.two_pow_pos 32,
    Nat.two_pow_pos 32⟩ true g.spad b

theorem WG.mem_tags_initBar (b n m : Nat) (g : WG) (y : Nat) :
    y ∈ (g.initBar (decide (b ∈ g.tags)) b n m).tags ↔ y = b ∨ y ∈ g.tags := by
  by_cases hb : b ∈ g.tags
  · simpa [WG.initBar, hb] using fun h => h ▸ hb
  · simp [WG.initBar, hb]

/-- An object that is none any more. -/
def WG.dropBar (o : BarObj) (b : Nat) (g : WG) : WG := { g with spad := g.spad.writeN b 16 (o.toNat false), tags := g.tags.erase b }

/-! ## Barrier instructions (06 R138) -/

section
variable {s : State} {t : Thread} {i : Instr} {d a : BitVec 5} {la : BitVec 4} {k : State → Nat → State × Word} {v : Word}

theorem State.onBar_invalid {b : Nat} {f : BarObj → State × Word} (h : tget s.threads s.cur = some t) (hb : b ∉ (s.wg t.wg).tags) :
    s.onBar b f = (s, -5) := by
  simp [State.onBar, State.me_here h, hb]

theorem State.onBar_valid {b : Nat} {f : BarObj → State × Word} (h : tget s.threads s.cur = some t) (hb : b ∈ (s.wg t.wg).tags) :
    s.onBar b f = f ((s.wg t.wg).bar b) := by
  simp [State.onBar, State.me_here h, hb]

/-- The offset that a barrier instruction names is valid (06 R130). -/
def State.NamesBar (s : State) (t : Thread) (a : BitVec 5) : Prop :=
  (s.srcX 0 a).toNat % 16 = 0 ∧ (s.srcX 0 a).toNat + 16 ≤ (s.wg t.wg).spPages * 4096

/-- The object that a barrier instruction names stands (06 R130). -/
def State.Stands (s : State) (t : Thread) (a : BitVec 5) : Prop := s.NamesBar t a ∧ (s.srcX 0 a).toNat ∈ (s.wg t.wg).tags

/-- The instruction gives its status and changes nothing else. -/
def State.Gives (s : State) (t : Thread) (i : Instr) (d : BitVec 5) (la : BitVec 4) (v : Word) : Prop :=
  ∃ u, exec i s = .next (s.setThr s.cur u) ∧ LateEnd t u i (.x d) la v

/-- The instruction gives its status and changes at most the sixteen bytes it names and their tag, as `p` says. -/
def State.Changes (s : State) (t : Thread) (i : Instr) (d a : BitVec 5) (la : BitVec 4) (v : Word) (p : State → Prop) : Prop :=
  ∃ s1 u, exec i s = .next (s1.setThr s.cur u) ∧ LateEnd t u i (.x d) la v ∧ s1.mem = s.mem ∧
    (∀ k, k ≠ t.wg → s1.wg k = s.wg k) ∧
    (∀ j, (j < (s.srcX 0 a).toNat ∨ (s.srcX 0 a).toNat + 16 ≤ j) → (s1.wg t.wg).spad.read j = (s.wg t.wg).spad.read j) ∧ p s1

theorem State.barOp_eq (h : tget s.threads s.cur = some t) (hb : s.NamesBar t a) :
    s.barOp i d a la k = (k s (s.srcX 0 a).toNat).1.finishLate (lenOf i) (.x d) la (k s (s.srcX 0 a).toNat).2 := by
  simp [State.barOp, State.me_here h, (WG.barOffset_iff _ _).2 hb]

section
variable (h : tget s.threads s.cur = some t)
include h

theorem barOp_misplaced (hx : exec i s = .next (s.barOp i d a la k)) (hb : ¬s.NamesBar t a) : s.Gives t i d la (-1) := by
  refine refused_walk h (hx.trans ?_)
  simp [State.barOp, State.me_here h, mt (WG.barOffset_iff _ _).1 hb]

theorem barOp_gives (hx : exec i s = .next (s.barOp i d a la k)) (hb : s.NamesBar t a) (hk : k s (s.srcX 0 a).toNat = (s, v)) :
    s.Gives t i d la v := by
  refine refused_walk h (hx.trans ?_)
  rw [State.barOp_eq h hb, hk]

theorem barOp_changes (hx : exec i s = .next (s.barOp i d a la k)) {s1 : State} {p : State → Prop} (hb : s.NamesBar t a)
    (hk : k s (s.srcX 0 a).toNat = (s1, v)) (hs : s.Bars s1 t.wg (s.srcX 0 a).toNat) (hp : p s1) : s.Changes t i d a la v p := by
  obtain ⟨u, hu, hlate⟩ := s1.finishLate_eq i (.x d) la v
  obtain ⟨y, hy, hw⟩ := hs.threads h
  have hme : s1.me = y := State.thr_here (hs.cur ▸ hy)
  refine ⟨s1, u, ?_, (hme ▸ hlate).of_woken hw, hs.mem, hs.others, hs.spad, hp⟩
  rw [hx, State.barOp_eq h hb, hk, hu, hs.cur]

/-! An instruction on a valid object: the object must stand (06 R138). -/

section
variable {f : State → Nat → BarObj → State × Word} (hx : exec i s = .next (s.barOp i d a la fun s b => s.onBar b (f s b)))
include hx

theorem onBar_absent (hb : s.NamesBar t a) (ht : (s.srcX 0 a).toNat ∉ (s.wg t.wg).tags) : s.Gives t i d la (-5) :=
  barOp_gives h hx hb (State.onBar_invalid h ht)

theorem onBar_gives (hl : s.Stands t a) (hf : f s (s.srcX 0 a).toNat ((s.wg t.wg).bar (s.srcX 0 a).toNat) = (s, v)) : s.Gives t i d la v :=
  barOp_gives h hx hl.1 ((State.onBar_valid h hl.2).trans hf)

theorem onBar_changes {s1 : State} {p : State → Prop} (hl : s.Stands t a)
    (hf : f s (s.srcX 0 a).toNat ((s.wg t.wg).bar (s.srcX 0 a).toNat) = (s1, v)) (hs : s.Bars s1 t.wg (s.srcX 0 a).toNat) (hp : p s1) :
    s.Changes t i d a la v p :=
  barOp_changes h hx hl.1 ((State.onBar_valid h hl.2).trans hf) hs hp

end

end

end

section
variable {s : State} {t : Thread} {g : BitVec 4} {d a b c : BitVec 5} (hon : t.onL = false) (la : BitVec 4) (ru : BitVec 3)
include hon

theorem exec_barInit (hr : Runs s t g [.x d, .x a, .x b, .x c] [.x a, .x b, .x c]) :
    exec (.barInit g d a b c la ru) s = .next (s.barOp (.barInit g d a b c la ru) d a la fun s o =>
      let n := (s.srcX 1 b).toNat
      let m := (s.srcX 2 c).toNat
      if 4095 < n ∨ 2 ^ 31 ≤ m then (s, -1)
      else ((s.updWg s.me.wg (WG.initBar (decide (o ∈ (s.wg s.me.wg).tags)) o n m)).releaseBoth s.me.wg o (-6), 0)) := by
  simp only [← List.contains_eq_mem]
  change execBarInit g d a b c la ru s = _
  exact State.lane_runs hr _ true (fun _ => hon) _

theorem exec_barArr (hr : Runs s t g [.x d, .x a] [.x a]) :
    exec (.barArr g d a la ru) s = .next (s.barOp (.barArr g d a la ru) d a la fun s b => s.onBar b fun o =>
      if o.pend = 0 then (s, -2) else (s.putBar s.me.wg b { o with pend := o.pend - 1 } true, BitVec.ofNat 64 o.gen)) := by
  change execBarArr g d a la ru s = _
  exact State.lane_runs hr _ true (fun _ => hon) _

theorem exec_barInval (hr : Runs s t g [.x d, .x a] [.x a]) :
    exec (.barInval g d a la ru) s = .next (s.barOp (.barInval g d a la ru) d a la fun s b => s.onBar b fun o =>
      ((s.updWg s.me.wg (WG.dropBar o b)).releaseBoth s.me.wg b (-6), 0)) := by
  change execBarInval g d a la ru s = _
  exact State.lane_runs hr _ true (fun _ => hon) _

theorem exec_barExp (arr out : Bool) (hr : Runs s t g [.x d, .x a, .x b] [.x a, .x b]) :
    exec (.barExp arr out g d a b la ru) s = .next (s.barOp (.barExp arr out g d a b la ru) d a la fun s bo => s.onBar bo fun o =>
      let n := (s.srcX 1 b).toNat
      if 2 ^ 31 ≤ n ∨ 2 ^ 31 ≤ (if out then o.outB else o.inB) + n then (s, -1)
      else if arr = true ∧ o.pend = 0 then (s, -2)
      else (s.putBar s.me.wg bo (o.arm arr out n) true, if arr then BitVec.ofNat 64 o.gen else 0)) := by
  change execBarExp arr out g d a b la ru s = _
  refine (State.lane_runs hr _ true (fun _ => hon) _).trans ?_
  cases out <;> simp only [BarObj.arm, Bool.and_eq_true, beq_iff_eq, if_true, Bool.false_eq_true, if_false]

theorem exec_barTest (out : Bool) (hr : Runs s t g [.x d, .x a, .x b] [.x a, .x b]) :
    exec (.barTest out g d a b la ru) s = .next (s.barOp (.barTest out g d a b la ru) d a la fun s bo => s.onBar bo fun o =>
      let n := (s.srcX 1 b).toNat
      if out = false ∧ 15 < n then (s, -1)
      else if o.poison then (s, -4)
      else (s, if (if out then o.outB == 0 else o.gen != n % 16) then 1 else 0)) := by
  change execBarTest out g d a b la ru s = _
  refine (State.lane_runs hr _ true (fun _ => hon) _).trans ?_
  simp only [Bool.and_eq_true, Bool.not_eq_true', decide_eq_true_eq]

/-- What holds a `bar.wait` up: source bytes still to be read, or the phase that its token names (06 R138). -/
def State.HoldsUp (s : State) (t : Thread) (a b : BitVec 5) (out : Bool) : Prop :=
  (out = true ∧ ((s.wg t.wg).bar (s.srcX 0 a).toNat).outB ≠ 0) ∨
    (out = false ∧ ((s.wg t.wg).bar (s.srcX 0 a).toNat).gen = (s.srcX 1 b).toNat)

/-- `bar.wait` at an object that stands, with a token in range. -/
def State.WaitsWell (s : State) (t : Thread) (a b : BitVec 5) (out : Bool) : Prop :=
  s.Stands t a ∧ (out = true ∨ (s.srcX 1 b).toNat ≤ 15)

theorem exec_barWait_released (out : Bool) (hr : Runs s t g [.x d, .x a, .x b] [.x a, .x b]) {v : Word} (hv : t.rel = some v) :
    exec (.barWait out g d a b la ru) s = .next (s.finishLate (lenOf (.barWait out g d a b la ru)) (.x d) la v) := by
  change execBarWait out g d a b la ru s = _
  refine (State.lane_runs hr _ true (fun _ => hon) _).trans ?_
  rw [State.me_here hr.here, hv]

theorem exec_barWait (out : Bool) (hr : Runs s t g [.x d, .x a, .x b] [.x a, .x b]) (hv : t.rel = none) :
    (s.WaitsWell t a b out → s.HoldsUp t a b out → exec (.barWait out g d a b la ru) s =
      .next (s.waitOn (if out then .barOut t.wg (s.srcX 0 a).toNat else .bar t.wg (s.srcX 0 a).toNat))) ∧
    (¬(s.WaitsWell t a b out ∧ s.HoldsUp t a b out) → exec (.barWait out g d a b la ru) s =
      .next (s.barOp (.barWait out g d a b la ru) d a la fun s' bo => s'.onBar bo fun o =>
        if out = false ∧ 15 < (s.srcX 1 b).toNat then (s', -1) else (s', o.status))) := by
  have hx : exec (.barWait out g d a b la ru) s = _ :=
    show execBarWait out g d a b la ru s = _ from State.lane_runs hr _ true (fun _ => hon) _
  rw [State.me_here hr.here, hv] at hx
  have hc : (((s.wg t.wg).barOffset (s.srcX 0 a).toNat && (s.wg t.wg).tags.contains (s.srcX 0 a).toNat &&
      (out || decide ((s.srcX 1 b).toNat ≤ 15))) && (if out then ((s.wg t.wg).bar (s.srcX 0 a).toNat).outB != 0
        else ((s.wg t.wg).bar (s.srcX 0 a).toNat).gen == (s.srcX 1 b).toNat % 16)) = true ↔
      s.WaitsWell t a b out ∧ s.HoldsUp t a b out := by
    simp only [State.WaitsWell, State.HoldsUp, State.Stands, State.NamesBar, Bool.and_eq_true, Bool.or_eq_true, List.contains_iff_mem,
      decide_eq_true_eq, WG.barOffset_iff, and_assoc]
    refine and_congr_right' (and_congr_right' (and_congr_right' (and_congr_right fun hn => ?_)))
    cases out with
    | false =>
      have hlow : (s.srcX 1 b).toNat % 16 = (s.srcX 1 b).toNat := Nat.mod_eq_of_lt (Nat.lt_succ_of_le (hn.resolve_left nofun))
      simp [hlow]
    | true => simp
  refine ⟨fun hw hh => hx.trans (congrArg _ (if_pos (hc.2 ⟨hw, hh⟩))),
    fun hn => (hx.trans (congrArg _ (if_neg (mt hc.1 hn)))).trans ?_⟩
  simp only [Bool.and_eq_true, Bool.not_eq_true', decide_eq_true_eq]

end

section
variable {s : State} {t : Thread} {g : BitVec 4} {d a b : BitVec 5} (hon : t.onL = false) (la : BitVec 4) (ru : BitVec 3) (out : Bool)
  (hr : Runs s t g [.x d, .x a, .x b] [.x a, .x b])
include hon hr

/-- Bytes within the range arm the object, and with ARR a thread arrives, where one is left to arrive. -/
theorem barExp_arms (arr : Bool) (hl : s.Stands t a) (hn : (s.srcX 1 b).toNat < 2 ^ 31)
    (hc : (if out then ((s.wg t.wg).bar (s.srcX 0 a).toNat).outB else ((s.wg t.wg).bar (s.srcX 0 a).toNat).inB) +
      (s.srcX 1 b).toNat < 2 ^ 31) :
    let o := (s.wg t.wg).bar (s.srcX 0 a).toNat
    (arr = true → o.pend = 0 → s.Gives t (.barExp arr out g d a b la ru) d la (-2)) ∧
    ∀ {p : State → Prop}, (arr = false ∨ o.pend ≠ 0) →
      p (s.putBar t.wg (s.srcX 0 a).toNat (o.arm arr out (s.srcX 1 b).toNat) true) →
      s.Changes t (.barExp arr out g d a b la ru) d a la (if arr then BitVec.ofNat 64 o.gen else 0) p := by
  intro o
  have hx := exec_barExp hon la ru arr out hr
  have hbig : ¬(2 ^ 31 ≤ (s.srcX 1 b).toNat ∨ 2 ^ 31 ≤ (if out then o.outB else o.inB) + (s.srcX 1 b).toNat) :=
    fun h => h.elim (Nat.not_le.2 hn) (Nat.not_le.2 hc)
  refine ⟨fun ha h0 => onBar_gives hr.here hx hl ((if_neg hbig).trans (if_pos ⟨ha, h0⟩)), fun ha hp => ?_⟩
  have hne : ¬(arr = true ∧ o.pend = 0) := by
    rintro ⟨rfl, h0⟩
    exact ha.elim nofun fun h => h h0
  exact onBar_changes hr.here hx hl ((if_neg hbig).trans ((if_neg hne).trans (by rw [State.me_here hr.here]))) (s.bars_putBar ..) hp

/-- A token in range: a poisoned object has −4, and else the test tells whether the source bytes are read or the phase is over. -/
theorem barTest_tells (hl : s.Stands t a) (hn : out = true ∨ (s.srcX 1 b).toNat ≤ 15) :
    let o := (s.wg t.wg).bar (s.srcX 0 a).toNat
    let j := Instr.barTest out g d a b la ru
    (o.poison = true → s.Gives t j d la (-4)) ∧
    (o.poison = false → out = true → s.Gives t j d la (if o.outB = 0 then 1 else 0)) ∧
    (o.poison = false → out = false → s.Gives t j d la (if o.gen = (s.srcX 1 b).toNat then 0 else 1)) := by
  intro o j
  have hx := exec_barTest hon la ru out hr
  have hlow : ¬(out = false ∧ 15 < (s.srcX 1 b).toNat) := by
    rintro ⟨rfl, h⟩
    exact hn.elim nofun fun h' => absurd h (Nat.not_lt.2 h')
  refine ⟨fun hp => onBar_gives hr.here hx hl ((if_neg hlow).trans (if_pos hp)),
    fun hp ho => onBar_gives hr.here hx hl ((if_neg hlow).trans ?_), fun hp ho => onBar_gives hr.here hx hl ((if_neg hlow).trans ?_)⟩
  · simp [o, hp, ho]
  · have hmod : (s.srcX 1 b).toNat % 16 = (s.srcX 1 b).toNat := Nat.mod_eq_of_lt (Nat.lt_succ_of_le (hn.resolve_left (by simp [ho])))
    simp only [o, hp, ho, hmod, Bool.false_eq_true, if_false, bne_iff_ne, ne_eq, ite_not]

/-- What nothing has released: a check that fails gives its status, a phase that still runs makes the thread wait, and one that is over
gives the object's status. -/
theorem barWait_waits (hv : t.rel = none) :
    let o := (s.wg t.wg).bar (s.srcX 0 a).toNat
    let n := (s.srcX 1 b).toNat
    let i := Instr.barWait out g d a b la ru
    (¬s.NamesBar t a → s.Gives t i d la (-1)) ∧
    (s.NamesBar t a → (s.srcX 0 a).toNat ∉ (s.wg t.wg).tags → s.Gives t i d la (-5)) ∧
    (s.Stands t a → out = false → 15 < n → s.Gives t i d la (-1)) ∧
    (s.Stands t a → (out = true ∨ n ≤ 15) →
      (s.HoldsUp t a b out → ∃ u, exec i s = .next (s.setThr s.cur u) ∧
        u.wait = some (if out then .barOut t.wg (s.srcX 0 a).toNat else .bar t.wg (s.srcX 0 a).toNat) ∧ u.pc = t.pc ∧ u.x = t.x) ∧
      (¬s.HoldsUp t a b out → s.Gives t i d la o.status)) := by
  intro o n i
  obtain ⟨hwaits, hpasses⟩ := exec_barWait hon la ru out hr hv
  refine ⟨fun hb => barOp_misplaced hr.here (hpasses fun h => hb h.1.1.1) hb,
    fun hb ht => onBar_absent hr.here (hpasses fun h => ht h.1.1.2) hb ht, fun hl ho hn => ?_,
    fun hl hn => ⟨fun hh => ?_, fun hh => ?_⟩⟩
  · have hlow : ¬(s.WaitsWell t a b out ∧ s.HoldsUp t a b out) := fun h => h.1.2.elim (by simp [ho]) (Nat.not_le.2 hn)
    exact onBar_gives hr.here (hpasses hlow) hl (if_pos ⟨ho, hn⟩)
  · exact ⟨_, (hwaits ⟨hl, hn⟩ hh).trans (congrArg _ (State.waitOn_here hr.here _)), rfl, rfl, rfl⟩
  · have hlow : ¬(out = false ∧ 15 < n) := by
      rintro ⟨rfl, h⟩
      exact hn.elim nofun fun h' => absurd h (Nat.not_lt.2 h')
    exact onBar_gives hr.here (hpasses fun h => hh h.2) hl (if_neg hlow)

end

/-- Settles O46: each instruction is a check of the offset, a check of the object, and an effect on the object and its waiters. -/
theorem barrierInstructions : Obligations.BarrierInstructions := by
  intro s t g d a b c la ru hon w G at_ n m o good live only with_ after
  have fits : o.Fits := G.fits_bar at_
  have event : ∀ {x : BarObj}, x.Fits → after x (s.putBar w at_ x true) := State.putBar_after
  refine ⟨fun hr => ?init, fun hr => ?arrive, fun arr out hr => ?expect, fun out hr => ?wait⟩
  case init =>
    intro i
    have hx := exec_barInit hon la ru hr
    refine ⟨fun hbad => ?_, fun hb hn hm => ?_⟩
    · by_cases hb : s.NamesBar t a
      · exact barOp_gives hr.here hx hb (if_pos (by by_contra h; exact hbad ⟨hb, by omega, by omega⟩))
      · exact barOp_misplaced hr.here hx hb
    · refine barOp_changes hr.here hx hb ((if_neg (by omega)).trans (by rw [State.me_here hr.here]))
        ((s.bars_updWg w at_ fun _ => rfl).trans (State.bars_releaseBoth ..)) ⟨?_, fun y => ?_, fun k y _ => State.releaseBoth_frees⟩
      · rw [State.wg_releaseBoth, State.wg_updWg]
        exact WG.bar_initBar hn hm
      · rw [State.wg_releaseBoth, State.wg_updWg]
        exact WG.mem_tags_initBar at_ n m G y
  case arrive =>
    intro i j
    have hx := exec_barArr hon la ru hr
    have hy := exec_barInval hon la ru hr
    refine ⟨fun hb => ⟨barOp_misplaced hr.here hx hb, barOp_misplaced hr.here hy hb⟩,
      fun hb ht => ⟨onBar_absent hr.here hx hb ht, onBar_absent hr.here hy hb ht⟩,
      fun hl h0 => onBar_gives hr.here hx hl (if_pos h0),
      fun hl h0 => onBar_changes hr.here hx hl ((if_neg h0).trans (by rw [State.me_here hr.here])) (s.bars_putBar ..) (event fits.fewer),
      fun hl => onBar_changes hr.here hy hl (by rw [State.me_here hr.here])
        ((s.bars_updWg w at_ fun _ => rfl).trans (State.bars_releaseBoth ..)) ⟨?_, fun k y _ => State.releaseBoth_frees⟩⟩
    rw [State.wg_releaseBoth, State.wg_updWg]
    rfl
  case expect =>
    intro i j cnt
    have hx := exec_barExp hon la ru arr out hr
    have hy := exec_barTest hon la ru out hr
    refine ⟨fun hb => ⟨barOp_misplaced hr.here hx hb, barOp_misplaced hr.here hy hb⟩,
      fun hb ht => ⟨onBar_absent hr.here hx hb ht, onBar_absent hr.here hy hb ht⟩,
      fun hl hbig => onBar_gives hr.here hx hl (if_pos hbig), fun hl hn hc => ?_,
      fun hl ho hn => onBar_gives hr.here hy hl (if_pos ⟨ho, hn⟩), fun hl hn => barTest_tells hon la ru out hr hl hn⟩
    obtain ⟨hfull, harms⟩ := barExp_arms hon la ru out hr arr hl hn hc
    exact ⟨hfull, fun ha => harms ha (event (fits.arm arr out hc))⟩
  case wait =>
    intro i holds
    exact ⟨fun v hv => refused_walk hr.here (exec_barWait_released hon la ru out hr hv), fun hv => barWait_waits hon la ru out hr hv⟩

end Sys2Proof.Machine

namespace Sys2Proof.Machine

/-! ## Copy commands at issue (06 R140 to R142) -/

theorem CopyKind.packs_iff (k : CopyKind) : k.packs = true ↔ k = .gat ∨ k = .sct := by
  rw [CopyKind.packs, Bool.or_eq_true, beq_iff_eq, beq_iff_eq]

/-- Rows that come into scratchpad are loaded, and those that go out are stored (06 R142). -/
theorem CopyKind.inbound_access (k : CopyKind) :
    (if k.inbound then XKind.load else .store) = if k = .out ∨ k = .sct then .store else .load := by
  cases k <;> rfl

/-- The checks of 06 R142 that have status −1. -/
structure CopyArgs.Passes (q : CopyArgs) (g : WG) : Prop where
  maddr : q.maddr.toNat % 4 = 0
  soff : q.soff % 4 = 0
  rowBytes : q.rowBytes % 4 = 0
  mstride : q.mstride % 4 = 0
  step : q.ss = 0 ∨ q.rowBytes ≤ q.step
  last : q.soff + (q.rows - 1) * q.step + q.rowBytes ≤ g.spPages * 4096
  boff : q.boff = noBar ∨ (q.boff % 16 = 0 ∧ q.boff + 16 ≤ g.spPages * 4096)
  mask : q.kind.packs = true → q.mo + (q.rows + 7) / 8 ≤ g.spPages * 4096
  range : -(2 ^ 55 : Int) ≤ q.maddr.toInt ∧ q.maddr.toInt < 2 ^ 55 ∧
    q.maddr.toInt + ((q.rows - 1) * q.mstride + q.rowBytes : Nat) ≤ 2 ^ 55
  dmask : q.kind = .mc → q.dmask ≠ 0

theorem CopyArgs.bad_iff (q : CopyArgs) (g : WG) : q.bad g = false ↔ q.Passes g := by
  simp only [CopyArgs.bad, Bool.or_eq_false_iff, Bool.and_eq_false_iff, bne_eq_false_iff_eq, decide_eq_false_iff_not, Bool.not_eq_false',
    Nat.not_lt, beq_eq_false_iff_ne, WG.barOffset_iff]
  constructor
  · rintro ⟨⟨⟨⟨⟨⟨⟨⟨⟨⟨maddr, soff⟩, bytes⟩, stride⟩, step⟩, last⟩, boff⟩, mask⟩, hcan⟩, hrange⟩, dmask⟩
    exact ⟨maddr, soff, bytes, stride, step, last, boff, fun hp => mask.resolve_left (by simp [hp]),
      (canonicalRange_iff _ _).1 ⟨hcan, hrange⟩, fun hk => dmask.resolve_left (not_not_intro hk)⟩
  · rintro ⟨maddr, soff, bytes, stride, step, last, boff, mask, range, dmask⟩
    obtain ⟨hcan, hrange⟩ := (canonicalRange_iff _ _).2 range
    exact ⟨⟨⟨⟨⟨⟨⟨⟨⟨⟨maddr, soff⟩, bytes⟩, stride⟩, step⟩, last⟩, boff⟩, (Bool.eq_false_or_eq_true _).symm.imp_right mask⟩, hcan⟩,
      hrange⟩, not_or_of_imp dmask⟩

/-- A multicast finds a receiver on every tile it names (06 R142). -/
def State.Meets (s : State) (w : Nat) (q : CopyArgs) : Prop :=
  q.kind = .mc → ∀ x < 4, q.dmask.testBit x = true → (s.receiver w x).isSome = true

theorem State.meets_iff (s : State) (w : Nat) (q : CopyArgs) :
    (q.kind == .mc && (tilesOf q.dmask).any fun x => (s.receiver w x).isNone) = false ↔ s.Meets w q := by
  simp only [State.Meets, tilesOf, Bool.and_eq_false_imp, beq_iff_eq, List.any_eq_false, List.mem_filter, List.mem_range, and_imp,
    Bool.not_eq_true, Option.isNone_eq_false_iff]

/-- A row is moved where its mask bit is 1, and every row where there is no mask (06 R141). -/
def CopyArgs.Masked (q : CopyArgs) (g : WG) (r : Nat) : Prop :=
  q.kind.packs = true → (g.spad.read (q.mo + r / 8)).getLsbD (r % 8) = true

theorem CopyArgs.rowSel_iff (q : CopyArgs) (g : WG) {r : Nat} (hr : r < q.rows) : rowSel (q.mask g) r = true ↔ q.Masked g r := by
  unfold CopyArgs.Masked CopyArgs.mask rowSel
  split
  case isTrue hp => simp [hp, hr]
  case isFalse hp => simp [hp]

theorem CopyArgs.first_none {q : CopyArgs} {g : WG} (h : ∀ r < q.rows, ¬q.Masked g r) :
    (List.range q.rows).find? (rowSel (q.mask g)) = none :=
  List.find?_eq_none.2 fun r hr => mt (q.rowSel_iff g (List.mem_range.1 hr)).1 (h r (List.mem_range.1 hr))

theorem CopyArgs.first_some {q : CopyArgs} {g : WG} {r : Nat} (hr : r < q.rows) (h : q.Masked g r) (hf : ∀ j < r, ¬q.Masked g j) :
    (List.range q.rows).find? (rowSel (q.mask g)) = some r :=
  List.find?_range_eq_some.2 ⟨(q.rowSel_iff g hr).2 h, List.mem_range.2 hr, fun j hj => by
    simpa using mt (q.rowSel_iff g (hj.trans hr)).1 (hf j hj)⟩

/-! ### Acceptance -/

/-- The command that a copy becomes. -/
def CopyArgs.cmd (q : CopyArgs) (g : WG) (t : Thread) (id k : Nat) : CopyCmd :=
  ⟨id, k, t.wg, q.kind, q.maddr.toNat, q.soff, q.boff, q.rowBytes, q.rows, q.mstride, q.step, q.dmask, q.mask g, t.asid, t.ptBase, t.mode,
    0, 0, 0, none, [], []⟩

/-- The state once a command stands in its core's queue and is counted. -/
def State.queueCopy (s : State) (t : Thread) (m : CopyCmd) : State :=
  ({ s with nextId := s.nextId + 1 }.updCore t.core fun c => { c with copyQ := c.copyQ ++ [m] }).updMe fun x => x.accept .copy m.id

/-- A copy that passes its checks is accepted, or waits for room. -/
def State.takeCopy (s : State) (i : Instr) (d : BitVec 5) (la : BitVec 4) (q : CopyArgs) (g : WG) (t : Thread) : State :=
  if !s.copyRoom s.me then s.waitOn (.accept i) else (s.queueCopy t (q.cmd g t s.nextId s.cur)).finishLate (lenOf i) (.x d) la 0

/-- A copy that passes its checks: its first selected row is translated (06 R142). -/
def State.startCopy (s : State) (i : Instr) (d : BitVec 5) (la : BitVec 4) (q : CopyArgs) (g : WG) (t : Thread) : State :=
  match (List.range q.rows).find? (rowSel (q.mask g)) with
  | none => s.takeCopy i d la q g t
  | some r =>
    match s.xlate (t.mctx s.cur) (q.maddr + BitVec.ofNat 64 (r * q.mstride)) (if q.kind.inbound then .load else .store) with
    | (s1, .ok _ _) => s1.takeCopy i d la q g t
    | (s1, .fault code) => s1.trap code (q.maddr + BitVec.ofNat 64 (r * q.mstride))
    | (s1, .wait) => s1.waitOn .walk

section
variable {s s1 : State} {t : Thread} {i : Instr} {d : BitVec 5} {la : BitVec 4} {q : CopyArgs} {g : WG}

theorem State.startCopy_none (hn : ∀ r < q.rows, ¬q.Masked g r) : s.startCopy i d la q g t = s.takeCopy i d la q g t := by
  rw [State.startCopy, CopyArgs.first_none hn]

section
variable {r : Nat} {k : XKind} (hk : (if q.kind.inbound then XKind.load else .store) = k) (hr : r < q.rows) (hs : q.Masked g r)
  (hf : ∀ j < r, ¬q.Masked g j)
include hk hr hs hf

theorem State.startCopy_ok {pa leaf : Nat}
    (hx : s.xlate (t.mctx s.cur) (q.maddr + BitVec.ofNat 64 (r * q.mstride)) k = (s1, .ok pa leaf)) :
    s.startCopy i d la q g t = s1.takeCopy i d la q g t := by
  simp only [State.startCopy, CopyArgs.first_some hr hs hf, hk, hx]

theorem State.startCopy_fault {e : Nat}
    (hx : s.xlate (t.mctx s.cur) (q.maddr + BitVec.ofNat 64 (r * q.mstride)) k = (s1, .fault e)) :
    s.startCopy i d la q g t = s1.trap e (q.maddr + BitVec.ofNat 64 (r * q.mstride)) := by
  simp only [State.startCopy, CopyArgs.first_some hr hs hf, hk, hx]

end

end

/-! ### The checks, in their order -/

section
variable {s : State} {t : Thread} {i : Instr} {d : BitVec 5} {la : BitVec 4} {q : CopyArgs} (h : tget s.threads s.cur = some t)
include h

theorem State.copyIssue_rights (hc : t.role.copy = false) : s.copyIssue i d la q = s.trap 0x20 (parcels i) := by
  simp [State.copyIssue, State.me_here h, hc]

variable (hc : t.role.copy = true)
include hc

theorem State.copyIssue_empty (he : q.rowBytes = 0 ∨ q.rows = 0) : s.copyIssue i d la q = s.finishLate (lenOf i) (.x d) la 0 := by
  simp [State.copyIssue, State.me_here h, hc, he]

variable (hb : q.rowBytes ≠ 0) (hr : q.rows ≠ 0)
include hb hr

theorem State.copyIssue_fails (hp : ¬q.Passes (s.wg t.wg)) : s.copyIssue i d la q = s.finishLate (lenOf i) (.x d) la (-1) := by
  simp [State.copyIssue, State.me_here h, hc, hb, hr, mt (q.bad_iff (s.wg t.wg)).1 hp]

variable (hp : q.Passes (s.wg t.wg))
include hp

theorem State.copyIssue_unmet (hm : ¬s.Meets t.wg q) : s.copyIssue i d la q = s.finishLate (lenOf i) (.x d) la (-3) := by
  have hm' := mt (s.meets_iff t.wg q).1 hm
  rw [Bool.not_eq_false] at hm'
  simp [State.copyIssue, State.me_here h, hc, hb, hr, (q.bad_iff (s.wg t.wg)).2 hp, hm']

theorem State.copyIssue_passes (hm : s.Meets t.wg q) : s.copyIssue i d la q = s.startCopy i d la q (s.wg t.wg) t := by
  simp only [State.copyIssue, State.me_here h, hc, hb, hr, (q.bad_iff _).2 hp, (s.meets_iff t.wg q).2 hm, Bool.not_true, or_self,
    Bool.false_eq_true, if_false, State.startCopy, State.takeCopy]
  rfl

end

/-! ### What an acceptance does -/

@[simp] theorem State.queueCopy_cur (s : State) (t : Thread) (m : CopyCmd) : (s.queueCopy t m).cur = s.cur := rfl

theorem State.queueCopy_copyQ (s : State) (t : Thread) (m : CopyCmd) :
    ((s.queueCopy t m).core t.core).copyQ = (s.core t.core).copyQ ++ [m] :=
  congrArg Core.copyQ (State.core_updCore { s with nextId := s.nextId + 1 } t.core fun c => { c with copyQ := c.copyQ ++ [m] })

theorem State.queueCopy_me (s : State) (t : Thread) (m : CopyCmd) : (s.queueCopy t m).me = s.me.accept .copy m.id :=
  State.me_updMe ..

/-- In the state that the checks of a copy have left, its command is queued and counted, with status 0, or its thread waits. -/
def State.Accepts (s s1 : State) (t : Thread) (i : Instr) (d : BitVec 5) (la : BitVec 4) (q : CopyArgs) : Prop :=
  (s1.copyRoom s1.me = true →
    ∃ (s2 : State) (u : Thread) (id : Nat), exec i s = .next (s2.setThr s.cur u) ∧ s2.mem = s1.mem ∧ s2.wgs = s1.wgs ∧
      (s2.core t.core).copyQ = (s1.core t.core).copyQ ++ [q.cmd (s.wg t.wg) t id s.cur] ∧
      LateEnd { s1.me with ops := s1.me.ops ++ [⟨.copy, id, false, none⟩] } u i (.x d) la 0) ∧
  (s1.copyRoom s1.me = false → exec i s = .next (s1.waitOn (.accept i)))

theorem accepts_copy {s s1 : State} {t : Thread} {i : Instr} {d : BitVec 5} {la : BitVec 4} {q : CopyArgs}
    (hx : exec i s = .next (s1.takeCopy i d la q (s.wg t.wg) t)) (hcur : s1.cur = s.cur) : s.Accepts s1 t i d la q := by
  refine ⟨fun hroom => ?_, fun hfull => ?_⟩
  · rw [State.takeCopy, hroom, hcur] at hx
    obtain ⟨u, hu, hend⟩ := (s1.queueCopy t (q.cmd (s.wg t.wg) t s1.nextId s.cur)).finishLate_eq i (.x d) la 0
    rw [State.queueCopy_me] at hend
    refine ⟨s1.queueCopy t (q.cmd (s.wg t.wg) t s1.nextId s.cur), u, s1.nextId, hx.trans (congrArg _ (hu.trans ?_)), rfl, rfl,
      s1.queueCopy_copyQ t _, hend⟩
    rw [State.queueCopy_cur, hcur]
  · rw [State.takeCopy, hfull] at hx
    exact hx

/-- A copy instruction, check by check (06 R142). -/
theorem copy_issues {s : State} {t : Thread} {i : Instr} {d : BitVec 5} {la : BitVec 4} {q : CopyArgs}
    (h : tget s.threads s.cur = some t) (hx : exec i s = .next (s.copyIssue i d la q)) :
    (t.role.copy = false → exec i s = .next (s.trap 0x20 (parcels i))) ∧
    (t.role.copy = true →
      ((q.rowBytes = 0 ∨ q.rows = 0) → s.Gives t i d la 0) ∧
      (q.rowBytes ≠ 0 → q.rows ≠ 0 → ¬q.Passes (s.wg t.wg) → s.Gives t i d la (-1)) ∧
      (q.rowBytes ≠ 0 → q.rows ≠ 0 → q.Passes (s.wg t.wg) → ¬s.Meets t.wg q → s.Gives t i d la (-3)) ∧
      (q.rowBytes ≠ 0 → q.rows ≠ 0 → q.Passes (s.wg t.wg) → s.Meets t.wg q →
        ((∀ r < q.rows, ¬q.Masked (s.wg t.wg) r) → s.Accepts s t i d la q) ∧
        ∀ r < q.rows, q.Masked (s.wg t.wg) r → (∀ j < r, ¬q.Masked (s.wg t.wg) j) →
          let x := s.xlate (t.mctx s.cur) (q.maddr + BitVec.ofNat 64 (r * q.mstride))
            (if q.kind = .out ∨ q.kind = .sct then .store else .load)
          (∀ s1 pa leaf, x = (s1, .ok pa leaf) → s1.cur = s.cur → s.Accepts s1 t i d la q) ∧
          (∀ s1 e, x = (s1, .fault e) → exec i s = .next (s1.trap e (q.maddr + BitVec.ofNat 64 (r * q.mstride)))))) := by
  have hnext : ∀ {y : State}, s.copyIssue i d la q = y → exec i s = .next y := fun hy => hx.trans (congrArg _ hy)
  refine ⟨fun hc => hnext (State.copyIssue_rights h hc), fun hc => ⟨fun he => refused_walk h (hnext (State.copyIssue_empty h hc he)),
    fun hb hr hp => refused_walk h (hnext (State.copyIssue_fails h hc hb hr hp)),
    fun hb hr hp hm => refused_walk h (hnext (State.copyIssue_unmet h hc hb hr hp hm)), fun hb hr hp hm => ?_⟩⟩
  have hstart := State.copyIssue_passes (i := i) (d := d) (la := la) h hc hb hr hp hm
  exact ⟨fun hn => accepts_copy (hnext (hstart.trans (State.startCopy_none hn))) rfl, fun r hr hs hf =>
    ⟨fun s1 pa leaf hok hcur => accepts_copy (hnext (hstart.trans (State.startCopy_ok q.kind.inbound_access hr hs hf hok))) hcur,
      fun s1 e hfault => hnext (hstart.trans (State.startCopy_fault q.kind.inbound_access hr hs hf hfault))⟩⟩

/-! ### The five instructions -/

/-- The operands of a copy instruction, as its fields name them (06 R141). -/
def State.copyArgs (s : State) (kind : CopyKind) (a b c : BitVec 5) (ss : BitVec 13) (mo : BitVec 16) (dm : BitVec 4) : CopyArgs :=
  ⟨kind, s.srcX 0 a, s.srcX 1 b, s.srcX 2 c, if kind = .gat ∨ kind = .sct then 0 else 16 * ss.toNat,
    if kind = .mc then dm.toNat else 0, if kind = .gat ∨ kind = .sct then 64 * mo.toNat else 0⟩

section
variable {g : BitVec 4} {d a b c : BitVec 5} {sc : Scope} {ss : BitVec 13} {mo : BitVec 16} {dm : BitVec 4} {la : BitVec 4} {ru : BitVec 3}
  {i : Instr}

/-- The five copy instructions with their kinds. -/
def copyInstrs (g : BitVec 4) (d a b c : BitVec 5) (sc : Scope) (ss : BitVec 13) (mo : BitVec 16) (dm : BitVec 4) (la : BitVec 4)
    (ru : BitVec 3) : List (Instr × CopyKind) :=
  [(Instr.cpyIn g d a b c ss la ru, CopyKind.cin), (.cpyMc g d a b c dm ss la ru, .mc), (.cpyGat g d a b c mo la ru, .gat),
    (.cpyOut sc g d a b c ss la ru, .out), (.cpySct sc g d a b c mo la ru, .sct)]

theorem copyOp_runs {s : State} {t : Thread} (hr : Runs s t g [.x d, .x a, .x b, .x c] [.x a, .x b, .x c]) (hon : t.onL = false)
    (kind : CopyKind) (step dmask first : Nat) : s.copyOp i g d a b c la kind step dmask first =
      .next (s.copyIssue i d la ⟨kind, s.srcX 0 a, s.srcX 1 b, s.srcX 2 c, step, dmask, first⟩) :=
  State.lane_runs hr i true (fun _ => hon) _

theorem exec_copy {kind : CopyKind} {s : State} {t : Thread} (hr : Runs s t g [.x d, .x a, .x b, .x c] [.x a, .x b, .x c])
    (hon : t.onL = false) (hi : (i, kind) ∈ copyInstrs g d a b c sc ss mo dm la ru) :
    exec i s = .next (s.copyIssue i d la (s.copyArgs kind a b c ss mo dm)) := by
  simp only [copyInstrs, List.mem_cons, Prod.mk.injEq, List.not_mem_nil, or_false] at hi
  obtain ⟨rfl, rfl⟩ | ⟨rfl, rfl⟩ | ⟨rfl, rfl⟩ | ⟨rfl, rfl⟩ | ⟨rfl, rfl⟩ := hi
  · exact copyOp_runs hr hon .cin (16 * ss.toNat) 0 0
  · exact copyOp_runs hr hon .mc (16 * ss.toNat) dm.toNat 0
  · exact copyOp_runs hr hon .gat 0 0 (64 * mo.toNat)
  · exact copyOp_runs hr hon .out (16 * ss.toNat) 0 0
  · exact copyOp_runs hr hon .sct 0 0 (64 * mo.toNat)

/-! The operands in the terms of the fields. -/

variable {s : State} {kind : CopyKind} {G : WG}

theorem State.copyArgs_passes :
    let q := s.copyArgs kind a b c ss mo dm
    let packs := kind = .gat ∨ kind = .sct
    let sstride := if packs then 0 else 16 * ss.toNat
    let step := if sstride = 0 then q.rowBytes else sstride
    q.step = step ∧
    ((q.maddr.toNat % 4 = 0 ∧ q.soff % 4 = 0 ∧ q.rowBytes % 4 = 0 ∧ q.mstride % 4 = 0 ∧ (sstride = 0 ∨ q.rowBytes ≤ step) ∧
      q.soff + (q.rows - 1) * step + q.rowBytes ≤ G.spPages * 4096 ∧
      (q.boff = 0xFFFFFFFF ∨ (q.boff % 16 = 0 ∧ q.boff + 16 ≤ G.spPages * 4096)) ∧
      (packs → 64 * mo.toNat + (q.rows + 7) / 8 ≤ G.spPages * 4096) ∧
      -(2 ^ 55 : Int) ≤ q.maddr.toInt ∧ q.maddr.toInt < 2 ^ 55 ∧
      q.maddr.toInt + ((q.rows - 1) * q.mstride + q.rowBytes : Nat) ≤ 2 ^ 55 ∧ (kind = .mc → dm ≠ 0)) ↔ q.Passes G) := by
  intro q packs sstride step
  have hpacks : q.kind.packs = true ↔ packs := kind.packs_iff
  have hstep : q.step = step := by
    have hno : packs ∨ sstride = 0 ↔ sstride = 0 := or_iff_right_of_imp fun hp => if_pos hp
    unfold CopyArgs.step
    simp only [hpacks, show q.ss = sstride from rfl, hno, step]
  have hmo : packs → q.mo = 64 * mo.toNat := fun hp => if_pos hp
  have hdm : kind = .mc → (q.dmask ≠ 0 ↔ dm ≠ 0) := fun hk => by
    rw [show q.dmask = dm.toNat from if_pos hk, ne_eq, ne_eq, BitVec.toNat_eq]
    rfl
  refine ⟨hstep, fun ⟨maddr, soff, bytes, stride, hfits, last, boff, mask, low, high, range, dmask⟩ => ?_,
    fun ⟨maddr, soff, bytes, stride, hfits, last, boff, mask, ⟨low, high, range⟩, dmask⟩ => ?_⟩
  · exact ⟨maddr, soff, bytes, stride, hstep ▸ hfits, hstep ▸ last, boff, fun hp => hmo (hpacks.1 hp) ▸ mask (hpacks.1 hp),
      ⟨low, high, range⟩, fun hk => (hdm hk).2 (dmask hk)⟩
  · exact ⟨maddr, soff, bytes, stride, hstep ▸ hfits, hstep ▸ last, boff, fun hp => hmo hp ▸ mask (hpacks.2 hp), low, high, range,
      fun hk => (hdm hk).1 (dmask hk)⟩

theorem State.copyArgs_meets {w : Nat} : s.Meets w (s.copyArgs kind a b c ss mo dm) ↔
    (kind = .mc → ∀ x < 4, dm.getLsbD x = true → (s.receiver w x).isSome = true) :=
  imp_congr_right fun (hk : kind = .mc) => by
    simp only [State.copyArgs, if_pos hk]
    rfl

theorem State.copyArgs_masked {r : Nat} : (s.copyArgs kind a b c ss mo dm).Masked G r ↔
    (kind = .gat ∨ kind = .sct → (G.spad.read (64 * mo.toNat + r / 8)).getLsbD (r % 8) = true) :=
  imp_congr_ctx (CopyKind.packs_iff kind) fun hk => by simp only [State.copyArgs, if_pos hk]

theorem exec_copyAccept {k : Nat} {t : Thread} (h : tget s.threads k = some t)
    (hi : i ∈ (copyInstrs g d a b c sc ss mo dm la ru).map Prod.fst) (hw : t.wait = some (.accept i)) :
    exec (.copyAccept k) s = if s.copyRoom t then exec i { s with cur := k, gang := none } else .next s := by
  change execCopyAccept k s = _
  simp only [copyInstrs, List.map_cons, List.map_nil, List.mem_cons, List.not_mem_nil, or_false] at hi
  rw [execCopyAccept, State.thr_here h, hw]
  obtain rfl | rfl | rfl | rfl | rfl := hi <;> rfl

end

/-- Settles O47: a copy instruction is its checks in their order, and then its acceptance in the state its first translation leaves. -/
theorem copyCommands : Obligations.CopyCommands := by
  refine ⟨fun s t g d a b c sc ss mo dm la ru hr hon => ?_, fun s k t g d a b c sc ss mo dm la ru h i hi hw => ?_⟩
  · intro G va soff boff rowBytes rows stride i kind hi packs sstride step last masked ok met only
    let q := s.copyArgs kind a b c ss mo dm
    obtain ⟨hstep, hok⟩ : q.step = step ∧ (ok ↔ q.Passes G) := State.copyArgs_passes
    have hmasked : ∀ r, q.Masked G r ↔ masked r := fun r => State.copyArgs_masked
    obtain ⟨hrights, hchecks⟩ := copy_issues hr.here (exec_copy hr hon hi)
    refine ⟨hrights, fun hc => ?_⟩
    obtain ⟨hempty, hfails, hunmet, hpasses⟩ := hchecks hc
    refine ⟨hempty, fun hb hn ho => hfails hb hn (mt hok.2 ho), fun hb hn ho hm => hunmet hb hn (hok.1 ho) (mt State.copyArgs_meets.1 hm),
      fun hb hn ho hm => ?_⟩
    obtain ⟨hnone, hfirst⟩ := hpasses hb hn (hok.1 ho) (State.copyArgs_meets.2 hm)
    intro accepts
    have haccepts : ∀ {s1 : State}, s.Accepts s1 t i d la q → accepts s1 := fun ⟨hroom, hfull⟩ => by
      refine ⟨fun hroomy => ?_, hfull⟩
      obtain ⟨s2, u, id, hx, hmem, hwgs, hq, hend⟩ := hroom hroomy
      exact ⟨s2, u, _, hx, hmem, hwgs, hq, rfl, rfl, rfl, rfl, rfl, rfl, rfl, rfl, rfl, hstep, rfl, rfl,
        fun r hlt => (CopyArgs.rowSel_iff _ G hlt).trans (hmasked r), hend⟩
    refine ⟨fun hall => haccepts (hnone fun r hlt => mt (hmasked r).1 (hall r hlt)), fun r hlt hs hf => ?_⟩
    obtain ⟨hok, hfault⟩ := hfirst r hlt ((hmasked r).2 hs) fun j hj => mt (hmasked j).1 (hf j hj)
    exact ⟨fun s1 pa leaf hx hcur => haccepts (hok s1 pa leaf hx hcur), hfault⟩
  · have hx := exec_copyAccept (s := s) h hi hw
    exact ⟨fun hf => hx.trans (if_neg (by simp [hf])), fun hroom => hx.trans (if_pos hroom)⟩

end Sys2Proof.Machine

namespace Sys2Proof.Machine

/-! ## Elements of a packed register value (07 R152) -/

section
variable {w n : Nat} {f : Nat → FRes}

theorem packFrom_lt (h : ∀ i < n, (f i).1 < 2 ^ w) : (packFrom w f n).1 < 2 ^ (w * n) := by
  induction n with
  | zero => exact Nat.one_pos
  | succ n ih =>
    have hrest := ih fun i hi => h i (Nat.lt_succ_of_lt hi)
    calc (packFrom w f n).1 + (f n).1 * 2 ^ (w * n)
      _ < 2 ^ (w * n) + (f n).1 * 2 ^ (w * n) := Nat.add_lt_add_right hrest _
      _ = ((f n).1 + 1) * 2 ^ (w * n) := by rw [Nat.succ_mul, Nat.add_comm]
      _ ≤ 2 ^ w * 2 ^ (w * n) := Nat.mul_le_mul_right _ (h n (Nat.lt_succ_self n))
      _ = 2 ^ (w * (n + 1)) := by rw [← pow_add, Nat.mul_succ, Nat.add_comm]

/-- Elements above one add a multiple of what its bits reach, and those below it stay below its place. -/
theorem packFrom_element (h : ∀ i < n, (f i).1 < 2 ^ w) {i : Nat} (hi : i < n) :
    (packFrom w f n).1 / 2 ^ (w * i) % 2 ^ w = (f i).1 := by
  induction n with
  | zero => exact absurd hi (Nat.not_lt_zero i)
  | succ n ih =>
    have hlow : ∀ j < n, (f j).1 < 2 ^ w := fun j hj => h j (Nat.lt_succ_of_lt hj)
    change ((packFrom w f n).1 + (f n).1 * 2 ^ (w * n)) / 2 ^ (w * i) % 2 ^ w = (f i).1
    rcases Nat.lt_succ_iff_lt_or_eq.1 hi with hlt | rfl
    · obtain ⟨k, rfl⟩ := Nat.exists_eq_add_of_lt hlt
      have hsplit : (f (i + k + 1)).1 * 2 ^ (w * (i + k + 1)) = (f (i + k + 1)).1 * 2 ^ (w * k) * 2 ^ w * 2 ^ (w * i) := by
        rw [Nat.mul_succ, Nat.mul_add, pow_add, pow_add]
        ac_rfl
      rw [hsplit, Nat.add_mul_div_right _ _ (Nat.two_pow_pos _), Nat.add_mul_mod_self_right, ih hlow hlt]
    · rw [Nat.add_mul_div_right _ _ (Nat.two_pow_pos _), Nat.div_eq_of_lt (packFrom_lt hlow), Nat.zero_add,
        Nat.mod_eq_of_lt (h i hi)]

theorem packFrom_flag (j : Nat) : (packFrom w f n).2.getLsbD j = true ↔ ∃ i < n, (f i).2.getLsbD j = true := by
  induction n with
  | zero => simp [packFrom]
  | succ n ih => simp only [packFrom, BitVec.getLsbD_or, Bool.or_eq_true, ih, Nat.exists_lt_succ_right]

end

theorem width_mul_count_le (ty : FType) : ty.elem.width * ty.count ≤ 64 := by
  cases ty <;> decide

/-- Settles O17: the sum of elements at their places stays below 64 bits, so a register holds it whole. -/
theorem packedElements : Obligations.PackedElements := by
  intro ty f h
  have hlt := packFrom_lt h
  have hword : (FType.pack ty f).1.toNat = (packFrom ty.elem.width f ty.count).1 :=
    BitVec.toNat_ofNat _ _ |>.trans (Nat.mod_eq_of_lt (hlt.trans_le (Nat.pow_le_pow_right Nat.two_pos (width_mul_count_le ty))))
  refine ⟨fun i hi => ?_, hword ▸ hlt, fun j => packFrom_flag j⟩
  unfold FType.bitsAt
  rw [hword, packFrom_element h hi]

/-! ## Instructions on control registers (07 R157, R158; 18 R406) -/

section
variable {s : State} {t : Thread} {n : BitVec 12}

theorem not_userReads_iff : (!userReads n) = true ↔ n.toNat / 1024 = 2 := by simp [userReads, csrClass]

theorem not_userWrites_iff : (!userWrites n) = true ↔ 1024 ≤ n.toNat := by simp [userWrites, csrClass]

theorem exec_csrr {d : BitVec 5} (h : Runs s t always [.x d] []) :
    exec (.csrr d n) s =
      .next (if !t.mode && !userReads n then s.trap 0x01 (parcels (.csrr d n)) else s.finishX 4 d (s.csr t n)) := by
  change execCsrr d n s = _
  unfold execCsrr
  rw [State.lane_runs h _ false nofun, State.me_here h.here]
  rfl

theorem csrWriteOp_runs {a : BitVec 5} (h : Runs s t always [.x a] [.x a]) (i : Instr) (f : Word → Word → Word) :
    csrWriteOp i a n f s =
      .next (if !t.mode && !userWrites n then s.trap 0x01 (parcels i)
        else (s.setCsr n (f (s.csr t n) (s.srcX 0 a))).finish (lenOf i)) := by
  unfold csrWriteOp
  rw [State.lane_runs h _ false nofun, State.me_here h.here]
  rfl

end

/-- Settles O27: each instruction is the test of the access class, and then its read or its write. -/
theorem controlRegisterAccess : Obligations.ControlRegisterAccess := by
  refine ⟨fun s t d n h => ⟨fun hp => ?_, fun hm hc => ?_⟩, fun s t a n h => ⟨fun hp => ?_, fun hm hc => ?_⟩⟩
  · refine Gives.of_put h.here ((exec_csrr h).trans (congrArg _ (if_neg ?_))) rfl
    rw [Bool.and_eq_true, not_userReads_iff]
    rintro ⟨hm, hc⟩
    rcases hp with hp | hp
    · simp [hp] at hm
    · exact hp hc
  · refine (exec_csrr h).trans (congrArg _ (if_pos ?_))
    rw [hm, not_userReads_iff.2 hc]
    rfl
  · have hpass : ¬(!t.mode && !userWrites n) = true := by
      rw [Bool.and_eq_true, not_userWrites_iff]
      rintro ⟨hm, hc⟩
      rcases hp with hp | hp
      · simp [hp] at hm
      · omega
    have hwrite := fun i f => (csrWriteOp_runs h i f).trans (congrArg _ (if_neg hpass))
    exact ⟨hwrite (.csrw a n) fun _ v => v, hwrite (.csrs a n) fun c v => c ||| v, hwrite (.csrc a n) fun c v => c &&& ~~~v⟩
  · have hfail : (!t.mode && !userWrites n) = true := by rw [hm, not_userWrites_iff.2 hc]; rfl
    have htrap := fun i f => (csrWriteOp_runs h i f).trans (congrArg _ (if_pos hfail))
    exact ⟨htrap (.csrw a n) fun _ v => v, htrap (.csrs a n) fun c v => c ||| v, htrap (.csrc a n) fun c v => c &&& ~~~v⟩

end Sys2Proof.Machine

namespace Sys2Proof.Machine

/-! ## Fields of the control registers (07 R154, R161; 18 R393) -/

theorem laMode_force (force locked : Bool) :
    (BitVec.ofNat 64 ((if force then 1 else 0) + if locked then 2 else 0)).getLsbD 0 = force := by
  cases force <;> cases locked <;> rfl

theorem Role.word_copy (r : Role) : r.word.getLsbD 2 = r.copy := by
  have hk := r.kind.isLt
  rw [Role.word, BitVec.getLsbD, Nat.testBit_eq_decide_div_mod_eq, BitVec.toNat_ofNat]
  cases hcopy : r.copy with
  | false =>
    rw [decide_eq_false_iff_not, if_neg Bool.false_ne_true]
    omega
  | true =>
    rw [decide_eq_true_eq, if_pos rfl]
    omega

theorem Role.word_kind (r : Role) : r.word.toNat % 4 = r.kind.toNat := by
  have hk := r.kind.isLt
  rw [Role.word, BitVec.toNat_ofNat]
  split <;> omega

/-- CAUSE has its code and position side by side in the low 14 bits, and SELF at bit 16. -/
theorem Cause.word_ofWord (v : Word) : (Cause.ofWord v).word = v &&& 0x13FFF := by
  have hlow : (v.setWidth 8).toNat + ((v >>> 8).setWidth 6).toNat * 2 ^ 8 = v.toNat % 2 ^ 14 := by
    rw [BitVec.toNat_setWidth, BitVec.toNat_setWidth, BitVec.toNat_ushiftRight, Nat.shiftRight_eq_div_pow]
    omega
  have hself : (if v.getLsbD 16 then 2 ^ 16 else 0) = v.toNat / 2 ^ 16 % 2 ^ 1 * 2 ^ 16 := by
    rw [pow_one, ← ite_getLsbD]
    split <;> rfl
  calc (Cause.ofWord v).word
    _ = BitVec.ofNat 64 (v.toNat % 2 ^ 14 + v.toNat / 2 ^ 16 % 2 ^ 1 * 2 ^ 16) := by rw [← hlow, ← hself]; rfl
    _ = v &&& BitVec.ofNat 64 (2 ^ 14 - 1) ||| v &&& BitVec.ofNat 64 ((2 ^ 1 - 1) * 2 ^ 16) := by
      rw [and_lowMask, and_fieldMask, ofNat_add_mul _ _ 16 (by omega)]
    _ = v &&& 0x13FFF := (BitVec.and_or_distrib_left ..).symm

/-- STATUS of its fields: MODE, PMODE, whether the core is an L-core, SCLASS. -/
def statusOf (mode pmode onL : Bool) (sclass : BitVec 2) : Word :=
  BitVec.ofNat 64 ((if mode then 1 else 0) + (if pmode then 2 else 0) + (if onL then 0 else 4) + sclass.toNat * 8)

theorem statusOf_pmode : ∀ (mode old new onL : Bool) (sclass : BitVec 2),
    statusOf mode new onL sclass = statusOf mode old onL sclass &&& ~~~2 ||| if new then BitVec.twoPow 64 1 else 0#64 := by decide

theorem statusOf_pmode_sclass : ∀ (mode old new onL : Bool) (was is : BitVec 2),
    statusOf mode new onL is =
      statusOf mode old onL was &&& ~~~0x1A ||| ((if new then BitVec.twoPow 64 1 else 0#64) ||| BitVec.ofNat 64 (is.toNat * 2 ^ 3)) := by
  decide

/-- The test of the addresses is made of a level that is active (07 R154). -/
theorem Loop.checked_fields (l : Loop) : (l.checked.start = l.start ∧ l.checked.last = l.last) ∧
    (l.checked.count ≠ 0 → l.checked = l ∧ l.start ≤ l.last ∧ l.start.toNat % 4 = 0 ∧ l.last.toNat % 4 = 0) ∧
    (l.count = 0 → l.checked = l) := by
  unfold Loop.checked
  split
  next hbad =>
    refine ⟨⟨rfl, rfl⟩, fun hc => absurd rfl hc, fun hc => ?_⟩
    simp [Loop.active, hc] at hbad
  next hgood =>
    refine ⟨⟨rfl, rfl⟩, fun hc => ⟨rfl, ?_⟩, fun _ => rfl⟩
    have hactive : l.active = true := bne_iff_ne.2 hc
    simpa [hactive, and_assoc] using hgood

/-! ## What a control register reads as after a write (07 R157 to R163) -/

theorem State.setCsr_readOnly (s : State) {n : BitVec 12} (v : Word) (h : 0xC00 ≤ n.toNat) : s.setCsr n v = s := by
  unfold State.setCsr
  dsimp only
  split
  case h_26 => rfl
  all_goals omega

theorem State.csr_setCsr_tvec (s : State) (v : Word) :
    (s.setCsr 0x804 v).csr (s.setCsr 0x804 v).me 0x804 = v &&& 0xFFFFFFFFFFFFFFF8 :=
  congrArg Core.tvec (s.core_updCore s.me.core fun c => { c with tvec := v &&& 0xFFFFFFFFFFFFFFF8 })

section
variable {s : State} {t : Thread} (h : tget s.threads s.cur = some t) (v : Word)
include h

/-- A write that changes the thread alone reads back from the changed thread. -/
theorem State.csr_setCsr {n : BitVec 12} {w : Word} {f : Thread → Thread} (hset : s.setCsr n v = s.updMe f)
    (hread : (s.updMe f).csr (f t) n = w) : (s.setCsr n v).csr (s.setCsr n v).me n = w := by
  rw [hset, State.me_updMe, State.me_here h, hread]

theorem State.csr_setCsr_laMode : ((s.setCsr 0x003 v).csr (s.setCsr 0x003 v).me 0x003).getLsbD 0 = v.getLsbD 0 := by
  have hback : (s.setCsr 0x003 v).csr (s.setCsr 0x003 v).me 0x003 = _ := State.csr_setCsr h v rfl rfl
  rw [hback]
  exact laMode_force _ _

theorem State.csr_setCsr_status : (s.setCsr 0x800 v).csr (s.setCsr 0x800 v).me 0x800 =
    statusOf t.mode (v.getLsbD 1) t.onL (if t.onL then (v >>> 3).setWidth 2 else t.sclass) :=
  State.csr_setCsr h v rfl rfl

theorem State.csr_setCsr_status_S (hS : t.onL = false) :
    (s.setCsr 0x800 v).csr (s.setCsr 0x800 v).me 0x800 = s.csr t 0x800 &&& ~~~2 ||| v &&& 2 := by
  rw [State.csr_setCsr_status h v, hS, if_neg Bool.false_ne_true, statusOf_pmode _ t.pmode, ← BitVec.and_twoPow, ← hS]
  rfl

theorem State.csr_setCsr_status_L (hL : t.onL = true) :
    (s.setCsr 0x800 v).csr (s.setCsr 0x800 v).me 0x800 = s.csr t 0x800 &&& ~~~0x1A ||| v &&& 0x1A := by
  have hsclass : BitVec.ofNat 64 (((v >>> 3).setWidth 2).toNat * 2 ^ 3) = v &&& BitVec.ofNat 64 ((2 ^ 2 - 1) * 2 ^ 3) := by
    rw [and_fieldMask, BitVec.toNat_setWidth, BitVec.toNat_ushiftRight, Nat.shiftRight_eq_div_pow]
  rw [State.csr_setCsr_status h v, hL, if_pos rfl, statusOf_pmode_sclass _ t.pmode _ _ t.sclass, ← BitVec.and_twoPow, hsclass,
    ← BitVec.and_or_distrib_left, ← hL]
  rfl

theorem State.csr_setCsr_role_L (hL : t.onL = true) : (s.setCsr 0x401 v).csr (s.setCsr 0x401 v).me 0x401 = 0xDC :=
  State.csr_setCsr h v rfl (if_pos hL)

theorem State.csr_setCsr_role_S (hS : t.onL = false) :
    ((s.setCsr 0x401 v).csr (s.setCsr 0x401 v).me 0x401).getLsbD 2 = (s.csr t 0x401).getLsbD 2 ∧
      ((s.setCsr 0x401 v).csr (s.setCsr 0x401 v).me 0x401).toNat % 4 = v.toNat % 4 := by
  have hnot := ne_true_of_eq_false hS
  have hold : s.csr t 0x401 = t.role.word := if_neg hnot
  have hback : (s.setCsr 0x401 v).csr (s.setCsr 0x401 v).me 0x401 = (t.role.write v).word := State.csr_setCsr h v rfl (if_neg hnot)
  rw [hback, hold, Role.word_copy, Role.word_copy, Role.word_kind]
  exact ⟨rfl, BitVec.toNat_setWidth 2 v⟩

end

/-- Settles O28: a register of the thread reads the fields that a write stores in the thread; TVEC is the core's. -/
theorem controlRegisterFields : Obligations.ControlRegisterFields := by
  refine ⟨fun s t v h => ?_, Loop.checked_fields⟩
  exact ⟨State.csr_setCsr h v rfl (setWidth_setWidth_eq_and v 2), State.csr_setCsr h v rfl (setWidth_setWidth_eq_and v 5),
    State.csr_setCsr_laMode h v, State.csr_setCsr h v rfl rfl, State.csr_setCsr h v rfl rfl, State.csr_setCsr h v rfl rfl,
    State.csr_setCsr h v rfl rfl, State.csr_setCsr h v rfl rfl, s.csr_setCsr_tvec v,
    State.csr_setCsr h v rfl (setWidth_setWidth_eq_and v 16), State.csr_setCsr h v rfl rfl,
    State.csr_setCsr h v rfl (Cause.word_ofWord v), State.csr_setCsr_status_S h v, State.csr_setCsr_status_L h v,
    State.csr_setCsr_role_S h v, State.csr_setCsr_role_L h v, fun _ => s.setCsr_readOnly v, rfl⟩

end Sys2Proof.Machine

namespace Sys2Proof.Machine

/-! ## The state after power-on (19 R436)

Units that no list names stand at their initial values. -/

theorem tget_getD_of_forall_eq {α : Type} {m : List (Nat × α)} {a : α} (h : ∀ c ∈ m, c.2 = a) (k : Nat) : (tget m k).getD a = a := by
  induction m with
  | nil => rfl
  | cons c m ih =>
    obtain ⟨hc, hm⟩ := List.forall_mem_cons.1 h
    simp only [tget]
    split
    · exact hc
    · exact ih hm

theorem reset_course (k : Nat) : State.reset.course k = Course.init :=
  tget_getD_of_forall_eq (fun c hc => by obtain ⟨i, _, rfl⟩ := List.mem_map.1 hc; rfl) k

theorem reset_die (d : Nat) : State.reset.die d = Die.init := rfl

theorem reset_core (c : Nat) : State.reset.core c = Core.init := rfl

theorem reset_port (n : Nat) : State.reset.port 0 n = Port.init := rfl

/-- Of the contexts, context 0 has a thread, and all else is at its initial value. -/
theorem reset_ctx (c : Nat) : ∃ k, State.reset.ctx c = { Ctx.init with thread := k } := by
  by_cases hc : c = 0
  · exact ⟨some 1, hc ▸ rfl⟩
  · exact ⟨none, congrArg (Option.getD · Ctx.init) (if_neg (Ne.symm hc))⟩

theorem reset_dieUp {d : Nat} (h : d < 16) : State.reset.dieUp d = true := by
  have hp : pkgOfDie d = 0 := Nat.div_eq_of_lt h
  unfold State.dieUp
  rw [hp]
  rfl

theorem reset_csr : ∀ n ∈ [0x001, 0x002, 0x003, 0x402, 0x403, 0x801, 0x802, 0x803, 0x804, 0x805, 0x808, 0x810, 0x811, 0x812, 0x813, 0x814,
    0x815, 0xC00, 0xC08, 0xC09], State.reset.csr bootThread (BitVec.ofNat 12 n) = 0 := by decide

theorem reset_courseRegisters {k : Nat} (hk : k < 64) :
    State.reset.ctrlGet 0 (0x04000000 + 0x100 * k) = some (BitVec.ofNat 64 (102 + 512 * 2 ^ 8 + 2 ^ 20 + 2 ^ 21)) := by
  refine (State.ctrlGet_course (r := 0) hk (by decide) (reset_dieUp (by omega))).trans ?_
  rw [State.courseRead, reset_course]
  rfl

theorem reset_contextRegisters {c : Nat} (hc : c < 144) :
    State.reset.ctrlGet 0 (0x00100000 + 0x100 * c + 0x08) = some 0 ∧
    State.reset.ctrlGet 0 (0x00100000 + 0x100 * c + 0x18) = some 0xFFFFFFFFFFFFFFFF ∧
    State.reset.ctrlGet 0 (0x00100000 + 0x100 * c + 0x30) = some 0 ∧ State.reset.ctrlGet 0 (0x00100000 + 0x100 * c + 0x38) = some 0 ∧
    State.reset.ctrlGet 0 (0x00100000 + 0x100 * c + 0x80) = some 0 := by
  obtain ⟨k, hctx⟩ := reset_ctx (0 * 256 + c)
  have hread : ∀ {r : Nat} {f : Ctx → Word}, r < 0x100 → State.reset.ctxRead (0 * 256 + c) r = some (f (State.reset.ctx (0 * 256 + c))) →
      State.reset.ctrlGet 0 (0x00100000 + 0x100 * c + r) = some (f { Ctx.init with thread := k }) := fun hr h => by
    rw [State.ctrlGet_ctx hc hr (reset_dieUp (by omega)), h, hctx]
  exact ⟨hread (f := Ctx.irqEn) (by decide) rfl, hread (f := Ctx.timecmp) (by decide) rfl, hread (f := Ctx.tid) (by decide) rfl,
    hread (f := Ctx.launch) (by decide) rfl, hread (f := Ctx.tok) (by decide) rfl⟩

theorem reset_dieRegister {d r : Nat} {x : Word} (hd : d < 10) (hr : r < 0x100000) (hx : State.reset.dieRead (0 * 16 + d) r = some x) :
    State.reset.ctrlGet 0 (0x05000000 + r + 0x100000 * d) = some x := by
  rw [Nat.add_right_comm, State.ctrlGet_die hd hr (reset_dieUp (by omega)), hx]

theorem reset_dieRegisters {d : Nat} (hd : d < 10) :
    State.reset.ctrlGet 0 (0x05060000 + 0x100000 * d) = some 0 ∧ State.reset.ctrlGet 0 (0x05080008 + 0x100000 * d) = some 0 ∧
    State.reset.ctrlGet 0 (0x05010010 + 0x100000 * d) = some 0x7FFFFFFFFFFFFFFF ∧
    State.reset.ctrlGet 0 (0x05010018 + 0x100000 * d) = some 0x8000000000000000 :=
  ⟨reset_dieRegister (r := 0x60000) hd (by decide) rfl, reset_dieRegister (r := 0x80008) hd (by decide) rfl,
    reset_dieRegister (r := 0x10010) hd (by decide) rfl, reset_dieRegister (r := 0x10018) hd (by decide) rfl⟩

theorem State.dieRead_profile {s : State} {d : Nat} (hd : isSDie d = true) : s.dieRead d 0x70000 = some (s.die d).profile.word := by
  simp [State.dieRead, hd]

theorem reset_sDieRegisters {d : Nat} (hd : d < 10) (h2 : 2 ≤ d) :
    State.reset.ctrlGet 0 (0x05070000 + 0x100000 * d) = some 4 ∧ State.reset.ctrlGet 0 (0x05050000 + 0x100000 * d) = some 1 := by
  have hs : isSDie (0 * 16 + d) = true := (isSDie_at 0 hd).trans (decide_eq_true h2)
  have hprofile : Die.init.profile.word = 4 := by decide
  exact ⟨reset_dieRegister (r := 0x70000) hd (by decide) ((State.dieRead_profile hs).trans (congrArg some hprofile)),
    reset_dieRegister (r := 0x50000) hd (by decide) (State.dieRead_fetch hs)⟩

theorem reset_arqCtl {d : Nat} (h : d < 2) : State.reset.ctrlGet 0 (0x05090008 + 0x100000 * d) = some 0 := by
  have hd : d < 10 := by omega
  have hl : isSDie (0 * 16 + d) = false := (isSDie_at 0 hd).trans (decide_eq_false (by omega))
  exact reset_dieRegister (r := 0x90008) hd (by decide) (State.dieRead_arq (r := 8) hl (by decide))

theorem reset_portCtl {n : Nat} (hn : n < 4) : State.reset.ctrlGet 0 (0x06000000 + 0x10000 * n) = some 0 :=
  (State.ctrlGet_port (r := 0) hn (by decide) (reset_dieUp (by unfold portDie; omega))).trans (by rw [reset_port]; rfl)

/-- Settles O42: the boot thread's registers and the calm state are read off; each block of control space reads its unit's initial value. -/
theorem resetState : Obligations.ResetState := by
  refine ⟨⟨bootThread, rfl, rfl, rfl, rfl, rfl, reset_csr⟩, fun _ => rfl, fun k => ?_, fun k hk => reset_courseRegisters (List.mem_range.1 hk),
    fun c hc => reset_contextRegisters (List.mem_range.1 hc), fun d hd => ?_, fun p hp => reset_portCtl (List.mem_range.1 hp),
    fun _ => ⟨rfl, rfl⟩, ⟨rfl, rfl, rfl⟩, rfl, nofun⟩
  · rw [reset_course]
    exact ⟨rfl, rfl⟩
  · have hlt := List.mem_range.1 hd
    obtain ⟨hidw, hexq, hmin, hmax⟩ := reset_dieRegisters hlt
    exact ⟨hidw, hexq, hmin, hmax, reset_sDieRegisters hlt, reset_arqCtl⟩

end Sys2Proof.Machine

namespace Sys2Proof.Machine

/-! ## Integer instructions: the forms they share (08 R171 to R184) -/

section
variable {s : State} {t : Thread} {g : BitVec 4} {i j : Instr}

theorem gives_alu3 {d a b : BitVec 5} (h : Runs s t g [.x d, .x a, .x b] [.x a, .x b]) (f : Word → Word → Word)
    (hx : exec i s = alu3 i g d a b f s) : Gives s t i (.x d) (f (s.srcX 0 a) (s.srcX 1 b)) :=
  Gives.of_put h.here (hx.trans (State.lane_runs h i false nofun _)) rfl

theorem gives_alu2 {d a : BitVec 5} (h : Runs s t g [.x d, .x a] [.x a]) (f : Word → Word)
    (hx : exec i s = alu2 i g d a f s) : Gives s t i (.x d) (f (s.srcX 0 a)) :=
  Gives.of_put h.here (hx.trans (State.lane_runs h i false nofun _)) rfl

theorem gives_alu1 {d : BitVec 5} (h : Runs s t g [.x d] []) (f : Thread → Word) (hx : exec i s = alu1 i g d f s) :
    Gives s t i (.x d) (f t) := by
  have he := hx.trans (State.lane_runs h i false nofun _)
  rw [State.me_here h.here] at he
  exact Gives.of_put h.here he rfl

theorem givesLate_late3 {d a b : BitVec 5} {la : BitVec 4} (h : Runs s t g [.x d, .x a, .x b] [.x a, .x b])
    (f : Word → Word → Word) (hx : exec i s = late3 i g d a b la f s) :
    GivesLate s t i (.x d) la (f (s.srcX 0 a) (s.srcX 1 b), 0) := by
  have hraise : ∀ t : Thread, t.raise 0 = t := fun t => congrArg (fun x => { t with fflags := x }) BitVec.or_zero
  refine GivesLate.of_post h.here ((hx.trans (State.lane_runs h i false nofun _)).trans ?_) rfl
  simp only [hraise]
  rfl

theorem givesP_cmp3 {d : BitVec 3} {a b : BitVec 5} (h : Runs s t g [.x a, .x b] [.x a, .x b])
    (f : Word → Word → Bool) (hx : exec i s = cmp3 i g d a b f s) : GivesP s t i d (f (s.srcX 0 a) (s.srcX 1 b)) :=
  GivesP.of_setP h.here (hx.trans (State.lane_runs h i false nofun _)) rfl

theorem givesP_pred3 {d a b : BitVec 3} (h : Runs s t g [] []) (f : Bool → Bool → Bool)
    (hx : exec i s = pred3 i g d a b f s) : GivesP s t i d (f (t.getP a) (t.getP b)) := by
  have he := hx.trans (State.lane_runs h i false nofun _)
  rw [State.me_here h.here] at he
  exact GivesP.of_setP h.here he rfl

/-- An R form and its X encoding (08 R184), whose value a property describes. -/
theorem givesSome_alu3 {d a b : BitVec 5} {p : Word → Prop} (h : Runs s t g [.x d, .x a, .x b] [.x a, .x b])
    (f : Word → Word → Word) (hi : exec i s = alu3 i g d a b f s) (hj : exec j s = alu3 j g d a b f s)
    (hp : p (f (s.srcX 0 a) (s.srcX 1 b))) : GivesSome s t i (.x d) p ∧ GivesSome s t j (.x d) p :=
  ⟨⟨_, gives_alu3 h f hi, hp⟩, _, gives_alu3 h f hj, hp⟩

theorem givesSome_alu2 {d a : BitVec 5} {p : Word → Prop} (h : Runs s t g [.x d, .x a] [.x a])
    (f : Word → Word) (hi : exec i s = alu2 i g d a f s) (hj : exec j s = alu2 j g d a f s)
    (hp : p (f (s.srcX 0 a))) : GivesSome s t i (.x d) p ∧ GivesSome s t j (.x d) p :=
  ⟨⟨_, gives_alu2 h f hi, hp⟩, _, gives_alu2 h f hj, hp⟩

end

/-- Settles O7: each is an instruction of three registers with the operation as its function. -/
theorem integerArithmetic : Obligations.IntegerArithmetic := by
  intro s t g d a b ru h
  exact ⟨gives_alu3 h (· + ·) rfl, gives_alu3 h (· + ·) rfl, gives_alu3 h (· - ·) rfl, gives_alu3 h (· - ·) rfl,
    gives_alu3 h (· &&& ·) rfl, gives_alu3 h (· &&& ·) rfl, gives_alu3 h (· ||| ·) rfl, gives_alu3 h (· ||| ·) rfl,
    gives_alu3 h (· ^^^ ·) rfl, gives_alu3 h (· ^^^ ·) rfl, gives_alu3 h (· &&& ~~~·) rfl, gives_alu3 h (· &&& ~~~·) rfl,
    gives_alu3 h (· ||| ~~~·) rfl, gives_alu3 h (· ||| ~~~·) rfl, gives_alu3 h (fun a b => ~~~(a ^^^ b)) rfl,
    gives_alu3 h (fun a b => ~~~(a ^^^ b)) rfl⟩

/-! ## Shifts and rotates (08 R169, R171) -/

theorem shiftLeft_eq_ofNat (a : Word) (n : Nat) : a <<< n = BitVec.ofNat 64 (a.toNat * 2 ^ n) := by
  apply BitVec.eq_of_toNat_eq
  rw [BitVec.toNat_shiftLeft, Nat.shiftLeft_eq, BitVec.toNat_ofNat]

theorem ushiftRight_eq_ofNat (a : Word) (n : Nat) : a >>> n = BitVec.ofNat 64 (a.toNat / 2 ^ n) := by
  rw [← Nat.shiftRight_eq_div_pow, ← BitVec.toNat_ushiftRight, BitVec.ofNat_toNat, BitVec.setWidth_eq]

theorem sshiftRight_eq_ofInt (a : Word) (n : Nat) : a.sshiftRight n = BitVec.ofInt 64 (a.toInt / 2 ^ n) := by
  rw [BitVec.sshiftRight_eq, Int.shiftRight_eq_div_pow, Nat.cast_pow, Nat.cast_ofNat]

theorem shAmt_mod (b : Word) : shAmt b % 64 = shAmt b := Nat.mod_mod _ _

theorem rolW_shAmt (a b : Word) : rolW a (shAmt b) = a <<< shAmt b ||| a >>> (64 - shAmt b) := by
  rw [rolW, BitVec.rotateLeft_def, shAmt_mod]

theorem rorW_shAmt (a b : Word) : rorW a (shAmt b) = a >>> shAmt b ||| a <<< (64 - shAmt b) := by
  rw [rorW, BitVec.rotateRight_def, shAmt_mod]

/-- Settles O8: a shift multiplies or divides by a power of two, and a rotation is two shifts. -/
theorem shiftsAndRotates : Obligations.ShiftsAndRotates := by
  intro s t g d a b ru h va n both
  have gives : ∀ {i j : Instr} (f : Word → Word → Word) {v : Word}, exec i s = alu3 i g d a b f s → exec j s = alu3 j g d a b f s →
      f va (s.srcX 1 b) = v → both i j v := by
    rintro i j f v hi hj rfl
    exact ⟨gives_alu3 h f hi, gives_alu3 h f hj⟩
  exact ⟨gives (fun a b => a <<< shAmt b) rfl rfl (shiftLeft_eq_ofNat _ _),
    gives (fun a b => a >>> shAmt b) rfl rfl (ushiftRight_eq_ofNat _ _),
    gives (fun a b => a.sshiftRight (shAmt b)) rfl rfl (sshiftRight_eq_ofInt _ _),
    gives (fun a b => rolW a (shAmt b)) rfl rfl (rolW_shAmt _ _), gives (fun a b => rorW a (shAmt b)) rfl rfl (rorW_shAmt _ _)⟩

/-! ## Minimum, maximum, `lea` and the product (08 R171, R176) -/

theorem minS_toInt (a b : Word) : (minS a b).toInt = Min.min a.toInt b.toInt := by
  rw [minS, BitVec.sle_eq_decide, min_def, apply_ite BitVec.toInt]
  simp only [decide_eq_true_eq]

theorem maxS_toInt (a b : Word) : (maxS a b).toInt = Max.max a.toInt b.toInt := by
  rw [maxS, BitVec.sle_eq_decide, max_def, apply_ite BitVec.toInt]
  simp only [decide_eq_true_eq]

theorem minU_toNat (a b : Word) : (minU a b).toNat = Min.min a.toNat b.toNat := by
  rw [minU, BitVec.ule_eq_decide, min_def, apply_ite BitVec.toNat]
  simp only [decide_eq_true_eq]

theorem maxU_toNat (a b : Word) : (maxU a b).toNat = Max.max a.toNat b.toNat := by
  rw [maxU, BitVec.ule_eq_decide, max_def, apply_ite BitVec.toNat]
  simp only [decide_eq_true_eq]

theorem leaW_toNat (k : BitVec 2) (a b : Word) : (leaW k a b).toNat = (a.toNat + b.toNat * 2 ^ k.toNat) % 2 ^ 64 := by
  rw [leaW, BitVec.toNat_add, BitVec.toNat_shiftLeft, Nat.shiftLeft_eq, Nat.add_mod_mod]

/-- The product is at most 2^126 in magnitude, so its high half fits. -/
theorem mulhW_toInt (a b : Word) : (mulhW a b).toInt = a.toInt * b.toInt / 2 ^ 64 := by
  have hlow : -(2 ^ 126) ≤ a.toInt * b.toInt := (by decide : -(2 ^ 126 : Int) ≤ -(2 ^ (64 * 2 - 2))).trans BitVec.le_toInt_mul_toInt
  have hhigh : a.toInt * b.toInt ≤ 2 ^ 126 := BitVec.toInt_mul_toInt_le
  exact BitVec.toInt_ofInt_eq_self (by decide) (by omega) (by omega)

theorem mulhnW_toNat (a b : Word) : (mulhnW a b).toNat = a.toNat * b.toNat / 2 ^ 64 := by
  rw [mulhnW, BitVec.toNat_ofNat, Nat.mod_eq_of_lt]
  exact Nat.div_lt_of_lt_mul (Nat.mul_lt_mul'' a.isLt b.isLt)

/-! ## Division (08 R179) -/

theorem divW_eq_sdiv {a b : Word} (hb : b ≠ 0) : divW a b = a.sdiv b := by
  apply BitVec.eq_of_toInt_eq
  rw [divW, if_neg hb, BitVec.toInt_ofInt, BitVec.toInt_sdiv]

theorem remW_eq_srem {a b : Word} (hb : b ≠ 0) : remW a b = a.srem b := by
  rw [remW, if_neg hb, ← BitVec.toInt_srem, BitVec.ofInt_toInt]

theorem divnW_eq_udiv {a b : Word} (hb : b ≠ 0) : divnW a b = a / b := by
  rw [divnW, if_neg hb, ← BitVec.toNat_udiv, BitVec.ofNat_toNat, BitVec.setWidth_eq]

theorem remnW_eq_umod {a b : Word} (hb : b ≠ 0) : remnW a b = a % b := by
  rw [remnW, if_neg hb, ← BitVec.toNat_umod, BitVec.ofNat_toNat, BitVec.setWidth_eq]

theorem divW_toInt {a b : Word} (hb : b ≠ 0) (hwrap : ¬(a = BitVec.intMin 64 ∧ b = BitVec.allOnes 64)) :
    (divW a b).toInt = a.toInt.tdiv b.toInt := by
  rw [divW_eq_sdiv hb]
  exact BitVec.toInt_sdiv_of_ne_or_ne a b (not_and_or.1 hwrap)

/-- Settles O9: minimum, maximum, `lea` and the product by the value of each; division by that of the four operations, case by case. -/
theorem minMaxMultiplyDivide : Obligations.MinMaxMultiplyDivide := by
  refine ⟨fun s t g d a b k ru h => ?_, fun s t g d a b la ru h => ?_⟩
  · exact ⟨givesSome_alu3 h minS rfl rfl (minS_toInt _ _), givesSome_alu3 h maxS rfl rfl (maxS_toInt _ _),
      givesSome_alu3 h minU rfl rfl (minU_toNat _ _), givesSome_alu3 h maxU rfl rfl (maxU_toNat _ _),
      givesSome_alu3 h (leaW k) rfl rfl (leaW_toNat k _ _), givesSome_alu3 h (· * ·) rfl rfl (BitVec.toNat_mul _ _),
      givesSome_alu3 h mulhW rfl rfl (mulhW_toInt _ _), givesSome_alu3 h mulhnW rfl rfl (mulhnW_toNat _ _)⟩
  · intro va vb
    refine ⟨divW va vb, divnW va vb, remW va vb, remnW va vb, givesLate_late3 h divW rfl, givesLate_late3 h divnW rfl,
      givesLate_late3 h remW rfl, givesLate_late3 h remnW rfl, fun hz => ?_, fun hne => ?_, divW_toInt, fun hmin hones => ?_⟩
    · exact ⟨if_pos hz, if_pos hz, if_pos hz, if_pos hz⟩
    · rw [divnW_eq_udiv hne, remnW_eq_umod hne, remW_eq_srem hne]
      exact ⟨BitVec.toNat_udiv, BitVec.toNat_umod, BitVec.toInt_srem va vb⟩
    · have hne : vb ≠ 0 := by rw [hones]; decide
      rw [divW_eq_sdiv hne, remW_eq_srem hne, hmin, hones]
      decide

/-! ## Compares and predicates (08 R181, R183) -/

/-- The bits of the predicate image below bit 7 are those of the predicates summed so far. -/
theorem testBit_foldl_bitAt (f : Nat → Bool) {n : Nat} (hn : n ≤ 7) : ∃ m, m < 2 ^ n ∧
    (List.range n).foldl (fun k i => k + bitAt (f i) i) 128 = 2 ^ 7 + m ∧ ∀ j < n, m.testBit j = f j := by
  induction n with
  | zero => exact ⟨0, Nat.one_pos, rfl, fun j hj => absurd hj j.not_lt_zero⟩
  | succ n ih =>
    obtain ⟨m, hm, hsum, hbits⟩ := ih (by omega)
    have hlt := Nat.two_pow_succ n
    rw [List.range_succ, List.foldl_append, hsum, List.foldl_cons, List.foldl_nil]
    cases hf : f n with
    | false =>
      refine ⟨m, by omega, rfl, fun j hj => ?_⟩
      rcases Nat.lt_succ_iff_lt_or_eq.1 hj with hj | rfl
      · exact hbits j hj
      · rw [hf, Nat.testBit_lt_two_pow hm]
    | true =>
      refine ⟨2 ^ n + m, by omega, by rw [bitAt, if_pos rfl]; omega, fun j hj => ?_⟩
      rcases Nat.lt_succ_iff_lt_or_eq.1 hj with hj | rfl
      · rw [Nat.testBit_two_pow_add_gt hj, hbits j hj]
      · rw [Nat.testBit_two_pow_add_eq, Nat.testBit_lt_two_pow hm, hf, Bool.not_false]

theorem Thread.getP_of_lt (t : Thread) {q : BitVec 3} (h : q.toNat < 7) : t.getP q = t.p[q.toNat] := by
  rw [Thread.getP, Vector.getElem?_eq_getElem h, Option.getD_some]

theorem Thread.getP_seven (t : Thread) : t.getP 7 = true := rfl

theorem lt_or_eq_seven (q : BitVec 3) : q.toNat < 7 ∨ q = 7 := by
  have hq := q.isLt
  rw [← BitVec.toNat_inj]
  exact Nat.lt_succ_iff_lt_or_eq.1 hq

theorem Thread.predImage_spec (t : Thread) : t.predImage.toNat < 256 ∧ ∀ q : BitVec 3, t.predImage.getLsbD q.toNat = t.getP q := by
  obtain ⟨m, hm, hsum, hbits⟩ := testBit_foldl_bitAt (fun i => t.p[i]?.getD false) (le_refl 7)
  have himage : t.predImage.toNat = 2 ^ 7 + m := by
    rw [Thread.predImage, hsum, BitVec.toNat_ofNat, Nat.mod_eq_of_lt (by omega)]
  refine ⟨by omega, fun q => ?_⟩
  rw [BitVec.getLsbD, himage]
  rcases lt_or_eq_seven q with hq | rfl
  · rw [Nat.testBit_two_pow_add_gt hq, hbits _ hq, t.getP_of_lt hq, Vector.getElem?_eq_getElem hq, Option.getD_some]
  · change (2 ^ 7 + m).testBit 7 = t.getP 7
    rw [Nat.testBit_two_pow_add_eq, Nat.testBit_lt_two_pow hm, Bool.not_false, t.getP_seven]

theorem Thread.getP_setPreds (t : Thread) (v : Word) (q : BitVec 3) : (t.setPreds v).getP q = (v.getLsbD q.toNat || q == 7) := by
  rcases lt_or_eq_seven q with hq | rfl
  · have hne : (q == 7) = false := beq_false_of_ne fun h => by rw [h] at hq; exact absurd hq (by decide)
    rw [Thread.getP_of_lt _ hq, hne, Bool.or_false]
    exact Vector.getElem_ofFn hq
  · rw [Thread.getP_seven, beq_self_eq_true, Bool.or_true]

/-- `pset` and its X encoding. -/
theorem ends_pset {s : State} {t : Thread} {g : BitVec 4} {a : BitVec 5} {i : Instr} (h : Runs s t g [.x a] [.x a])
    (hx : exec i s = s.lane i g false [.x a] [.x a] fun s => s.updMe fun t => (t.setPreds (s.srcX 0 a)).complete (lenOf i)) :
    ∃ u, Ends s t u i [] ∧ u.fflags = t.fflags ∧ ∀ q : BitVec 3, u.getP q = ((s.srcX 0 a).getLsbD q.toNat || q == 7) := by
  have o := (t.setPreds (s.srcX 0 a)).over_complete (lenOf i)
  have he : exec i s = .next (s.updMe fun _ => (t.setPreds (s.srcX 0 a)).complete (lenOf i)) := by
    rw [hx, State.lane_runs h i false nofun, State.updMe_here h.here, State.updMe_here h.here]
  refine ⟨_, Ends.of_complete [] h.here he rfl rfl rfl rfl rfl rfl fun e _ hq => ⟨hq, by cases e <;> rfl⟩, o.fflags, fun q => ?_⟩
  rw [← Thread.getP_setPreds t, Thread.getP, o.p, Thread.getP]

/-- The two encodings of a compare. -/
theorem givesP_cmp {s : State} {t : Thread} {g : BitVec 4} {d : BitVec 3} {a b : BitVec 5} {ru : BitVec 3} {v : Bool}
    (h : Runs s t g [.x a, .x b] [.x a, .x b]) (c : CmpOp) (hv : c.holds (s.srcX 0 a) (s.srcX 1 b) = v) :
    GivesP s t (.cmp c g d a b) d v ∧ GivesP s t (.cmpX c g d a b ru) d v :=
  hv ▸ ⟨givesP_cmp3 h c.holds rfl, givesP_cmp3 h c.holds rfl⟩

/-- The two encodings of a selection. -/
theorem gives_sel {s : State} {t : Thread} {g : BitVec 4} {d a b : BitVec 5} {p : BitVec 3} {i : Instr}
    (h : Runs s t g [.x d, .x a, .x b] [.x a, .x b])
    (hx : exec i s = s.lane i g false [.x d, .x a, .x b] [.x a, .x b] fun s =>
      s.finishX (lenOf i) d (if s.me.getP p then s.srcX 0 a else s.srcX 1 b)) :
    Gives s t i (.x d) (if t.getP p then s.srcX 0 a else s.srcX 1 b) := by
  have he := hx.trans (State.lane_runs h i false nofun _)
  rw [State.me_here h.here] at he
  exact Gives.of_put h.here he rfl

/-- Settles O10: the relation of a compare is read off; the predicate image and its inverse go bit by bit. -/
theorem comparesAndPredicates : Obligations.ComparesAndPredicates := by
  refine ⟨fun s t g d a b ru h => ?_, fun s t g d a b p ru h => ⟨gives_sel h rfl, gives_sel h rfl⟩, fun s t g d a b ru h => ?_,
    fun s t g d ru h => ?_, fun s t g a ru h => ⟨ends_pset h rfl, ends_pset h rfl⟩⟩
  · exact ⟨givesP_cmp h .eq (beq_eq_decide _ _), givesP_cmp h .ne decide_not.symm, givesP_cmp h .lt BitVec.slt_eq_decide,
      givesP_cmp h .ge BitVec.sle_eq_decide, givesP_cmp h .lo BitVec.ult_eq_decide, givesP_cmp h .hs BitVec.ule_eq_decide⟩
  · exact ⟨givesP_pred3 h (· && ·) rfl, givesP_pred3 h (· && ·) rfl, givesP_pred3 h (· || ·) rfl, givesP_pred3 h (· || ·) rfl,
      givesP_pred3 h (· != ·) rfl, givesP_pred3 h (· != ·) rfl, givesP_pred3 (b := 0) h (fun a _ => !a) rfl,
      givesP_pred3 (b := 0) h (fun a _ => !a) rfl⟩
  · exact ⟨⟨_, gives_alu1 h Thread.predImage rfl, t.predImage_spec⟩, _, gives_alu1 h Thread.predImage rfl, t.predImage_spec⟩

/-! ## Immediates and constants (08 R172, R173, R175) -/

theorem signExtend_shiftLeft (imm : BitVec 20) : imm.signExtend 64 <<< 12 = BitVec.ofInt 64 (imm.toInt * 2 ^ 12) := by
  rw [BitVec.shiftLeft_eq_mul_twoPow, BitVec.ofInt_mul]
  rfl

theorem setWidth_shiftLeft_or (imm : BitVec 32) (a : Word) :
    imm.setWidth 64 <<< 32 ||| (a.setWidth 32).setWidth 64 = BitVec.ofNat 64 (imm.toNat * 2 ^ 32 + a.toNat % 2 ^ 32) := by
  have himm : (imm.setWidth 64).toNat = imm.toNat := (BitVec.toNat_setWidth 64 imm).trans (Nat.mod_eq_of_lt (by omega))
  rw [Nat.add_comm, ofNat_add_mul _ _ 32 (Nat.mod_lt _ (by decide)), shiftLeft_eq_ofNat, himm, BitVec.or_comm, ← BitVec.toNat_setWidth,
    BitVec.ofNat_toNat]

/-- Settles O11: each is an instruction of at most two registers with the operation as its function. -/
theorem immediatesAndConstants : Obligations.ImmediatesAndConstants := by
  refine ⟨fun s t d a imm sh h => ?_, fun s t d imm h => ?_, fun s t g d imm h => ?_, fun s t g d a imm h => ?_⟩
  · exact ⟨gives_alu2 h (· + imm.signExtend 64) rfl, gives_alu2 h (· &&& imm.signExtend 64) rfl, gives_alu2 h (· ||| imm.signExtend 64) rfl,
      gives_alu2 h (· ^^^ imm.signExtend 64) rfl, shiftLeft_eq_ofNat _ _ ▸ gives_alu2 h (· <<< sh.toNat) rfl,
      ushiftRight_eq_ofNat _ _ ▸ gives_alu2 h (· >>> sh.toNat) rfl, sshiftRight_eq_ofInt _ _ ▸ gives_alu2 h (·.sshiftRight sh.toNat) rfl⟩
  · rw [← signExtend_shiftLeft]
    exact ⟨gives_alu1 h (fun _ => imm.signExtend 64 <<< 12) rfl, gives_alu1 h (fun t => t.pc + imm.signExtend 64 <<< 12) rfl⟩
  · rw [BitVec.ofNat_toNat]
    exact ⟨gives_alu1 h (fun _ => imm.signExtend 64) rfl, gives_alu1 h (fun _ => imm.setWidth 64) rfl⟩
  · rw [← setWidth_shiftLeft_or]
    exact gives_alu2 h (fun a => imm.setWidth 64 <<< 32 ||| (a.setWidth 32).setWidth 64) rfl

/-! ## Counts of bits (08 R177) -/

theorem clzW_zero : clzW 0 = 64 := rfl

theorem clzW_spec {a : Word} (ha : a ≠ 0) :
    (clzW a).toNat < 64 ∧ 2 ^ (63 - (clzW a).toNat) ≤ a.toNat ∧ a.toNat < 2 ^ (64 - (clzW a).toNat) := by
  have hpos : a.toNat ≠ 0 := fun h => ha (BitVec.eq_of_toNat_eq h)
  have hlog : Nat.log2 a.toNat < 64 := (Nat.log2_lt hpos).2 a.isLt
  have hclz : (clzW a).toNat = 63 - Nat.log2 a.toNat := by
    rw [clzW, if_neg ha, BitVec.toNat_ofNat, Nat.mod_eq_of_lt (by omega)]
  rw [hclz, show 63 - (63 - Nat.log2 a.toNat) = Nat.log2 a.toNat by omega,
    show 64 - (63 - Nat.log2 a.toNat) = Nat.log2 a.toNat + 1 by omega]
  exact ⟨by omega, Nat.log2_self_le hpos, Nat.lt_log2_self⟩

theorem ctzW_zero : ctzW 0 = 64 := by decide

theorem ctzW_spec {a : Word} (ha : a ≠ 0) :
    (ctzW a).toNat < 64 ∧ a.getLsbD (ctzW a).toNat = true ∧ ∀ i, i < (ctzW a).toNat → a.getLsbD i = false := by
  cases hfind : (List.range 64).find? (fun i => a.getLsbD i) with
  | none =>
    refine absurd (BitVec.eq_of_getLsbD_eq fun i hi => ?_) ha
    exact (Bool.eq_false_of_not_eq_true' (List.find?_range_eq_none.1 hfind i hi)).trans BitVec.getLsbD_zero.symm
  | some k =>
    obtain ⟨hbit, hmem, hbelow⟩ := List.find?_range_eq_some.1 hfind
    have hk := List.mem_range.1 hmem
    have hctz : (ctzW a).toNat = k := by
      rw [ctzW, hfind, Option.getD_some, BitVec.toNat_ofNat, Nat.mod_eq_of_lt (by omega)]
    rw [hctz]
    exact ⟨hk, hbit, fun i hi => Bool.eq_false_of_not_eq_true' (hbelow i hi)⟩

theorem popcW_toNat (a : Word) : (popcW a).toNat = ((List.range 64).filter fun i => a.getLsbD i).length := by
  have hle : ((List.range 64).filter fun i => a.getLsbD i).length ≤ 64 := (List.length_filter_le _ _).trans_eq List.length_range
  rw [popcW, BitVec.toNat_ofNat, Nat.mod_eq_of_lt (by omega)]

/-! ## Bits and bytes in reverse order (08 R177) -/

section
variable {B n : Nat} {f : Nat → Nat}

theorem foldl_digits_lt (h : ∀ i < n, f i < B) : (List.range n).foldl (fun m i => B * m + f i) 0 < B ^ n := by
  induction n with
  | zero => exact Nat.one_pos
  | succ n ih =>
    have hrest := ih fun i hi => h i (Nat.lt_succ_of_lt hi)
    rw [List.range_succ, List.foldl_append, List.foldl_cons, List.foldl_nil, pow_succ']
    calc B * _ + f n
      _ < B * (List.range n).foldl (fun m i => B * m + f i) 0 + B := Nat.add_lt_add_left (h n (Nat.lt_succ_self n)) _
      _ = B * ((List.range n).foldl (fun m i => B * m + f i) 0 + 1) := (Nat.mul_succ _ _).symm
      _ ≤ B * B ^ n := Nat.mul_le_mul_left _ hrest

/-- The digit that comes first ends in the highest place. -/
theorem foldl_digits_digit (h : ∀ i < n, f i < B) {i : Nat} (hi : i < n) :
    (List.range n).foldl (fun m i => B * m + f i) 0 / B ^ i % B = f (n - 1 - i) := by
  induction n generalizing i with
  | zero => exact absurd hi i.not_lt_zero
  | succ n ih =>
    have hlast := h n (Nat.lt_succ_self n)
    rw [List.range_succ, List.foldl_append, List.foldl_cons, List.foldl_nil]
    cases i with
    | zero => rw [pow_zero, Nat.div_one, Nat.mul_add_mod, Nat.mod_eq_of_lt hlast, Nat.sub_zero, Nat.succ_sub_one]
    | succ i =>
      rw [pow_succ', ← Nat.div_div_eq_div_mul, Nat.mul_add_div (Nat.zero_lt_of_lt hlast), Nat.div_eq_of_lt hlast, Nat.add_zero,
        ih (fun j hj => h j (Nat.lt_succ_of_lt hj)) (Nat.lt_of_succ_lt_succ hi)]
      congr 1
      omega

end

theorem bitAt_zero (b : Bool) : bitAt b 0 = b.toNat := by cases b <;> rfl

theorem brevW_getLsbD (a : Word) {i : Nat} (hi : i < 64) : (brevW a).getLsbD i = a.getLsbD (63 - i) := by
  have hdigit : ∀ i < 64, bitAt (a.getLsbD i) 0 < 2 := fun i _ => by rw [bitAt_zero]; exact Bool.toNat_lt _
  rw [brevW, BitVec.getLsbD_ofNat, decide_eq_true hi, Bool.true_and, Nat.testBit_eq_decide_div_mod_eq, foldl_digits_digit hdigit hi, bitAt_zero]
  cases a.getLsbD (64 - 1 - i) <;> rfl

theorem bswapW_byte (a : Word) {i : Nat} (hi : i < 8) :
    (bswapW a).toNat / 256 ^ i % 256 = a.toNat / 256 ^ (7 - i) % 256 := by
  have hdigit : ∀ i < 8, a.toNat / 256 ^ i % 256 < 256 := fun i _ => Nat.mod_lt _ (by decide)
  have hlt := foldl_digits_lt hdigit
  have hswap : (bswapW a).toNat = (List.range 8).foldl (fun n i => 256 * n + a.toNat / 256 ^ i % 256) 0 :=
    (BitVec.toNat_ofNat _ _).trans (Nat.mod_eq_of_lt hlt)
  rw [hswap, foldl_digits_digit hdigit hi]

/-! ## Bit fields (08 R180) -/

section
variable (a : Word) (pos len : BitVec 6)

theorem bfWidth_eq : bfWidth pos len = Min.min (len.toNat + 1) (64 - pos.toNat) := by
  change Min.min (pos.toNat + len.toNat + 1) 64 - pos.toNat = _
  omega

theorem bfextN_getLsbD (i : Nat) :
    (bfextN a pos len).getLsbD i = (decide (i < bfWidth pos len) && a.getLsbD (pos.toNat + i)) := by
  have hw : bfWidth pos len ≤ 64 := by rw [bfWidth_eq]; omega
  rw [bfextN, BitVec.getLsbD_ofNat, Nat.testBit_mod_two_pow, Nat.testBit_div_two_pow, Nat.add_comm i, ← BitVec.getLsbD, ← Bool.and_assoc,
    ← Bool.decide_and]
  congr 2
  exact propext (and_iff_right_of_imp fun h => h.trans_le hw)

/-- Past the field's highest bit, that bit again. -/
theorem bfextS_getLsbD {i : Nat} (hi : i < 64) :
    (bfextS a pos len).getLsbD i = a.getLsbD (pos.toNat + Min.min i (bfWidth pos len - 1)) := by
  have hw : 0 < bfWidth pos len := by rw [bfWidth_eq]; omega
  have hfield : ∀ k < bfWidth pos len,
      (BitVec.ofNat (bfWidth pos len) (a.toNat / 2 ^ pos.toNat)).getLsbD k = a.getLsbD (pos.toNat + k) := fun k hk => by
    rw [BitVec.getLsbD_ofNat, decide_eq_true hk, Bool.true_and, Nat.testBit_div_two_pow, Nat.add_comm k, ← BitVec.getLsbD]
  rw [bfextS, BitVec.getLsbD_signExtend, decide_eq_true hi, Bool.true_and]
  split
  next hin => rw [hfield i hin, Nat.min_eq_left (by omega)]
  next hout => rw [BitVec.msb_eq_getLsbD_last, hfield _ (by omega), Nat.min_eq_right (by omega)]

/-- The mask of a field has the bits of its places. -/
theorem fieldMask_getLsbD {lo w i : Nat} (hi : i < 64) :
    (BitVec.ofNat 64 ((2 ^ w - 1) * 2 ^ lo)).getLsbD i = decide (lo ≤ i ∧ i < lo + w) := by
  rw [BitVec.getLsbD_ofNat, decide_eq_true hi, Bool.true_and, Nat.testBit_mul_two_pow, Nat.testBit_two_pow_sub_one, ← Bool.decide_and]
  congr 1
  exact propext (and_congr_right fun h => by omega)

theorem bfinsW_getLsbD (d : Word) {i : Nat} (hi : i < 64) :
    (bfinsW d a pos len).getLsbD i =
      if pos.toNat ≤ i ∧ i < pos.toNat + len.toNat + 1 then a.getLsbD (i - pos.toNat) else d.getLsbD i := by
  have hplaces : (pos.toNat ≤ i ∧ i < pos.toNat + bfWidth pos len) ↔ (pos.toNat ≤ i ∧ i < pos.toNat + len.toNat + 1) := by
    rw [bfWidth_eq]; omega
  simp only [bfinsW, BitVec.getLsbD_or, BitVec.getLsbD_and, BitVec.getLsbD_not, BitVec.getLsbD_shiftLeft, fieldMask_getLsbD hi, hplaces]
  split
  next hin =>
    simp only [decide_eq_true hin, decide_eq_true hi, decide_eq_false (Nat.not_lt.2 hin.1), Bool.not_true, Bool.not_false, Bool.and_true,
      Bool.and_false, Bool.false_or, Bool.true_and]
  next hout => simp only [decide_eq_false hout, decide_eq_true hi, Bool.not_false, Bool.and_true, Bool.and_false, Bool.or_false]

end

/-- Settles O12: each value is described bit by bit, or byte by byte. -/
theorem bitCountsAndFields : Obligations.BitCountsAndFields := by
  refine ⟨⟨fun s t g d a pos len ru h => ?_, fun s t g d a pos len ru h => ?_⟩, fun s t g d a ru h => ?_⟩
  · rw [← bfWidth_eq]
    exact ⟨⟨_, gives_alu2 h (bfextN · pos len) rfl, bfextN_getLsbD _ pos len⟩,
      _, gives_alu2 h (bfextS · pos len) rfl, fun i => bfextS_getLsbD _ pos len⟩
  · exact ⟨_, gives_alu3 h (bfinsW · · pos len) rfl, fun i => bfinsW_getLsbD _ pos len _⟩
  · exact ⟨givesSome_alu2 h clzW rfl rfl ⟨fun hz => hz ▸ clzW_zero, clzW_spec⟩,
      givesSome_alu2 h ctzW rfl rfl ⟨fun hz => hz ▸ ctzW_zero, ctzW_spec⟩, givesSome_alu2 h popcW rfl rfl (popcW_toNat _),
      givesSome_alu2 h brevW rfl rfl fun i => brevW_getLsbD _, givesSome_alu2 h bswapW rfl rfl fun i => bswapW_byte _⟩

end Sys2Proof.Machine

namespace Sys2Proof.Machine

/-! ## Addresses of memory operands (02 R35, R36; 09 R189) -/

theorem mAddr_eq (x : Word) (off : BitVec 7) (n : Nat) : mAddr x off n = x + BitVec.ofInt 64 (off.toInt * n) := by
  rw [mAddr, BitVec.ofInt_mul, BitVec.ofInt_natCast]
  rfl

theorem ixAddr_eq (x y : Word) (off : BitVec 17) (n : Nat) :
    ixAddr x y off n = x + BitVec.ofNat 64 (y.toNat * n) + BitVec.ofInt 64 off.toInt := by
  rw [BitVec.ofNat_mul, BitVec.ofNat_toNat, BitVec.setWidth_eq]
  rfl

theorem LdSize.extend_unsigned {z : LdSize} {v : Nat} (hv : v < 256 ^ z.bytes) (hz : z ∈ [LdSize.z8, .z16, .z32, .d64]) :
    (z.extend v).toNat = v := by
  simp only [List.mem_cons, List.not_mem_nil, or_false] at hz
  rcases hz with rfl | rfl | rfl | rfl <;> simp only [LdSize.bytes] at hv <;>
    simp only [LdSize.extend, BitVec.toNat_setWidth, BitVec.toNat_ofNat] <;> omega

theorem LdSize.extend_signed {z : LdSize} {v : Nat} (hv : v < 256 ^ z.bytes) (hz : z ∈ [LdSize.s8, .s16, .s32]) :
    (z.extend v).toInt = if 2 * v < 256 ^ z.bytes then (v : Int) else (v : Int) - 256 ^ z.bytes := by
  simp only [List.mem_cons, List.not_mem_nil, or_false] at hz
  rcases hz with rfl | rfl | rfl <;> simp only [LdSize.bytes] at hv ⊢ <;>
    rw [LdSize.extend, BitVec.toInt_signExtend_of_le (by decide), BitVec.toInt_ofNat', Int.bmod_def] <;> split_ifs <;> omega

/-! ## What an access leaves alone, field by field -/

section
variable {s s' : State} (h : s.Seen s')
include h

theorem State.Seen.stores_eq : s'.stores = s.stores := (congrArg State.stores h.same :)
theorem State.Seen.views_eq : s'.views = s.views := (congrArg State.views h.same :)
theorem State.Seen.nextId_eq : s'.nextId = s.nextId := (congrArg State.nextId h.same :)

end

/-! ## The end of an access of the current thread (09 R190, R195) -/

section
variable {s : State} {t : Thread} {i : Instr} {d : Dest} {la : BitVec 4} {f : Nat → Word} {r : State × Acc}

theorem loadsBy_after (hc : r.1.cur = s.cur) (hx : exec i s = .next (State.after r fun s v => s.finishLate (lenOf i) d la (f v))) :
    LoadsBy s i r d la f := by
  refine ⟨?_, ?_, ?_⟩
  · rintro s1 v rfl
    obtain ⟨u, hu, he⟩ := s1.finishLate_eq i d la (f v)
    rw [State.me, show s1.cur = s.cur from hc] at he
    exact ⟨u, hx.trans (by rw [← show s1.cur = s.cur from hc]; exact congrArg _ hu), he⟩
  · rintro s1 c x rfl
    exact hx
  · rintro s1 rfl
    exact hx

theorem Thread.plainEnd_complete (t : Thread) (i : Instr) : PlainEnd t (t.complete (lenOf i)) i :=
  have o := t.over_complete (lenOf i)
  ⟨o.rest, fun e _ hq => o.get e hq, o.moves, o.p, o.fflags⟩

theorem storesBy_after (hc : r.1.cur = s.cur) (hx : exec i s = .next (State.after r fun s _ => s.finish (lenOf i))) :
    StoresBy s i r := by
  refine ⟨?_, ?_, ?_⟩
  · rintro s1 v rfl
    have hc : s1.cur = s.cur := hc
    exact ⟨_, hx.trans (by rw [← hc]; rfl), (s1.thr s.cur).plainEnd_complete i⟩
  · rintro s1 c x rfl
    exact hx
  · rintro s1 rfl
    exact hx

end

/-! ## Accesses that stay behind (13 R288) -/

/-- An access is put behind where no other one is. -/
def State.behind (s : State) (h : Held) : State :=
  { s with stores := [{ h with id := s.nextId, deps := [] }], nextId := s.nextId + 1 }

theorem State.putBehind_first {s : State} (hs : s.stores = []) (hv : s.views = []) (h : Held) : s.putBehind h = s.behind h := by
  obtain ⟨⟩ := s
  simp only at hs hv
  subst hs hv
  rfl

/-- With no store behind and no value bound early, a load is a plain one. -/
theorem State.ownLoad_first {s : State} (hs : s.stores = []) (hv : s.views = []) (c : MCtx) (r : RegionKind) (pa n : Nat) (nc : Bool) :
    s.ownLoad c r pa n nc = s.physLoad c r pa n nc := by
  have hp := (s.seen_physLoad c r pa n nc).stores_eq.trans hs
  rw [State.ownLoad, show s.bound c.who false pa n = none by rw [State.bound, hv]; rfl]
  rcases e : s.physLoad c r pa n nc with ⟨s1, x | v⟩
  · rfl
  · rw [e] at hp
    simp only [State.overlaid, show s1.stores = [] from hp, List.foldl_nil]

theorem State.bound_none {s : State} (hv : s.views = []) (k : Nat) (spad : Bool) (a n : Nat) : s.bound k spad a n = none := by
  rw [State.bound, hv]
  rfl

/-- A thread whose instruction has completed while its result is still to come under a number. -/
structure Thread.Owes (t u : Thread) (i : Instr) (d : Dest) (la : BitVec 4) (id : Nat) : Prop where
  regs : KeepsRegs t u []
  get : u.get d = t.get d
  p : u.p = t.p
  fflags : u.fflags = t.fflags
  moves : MovesOn t u (encode i).1
  pend : d ≠ .x 0 → ⟨d, none, if t.locked then 0 else la.toNat, id⟩ ∈ u.pend

theorem Thread.owes_expected (t : Thread) (i : Instr) (d : Dest) (la : BitVec 4) (id : Nat) : t.Owes (t.expected i d la id) i d la id := by
  by_cases hd : d = .x 0
  · subst hd
    have o := t.over_complete (lenOf i)
    exact ⟨fun e _ hq => o.get e hq, rfl, o.p, o.fflags, o.moves, fun h => absurd rfl h⟩
  · have he : t.expect d la id = t.awaits ⟨d, none, if t.locked then 1 else la.toNat + 1, id⟩ := if_neg (by simpa using hd)
    obtain ⟨-, regs, moves, hp, hff, hget, hpend⟩ :=
      t.awaits_complete ⟨d, none, if t.locked then 1 else la.toNat + 1, id⟩ (lenOf i) (ite_self none)
    rw [Thread.expected, he]
    refine ⟨fun e _ hq => ?_, hget, hp, hff, moves, fun _ => ?_⟩
    · by_cases hed : e = d
      · rw [hed]
        exact hget
      · exact regs e (by simpa using hed) hq
    · cases hl : t.locked <;> simpa [hl] using hpend

theorem Thread.owes_complete (t : Thread) (i : Instr) (la : BitVec 4) (id : Nat) : t.Owes (t.complete (lenOf i)) i (.x 0) la id :=
  t.owes_expected i (.x 0) la id

theorem Thread.Owes.of_noted {t u y : Thread} {i : Instr} {d : Dest} {la : BitVec 4} {id : Nat} (h : u.Owes y i d la id)
    (hn : t.noted u) : t.Owes y i d la id := by
  obtain ⟨_, _, _, _, rfl⟩ := hn
  have hg : ∀ e, Thread.get _ e = t.get e := fun e => by cases e <;> rfl
  exact ⟨fun e he hq => (h.regs e he hq).trans (hg e), h.get.trans (hg d), h.p, h.fflags, h.moves, h.pend⟩

section
variable {s s1 : State} {t : Thread} {i : Instr} {g : BitVec 4} {rs rd : List Dest} {eff : State → State} {d : Dest} {la : BitVec 4}
  {f : Nat → Word}

theorem staysBehind_put {spad : Bool} {r : RegionKind} {a n v w : Nat} {va : Word} {past : Thread → Thread}
    (h : tget s.threads s.cur = some t) (hs : s.Seen s1) (hst : s.stores = []) (hv : s.views = [])
    (hp : ∀ u, Thread.Owes u (past u) i d la s.nextId)
    (hx : exec i s = .next ((s1.putBehind (s1.heldAs (t.mctx s.cur) (some i) spad false r a n v w va)).updMe past)) :
    StaysBehind s s1 t i d la spad a n v w := by
  obtain ⟨u, hu, hn⟩ := State.seen_thr hs h
  have hc : s1.cur = s.cur := State.seen_cur hs
  rw [State.putBehind_first (hs.stores_eq.trans hst) (hs.views_eq.trans hv)] at hx
  have hme : ((s1.behind (s1.heldAs (t.mctx s.cur) (some i) spad false r a n v w va)).updMe past).me = past u := by
    rw [State.me_updMe]
    exact congrArg past (State.thr_here (hc ▸ hu))
  have ho := (hp u).of_noted hn
  refine ⟨_, _, hx, rfl, rfl, rfl, rfl, rfl, ?_⟩
  rw [hme]
  refine ⟨ho.regs, ho.get, ho.p, ho.fflags, ho.moves, ?_⟩
  rw [← hs.nextId_eq] at ho
  exact ho.pend

/-- A load that finds its value in memory stays behind where the agenda asks it. -/
theorem State.loadBehind_memory {ea : Word} {n pa leaf v : Nat} {nc : Bool} {s2 : State} (h : tget s.threads s.cur = some t)
    (hd : s.delay = some s.cur) (hst : s.stores = []) (hv : s.views = []) (ha : ea.toNat % n = 0)
    (hx : s.xlate (t.mctx s.cur) ea .load = (s1, .ok pa leaf)) (hc : s1.atCtrl (t.agent / 512) pa = false)
    (hl : s1.physLoad (t.mctx s.cur) (regionOf leaf) pa n nc = (s2, .ok v)) : s.loadBehind i false ea n nc d la =
      some ((s1.putBehind (s1.heldAs (t.mctx s.cur) (some i) false false (regionOf leaf) pa n v 0 ea)).updMe
        (·.expected i d la s.nextId)) := by
  have hs : s.Seen s1 := by
    have h := s.seen_xlate (t.mctx s.cur) ea .load
    rwa [hx] at h
  have hv1 := hs.views_eq.trans hv
  unfold State.loadBehind
  rw [State.me_here h, hx]
  simp only [hd, bne_self_eq_false, Bool.false_eq_true, if_false, ha, ne_eq, not_true_eq_false, hc, State.bound_none hv1,
    Option.isSome_none, Bool.or_self, State.ownLoad_first (hs.stores_eq.trans hst) hv1, hl, hs.nextId_eq]

theorem State.loadBehind_spad {o : Word} {n v : Nat} {nc : Bool} (h : tget s.threads s.cur = some t)
    (hd : s.delay = some s.cur) (hv : s.views = []) (hl : s.spadLoad o n = (s, .ok v)) : s.loadBehind i true o n nc d la =
      some ((s.putBehind (s.heldAs (t.mctx s.cur) (some i) true false .priv o.toNat n v 0 o)).updMe (·.expected i d la s.nextId)) := by
  unfold State.loadBehind
  rw [State.me_here h, hl]
  simp only [hd, bne_self_eq_false, Bool.false_eq_true, if_false, if_true, State.bound_none hv, Option.isSome_none]

/-- A load from memory of the current thread. -/
theorem loadsAt_of_loadTo {ea : Word} {n : Nat} {nc : Bool} (hr : Runs s t g rs rd)
    (hx : exec i s = s.lane i g false rs rd eff) (he : eff s = s.loadTo i ea n nc d la f) : LoadsAt s t i ea n nc d la f := by
  have h := hr.here
  rw [State.lane_runs hr i false nofun, he] at hx
  unfold State.loadTo at hx
  rw [State.me_here h] at hx
  refine ⟨fun hd => ?_, fun hd hst hv ha s1 pa leaf s2 v hxl hc hl => ?_⟩
  · have hb : s.loadBehind i false ea n nc d la = none := if_pos (bne_iff_ne.2 hd)
    rw [hb] at hx
    exact loadsBy_after (State.seen_cur (s.seen_dataLoad _ _ _ _)) hx
  · have hs : s.Seen s1 := by
      have h := s.seen_xlate (t.mctx s.cur) ea .load
      rwa [hxl] at h
    rw [State.loadBehind_memory h hd hst hv ha hxl hc hl] at hx
    exact staysBehind_put h hs hst hv (fun u => u.owes_expected i d la s.nextId) hx

theorem State.spadLoad_state (s : State) (o : Word) (n : Nat) : (s.spadLoad o n).1 = s := by
  unfold State.spadLoad
  dsimp only
  split
  · rfl
  · split <;> rfl

/-- A load from scratchpad of the current thread. -/
theorem spadLoadsAt_of_spadTo {o : Word} {n : Nat} {eng : Bool} (hr : Runs s t g rs rd) (ho : t.onL = false)
    (hx : exec i s = s.lane i g eng rs rd eff) (he : eff s = s.spadTo i o n d la f) : SpadLoadsAt s t i o n d la f := by
  have h := hr.here
  rw [State.lane_runs hr i eng fun _ => ho, he] at hx
  unfold State.spadTo at hx
  refine ⟨fun hd => ?_, fun hd hst hv v hl => ?_⟩
  · have hb : s.loadBehind i true o n false d la = none := if_pos (bne_iff_ne.2 hd)
    rw [hb] at hx
    exact loadsBy_after (congrArg State.cur (s.spadLoad_state _ n)) hx
  · rw [State.loadBehind_spad h hd hv hl] at hx
    exact staysBehind_put h (.refl s) hst hv (fun u => u.owes_expected i d la s.nextId) hx

end

/-! ## Integer loads (09 R188 to R190, R199) -/

/-- Settles O29: each is a load from the address its layout forms; the extensions are read off size by size. -/
theorem loadForms : Obligations.LoadForms := by
  refine ⟨fun s t z g d a b off7 off o sc la ru => ?_, fun z v hv => ⟨LdSize.extend_unsigned hv, LdSize.extend_signed hv⟩⟩
  dsimp only
  rw [← mAddr_eq, ← ixAddr_eq]
  refine ⟨fun h => ⟨?_, ?_, ?_⟩, fun h => ?_⟩ <;> exact loadsAt_of_loadTo h (by rfl) (by rfl)

/-! ## Integer stores (09 R189, R190; 05 R116) -/

theorem State.stays_putBehind (s : State) (h : Held) : s.Stays (s.putBehind h) := .of_eq rfl rfl

theorem State.stays_ownStore (s : State) (c : MCtx) (r : RegionKind) (pa n v : Nat) (va : Word) : s.Stays (s.ownStore c r pa n v va).1 := by
  unfold State.ownStore
  split
  · exact s.stays_putBehind _
  · exact State.Stays.trans (b := s.unbind c.who false pa n) (.of_eq rfl rfl) (State.stays_physStore _ c r pa n v)

theorem State.stays_dataStore (s : State) (c : MCtx) (va : Word) (n v : Nat) : s.Stays (s.dataStore c va n v).1 := by
  have hx := (s.seen_xlate c va .store).stays
  unfold State.dataStore State.xlateAcc
  split
  · exact .refl s
  · rcases e : s.xlate c va .store with ⟨s1, ⟨pa, leaf⟩ | _ | _⟩ <;> rw [e] at hx
    · have ho := s1.stays_ownStore c (regionOf leaf) pa n v va
      dsimp only
      rcases e : s1.ownStore c (regionOf leaf) pa n v va with ⟨s2, _ | code⟩ <;> rw [e] at ho
      · exact hx.trans ho
      · exact (hx.trans ho).trans (s2.stays_failStore c pa code va)
    · exact hx
    · exact hx

theorem State.stays_spadStore (s : State) (o : Word) (n v : Nat) : s.Stays (s.spadStore o n v).1 := by
  unfold State.spadStore
  dsimp only
  split_ifs
  · exact .refl s
  · exact .refl s
  · exact .refl s
  · exact s.stays_putBehind _
  · exact .of_eq rfl rfl

/-- An access that is no release, or of a thread with no error to report, is made (05 R116). -/
theorem State.released_free {s : State} {o : Order} (h : s.me.deferred = none ∨ (o ≠ .rel ∧ o ≠ .acqRel)) (k : State) :
    s.released o k = k := by
  unfold State.released
  rcases h with h | ⟨hr, ha⟩
  · rw [h]
    cases o <;> rfl
  · cases o with
    | rel => exact absurd rfl hr
    | acqRel => exact absurd rfl ha
    | plain | acq => rfl

theorem State.released_late {s : State} {va : Word} (h : s.me.deferred = some va) (k : State) : s.released .rel k = s.takeDeferred va := by
  unfold State.released
  rw [h]

section
variable {s : State} {t : Thread} {i : Instr} {g : BitVec 4} {rs rd : List Dest} {eff : State → State} {n v : Nat}

theorem storesBy_of_storeFrom {ea : Word} (hr : Runs s t g rs rd) (hx : exec i s = s.lane i g false rs rd eff)
    (he : eff s = s.storeFrom i ea n v) : StoresBy s i (s.dataStore (t.mctx s.cur) ea n v) := by
  rw [State.lane_runs hr i false nofun, he, State.storeFrom, State.me_here hr.here] at hx
  exact storesBy_after (s.stays_dataStore _ ea n v).cur hx

theorem storesBy_of_spadFrom {o : Word} {eng : Bool} (hr : Runs s t g rs rd) (ho : t.onL = false)
    (hx : exec i s = s.lane i g eng rs rd eff) (he : eff s = s.spadFrom i o n v) : StoresBy s i (s.spadStore o n v) := by
  rw [State.lane_runs hr i eng fun _ => ho, he] at hx
  exact storesBy_after (s.stays_spadStore o n v).cur hx

end

/-- Settles O30: each is a store at the address its layout forms; one that releases is a report where there is an error to report. -/
theorem storeForms : Obligations.StoreForms := by
  intro s t z g d a b off7 off o sc la ru
  dsimp only
  rw [← mAddr_eq, ← ixAddr_eq]
  refine ⟨fun h => ⟨?_, fun hf => ?_, fun va hd => ?_⟩, fun h hf => ?_⟩
  · exact storesBy_of_storeFrom h (by rfl) (by rfl)
  · exact storesBy_of_storeFrom h (by rfl) (by exact State.released_free (State.me_here h.here ▸ hf) _)
  · change execStX z g d a off .rel sc la ru s = _
    exact (State.lane_runs h _ false nofun _).trans (congrArg _ (State.released_late (State.me_here h.here ▸ hd) _))
  · exact storesBy_of_storeFrom h (by rfl) (by exact State.released_free (State.me_here h.here ▸ hf) _)

end Sys2Proof.Machine

namespace Sys2Proof.Machine

/-! ## Float loads and stores (09 R192, R193) -/

section
variable {s : State} {t : Thread} {i : Instr} {g : BitVec 4} {rs rd : List Dest} {eff : State → State} {ea : Word} {n : Nat}

/-- A float load is one from memory, or in the window one from scratchpad, which an L-core does not have. -/
theorem floatLoad_forms {d : Dest} {la : BitVec 4} {f : Nat → Word} (hr : Runs s t g rs rd)
    (hx : exec i s = s.lane i g false rs rd eff) (he : eff s = s.floatTo i ea n d la f) :
    (inWindow ea = false → LoadsAt s t i ea n false d la f) ∧
    (inWindow ea = true → ea.toNat % n = 0 → t.onL = false → SpadLoadsAt s t i (windowOff ea) n d la f) ∧
    (inWindow ea = true → ea.toNat % n ≠ 0 → exec i s = .next (s.trap 0x08 ea)) ∧
    (inWindow ea = true → ea.toNat % n = 0 → t.onL = true → exec i s = .next (s.trap 0x07 (parcels i))) := by
  have hexec := hx.trans (State.lane_runs hr i false nofun eff)
  rw [he] at hexec
  unfold State.floatTo at he hexec
  rw [State.me_here hr.here] at he hexec
  refine ⟨fun hw => ?_, fun hw ha ho => ?_, fun hw ha => ?_, fun hw ha ho => ?_⟩
  · exact loadsAt_of_loadTo hr hx (he.trans (if_neg (by simp [hw])))
  · exact spadLoadsAt_of_spadTo hr ho hx (by rw [he, if_pos hw, if_neg (not_not.2 ha), if_neg (by simp [ho])])
  · rw [hexec, if_pos hw, if_pos ha]
  · rw [hexec, if_pos hw, if_neg (not_not.2 ha), if_pos ho]

/-- A float store likewise. -/
theorem floatStore_forms {v : Nat} (hr : Runs s t g rs rd)
    (hx : exec i s = s.lane i g false rs rd eff) (he : eff s = s.floatFrom i ea n v) :
    (inWindow ea = false → StoresBy s i (s.dataStore (t.mctx s.cur) ea n v)) ∧
    (inWindow ea = true → ea.toNat % n = 0 → t.onL = false → StoresBy s i (s.spadStore (windowOff ea) n v)) ∧
    (inWindow ea = true → ea.toNat % n ≠ 0 → exec i s = .next (s.trap 0x09 ea)) ∧
    (inWindow ea = true → ea.toNat % n = 0 → t.onL = true → exec i s = .next (s.trap 0x07 (parcels i))) := by
  have hexec := hx.trans (State.lane_runs hr i false nofun eff)
  rw [he] at hexec
  unfold State.floatFrom at he hexec
  rw [State.me_here hr.here] at he hexec
  refine ⟨fun hw => ?_, fun hw ha ho => ?_, fun hw ha => ?_, fun hw ha ho => ?_⟩
  · exact storesBy_of_storeFrom hr hx (he.trans (if_neg (by simp [hw])))
  · exact storesBy_of_spadFrom hr ho hx (by rw [he, if_pos hw, if_neg (not_not.2 ha), if_neg (by simp [ho])])
  · rw [hexec, if_pos hw, if_pos ha]
  · rw [hexec, if_pos hw, if_neg (not_not.2 ha), if_pos ho]

end

/-! ## Scratchpad accesses (09 R191, R192; 06 R127, R132) -/

section
variable {s : State} {o : Word} {n : Nat}

theorem State.spad_misaligned (ha : o.toNat % n ≠ 0) (v : Nat) :
    s.spadLoad o n = (s, .trap 0x08 o) ∧ s.spadStore o n v = (s, .trap 0x09 o) := ⟨if_pos ha, if_pos ha⟩

variable (ha : o.toNat % n = 0)
include ha

theorem State.spad_beyond (hn : (s.wg s.me.wg).spPages * 4096 < o.toNat + n) (v : Nat) :
    s.spadLoad o n = (s, .trap 0x22 o) ∧ s.spadStore o n v = (s, .trap 0x22 o) :=
  ⟨(if_neg (not_not.2 ha)).trans (if_pos hn), (if_neg (not_not.2 ha)).trans (if_pos hn)⟩

variable (hn : o.toNat + n ≤ (s.wg s.me.wg).spPages * 4096)
include hn

theorem State.spadLoad_inside (hv : s.views = []) : s.spadLoad o n = (s, .ok ((s.wg s.me.wg).spad.readN o.toNat n)) := by
  unfold State.spadLoad
  rw [State.bound_none hv]
  exact (if_neg (not_not.2 ha)).trans (if_neg (Nat.not_lt.2 hn))

theorem State.spadStore_tagged (hg : o.toNat / 16 * 16 ∈ (s.wg s.me.wg).tags) (v : Nat) : s.spadStore o n v = (s, .trap 0x21 o) :=
  (if_neg (not_not.2 ha)).trans ((if_neg (Nat.not_lt.2 hn)).trans (if_pos (List.contains_iff_mem.2 hg)))

theorem State.spadStore_untagged (hg : o.toNat / 16 * 16 ∉ (s.wg s.me.wg).tags) (v : Nat) : s.spadStore o n v =
    if s.spadBehind o.toNat n then (s.putBehind (s.heldAs (s.me.mctx s.cur) none true false .priv o.toNat n v 0 o), .ok 0)
    else ((s.unbind s.cur true o.toNat n).updWg s.me.wg fun g => { g with spad := g.spad.writeN o.toNat n v }, .ok 0) :=
  (if_neg (not_not.2 ha)).trans ((if_neg (Nat.not_lt.2 hn)).trans (if_neg fun h => hg (List.contains_iff_mem.1 h)))

end

/-! ### What a scratchpad store changes (13 R297) -/

/-- Bytes of a workgroup's scratchpad are written. -/
def State.spadPut (s : State) (w a n v : Nat) : State := s.updWg w fun g => { g with spad := g.spad.writeN a n v }

section
variable (s : State) (w a n v : Nat)

theorem State.spadPut_other {k : Nat} (hk : k ≠ w) : (s.spadPut w a n v).wg k = s.wg k := s.wg_setWg_ne _ hk

theorem State.spadPut_inside : ((s.spadPut w a n v).wg w).spad.readN a n = v % 256 ^ n := by
  rw [State.spadPut, State.wg_updWg]
  exact Store.readN_writeN _ a n v

theorem State.spadPut_outside (b : Nat) (hb : b < a ∨ a + n ≤ b) : ((s.spadPut w a n v).wg w).spad.read b = (s.wg w).spad.read b := by
  rw [State.spadPut, State.wg_updWg]
  exact Store.read_writeN_out _ a n v b hb

theorem State.spadPut_spPages : ((s.spadPut w a n v).wg w).spPages = (s.wg w).spPages := by rw [State.spadPut, State.wg_updWg]

end

/-! ### Accesses that are performed late -/

/-- Nothing stays behind any more. -/
def State.cleared (s : State) : State := { s with stores := [] }

/-- An access that stands alone among those that are not performed is performed. -/
theorem State.performOne_alone {s : State} {h : Held} (hs : s.stores = [h]) (hc : h.ctrl = false) :
    s.performOne 0 = s.cleared.performHeld h := by
  unfold State.performOne
  simp only [hs, List.getElem?_cons_zero, List.take_zero, List.any_nil, List.eraseIdx_zero, List.tail_cons, hc, Bool.false_eq_true,
    if_false]
  rfl

theorem State.perform_alone {s : State} {h : Held} (hs : s.stores = [h]) (hc : h.ctrl = false) {f : Held → Bool} (hf : f h = true) :
    s.perform f = s.cleared.performHeld h := by
  have hu : s.upTo f = [h] := by simp [State.upTo, hs, hc, hf]
  unfold State.perform
  rw [hu, hs]
  simp [State.cleared]

/-- A scratchpad store that is performed writes its bytes. -/
theorem State.performHeld_spad {s : State} {h : Held} (hi : h.i = none) (hs : h.spad = true) (hw : (tget s.wgs h.wg).isSome = true) :
    s.performHeld h = s.spadPut h.wg h.addr h.n h.v := by
  unfold State.performHeld
  rw [hi]
  exact (if_pos hs).trans (if_pos hw)

/-- A plain scratchpad load orders nothing but its thread's store of the same bytes, which is performed. -/
theorem State.ordered_lds {s : State} {h : Held} {z : LdSize} {gd : BitVec 4} {d a : BitVec 5} {off7 : BitVec 7} {la : BitVec 4}
    {o : Word} (hs : s.stores = [h]) (hv : s.views = []) (hg : s.me.guard gd = true) (ho : mAddr (s.srcX 0 a) off7 z.bytes = o)
    (hc : h.ctrl = false) (hi : h.i = none) (hspad : h.spad = true) (hwho : h.c.who = s.cur)
    (hm : h.meets true s.me.wg o.toNat z.bytes = true) (hw : (tget s.wgs h.wg).isSome = true) :
    s.ordered (.lds z gd d a off7 la) = s.cleared.spadPut h.wg h.addr h.n h.v := by
  have hp : s.placeOf (.lds z gd d a off7 la) = some (true, o.toNat, z.bytes, .load) := by rw [← ho]; rfl
  have hr : h.readBy s.cur = false := by simp [Held.readBy, Held.plain, hspad]
  have hg' : s.me.guard (guardOf (.lds z gd d a off7 la)) = true := hg
  unfold State.ordered
  rw [hs, hg']
  change s.conflicts (.lds z gd d a off7 la) = _
  unfold State.conflicts
  simp only [hp, Bool.not_true, Bool.false_and, Bool.false_eq_true, if_false, reduceCtorEq]
  rw [State.perform_alone hs hc (by simp [hm, hwho, hr]), State.performHeld_spad (s := s.cleared) hi hspad hw]
  have he : (s.cleared.spadPut h.wg h.addr h.n h.v).views = [] := hv
  rw [he, List.filter_nil, ← he]

/-- One access is all that stays behind. -/
def State.left (s : State) (h : Held) : State := { s with stores := [h], nextId := s.nextId + 1 }

/-- A scratchpad store of the current thread as it stays behind. -/
def State.spadHeld (s : State) (o : Word) (n v : Nat) : Held :=
  { s.heldAs (s.me.mctx s.cur) none true false .priv o.toNat n v 0 o with id := s.nextId, deps := [] }

section
variable {s : State} {o : Word} {n v : Nat} (ha : o.toNat % n = 0) (hn : o.toNat + n ≤ (s.wg s.me.wg).spPages * 4096)

section
variable (hg : o.toNat / 16 * 16 ∉ (s.wg s.me.wg).tags)
include ha hn hg

/-- With nothing out of its order, a scratchpad store is made at once. -/
theorem State.spadStore_calm (hc : s.Calm) : s.spadStore o n v = (s.spadPut s.me.wg o.toNat n v, .ok 0) := by
  rw [State.spadStore_untagged ha hn hg, State.spadBehind_calm hc, State.unbind_calm hc]
  rfl

/-- Where the agenda asks it, it stays behind. -/
theorem State.spadStore_delayed (hst : s.stores = []) (hv : s.views = []) (hd : s.delay = some s.cur) :
    s.spadStore o n v = (s.left (s.spadHeld o n v), .ok 0) := by
  have hb : s.spadBehind o.toNat n = true := by simp [State.spadBehind, hd]
  rw [State.spadStore_untagged ha hn hg, hb, State.putBehind_first hst hv]
  rfl

end

/-- A scratchpad store that stays behind, performed. -/
def State.spadDone (s : State) (o : Word) (n v : Nat) : State := (s.left (s.spadHeld o n v)).cleared.spadPut s.me.wg o.toNat n v

variable (hw : (tget s.wgs s.me.wg).isSome = true)

include hw in
theorem State.spadHeld_performOne : (s.left (s.spadHeld o n v)).performOne 0 = s.spadDone o n v :=
  (State.performOne_alone (h := s.spadHeld o n v) rfl rfl).trans (State.performHeld_spad rfl rfl hw)

include hw in
/-- It is performed before its thread's load of the same bytes, too. -/
theorem State.spadHeld_ordered {t : Thread} {z : LdSize} {gd : BitVec 4} {d a : BitVec 5} {off7 : BitVec 7} {la : BitVec 4}
    (hv : s.views = []) (ht : tget s.threads s.cur = some t) (hgd : t.guard gd = true) (hz : z.bytes = n)
    (ho : mAddr (s.srcX 0 a) off7 z.bytes = o) :
    (s.left (s.spadHeld o n v)).ordered (.lds z gd d a off7 la) = s.spadDone o n v := by
  have hn0 : 0 < z.bytes := by cases z <;> decide
  have hm : (s.spadHeld o n v).meets true s.me.wg o.toNat z.bytes = true := by
    simp [Held.meets, State.spadHeld, State.heldAs, Thread.mctx, State.me, hz]
    omega
  exact State.ordered_lds (s := s.left (s.spadHeld o n v)) rfl hv (State.me_here ht ▸ hgd) ho rfl rfl rfl rfl hm hw

theorem State.spadDone_inside (hlt : v < 256 ^ n) : ((s.spadDone o n v).wg s.me.wg).spad.readN o.toNat n = v := by
  rw [State.spadDone, State.spadPut_inside, Nat.mod_eq_of_lt hlt]

include ha hn in
theorem State.spadLoad_spadDone (hv : s.views = []) (hlt : v < 256 ^ n) :
    (s.spadDone o n v).spadLoad o n = (s.spadDone o n v, .ok v) := by
  have hsize := ((s.left (s.spadHeld o n v)).cleared.spadPut_spPages s.me.wg o.toNat n v).symm ▸ hn
  have hload := State.spadLoad_inside (s := s.spadDone o n v) ha hsize hv
  exact hload.trans (congrArg (fun v => (_, Acc.ok v)) (State.spadDone_inside hlt))

end

/-- Settles O31: the window decides where a float access goes, and a scratchpad store that stays behind is the only access there is. -/
theorem floatAndScratchpadForms : Obligations.FloatAndScratchpadForms := by
  refine ⟨⟨?_, ?_, ?_⟩, ?_⟩
  · intro s t dbl g d a off7 off o sc la ru hr
    dsimp only
    refine ⟨floatLoad_forms hr (by rfl) (by rfl), ?_, ?_⟩ <;> rintro rfl
    · rw [show off7.toInt * 4 = off7.toInt * ((4 : Nat) : Int) from rfl, ← mAddr_eq]
      exact floatLoad_forms hr (by rfl) (by rfl)
    · rw [show off7.toInt * 8 = off7.toInt * ((8 : Nat) : Int) from rfl, ← mAddr_eq]
      exact floatLoad_forms hr (by rfl) (by rfl)
  · intro s t dbl g d a off7 off o sc la ru hr hd
    dsimp only
    refine ⟨floatStore_forms hr (by rfl) (by exact State.released_free (.inl (State.me_here hr.here ▸ hd)) _), ?_, ?_⟩ <;> rintro rfl
    · rw [show off7.toInt * 4 = off7.toInt * ((4 : Nat) : Int) from rfl, ← mAddr_eq]
      exact floatStore_forms hr (by rfl) (by rfl)
    · rw [show off7.toInt * 8 = off7.toInt * ((8 : Nat) : Int) from rfl, ← mAddr_eq]
      exact floatStore_forms hr (by rfl) (by rfl)
  · intro s t z y g d a off7 off o sc la ru ho
    dsimp only
    rw [← mAddr_eq, ← mAddr_eq]
    refine ⟨fun hr => ⟨?_, ?_⟩, fun hr hd => ⟨?_, ?_⟩⟩
    · exact spadLoadsAt_of_spadTo (eng := true) hr ho (by rfl) (by rfl)
    · exact spadLoadsAt_of_spadTo (eng := true) hr ho (by rfl) (by rfl)
    · exact storesBy_of_spadFrom (eng := true) hr ho (by rfl) (by rfl)
    · exact storesBy_of_spadFrom (eng := true) hr ho (by rfl) (by exact State.released_free (.inl (State.me_here hr.here ▸ hd)) _)
  · intro s o n v hn
    have hn0 : 0 < n := Nat.pos_of_ne_zero fun h => by simp [h] at hn
    dsimp only
    refine ⟨fun ha => State.spad_misaligned ha v, fun ha hb => State.spad_beyond ha hb v,
      fun ha hb hg => State.spadStore_tagged ha hb hg v, fun ha hb hg hst hv hd hlt => ?_, fun ha hb hc => ⟨?_, fun hg => ?_⟩⟩
    · refine ⟨_, _, State.spadStore_delayed ha hb hg hst hv hd, rfl, rfl, rfl, rfl, rfl, fun hw => ⟨?_, ?_⟩⟩
      · exact ⟨_, (State.spadHeld_performOne hw).symm, rfl, rfl, State.spadDone_inside hlt, State.spadPut_outside _ _ _ _ _⟩
      · intro t z gd d a off7 la ht hgd hz ho
        rw [← mAddr_eq] at ho
        rw [State.spadHeld_ordered hw hv ht hgd hz ho]
        exact ⟨rfl, State.spadLoad_spadDone ha hb hv hlt⟩
    · exact State.spadLoad_inside ha hb hc.views
    · exact ⟨_, State.spadStore_calm ha hb hg hc, rfl, rfl, fun k hk => s.spadPut_other _ _ _ _ hk, s.spadPut_inside _ _ _ _,
        s.spadPut_outside _ _ _ _⟩

end Sys2Proof.Machine

namespace Sys2Proof.Machine

/-! ## Atomics and reductions of the current thread (09 R201 to R203; 13 R288) -/

section
variable {s s1 : State} {t : Thread} {i : Instr} {g : BitVec 4} {rs rd : List Dest} {eff : State → State} {d : Dest} {la : BitVec 4}
  {ea : Word} {n v w : Nat} {k : XKind}

/-- An atomic that nothing asks to stay behind, or makes to, is performed at once. -/
theorem State.rmwBehind_prompt (h : s.prompt) (past : Thread → Thread) : s.rmwBehind i ea n v w k past = none := by
  have hb : s.stores.any (fun h => h.before.any (·.1 == s.cur)) = false := by
    rw [List.any_eq_false]
    intro x hx hb
    obtain ⟨b, hb, he⟩ := List.any_eq_true.1 hb
    exact h.2 x hx b hb (beq_iff_eq.1 he)
  unfold State.rmwBehind
  rw [hb, bne_iff_ne.2 h.1]
  rfl

theorem State.rmwBehind_memory {pa leaf : Nat} {past : Thread → Thread} (h : tget s.threads s.cur = some t)
    (hd : s.delay = some s.cur) (ha : ea.toNat % n = 0) (hx : s.xlate (t.mctx s.cur) ea k = (s1, .ok pa leaf))
    (hc : s1.atCtrl (t.agent / 512) pa = false) (hm : s1.memCode (t.agent / 512) pa false = none) :
    s.rmwBehind i ea n v w k past =
      some ((s1.putBehind (s1.heldAs (t.mctx s.cur) (some i) false false (regionOf leaf) pa n v w ea)).updMe past) := by
  unfold State.rmwBehind
  rw [State.me_here h, hx]
  simp only [hd, bne_self_eq_false, Bool.false_and, Bool.false_eq_true, if_false, ha, ne_eq, not_true_eq_false, hc, hm,
    Option.isSome_none, Bool.or_self]

/-- An access that stays behind where the agenda asks it, whatever it does at once. -/
theorem rmwBehind_of_getD {now : State} {past : Thread → Thread} (h : tget s.threads s.cur = some t)
    (hp : ∀ u, Thread.Owes u (past u) i d la s.nextId)
    (hx : exec i s = .next ((s.rmwBehind i ea n v w k past).getD now)) : RmwBehind s t i k ea n d la v w := by
  intro hd hst hv ha s1 pa leaf hxl hc hm
  have hs : s.Seen s1 := by
    have h := s.seen_xlate (t.mctx s.cur) ea k
    rwa [hxl] at h
  rw [State.rmwBehind_memory h hd ha hxl hc hm] at hx
  exact staysBehind_put h hs hst hv hp hx

/-- A fetching atomic of the current thread. -/
theorem rmw_forms {home : Bool} {f : Nat → Option Nat} {old : Nat → Word} (hr : Runs s t g rs rd)
    (hx : exec i s = s.lane i g false rs rd eff)
    (he : eff s = (s.rmwBehind i ea n v w .rmw (·.expected i d la s.nextId)).getD
      (State.after (s.dataRmw (t.mctx s.cur) ea n home f) fun s v => s.finishLate (lenOf i) d la (old v))) :
    (s.prompt → LoadsBy s i (s.dataRmw (t.mctx s.cur) ea n home f) d la old) ∧ RmwBehind s t i .rmw ea n d la v w := by
  rw [State.lane_runs hr i false nofun, he] at hx
  refine ⟨fun hp => ?_, rmwBehind_of_getD hr.here (fun u => u.owes_expected i d la s.nextId) hx⟩
  rw [State.rmwBehind_prompt hp] at hx
  exact loadsBy_after (State.seen_cur (s.seen_dataRmw _ ea n home f)) hx

/-- A reduction of the current thread: nothing comes back to it. -/
theorem red_forms {op : RedOp} {wide : Bool} {x : Nat} (hr : Runs s t g rs rd) (hx : exec i s = s.lane i g false rs rd eff)
    (he : eff s = (s.rmwBehind i ea n v w .store (·.complete (lenOf i))).getD
      (State.after (s.dataRed (t.mctx s.cur) ea op wide x) fun s _ => s.finish (lenOf i))) :
    (s.prompt → StoresBy s i (s.dataRed (t.mctx s.cur) ea op wide x)) ∧ RmwBehind s t i .store ea n (.x 0) 0 v w := by
  rw [State.lane_runs hr i false nofun, he] at hx
  refine ⟨fun hp => ?_, rmwBehind_of_getD hr.here (fun u => u.owes_complete i 0 s.nextId) hx⟩
  rw [State.rmwBehind_prompt hp] at hx
  exact storesBy_after (State.seen_cur (s.seen_dataRed _ ea op wide x)) hx

end

theorem atHome_eq (sc : Scope) : atHome sc = decide (sc ≠ .thread ∧ sc ≠ .wg) := by cases sc <;> rfl

/-- Settles O35: what a fetching atomic writes is its operation, and a reduction gives nothing back. -/
theorem atomicForms : Obligations.AtomicForms := by
  intro s t wide g d a b off o sc la ru hf
  dsimp only
  rw [← atHome_eq]
  have free (h : tget s.threads s.cur = some t) (k : State) : s.released o k = k := State.released_free (State.me_here h ▸ hf) k
  refine ⟨fun hr => ⟨?_, ?_, ?_, ?_, ?_, ?_, ?_, ?_, ?_⟩, fun hr => ?_, fun op hop hr => ?_, fun hr => ?_⟩
  case refine_10 => exact rmw_forms hr (by rfl) (by exact (free hr.here _).trans (by rw [State.me_here hr.here]; rfl))
  case refine_11 =>
    cases op with
    | fadd => exact absurd rfl hop
    | _ => exact red_forms hr (by rfl) (by exact (free hr.here _).trans (by rw [State.me_here hr.here]; rfl))
  case refine_12 => exact red_forms hr (by rfl) (by exact (free hr.here _).trans (by rw [State.me_here hr.here]; rfl))
  all_goals exact rmw_forms hr (by rfl) (by exact (free hr.here _).trans (by rw [State.me_here hr.here]; rfl))

end Sys2Proof.Machine

namespace Sys2Proof.Machine

/-! ## Addresses inside a sector and a line (04 R74, R75; 05 R99) -/

theorem secOf_div {k : Nat} (hk : 6 ≤ k) (a : Nat) : secOf a / 2 ^ k = a / 2 ^ k := by
  obtain ⟨j, rfl⟩ := Nat.exists_eq_add_of_le hk
  rw [pow_add, ← Nat.div_div_eq_div_mul, ← Nat.div_div_eq_div_mul, secOf, show 2 ^ 6 = 64 from rfl, Nat.mul_div_cancel _ (by decide)]

@[simp] theorem lineOf_secOf (a : Nat) : lineOf (secOf a) = lineOf a := by
  unfold lineOf
  rw [show 256 = 2 ^ 8 from rfl, secOf_div (by decide)]

@[simp] theorem paPkg_secOf (a : Nat) : paPkg (secOf a) = paPkg a := by
  unfold paPkg
  rw [secOf_div (by decide)]

theorem areaOf_secOf (a : Nat) : areaOf (secOf a) = areaOf a := by
  have h40 : paOff (secOf a) / 2 ^ 40 = paOff a / 2 ^ 40 := by
    unfold paOff
    have := secOf_div (k := 40) (by decide) a
    omega
  have h36 : paOff (secOf a) / 2 ^ 36 = paOff a / 2 ^ 36 := by
    unfold paOff
    have := secOf_div (k := 36) (by decide) a
    omega
  unfold areaOf
  rw [h40, h36]

theorem lpdHash_secOf (a : Nat) : lpdHash (secOf a) = lpdHash a := by
  unfold lpdHash
  rw [secOf_div (by decide)]
  congr 1
  funext h i
  rw [secOf_div (by omega)]

@[simp] theorem slabOf_secOf (a : Nat) : slabOf (secOf a) = slabOf a := by
  unfold slabOf
  rw [areaOf_secOf, paPkg_secOf, lpdHash_secOf]

theorem replicaKey_secOf (p a : Nat) : replicaKey p (secOf a) = replicaKey p a := by
  unfold replicaKey slabKey
  rw [slabOf_secOf, lineOf_secOf]

theorem lpdHash_lt (a : Nat) : lpdHash a < 8 := by
  have step : ∀ (l : List Nat) (h : Nat), h < 8 → l.foldl (fun h i => h ^^^ (a / 2 ^ (8 + 3 * i) % 8)) h < 8 := by
    intro l
    induction l with
    | nil => exact fun _ h => h
    | cons i l ih => exact fun h hh => ih _ (Nat.xor_lt_two_pow (n := 3) hh (Nat.mod_lt _ (by decide)))
  exact step _ _ (by omega)

/-- The home of an address is a die of its package. -/
theorem slabOf_pkg (a : Nat) : slabOf a / 16 = paPkg a := by
  unfold slabOf
  split
  next k hk =>
    have : k < 16 := by
      unfold areaOf at hk
      dsimp only at hk
      split at hk
      · cases hk
        omega
      · repeat' split at hk
        all_goals cases hk
    omega
  · have := lpdHash_lt a
    omega

/-! ## Room in a slab -/

theorem filter_tset_other {α : Type} (m : List (Nat × α)) {k : Nat} {x : α} (p : Nat → Bool) (hp : p k = false) :
    (tset m k x).filter (fun c => p c.1) = m.filter fun c => p c.1 := by
  induction m with
  | nil => simp [tset, hp]
  | cons c m ih =>
    obtain ⟨a, y⟩ := c
    unfold tset
    split_ifs with h1 h2
    · subst h1
      simp [hp]
    · simp [hp]
    · simp only [List.filter_cons, ih]

/-- A line that comes into one set leaves the room in another. -/
theorem State.slabRoom_tset {s : State} {j k : Nat} {x : SlabLine} (h : sameSet k j = false) (hr : s.slabRoom j = true) :
    ({ s with slabs := tset s.slabs k x } : State).slabRoom j = true := by
  have hjk : j ≠ k := by
    rintro rfl
    simp [sameSet] at h
  unfold State.slabRoom at hr ⊢
  rw [tget_tset_ne _ _ hjk, filter_tset_other s.slabs (fun c => sameSet c j) h]
  exact hr

theorem State.slabMake_room {s : State} {k : Nat} (h : s.slabRoom k = true) : s.slabMake k = s := if_pos h

/-! ## A request that reaches its home (05 R99 to R101, R115) -/

/-- What a request may do before its home answers: lines come into a slab, and soft errors are met. -/
def State.Arrives (s q : State) : Prop := ∃ b e p d, q = { s with slabs := b, soft := e, poison := p, dies := d }

theorem State.Arrives.refl (s : State) : s.Arrives s := ⟨_, _, _, _, rfl⟩

theorem State.Arrives.trans {a b c : State} (h : a.Arrives b) (k : b.Arrives c) : a.Arrives c := by
  obtain ⟨_, _, _, _, rfl⟩ := h
  obtain ⟨_, _, _, _, rfl⟩ := k
  exact ⟨_, _, _, _, rfl⟩

section
variable {s q : State} (h : s.Arrives q)
include h

theorem State.Arrives.mem : q.mem = s.mem := by obtain ⟨_, _, _, _, rfl⟩ := h; rfl
theorem State.Arrives.wgs : q.wgs = s.wgs := by obtain ⟨_, _, _, _, rfl⟩ := h; rfl
theorem State.Arrives.dirOf (x : Nat) : q.dirOf x = s.dirOf x := by obtain ⟨_, _, _, _, rfl⟩ := h; rfl
theorem State.Arrives.ownsPriv (ag x : Nat) : q.ownsPriv ag x = s.ownsPriv ag x := by obtain ⟨_, _, _, _, rfl⟩ := h; rfl
theorem State.Arrives.homeSec (x : Nat) : q.homeSec x = s.homeSec x := by obtain ⟨_, _, _, _, rfl⟩ := h; rfl

end

/-- Soft errors that are met poison no sector but theirs. -/
theorem State.meets_soft (l : List (Nat × Bool)) (k : Nat) : ∀ s : State, ∃ e p d,
    l.foldl (fun s e =>
      let s1 : State := { s with soft := s.soft.erase e }
      if e.2 then { s1 with poison := e.1 % 2 ^ 52 :: s1.poison.erase (e.1 % 2 ^ 52) }
      else s1.updDie (k / 2 ^ 52) fun d => { d with errCe := d.errCe + 1 }) s = { s with soft := e, poison := p, dies := d } ∧
    ∀ x ∈ p, x ∈ s.poison ∨ ∃ e ∈ l, x = e.1 % 2 ^ 52 := by
  induction l with
  | nil => exact fun s => ⟨_, _, _, rfl, fun x hx => .inl hx⟩
  | cons e l ih =>
    intro s
    rw [List.foldl_cons]
    dsimp only
    split
    · obtain ⟨f, p, d, hs, hp⟩ := ih { s with soft := s.soft.erase e, poison := e.1 % 2 ^ 52 :: s.poison.erase (e.1 % 2 ^ 52) }
      refine ⟨f, p, d, hs, fun x hx => ?_⟩
      rcases hp x hx with h | ⟨y, hy, he⟩
      · rcases List.mem_cons.1 h with h | h
        · exact .inr ⟨e, List.mem_cons_self, h⟩
        · exact .inl (List.mem_of_mem_erase h)
      · exact .inr ⟨y, List.mem_cons_of_mem e hy, he⟩
    · obtain ⟨f, p, d, hs, hp⟩ := ih (({ s with soft := s.soft.erase e } : State).updDie (k / 2 ^ 52) fun d => { d with errCe := d.errCe + 1 })
      refine ⟨f, p, d, hs, fun x hx => ?_⟩
      rcases hp x hx with h | ⟨y, hy, he⟩
      · exact .inl h
      · exact .inr ⟨y, List.mem_cons_of_mem e hy, he⟩

/-- A sector with no soft error in its line. -/
def State.Sound (s : State) (a : Nat) : Prop := ∀ e ∈ s.soft, lineOf (e.1 % 2 ^ 52) ≠ lineOf a

/-- Soft errors of other lines leave a sector as it was. -/
theorem State.meetSoft_sound {s : State} {a : Nat} (hs : s.Sound a) (hp : s.poison.contains (secOf a) = false) (k : Nat) :
    ∃ e p d, s.meetSoft k = { s with soft := e, poison := p, dies := d } ∧ p.contains (secOf a) = false := by
  obtain ⟨e, p, d, h, hx⟩ := State.meets_soft (s.soft.filter (softIn k)) k s
  refine ⟨e, p, d, h, ?_⟩
  rw [← Bool.not_eq_true, List.contains_iff_mem] at hp ⊢
  intro hm
  rcases hx _ hm with h | ⟨e, he, hs'⟩
  · exact hp h
  · exact hs e (List.mem_filter.1 he).1 (by rw [← hs', lineOf_secOf])

/-- A request that reaches the slab of its home. -/
theorem State.atSlab_arrives {s : State} {a : Nat} (hr : s.slabRoom (slabKey (slabOf a) a) = true) (hs : s.Sound a)
    (hp : s.poison.contains (secOf a) = false) :
    s.Arrives (s.atSlab a) ∧ (s.atSlab a).poison.contains (secOf a) = false ∧
    ∀ j, sameSet (slabKey (slabOf a) a) j = false → s.slabRoom j = true → (s.atSlab a).slabRoom j = true := by
  have key : ∀ s1 : State, s.Arrives s1 → s1.Sound a → s1.poison.contains (secOf a) = false →
      (∀ j, sameSet (slabKey (slabOf a) a) j = false → s.slabRoom j = true → s1.slabRoom j = true) →
      let q := if s1.soft.isEmpty then s1 else s1.meetSoft (slabKey (slabOf a) a)
      s.Arrives q ∧ q.poison.contains (secOf a) = false ∧
        ∀ j, sameSet (slabKey (slabOf a) a) j = false → s.slabRoom j = true → q.slabRoom j = true := by
    intro s1 h1 hs1 hp1 hj
    dsimp only
    split
    · exact ⟨h1, hp1, hj⟩
    · obtain ⟨e, p, d, hm, hq⟩ := State.meetSoft_sound hs1 hp1 (slabKey (slabOf a) a)
      rw [hm]
      exact ⟨h1.trans ⟨_, _, _, _, rfl⟩, hq, hj⟩
  unfold State.atSlab
  dsimp only
  split
  · exact key s (.refl s) hs hp fun _ _ h => h
  · rw [State.slabMake_room hr]
    exact key _ ⟨_, _, _, _, rfl⟩ hs hp fun j hj h => State.slabRoom_tset hj h

/-- What an address draws does not depend on which other sectors are poisoned, nor on the late thread once it has answered. -/
theorem State.memCode_sound {s s' : State} (hp : s'.pkgs = s.pkgs) (hu : s'.units = s.units) (hc : s'.cur = s.cur)
    (hl : s'.late = s.late ∨ s'.late = none) {pkg a : Nat} (hx : s'.poison.contains (secOf a) = false)
    (h : s.memCode pkg a false = none) : s'.memCode pkg a false = none := by
  have hpo := State.poison_of_memCode h
  have hlate : s.lateTo pkg a = false → s'.lateTo pkg a = false := by
    unfold State.lateTo
    rw [hc]
    rcases hl with hl | hl <;> rw [hl]
    · exact id
    · exact fun _ => rfl
  have h1 : s'.present (paPkg a) = s.present (paPkg a) := by unfold State.present; rw [hp]
  have h2 : s'.reaches pkg (paPkg a) = s.reaches pkg (paPkg a) := by
    unfold State.reaches State.routeMask State.gone State.service State.pkg; rw [hp, hu]
  have h3 : s'.homeGone a = s.homeGone a := by
    unfold State.homeGone State.gone State.service; rw [hu]
  unfold State.memCode at h ⊢
  rw [hpo] at h
  rw [h1, h2, h3, hx]
  split at h
  · cases h
  next hb =>
  split at h
  · cases h
  next hlt =>
  rw [if_neg hb, if_neg (by rw [hlate (Bool.eq_false_iff.2 hlt)]; exact Bool.false_ne_true)]
  exact h

theorem State.hitCode_none {s : State} {pkg a : Nat} (h : s.memCode pkg a false = none) : s.hitCode pkg a false = none := by
  have hp := State.poison_of_memCode h
  exact State.memCode_sound (s := s) (s' := { s with late := none }) rfl rfl rfl (.inr rfl) hp h

/-! ## Memory that an access reaches -/

section
variable {s : State} {c : MCtx} {pa leaf : Nat} (h : Reaches s c pa leaf)
include h

theorem Reaches.clean : s.poison.contains (secOf (s.fwd pa)) = false := State.poison_of_memCode h.answers

/-- A request is granted by a home where the copies, the records and memory are as they were. -/
theorem Reaches.ask : ∃ q, s.ask (regionOf leaf) c.ag (s.fwd pa) false = (q, none) ∧ s.Arrives q ∧
    q.poison.contains (secOf (s.fwd pa)) = false ∧
    (c.ag / 512 ≠ paPkg (s.fwd pa) → q.slabRoom (replicaKey (c.ag / 512) (secOf (s.fwd pa))) = true) := by
  obtain ⟨ha, hp, hr⟩ := State.atSlab_arrives h.room h.sound h.clean
  refine ⟨_, ?_, ha, hp, fun hne => hr _ ?_ (by rw [replicaKey_secOf]; exact h.copyRoom)⟩
  · have hpriv : (s.atSlab (s.fwd pa)).privOther (regionOf leaf) c.ag (secOf (s.fwd pa)) = false := by
      obtain ⟨_, _, _, _, he⟩ := ha
      rw [he]
      exact h.region
    unfold State.ask State.reach
    rw [h.answers]
    simp only [Bool.not_false, Bool.true_and, hp, hpriv, Bool.false_eq_true, if_false]
  · have hs := slabOf_pkg (s.fwd pa)
    rw [replicaKey_secOf]
    unfold sameSet replicaKey slabKey
    rw [Bool.and_eq_false_iff]
    refine .inl (beq_false_of_ne ?_)
    omega

/-- A request that the agent's own copy may serve. -/
theorem Reaches.request (hit : Bool) : ∃ q,
    (if hit then (s, s.hitCode (c.ag / 512) (s.fwd pa) false) else s.ask (regionOf leaf) c.ag (s.fwd pa) false) = (q, none) ∧
    s.Arrives q ∧ q.poison.contains (secOf (s.fwd pa)) = false := by
  cases hit with
  | true => exact ⟨s, by rw [if_pos rfl, State.hitCode_none h.answers], .refl s, h.clean⟩
  | false =>
    obtain ⟨q, hq, ha, hp, -⟩ := h.ask
    exact ⟨q, hq, ha, hp⟩

end

/-! ## What a home does for a store (05 R104, R109) -/

/-- The copy of a sector that a store leaves where the agent is not the owner of a PRIV sector already. -/
theorem State.forStore_takes {s : State} {r : RegionKind} {ag sec : Nat} (hu : (s.dirOf sec).uop = none) :
    (s.forStore r ag sec).mem = s.mem ∧
    ((r ≠ .priv ∨ s.ownsPriv ag sec = false) → (s.forStore r ag sec).holds ag sec = some .m) := by
  have getX : (s.doGetX ag sec).mem = s.mem ∧ (s.doGetX ag sec).holds ag sec = some .m := by
    by_cases hm : s.holds ag sec = some .m
    · have : s.doGetX ag sec = s := by rw [State.doGetX, hm]
      rw [this]
      exact ⟨rfl, hm⟩
    by_cases he : s.holds ag sec = some .e
    · have : s.doGetX ag sec = s.setCopy ag sec ⟨.m, s.sector sec, 0⟩ := by rw [State.doGetX, he]
      rw [this]
      exact ⟨rfl, State.holds_setCopy _ _ _ _⟩
    obtain ⟨s1, d, h1, -, h2⟩ := State.doGetX_asks hu hm he
    rw [h2]
    exact ⟨h1, State.holds_setCopy _ _ _ _⟩
  cases r with
  | priv =>
    by_cases ho : s.ownsPriv ag sec
    · have : s.forStore .priv ag sec = s := if_pos ho
      rw [this]
      exact ⟨rfl, fun h => by simp [ho] at h⟩
    · have : s.forStore .priv ag sec =
          (s.setCopy ag sec ⟨.m, s.sector sec, 0⟩).setHome sec { s.dirOf sec with st := .p, owner := agNum sec ag, dies := 0 } := if_neg ho
      rw [this]
      exact ⟨rfl, fun _ => State.holds_setCopy _ _ _ _⟩
  | rsh | coh | rdup => exact ⟨getX.1, fun _ => getX.2⟩

/-! ## Stores, reads and writes at memory that is reached -/

section
variable {s : State} {c : MCtx} {pa leaf n : Nat} (h : Reaches s c pa leaf)
include h

/-- A store writes its bytes (05 R104). -/
theorem Reaches.secStore (hn : n ≠ 64) (v who : Nat) : ∃ q, s.Arrives q ∧ q.poison.contains (secOf (s.fwd pa)) = false ∧
    s.secStore (regionOf leaf) c.ag pa n v who =
      ((q.forStore (regionOf leaf) c.ag (secOf (s.fwd pa))).setMem c.ag (s.fwd pa) n v who, none) := by
  obtain ⟨q, hq, ha, hp⟩ := h.request (s.hitStore (regionOf leaf) c.ag (secOf (s.fwd pa)))
  refine ⟨q, ha, hp, ?_⟩
  unfold State.secStore
  rw [beq_false_of_ne hn]
  dsimp only
  split at hq
  next hh =>
    obtain ⟨rfl, hc⟩ := Prod.mk.inj hq
    rw [if_pos hh, hc]
  next hh => rw [if_neg hh, hq]

/-- What a store leaves of memory. -/
theorem Reaches.secStore_mem (hn : n ≠ 64) (v who : Nat) : ∃ s2, s.secStore (regionOf leaf) c.ag pa n v who = (s2, none) ∧
    s2.mem = s.mem.writeN (s.fwd pa) n v ∧ s2.wgs = s.wgs ∧
    ((regionOf leaf ≠ .priv ∨ s.ownsPriv c.ag (secOf (s.fwd pa)) = false) → s2.holds c.ag (secOf (s.fwd pa)) = some .m) := by
  obtain ⟨q, ha, -, hs⟩ := h.secStore hn v who
  obtain ⟨hm, ht⟩ := State.forStore_takes (s := q) (r := regionOf leaf) (ag := c.ag) ((congrArg Dir.uop (ha.dirOf _)).trans h.whole)
  refine ⟨_, hs, congrArg (Store.writeN · (s.fwd pa) n v) (hm.trans ha.mem), ?_, fun hp => ht (ha.ownsPriv _ _ ▸ hp)⟩
  exact (congrArg State.wgs (q.mem_forStore _ _ _).same).trans ha.wgs

/-- An indivisible read and write finds the bytes of memory, and writes them or nothing (05 R114). -/
theorem Reaches.secAtomic (home : Bool) (f : Nat → Option Nat) (who : Nat) : ∃ s2,
    s.secAtomic (regionOf leaf) c.ag pa n home f who = (s2, .ok (s.mem.readN (s.fwd pa) n)) ∧
    s2.mem = (f (s.mem.readN (s.fwd pa) n)).elim s.mem (s.mem.writeN (s.fwd pa) n) := by
  obtain ⟨q, hq, ha, -⟩ := h.request (!(home && regionOf leaf == .coh) && s.hitStore (regionOf leaf) c.ag (secOf (s.fwd pa)))
  have hu : (q.dirOf (secOf (s.fwd pa))).uop = none := (congrArg Dir.uop (ha.dirOf _)).trans h.whole
  obtain ⟨s1, h1, hm⟩ : ∃ s1, (if (home && regionOf leaf == .coh) = true then q.recall (secOf (s.fwd pa))
      else q.forStore (regionOf leaf) c.ag (secOf (s.fwd pa))) = s1 ∧ s1.mem = s.mem := by
    refine ⟨_, rfl, ?_⟩
    split
    · exact (State.recall_takes hu).2.1.trans ha.mem
    · exact (State.forStore_takes hu).1.trans ha.mem
  unfold State.secAtomic
  dsimp only
  rw [hq]
  dsimp only
  rw [h1, hm]
  cases f (s.mem.readN (s.fwd pa) n) with
  | none => exact ⟨s1, rfl, hm⟩
  | some v =>
    refine ⟨_, rfl, ?_⟩
    split
    · exact congrArg (Store.writeN · (s.fwd pa) n v) ((((State.tends_purgeWrite _ _).trans (State.tends_homeDirty _ _ _ _)).mem).trans hm)
    · exact congrArg (Store.writeN · (s.fwd pa) n v) hm

end

end Sys2Proof.Machine

namespace Sys2Proof.Machine

/-! ## Bytes of a sector (09 R194) -/

section
variable (b : Byte) (t : List Byte)

theorem natOf_cons_mod : natOf (b :: t) % 256 = b.toNat := by
  have hb := b.isLt
  rw [natOf]
  omega

theorem natOf_cons_div : natOf (b :: t) / 256 = natOf t := by
  have hb := b.isLt
  rw [natOf]
  omega

end

theorem natOf_div (l : List Byte) (k : Nat) : natOf l / 256 ^ k = natOf (l.drop k) := by
  induction k generalizing l with
  | zero => simp
  | succ k ih =>
    cases l with
    | nil => simp [natOf]
    | cons b t => rw [List.drop_succ_cons, ← ih, pow_succ', ← Nat.div_div_eq_div_mul, natOf_cons_div]

theorem natOf_mod (l : List Byte) (k : Nat) : natOf l % 256 ^ k = natOf (l.take k) := by
  induction k generalizing l with
  | zero => simp [natOf, Nat.mod_one]
  | succ k ih =>
    cases l with
    | nil => simp [natOf]
    | cons b t => rw [List.take_succ_cons, pow_succ', Nat.mod_mul, natOf_cons_mod, natOf_cons_div, ih, natOf]

/-- Some bytes of a run, read from its number. -/
theorem Store.readN_part (m : Store 8) (a k n j : Nat) (h : j + n ≤ k) :
    m.readN a k / 2 ^ (8 * j) % 2 ^ (8 * n) = m.readN (a + j) n := by
  rw [pow_mul, pow_mul, show 2 ^ 8 = 256 from rfl, Store.readN, Store.readN, natOf_div, natOf_mod, Store.run_eq, Store.run_eq]
  congr 1
  apply List.ext_getElem
  · simp
    omega
  · intro i h1 h2
    simp [Nat.add_assoc]

theorem State.partOf_sector (s : State) {a n : Nat} (hn : n ∈ [1, 2, 4, 8]) (ha : a % n = 0) :
    partOf (s.sector (secOf a)) a n = s.mem.readN a n := by
  have hfit : a - secOf a + n ≤ 64 := by
    unfold secOf
    simp only [List.mem_cons, List.not_mem_nil, or_false] at hn
    rcases hn with rfl | rfl | rfl | rfl <;> omega
  have hlt := s.mem.readN_lt (secOf a) 64
  rw [show 256 ^ 64 = 2 ^ (8 * 64) from (pow_mul 2 8 64).symm] at hlt
  have h := s.mem.readN_part (secOf a) 64 n (a - secOf a) hfit
  rw [show secOf a + (a - secOf a) = a from Nat.add_sub_cancel' (Nat.div_mul_le_self a 64)] at h
  rw [partOf, State.sector, BitVec.toNat_ofNat, Nat.mod_eq_of_lt hlt, h]

/-! ## Loads from memory that is reached (05 R103, R106, R108, R110, R111) -/

/-- What a load of some bytes of a sector reads, and leaves. -/
structure State.Reads (s q : State) (r : RegionKind) (ag a n v : Nat) : Prop where
  mem : q.mem = s.mem
  wgs : q.wgs = s.wgs
  memory : r ≠ .rsh → (r = .rdup → s.replica (ag / 512) (secOf a) = none) → (∀ d ws, s.copy ag (secOf a) ≠ some ⟨.r, d, ws⟩) →
    v = s.mem.readN a n
  copied : ∀ d ws, s.copy ag (secOf a) = some ⟨.r, d, ws⟩ → r ∈ [RegionKind.rsh, .rdup] → v = partOf d a n
  home : s.copy ag (secOf a) = none → r = .rsh → v = partOf (s.homeSec (secOf a)) a n
  replica : s.copy ag (secOf a) = none → ∀ d, r = .rdup → s.replica (ag / 512) (secOf a) = some d → v = partOf d a n

theorem State.valueAt_memory {s : State} {ag a n : Nat} (h : ∀ d ws, s.copy ag (secOf a) ≠ some ⟨.r, d, ws⟩) :
    s.valueAt ag a n = s.mem.readN a n := by
  unfold State.valueAt
  split
  next d ws hc => exact absurd hc (h d ws)
  · rfl

theorem State.valueAt_copy {s : State} {ag a n : Nat} {d : BitVec 512} {ws : BitVec 16} (h : s.copy ag (secOf a) = some ⟨.r, d, ws⟩) :
    s.valueAt ag a n = partOf d a n := by
  unfold State.valueAt
  rw [h]

theorem State.valueAt_fill (s : State) (ag a n : Nat) (v : BitVec 512) : (s.fill ag (secOf a) v).valueAt ag a n = partOf v a n :=
  State.valueAt_copy (ws := 0) (by simp [State.fill, State.copy, State.setCopy])

/-- An untracked copy serves RSH and RDUP mappings, where no other agent owns the sector. -/
theorem State.hitLoad_untracked {s : State} {r : RegionKind} {ag x : Nat} {d : BitVec 512} {ws : BitVec 16}
    (hc : s.copy ag x = some ⟨.r, d, ws⟩) (hr : r ∈ [RegionKind.rsh, .rdup]) (hp : s.privOther r ag x = false) :
    s.hitLoad r ag x = true := by
  have hh : s.holds ag x = some .r := by rw [State.holds, hc]; rfl
  unfold State.hitLoad
  rw [hh]
  simp only [List.mem_cons, List.not_mem_nil, or_false] at hr
  rcases hr with rfl | rfl
  · rfl
  · exact bne_iff_ne.2 fun h => by simp [State.privOther, h] at hp

theorem State.hitLoad_held {s : State} {r : RegionKind} {ag x : Nat} (h : s.copy ag x = none) : s.hitLoad r ag x = false := by
  unfold State.hitLoad
  rw [State.holds, h]
  rfl

section
variable {s : State} {r : RegionKind} {ag a n : Nat}

/-- A load that the agent's own copy serves. -/
theorem State.reads_hit (hit : s.hitLoad r ag (secOf a) = true) : s.Reads s r ag a n (s.valueAt ag a n) := by
  have hheld : s.copy ag (secOf a) ≠ none := fun h => by
    rw [State.hitLoad_held h] at hit
    cases hit
  exact ⟨rfl, rfl, fun _ _ h => State.valueAt_memory h, fun d ws h _ => State.valueAt_copy h, fun h => absurd h hheld,
    fun h => absurd h hheld⟩

/-- A load that the package's replica serves. -/
theorem State.reads_replica {q : State} {v : BitVec 512} (hm : q.mem = s.mem) (hw : q.wgs = s.wgs)
    (hv : s.replica (ag / 512) (secOf a) = some v) (hc : ∀ d ws, s.copy ag (secOf a) ≠ some ⟨.r, d, ws⟩) :
    s.Reads q .rdup ag a n (partOf v a n) := by
  refine ⟨hm, hw, fun _ h => ?_, fun d ws h => absurd h (hc d ws), nofun, fun _ d _ h => ?_⟩
  · exact absurd (hv.symm.trans (h rfl)) nofun
  · rw [Option.some.inj (hv.symm.trans h)]

/-- A load of the home's data of an RSH sector. -/
theorem State.reads_home {q : State} (hm : q.mem = s.mem) (hw : q.wgs = s.wgs) 
    (hc : ∀ d ws, s.copy ag (secOf a) ≠ some ⟨.r, d, ws⟩) : s.Reads q .rsh ag a n (partOf (s.homeSec (secOf a)) a n) :=
  ⟨hm, hw, fun h => absurd rfl h, fun d ws h => absurd h (hc d ws), fun _ _ => rfl, fun _ _ h => nomatch h⟩

/-- A load of memory's bytes in another region. -/
theorem State.reads_memory {q : State} (hm : q.mem = s.mem) (hw : q.wgs = s.wgs) (hr : r ≠ .rsh)
    (hc : ∀ d ws, r ∈ [RegionKind.rsh, .rdup] → s.copy ag (secOf a) ≠ some ⟨.r, d, ws⟩)
    (hn : r = .rdup → s.replica (ag / 512) (secOf a) = none) : s.Reads q r ag a n (s.mem.readN a n) :=
  ⟨hm, hw, fun _ _ _ => rfl, fun d ws h hr => absurd h (hc d ws hr), fun _ h => absurd h hr, fun _ d hr h => by
    rw [hn hr] at h
    cases h⟩

end

/-- GetS leaves no untracked copy with its agent. -/
theorem State.copy_doGetS {s : State} {ag x : Nat} (d : BitVec 512) (ws : BitVec 16) : (s.doGetS ag x).copy ag x ≠ some ⟨.r, d, ws⟩ := by
  intro h
  have hh : (s.doGetS ag x).holds ag x = some .r := by rw [State.holds, h]; rfl
  unfold State.doGetS at hh
  split at hh
  case h_5 =>
    dsimp only at hh
    split at hh <;> simp at hh
  all_goals simp_all

/-- What a home finds for an RDUP request is memory's (05 R108). -/
theorem State.newest_mem {s : State} {x : Nat} (hu : (s.dirOf x).uop = none) : (s.newest x).mem = s.mem := by
  unfold State.newest
  rw [State.combine_whole hu]
  exact s.tends_probe_mem x

theorem State.slabRoom_newest {s : State} {x : Nat} (hu : (s.dirOf x).uop = none) (k : Nat) :
    (s.newest x).slabRoom k = s.slabRoom k := by
  have hs : (s.newest x).slabs = s.slabs := by
    unfold State.newest State.probe
    rw [State.combine_whole hu]
    split
    · dsimp only
      split <;> rfl
    · rfl
  unfold State.slabRoom
  rw [hs]

theorem State.fillReplica_mem {s : State} {p x : Nat} (h : s.slabRoom (replicaKey p x) = true) (v : BitVec 512) :
    (s.fillReplica p x v).mem = s.mem := by
  rw [← congrArg State.mem (State.slabMake_room h)]
  rfl

theorem State.claimPriv_reads {s : State} {ag a n : Nat} (hit : s.hitLoad .priv ag (secOf a) = false) :
    (s.claimPriv ag (secOf a)).valueAt ag a n = s.mem.readN a n := by
  unfold State.claimPriv
  split
  next ho =>
    refine State.valueAt_memory fun d ws h => ?_
    unfold State.hitLoad at hit
    rw [State.holds, h] at hit
    exact absurd (ho.symm.trans hit) (by decide)
  · exact State.valueAt_memory fun d ws h => by simp [State.copy, State.setHome, State.setCopy] at h

/-- A home's work for a load: what it reads, where neither a copy nor a replica serves it. -/
theorem State.reads_forLoad {s q : State} {r : RegionKind} {ag a n : Nat} (ha : s.Arrives q) (hu : (s.dirOf (secOf a)).uop = none)
    (hit : s.hitLoad r ag (secOf a) = false) (hp : s.privOther r ag (secOf a) = false)
    (hn : r = .rdup → s.replica (ag / 512) (secOf a) = none)
    (hroom : ag / 512 ≠ paPkg a → q.slabRoom (replicaKey (ag / 512) (secOf a)) = true)
    (hsz : n ∈ [1, 2, 4, 8]) (hal : a % n = 0) :
    s.Reads (q.forLoad r ag (secOf a)) r ag a n ((q.forLoad r ag (secOf a)).valueAt ag a n) := by
  have hqu : (q.dirOf (secOf a)).uop = none := (congrArg Dir.uop (ha.dirOf _)).trans hu
  have hw : (q.forLoad r ag (secOf a)).wgs = s.wgs := (congrArg State.wgs (q.mem_forLoad r ag (secOf a)).same).trans ha.wgs
  have hc : ∀ d ws, r ∈ [RegionKind.rsh, .rdup] → s.copy ag (secOf a) ≠ some ⟨.r, d, ws⟩ := fun d ws hr h => by
    rw [State.hitLoad_untracked h hr hp] at hit
    cases hit
  cases r with
  | priv =>
    have hv : (q.claimPriv ag (secOf a)).valueAt ag a n = s.mem.readN a n := by
      obtain ⟨_, _, _, _, rfl⟩ := ha
      exact State.claimPriv_reads hit
    rw [show (q.forLoad .priv ag (secOf a)).valueAt ag a n = s.mem.readN a n from hv]
    refine State.reads_memory ?_ hw nofun hc hn
    unfold State.forLoad State.claimPriv
    dsimp only
    split
    · exact ha.mem
    · exact ha.mem
  | coh =>
    have hm : (q.doGetS ag (secOf a)).mem = s.mem := (State.mem_doGetS_eq hqu).trans ha.mem
    rw [show (q.forLoad .coh ag (secOf a)).valueAt ag a n = s.mem.readN a n from
      (State.valueAt_memory State.copy_doGetS).trans (congrArg (Store.readN · a n) hm)]
    exact State.reads_memory hm hw nofun hc hn
  | rsh =>
    have he : q.forLoad .rsh ag (secOf a) = q.fill ag (secOf a) (s.homeSec (secOf a)) := by
      unfold State.forLoad State.fillUntracked
      dsimp only
      rw [State.combine_whole hqu, ite_self, ha.homeSec]
      rfl
    rw [he] at hw ⊢
    rw [State.valueAt_fill]
    exact State.reads_home ha.mem hw fun d ws => hc d ws (by simp)
  | rdup =>
    have hm : (q.newest (secOf a)).mem = s.mem := (State.newest_mem hqu).trans ha.mem
    obtain ⟨q', he, hm'⟩ : ∃ q' : State, q.forLoad .rdup ag (secOf a) = q'.fill ag (secOf a) (s.sector (secOf a)) ∧ q'.mem = s.mem := by
      unfold State.forLoad State.fillUntracked
      have hs : (q.newest (secOf a)).sector (secOf a) = s.sector (secOf a) := congrArg (fun m => BitVec.ofNat 512 (Store.readN m _ 64)) hm
      dsimp only
      rw [hs]
      split
      next h => cases h
      · split
        · exact ⟨_, rfl, hm⟩
        next hne =>
          refine ⟨_, rfl, (State.fillReplica_mem ?_ _).trans hm⟩
          exact (State.slabRoom_newest hqu _).trans (hroom (by rwa [paPkg_secOf] at hne))
    rw [he] at hw ⊢
    rw [State.valueAt_fill, State.partOf_sector s hsz hal]
    exact State.reads_memory hm' hw nofun hc hn

section
variable {s : State} {c : MCtx} {pa leaf n : Nat} (h : Reaches s c pa leaf)
include h

/-- A package's replica answers without an error. -/
theorem Reaches.atReplica {v : BitVec 512} (hv : s.replica (c.ag / 512) (secOf (s.fwd pa)) = some v) :
    ∃ q, s.Arrives q ∧ s.atReplica (c.ag / 512) (secOf (s.fwd pa)) = (q, some (.ok v)) := by
  unfold State.atReplica
  rw [hv]
  dsimp only
  split
  · exact ⟨s, .refl s, by rw [h.clean]; rfl⟩
  · obtain ⟨e, p, d, hm, hp⟩ := State.meetSoft_sound h.sound h.clean (replicaKey (c.ag / 512) (secOf (s.fwd pa)))
    rw [hm]
    exact ⟨_, ⟨_, _, _, _, rfl⟩, by rw [hp]; rfl⟩

/-- The replica of an RDUP sector serves its package, if it has one. -/
theorem Reaches.servedBy :
    (∃ q v, (if (regionOf leaf == .rdup && (s.hitCode (c.ag / 512) (s.fwd pa) false).isNone) = true
        then s.atReplica (c.ag / 512) (secOf (s.fwd pa)) else (s, none)) = (q, some (.ok v)) ∧ s.Arrives q ∧ regionOf leaf = .rdup ∧
      s.replica (c.ag / 512) (secOf (s.fwd pa)) = some v) ∨
    ((if (regionOf leaf == .rdup && (s.hitCode (c.ag / 512) (s.fwd pa) false).isNone) = true
        then s.atReplica (c.ag / 512) (secOf (s.fwd pa)) else (s, none)) = (s, none) ∧
      (regionOf leaf = .rdup → s.replica (c.ag / 512) (secOf (s.fwd pa)) = none)) := by
  rw [State.hitCode_none h.answers, Option.isNone_none, Bool.and_true]
  by_cases hr : regionOf leaf = .rdup
  · rw [if_pos (beq_iff_eq.2 hr)]
    cases hv : s.replica (c.ag / 512) (secOf (s.fwd pa)) with
    | some v =>
      obtain ⟨q, ha, hq⟩ := h.atReplica hv
      exact .inl ⟨q, v, hq, ha, hr, rfl⟩
    | none => exact .inr ⟨by rw [State.atReplica, hv], fun _ => rfl⟩
  · exact .inr ⟨if_neg fun he => hr (beq_iff_eq.1 he), fun he => absurd he hr⟩

theorem Reaches.no_copy (hit : s.hitLoad (regionOf leaf) c.ag (secOf (s.fwd pa)) = false) (d : BitVec 512) (ws : BitVec 16)
    (hr : regionOf leaf ∈ [RegionKind.rsh, .rdup]) : s.copy c.ag (secOf (s.fwd pa)) ≠ some ⟨.r, d, ws⟩ := fun hc => by
  rw [State.hitLoad_untracked hc hr h.region] at hit
  cases hit

/-- A load reads the bytes where they are newest for its region. -/
theorem Reaches.secLoad (hn : n ∈ [1, 2, 4, 8]) (ha : s.fwd pa % n = 0) : ∃ q v, s.secLoad (regionOf leaf) c.ag pa n = (q, .ok v) ∧
    s.Reads q (regionOf leaf) c.ag (s.fwd pa) n v := by
  unfold State.secLoad
  dsimp only
  by_cases hit : s.hitLoad (regionOf leaf) c.ag (secOf (s.fwd pa)) = true
  · rw [if_pos hit, State.hitCode_none h.answers]
    exact ⟨_, _, rfl, State.reads_hit hit⟩
  rw [if_neg hit]
  rw [Bool.not_eq_true] at hit
  rcases h.servedBy with ⟨q, v, he, hq, hr, hv⟩ | ⟨he, hrep⟩
  · rw [he, hr]
    refine ⟨_, _, rfl, ?_⟩
    rw [State.valueAt_fill]
    exact State.reads_replica hq.mem hq.wgs hv fun d ws => h.no_copy hit d ws (by simp [hr])
  · obtain ⟨q, hask, hq, -, hroom⟩ := h.ask
    rw [he, hask]
    exact ⟨_, _, rfl, State.reads_forLoad hq h.whole hit h.region hrep hroom hn ha⟩

/-- So does one that allocates nothing (09 R199). -/
theorem Reaches.secLoadNc : ∃ q v, s.secLoadNc (regionOf leaf) c.ag pa n = (q, .ok v) ∧
    s.Reads q (regionOf leaf) c.ag (s.fwd pa) n v := by
  unfold State.secLoadNc
  dsimp only
  by_cases hit : s.hitLoad (regionOf leaf) c.ag (secOf (s.fwd pa)) = true
  · rw [if_pos hit, State.hitCode_none h.answers]
    exact ⟨_, _, rfl, State.reads_hit hit⟩
  rw [if_neg hit]
  rw [Bool.not_eq_true] at hit
  rcases h.servedBy with ⟨q, v, he, hq, hr, hv⟩ | ⟨he, hrep⟩
  · rw [he, hr]
    exact ⟨_, _, rfl, State.reads_replica hq.mem hq.wgs hv fun d ws => h.no_copy hit d ws (by simp [hr])⟩
  · obtain ⟨q, hask, hq, -, -⟩ := h.ask
    have hu : (q.dirOf (secOf (s.fwd pa))).uop = none := (congrArg Dir.uop (hq.dirOf _)).trans h.whole
    rw [he, hask]
    dsimp only
    rw [State.combine_whole hu, ite_self]
    by_cases hr : regionOf leaf = .rsh
    · rw [if_pos (beq_iff_eq.2 hr), hr, hq.homeSec]
      exact ⟨_, _, rfl, State.reads_home hq.mem hq.wgs fun d ws => h.no_copy hit d ws (by simp [hr])⟩
    · rw [if_neg fun he => hr (beq_iff_eq.1 he), hq.mem]
      exact ⟨_, _, rfl, State.reads_memory hq.mem hq.wgs hr (fun d ws => h.no_copy hit d ws) hrep⟩

end

end Sys2Proof.Machine

namespace Sys2Proof.Machine

/-! ## Accesses of a lane to memory that is reached (09 R194, R195) -/

section
variable {s s1 s2 : State} {c : MCtx} {va : Word} {n pa leaf v code : Nat}

/-- An access goes on at the address its translation gives. -/
theorem State.xlateAcc_ok {k : XKind} (hx : s.xlate c va k = (s1, .ok pa leaf)) (f : State → Nat → Nat → State × Acc) :
    s.xlateAcc c va k f = f s1 pa leaf := by
  rw [State.xlateAcc, hx]

theorem State.xlateAcc_fault {k : XKind} (hx : s.xlate c va k = (s1, .fault code)) (f : State → Nat → Nat → State × Acc) :
    s.xlateAcc c va k f = (s1, .trap code va) := by
  rw [State.xlateAcc, hx]

section
variable (ha : va.toNat % n = 0) (hx : s.xlate c va .store = (s1, .ok pa leaf))
include ha hx

theorem State.dataStore_ok (ho : s1.ownStore c (regionOf leaf) pa n v va = (s2, none)) : s.dataStore c va n v = (s2, .ok 0) := by
  rw [State.dataStore, if_neg (not_not.2 ha), State.xlateAcc_ok hx, ho]

theorem State.dataStore_error (ho : s1.ownStore c (regionOf leaf) pa n v va = (s2, some code)) :
    s.dataStore c va n v = (s2.failStore c pa code va, .ok 0) := by
  rw [State.dataStore, if_neg (not_not.2 ha), State.xlateAcc_ok hx, ho]
  rfl

end

section
variable {nc : Bool} (ha : va.toNat % n = 0) (hx : s.xlate c va .load = (s1, .ok pa leaf))
include ha hx

theorem State.dataLoad_ok (ho : s1.ownLoad c (regionOf leaf) pa n nc = (s2, .ok v)) : s.dataLoad c va n nc = (s2, .ok v) := by
  rw [State.dataLoad, if_neg (not_not.2 ha), State.xlateAcc_ok hx, ho]

theorem State.dataLoad_error (ho : s1.ownLoad c (regionOf leaf) pa n nc = (s2, .error code)) :
    s.dataLoad c va n nc = (s2.respond c pa code, .trap 0x1A va) := by
  rw [State.dataLoad, if_neg (not_not.2 ha), State.xlateAcc_ok hx, ho]
  rfl

end

section
variable {home : Bool} {f : Nat → Option Nat} (ha : va.toNat % n = 0) (hx : s.xlate c va .rmw = (s1, .ok pa leaf))
  (hc : s1.atCtrl (c.ag / 512) pa = false)
include ha hx hc

theorem State.dataRmw_ok (ho : s1.secAtomic (regionOf leaf) c.ag pa n home f c.who = (s2, .ok v)) :
    s.dataRmw c va n home f = (s2, .ok v) := by
  rw [State.dataRmw, if_neg (not_not.2 ha), State.xlateAcc_ok hx, hc, ho]
  rfl

theorem State.dataRmw_error (ho : s1.secAtomic (regionOf leaf) c.ag pa n home f c.who = (s2, .error code)) :
    s.dataRmw c va n home f = (s2.respond c pa code, .trap 0x1A va) := by
  rw [State.dataRmw, if_neg (not_not.2 ha), State.xlateAcc_ok hx, hc, ho]
  rfl

end

theorem State.dataRed_ok {op : RedOp} {wide : Bool} (ha : va.toNat % (if wide then 8 else 4) = 0)
    (hx : s.xlate c va .store = (s1, .ok pa leaf)) (hc : s1.atCtrl (c.ag / 512) pa = false)
    (ho : s1.secRed (regionOf leaf) c.ag pa op wide v c.who = (s2, none)) : s.dataRed c va op wide v = (s2, .ok 0) := by
  have ha' : va.toNat % (redWidth wide / 8) = 0 := by cases wide <;> exact ha
  rw [State.dataRed, if_neg (not_not.2 ha'), State.xlateAcc_ok hx, hc, ho]
  rfl

end

theorem State.physStore_memory {s : State} {c : MCtx} {r : RegionKind} {pa n v : Nat} (hc : s.atCtrl (c.ag / 512) pa = false) :
    s.physStore c r pa n v = s.secStore r c.ag pa n v c.who := if_neg (by rw [hc]; exact Bool.false_ne_true)

theorem State.physLoad_memory {s : State} {c : MCtx} {r : RegionKind} {pa n : Nat} (hc : s.atCtrl (c.ag / 512) pa = false) (nc : Bool) :
    s.physLoad c r pa n nc = if nc then s.secLoadNc r c.ag pa n else s.secLoad r c.ag pa n :=
  if_neg (by rw [hc]; exact Bool.false_ne_true)

section
variable {s : State} {c : MCtx} {pa leaf n : Nat} (h : Reaches s c pa leaf)
include h

theorem Reaches.ownStore (hc : s.Calm) (v : Nat) (va : Word) :
    s.ownStore c (regionOf leaf) pa n v va = s.secStore (regionOf leaf) c.ag pa n v c.who :=
  (State.ownStore_calm hc _ _ _ _ _ _).trans (State.physStore_memory h.mem)

theorem Reaches.ownLoad (hc : s.Calm) (hn : n ∈ [1, 2, 4, 8]) (ha : s.fwd pa % n = 0) (nc : Bool) : ∃ q v,
    s.ownLoad c (regionOf leaf) pa n nc = (q, .ok v) ∧ s.Reads q (regionOf leaf) c.ag (s.fwd pa) n v := by
  rw [State.ownLoad_calm hc, State.physLoad_memory h.mem]
  cases nc with
  | true => exact h.secLoadNc
  | false => exact h.secLoad hn ha

end

/-! ## Stores to memory that stay behind (13 R282, R285, R289) -/

/-- A load has as many bytes as it reads. -/
theorem State.valueAt_lt (s : State) (ag a n : Nat) : s.valueAt ag a n < 256 ^ n := by
  unfold State.valueAt
  split
  · rw [partOf, pow_mul 2 8 n]
    exact Nat.mod_lt _ (Nat.pos_of_ne_zero (by simp))
  · exact Store.readN_lt _ _ _

theorem State.secLoad_lt {s q : State} {r : RegionKind} {ag pa n w : Nat} (h : s.secLoad r ag pa n = (q, .ok w)) : w < 256 ^ n := by
  have val : ∀ (x : State), w = x.valueAt ag (s.fwd pa) n → w < 256 ^ n := fun x hx => hx ▸ x.valueAt_lt _ _ _
  unfold State.secLoad at h
  dsimp only at h
  split at h
  · split at h
    · cases h
    · exact val _ (by cases h; rfl)
  · split at h
    · exact val _ (by cases h; rfl)
    · cases h
    · split at h
      · cases h
      · exact val _ (by cases h; rfl)

/-- A byte of a number replaced. -/
theorem replace_byte (w v k : Nat) :
    (w / 256 ^ k * 256 ^ k + v % 256 ^ k) - (w / 256 ^ k * 256 ^ k + v % 256 ^ k) / 256 ^ k % 256 * 256 ^ k + v / 256 ^ k % 256 * 256 ^ k =
      w / 256 ^ (k + 1) * 256 ^ (k + 1) + v % 256 ^ (k + 1) := by
  have hpos : 0 < 256 ^ k := Nat.pos_of_ne_zero (by simp)
  have hlt := Nat.mod_lt v hpos
  rw [pow_succ, Nat.mod_mul, ← Nat.div_div_eq_div_mul]
  generalize 256 ^ k = M at *
  have hd : (w / M * M + v % M) / M = w / M := by
    rw [Nat.add_comm, Nat.add_mul_div_right _ _ hpos, Nat.div_eq_of_lt hlt, Nat.zero_add]
  rw [hd]
  generalize w / M = W at *
  have hW : W * M = W / 256 * (M * 256) + W % 256 * M := by
    conv_lhs => rw [← Nat.div_add_mod W 256]
    ring
  rw [hW, Nat.mul_comm (v / M % 256) M]
  omega

/-- A store leaves its bytes of a number that has no others. -/
theorem Held.over_whole (h : Held) {w : Nat} (hw : w < 256 ^ h.n) (hv : h.v < 256 ^ h.n) : h.over h.addr h.n w = h.v := by
  have key : ∀ k ≤ h.n, (List.range k).foldl (fun v i =>
      if h.addr ≤ h.addr + i ∧ h.addr + i < h.addr + h.n then
        v - v / 2 ^ (8 * i) % 256 * 2 ^ (8 * i) + h.v / 2 ^ (8 * (h.addr + i - h.addr)) % 256 * 2 ^ (8 * i)
      else v) w = w / 256 ^ k * 256 ^ k + h.v % 256 ^ k := by
    intro k
    induction k with
    | zero => simp [Nat.mod_one]
    | succ k ih =>
      intro hk
      rw [List.range_succ, List.foldl_append, ih (by omega), List.foldl_cons, List.foldl_nil, if_pos (by omega), Nat.add_sub_cancel_left,
        pow_mul, show 2 ^ 8 = 256 from rfl]
      exact replace_byte w h.v k
  rw [Held.over, key h.n le_rfl, Nat.div_eq_of_lt hw, Nat.mod_eq_of_lt hv, Nat.zero_mul, Nat.zero_add]

/-- A store to memory of an agent as it stays behind. -/
def State.memHeld (s : State) (c : MCtx) (r : RegionKind) (pa n v : Nat) (va : Word) : Held :=
  { s.heldAs c none false false r pa n v 0 va with id := s.nextId, deps := [] }

section
variable {s : State} {c : MCtx} {r : RegionKind} {pa n v : Nat} {va : Word} (hc : s.atCtrl (c.ag / 512) pa = false)
include hc

/-- Where the agenda asks it, a store to memory that answers stays behind. -/
theorem State.ownStore_delayed (hm : s.memCode (c.ag / 512) pa false = none) (hst : s.stores = []) (hv : s.views = [])
    (hd : s.delay = some c.who) : s.ownStore c r pa n v va = (s.left (s.memHeld c r pa n v va), none) := by
  have hb : s.staysBehind c pa n = true := by simp [State.staysBehind, hc, hm, hd]
  rw [State.ownStore, if_pos hb, State.putBehind_first hst hv, hc]
  rfl

/-- Its thread reads it. -/
theorem State.ownLoad_left (hn : 0 < n) (hlt : v < 256 ^ n) (hv : s.views = []) {q : State} {w : Nat}
    (hl : (s.left (s.memHeld c r pa n v va)).physLoad c r pa n false = (q, .ok w)) :
    (s.left (s.memHeld c r pa n v va)).ownLoad c r pa n false = (q, .ok v) := by
  have hq : (s.left (s.memHeld c r pa n v va)).Seen q := by
    have h := (s.left (s.memHeld c r pa n v va)).seen_physLoad c r pa n false
    rwa [hl] at h
  have hw : w < 256 ^ n := by
    rw [State.physLoad_memory (s := s.left (s.memHeld c r pa n v va)) hc] at hl
    exact State.secLoad_lt hl
  have hover : (s.memHeld c r pa n v va).over pa n w = v := (s.memHeld c r pa n v va).over_whole hw hlt
  have hst : q.stores = [s.memHeld c r pa n v va] := hq.stores_eq
  have hid : q.nextId = s.nextId + 1 := hq.nextId_eq
  have hread : (s.memHeld c r pa n v va).readBy c.who = true := by
    simp [Held.readBy, Held.plain, Held.kind, State.memHeld, State.heldAs]
  have hmeets : (s.memHeld c r pa n v va).meets false 0 pa n = true := by
    simp [Held.meets, State.memHeld, State.heldAs]
    omega
  have hbefore : (s.memHeld c r pa n v va).id < q.nextId := hid ▸ Nat.lt_succ_self _
  rw [State.ownLoad, State.bound_none (s := s.left _) hv, hl]
  simp only [State.overlaid, hst, List.foldl_cons, List.foldl_nil, hread, hmeets, decide_eq_true hbefore, Bool.or_true, Bool.and_self,
    if_true, hover]

end

/-! ### A fence beyond the workgroup (13 R289) -/

theorem State.fresh_none {s : State} (hv : s.views = []) (k : Nat) : s.fresh k = s := by
  obtain ⟨⟩ := s
  simp only at hv
  subst hv
  rfl

theorem State.performCtrl_none {s : State} (hs : s.stores = []) (k : Nat) : s.performCtrl k = s := by
  obtain ⟨⟩ := s
  simp only at hs
  subst hs
  rfl

theorem Thread.guard_always (t : Thread) : t.guard always = true := by
  rw [Thread.guard, show always.setWidth 3 = (7 : BitVec 3) from rfl, Thread.getP_seven]
  rfl

/-- A thread's fence beyond its workgroup performs the access that it has behind, where there is no other. -/
theorem State.ordered_fence {s : State} {h : Held} {sc : Scope} (hs : s.stores = [h]) (hv : s.views = []) (hc : h.ctrl = false)
    (hwho : h.c.who = s.cur) (hdeps : h.deps = []) (hsc : sc ∈ [Scope.cl, .die, .pkg, .sys])
    (hnone : (s.cleared.performHeld h).stores = []) : s.ordered (.fence sc) = s.cleared.performHeld h := by
  have hknown : s.known s.cur = [h.id] := by simp [State.known, hs, Held.knownTo, hc, hwho, hdeps]
  have hp : ((s.fresh s.cur).perform fun x => ((s.fresh s.cur).known s.cur).contains x.id) = s.cleared.performHeld h := by
    rw [State.fresh_none hv]
    exact State.perform_alone hs hc (by rw [hknown]; simp)
  have hg : s.me.guard (guardOf (.fence sc)) = true := s.me.guard_always
  have ho : s.orders (.fence sc) = s.cleared.performHeld h := by
    simp only [List.mem_cons, List.not_mem_nil, or_false] at hsc
    rcases hsc with rfl | rfl | rfl | rfl
    · exact hp
    · exact hp
    · exact hp
    · exact (congrArg (State.performCtrl · s.cur) hp).trans (State.performCtrl_none hnone _)
  unfold State.ordered
  rw [hs, hg, ho]
  rfl

/-! ### It is performed -/

section
variable {s : State} {c : MCtx} {pa leaf n v : Nat} {va : Word}

theorem Reaches.cleared (h : Reaches s c pa leaf) (x : Held) : Reaches (s.left x).cleared c pa leaf :=
  ⟨h.mem, h.answers, h.region, h.whole, h.room, h.copyRoom, h.sound⟩

/-- A store that stays behind writes its bytes as it is performed. -/
theorem Reaches.performHeld (h : Reaches s c pa leaf) (hn : n ≠ 64) :
    ∃ s3, (s.left (s.memHeld c (regionOf leaf) pa n v va)).cleared.performHeld (s.memHeld c (regionOf leaf) pa n v va) = s3 ∧
      s3.stores = [] ∧ s3.mem = s.mem.writeN (s.fwd pa) n v := by
  obtain ⟨s3, h3, hm, -, -⟩ := (h.cleared (s.memHeld c (regionOf leaf) pa n v va)).secStore_mem hn v c.who
  refine ⟨s3, ?_, ?_, hm⟩
  · change State.stored ((s.left (s.memHeld c (regionOf leaf) pa n v va)).cleared.secStore (regionOf leaf) c.ag pa n v c.who) _ = s3
    rw [h3]
    rfl
  · have hs := (congrArg State.stores ((s.left (s.memHeld c (regionOf leaf) pa n v va)).cleared.mem_secStore (regionOf leaf) c.ag pa n v c.who).same :)
    rw [h3] at hs
    exact hs

end

/-! ### A result that comes late (13 R288) -/

/-- What an access that is performed gives to a thread that waits for it alone: the register has it, and nothing is outstanding. -/
structure State.HandsOver (s s' : State) (k : Nat) (t : Thread) (d : Dest) (v : Word) : Prop where
  stores : s'.stores = s.stores
  mem : s'.mem = s.mem
  get : (s'.thr k).get d = d.holds v
  pend : (s'.thr k).pend = []
  others : ∀ e, e ≠ d → (s'.thr k).get e = t.get e

theorem State.giveTo_awaited {s : State} {h : Held} {t u : Thread} {d : Dest} (v : Word) (hu : tget s.threads h.c.who = some u)
    (hn : t.noted u) (hp : t.pend = [⟨d, none, 0, h.id⟩]) : s.HandsOver (s.giveTo h v) h.c.who t d v := by
  have hup : u.pend = [⟨d, none, 0, h.id⟩] := by
    obtain ⟨_, _, _, _, rfl⟩ := hn
    exact hp
  have hget : ∀ e, u.get e = t.get e := fun e => by
    obtain ⟨_, _, _, _, rfl⟩ := hn
    cases e <;> rfl
  have hprod : u.produce h.id v = ({ u with pend := [] } : Thread).put d v := by
    rw [Thread.produce, hup]
    exact (if_pos ⟨rfl, rfl⟩).trans (if_pos rfl)
  have he : s.giveTo h v = s.updThr h.c.who fun t => t.produce h.id v := if_pos (by rw [hu]; rfl)
  have hthr : (s.giveTo h v).thr h.c.who = ({ u with pend := [] } : Thread).put d v := by
    rw [he, State.thr_updThr, State.thr_here hu, hprod]
  refine ⟨by rw [he]; rfl, by rw [he]; rfl, ?_, ?_, fun e hed => ?_⟩
  · rw [hthr, Thread.get_put]
  · rw [hthr, Thread.put_pend]
    rfl
  · rw [hthr, ← hget, Thread.get_put_ne _ _ hed]
    cases e <;> rfl

/-- A load that stays behind takes the value that memory has as it is performed. -/
theorem State.performHeld_ld {s s1 : State} {h : Held} {t : Thread} {z : LdSize} {g : BitVec 4} {d a : BitVec 5} {off7 : BitVec 7}
    {la : BitVec 4} {v : Nat} (hs : s.stores = []) (hspad : h.spad = false) (hi : h.i = some (.ld z g d a off7 la))
    (ht : tget s.threads h.c.who = some t) (hp : t.pend = [⟨.x d, none, 0, h.id⟩])
    (hl : s.secLoad h.r h.c.ag h.addr h.n = (s1, .ok v)) :
    s1.stores = [] ∧ s1.HandsOver (s.performHeld h) h.c.who t (.x d) (z.extend v) := by
  have hseen : s.Seen s1 := by
    have hm := (s.mem_secLoad h.r h.c.ag h.addr h.n).seen
    rwa [hl] at hm
  have hst : s1.stores = [] := hseen.stores_eq.trans hs
  have hload : s.performHeld h = s.performLoad h false z.extend := by
    unfold State.performHeld
    rw [hi]
    rfl
  have hperf : s.performLoad h false z.extend = s1.giveTo h (z.extend v) := by
    unfold State.performLoad
    simp only [hspad, Bool.false_eq_true, if_false, hl, State.overlaid, hst, List.foldl_nil]
  obtain ⟨u, hu, hn⟩ := State.seen_thr hseen ht
  rw [hload, hperf]
  exact ⟨hst, State.giveTo_awaited _ hu hn hp⟩

/-- Settles O33: memory that is reached is written and read there, and an access that stays behind is the only one that does. -/
theorem loadsAndStoresOnMemory : Obligations.LoadsAndStoresOnMemory := by
  refine ⟨?_, ?_, ?_, ?_⟩
  · intro s s1 c va n pa leaf v hn ha hx hr hc
    have h64 : n ≠ 64 := fun h => by simp [h] at hn
    obtain ⟨s2, hs, hm, hw, hh⟩ := hr.secStore_mem h64 v c.who
    refine ⟨s2, State.dataStore_ok ha hx ((hr.ownStore hc v va).trans hs), ?_, fun b hb => ?_, hw, fun _ => hh⟩
    · rw [hm, Store.readN_writeN]
    · rw [hm, Store.read_writeN_out _ _ _ _ _ hb]
  · intro s s1 c va n pa leaf nc hn ha hx hr hc hal
    obtain ⟨q, v, hl, hv⟩ := hr.ownLoad hc hn hal nc
    exact ⟨q, v, State.dataLoad_ok ha hx hl, hv.mem, hv.wgs, hv.memory, hv.copied, fun h => ⟨hv.home h, hv.replica h⟩⟩
  · intro s s1 c va n pa leaf v hn ha hal hlt hx hc hm hst hv hd
    have hn0 : 0 < n := Nat.pos_of_ne_zero fun h => by simp [h] at hn
    have h64 : n ≠ 64 := fun h => by simp [h] at hn
    refine ⟨_, s1.memHeld c (regionOf leaf) pa n v va, State.dataStore_ok ha hx (State.ownStore_delayed hc hm hst hv hd), rfl, rfl, rfl,
      fun q w hl => State.ownLoad_left hc hn0 hlt hv hl, fun hr s3 hs3 => ?_⟩
    obtain ⟨s4, hp, hst4, hmem⟩ := hr.performHeld (v := v) (va := va) h64
    have h34 : s3 = s4 := by
      rcases hs3 with rfl | ⟨sc, hsc, hcur, rfl⟩
      · exact (State.performOne_alone rfl rfl).trans hp
      · exact (State.ordered_fence (s := s1.left (s1.memHeld c (regionOf leaf) pa n v va)) rfl hv rfl hcur.symm rfl hsc (hp ▸ hst4)).trans hp
    rw [h34]
    refine ⟨hst4, ?_, fun b hb => ?_⟩
    · rw [hmem, Store.readN_writeN, Nat.mod_eq_of_lt hlt]
    · rw [hmem, Store.read_writeN_out _ _ _ _ _ hb]
  · intro s s1 h t z g d a off7 la v hs hspad hctrl hi ht hp hl
    obtain ⟨hst, hg⟩ := State.performHeld_ld (s := s.cleared) rfl hspad hi ht hp hl
    rw [State.performOne_alone hs hctrl]
    exact ⟨hg.stores.trans hst, hg.mem, hg.get, hg.pend, hg.others⟩

end Sys2Proof.Machine

namespace Sys2Proof.Machine

/-! ## Atomics on memory (09 R201, R202; 05 R114) -/

/-- An atomic that has stayed behind gives its old value as it is performed. -/
theorem State.performRmw_gives {s s1 : State} {h : Held} {t : Thread} {d : Dest} {home : Bool} {f : Nat → Option Nat} {old : Nat}
    (hs : s.stores = []) (ht : tget s.threads h.c.who = some t) (hp : t.pend = [⟨d, none, 0, h.id⟩])
    (ha : s.secAtomic h.r h.c.ag h.addr h.n home f h.c.who = (s1, .ok old)) :
    s1.stores = [] ∧ s1.HandsOver (s.performRmw h home f) h.c.who t d (amoOld (8 * h.n) old) := by
  have hseen : s.Seen s1 := by
    have hm := (s.mem_secAtomic h.r h.c.ag h.addr h.n home f h.c.who).seen
    rwa [ha] at hm
  obtain ⟨u, hu, hn⟩ := State.seen_thr hseen ht
  have hperf : s.performRmw h home f = s1.giveTo h (amoOld (8 * h.n) old) := by rw [State.performRmw, ha]
  rw [hperf]
  exact ⟨hseen.stores_eq.trans hs, State.giveTo_awaited _ hu hn hp⟩

/-! ## Reductions on memory (09 R203; 05 R105) -/

theorem redWidth_bytes (wide : Bool) : redWidth wide / 8 = if wide then 8 else 4 := by cases wide <;> rfl

section
variable {s : State} {ag a : Nat} {op : RedOp} {wide : Bool} {v who : Nat}

/-- A reduction in the partial that an agent holds changes the word it names. -/
theorem State.redPartial_held {c : Copy} (hc : s.copy ag (secOf a) = some c) :
    (s.redPartial ag a op wide v who).mem = s.mem ∧
    (s.redPartial ag a op wide v who).copy ag (secOf a) = some { c with
      data := setPartialWord wide c.data ((a - secOf a) / if wide then 8 else 4)
        (redStep op wide (partialWord wide c.data ((a - secOf a) / if wide then 8 else 4)) v)
      words := c.words ||| BitVec.ofNat 16 (2 ^ ((a - secOf a) / if wide then 8 else 4)) } := by
  unfold State.redPartial
  rw [redWidth_bytes]
  dsimp only
  rw [hc]
  exact ⟨rfl, by simp [State.copy, State.wakeWrite, State.setCopy]⟩

theorem State.doGetU_held (hu : (s.dirOf (secOf a)).uop = some (op, wide)) (hh : s.holds ag (secOf a) = some .u) :
    s.doGetU ag (secOf a) op wide = s := by
  unfold State.doGetU
  rw [if_pos (beq_iff_eq.2 hu), hh]

/-- A request for a partial where none is outstanding recalls every copy, and gives a fresh one. -/
theorem State.doGetU_asks (hu : (s.dirOf (secOf a)).uop = none) :
    (s.doGetU ag (secOf a) op wide).mem = s.mem ∧
    (s.doGetU ag (secOf a) op wide).copy ag (secOf a) = some ⟨.u, freshPartial op wide, 0⟩ := by
  have hm := ((s.recall (secOf a)).tends_purgeWrite (secOf a)).mem.trans (State.recall_takes hu).2.1
  unfold State.doGetU
  rw [hu, if_neg (show ¬((none : Option (RedOp × Bool)) == some (op, wide)) = true from Bool.false_ne_true)]
  dsimp only
  generalize (s.recall (secOf a)).purgeWrite (secOf a) = s1 at hm
  exact ⟨hm, by simp [State.copy, State.setHome, State.setCopy]⟩

variable {pa : Nat} {r : RegionKind}

/-- A reduction in a partial: its agent holds one of the same operation. -/
theorem State.secRed_partial (hr : r ≠ .priv) (hm : s.memCode (ag / 512) (s.fwd pa) false = none)
    (hh : s.holds ag (secOf (s.fwd pa)) = some .u) (hu : (s.dirOf (secOf (s.fwd pa))).uop = some (op, wide)) :
    s.secRed r ag pa op wide v who = (s.redPartial ag (s.fwd pa) op wide v who, none) := by
  have hstore : s.hitStore r ag (secOf (s.fwd pa)) = false := by
    cases r with
    | priv => exact absurd rfl hr
    | rsh | coh | rdup => simp [State.hitStore, hh]
  have hr' : (r == .priv) = false := beq_false_of_ne hr
  unfold State.secRed
  simp only [hstore, hh, hu, bne, hr', Bool.not_false, beq_self_eq_true, Bool.and_self, Bool.or_true, if_true, State.hitCode_none hm,
    Bool.or_self, Bool.false_eq_true, if_false, State.doGetU_held hu hh]

/-- A reduction in place, on a sector that its agent holds alone. -/
theorem State.secRed_place (hm : s.memCode (ag / 512) (s.fwd pa) false = none)
    (hit : s.hitStore r ag (secOf (s.fwd pa)) = true) (hu : (s.dirOf (secOf (s.fwd pa))).uop = none) :
    ∃ s2, s.secRed r ag pa op wide v who = (s2, none) ∧
      s2.mem = s.mem.writeN (s.fwd pa) (if wide then 8 else 4) (redStep op wide (s.mem.readN (s.fwd pa) (if wide then 8 else 4)) v) := by
  have hf := (State.forStore_takes (r := r) (ag := ag) hu).1
  unfold State.secRed
  rw [redWidth_bytes]
  simp only [hit, Bool.true_or, if_true, State.hitCode_none hm, Bool.or_true, hf]
  exact ⟨_, rfl, congrArg (Store.writeN · _ _ _) hf⟩

end

/-- A reduction whose agent has no copy: it asks for a partial, and leaves memory as it is. -/
theorem Reaches.secRed_fresh {s : State} {c : MCtx} {pa leaf : Nat} {op : RedOp} {wide : Bool} {v who : Nat} (h : Reaches s c pa leaf)
    (hr : regionOf leaf ≠ .priv) (hc : s.copy c.ag (secOf (s.fwd pa)) = none) :
    ∃ s2, s.secRed (regionOf leaf) c.ag pa op wide v who = (s2, none) ∧ s2.mem = s.mem ∧ s2.holds c.ag (secOf (s.fwd pa)) = some .u := by
  obtain ⟨q, hq, ha, -, -⟩ := h.ask
  have hu : (q.dirOf (secOf (s.fwd pa))).uop = none := (congrArg Dir.uop (ha.dirOf _)).trans h.whole
  have hh : s.holds c.ag (secOf (s.fwd pa)) = none := by rw [State.holds, hc]; rfl
  have hstore : s.hitStore (regionOf leaf) c.ag (secOf (s.fwd pa)) = false := by
    cases hk : regionOf leaf with
    | priv => exact absurd hk hr
    | rsh | coh | rdup => simp [State.hitStore, hh]
  obtain ⟨hm, hcopy⟩ := State.doGetU_asks (s := q) (ag := c.ag) (op := op) (wide := wide) hu
  obtain ⟨hm', hcopy'⟩ := State.redPartial_held (op := op) (wide := wide) (v := v) (who := who) hcopy
  refine ⟨_, ?_, hm'.trans (hm.trans ha.mem), by rw [State.holds, hcopy']; rfl⟩
  unfold State.secRed
  simp only [hstore, hh, beq_false_of_ne hr, show ((none : Option CacheSt) == some .u) = false from rfl, Bool.and_false, Bool.false_and,
    Bool.or_self, Bool.false_eq_true, if_false, hq]

/-- Settles O36: an atomic writes its bytes where it is performed, and a reduction in place or in the partial of its agent. -/
theorem atomicsOnMemory : Obligations.AtomicsOnMemory := by
  refine ⟨?_, ?_, ?_⟩
  · intro s s1 c va n pa leaf home f hn ha hx hr
    obtain ⟨s2, hs, hm⟩ := hr.secAtomic (n := n) home f c.who
    refine ⟨s2, State.dataRmw_ok ha hx hr.mem hs, fun b hb => ?_, fun v hv => ?_, fun hv => ?_⟩
    · rw [hm]
      cases f (s1.mem.readN (s1.fwd pa) n) with
      | none => rfl
      | some v => exact Store.read_writeN_out _ _ _ _ _ hb
    · rw [hm, hv]
      exact Store.readN_writeN _ _ _ _
    · rw [hm, hv]
      rfl
  · intro s s1 c va pa leaf v op wide
    dsimp only
    intro ha hx hr hc hm hp _
    have hpriv : regionOf leaf ≠ .priv := fun h => by rw [hr] at h; cases h
    refine ⟨fun hh hu => ?_, fun d ws hcopy hu => ?_, fun hcopy hreach => ?_⟩
    · have hit : s1.hitStore (regionOf leaf) c.ag (secOf (s1.fwd pa)) = true := by
        rcases hh with hh | hh <;> simp [State.hitStore, hr, hh, hp]
      obtain ⟨s2, hs, hmem⟩ := State.secRed_place (op := op) (wide := wide) (v := v) (who := c.who) hm hit hu
      refine ⟨s2, State.dataRed_ok ha hx hc hs, ?_, fun b hb => ?_⟩
      · rw [hmem, Store.readN_writeN]
      · rw [hmem, Store.read_writeN_out _ _ _ _ _ hb]
    · have hh : s1.holds c.ag (secOf (s1.fwd pa)) = some .u := by rw [State.holds, hcopy]; rfl
      obtain ⟨hmem, hpart⟩ := State.redPartial_held (op := op) (wide := wide) (v := v) (who := c.who) hcopy
      exact ⟨_, State.dataRed_ok ha hx hc (State.secRed_partial hpriv hm hh hu), hmem, hpart⟩
    · obtain ⟨s2, hs, hmem, hh⟩ := hreach.secRed_fresh (op := op) (wide := wide) (v := v) (who := c.who) hpriv hcopy
      exact ⟨s2, State.dataRed_ok ha hx hc hs, hmem, hh⟩
  · intro s s1 h t i op wide g d a b off o sc la ru old hs hctrl hi hn ht hp
    dsimp only
    rw [← atHome_eq, State.performOne_alone hs hctrl]
    intro hat
    have hbits : amoBits wide = 8 * h.n := by cases wide <;> rw [hn] <;> rfl
    have done : s1.stores = [] ∧ s1.HandsOver (s.cleared.performHeld h) h.c.who t (.x d) (amoOld (8 * h.n) old) := by
      rcases hat with ⟨rfl, hat⟩ | ⟨rfl, hat⟩
      · have hrmw : s.cleared.performHeld h = s.cleared.performRmw h (atHome sc) fun x => some (amoNew op (8 * h.n) x h.v) := by
          rw [State.performHeld, hi, ← hbits]
        rw [hrmw]
        exact State.performRmw_gives (s := s.cleared) rfl ht hp hat
      · have hrmw : s.cleared.performHeld h = s.cleared.performRmw h (atHome sc) fun x => if x = h.w then some h.v else none := by
          rw [State.performHeld, hi]
        rw [hrmw]
        exact State.performRmw_gives (s := s.cleared) rfl ht hp hat
    obtain ⟨hst, hg⟩ := done
    exact ⟨hg.stores.trans hst, hg.mem, hg.pend, hg.get⟩

end Sys2Proof.Machine

namespace Sys2Proof.Machine

/-! ## Error responses (05 R115, R116) -/

/-- The pair that ERRLOG takes. -/
def Thread.errored (t : Thread) (pa code : Nat) : Thread := { t with errAddr := BitVec.ofNat 64 pa, errCause := BitVec.ofNat 64 code }

section
variable {s : State} {c : MCtx} {t : Thread} (ht : tget s.threads c.who = some t) (pa code : Nat)
include ht

theorem State.respond_here : (s.respond c pa code).mem = s.mem ∧ tget (s.respond c pa code).threads c.who = some (t.errored pa code) := by
  have hl : (tget (s.logResp pa code c.die (s.tidOf (s.thr c.who))).threads c.who).isSome = true := by
    change (tget s.threads c.who).isSome = true
    rw [ht]
    rfl
  have he : s.respond c pa code = (s.logResp pa code c.die (s.tidOf (s.thr c.who))).updThr c.who fun t => t.errored pa code := if_pos hl
  have hthr : (s.logResp pa code c.die (s.tidOf (s.thr c.who))).thr c.who = t := State.thr_here ht
  rw [he]
  refine ⟨rfl, ?_⟩
  rw [State.updThr, hthr]
  exact tget_tset_self _ _ _

theorem State.failStore_here (va : Word) : (s.failStore c pa code va).mem = s.mem ∧
    ((s.failStore c pa code va).thr c.who).deferred = some (t.deferred.getD va) := by
  obtain ⟨hm, hu⟩ := s.respond_here ht pa code
  have he : s.failStore c pa code va = (s.respond c pa code).updThr c.who fun t => { t with deferred := some (t.deferred.getD va) } :=
    if_pos (by rw [hu]; rfl)
  rw [he]
  refine ⟨hm, ?_⟩
  rw [State.thr_updThr, State.thr_here hu]
  rfl

end

/-- A package without a replica of a sector is not served by one. -/
theorem State.noReplica {s : State} {r : RegionKind} {ag pa : Nat}
    (hrep : r = .rdup → s.replica (ag / 512) (secOf (s.fwd pa)) = none) :
    (if (r == .rdup && (s.hitCode (ag / 512) (s.fwd pa) false).isNone) = true
    then s.atReplica (ag / 512) (secOf (s.fwd pa)) else (s, none)) = (s, none) := by
  split
  next h =>
    have hr : r = .rdup := beq_iff_eq.1 (Bool.and_eq_true_iff.1 h).1
    rw [State.atReplica, hrep hr]
  · rfl

section
variable {s : State} {r : RegionKind} {ag pa n code : Nat} (hm : s.memCode (ag / 512) (s.fwd pa) false = some code)
include hm

/-- A request to memory that answers with an error does no more. -/
theorem State.ask_error : s.ask r ag (s.fwd pa) false = (s, some code) := by
  unfold State.ask State.reach
  rw [hm]

theorem State.secStore_error (hn : n ≠ 64) (hh : s.hitStore r ag (secOf (s.fwd pa)) = false) (v who : Nat) :
    s.secStore r ag pa n v who = (s, some code) := by
  unfold State.secStore
  simp only [hh, Bool.false_eq_true, if_false, beq_false_of_ne hn, State.ask_error hm]

theorem State.secAtomic_error (hh : s.hitStore r ag (secOf (s.fwd pa)) = false) (home : Bool) (f : Nat → Option Nat) (who : Nat) :
    s.secAtomic r ag pa n home f who = (s, .error code) := by
  unfold State.secAtomic
  simp only [hh, Bool.and_false, Bool.false_eq_true, if_false, State.ask_error hm]

variable (hh : s.hitLoad r ag (secOf (s.fwd pa)) = false) (hrep : r = .rdup → s.replica (ag / 512) (secOf (s.fwd pa)) = none)
include hh hrep

theorem State.secLoad_error : s.secLoad r ag pa n = (s, .error code) := by
  unfold State.secLoad
  simp only [hh, Bool.false_eq_true, if_false, State.noReplica hrep, State.ask_error hm]

theorem State.secLoadNc_error : s.secLoadNc r ag pa n = (s, .error code) := by
  unfold State.secLoadNc
  simp only [hh, Bool.false_eq_true, if_false, State.noReplica hrep, State.ask_error hm]

end

/-- Settles O32: the alignment check stands before the translation, and an error response leaves memory as it is. -/
theorem accessChecksAndErrors : Obligations.AccessChecksAndErrors := by
  refine ⟨fun s c va n v nc home f op wide => ⟨fun ha => ⟨if_pos ha, if_pos ha, if_pos ha⟩, fun ha => ?_, fun ha => ⟨?_, ?_, ?_⟩⟩, ?_⟩
  · rw [← redWidth_bytes] at ha
    exact if_pos ha
  · exact fun s1 k hx => (if_neg (not_not.2 ha)).trans (State.xlateAcc_fault hx _)
  · exact fun s1 k hx => (if_neg (not_not.2 ha)).trans (State.xlateAcc_fault hx _)
  · exact fun s1 k hx => (if_neg (not_not.2 ha)).trans (State.xlateAcc_fault hx _)
  · intro s s1 t c va n pa leaf v code nc home f ha hc ht hn hm hcalm hload hstore hrep
    obtain ⟨hmem, hu⟩ := s1.respond_here ht pa code
    refine ⟨fun hx => ?_, fun hx => ?_, fun hx => ?_⟩
    · have hl : s1.ownLoad c (regionOf leaf) pa n nc = (s1, .error code) := by
        rw [State.ownLoad_calm hcalm, State.physLoad_memory hc]
        cases nc
        · exact State.secLoad_error hm hload hrep
        · exact State.secLoadNc_error hm hload hrep
      refine ⟨_, State.dataLoad_error ha hx hl, ?_, ?_, hmem⟩ <;> rw [State.thr_here hu] <;> rfl
    · exact ⟨_, State.dataRmw_error ha hx hc (State.secAtomic_error hm hstore home f c.who), hmem⟩
    · have ho : s1.ownStore c (regionOf leaf) pa n v va = (s1, some code) := by
        rw [State.ownStore_calm hcalm, State.physStore_memory hc]
        exact State.secStore_error hm hn hstore v c.who
      obtain ⟨hfm, hdef⟩ := s1.failStore_here ht pa code va
      exact ⟨_, State.dataStore_error ha hx ho, hdef, hfm⟩

end Sys2Proof.Machine

namespace Sys2Proof.Machine

/-! ## What a store leaves for the load that follows it (04 R78; 05 R104; 09 R194) -/

/-- GetX leaves poisoned sectors and open records as they are. -/
theorem State.tends_doGetX {s : State} {ag sec : Nat} (hu : (s.dirOf sec).uop = none) : s.Tends sec (s.doGetX ag sec) := by
  unfold State.doGetX
  split
  · exact .refl s sec
  · exact s.tends_setCopy _ _ _ _
  · rw [State.combine_whole hu]
    dsimp only
    have ht : s.Tends sec (if s.holds ag sec == some .o then s.purgeWrite sec else (s.purgeWrite sec).giveBack sec) :=
      .ite (s.tends_purgeWrite sec) ((s.tends_purgeWrite sec).trans (State.tends_giveBack _ sec))
    generalize (if s.holds ag sec == some .o then s.purgeWrite sec else (s.purgeWrite sec).giveBack sec) = s2 at ht
    rw [State.foldl_dropOthers]
    refine ((ht.trans (State.tends_drops _ _ _ _)).trans (State.tends_setCopy _ _ _ _ _)).trans (State.tends_setHome _ _ fun _ => ?_)
    exact ⟨rfl, nofun⟩

/-- What stands in a COH sector once its agent has stored to it: its own copy serves it, and memory has the bytes. -/
structure State.Owned (s s2 : State) (ag a n v : Nat) : Prop where
  pkgs : s2.pkgs = s.pkgs
  units : s2.units = s.units
  late : s2.late = s.late
  cur : s2.cur = s.cur
  mem : s2.mem = s.mem.writeN a n v
  holds : s2.holds ag (secOf a) = some .m
  clean : s2.poison.contains (secOf a) = false
  tracked : (s2.dirOf (secOf a)).st ≠ .p

theorem Reaches.owned {s : State} {c : MCtx} {pa leaf n : Nat} (h : Reaches s c pa leaf) (hr : regionOf leaf = .coh) (hn : n ≠ 64)
    (v who : Nat) : ∃ s2, s.secStore .coh c.ag pa n v who = (s2, none) ∧ s.Mem s2 ∧ s.Owned s2 c.ag (s.fwd pa) n v := by
  obtain ⟨q, ha, hp, hs⟩ := h.secStore hn v who
  rw [hr] at hs
  have hregion := h.region
  rw [hr] at hregion
  have hopen : (q.dirOf (secOf (s.fwd pa))).Open := by
    rw [ha.dirOf]
    exact ⟨h.whole, fun he => by simp [State.privOther, he] at hregion⟩
  have ht : q.Tends (secOf (s.fwd pa)) (q.doGetX c.ag (secOf (s.fwd pa))) := State.tends_doGetX hopen.1
  obtain ⟨hm, hh⟩ := State.forStore_takes (r := .coh) (ag := c.ag) hopen.1
  have hmem := s.mem_secStore .coh c.ag pa n v who
  rw [hs] at hmem
  refine ⟨_, hs, hmem, (congrArg State.pkgs hmem.same :), (congrArg State.units hmem.same :), (congrArg State.late hmem.same :),
    (congrArg State.cur hmem.same :), congrArg (Store.writeN · (s.fwd pa) n v) (hm.trans ha.mem), hh (.inl nofun), ?_, (ht.opened hopen _ hopen).2⟩
  have hpo : ((q.forStore .coh c.ag (secOf (s.fwd pa))).setMem c.ag (s.fwd pa) n v who).poison = q.poison :=
    (if_neg hn).trans ht.poison
  rw [hpo]
  exact hp

section
variable {s s2 : State} {c : MCtx} {pa leaf n v : Nat} (h : Reaches s c pa leaf) (ho : s.Owned s2 c.ag (s.fwd pa) n v)
include h ho

/-- The agent's load of what it has stored. -/
theorem Reaches.physLoad_owned : s2.physLoad c .coh pa n false = (s2, .ok (v % 256 ^ n)) := by
  have hf : s2.fwd pa = s.fwd pa := State.fwd_congr ho.pkgs pa
  have hc : s2.atCtrl (c.ag / 512) pa = false := by
    rw [← h.mem]
    unfold State.atCtrl State.present State.reaches State.routeMask State.gone State.service State.pkg
    rw [ho.pkgs, ho.units]
  have hcode : s2.hitCode (c.ag / 512) (s2.fwd pa) false = none := by
    rw [hf]
    exact State.hitCode_none (State.memCode_sound ho.pkgs ho.units ho.cur (.inl ho.late) ho.clean h.answers)
  have hit : s2.hitLoad .coh c.ag (secOf (s2.fwd pa)) = true := by
    unfold State.hitLoad
    rw [hf, ho.holds]
    simpa using ho.tracked
  have hv : s2.valueAt c.ag (s2.fwd pa) n = v % 256 ^ n := by
    rw [State.valueAt_memory, hf, ho.mem, Store.readN_writeN]
    intro d ws he
    have hh := ho.holds
    rw [← hf, State.holds, he] at hh
    cases hh
  rw [State.physLoad_memory hc]
  change s2.secLoad .coh c.ag pa n = _
  unfold State.secLoad
  simp only [hit, if_true, hcode, hv]

end

theorem State.Owned.updMe {s s2 : State} {ag a n v : Nat} (h : s.Owned s2 ag a n v) (f : Thread → Thread) :
    s.Owned (s2.updMe f) ag a n v := ⟨h.pkgs, h.units, h.late, h.cur, h.mem, h.holds, h.clean, h.tracked⟩

/-! ## A load after a store (09 R194, R195) -/

/-- With no result on its way, a thread's instruction reads its registers. -/
theorem State.src_still {s : State} {t : Thread} (h : tget s.threads s.cur = some t) (hp : t.pend = []) (pos : Nat) (d : Dest) :
    s.src pos d = t.get d := by
  unfold State.src
  rw [State.me_here h, hp]
  rfl

/-- An access in system mode without translation goes to the address it names (04 R78). -/
theorem State.xlate_bare {s : State} {t : Thread} {ea : Word} {k : Nat} (hm : t.mode = true) (hp : ptEn t.ptBase = false)
    (he : ea.toNat < 2 ^ 52) (x : XKind) : s.xlate (t.mctx k) ea x = (s, .ok ea.toNat bareLeaf) :=
  ((s.xlate_before_walk (t.mctx k) ea x).2.2 (by omega) hp).2.2 hm he

section
variable {s : State} {t : Thread} {g : BitVec 4} {d a e : BitVec 5} {off : BitVec 7} {la : BitVec 4} {ea : Word}

/-- A store at an address that is reached: its thread goes on, and its agent owns the sector. -/
theorem exec_st_owned (hr : Runs s t g [.x d, .x a] [.x d, .x a]) (hp : t.pend = []) (hm : t.mode = true) (hpt : ptEn t.ptBase = false)
    (hea : mAddr (t.get (.x a)) off 8 = ea) (hal : ea.toNat % 8 = 0) (hlt : ea.toNat < 2 ^ 52)
    (hreach : Reaches s (t.mctx s.cur) ea.toNat bareLeaf) (hc : s.Calm) : ∃ s2,
      exec (.st .b64 g d a off la) s = .next (s2.finish (lenOf (.st .b64 g d a off la))) ∧ s.Mem s2 ∧
      s.Owned s2 t.agent (s.fwd ea.toNat) 8 (t.get (.x d)).toNat := by
  obtain ⟨s2, hs, hmem, ho⟩ := hreach.owned (n := 8) rfl (by decide) (t.get (.x d)).toNat s.cur
  refine ⟨s2, ?_, hmem, ho⟩
  have hdata : s.dataStore (t.mctx s.cur) ea 8 (t.get (.x d)).toNat = (s2, .ok 0) :=
    State.dataStore_ok hal (State.xlate_bare hm hpt hlt .store) ((hreach.ownStore hc _ _).trans hs)
  have hx : exec (.st .b64 g d a off la) s = .next (s.storeFrom (.st .b64 g d a off la) (mAddr (s.srcX 0 a) off 8) 8 (s.srcX 1 d).toNat) := by
    change execSt .b64 g d a off la s = _
    exact State.lane_runs hr _ false nofun _
  rw [hx, State.srcX, State.src_still hr.here hp, State.srcX, State.src_still hr.here hp, hea, State.storeFrom, State.me_here hr.here,
    hdata]
  rfl

/-- What the end of the store leaves of its thread. -/
theorem Thread.complete_still {u : Thread} (hn : t.woken u) (hp : t.pend = []) (n : Nat) :
    (u.complete n).pend = [] ∧ (u.complete n).p = t.p ∧ (u.complete n).rest = t.rest ∧ ∀ x, (u.complete n).get x = t.get x := by
  have o := u.over_complete n
  obtain ⟨_, rfl⟩ := hn
  refine ⟨?_, o.p, o.rest, fun x => ?_⟩
  · rw [o.pend, Thread.tick, hp]
    rfl
  · rw [o.get x fun q hq => by rw [hp] at hq; cases hq]
    cases x <;> rfl

/-- The thread and its state after the store. -/
theorem State.finish_thread {s2 : State} (hmem : s.Mem s2) (ht : tget s.threads s.cur = some t) (n : Nat) :
    ∃ u, t.woken u ∧ tget (s2.finish n).threads (s2.finish n).cur = some (u.complete n) := by
  have hcur : s2.cur = s.cur := State.seen_cur hmem.seen
  rcases wokenAll_tget hmem.woken s.cur with ⟨h, -⟩ | ⟨_, u, h1, hu, hw⟩
  · rw [ht] at h
    cases h
  · cases ht.symm.trans h1
    rw [← hcur] at hu
    refine ⟨u, hw, ?_⟩
    rw [State.finish, State.updMe_here hu]
    exact tget_tset_self _ _ _

/-- A load by a thread of its own in the sector that its agent has stored to. -/
theorem exec_ld_owned {s3 : State} {u : Thread} (hr : Runs s3 u g [.x e, .x a] [.x a]) (hp : u.pend = []) (hm : u.mode = true)
    (hpt : ptEn u.ptBase = false) (hea : mAddr (u.get (.x a)) off 8 = ea) (hal : ea.toNat % 8 = 0) (hlt : ea.toNat < 2 ^ 52)
    (hc : s3.Calm) {v : Nat} (hl : s3.physLoad (u.mctx s3.cur) .coh ea.toNat 8 false = (s3, .ok v)) :
    Answers s3 (.ld .d64 g e a off 0) fun s' => s'.me.get (.x e) = (Dest.x e).holds (BitVec.ofNat 64 v) := by
  have hload : LoadsAt s3 u (.ld .d64 g e a off 0) ea 8 false (.x e) 0 LdSize.d64.extend := by
    have h := loadsAt_of_loadTo (i := .ld .d64 g e a off 0) hr (by rfl) (by rfl)
    rwa [State.srcX, State.src_still hr.here hp, show LdSize.d64.bytes = 8 from rfl, hea] at h
  have hdata : s3.dataLoad (u.mctx s3.cur) ea 8 false = (s3, .ok v) :=
    State.dataLoad_ok hal (State.xlate_bare hm hpt hlt .load) ((State.ownLoad_calm hc _ _ _ _ _).trans hl)
  obtain ⟨w, hx, hw⟩ := (hload.1 (by rw [hc.delay]; nofun)).1 s3 v hdata
  refine ⟨_, hx, ?_⟩
  change ((s3.setThr s3.cur w).thr s3.cur).get (.x e) = _
  rw [State.thr_setThr]
  exact hw.now (.inr (.inl rfl))

end

/-- Settles O34: the store leaves its sector with the agent in M, whose next load reads memory's bytes there. -/
theorem loadAfterStore : Obligations.LoadAfterStore := by
  intro s s1 t g d a e off la hr hbud hp hm hpt
  dsimp only
  rw [show off.toInt * 8 = off.toInt * ((8 : Nat) : Int) from rfl, ← mAddr_eq]
  intro hal hlt hreach hc hx1
  obtain ⟨s2, hx, hmem, ho⟩ := exec_st_owned (la := la) hr hp hm hpt rfl hal hlt hreach hc
  cases hx1.symm.trans hx
  generalize lenOf (.st .b64 g d a off la) = n
  obtain ⟨u, hw, hhere⟩ := State.finish_thread hmem hr.here n
  obtain ⟨hup, hpred, hrest, hget⟩ := Thread.complete_still hw hp n
  have hctx : (u.complete n).mctx (s2.finish n).cur = t.mctx s.cur := by
    rw [show (s2.finish n).cur = s.cur from ho.cur]
    exact (congrArg (·.mctx s.cur) hrest :)
  have hruns : Runs (s2.finish n) (u.complete n) g [.x e, .x a] [.x a] := by
    refine ⟨hhere, ?_, ?_, ?_⟩
    · have hb := hr.budget
      have hall : [Dest.x e, .x a].all t.inBudget = true := by
        simp only [List.all_cons, List.all_nil, Bool.and_true, Bool.and_eq_true] at hb ⊢
        exact ⟨hbud, hb.2⟩
      exact (congrArg (fun r : Thread => [Dest.x e, .x a].all r.inBudget) hrest :).trans hall
    · rw [Thread.guard, Thread.getP, hpred]
      exact hr.guard
    · rw [Thread.hazard, hup]
      rfl
  have hcalm : (s2.finish n).Calm :=
    ⟨hmem.seen.stores_eq.trans hc.stores, hmem.seen.views_eq.trans hc.views, (congrArg State.delay hmem.same :).trans hc.delay⟩
  have hload : (s2.finish n).physLoad ((u.complete n).mctx (s2.finish n).cur) .coh (mAddr (t.get (.x a)) off 8).toNat 8 false =
      (s2.finish n, .ok (t.get (.x d)).toNat) := by
    have h := hreach.physLoad_owned (s2 := s2.finish n) (ho.updMe _)
    have hv : (t.get (.x d)).toNat < 256 ^ 8 := (t.get (.x d)).isLt
    rwa [Nat.mod_eq_of_lt hv, ← hctx] at h
  have h := exec_ld_owned hruns hup ((congrArg Thread.mode hrest :).trans hm) ((congrArg (fun r : Thread => ptEn r.ptBase) hrest :).trans hpt)
    (by rw [hget]) hal hlt hcalm hload
  rwa [BitVec.ofNat_toNat, BitVec.setWidth_eq] at h

end Sys2Proof.Machine
